-- ==== Sys2Proof/Word.lean ====
section
/-!
DEFINITION. The word types of the LX9600 and their plainest arithmetic (R4, R5, R15): 64-bit scalar words, 32-bit lanes,
256-byte vector registers, bytes.
-/
namespace Sys2Proof

/-- A scalar register, address or control-register value (R15). -/
abbrev Word := BitVec 64
/-- One lane of a vector register (R15). -/
abbrev Lane := BitVec 32
/-- A vector, operand or last-result register: 64 lanes of 32 bits (R15). -/
abbrev Vec := BitVec 2048
/-- One byte (R5). -/
abbrev Byte := BitVec 8

/-- Bits `hi` down to `lo` of `x`, as a number (R4). -/
def fld (x : Nat) (hi lo : Nat) : Nat := (x >>> lo) % 2 ^ (hi + 1 - lo)

/-- `x` with bits `hi` down to `lo` replaced by `v` (R4). -/
def setFld (x hi lo v : Nat) : Nat :=
  x - (fld x hi lo) * 2 ^ lo + (v % 2 ^ (hi + 1 - lo)) * 2 ^ lo

/-- The two's-complement reading of the low `n` bits of `x`. -/
def sextI (x n : Nat) : Int :=
  if (x % 2 ^ n) * 2 < 2 ^ n then ((x % 2 ^ n : Nat) : Int) else ((x % 2 ^ n : Nat) : Int) - (2 ^ n : Nat)

end Sys2Proof
end

