-- ==== Sys2Proof/Config.lean ====
section
/-!
DEFINITION. What the part fixes (R1), and the free values: values and moments that the manual leaves open. A free value has no
body, so nothing can be proved of it; `State.fresh` says which one comes next (assumption log 1 and 4).
-/
namespace Sys2Proof.Config

/-- R1: cores of the part. -/
def nCores : Nat := 768
/-- R1: clusters. -/
def nClusters : Nat := 8
/-- R11: cores in one cluster. -/
def coresPerCluster : Nat := 96
/-- R1: granules. -/
def nGranules : Nat := 48
/-- R36: bytes of one scratchpad. -/
def scratchBytes : Nat := 0x180000
/-- R36: first byte of bank group B. -/
def groupB : Nat := 0xC0000
/-- R254: slots that a search may reach. -/
def horizon : Nat := 65536
/-- R254: interval entries of one calendar. -/
def calEntries : Nat := 64
/-- R1: calendars: 768 matrix engines, 96 copy engines, 48 channel groups, 16 ports, 32 reduction contexts. -/
def nCalendars : Nat := 960
/-- R299: bytes of a physical frame. -/
def frameBytes : Nat := 0x200000
/-- R299: frames of one memory channel group. -/
def framesPerGroup : Nat := 5120
/-- R299: first platform frame position of a group. -/
def firstPlatform : Nat := 5088
/-- R329: slots of one millisecond of link timeout. -/
def slotsPerMs : Nat := 13281
/-- R321: flits that the buffer of a virtual channel has room for: one packet of the largest size (DESIGN CHOICE, assumption log 88). -/
def vcFlits : Nat := 5
/-- Bytes that a port carries in a cycle and a direction: 200 GB/s at 850 MHz (chapter 13). -/
def portBytes : Nat := 235
/-- R257: bytes that a copy engine moves in one cycle. -/
def copyRate : Nat := 752

/-- Undefined bits (R9): free value number `n` of width `w`. -/
opaque freeValue (w : Nat) : Nat → BitVec w
/-- What a read that comes too early in timed mode returns (R52): width, cycle, reader (core and strand) and register. -/
opaque earlyRead (w : Nat) (cyc reader register : Nat) : BitVec w
/-- Extra cycles, beyond 15, of the landing of a latency-15 result (R49), number `n`. -/
opaque extraLatency : Nat → Nat
/-- Cycles from the reading of a store's source to its performance, when nothing else delays it (R137, R239), number `n`. -/
opaque performDelay : Nat → Nat
/-- Cycles that the Booking Unit's search takes before its decision can be made (R261: one calendar per cycle). -/
opaque searchDelay : Nat → Nat
/-- Bytes of DRAM that walking tables or fetching text reads beyond what caches hold (R308, R382), number `n`. -/
opaque walkBytes : Nat → Nat
/-- Whether granule `n` that an unordered reader sees is the new one (R245). -/
opaque freeBool : Nat → Bool
/-- The seal of a save area (R369: HMAC with SHA-384 under a key that never leaves the platform): key number and bytes. -/
opaque sealOf : Nat → List (Nat × BitVec 8) → BitVec 128
/-- Whether a patch bundle carries a valid signature and a permitted security version (R404). -/
opaque bundleValid : List (BitVec 8) → Bool
/-- The bytes of the Hymin ROM, measured as M0 (R405). -/
opaque rom : List (BitVec 8)
/-- The P-384 signature of a SHA-384 digest under the device identity key, which never leaves the part (R405). -/
opaque signReport : List (BitVec 8) → BitVec 768
/-- The identity of the part (R398): part number, silicon stepping and serial, 16 bytes, and its identity certificate chain. -/
opaque identity : BitVec 128
opaque certificates : List (BitVec 8)
/-- Hymin and patch security versions of a running bundle (R398, R404). -/
opaque versions : List (BitVec 8) → BitVec 64
/-- What the far end of a port's link names itself (R398): peer device and port. -/
opaque peer : Nat → BitVec 32

end Sys2Proof.Config
end

