-- ==== Sys2Proof/Machine/SMap.lean ====
section
/-!
DEFINITION. Sparse tables and byte memories as plain lists. A table lists keys in rising order; a key that is not listed has the
default of the table. A memory lists (address, byte) pairs in rising order of address and never lists a zero byte: an address
that is not listed reads as zero, the value that hardware writes when a location changes owner (R237, R316).
-/
namespace Sys2Proof.Machine

/-- A table from numbers to values, keys rising. -/
abbrev SMap (α : Type) := List (Nat × α)

/-- The value listed for key `k`. -/
def SMap.find? {α : Type} : SMap α → Nat → Option α
  | [], _ => none
  | (j, v) :: t, k => if j = k then some v else SMap.find? t k

/-- The value for key `k`, with the table's default. -/
def SMap.get {α : Type} (m : SMap α) (d : α) (k : Nat) : α := (SMap.find? m k).getD d

/-- The table with key `k` set to `v`. -/
def SMap.set {α : Type} : SMap α → Nat → α → SMap α
  | [], k, v => [(k, v)]
  | (j, w) :: t, k, v => if k < j then (k, v) :: (j, w) :: t else if k = j then (k, v) :: t else (j, w) :: SMap.set t k v

/-- The table without key `k`. -/
def SMap.erase {α : Type} (m : SMap α) (k : Nat) : SMap α := m.filter fun p => p.1 != k

/-- The value at `k` changed by `f`. -/
def SMap.upd {α : Type} (m : SMap α) (d : α) (k : Nat) (f : α → α) : SMap α := SMap.set m k (f (SMap.get m d k))

/-- Byte memory (R5, R237). -/
abbrev Mem := List Host.Cell

/-- The byte at `a`; an address not listed reads as zero. -/
def Mem.get : Mem → Nat → Byte
  | [], _ => 0
  | (j, v) :: t, a => if j = a then v else Mem.get t a

/-- The memory with byte `v` at `a`, in canonical form. -/
def Mem.set : Mem → Nat → Byte → Mem
  | [], a, v => if v = 0 then [] else [(a, v)]
  | (j, w) :: t, a, v =>
    if a < j then (if v = 0 then (j, w) :: t else (a, v) :: (j, w) :: t)
    else if a = j then (if v = 0 then t else (a, v) :: t)
    else (j, w) :: Mem.set t a v

/-- Every listed address lies at or above `lo` and addresses rise, and no byte listed is zero. -/
def Mem.wfFrom : Nat → Mem → Bool
  | _, [] => true
  | lo, (a, v) :: t => decide (lo ≤ a) && decide (v ≠ 0) && Mem.wfFrom (a + 1) t

/-- The canonical form: addresses strictly rising, no zero byte listed. -/
def Mem.wf (m : Mem) : Bool := Mem.wfFrom 0 m

/-- The `n` bytes at `a` as a little-endian number (R5). -/
def Mem.read (m : Mem) (a : Nat) : Nat → Nat
  | 0 => 0
  | n + 1 => (Mem.get m a).toNat + 256 * Mem.read m (a + 1) n

/-- The low `n` bytes of `v` stored at `a`, lowest byte first (R5). -/
def Mem.write (m : Mem) (a : Nat) : Nat → Nat → Mem
  | 0, _ => m
  | n + 1, v => Mem.write (Mem.set m a (BitVec.ofNat 8 v)) (a + 1) n (v / 256)

/-- The bytes of a list stored from `a` on. -/
def Mem.writeBytes (m : Mem) (a : Nat) : List Byte → Mem
  | [] => m
  | b :: bs => Mem.writeBytes (Mem.set m a b) (a + 1) bs

/-- The `n` bytes at `a` as a list. -/
def Mem.readBytes (m : Mem) (a n : Nat) : List Byte := (List.range n).map fun k => Mem.get m (a + k)

/-- The memory without the bytes from `lo` to `lo + n - 1` (they read as zero). -/
def Mem.clear (m : Mem) (lo n : Nat) : Mem := m.filter fun c => decide (c.1 < lo ∨ lo + n ≤ c.1)

/-- A set of numbers, rising. -/
abbrev NSet := List Nat

/-- `k` added to a set. -/
def NSet.add : NSet → Nat → NSet
  | [], k => [k]
  | j :: t, k => if k < j then k :: j :: t else if k = j then j :: t else j :: NSet.add t k

/-- `k` removed from a set. -/
def NSet.del (s : NSet) (k : Nat) : NSet := s.filter fun j => j != k

end Sys2Proof.Machine
end

