-- ==== Sys2Proof/Syntax.lean ====
section
/-!
DEFINITION. The instruction set of the LX9600: the strands, the fields of an instruction word (R41, R43), the operands of the
part's other operations, and ONE inductive with a constructor for every row of the opcode table. The first 206 are instruction
words; the others are steps of the part's engines, schedulers, fabric, firmware and host interface, which have no word.
-/
namespace Sys2Proof

/-- The four strands of a core (R11), coded as in `STR` (R41). -/
inductive Strand where
  | C | L | X | S
deriving DecidableEq, Repr

/-- The code of a strand in `STR` (R41). -/
def Strand.code : Strand → Nat
  | .C => 0
  | .L => 1
  | .X => 2
  | .S => 3

/-- The strand that a `STR` code names (R41). -/
def Strand.ofCode (n : Nat) : Strand :=
  if n = 0 then .C else if n = 1 then .L else if n = 2 then .X else .S

/-- The common part of every instruction word, bits 79:56 (R41). -/
structure Hdr where
  str : Strand
  /-- `wp`, `ws`, `sp`, `ss` from bit 3 down (R20). -/
  tok : BitVec 4
  pn : Bool
  psel : BitVec 4
  dst : BitVec 4
  tal : BitVec 3
  tc1 : BitVec 3
  tc2 : BitVec 3
deriving DecidableEq, Repr

/-- Format `RRR` (R43). -/
structure RRR where
  d : BitVec 7
  a : BitVec 7
  b : BitVec 7
  c : BitVec 7
  md : BitVec 18
deriving DecidableEq, Repr

/-- Format `RRI` (R43). -/
structure RRI where
  d : BitVec 7
  a : BitVec 7
  imm : BitVec 32
deriving DecidableEq, Repr

/-- Format `MEM` (R43, R45). -/
structure MEM where
  dr : BitVec 7
  br : BitVec 7
  cls : BitVec 4
  scp : BitVec 3
  sz : BitVec 2
  off : BitVec 23
deriving DecidableEq, Repr

/-- Format `MEMX` (R43, R45). -/
structure MEMX where
  dr : BitVec 7
  br : BitVec 7
  cls : BitVec 4
  scp : BitVec 3
  sz : BitVec 2
  xr : BitVec 7
  off : BitVec 16
deriving DecidableEq, Repr

/-- Format `BRA` (R43, R46). -/
structure BRA where
  a : BitVec 7
  l : BitVec 7
  off : BitVec 32
deriving DecidableEq, Repr

/-- Format `MXC` (R43, R47). -/
structure MXC where
  acc : BitVec 1
  aa : BitVec 7
  ba : BitVec 7
  sr : BitVec 7
  shp : BitVec 4
  fsl : BitVec 1
  fsi : BitVec 4
  mr : BitVec 7
  rsv : BitVec 8
deriving DecidableEq, Repr

/-- Format `SYS` (R43, R48). -/
structure SYS where
  a : BitVec 7
  b : BitVec 7
  sub : BitVec 8
  imm : BitVec 24
deriving DecidableEq, Repr

/-- Reply-class types of packets (R323, R347). -/
def replyType (ty : Nat) : Bool := ty ∈ [1, 5, 6, 7, 9, 10, 11, 12, 13, 14, 15, 17, 18]

/-- A fabric packet: the header fields of R322 and its payload bytes, whose number is `PLEN`, with the poison mark of each 8-byte word
(bit `k` of `marks`). `inPort` is the port on which it came in, and `inside` says that it never crossed one (R39, R333). -/
structure Pkt where
  ty : Nat
  /-- reply class -/
  mc : Bool := replyType ty
  ocnt : BitVec 128 := 0
  addr : BitVec 64 := 0
  opnd : BitVec 64 := 0
  tag : BitVec 32 := 0
  reason : BitVec 8 := 0
  status : BitVec 8 := 0
  poff : BitVec 10 := 0
  cls : BitVec 4 := 0
  sub : BitVec 4 := 0
  rqdev : BitVec 12 := 0
  sdev : BitVec 12 := 0
  ddev : BitVec 12 := 0
  job : BitVec 12 := 0
  spart : BitVec 6 := 0
  rti : BitVec 2 := 0
  nhop : BitVec 4 := 1
  hop : BitVec 3 := 0
  route : BitVec 32 := 0
  inPort : BitVec 4 := 0
  inside : Bool := false
  payload : List (BitVec 8) := []
  marks : Nat := 0
deriving DecidableEq, Repr

/-- A booking message between Booking Units (R274 to R276): what a `BOOK` packet carries. -/
structure BookMsg where
  job : Nat := 0
  dev : Nat
  handle : BitVec 32
  stage : Nat
  ecls : Nat := 0
  inst : Nat := 0
  cap : Nat := 1
  dur : Nat := 1
  lo : Nat := 0
  hi : Nat := 0
  /-- the port on which it came in, and whether it never crossed one -/
  inPort : BitVec 4 := 0
  inside : Bool := false
deriving DecidableEq, Repr

/-- A firmware command descriptor (R399) with the function that submitted it. -/
structure Desc where
  fn : Nat
  code : BitVec 16
  htag : BitVec 32
  opnd : BitVec 384
deriving DecidableEq, Repr

/-- A write that reaches a bank controller's counting port (R187): `direct` when it reaches the scratchpad only through window
`win` at byte `off` of it, otherwise a write of the owning context at scratch offset `off`. -/
structure CWrite where
  core : Nat
  off : Nat
  bytes : List (BitVec 8)
  marks : Nat := 0
  direct : Bool := false
  win : Nat := 0
  rq : Nat := 0
  owner : Nat := 0
  clsMask : Nat := 0
deriving DecidableEq, Repr

/-- What the background scrubber visits (R314): a scratch word or a DRAM line, and whether its error is uncorrectable. -/
inductive ScrubUnit where
  | scratchWord (core word : Nat) (uncorrectable : Bool)
  | dramLine (line : Nat) (uncorrectable : Bool)
deriving DecidableEq, Repr

/-- The extent of a machine check (R394). -/
inductive McScope where
  | context (part fn : Nat)
  | granules (mask : Nat)
  | shared
deriving DecidableEq, Repr

/-- A PCI Express AtomicOp (R396); `wide` is the 64-bit form. -/
inductive HostOp where
  | fetchAdd (wide : Bool) (x : BitVec 64)
  | swap (wide : Bool) (x : BitVec 64)
  | cas (wide : Bool) (cmp x : BitVec 64)
deriving DecidableEq, Repr

/-- Every step of the opcode table. -/
inductive Instr where
  /-- `add` (R90) -/
  | add (h : Hdr) (o : RRR)
  /-- `sub` (R90) -/
  | sub (h : Hdr) (o : RRR)
  /-- `and` (R90) -/
  | and (h : Hdr) (o : RRR)
  /-- `or` (R90) -/
  | or (h : Hdr) (o : RRR)
  /-- `xor` (R90) -/
  | xor (h : Hdr) (o : RRR)
  /-- `shl` (R90) -/
  | shl (h : Hdr) (o : RRR)
  /-- `shr` (R90) -/
  | shr (h : Hdr) (o : RRR)
  /-- `sra` (R90) -/
  | sra (h : Hdr) (o : RRR)
  /-- `mul` (R90) -/
  | mul (h : Hdr) (o : RRR)
  /-- `mulh` (R90) -/
  | mulh (h : Hdr) (o : RRR)
  /-- `mulhu` (R90) -/
  | mulhu (h : Hdr) (o : RRR)
  /-- `min` (R90) -/
  | min (h : Hdr) (o : RRR)
  /-- `max` (R90) -/
  | max (h : Hdr) (o : RRR)
  /-- `minu` (R90) -/
  | minu (h : Hdr) (o : RRR)
  /-- `maxu` (R90) -/
  | maxu (h : Hdr) (o : RRR)
  /-- `addi` (R91) -/
  | addi (h : Hdr) (o : RRI)
  /-- `andi` (R91) -/
  | andi (h : Hdr) (o : RRI)
  /-- `ori` (R91) -/
  | ori (h : Hdr) (o : RRI)
  /-- `xori` (R91) -/
  | xori (h : Hdr) (o : RRI)
  /-- `shli` (R91) -/
  | shli (h : Hdr) (o : RRI)
  /-- `shri` (R91) -/
  | shri (h : Hdr) (o : RRI)
  /-- `srai` (R91) -/
  | srai (h : Hdr) (o : RRI)
  /-- `muli` (R91) -/
  | muli (h : Hdr) (o : RRI)
  /-- `lih` (R91) -/
  | lih (h : Hdr) (o : RRI)
  /-- `extr` (R92) -/
  | extr (h : Hdr) (o : RRI)
  /-- `extru` (R92) -/
  | extru (h : Hdr) (o : RRI)
  /-- `ins` (R92) -/
  | ins (h : Hdr) (o : RRI)
  /-- `clz` (R92) -/
  | clz (h : Hdr) (o : RRI)
  /-- `ctz` (R92) -/
  | ctz (h : Hdr) (o : RRI)
  /-- `popc` (R92) -/
  | popc (h : Hdr) (o : RRI)
  /-- `brev` (R92) -/
  | brev (h : Hdr) (o : RRI)
  /-- `cmp.eq` (R93) -/
  | cmpEq (h : Hdr) (o : RRR)
  /-- `cmp.ne` (R93) -/
  | cmpNe (h : Hdr) (o : RRR)
  /-- `cmp.lt` (R93) -/
  | cmpLt (h : Hdr) (o : RRR)
  /-- `cmp.ltu` (R93) -/
  | cmpLtu (h : Hdr) (o : RRR)
  /-- `cmp.ge` (R93) -/
  | cmpGe (h : Hdr) (o : RRR)
  /-- `cmp.geu` (R93) -/
  | cmpGeu (h : Hdr) (o : RRR)
  /-- `cmpi.eq` (R93) -/
  | cmpiEq (h : Hdr) (o : RRI)
  /-- `cmpi.ne` (R93) -/
  | cmpiNe (h : Hdr) (o : RRI)
  /-- `cmpi.lt` (R93) -/
  | cmpiLt (h : Hdr) (o : RRI)
  /-- `cmpi.ltu` (R93) -/
  | cmpiLtu (h : Hdr) (o : RRI)
  /-- `cmpi.ge` (R93) -/
  | cmpiGe (h : Hdr) (o : RRI)
  /-- `cmpi.geu` (R93) -/
  | cmpiGeu (h : Hdr) (o : RRI)
  /-- `pand` (R94) -/
  | pand (h : Hdr) (o : RRR)
  /-- `por` (R94) -/
  | por (h : Hdr) (o : RRR)
  /-- `pxor` (R94) -/
  | pxor (h : Hdr) (o : RRR)
  /-- `pandn` (R94) -/
  | pandn (h : Hdr) (o : RRR)
  /-- `pnot` (R94) -/
  | pnot (h : Hdr) (o : RRR)
  /-- `pmov` (R94) -/
  | pmov (h : Hdr) (o : RRR)
  /-- `br` (R97) -/
  | br (h : Hdr) (o : BRA)
  /-- `brz` (R97) -/
  | brz (h : Hdr) (o : BRA)
  /-- `brnz` (R97) -/
  | brnz (h : Hdr) (o : BRA)
  /-- `call` (R98) -/
  | call (h : Hdr) (o : BRA)
  /-- `jmpi` (R98) -/
  | jmpi (h : Hdr) (o : BRA)
  /-- `calli` (R98) -/
  | calli (h : Hdr) (o : BRA)
  /-- `loop` (R99) -/
  | loop (h : Hdr) (o : BRA)
  /-- `brloop` (R100) -/
  | brloop (h : Hdr) (o : BRA)
  /-- `spl` (R105) -/
  | spl (h : Hdr) (o : RRI)
  /-- `fil` (R105) -/
  | fil (h : Hdr) (o : RRI)
  /-- `crr` (R106) -/
  | crr (h : Hdr) (o : RRI)
  /-- `crw` (R106) -/
  | crw (h : Hdr) (o : RRI)
  /-- `nop` (R107) -/
  | nop (h : Hdr) (o : SYS)
  /-- `mode` (R108) -/
  | mode (h : Hdr) (o : SYS)
  /-- `ifence` (R109) -/
  | ifence (h : Hdr) (o : SYS)
  /-- `yield` (R110) -/
  | yield (h : Hdr) (o : SYS)
  /-- `exit` (R111) -/
  | exit (h : Hdr) (o : SYS)
  /-- `trap` (R112) -/
  | trap (h : Hdr) (o : SYS)
  /-- `tret` (R390) -/
  | tret (h : Hdr) (o : SYS)
  /-- `brk` (R113) -/
  | brk (h : Hdr) (o : SYS)
  /-- `vadd.f32` (R117) -/
  | vaddF32 (h : Hdr) (o : RRR)
  /-- `vsub.f32` (R117) -/
  | vsubF32 (h : Hdr) (o : RRR)
  /-- `vmul.f32` (R117) -/
  | vmulF32 (h : Hdr) (o : RRR)
  /-- `vfma.f32` (R117) -/
  | vfmaF32 (h : Hdr) (o : RRR)
  /-- `vfms.f32` (R117) -/
  | vfmsF32 (h : Hdr) (o : RRR)
  /-- `vfnma.f32` (R117) -/
  | vfnmaF32 (h : Hdr) (o : RRR)
  /-- `vmin.f32` (R117) -/
  | vminF32 (h : Hdr) (o : RRR)
  /-- `vmax.f32` (R117) -/
  | vmaxF32 (h : Hdr) (o : RRR)
  /-- `vabs.f32` (R117) -/
  | vabsF32 (h : Hdr) (o : RRR)
  /-- `vneg.f32` (R117) -/
  | vnegF32 (h : Hdr) (o : RRR)
  /-- `vrcp.f32` (R119) -/
  | vrcpF32 (h : Hdr) (o : RRR)
  /-- `vrsq.f32` (R120) -/
  | vrsqF32 (h : Hdr) (o : RRR)
  /-- `vexp2.f32` (R121) -/
  | vexp2F32 (h : Hdr) (o : RRR)
  /-- `vlog2.f32` (R122) -/
  | vlog2F32 (h : Hdr) (o : RRR)
  /-- `vadd.h` (R123) -/
  | vaddH (h : Hdr) (o : RRR)
  /-- `vsub.h` (R123) -/
  | vsubH (h : Hdr) (o : RRR)
  /-- `vmul.h` (R123) -/
  | vmulH (h : Hdr) (o : RRR)
  /-- `vfma.h` (R123) -/
  | vfmaH (h : Hdr) (o : RRR)
  /-- `vmin.h` (R123) -/
  | vminH (h : Hdr) (o : RRR)
  /-- `vmax.h` (R123) -/
  | vmaxH (h : Hdr) (o : RRR)
  /-- `vadd.i32` (R124) -/
  | vaddI32 (h : Hdr) (o : RRR)
  /-- `vsub.i32` (R124) -/
  | vsubI32 (h : Hdr) (o : RRR)
  /-- `vmul.i32` (R124) -/
  | vmulI32 (h : Hdr) (o : RRR)
  /-- `vand` (R124) -/
  | vand (h : Hdr) (o : RRR)
  /-- `vor` (R124) -/
  | vor (h : Hdr) (o : RRR)
  /-- `vxor` (R124) -/
  | vxor (h : Hdr) (o : RRR)
  /-- `vshl` (R124) -/
  | vshl (h : Hdr) (o : RRR)
  /-- `vshr` (R124) -/
  | vshr (h : Hdr) (o : RRR)
  /-- `vsra` (R124) -/
  | vsra (h : Hdr) (o : RRR)
  /-- `vaddss` (R124) -/
  | vaddss (h : Hdr) (o : RRR)
  /-- `vsubss` (R124) -/
  | vsubss (h : Hdr) (o : RRR)
  /-- `vaddus` (R124) -/
  | vaddus (h : Hdr) (o : RRR)
  /-- `vsubus` (R124) -/
  | vsubus (h : Hdr) (o : RRR)
  /-- `vmin.i32` (R124) -/
  | vminI32 (h : Hdr) (o : RRR)
  /-- `vmax.i32` (R124) -/
  | vmaxI32 (h : Hdr) (o : RRR)
  /-- `vcmp.f32` (R125) -/
  | vcmpF32 (h : Hdr) (o : RRR)
  /-- `vcmp.i32` (R125) -/
  | vcmpI32 (h : Hdr) (o : RRR)
  /-- `vcmpu.i32` (R125) -/
  | vcmpuI32 (h : Hdr) (o : RRR)
  /-- `mand` (R126) -/
  | mand (h : Hdr) (o : RRR)
  /-- `mor` (R126) -/
  | mor (h : Hdr) (o : RRR)
  /-- `mxor` (R126) -/
  | mxor (h : Hdr) (o : RRR)
  /-- `mnot` (R126) -/
  | mnot (h : Hdr) (o : RRR)
  /-- `mandn` (R126) -/
  | mandn (h : Hdr) (o : RRR)
  /-- `mpop` (R126) -/
  | mpop (h : Hdr) (o : RRR)
  /-- `mmov` (R126) -/
  | mmov (h : Hdr) (o : RRR)
  /-- `vcvt.nf` (R127) -/
  | vcvtNf (h : Hdr) (o : RRR)
  /-- `vcvt.fn` (R127) -/
  | vcvtFn (h : Hdr) (o : RRR)
  /-- `vcvt.f32.i32` (R128) -/
  | vcvtF32I32 (h : Hdr) (o : RRR)
  /-- `vcvt.i32.f32` (R128) -/
  | vcvtI32F32 (h : Hdr) (o : RRR)
  /-- `vcvt.h.f32` (R128) -/
  | vcvtHF32 (h : Hdr) (o : RRR)
  /-- `vcvt.f32.h` (R128) -/
  | vcvtF32H (h : Hdr) (o : RRR)
  /-- `vperm` (R129) -/
  | vperm (h : Hdr) (o : RRR)
  /-- `vperm.rot` (R129) -/
  | vpermRot (h : Hdr) (o : RRR)
  /-- `vbcast` (R129) -/
  | vbcast (h : Hdr) (o : RRR)
  /-- `vsel` (R129) -/
  | vsel (h : Hdr) (o : RRR)
  /-- `vext` (R129) -/
  | vext (h : Hdr) (o : RRR)
  /-- `vins` (R129) -/
  | vins (h : Hdr) (o : RRR)
  /-- `vred.add` (R130) -/
  | vredAdd (h : Hdr) (o : RRR)
  /-- `vred.min` (R130) -/
  | vredMin (h : Hdr) (o : RRR)
  /-- `vred.max` (R130) -/
  | vredMax (h : Hdr) (o : RRR)
  /-- `vld` (R132) -/
  | vld (h : Hdr) (o : MEM)
  /-- `vlds` (R132) -/
  | vlds (h : Hdr) (o : MEMX)
  /-- `vldg` (R132) -/
  | vldg (h : Hdr) (o : MEMX)
  /-- `vldb` (R132) -/
  | vldb (h : Hdr) (o : MEM)
  /-- `vgld` (R132) -/
  | vgld (h : Hdr) (o : MEM)
  /-- `vglds` (R132) -/
  | vglds (h : Hdr) (o : MEMX)
  /-- `vgldg` (R132) -/
  | vgldg (h : Hdr) (o : MEMX)
  /-- `mld` (R132) -/
  | mld (h : Hdr) (o : MEM)
  /-- `vst` (R133) -/
  | vst (h : Hdr) (o : MEM)
  /-- `vsts` (R133) -/
  | vsts (h : Hdr) (o : MEMX)
  /-- `vsct` (R133) -/
  | vsct (h : Hdr) (o : MEMX)
  /-- `vst.cnt` (R134) -/
  | vstCnt (h : Hdr) (o : MEM)
  /-- `vstm` (R133) -/
  | vstm (h : Hdr) (o : MEMX)
  /-- `vgst` (R133) -/
  | vgst (h : Hdr) (o : MEM)
  /-- `vgsts` (R133) -/
  | vgsts (h : Hdr) (o : MEMX)
  /-- `vgsct` (R133) -/
  | vgsct (h : Hdr) (o : MEMX)
  /-- `mst` (R133) -/
  | mst (h : Hdr) (o : MEM)
  /-- `mma` (R146) -/
  | mma (h : Hdr) (o : MXC)
  /-- `mmas` (R148) -/
  | mmas (h : Hdr) (o : MXC)
  /-- `mzero` (R151) -/
  | mzero (h : Hdr) (o : MXC)
  /-- `mdrn` (R152) -/
  | mdrn (h : Hdr) (o : MXC)
  /-- `mldacc` (R153) -/
  | mldacc (h : Hdr) (o : MXC)
  /-- `mscale` (R154) -/
  | mscale (h : Hdr) (o : MXC)
  /-- `mxpose` (R155) -/
  | mxpose (h : Hdr) (o : MXC)
  /-- `mfmt` (R156) -/
  | mfmt (h : Hdr) (o : MXC)
  /-- `mwait` (R157) -/
  | mwait (h : Hdr) (o : MXC)
  /-- A queued matrix command starts at its stamp or first eligible cycle, or raises Schedule Miss. (R160) -/
  | matrixCommandStart (core : Nat)
  /-- A running matrix command completes, landing its token and freeing its tag. (R158) -/
  | matrixCommandComplete (core idx : Nat)
  /-- `ld` (R170) -/
  | ld (h : Hdr) (o : MEM)
  /-- `lds` (R170) -/
  | lds (h : Hdr) (o : MEM)
  /-- `st` (R170) -/
  | st (h : Hdr) (o : MEM)
  /-- `ld.acq` (R171) -/
  | ldAcq (h : Hdr) (o : MEM)
  /-- `lds.acq` (R171) -/
  | ldsAcq (h : Hdr) (o : MEM)
  /-- `st.rel` (R171) -/
  | stRel (h : Hdr) (o : MEM)
  /-- `aadd` (R172) -/
  | aadd (h : Hdr) (o : MEMX)
  /-- `aand` (R172) -/
  | aand (h : Hdr) (o : MEMX)
  /-- `aor` (R172) -/
  | aor (h : Hdr) (o : MEMX)
  /-- `axor` (R172) -/
  | axor (h : Hdr) (o : MEMX)
  /-- `amin` (R172) -/
  | amin (h : Hdr) (o : MEMX)
  /-- `amax` (R172) -/
  | amax (h : Hdr) (o : MEMX)
  /-- `aminu` (R172) -/
  | aminu (h : Hdr) (o : MEMX)
  /-- `amaxu` (R172) -/
  | amaxu (h : Hdr) (o : MEMX)
  /-- `aswp` (R172) -/
  | aswp (h : Hdr) (o : MEMX)
  /-- `acas` (R172) -/
  | acas (h : Hdr) (o : MEMX)
  /-- `aadd.f32` (R172) -/
  | aaddF32 (h : Hdr) (o : MEMX)
  /-- An aswp to the control page's SDREQ word submits a shoot-down and returns its ticket. (R310) -/
  | sdreq (id : Nat)
  /-- An aswp to the control page's ROOT word sets the stage-1 root and submits a full shoot-down. (R310) -/
  | root (id : Nat)
  /-- A shoot-down request completes: caches cleared, leases rewalked or revoked, SDDONE advanced. (R311) -/
  | shootdownComplete (part fn : Nat)
  /-- `fence` (R175) -/
  | fence (h : Hdr) (o : SYS)
  /-- `fence.ack` (R176) -/
  | fenceAck (h : Hdr) (o : SYS)
  /-- A store unacknowledged within the link timeout ends fence.ack with Failed Peer and a device mask. (R176) -/
  | fenceAckTimeout (id : Nat)
  /-- `barinit` (R179) -/
  | barinit (h : Hdr) (o : SYS)
  /-- `barwait` (R181) -/
  | barwait (h : Hdr) (o : SYS)
  /-- `barwait.nw` (R181) -/
  | barwaitNw (h : Hdr) (o : SYS)
  /-- `barwait.na` (R181) -/
  | barwaitNa (h : Hdr) (o : SYS)
  /-- `barfree` (R183) -/
  | barfree (h : Hdr) (o : SYS)
  /-- `lwin` (R186) -/
  | lwin (h : Hdr) (o : SYS)
  /-- `lwclose` (R189) -/
  | lwclose (h : Hdr) (o : SYS)
  /-- `lwwait` (R188) -/
  | lwwait (h : Hdr) (o : SYS)
  /-- A parked window wait reaches its timeout and resumes with error 6. (R188) -/
  | lwwaitTimeout (core slot : Nat)
  /-- `lwpoll` (R188) -/
  | lwpoll (h : Hdr) (o : SYS)
  /-- A write through the counting port is admitted or refused, stored and counted, possibly making the window ready. (R187) -/
  | countedWriteArrival (w : CWrite)
  /-- `fld` (R191) -/
  | fld (h : Hdr) (o : MEMX)
  /-- A far load without a reply within the link timeout resumes into the Far Access fault. (R329) -/
  | fldTimeout (tag : Nat)
  /-- `fst` (R192) -/
  | fst (h : Hdr) (o : MEMX)
  /-- `fst.ord` (R192) -/
  | fstOrd (h : Hdr) (o : MEMX)
  /-- `fatom` (R193) -/
  | fatom (h : Hdr) (o : MEMX)
  /-- A far atomic without a reply within the link timeout leaves DR undefined and raises a Fabric Status event. (R193) -/
  | fatomTimeout (tag : Nat)
  /-- `fldx` (R195) -/
  | fldx (h : Hdr) (o : SYS)
  /-- `fldx.t` (R198) -/
  | fldxT (h : Hdr) (o : SYS)
  /-- At TMO the requester writes the completion record and aborts unacknowledged members. (R197) -/
  | fldxTimeout (tag : Nat)
  /-- `gsig` (R200) -/
  | gsig (h : Hdr) (o : SYS)
  /-- `gwait` (R201) -/
  | gwait (h : Hdr) (o : SYS)
  /-- `gpoll` (R202) -/
  | gpoll (h : Hdr) (o : SYS)
  /-- At each slot that is a multiple of 64 a gate's bucket is refilled. (R200) -/
  | gateRefill (gate : Nat)
  /-- `book` (R214) -/
  | book (h : Hdr) (o : SYS)
  /-- `bkqry` (R215) -/
  | bkqry (h : Hdr) (o : SYS)
  /-- `bkcan` (R215) -/
  | bkcan (h : Hdr) (o : SYS)
  /-- `bkrel` (R216) -/
  | bkrel (h : Hdr) (o : SYS)
  /-- `cpost` (R219) -/
  | cpost (h : Hdr) (o : SYS)
  /-- `coll` (R222) -/
  | coll (h : Hdr) (o : SYS)
  /-- `topb` (R228) -/
  | topb (h : Hdr) (o : SYS)
  /-- `dqpush` (R225) -/
  | dqpush (h : Hdr) (o : SYS)
  /-- `dqpop` (R225) -/
  | dqpop (h : Hdr) (o : SYS)
  /-- `dqsteal` (R225) -/
  | dqsteal (h : Hdr) (o : SYS)
  /-- `htsset` (R231) -/
  | htsset (h : Hdr) (o : SYS)
  /-- `htsdec` (R232) -/
  | htsdec (h : Hdr) (o : SYS)
  /-- A push held for a full deque is made when an entry frees. (R232) -/
  | heldDequePush (cluster : Nat)
  /-- `qmap` (R234) -/
  | qmap (h : Hdr) (o : SYS)
  /-- `qunmap` (R234) -/
  | qunmap (h : Hdr) (o : SYS)
  /-- A write to a mapped queue's notify word performs and pushes the task record copy. (R283) -/
  | queueNotify (part fn : Nat) (qaddr : BitVec 64)
  /-- A result lands in its destination, making its token visible and freeing its tag. (R49) -/
  | resultLanding (id : Nat)
  /-- A store performs at a scope after its source was read. (R239) -/
  | storePerform (id : Nat)
  /-- After in-flight results land, the record is written and all strands enter the handler at TVEC. (R388) -/
  | trapEntry (core : Nat)
  /-- A Lease Violation or Double Fault ends the task, cancels its booking and appends an event. (R392) -/
  | taskEndByFault (core slot : Nat)
  /-- A due, runnable booked task makes the active unbooked task take the Booking Due trap. (R292) -/
  | bookingDue (core slot : Nat)
  /-- At the save window, a stop or migration, each active task takes the Slice End trap. (R363) -/
  | sliceEnd (part fn occasion : Nat)
  /-- When the handler budget expires without a yield, strands stop and the task is saved in full. (R365) -/
  | forcedSave (core : Nat)
  /-- After the handler phase the context is saved into its save area and sealed. (R366) -/
  | contextSave (part fn : Nat)
  /-- At the restore window or resume, the area is checked and every core's state reloaded. (R370) -/
  | contextRestore (part fn : Nat)
  /-- The prefetcher removes an eligible deque entry into a free task slot. (R288) -/
  | prefetchStart (core : Nat)
  /-- The lease is resident, text fetched and state set; the task becomes runnable. (R288) -/
  | prefetchComplete (core : Nat)
  /-- A task waiting 65,536 slots for its lease ends with Lease Violation. (R307) -/
  | leasePendingTimeout (core : Nat)
  /-- When the active slot is free the core makes the chosen runnable task active. (R289) -/
  | taskActivate (core : Nat)
  /-- A parked task's wake condition holds and it becomes runnable at the tail of its level. (R293) -/
  | taskWake (core slot : Nat)
  /-- A waiting task's effective priority rises one level per 4,096 slots. (R290) -/
  | priorityAging (core slot : Nat)
  /-- An idle core makes an automatic steal attempt every 16 cycles. (R294) -/
  | autoSteal (core : Nat)
  /-- The central unit decides the head request: search, commit, defer, NOFIT or query. (R259) -/
  | bookingDecide
  /-- A queued booking request's priority rises per 4,096 slots. (R259) -/
  | bookingRequestAging (seq : Nat)
  /-- In a slot's first cycle the Booking Unit reclaims, returns, tests overruns, slips and searches deferred requests. (R271) -/
  | slotBoundary
  /-- A remote unit receiving HOLD holds tentative capacity and replies with feasible starts. (R275) -/
  | bookHold (m : BookMsg)
  /-- The requesting unit receives a HOLD reply in the cross-device exchange. (R274) -/
  | bookHoldReply (m : BookMsg)
  /-- A missing HOLD reply after 850 slots starts the next round from a later bound. (R274) -/
  | bookReplyTimeout (handle : BitVec 32)
  /-- A remote unit converts its hold into an interval entry at the committed start. (R275) -/
  | bookCommit (m : BookMsg)
  /-- A remote unit frees a hold or returns the entries of a cancelled booking. (R275) -/
  | bookRelease (m : BookMsg)
  /-- A tentative hold not committed within 850 slots is freed. (R275) -/
  | bookHoldLeaseExpiry (dev : Nat) (handle : BitVec 32) (stage : Nat)
  /-- A remote stage's new end is reported and later stages slip or are re-exchanged. (R276) -/
  | bookEndReport (m : BookMsg)
  /-- A copy packet starts when its edges complete and its engine is free for it. (R219) -/
  | copyPacketStart (serial : Nat)
  /-- The copy engine writes the completion word and decrements the counter. (R220) -/
  | copyPacketComplete (serial : Nat)
  /-- At a booked step the Shuttle sends tiles as CDATA packets. (R344) -/
  | collectiveStepStart (tag step : Nat)
  /-- A member writes its collective completion record and decrements its counter. (R222) -/
  | collectiveComplete (tag : Nat)
  /-- The instance timeout expires and the coordinator sends Flush. (R351) -/
  | collectiveTimeout (tag : Nat)
  /-- A missing CACK after 2D slots marks a member failed and triggers Redo. (R349) -/
  | collectiveFailureDetect (tag member : Nat)
  /-- A target receives a READ, checks rights and replies with RDATA or NACK. (R325) -/
  | read (p : Pkt)
  /-- Reply data of a far load are written to the requester's scratch. (R191) -/
  | rdata (p : Pkt)
  /-- A target performs a remote store and acknowledges or refuses it. (R325) -/
  | write (p : Pkt)
  /-- A target receives an ordered store and holds it until route counts are met. (R247) -/
  | wrord (p : Pkt)
  /-- A held ordered store performs once every counted earlier store has arrived and performed. (R247) -/
  | orderedStoreRelease (idx : Nat)
  /-- An ordered store held beyond the link timeout is discarded unacknowledged. (R247) -/
  | orderedStoreTimeout (idx : Nat)
  /-- A target performs a remote atomic at the home and replies. (R325) -/
  | atom (p : Pkt)
  /-- A far atomic's reply lands its old value or a refusal. (R193) -/
  | arply (p : Pkt)
  /-- A store acknowledgement ends the store's outstanding state at the sender. (R328) -/
  | ack (p : Pkt)
  /-- A refused store ends its outstanding state and raises a Fabric Status event. (R328) -/
  | nack (p : Pkt)
  /-- The owner checks rights and sends XDATA to every member or XFLT and aborts. (R333) -/
  | xreq (p : Pkt)
  /-- A member admits or discards third-party data and acknowledges when complete. (R333) -/
  | xdata (p : Pkt)
  /-- The requester records a member outcome and writes the record when all have acknowledged. (R333) -/
  | xack (p : Pkt)
  /-- The requester records an owner fault reason. (R333) -/
  | xflt (p : Pkt)
  /-- A member aborts a third-party request, readying its window with an error. (R196) -/
  | xabt (p : Pkt)
  /-- A received beacon updates the device's offset to fabric slot time. (R331) -/
  | beacon (p : Pkt)
  /-- The timing root sends a beacon every 4,096 slots. (R331) -/
  | beaconSend
  /-- No beacon for 16,384 slots makes cross-device bookings NOFIT. (R331) -/
  | beaconLoss
  /-- A device marks a route down and completes affected non-posted requests with reason 9. (R326) -/
  | ldown (p : Pkt)
  /-- A forwarding device passes a packet on its next hop, or discards it and sends LDOWN. (R321) -/
  | packetForward (p : Pkt)
  /-- A receiving home accumulates or overwrites collective tile data and counts ready tiles. (R345) -/
  | cdata (p : Pkt)
  /-- A sender receives a tile acknowledgement and releases the retained tile. (R345) -/
  | cack (p : Pkt)
  /-- A sender keeps its tiles and the descheduled member's steps are rebooked in its next slice. (R350) -/
  | cctlHeld (p : Pkt)
  /-- The coordinator learns a member withdrew and starts the redo. (R353) -/
  | cctlWithdraw (p : Pkt)
  /-- A member ends begun steps, forwards held chunks and treats missing contributions as absent. (R351) -/
  | cctlFlush (p : Pkt)
  /-- A sender told its data were late writes its record with status Partial. (R352) -/
  | cctlLate (p : Pkt)
  /-- A member told of a coordinator NOFIT writes its record with status 3. (R342) -/
  | cctlNofit (p : Pkt)
  /-- A digest mismatch notice for a collective instance is received. (R347) -/
  | cctlDigestMismatch (p : Pkt)
  /-- Live members recompute unfinished chunks over the alternate tree. (R349) -/
  | cctlRedo (p : Pkt)
  /-- A member compares the coordinator's digest with its block and withdraws on mismatch. (R336) -/
  | cdig (p : Pkt)
  /-- Background scrubbing of scratch words and DRAM lines corrects or poisons. (R314) -/
  | scrub (u : ScrubUnit)
  /-- Firmware copies a failing frame to a replacement once unpinned and remaps it. (R315) -/
  | frameRetire (frame : Nat)
  /-- Each millisecond measured rail energy is apportioned to contexts. (R383) -/
  | energyReconcile (rail platform : Nat)
  /-- Power above the cap for 10 ms sets a matrix-engine admission limit. (R407) -/
  | powerCapLimit (limit : Nat)
  /-- Power below the cap for 100 ms lifts the admission limit. (R407) -/
  | powerCapLift
  /-- A die at 95 C or above sets the admission limit and reports to the host. (R408) -/
  | thermalWarning (die : Nat)
  /-- A die at 105 C or above stops every context and enters standby. (R408) -/
  | thermalTrip (die : Nat)
  /-- Coolant too hot or flow too low is reported to the host. (R408) -/
  | coolantAlarm
  /-- Firmware receives and contains an internal uncorrectable or protocol error. (R394) -/
  | machineCheck (m : McScope)
  /-- The ROM checks the signed patch bundle and runs it or enters recovery. (R404) -/
  | powerOn
  /-- A function entering D3hot stops its contexts as CTX_STOP does. (R409) -/
  | d3hotEntry (fn : Nat)
  /-- A PCI Express Function Level Reset aborts pending descriptors and resets the function. (R400) -/
  | functionLevelReset (fn : Nat)
  /-- A host read of a function's context memory through stage 2. (R397) -/
  | hostBar2Read (fn : Nat) (ga : BitVec 64) (n : Nat)
  /-- A host write to a function's context memory through stage 2. (R397) -/
  | hostBar2Write (fn : Nat) (ga : BitVec 64) (bytes : List (BitVec 8))
  /-- A PCI Express AtomicOp on BAR2 performed at the home of the location. (R396) -/
  | hostAtomicOp (fn : Nat) (ga : BitVec 64) (op : HostOp)
  /-- A host write of a command queue tail submits descriptors to firmware. (R399) -/
  | cqtail (fn : Nat) (tail : BitVec 64) (ds : List Desc)
  /-- A host write of the event ring head frees entries. (R403) -/
  | evhead (fn : Nat) (head : BitVec 64)
  /-- Create a partition from free granules and bind its functions. (R355) -/
  | partCreate (d : Desc)
  /-- Destroy a stopped partition and zero its state. (R401) -/
  | partDestroy (d : Desc)
  /-- Move a drained granule between partitions. (R357) -/
  | granMove (d : Desc)
  /-- Set a context's copy-engine arbiter weight in a cluster. (R362) -/
  | arbWeight (d : Desc)
  /-- Copy an image from host memory into a context. (R401) -/
  | imageLoad (d : Desc)
  /-- Read the image header, write the partition block and start the root task. (R402) -/
  | ctxStart (d : Desc)
  /-- Pre-empt and save a context. (R401) -/
  | ctxStop (d : Desc)
  /-- Restore a stopped context. (R370) -/
  | ctxResume (d : Desc)
  /-- Reset a virtual function in the fixed order of steps. (R374) -/
  | vfReset (d : Desc)
  /-- Record a gate request and create the gate when all listed contexts match. (R403) -/
  | gateReq (d : Desc)
  /-- Close a gate, waking waiters with status Closed. (R376) -/
  | gateClose (d : Desc)
  /-- Load route entries for a job. (R319) -/
  | routeLoad (d : Desc)
  /-- Load a multicast group's member list. (R332) -/
  | groupLoad (d : Desc)
  /-- Bind a context to a fabric job with device number, ports and link timeout. (R317) -/
  | jobBind (d : Desc)
  /-- Begin the pre-copy phase of a live migration. (R379) -/
  | migStart (d : Desc)
  /-- Stop the migrating context, remove its bookings and put its gates in transit. (R379) -/
  | migStop (d : Desc)
  /-- Reattach the context at the destination, re-book and resume. (R379) -/
  | migCommit (d : Desc)
  /-- Write one snapshot of a context's counter block to host memory. (R384) -/
  | cntRead (d : Desc)
  /-- Write a signed attestation report with measurements and nonce. (R405) -/
  | attest (d : Desc)
  /-- Attach a debugger to a context. (R373) -/
  | dbgAttach (d : Desc)
  /-- Read or edit a halted context's save area or memory and reseal it. (R373) -/
  | dbgMem (d : Desc)
  /-- Detach the debugger from a context. (R373) -/
  | dbgDetach (d : Desc)
  /-- Check a signed patch bundle and write it to flash. (R404) -/
  | patchLoad (d : Desc)
  /-- PLDM monitoring request returning sensor values. (R406) -/
  | fjarlosSensorRead
  /-- Set the package power cap through the management port. (R407) -/
  | fjarlosPowerCapSet (watts : Nat)
  /-- Stage a firmware bundle by PLDM firmware update. (R406) -/
  | fjarlosFirmwareUpdate (bundle : List (BitVec 8))
  /-- Vendor MCTP message reading one context's counter block. (R406) -/
  | fjarlosCounterRead (part fn : Nat)
  /-- An Axgar link of a port fails, so that packets whose next hop uses it are discarded and reported by LDOWN. (R326) -/
  | linkFailure (port : Nat)
  /-- An Axgar link comes up through link training, which measures the link latency used to correct beacons and sets the port's link state. (R331) -/
  | linkTraining (port latency : Nat)
  /-- The module's supply is lost and the part enters the off state. (R409) -/
  | powerLoss
  /-- A reset of the part restarts CYC from zero and makes a newly loaded patch bundle take effect. (R404) -/
  | packageReset
deriving DecidableEq, Repr

end Sys2Proof
end

