-- ==== Sys2Proof/Machine/State.lean ====
section
/-!
DEFINITION. The state of one LX9600 part as plain data (chapters 01, 06 to 17): its cores with their task slots, its schedulers,
Booking Unit, memories, contexts, gates, fabric state, firmware and host interface, the results in flight, and the inputs that
the environment has sent and the part has not taken yet. `State.reset` is the part right after a package reset (R404).
-/
namespace Sys2Proof.Machine

/-! ## Places of bytes -/

/-- A location (R235): a byte of a core's scratchpad, or of DRAM by physical address when `core` is `none`. -/
structure Loc where
  core : Option Nat
  off : Nat
deriving DecidableEq, Repr

/-- A run of bytes of an access: its location, its length, its offset in the register or buffer, and the address by which the
program names it. -/
structure Piece where
  loc : Loc
  len : Nat
  off : Nat
  name : Nat
deriving DecidableEq, Repr

/-- A region of a footprint (R208, R209): scratch bytes of a core, or virtual addresses when `core` is `none`. -/
structure Region where
  core : Option Nat
  lo : Nat
  len : Nat
  rd : Bool
  wr : Bool
deriving DecidableEq, Repr

/-- A leased page (R306): its virtual range, the physical address of its first byte, and the page's rights. -/
structure LeasePage where
  va : Nat
  size : Nat
  pa : Nat
  rd : Bool
  wr : Bool
deriving DecidableEq, Repr

/-! ## Traps -/

/-- Where the raising strand resumes (R387). -/
inductive Resume where
  | again      -- the faulting word is issued again
  | after      -- the word after it
  | asIs       -- the strand's first unissued word
deriving DecidableEq, Repr

/-- What a trap record holds beside the resume words (R386). -/
structure TrapInfo where
  cause : Nat
  faddr : Nat := 0
  ip : Nat := 0
  strand : Strand := .C
  prec : Nat := 0
  late : Bool := false
  ecmd : Nat := 0
  estat : Nat := 0
  eid : Nat := 0xFFFF
  info : Nat := 0
  cyc : Nat := 0
  resume : Resume := .again
deriving DecidableEq, Repr

/-! ## Strands and tasks -/

/-- A loop counter (R30). -/
structure LoopCtr where
  cnt : BitVec 32
  drn : BitVec 4
deriving DecidableEq, Repr

/-- Why a strand issues nothing (R103, R175, R181). -/
inductive Wait where
  | none
  /-- it stands at a rendezvous word -/
  | arrived
  /-- `C` waits for flight `id`: a fence or barrier -/
  | flight (id : Nat)
deriving DecidableEq, Repr

/-- The rendezvous at which a task's strands meet (R103). -/
inductive Rdv where
  /-- not every strand has arrived -/
  | gathering
  /-- every strand has arrived; the predicate is read from this cycle on -/
  | decide (cyc : Nat)
  /-- the predicate was 1, and the word's own waits are not over -/
  | draining
deriving DecidableEq, Repr

/-- What each strand owns (R13, R15). -/
structure StrandSt where
  ip : Nat
  wc : Nat := 0
  /-- `p0` to `p7`, bit 0 always 1 -/
  p : BitVec 8 := 1
  q : BitVec 8 := 0
  lc : SMap LoopCtr := []
  /-- bit `t`: scoreboard tag `t` in use -/
  tags : BitVec 8 := 0
  a : SMap Word := []
  /-- timed mode: the first cycle in which a destination may be read, by specifier, predicates from 128 on, and `never` until the
  completion of a result of `DST` 15 has been observed (R52) -/
  haz : SMap Nat := []
  /-- first cycle in which the strand's scratch paths are free, after a strided or scattered store (R296) -/
  paths : Nat := 0
  spill : Mem := []
  wait : Wait := .none
deriving DecidableEq, Repr

/-- A token queue (R20, R21): tokens visible, and entries reserved by issued words. -/
structure TokQ where
  vis : Nat
  rsv : Nat
  /-- cycle of the last consumption, whose entry is free from the next cycle on -/
  usedAt : Option Nat := none
deriving DecidableEq, Repr

/-- An entry of a branch-outcome queue (R96). -/
structure Outcome where
  pushed : Nat
  taken : Bool
  target : Nat
  count : Nat
  ap : Bool
deriving DecidableEq, Repr

/-- The wake condition of a parked task (R293). -/
inductive Wake where
  /-- runnable at once, after `yield` -/
  | now
  /-- the reply of far load `tag` -/
  | far (tag : Nat)
  /-- the far load was refused: the fault of R191 with this reason, and the address -/
  | farFault (reason faddr : Nat)
  /-- window `w` ready or cycle `limit` passed; the status goes to `a` register `dst` of `C` -/
  | window (w : Nat) (limit : Option Nat) (dst : Nat)
  /-- the wait for window `w` is decided with this status word -/
  | windowDone (w : Nat) (status : Word) (dst : Nat)
  /-- gate `g` at sequence `v` or closed; result to `dst`, payload to scratch `paddr` -/
  | gate (g : Nat) (v : Nat) (dst : Nat) (paddr : Option Nat)
  /-- a walker task at a step boundary until its continuation starts (R266) -/
  | stage (cyc : Nat)
  /-- the gate wait's condition has been met -/
  | gateReady (g : Nat) (dst : Nat) (paddr : Option Nat)
deriving DecidableEq, Repr

/-- The state of a task in a slot (R287). -/
inductive TState where
  | prefetching (done : Nat) (since : Nat) (pending : Bool)
  | runnable
  | active
  | parked (w : Wake)
deriving DecidableEq, Repr

/-- Queues and word counts set aside at trap entry (R388). -/
structure SetAside where
  toks : SMap TokQ
  sq : SMap (List Word)
  bq : SMap (List Outcome)
  wcs : List Nat
deriving DecidableEq, Repr

/-- One entry of a format table (R76): the A, B and output records. -/
structure FmtEntry where
  a : BitVec 128
  b : BitVec 128
  o : BitVec 128
deriving DecidableEq, Repr

/-- Why a fault ends a task (R392): the cause code, the address and word of the fault, and for a Double Fault the cause of
the fault met in the handler. -/
structure Ending where
  cause : Nat
  faddr : Nat := 0
  ip : Nat := 0
  sub : Nat := 0
deriving DecidableEq, Repr

/-- A task in a slot: everything of R12, R15, R20 to R30, R76, R223 to R229, R388. -/
structure Task where
  part : Nat
  fn : Nat
  ser : Nat
  /-- the footprint unit it completes (R209) -/
  uid : Nat := 0
  rcd : BitVec 256 := 0
  topb : BitVec 1024 := 0
  stolen : Bool := false
  root : Bool := false
  st : TState := .runnable
  /-- cycle and order of entry into its level (R289, R290), cycle since which it ages -/
  entered : Nat := 0
  agedFrom : Nat := 0
  boost : Nat := 0
  regions : List Region := []
  lease : List LeasePage := []
  /-- fetch blocks of the text (R210, R223) -/
  txl : Nat := 0
  /-- first step that has not ended (R229) -/
  step : Nat := 0
  /-- its booking, or the stage on its core, was cancelled after its dispatch (R229) -/
  cancelled : Bool := false
  stepBegun : Bool := true
  /-- cycle of the continuation before which no step begins (R266) -/
  stepHold : Option Nat := none
  sC : StrandSt
  sL : StrandSt
  sX : StrandSt
  sS : StrandSt
  /-- keyed 4 * from + to (strand codes) -/
  toks : SMap TokQ := []
  /-- input queues by strand code -/
  sq : SMap (List Word) := []
  /-- keyed 4 * evaluator + reader -/
  bq : SMap (List Outcome) := []
  win : BitVec 8 := 64
  tagd : Bool := true
  fmtb : BitVec 4 := 0
  fpctl : BitVec 3 := 0
  stat : BitVec 3 := 0
  /-- bits that hardware set in cycle `statCyc`, seen from the next cycle on (R32) -/
  statPend : BitVec 3 := 0
  statCyc : Nat := 0
  tvec : Word := 0
  textb : Word := 0
  bhnd : BitVec 32 := 0
  fstat : Word := 0
  pbudget : BitVec 16 := 16384
  bst : SMap Word := []
  fmt : SMap FmtEntry := []
  rdv : Rdv := .gathering
  trap : Option TrapInfo := none
  handler : Option SetAside := none
  held : List TrapInfo := []
  /-- the trap of a due booking was raised for this due task (R292) -/
  dueRaised : Bool := false
  /-- cycle at which the pre-emption handler's budget ends (R364) -/
  budgetEnd : Option Nat := none
  /-- the budget of a pre-emption handler whose first word has not issued (R364) -/
  budgetArm : Option Nat := none
  /-- ended by a fault, not yet cleared (R392) -/
  ending : Option Ending := none
  /-- never active yet -/
  fresh : Bool := true
  /-- order of entry into its level among tasks of one cycle (R290): 0 wakes, 1 prefetch completions, 2 aging, 3 yields; then a
  number that rises -/
  order : Nat := 0
  orderSeq : Nat := 0
  /-- a precise fault that the task takes when it resumes (R191) -/
  owed : Option TrapInfo := none
  /-- the core on which its record was submitted -/
  src : Nat := 0
  /-- since a restore some page of its lease is not resident, from this cycle on (R370) -/
  leaseWait : Option Nat := none
  /-- since then every page is resident, and the restored task waits for entries of the lease table (R306) -/
  leaseFull : Bool := false
deriving DecidableEq, Repr

/-! ## Cores -/

/-- A register file whose unlisted entries are the task-start value, or, after a yield point, free values of generation `gen`. -/
structure RFile where
  gen : Option Nat := none
  m : SMap Nat := []
deriving DecidableEq, Repr

/-- A matrix command in the queue with its copies (R138 to R143). -/
structure MxCmd where
  /-- minor code of group 0x18 -/
  op : Nat
  acc : Nat
  aa : Nat
  ba : Nat
  stamp : Option Nat
  shp : Nat
  fmt : FmtEntry
  mdrec : BitVec 128
  idx : Nat
  entered : Nat
  ip : Nat
  /-- the flight that holds its tokens and tag -/
  flight : Nat := 0
  stage : Option Nat
  slot : Nat
  /-- completion cycle of a command that has started -/
  running : Option Nat := none
  /-- its completion has taken effect; it leaves the queue in the next cycle -/
  done : Bool := false
  /-- the scratch bytes it reads, as they stood at its start (R165) -/
  snap : Mem := []
deriving DecidableEq, Repr

/-- The matrix engine of a core (R138). -/
structure Mxe where
  acc0 : RFile := {}
  acc1 : RFile := {}
  /-- `SVAR`, `SVBC`, `SVOR`, `SVOC` keyed 128 * v + i, default 1.0 -/
  scale : RFile := {}
  queue : List MxCmd := []
  count : BitVec 32 := 0
deriving DecidableEq, Repr

/-- An open landing window (R184, R185). -/
structure Window where
  desc : BitVec 256
  rdy : Bool
  err : Nat
  cnt : Nat
deriving DecidableEq, Repr

/-- A deque entry (R225). -/
structure DqEntry where
  rcd : BitVec 256
  topb : BitVec 1024 := 0
  tvec : Word
  ser : Nat := 0
  part : Nat
  fn : Nat
  /-- issuing core, the target when `TCV` is 0 -/
  src : Nat := 0
  uid : Nat := 0
  stolen : Bool := false
  entered : Nat := 0
  /-- cycle in which it became eligible (R287, R290) -/
  eligibleAt : Option Nat := none
  root : Bool := false
  regions : List Region := []
deriving DecidableEq, Repr

/-- A core (R11, R12, R15). -/
structure Core where
  /-- task slots 0 to 3 -/
  slots : SMap Task := []
  active : Option Nat := none
  /-- specifiers 0 to 75: `v`, `o`, `z` -/
  vec : RFile := {}
  /-- `m0` to `m7`, default all ones -/
  msk : RFile := {}
  /-- cycle in which the last `X` result landed, by vector or mask specifier (R19) -/
  xLanded : SMap Nat := []
  mxe : Mxe := {}
  scratch : Mem := []
  /-- poisoned 8-byte words -/
  poison : NSet := []
  /-- poisoned words of which a Memory Error event has told (R314) -/
  told : NSet := []
  windows : SMap Window := []
  /-- offsets of registered barrier words -/
  bars : NSet := []
  deque : List DqEntry := []
  /-- slot in which the prefetcher works, and the first cycle in which it may start again (R288) -/
  prefetch : Option Nat := none
  prefetchFree : Nat := 0
  /-- words in the instruction cache and fetch buffers, by physical address (R58) -/
  icache : SMap Nat := []
  /-- bytes of DRAM in the text of its tasks, by physical address, as they stood at the last `ifence` where a store has changed them
  since (R58) -/
  stale : SMap Nat := []
  /-- cycle in which the active slot became free (R289) -/
  freeAt : Nat := 0
  /-- the core's tasks are not to become active before a restore (R364) -/
  quiet : Bool := false
  /-- restored before the bookable part of its slice: no strand issues and no command starts until then (R360) -/
  waits : Bool := false
  /-- cycle of its last automatic steal attempt, plus one (R294) -/
  stoleAt : Nat := 0
deriving DecidableEq, Repr

/-! ## Results in flight -/

/-- What a flight does when its moment comes. -/
inductive FOp where
  /-- nothing but its token and tag -/
  | nop
  /-- a scalar destination or push, by specifier (R25, R48) -/
  | scalar (spec : Nat) (v : Word)
  /-- the written lanes of a vector register (R18, R115) -/
  | vector (spec : Nat) (v : Vec) (lanes : BitVec 64)
  /-- the written bits of a mask register -/
  | mask (spec : Nat) (v : Word) (bits : BitVec 64)
  /-- a control-register write, taking effect in the next cycle (R31) -/
  | creg (n : Nat) (v : Word)
  /-- a predicate (R93, R94) -/
  | pred (pd : Nat) (v : Bool)
  /-- a load of latency 15 (R131, R170) -/
  | load (spec : Nat) (ps : List Piece) (n : Nat) (sgn : Bool)
  /-- a load of latency 15 whose index table held a poisoned word: the fault is taken when the data return (R135); `name` is the
  table's address -/
  | badLoad (spec : Nat) (name : Nat) (ps : List Piece)
  /-- a load of the translation control page (R310) -/
  | ctlLoad (spec : Nat) (off : Nat)
  /-- a store whose source register is not read yet (R137); `spill` and remote stores too -/
  | storeSrc (src : Nat) (ps : List Piece)
  /-- a store that has not performed -/
  | store (ps : List (Loc × Nat × Nat))
  /-- `vst.cnt` before and after its source is read (R134) -/
  | cntSrc (src : Nat) (core off : Nat)
  | cntStore (core off : Nat) (v : Nat)
  /-- what a matrix command writes to scratch, in the cycle of its completion (R165, R297) -/
  | mxStore (ps : List (Loc × Nat × Nat))
  /-- `spl` (R105): source register, the value if it was popped, and offset -/
  | spill (src : Nat) (v : Word) (off : Nat)
  /-- `fil` (R105) -/
  | fil (spec : Nat) (off : Nat)
  /-- a remote store before its source is read (R192): the packet without its payload -/
  | fstSrc (src : Nat) (n : Nat) (p : Pkt)
  /-- a scalar or vector store of a value already popped from `qi` -/
  | storeVal (ps : List (Loc × Nat × Nat))
  /-- an atomic (R172): minor code, place with size and address, operand, expected value, destination -/
  | atomic (op : Nat) (p : Piece) (x cmp : Word) (spec : Nat)
  /-- `aswp` to the control page (R310) -/
  | sdreq (x : Word) (spec : Nat)
  | root (x : Word) (spec : Nat)
  /-- `fence` and `fence.ack` (R175, R176) -/
  | fence (cmask scope : Nat) (ack : Option Nat)
  /-- a barrier arrival not yet performed: place, form (0 wait, 1 no wait), result register -/
  | barArrive (loc : Loc) (nowait : Bool) (dst : Nat)
  /-- a wait for the phase of a barrier to pass `phase`, with or without an own arrival in it -/
  | barWait (loc : Loc) (phase : Nat) (arrived : Bool) (dst : Nat)
  /-- a `book` or other request waiting for the Booking Unit's decision (R258); then its result -/
  | engine (spec : Nat)
  /-- a far atomic waiting for its reply: destination, target address, tag (R193) -/
  | fatom (spec : Nat) (ea : Nat) (tag : Nat)
  /-- a matrix command in the queue, until it completes (R158) -/
  | matrix (idx : Nat)
  /-- an `mfmt` whose entry is not written yet (R156) -/
  | fmt (n : Nat) (v : FmtEntry)
  /-- a `gsig` waiting for the accesses it releases (R200) -/
  | gsig (gate : Nat) (paddr : Option Nat) (dst : Nat)
deriving DecidableEq, Repr

/-- A flight (R49, R53, R137, R171): one issued word whose effect is not complete. -/
structure Flight where
  id : Nat
  core : Nat
  slot : Nat
  strand : Strand
  ip : Nat
  issued : Nat
  due : Nat
  dst : Nat
  tagd : Bool
  tal : Nat
  /-- tokens to make visible: bit 1 `sp`, bit 0 `ss` -/
  sig : Nat
  /-- memory access of class `cls` that takes part in the order of R240 -/
  acc : Bool := false
  cls : Nat := 0
  /-- the access is an acquire (R171) -/
  acq : Bool := false
  /-- the access is a release (R171) -/
  rel : Bool := false
  /-- the access uses its strand's own scratch paths (R296) -/
  own : Bool := false
  stat : BitVec 3 := 0
  /-- its tokens belong to the queues set aside at a trap entry (R388) -/
  aside : Bool := false
  op : FOp
deriving DecidableEq, Repr

/-! ## Booking Unit -/

/-- An interval entry of a calendar (R254); `dev` is 0 for a booking of this part and `d + 1` for one of device `d` of fabric job `job`
(R317). -/
structure Interval where
  start : Nat
  len : Nat
  cap : Nat
  handle : BitVec 32
  dev : Nat := 0
  job : Nat := 0
  stage : Nat
  /-- its stage has stopped in it: no further step of a collective begins (R266) -/
  stopped : Bool := false
deriving DecidableEq, Repr

/-- Slots that return at the next slot boundary (R269): those of a stage from slot `first` on; the device and job as in `Interval`. -/
structure Ret where
  dev : Nat := 0
  job : Nat := 0
  handle : BitVec 32
  stage : Nat
  first : Nat
deriving DecidableEq, Repr

/-- The state of a booking (R207, R213). -/
inductive BState where
  | deferred | committed | running | done | cancelled | nofit
deriving DecidableEq, Repr

/-- A stage of a booking (R212). -/
structure Stage where
  ecls : Nat
  inst : Nat
  /-- stages with the same step start in the same slot (R342) -/
  step : Nat := 0
  dev : Nat := 0
  rmt : Bool := false
  cap : Nat := 1
  dur : Nat := 1
  gmin : Nat := 0
  gmax : Nat := 0
  /-- reported start slot (R162, R217) -/
  start : Nat := 0
  rinst : Nat := 0
  /-- first slot after the last held slot -/
  fin : Nat := 0
  placed : Bool := false
  begun : Bool := false
  ended : Bool := false
  released : Bool := false
  /-- the start of its continuation, before which no walker step begins (R266): a cycle -/
  hold : Nat := 0
deriving DecidableEq, Repr

/-- A booking known by its handle (R213). -/
structure Booking where
  handle : BitVec 32
  part : Nat
  fn : Nat
  core : Nat
  st : BState
  stages : List Stage
  fol : List (BitVec 32) := []
  uid : Nat := 0
  prio : Nat := 0
  rls : Nat := 0
  rel : Nat := 0
  dlv : Bool := false
  dln : Nat := 0
  altok : Bool := false
  accepted : Nat := 0
  cluster : Nat := 0
  seq : Nat := 0
  committed : Nat := 0
  /-- slot in which it reached a final state -/
  finalSlot : Nat := 0
  /-- scratch address of the record's result area on `core` -/
  resultAt : Option Nat := none
  remote : Bool := false
  /-- collective tag when `coll` built it -/
  coll : Option Nat := none
deriving DecidableEq, Repr

/-- A copy packet (R218 to R220). -/
structure CopyPkt where
  serial : Nat
  part : Nat
  fn : Nat
  core : Nat
  slot : Nat
  ser : Nat
  ip : Nat
  rcd : BitVec 512
  /-- copy engine of the part, 0 to 95 -/
  engine : Nat
  uid : Nat
  /-- index among the packets that the context posted in the cluster -/
  posted : Nat
  /-- the arbiter has chosen it (R362): it runs to its end, in units -/
  chosen : Bool := false
  /-- the first cycle after the unit that is moving (R257) -/
  running : Option Nat := none
  /-- cycle from which its completion word may be written -/
  doneAt : Nat := 0
  /-- rows to move when it was cancelled -/
  rowLimit : Option Nat := none
  /-- next unit to move (R257) -/
  nextUnit : Nat := 0
  /-- status 2 or 3 met, a barrier word skipped, poisoned data moved, status 5 or 6 -/
  failed : Nat := 0
  skipped : Bool := false
  poisoned : Bool := false
  withdrawn : Nat := 0
deriving DecidableEq, Repr

/-- A request in the queue of the central unit (R258, R259). -/
inductive ReqKind where
  | book (b : Booking) (defer : Bool)
  | query (handle : BitVec 32) (stage : Nat)
  | cancel (handle : BitVec 32)
  | release (handle : BitVec 32) (stage : Nat)
  /-- stages from `first` on of a booking with remote stages are placed again (R276) -/
  | replace (handle : BitVec 32) (first lo last : Nat)
  | coll (tag : Nat)
  | post (p : CopyPkt)
deriving DecidableEq, Repr

/-- A request with its priority, acceptance and issuing flight. -/
structure Req where
  seq : Nat
  prio : Nat
  aging : Bool
  raised : Nat := 0
  /-- cycle in which the search that is in progress ends (R259, R261) -/
  search : Option Nat := none
  accepted : Nat
  cluster : Nat
  flight : Nat
  part : Nat
  fn : Nat
  kind : ReqKind
deriving DecidableEq, Repr

/-- A tentative hold for another device's booking (R275). -/
structure Hold where
  job : Nat := 0
  dev : Nat
  handle : BitVec 32
  stage : Nat
  cal : Nat
  cap : Nat
  dur : Nat
  first : Nat
  last : Nat
  expires : Nat
deriving DecidableEq, Repr

/-- A cross-device exchange in progress (R274). -/
structure Exchange where
  handle : BitVec 32
  /-- the request that the exchange decides -/
  req : Nat
  /-- first stage to be placed, and the latest start of it -/
  first : Nat := 0
  last : Option Nat := none
  round : Nat
  lo : Nat
  /-- placement of the round: (instance, start) of each stage -/
  place : List (Nat × Nat)
  /-- (stage, instance, first and last feasible start) -/
  replies : List (Nat × Nat × Nat × Nat) := []
  limit : Nat
deriving DecidableEq, Repr

/-- The Booking Unit (R254 to R277). -/
structure BookUnit where
  cals : SMap (List Interval) := []
  /-- taken marks: calendar and slot after which the mark ends -/
  marks : List (Nat × Nat × Nat) := []
  reqs : List Req := []
  bookings : List Booking := []
  serials : SMap Nat := []
  holds : List Hold := []
  exchange : Option Exchange := none
  /-- returns that fall due at the next slot boundary (R269) -/
  returns : List Ret := []
  commits : Nat := 0
  /-- last slot whose boundary steps are done (R271) -/
  lastSlot : Nat := 0
  /-- cycle of the last decision, plus one (R259), and of the last acceptance by each front end, plus one (R258) -/
  decidedAt : Nat := 0
  front : SMap Nat := []
  limit : Option Nat := none
  /-- offset of fabric time and slot of the last beacon (R331) -/
  beaconOff : Int := 0
  lastBeacon : Nat := 0
  synced : Bool := true
deriving DecidableEq, Repr

/-! ## Task schedulers -/

/-- A dependence counter (R230, R231): its value and its armed record with the arming task's `TVEC`. -/
structure Counter where
  val : Nat := 0
  armed : Option DqEntry := none
deriving DecidableEq, Repr

/-- A mapped or held hardware queue (R233, R283, R286). -/
structure QMapping where
  part : Nat
  fn : Nat
  qaddr : Nat
  npre : Bool
  any : Bool
  want : Nat
  core : Nat
  entry : DqEntry
  /-- uid of the pushed copy that no prefetcher has taken -/
  pending : Option Nat := none
  lastNotify : Nat := 0
  /-- a set `PNB` bit, with the cycle it was set -/
  pnb : Option Nat := none
deriving DecidableEq, Repr

/-- A unit in the footprint table (R209). -/
structure FpUnit where
  uid : Nat
  part : Nat
  fn : Nat
  regs : List Region
  deps : List Nat
  /-- when and by which core it was submitted -/
  cyc : Nat := 0
  core : Nat := 0
deriving DecidableEq, Repr

/-- What the task schedulers do at the end of a cycle (R226, R285). -/
inductive HtsOp where
  /-- `qunmap` of the queue whose notify word is at `qaddr` -/
  | unmap (qaddr : Nat)
  /-- a notify -/
  | notify (part fn : Nat) (qaddr : BitVec 64)
  | map (q : QMapping)
  /-- `dqpop` to scratch address `a` -/
  | pop (a : Nat)
  /-- `dqpush`, `topb` -/
  | push (d : DqEntry)
  /-- `dqsteal` from core `v` -/
  | steal (v : Nat)
deriving DecidableEq, Repr

/-- A request to the schedulers, with the core and context that made it, and the number of the result in flight that takes its answer. -/
structure HtsReq where
  core : Nat
  part : Nat
  fn : Nat
  flight : Nat := 0
  op : HtsOp
deriving DecidableEq, Repr

/-- The scheduler of a cluster. -/
structure Hts where
  /-- keyed 4096 * (128 * partition + function) + counter -/
  ctrs : SMap Counter := []
  /-- records released by counters and notifies, or held for a full deque, that have still to be pushed: issuing core and entry -/
  heldPush : List (Nat × DqEntry) := []
  qslots : SMap QMapping := []
  /-- held requests keyed 256 * (128 * partition + function) + entry -/
  qheld : SMap QMapping := []
  /-- queue slot owner: context key (R283, R356) -/
  qowner : SMap Nat := []
  table : List FpUnit := []
  /-- task serials and packet indices by context key -/
  serials : SMap Nat := []
  packets : SMap Nat := []
  copies : List CopyPkt := []
  /-- arbiter: weight by context key, deficit keyed 16384 * engine + context key, context last served by engine -/
  weights : SMap Nat := []
  deficit : SMap Nat := []
  lastServed : SMap Nat := []
deriving DecidableEq, Repr

/-! ## Contexts -/

/-- The life of a context (R278, R363 to R374). -/
inductive CtxPhase where
  | created
  | running
  /-- in its handler phase before a save; occasion 0 slice end, 1 stop, 2 migration, 3 debugger -/
  | saving (occasion : Nat)
  | saved (occasion : Nat)
  | lost
  | destroyed
deriving DecidableEq, Repr

/-- A stage-2 entry (R305). -/
structure S2Entry where
  pfn : Nat
  w : Bool
  d : Bool := false
  pp : Bool := false
  plat : Bool := false
deriving DecidableEq, Repr

/-- A shoot-down request (R310, R311). -/
structure Shootdown where
  ticket : Nat
  value : Word
  due : Nat
deriving DecidableEq, Repr

/-- A request to another device that has not completed (R327, R328). -/
inductive FarKind where
  /-- a far load: place of the data, length, and the replies so far: offset, bytes, poison marks -/
  | load (core slot dst n : Nat) (got : List (Nat × List Byte × Nat))
  | store (ord : Bool)
  | atomic (flight : Nat)
  | third (core slot ser ip : Nat) (trap : Bool) (rcd : BitVec 256) (members : List Nat)
      (ack rej poi : Nat) (ofc : Option Nat) (limit : Nat)
deriving DecidableEq, Repr

/-- An outstanding far request with its destination, class, route and time of sending. -/
structure FarReq where
  tag : Nat
  dev : Nat
  cls : Nat
  route : Nat
  /-- cycle of the issue of the word, and of the sending -/
  issued : Nat
  sent : Nat
  /-- (core, slot, serial) of the task that sent it -/
  task : Nat × Nat × Nat
  /-- the virtual address at the device -/
  va : Nat := 0
  /-- a member of the third-party read has acknowledged with Aborted (R333 step 5) -/
  aborted : Bool := false
  /-- its reply came in time and waits for the restore of its context (R361) -/
  answered : Bool := false
  kind : FarKind
deriving DecidableEq, Repr

/-- A third-party delivery being received at this part as a member (R333). -/
structure Delivery where
  tag : Nat
  /-- member number of this appearance in the group (R332) -/
  mem : Nat
  rq : Nat
  core : Nat
  win : Nat
  len : Nat
  got : Nat := 0
  rejected : Bool := false
  poisoned : Bool := false
  aborted : Bool := false
  /-- the cycle in which the member has acknowledged (R333 step 5) -/
  endedAt : Option Nat := none
  /-- the error of an abort that came while the context was not present, for its window at the restore; 0 none (R334) -/
  owed : Nat := 0
deriving DecidableEq, Repr

/-- The membership of a context in a fabric job (R317, R318, R329). -/
structure JobBind where
  job : Nat
  dev : Nat
  ports : Nat
  tmoMs : Nat
deriving DecidableEq, Repr

/-- The image header fields of a started context (R402). -/
structure Image where
  pblk : Nat
  saveb : Nat
  rstb : Nat
  rfent : Nat
  tvec0 : Nat
  s1root : Nat
  rootrec : BitVec 256
  evtrec : BitVec 256
deriving DecidableEq, Repr

/-- The eight accounting counters (R381), with counts not yet committed (R382). -/
structure Counters where
  snap : Word := 0
  mbusy : Word := 0
  vbusy : Word := 0
  copyb : Word := 0
  dramr : Word := 0
  dramw : Word := 0
  fabb : Word := 0
  energy : Word := 0
deriving DecidableEq, Repr

/-- A context: a partition with one of its functions (R355). -/
structure Context where
  phase : CtxPhase := .created
  image : Option Image := none
  /-- length of the stage-2 array and its valid entries (R305) -/
  s2len : Nat := 0
  /-- `S2BASE`: physical address of the stage-2 array, in a platform frame (R305) -/
  s2base : Nat := 0
  s2 : SMap S2Entry := []
  sdNext : Nat := 0
  sdDone : Nat := 0
  sds : List Shootdown := []
  cecnt : Nat := 0
  job : Option JobBind := none
  /-- keyed 4 * device + route (R319) -/
  routes : SMap Word := []
  groups : SMap (List Nat) := []
  /-- far requests that have not completed -/
  far : List FarReq := []
  nextTag : Nat := 1
  /-- stores sent, keyed (16 * device + class) * 4 + route (R247) -/
  sent : SMap Nat := []
  /-- stores arrived, keyed ((64 * device + partition) * 16 + class) * 4 + route (R247, R328) -/
  arrived : SMap Nat := []
  deliveries : List Delivery := []
  counters : Counters := {}
  pending : Counters := {}
  debugger : Bool := false
  /-- notifies recorded while descheduled (R361) -/
  notes : List Nat := []
  evMap : Option QMapping := none
  /-- walker tasks that the header of its restart area counts, as last written (R372) -/
  restarts : Nat := 0
  lostReason : Nat := 0
  sseq : Nat := 0
  /-- the seal and sequence kept in platform frames (R369) -/
  sealVal : BitVec 128 := 0
  /-- bookings removed at a migration, in commit order (R379) -/
  moving : List Booking := []
  /-- the destination of a migration in progress, and whether its stop phase has begun (R379) -/
  migrating : Option Nat := none
  migStopped : Bool := false
  /-- it has reattached and has not been restored since (R379) -/
  resuming : Bool := false
  /-- M3: the image header and the text loaded at `CTX_START` (R405) -/
  measured : List Byte := []
  /-- what the layout of a save area has no place for, by core: the cores as they stood at the save, and results in flight -/
  kept : SMap Core := []
  keptFlights : List Flight := []
  /-- a start that waits for the context's slice: 0 the root task, else the reason of the loss after which it starts (R371) -/
  startAs : Option Nat := none
  /-- replies that came while the context was not present -/
  heldReplies : List Pkt := []
  /-- the function whose stop command ends when the save is complete, and that command's tag (R366) -/
  stopper : Option (Nat × BitVec 32) := none
deriving DecidableEq, Repr

/-- A partition (R355, R359). -/
structure Partition where
  gmask : Nat
  fn0 : Nat
  fn1 : Nat
  split : Nat
  hcap : Nat
deriving DecidableEq, Repr

/-! ## Gates -/

/-- A signal queued while its gate is in transit (R200, R203). -/
structure QSignal where
  part : Nat
  fn : Nat
  payload : Option Nat
deriving DecidableEq, Repr

/-- A gate record (R375) with its queued signals. -/
structure Gate where
  acl : List Nat
  payload : Nat := 0
  seq : Nat := 0
  cap : Nat
  refill : Nat
  level : Nat
  wlen : Nat := 0
  wpfn : Nat := 0
  /-- 0 active, 1 in transit, 2 closed -/
  state : Nat := 0
  tmask : Nat := 0
  queue : List QSignal := []
  /-- last slot whose refill is done, plus one -/
  refilled : Nat := 0
  /-- cycle of the last application of a queued signal, plus one (R378) -/
  appliedAt : Nat := 0
deriving DecidableEq, Repr

/-- A recorded gate request (R403). -/
structure GateReq where
  part : Nat
  fn : Nat
  gate : Nat
  body : Nat
deriving DecidableEq, Repr

/-! ## Collectives -/

/-- One run of bytes that a member sends in a step, or expects (R341): the other member, source and destination offsets, length,
and how it is applied: 0 accumulated, 1 overwritten, 2 to the reduction context. -/
structure Xfer where
  peer : Nat
  src : Nat
  dst : Nat
  len : Nat
  mode : Nat
deriving DecidableEq, Repr

/-- A step of a collective at one member: the booking's stages of the member's Shuttle and reduction context, and what it sends
and expects. -/
structure CStep where
  stage : Option Nat
  rctx : Option Nat
  sends : List Xfer
  recvs : List Xfer
  /-- its duration in slots (R342) -/
  dur : Nat := 1
  begun : Bool := false
  /-- the step's tiles are all sent and acknowledged, what its reduction context waits for has come, and its stage has been given back -/
  ended : Bool := false
  /-- the slot before which no further time is asked for it (R350) -/
  quiet : Nat := 0
deriving DecidableEq, Repr

/-- A collective at this member (R335 to R354). -/
structure Coll where
  tag : Nat
  members : List Nat
  me : Nat
  block : BitVec 1024
  rcd : BitVec 128
  part : Nat
  fn : Nat
  core : Nat
  uid : Nat
  /-- its own handle, and that of the coordinator's booking -/
  handle : BitVec 32
  booked : BitVec 32 := 0
  /-- the member whose Booking Unit holds that booking -/
  booker : Nat := 0
  alg : Nat
  /-- the coordinator's booking has committed; the local copy before the first step is made -/
  started : Bool := false
  copied : Bool := false
  plan : List CStep := []
  /-- what all members send in each step, from which contributions are known (R351), and the chunks of the last redo (R349) -/
  sends : List (List (Nat × Xfer)) := []
  redone : Option Nat := none
  /-- stages of the booking so far, and slots that the steps take -/
  nst : Nat := 0
  span : Nat := 0
  /-- slot in which the booking committed -/
  start : Nat := 0
  /-- bytes received: step, tile, sender, bytes -/
  tiles : List (Nat × Nat × Nat × Nat) := []
  /-- staging buffer for `OP` 1 (R341) -/
  staging : Mem := []
  stagingPoison : NSet := []
  /-- operands waiting in this node's reduction context: step, sending member, byte offset, bytes, poison marks -/
  rctx : List (Nat × Nat × Nat × List Byte × Nat) := []
  /-- 64-byte units of `RBUF` that have been counted in a window (R346) -/
  counted : NSet := []
  /-- runs of the begun steps not sent yet: step and run of one tile -/
  queue : List (Nat × Xfer) := []
  /-- sent tiles without their acknowledgement: step, tile, member, cycle -/
  unacked : List (Nat × Nat × Nat × Nat) := []
  fmask : Nat := 0
  late : Nat := 0
  /-- steps below this one are flushed (R351) -/
  flushed : Option Nat := none
  /-- the slot of the flush -/
  flushSlot : Nat := 0
  toldLate : Bool := false
  /-- status with which the member leaves the instance: 3 by `bkcan`, 2 by a digest mismatch -/
  withdrawn : Option Nat := none
  cancelled : Bool := false
  /-- runs of `SBUF` and of `RBUF` that strands have stored into since the `coll`: offset and length (R346) -/
  spoilS : List (Nat × Nat) := []
  spoilR : List (Nat × Nat) := []
deriving DecidableEq, Repr

/-! ## Firmware, host and management -/

/-- A host event ring entry (R403). -/
structure HostEvent where
  code : Nat
  part : Nat
  fn : Nat
  reason : Nat
  cyc : Nat
  dropped : Nat
deriving DecidableEq, Repr

/-- The BAR0 of one function (R397, R399, R403). -/
structure HostFn where
  queue : List Desc := []
  tail : Nat := 0
  headDone : Nat := 0
  /-- completed descriptors: tag, status, returned value -/
  done : List (BitVec 32 × Nat × Nat) := []
  ring : List HostEvent := []
  evhead : Nat := 0
  evtail : Nat := 0
  dropped : Nat := 0
  /-- MSI-X vectors raised -/
  msix : Nat := 0
  /-- a reset of the function waits for its running command, and the tag of the `VF_RESET` that asked for it (R400) -/
  flr : Bool := false
  resetBy : Option (BitVec 32) := none
deriving DecidableEq, Repr

/-- Power states (R409). -/
inductive Power where
  | off | standby | ready
deriving DecidableEq, Repr

/-- The module's management state (R404 to R409). -/
structure Mgmt where
  power : Power := .ready
  recovery : Bool := false
  flash : List Byte := []
  running : List Byte := []
  cap : Nat := 1900
  /-- last readings of record 0x0007 by sensor: temperature, rail voltage and current of each die, then package power (R398) -/
  sensors : SMap Nat := []
  /-- replies sent through the Fjarlos port: 1 sensors, 2 power cap, 3 firmware update, 4 counters (R406) -/
  replies : List (Nat × List Nat) := []
  retired : NSet := []
  degraded : NSet := []
  /-- energy carried to the next millisecond (R383) -/
  remainder : Nat := 0
  /-- slot of the last millisecond boundary whose energy has been shared out, plus one (R383) -/
  energySlot : Nat := 0
  /-- consecutive milliseconds with the package power above the cap, and below it (R407) -/
  overMs : Nat := 0
  underMs : Nat := 0
  /-- per port: link up, latency in slots -/
  links : SMap (Bool × Nat) := []
  beaconRoot : Bool := false
  beaconPorts : Nat := 0
  lastBeaconSent : Nat := 0
  discards : Nat := 0
  checks : Nat := 0
  /-- slot of the last LDOWN sent per route key (R326) -/
  ldownSent : SMap Nat := []
deriving DecidableEq, Repr

/-- A completion that the part has sent to the host for a BAR2 read or AtomicOp (R396, R397): data, the poisoned-data indication, or
Unsupported Request when `ok` is false. -/
structure HostReply where
  fn : Nat
  ok : Bool
  poisoned : Bool := false
  bytes : List Byte := []
deriving DecidableEq, Repr

/-- What the part's ports hold (R321), keyed 16 * port + virtual channel. -/
structure Net where
  /-- packets that wait to leave, oldest first -/
  queues : SMap (List Pkt) := []
  /-- flits of the buffer at the other end of the link that packets sent have taken and no credit has given back -/
  used : SMap Nat := []
  /-- by port: bytes sent of the budget of later cycles -/
  debt : SMap Nat := []
deriving DecidableEq, Repr

/-! ## The part -/

/-- What follows the completion record of a third-party read in the next cycle: the decrement of a counter, then the fault of
`fldx.t` (R197, R198). -/
structure Later where
  cyc : Nat
  core : Nat
  slot : Nat
  ser : Nat
  key : Nat
  ctr : Option Nat
  fault : Option TrapInfo
  detail : Nat
deriving DecidableEq, Repr

/-- Poison that an access has found and of which no event has told yet (R314): the context and core of the access, the address by which
its program names the unit, and its place where that is known. -/
structure Found where
  key : Nat
  core : Nat := 0
  name : Option Nat := none
  loc : Option Loc := none
deriving DecidableEq, Repr

/-- The state of one part. -/
structure State where
  cyc : Nat := 0
  /-- 4 * core + strand code: the next strand to issue in this cycle -/
  turn : Nat := 0
  agenda : List Instr := []
  /-- the number of the next free value (assumption log 1) -/
  fresh : Nat := 0
  nextId : Nat := 1
  flights : List Flight := []
  cores : SMap Core := []
  dram : Mem := []
  dramPoison : NSet := []
  /-- poisoned lines of which a Memory Error event has told (R314) -/
  dramTold : NSet := []
  found : List Found := []
  hts : SMap Hts := []
  /-- requests of this cycle to the schedulers, as made (R226, R285) -/
  htsReqs : List HtsReq := []
  bu : BookUnit := {}
  parts : SMap Partition := []
  /-- keyed 128 * partition + function -/
  ctxs : SMap Context := []
  gates : SMap Gate := []
  gateReqs : List GateReq := []
  colls : List Coll := []
  /-- `coll` words counted, and late contributions after a record (R352), keyed 256 * context key + group (R335) -/
  collCount : SMap Nat := []
  collLate : SMap Nat := []
  /-- digests and notices that came before the member's `coll`: context key, packet (R336, R347) -/
  digests : List (Nat × Pkt) := []
  /-- the packets that wait at the ports, and those that have left, oldest first -/
  net : Net := {}
  outbox : List Pkt := []
  /-- by fabric job: what the part still knows of the job's context when it has been destroyed (R325) -/
  gone : SMap Context := []
  /-- what the ports' translation caches hold (R325): by context key and guest page, the translation last read -/
  portTlb : List ((Nat × Nat) × (Nat × Bool × Bool × Bool)) := []
  /-- packets that the part has sent to itself, oldest first -/
  loop : List Pkt := []
  /-- ordered stores held for their counts: context key, arrival cycle, packet (R247) -/
  heldOrd : List (Nat × Nat × Pkt) := []
  /-- what follows completion records in the next cycle (R197, R198) -/
  later : List Later := []
  hostMem : Mem := []
  host : SMap HostFn := []
  /-- completions sent to the host, oldest first -/
  hostOut : List HostReply := []
  lastFn : Nat := 0
  mgmt : Mgmt := {}
deriving DecidableEq, Repr

/-- The part right after a package reset (R404, R409): cycle 0, no context, no task, every table empty. -/
def State.reset : State := {}

/-! ## How a step can stop -/

/-- Faults of the model. A fault of the manual is a trap, the end of a task or an event, each a next state; these name a step that
the machine cannot take in the state given. -/
inductive Fault where
  /-- raised when a step of the opcode table names a thing that does not exist in the state (a flight, core, packet or
  booking that no agent holds), so that the manual describes no such step; safe -/
  | noSuchStep
  /-- raised when the module is off or in standby and is given work other than power-on or the management port (R409); safe -/
  | notPowered
deriving DecidableEq, Repr

/-- Refusals of the model. -/
inductive Refusal where
  /-- an instruction rejected by name; safe -/
  | notModelled (mnemonic : String)
deriving DecidableEq, Repr

end Sys2Proof.Machine
end

