-- ==== Sys2Proof/Machine/Memory.lean ====
section
/-!
DEFINITION. Cores, contexts and memory of the part: the scratch address map (R36, R37), poison (R298, R313), the two stages of
translation (R303 to R305), leases (R306, R308), and reads and writes of bytes with the order of bytes of R5.
-/
namespace Sys2Proof.Machine

/-! ## Tables of the state -/

/-- Core `n` (R11). -/
def State.core (s : State) (n : Nat) : Core := SMap.get s.cores {} n
/-- Core `n` replaced. -/
def State.setCore (s : State) (n : Nat) (c : Core) : State := { s with cores := SMap.set s.cores n c }
/-- Core `n` changed by `f`. -/
def State.updCore (s : State) (n : Nat) (f : Core → Core) : State := s.setCore n (f (s.core n))
/-- The task in slot `sl` of core `n`. -/
def State.task? (s : State) (n sl : Nat) : Option Task := SMap.find? (s.core n).slots sl
/-- The task in slot `sl` of core `n` replaced. -/
def State.setTask (s : State) (n sl : Nat) (t : Task) : State :=
  s.updCore n fun c => { c with slots := SMap.set c.slots sl t }
/-- The task in slot `sl` of core `n`, if there is one, changed by `f`. -/
def State.updTask (s : State) (n sl : Nat) (f : Task → Task) : State :=
  match s.task? n sl with
  | none => s
  | some t => s.setTask n sl (f t)
/-- The key of a context: partition and function. -/
def ctxKey (part fn : Nat) : Nat := 128 * part + fn
/-- The key of a task's context. -/
def Task.key (t : Task) : Nat := ctxKey t.part t.fn
/-- Context `k`. -/
def State.ctx (s : State) (k : Nat) : Context := SMap.get s.ctxs {} k
/-- Context `k` changed by `f`, if it exists. -/
def State.updCtx (s : State) (k : Nat) (f : Context → Context) : State :=
  match SMap.find? s.ctxs k with
  | none => s
  | some c => { s with ctxs := SMap.set s.ctxs k (f c) }
/-- The counts of a context changed (R381, R382). -/
def State.bill (s : State) (k : Nat) (f : Counters → Counters) : State := s.updCtx k fun c => { c with pending := f c.pending }
/-- Table walks and text fetches on a context's behalf count as bytes read; how many of them caches spare is open (R308, R382). -/
def State.billWalk (s : State) (k : Nat) : State :=
  { (s.bill k fun c => { c with dramr := c.dramr + BitVec.ofNat 64 (Config.walkBytes s.fresh) }) with fresh := s.fresh + 1 }
/-- The scheduler of cluster `c`. -/
def State.htsOf (s : State) (c : Nat) : Hts := SMap.get s.hts {} c
/-- The scheduler of cluster `c` changed by `f`. -/
def State.updHts (s : State) (c : Nat) (f : Hts → Hts) : State :=
  { s with hts := SMap.set s.hts c (f (s.htsOf c)) }
/-- The cluster of a core (R11). -/
def clusterOf (core : Nat) : Nat := core / Config.coresPerCluster
/-- The granule of a core (R11). -/
def granuleOf (core : Nat) : Nat := core / 16
/-- The partition that owns a core, through its granule (R11, R355). -/
def State.partOf (s : State) (core : Nat) : Option Nat :=
  (List.find? (fun p => p.2.gmask.testBit (granuleOf core)) s.parts).map (·.1)
/-- The cores of a partition, rising. -/
def State.coresOf (s : State) (part : Nat) : List Nat :=
  match SMap.find? s.parts part with
  | none => []
  | some p => (List.range Config.nCores).filter fun n => p.gmask.testBit (granuleOf n)
/-- The next free value of width `w` (R9), and the state that has used it. -/
def State.free (s : State) (w : Nat) : BitVec w × State := (Config.freeValue w s.fresh, { s with fresh := s.fresh + 1 })

/-! ## Strands of a task -/

/-- The registers of strand `t`. -/
def Task.str (k : Task) : Strand → StrandSt
  | .C => k.sC
  | .L => k.sL
  | .X => k.sX
  | .S => k.sS
/-- The registers of strand `t` replaced. -/
def Task.setStr (k : Task) (t : Strand) (x : StrandSt) : Task :=
  match t with
  | .C => { k with sC := x }
  | .L => { k with sL := x }
  | .X => { k with sX := x }
  | .S => { k with sS := x }
/-- The registers of strand `t` changed by `f`. -/
def Task.updStr (k : Task) (t : Strand) (f : StrandSt → StrandSt) : Task := k.setStr t (f (k.str t))
/-- The registers of every strand changed by `f`. -/
def Task.updAll (k : Task) (f : StrandSt → StrandSt) : Task :=
  { k with sC := f k.sC, sL := f k.sL, sX := f k.sX, sS := f k.sS }
/-- The registers of every strand changed by a function of the strand. -/
def Task.updEach (k : Task) (f : Strand → StrandSt → StrandSt) : Task :=
  { k with sC := f .C k.sC, sL := f .L k.sL, sX := f .X k.sX, sS := f .S k.sS }
/-- Register `a n`; `a0` reads zero (R16). -/
def StrandSt.reg (x : StrandSt) (n : Nat) : Word := if n = 0 then 0 else SMap.get x.a 0 n
/-- Register `a n` written; a write to `a0` is discarded (R16). -/
def StrandSt.setReg (x : StrandSt) (n : Nat) (v : Word) : StrandSt :=
  if n = 0 then x else { x with a := SMap.set x.a n v }
/-- Predicate `p n`; `p0` is 1 (R15). -/
def StrandSt.pred (x : StrandSt) (n : Nat) : Bool := n == 0 || x.p.getLsbD n
/-- Predicate `p n` written; a write to `p0` is discarded (R44). -/
def StrandSt.setPred (x : StrandSt) (n : Nat) (v : Bool) : StrandSt :=
  if n = 0 then x
  else { x with p := if v then x.p ||| (1#8 <<< n) else x.p &&& ~~~(1#8 <<< n) }
/-- Loop counter `n` (R30). -/
def StrandSt.loopCtr (x : StrandSt) (n : Nat) : LoopCtr := SMap.get x.lc ⟨0, 0⟩ n

/-! ## Register files of a core -/

/-- Entry `k` of a file: as written, or the start value `d`, or after a yield point a free value (R34, R35). -/
def RFile.read (r : RFile) (w d k : Nat) : BitVec w :=
  match SMap.find? r.m k with
  | some v => BitVec.ofNat w v
  | none =>
    match r.gen with
    | none => BitVec.ofNat w d
    | some g => Config.freeValue w (g + k)
/-- Entry `k` of a file written. -/
def RFile.write (r : RFile) (k : Nat) {w : Nat} (v : BitVec w) : RFile := { r with m := SMap.set r.m k v.toNat }
/-- Vector, operand or last-result register by specifier 0 to 75 (R48). -/
def Core.vreg (c : Core) (n : Nat) : Vec := c.vec.read 2048 0 n
/-- Vector register written. -/
def Core.setVreg (c : Core) (n : Nat) (v : Vec) : Core := { c with vec := c.vec.write n v }
/-- Mask register 0 to 7; all ones at task start (R34). -/
def Core.mreg (c : Core) (n : Nat) : Word := c.msk.read 64 0xFFFFFFFFFFFFFFFF n
/-- Mask register written. -/
def Core.setMreg (c : Core) (n : Nat) (v : Word) : Core := { c with msk := c.msk.write n v }
/-- Lane `i` of a vector register (R15). -/
def lane (v : Vec) (i : Nat) : Lane := v.extractLsb' (32 * i) 32
/-- The vector whose lane `i` is `f i`. -/
def ofLanes (f : Nat → Lane) : Vec :=
  BitVec.ofNat 2048 ((List.range 64).foldr (fun i n => (f i).toNat + 2 ^ 32 * n) 0)
/-- Lanes of `new` where `lanes` has a one, of `old` elsewhere (R115). -/
def mixLanes (old new : Vec) (lanes : BitVec 64) : Vec :=
  ofLanes fun i => if lanes.getLsbD i then lane new i else lane old i

/-! ## Scratch addresses -/

/-- A scratch address in the map of R36: the core and offset it names, from core `own`. -/
def scratchMap (own addr : Nat) : Option (Nat × Nat) :=
  if addr < Config.scratchBytes then some (own, addr)
  else if 0x10000000 ≤ addr ∧ addr < 0x1C000000 then
    let k := (addr - 0x10000000) / 0x200000
    let off := (addr - 0x10000000) % 0x200000
    if off < Config.scratchBytes then some (clusterOf own * Config.coresPerCluster + k, off) else none
  else none

/-- The `n` bytes at scratch address `addr`, all mapped and all of the partition (R37). -/
def State.scratchAt (s : State) (own part addr n : Nat) : Option Loc :=
  match scratchMap own addr with
  | none => none
  | some (c, off) => if s.partOf c = some part ∧ off + n ≤ Config.scratchBytes then some ⟨some c, off⟩ else none

/-! ## Bytes at a location, and poison -/

/-- The memory of a location. -/
def State.memOf (s : State) : Option Nat → Mem
  | none => s.dram
  | some c => (s.core c).scratch
/-- The bytes of size of a unit of poison (R313). -/
def poisonUnit : Option Nat → Nat
  | none => 64
  | some _ => 8
/-- The poisoned units of the memory of a location. -/
def State.poisonOf (s : State) : Option Nat → NSet
  | none => s.dramPoison
  | some c => (s.core c).poison
/-- The memory of a location replaced. -/
def State.setMem (s : State) (c : Option Nat) (m : Mem) : State :=
  match c with
  | none => { s with dram := m }
  | some c => s.updCore c fun k => { k with scratch := m }
/-- The poisoned units of the memory of a location replaced; a unit whose mark is cleared is told of again when it is marked again (R314). -/
def State.setPoison (s : State) (c : Option Nat) (p : NSet) : State :=
  match c with
  | none => { s with dramPoison := p, dramTold := s.dramTold.filter p.contains }
  | some c => s.updCore c fun k => { k with poison := p, told := k.told.filter p.contains }
/-- An access has found poison (R314). -/
def State.find (s : State) (x : Found) : State := { s with found := s.found ++ [x] }
/-- The byte at a location. -/
def State.byteAt (s : State) (l : Loc) : Byte := Mem.get (s.memOf l.core) l.off
/-- The `n` bytes at a location, lowest first (R5). -/
def State.readLoc (s : State) (l : Loc) (n : Nat) : Nat := Mem.read (s.memOf l.core) l.off n
/-- Some unit of the `n` bytes at a location is poisoned. -/
def State.isPoisoned (s : State) (l : Loc) (n : Nat) : Bool :=
  (s.poisonOf l.core).any fun u => u * poisonUnit l.core < l.off + n && l.off < (u + 1) * poisonUnit l.core

/-- A piece of a write: its location, its length and its bytes as a number. -/
abbrev WPiece := Loc × Nat × Nat

/-- Byte `a` of memory `c` lies in one of the pieces. -/
def covers (ps : List WPiece) (c : Option Nat) (a : Nat) : Bool :=
  ps.any fun p => decide (p.1.core = c) && decide (p.1.off ≤ a) && decide (a < p.1.off + p.2.1)
/-- A unit of poison after a write of the pieces: a wholly covered unit is cleared (R313). -/
def keepsPoison (ps : List WPiece) (c : Option Nat) (u : Nat) : Bool :=
  !((List.range (poisonUnit c)).all fun k => covers ps c (u * poisonUnit c + k))
/-- The bytes of one piece stored. -/
def State.storeBytes (s : State) (p : WPiece) : State :=
  s.setMem p.1.core (Mem.write (s.memOf p.1.core) p.1.off p.2.1 p.2.2)
/-- The marks that a write clears where it stores piece `p`: those of the units that the pieces `ps` of the write cover (R313). -/
def State.clearPiece (ps : List WPiece) (s : State) (p : WPiece) : State :=
  if (s.poisonOf p.1.core).isEmpty then s
  else s.setPoison p.1.core ((s.poisonOf p.1.core).filter (keepsPoison ps p.1.core))
/-- The marks that piece `p` sets, whose data are poisoned: those of every unit of which it writes a byte (R313). -/
def State.markPiece (s : State) (p : WPiece) : State :=
  s.setPoison p.1.core
    ((List.range (p.2.1 / poisonUnit p.1.core + 2)).foldl
      (fun set k =>
        let u := p.1.off / poisonUnit p.1.core + k
        if u * poisonUnit p.1.core < p.1.off + p.2.1 then NSet.add set u else set) (s.poisonOf p.1.core))
/-- The byte of DRAM at physical address `a` belongs to the text of the task (R56). -/
def Task.textByte (k : Task) (a : Nat) : Bool :=
  k.lease.any fun p => p.rd && decide (p.pa ≤ a) && decide (a < p.pa + p.size) &&
    decide (k.textb.toNat ≤ p.va + (a - p.pa)) && decide (p.va + (a - p.pa) < k.textb.toNat + 80 * k.txl)
/-- A core's record of text as it stood at the last `ifence`, when the bytes `as` of DRAM are about to change (R58). -/
def Core.noteText (c : Core) (dram : Mem) (as : List Nat) : Core :=
  { c with stale := as.foldl (fun m a =>
      if (SMap.find? m a).isNone && (c.slots.any fun k => k.2.textByte a) then SMap.set m a (Mem.get dram a).toNat else m) c.stale }
/-- The bytes of DRAM that the pieces of a write change. -/
def dramPlaces (ps : List WPiece) : List Nat :=
  (ps.filter fun p => p.1.core.isNone).flatMap fun p => (List.range p.2.1).map (p.1.off + ·)
/-- A store into text is fetched only after an `ifence` (R58): every core keeps the text of its tasks that the write changes. -/
def State.noteText (s : State) (ps : List WPiece) : State :=
  if ps.all fun p => p.1.core.isSome then s
  else { s with cores := s.cores.map fun (n, c) => (n, c.noteText s.dram (dramPlaces ps)) }
/-- One write of several pieces, in their order (R133: the last piece at an address remains); `bad` are those of them whose data are
poisoned (R313). -/
def State.writePieces (s : State) (ps : List WPiece) (bad : List WPiece := []) : State :=
  bad.foldl State.markPiece (ps.foldl (State.clearPiece ps) (ps.foldl State.storeBytes (s.noteText ps)))

/-! ## Translation -/

/-- Stage 2 of a context (R305): the physical address of a guest-physical address, with the entry. -/
def State.walk2 (s : State) (k ga : Nat) : Option (Nat × S2Entry) :=
  let c := s.ctx k
  if ga / Config.frameBytes < c.s2len then
    (SMap.find? c.s2 (ga / Config.frameBytes)).map fun e => (e.pfn * Config.frameBytes + ga % Config.frameBytes, e)
  else none

/-- `Walk2` with the fault reasons of R307: 5 where the entry that it reads is poisoned (R313), 4 where there is no valid entry. -/
def State.walkStage2 (s : State) (k ga : Nat) : Except Nat (Nat × S2Entry) :=
  let g := ga / Config.frameBytes
  if g < (s.ctx k).s2len ∧ s.isPoisoned ⟨none, (s.ctx k).s2base + 8 * g⟩ 8 = true then .error 5
  else
    match s.walk2 k ga with
    | none => .error 4
    | some r => .ok r

/-- `Malformed` of R304 for descriptor `d` at level `lvl`. -/
def malformed (d lvl : Nat) : Bool :=
  let addr := fld d 47 8 * 256
  let t := d.testBit 1
  fld d 63 48 != 0 || fld d 7 5 != 0 || (t && fld d 4 2 != 0) || (!t && lvl ≤ 1) || (t && lvl == 3)
  || (!t && lvl == 2 && addr % 0x200000 != 0) || (!t && lvl == 3 && addr % 0x10000 != 0)
  || (t && lvl ≤ 1 && addr % 4096 != 0)

/-- A leaf found by a walk: page size, guest-physical page base, rights. -/
structure Leaf where
  size : Nat
  ga : Nat
  rd : Bool
  wr : Bool
  fr : Bool
deriving DecidableEq, Repr

/-- `Walk1` of R304 from level `lvl`, with the fault reasons of R307. -/
def State.walk1From (s : State) (k va : Nat) : Nat → Nat → Nat → Except Nat Leaf
  | 0, _, _ => .error 2
  | fuel + 1, lvl, t =>
    let lo := if lvl = 0 then 39 else if lvl = 1 then 30 else if lvl = 2 then 21 else 16
    let n := if lvl = 3 then 32 else 512
    match s.walkStage2 k (t + 8 * ((va >>> lo) % n)) with
    | .error r => .error r
    | .ok (pa, _) =>
      if s.isPoisoned ⟨none, pa⟩ 8 then .error 5
      else
        let d := s.readLoc ⟨none, pa⟩ 8
        if !d.testBit 0 then .error 1
        else if malformed d lvl then .error 2
        else if d.testBit 1 then State.walk1From s k va fuel (lvl + 1) (fld d 47 8 * 256)
        else .ok ⟨if lvl = 2 then 0x200000 else 0x10000, fld d 47 8 * 256, d.testBit 2, d.testBit 3, d.testBit 4⟩

/-- The root of stage 1 of a context. -/
def Context.root (c : Context) : Nat :=
  match c.image with
  | some i => i.s1root
  | none => 0

/-- `Walk1` of R304 from the context's root. -/
def State.walk1 (s : State) (k va : Nat) : Except Nat Leaf := s.walk1From k va 4 0 (s.ctx k).root

/-- The poisoned word at which a walk of stage 1 stops, if it does: its physical address (R304, R314). -/
def State.badTableFrom (s : State) (k va : Nat) : Nat → Nat → Nat → Option Nat
  | 0, _, _ => none
  | fuel + 1, lvl, t =>
    let lo := if lvl = 0 then 39 else if lvl = 1 then 30 else if lvl = 2 then 21 else 16
    let ga := t + 8 * ((va >>> lo) % (if lvl = 3 then 32 else 512))
    match s.walkStage2 k ga with
    | .error _ => none
    | .ok (pa, _) =>
      if s.isPoisoned ⟨none, pa⟩ 8 then some pa
      else
        let d := s.readLoc ⟨none, pa⟩ 8
        if d.testBit 1 then State.badTableFrom s k va fuel (lvl + 1) (fld d 47 8 * 256) else none
/-- The same from the context's root. -/
def State.badTable (s : State) (k va : Nat) : Option Nat := s.badTableFrom k va 4 0 (s.ctx k).root

/-- Both stages for one virtual byte: its physical address and its rights to read, write and be read by the fabric (R305). -/
def State.translate (s : State) (k va : Nat) : Except Nat (Nat × Bool × Bool × Bool) :=
  if va ≥ 2 ^ 48 then .error 1
  else
    match s.walk1 k va with
    | .error r => .error r
    | .ok l =>
      match s.walkStage2 k (l.ga + va % l.size) with
      | .error r => .error r
      | .ok (pa, e) => .ok (pa, l.rd, l.wr && e.w, l.fr && !e.plat)

/-- The leased page of a task that holds a virtual address with the right asked for (R306, R308). -/
def leasePage (lease : List LeasePage) (va : Nat) (wr : Bool) : Option LeasePage :=
  lease.find? fun p => p.va ≤ va && va < p.va + p.size && (if wr then p.wr else p.rd)
/-- The physical address of a leased byte. -/
def leaseAddr (lease : List LeasePage) (va : Nat) (wr : Bool) : Option Nat :=
  (leasePage lease va wr).map fun p => p.pa + (va - p.va)

/-- The pages that hold `ps` are marked dirty before the write performs (R305). -/
def State.markDirty (s : State) (k : Nat) (ps : List WPiece) : State :=
  s.updCtx k fun c =>
    { c with s2 := c.s2.map fun (g, e) =>
        if ps.any (fun p => p.1.core = none && p.1.off / Config.frameBytes == e.pfn) then (g, { e with d := true }) else (g, e) }

/-- The pieces of `n` virtual bytes of a context, one for each byte, where every page translates. -/
def State.virtBytes (s : State) (k va n : Nat) : Option (List Nat) :=
  (List.range n).mapM fun i =>
    match s.translate k (va + i) with
    | .error _ => none
    | .ok (pa, _) => some pa
/-- The `n` bytes at a virtual address of a context, read by the part itself. -/
def State.readVirt (s : State) (k va n : Nat) : Option (List Byte) :=
  (s.virtBytes k va n).map fun as => as.map fun a => Mem.get s.dram a
/-- A list of bytes as a number, lowest first (R5). -/
def leNat (bs : List Byte) : Nat := bs.foldr (fun b n => b.toNat + 256 * n) 0
/-- A number as `n` bytes, lowest first (R5). -/
def leBytes (v : Nat) : Nat → List Byte
  | 0 => []
  | n + 1 => BitVec.ofNat 8 v :: leBytes (v / 256) n
/-- A number of `n` bytes read at a virtual address of a context. -/
def State.readVirtNat (s : State) (k va n : Nat) : Option Nat := (s.readVirt k va n).map leNat
/-- Bytes written at a virtual address of a context by the part itself; nothing where a page does not translate. -/
def State.writeVirt (s : State) (k va : Nat) (bs : List Byte) : State :=
  match s.virtBytes k va bs.length with
  | none => s
  | some as =>
    let ps : List WPiece := (as.zip bs).map fun (a, b) => (⟨none, a⟩, 1, b.toNat)
    (s.markDirty k ps).writePieces ps

/-! ## Barrier words (R178) -/

/-- `PHASE` of a barrier word. -/
def State.barPhase (s : State) (l : Loc) : Nat := fld (s.readLoc l 16) 111 96
/-- The word is registered. -/
def State.barReg (s : State) (l : Loc) : Bool :=
  match l.core with
  | none => false
  | some c => (s.core c).bars.contains l.off
/-- A barrier word rewritten by its controller. -/
def State.barPut (s : State) (l : Loc) (v : Nat) : State := s.storeBytes (l, 16, v)
/-- A phase completes when every party has arrived and every byte is delivered (R180). -/
def barComplete (v : Nat) : Nat :=
  if fld v 95 88 = fld v 87 80 ∧ fld v 59 32 = 0 then
    setFld (setFld (setFld v 111 96 (fld v 111 96 + 1)) 95 88 0) 59 32 (fld v 27 0)
  else v
/-- The result of a barrier wait: `PHASE`, `ERR`, and bit 63 when it ended otherwise than by completion (R181). -/
def barResult (v : Nat) (ended : Bool) : Word :=
  BitVec.ofNat 64 (fld v 111 96 + 2 ^ 16 * fld v 119 112 + (if ended then 2 ^ 63 else 0))
/-- An arrival at a registered word performs (R181). -/
def State.barArrival (s : State) (l : Loc) : State :=
  let v := s.readLoc l 16
  s.barPut l (barComplete (if fld v 95 88 < fld v 87 80 then setFld v 95 88 (fld v 95 88 + 1) else v))
/-- An arrival can perform now: a full phase holds it, and a word without parties never does (R181). -/
def State.barOpen (s : State) (l : Loc) : Bool :=
  let v := s.readLoc l 16
  !s.barReg l || fld v 95 88 < fld v 87 80 || fld v 87 80 == 0
/-- `n` bytes that an engine delivered toward a registered word (R180). -/
def State.barCredit (s : State) (l : Loc) (n : Nat) : State :=
  if s.barReg l then
    let v := s.readLoc l 16
    let v := if n ≤ fld v 59 32 then setFld v 59 32 (fld v 59 32 - n)
      else setFld (setFld v 59 32 0) 112 112 1
    s.barPut l (barComplete v)
  else s

end Sys2Proof.Machine
end

