-- ==== Sys2Proof/WellFormed.lean ====
section
/-!
DEFINITION. Which instruction words are encodings of the part: the checks of R59 with the reserved codes that the
instruction entries name. All of them depend on the word alone, since the strand that executes a word is in it. The first
check that fails gives the reason; a word that fails any raises the precise Illegal Instruction trap.
-/
namespace Sys2Proof

/-- Why a word is no valid encoding (R59). -/
inductive DecodeErr where
  /-- fewer than ten bytes were given -/
  | truncated
  /-- a major group that R61 reserves -/
  | reservedGroup
  /-- a minor code that R61 reserves -/
  | reservedMinor
  /-- the opcode is not permitted in the strand named by `STR` (R14) -/
  | strandNotPermitted
  /-- a `C` word with a `TOK` bit set (R24) -/
  | tokenOnC
  /-- a register specifier reserved or in a position that R17 does not allow -/
  | badSpecifier
  /-- a nonzero reserved field -/
  | reservedField
  /-- a reserved scope code, or `SZ` not allowed for the form -/
  | badScopeOrSize
  /-- a reserved code in a field: format select, condition, shape, length, class mask or control-register number -/
  | reservedCode
deriving DecidableEq, Repr

namespace Enc

/-- R48: `v0`-`v63`. -/
def isV (n : BitVec 7) : Bool := n.toNat < 64
/-- R48: `o0`-`o7`. -/
def isO (n : BitVec 7) : Bool := 64 ≤ n.toNat && n.toNat < 72
/-- R48: `z0`-`z3`. -/
def isZ (n : BitVec 7) : Bool := 72 ≤ n.toNat && n.toNat < 76
/-- R48: `m0`-`m7`. -/
def isM (n : BitVec 7) : Bool := 76 ≤ n.toNat && n.toNat < 84
/-- R16, R48: an `a` register of the bank of strand `t`. -/
def isA (t : Strand) (n : BitVec 7) : Bool := 84 ≤ n.toNat && (if t = .C then n.toNat < 116 else n.toNat < 100)
/-- R48: `qi`. -/
def isQi (n : BitVec 7) : Bool := n.toNat == 116
/-- R89: a scalar source. -/
def isSrc (t : Strand) (n : BitVec 7) : Bool := isA t n || isQi n
/-- R89, R17: a scalar destination or a push. -/
def isDst (t : Strand) (n : BitVec 7) : Bool :=
  isA t n || (t = .C && 118 ≤ n.toNat && n.toNat ≤ 120) || (t = .X && n.toNat == 117)
/-- R114: a vector source of the `X` strand. -/
def isVSrc (n : BitVec 7) : Bool := isV n || isO n || isZ n || isA .X n || isQi n
/-- R114: a vector destination. -/
def isVDst (n : BitVec 7) : Bool := isV n || isO n

/-- The named field of the vector `MOD` layout (R44). -/
def ME (o : RRR) : Bool := o.md.getLsbD 17
/-- R44. -/
def MK (o : RRR) : Nat := fld o.md.toNat 16 14
/-- R44. -/
def FX (o : RRR) : Nat := fld o.md.toNat 13 10
/-- R44. -/
def IX (o : RRR) : Nat := fld o.md.toNat 9 0
/-- `PD`, `PA`, `PB` of the scalar `MOD` layout (R44). -/
def PD (o : RRR) : Nat := fld o.md.toNat 17 15
/-- R44. -/
def PA (o : RRR) : Nat := fld o.md.toNat 14 12
/-- R44. -/
def PB (o : RRR) : Nat := fld o.md.toNat 11 9
/-- The position and length of `extr`, `extru` and `ins` (R92). -/
def pos (o : RRI) : Nat := fld o.imm.toNat 5 0
/-- R92. -/
def len (o : RRI) : Nat := fld o.imm.toNat 14 8
/-- `LCS` of `loop` and `brloop` (R46). -/
def LCS (o : BRA) : Nat := fld o.l.toNat 6 5
/-- `DRN` of `loop` (R46). -/
def DRN (o : BRA) : Nat := fld o.l.toNat 4 1

/-- One check: when it fails, the word is refused for the reason given. -/
abbrev Chk := Bool × DecodeErr

/-- The strands that may carry a word (R14, R61). -/
def only (ts : List Strand) (h : Hdr) : Chk := (ts.contains h.str, .strandNotPermitted)
/-- A specifier position. -/
def spec (b : Bool) : Chk := (b, .badSpecifier)
/-- A reserved field that is zero. -/
def zero (n : Nat) : Chk := (n == 0, .reservedField)
/-- A code that is not reserved. -/
def code (b : Bool) : Chk := (b, .reservedCode)
/-- A scope or size that is allowed. -/
def size (b : Bool) : Chk := (b, .badScopeOrSize)
/-- Every strand may carry the word. -/
def anyStrand : List Strand := [.C, .L, .X, .S]

/-- R90: `op D, A, B`. -/
def scalar3 (h : Hdr) (o : RRR) : List Chk :=
  [spec (isDst h.str o.d), spec (isSrc h.str o.a), spec (isSrc h.str o.b), zero o.c.toNat, zero o.md.toNat]
/-- R91: `op D, A, imm`. -/
def scalarImm (h : Hdr) (o : RRI) : List Chk := [spec (isDst h.str o.d), spec (isSrc h.str o.a)]
/-- R91: the shift forms. -/
def scalarShift (h : Hdr) (o : RRI) : List Chk := scalarImm h o ++ [zero (fld o.imm.toNat 31 6)]
/-- R92: `extr`, `extru`, `ins`. -/
def bitField (h : Hdr) (o : RRI) (dst : Bool) : List Chk :=
  [spec dst, spec (isSrc h.str o.a), zero (fld o.imm.toNat 31 15), zero (fld o.imm.toNat 7 6),
   code (1 ≤ len o && pos o + len o ≤ 64)]
/-- R92: `clz`, `ctz`, `popc`, `brev`. -/
def bitCount (h : Hdr) (o : RRI) : List Chk := scalarImm h o ++ [zero o.imm.toNat]
/-- R93: `cmp`. -/
def compare (h : Hdr) (o : RRR) : List Chk :=
  [spec (isSrc h.str o.a), spec (isSrc h.str o.b), zero o.d.toNat, zero o.c.toNat, zero (fld o.md.toNat 14 0)]
/-- R93: `cmpi`. -/
def compareImm (h : Hdr) (o : RRI) : List Chk := [spec (isSrc h.str o.a), zero (fld o.d.toNat 3 0)]
/-- R94; `two` when `PB` is used. -/
def predLogic (o : RRR) (two : Bool) : List Chk :=
  [zero o.d.toNat, zero o.a.toNat, zero o.b.toNat, zero o.c.toNat, zero (fld o.md.toNat 8 0), zero (if two then 0 else PB o)]
/-- R29: the control registers that exist. -/
def cregExists (n : Nat) : Bool := n ≤ 0x13 || (0x18 ≤ n && n ≤ 0x1F)
/-- R29: the registers that strand `t` may read. -/
def cregReads (t : Strand) (n : Nat) : Bool :=
  cregExists n &&
    (t = .C || n == 0 || n == 1 || (4 ≤ n && n ≤ 7) || n == 0x0D || 0x18 ≤ n
      || ((n == 8 || n == 9) && t = .X) || (n == 0x13 && t = .L))
/-- R29: the registers that `C` may write. -/
def cregWritable (n : Nat) : Bool := n == 2 || n == 8 || n == 9 || n == 0x0A || n == 0x0B || n == 0x12
/-- R29: a write that raises Illegal Instruction: no such register, or one that only another strand may write. -/
def cregWriteLegal (t : Strand) (n : Nat) : Bool := cregExists n && (t = .C || !cregWritable n)
/-- A word of the `SYS` format whose fields are all reserved but those given. -/
def sys (o : SYS) (useA useB : Bool) (immRsv : Nat) : List Chk :=
  [zero (if useA then 0 else o.a.toNat), zero (if useB then 0 else o.b.toNat), zero o.sub.toNat, zero immRsv]
/-- R114, R115: a vector form with `n` vector sources; `fx`, `ix` are the reserved parts of `FX` and `IX`. -/
def vec (h : Hdr) (o : RRR) (n : Nat) (dst : Bool) (fx ix : Nat) : List Chk :=
  [only [.X] h, spec dst, spec (isVSrc o.a), (if n ≥ 2 then spec (isVSrc o.b) else zero o.b.toNat),
   (if n ≥ 3 then spec (isVSrc o.c) else zero o.c.toNat), zero fx, zero ix, zero (if ME o then 0 else MK o)]
/-- R126: the mask forms: no `ME`, `MK`, `FX` or `IX`. -/
def mask (h : Hdr) (o : RRR) (dst a b : Bool) : List Chk :=
  [only [.X] h, spec dst, spec a, spec b, zero o.c.toNat, zero o.md.toNat]
/-- R127: `vcvt.nf`, `vcvt.fn`. -/
def cvt (h : Hdr) (o : RRR) : List Chk :=
  vec h o 1 (isVDst o.d) 0 (fld o.md.toNat 9 3) ++ [zero (fld o.md.toNat 17 14)]
/-- R131: a load or store of vector or mask registers. -/
def vmem (h : Hdr) (t : Strand) (data : Bool) (br : BitVec 7) (scp sz : Nat) (xr : Bool) : List Chk :=
  [only [t] h, spec data, spec (isA t br), spec xr, zero scp, size (sz == 0)]
/-- R141, R142: a matrix word; which of `ACC AA BA SR SHP FSL/FSI MR` it uses, and its shape rule. -/
def mx (h : Hdr) (o : MXC) (acc aa ba sr : Bool) (shp : Bool) (fs mr : Bool) : List Chk :=
  let r (use : Bool) (n : BitVec 7) : Chk := if use then spec (84 ≤ n.toNat && n.toNat < 100) else zero n.toNat
  [only [.X] h, zero (if acc then 0 else o.acc.toNat), r aa o.aa, r ba o.ba, r sr o.sr, code shp,
   (if fs then zero (if o.fsl.toNat = 1 then o.fsi.toNat else 0) else zero (o.fsl.toNat + o.fsi.toNat)), r mr o.mr,
   zero o.rsv.toNat]
/-- R142: `M` code not reserved. -/
def shpM (o : MXC) : Bool := fld o.shp.toNat 3 2 != 3
/-- R142: `M` code not reserved and `K` code 0. -/
def shpM0 (o : MXC) : Bool := shpM o && fld o.shp.toNat 1 0 == 0
/-- R170: a scalar load. -/
def sload (h : Hdr) (o : MEM) (acq sgn : Bool) : List Chk :=
  [only [.C, .L, .S] h, spec (isDst h.str o.dr), spec (isA h.str o.br),
   (if acq then size (o.scp.toNat ≤ 4) else zero o.scp.toNat), size (!(sgn && o.sz.toNat == 3))]
/-- R170: a scalar store. -/
def sstore (h : Hdr) (o : MEM) (rel : Bool) : List Chk :=
  [only [.C, .L, .S] h, spec (isSrc h.str o.dr), spec (isA h.str o.br),
   (if rel then size (o.scp.toNat ≤ 4) else zero o.scp.toNat)]
/-- R172: an atomic. -/
def atomic (h : Hdr) (o : MEMX) (fp : Bool) : List Chk :=
  [only [.C] h, spec (isA .C o.dr), spec (isA .C o.br), spec (isSrc .C o.xr), size (o.scp.toNat ≤ 4),
   size (o.sz.toNat == 2 || (o.sz.toNat == 3 && !fp))]
/-- R174: `fence`, `fence.ack`. -/
def fenceW (h : Hdr) (o : SYS) (a : Bool) : List Chk :=
  [only [.C] h, spec a, zero o.b.toNat, zero o.sub.toNat, zero (fld o.imm.toNat 23 19),
   size (fld o.imm.toNat 18 16 ≤ 4), code (fld o.imm.toNat 15 0 != 0)]
/-- R192: a remote store. -/
def rstore (h : Hdr) (o : MEMX) : List Chk :=
  [only [.S] h, spec (isV o.dr || isA .S o.dr), spec (isA .S o.br), spec (isA .S o.xr), zero o.scp.toNat,
   size (!(isV o.dr && o.sz.toNat != 0))]
/-- A `C` word of format `SYS` with `A` an `a` register and `B` an `a` register. -/
def sysAB (h : Hdr) (o : SYS) (immRsv : Nat) : List Chk :=
  [only [.C] h, spec (isA .C o.a), spec (isA .C o.b), zero o.sub.toNat, zero immRsv]
/-- R204: the forms of groups `0x28` and `0x29`. -/
def eng (h : Hdr) (o : SYS) (useA : Bool) (immRsv : Nat) : List Chk :=
  [only [.C] h, (if useA then spec (isSrc .C o.a) else zero o.a.toNat), spec (isA .C o.b), zero o.sub.toNat, zero immRsv]

/-- The checks of every instruction word, in the order of the fields; the other operations have no word. -/
def checks : Instr → List Chk
  | .add h o | .sub h o | .and h o | .or h o | .xor h o | .shl h o | .shr h o | .sra h o | .mul h o | .mulh h o
  | .mulhu h o | .min h o | .max h o | .minu h o | .maxu h o => scalar3 h o
  | .addi h o | .andi h o | .ori h o | .xori h o | .muli h o | .lih h o => scalarImm h o
  | .shli h o | .shri h o | .srai h o => scalarShift h o
  | .extr h o | .extru h o => bitField h o (isDst h.str o.d)
  | .ins h o => bitField h o (isA h.str o.d)
  | .clz h o | .ctz h o | .popc h o | .brev h o => bitCount h o
  | .cmpEq h o | .cmpNe h o | .cmpLt h o | .cmpLtu h o | .cmpGe h o | .cmpGeu h o => compare h o
  | .cmpiEq h o | .cmpiNe h o | .cmpiLt h o | .cmpiLtu h o | .cmpiGe h o | .cmpiGeu h o => compareImm h o
  | .pand _ o | .por _ o | .pxor _ o | .pandn _ o => predLogic o true
  | .pnot _ o | .pmov _ o => predLogic o false
  | .br _ o => [zero o.a.toNat, zero o.l.toNat]
  | .brz h o | .brnz h o => [spec (isSrc h.str o.a), zero o.l.toNat]
  | .call h o => [zero o.a.toNat, spec (isA h.str o.l)]
  | .jmpi h o => [spec (isSrc h.str o.a), zero o.l.toNat, zero o.off.toNat]
  | .calli h o => [spec (isSrc h.str o.a), spec (isA h.str o.l), zero o.off.toNat]
  | .loop h o => [spec (isSrc h.str o.a), zero (fld o.l.toNat 0 0), zero o.off.toNat]
  | .brloop _ o => [zero o.a.toNat, zero (fld o.l.toNat 4 0)]
  | .spl h o => [zero o.d.toNat, spec (isSrc h.str o.a), zero (fld o.imm.toNat 31 12)]
  | .fil h o => [spec (isDst h.str o.d), zero o.a.toNat, zero (fld o.imm.toNat 31 12)]
  | .crr h o => [spec (isDst h.str o.d), zero o.a.toNat, zero (fld o.imm.toNat 31 8), code (cregReads h.str (fld o.imm.toNat 7 0))]
  | .crw h o => [zero o.d.toNat, spec (isSrc h.str o.a), zero (fld o.imm.toNat 31 8), code (cregWriteLegal h.str (fld o.imm.toNat 7 0))]
  | .nop _ o | .yield _ o | .exit _ o => sys o false false o.imm.toNat
  | .ifence h o => only [.C] h :: sys o false false o.imm.toNat
  | .mode h o => only [.C] h :: sys o false false (fld o.imm.toNat 23 1)
  | .trap h o => only [.C] h :: code (o.imm.toNat != 0) :: sys o false false (fld o.imm.toNat 23 16)
  | .tret h o => only [.C] h :: code (o.imm.toNat == 0) :: sys o false false 0
  | .brk _ o => sys o false false (fld o.imm.toNat 23 16)
  | .vaddF32 h o | .vsubF32 h o | .vmulF32 h o | .vminF32 h o | .vmaxF32 h o => vec h o 2 (isVDst o.d) (FX o) (IX o)
  | .vfmaF32 h o | .vfmsF32 h o | .vfnmaF32 h o => vec h o 3 (isVDst o.d) (FX o) (IX o)
  | .vabsF32 h o | .vnegF32 h o | .vrcpF32 h o | .vrsqF32 h o | .vexp2F32 h o | .vlog2F32 h o => vec h o 1 (isVDst o.d) (FX o) (IX o)
  | .vaddH h o | .vsubH h o | .vmulH h o | .vminH h o | .vmaxH h o => vec h o 2 (isVDst o.d) 0 (IX o) ++ [code (FX o ≤ 1)]
  | .vfmaH h o => vec h o 3 (isVDst o.d) 0 (IX o) ++ [code (FX o ≤ 1)]
  | .vaddI32 h o | .vsubI32 h o | .vmulI32 h o | .vand h o | .vor h o | .vxor h o | .vshl h o | .vshr h o | .vsra h o
  | .vaddss h o | .vsubss h o | .vaddus h o | .vsubus h o | .vminI32 h o | .vmaxI32 h o => vec h o 2 (isVDst o.d) (FX o) (IX o)
  | .vcmpF32 h o => vec h o 2 (isM o.d) 0 (IX o) ++ [code (FX o ≤ 7)]
  | .vcmpI32 h o | .vcmpuI32 h o => vec h o 2 (isM o.d) 0 (IX o) ++ [code (FX o ≤ 5)]
  | .mand h o | .mor h o | .mxor h o | .mandn h o => mask h o (isM o.d) (isM o.a) (isM o.b)
  | .mnot h o => mask h o (isM o.d) (isM o.a) (o.b.toNat == 0)
  | .mpop h o => mask h o (isDst .X o.d) (isM o.a) (o.b.toNat == 0)
  | .mmov h o => mask h o (isM o.d || isDst .X o.d) (isM o.a || isSrc .X o.a) (o.b.toNat == 0)
  | .vcvtNf h o | .vcvtFn h o => cvt h o
  | .vcvtF32I32 h o | .vcvtI32F32 h o => vec h o 1 (isVDst o.d) (FX o) (IX o)
  | .vcvtHF32 h o => vec h o 2 (isVDst o.d) 0 (IX o) ++ [code (FX o ≤ 1)]
  | .vcvtF32H h o => vec h o 1 (isVDst o.d) 0 (fld o.md.toNat 9 1) ++ [code (FX o ≤ 1)]
  | .vperm h o => vec h o 2 (isVDst o.d) (FX o) (IX o)
  | .vpermRot h o => vec h o 1 (isVDst o.d) (FX o) (fld o.md.toNat 8 6) ++ [code (o.md.getLsbD 9)]
  | .vbcast h o => vec h o 1 (isVDst o.d) (FX o) (if isSrc .X o.a then IX o else fld o.md.toNat 9 6)
  | .vsel h o => vec h o 2 (isVDst o.d) (FX o) (IX o) ++ [code (ME o)]
  | .vext h o => vec h o 1 (isDst .X o.d) (FX o) (fld o.md.toNat 9 6) ++ [zero (fld o.md.toNat 17 14)]
  | .vins h o => vec h o 1 (isVDst o.d) (FX o) (fld o.md.toNat 9 6) ++ [zero (fld o.md.toNat 17 14), spec (isSrc .X o.a)]
  | .vredAdd h o | .vredMin h o | .vredMax h o => vec h o 1 (isVDst o.d || isDst .X o.d) 0 (IX o) ++ [code (FX o ≤ 1)]
  | .vld h o | .vldb h o | .vgld h o => vmem h .L (isVDst o.dr) o.br o.scp.toNat o.sz.toNat true
  | .mld h o => vmem h .L (isM o.dr) o.br o.scp.toNat o.sz.toNat true
  | .vlds h o | .vldg h o | .vglds h o | .vgldg h o => vmem h .L (isVDst o.dr) o.br o.scp.toNat o.sz.toNat (isA .L o.xr)
  | .vst h o | .vstCnt h o | .vgst h o => vmem h .S (isV o.dr) o.br o.scp.toNat o.sz.toNat true
  | .mst h o => vmem h .S (isM o.dr) o.br o.scp.toNat o.sz.toNat true
  | .vsts h o | .vgsts h o => vmem h .S (isV o.dr) o.br o.scp.toNat o.sz.toNat (isA .S o.xr)
  | .vsct h o | .vgsct h o => vmem h .S (isV o.dr) o.br o.scp.toNat o.sz.toNat (isV o.xr)
  | .vstm h o => vmem h .S (isV o.dr) o.br o.scp.toNat o.sz.toNat (isM o.xr)
  | .mma h o => mx h o true true true true (shpM o) true false
  | .mmas h o => mx h o true true true true (shpM o) true true
  | .mzero h o => mx h o true false false true (o.shp.toNat == 0) false false
  | .mdrn h o => mx h o true true false true (shpM0 o) true false
  | .mldacc h o => mx h o true true false true (shpM0 o) false false
  | .mscale h o => mx h o false true false true (o.shp.toNat ≤ 3) false false
  | .mxpose h o => mx h o false true true true (shpM0 o) true false
  | .mfmt h o => mx h o false true false false (o.shp.toNat == 0) true false
  | .mwait h o => mx h o false false false false true false false
  | .ld h o => sload h o false false
  | .lds h o => sload h o false true
  | .ldAcq h o => sload h o true false
  | .ldsAcq h o => sload h o true true
  | .st h o => sstore h o false
  | .stRel h o => sstore h o true
  | .aadd h o | .aand h o | .aor h o | .axor h o | .amin h o | .amax h o | .aminu h o | .amaxu h o | .aswp h o
  | .acas h o => atomic h o false
  | .aaddF32 h o => atomic h o true
  | .fence h o => fenceW h o (o.a.toNat == 0)
  | .fenceAck h o => fenceW h o (isA .C o.a)
  | .barinit h o | .barfree h o => sysAB h o o.imm.toNat
  | .barwait h o => sysAB h o o.imm.toNat
  | .barwaitNw h o => sysAB h o (fld o.imm.toNat 23 2) ++ [code (fld o.imm.toNat 1 0 == 1)]
  | .barwaitNa h o => sysAB h o (fld o.imm.toNat 23 2) ++ [code (fld o.imm.toNat 1 0 == 2)]
  | .lwin h o => [only [.C] h, spec (isA .C o.a), zero o.b.toNat, zero o.sub.toNat, zero (fld o.imm.toNat 23 6)]
  | .lwclose h o => only [.C] h :: sys o false false (fld o.imm.toNat 23 6)
  | .lwwait h o => [only [.C] h, spec (isA .C o.b), zero o.a.toNat, zero o.sub.toNat, zero (fld o.imm.toNat 7 6)]
  | .lwpoll h o => [only [.C] h, spec (isA .C o.b), zero o.a.toNat, zero o.sub.toNat, zero (fld o.imm.toNat 23 6)]
  | .fld h o => [only [.L] h, spec (isA .L o.dr), spec (isA .L o.br), zero o.scp.toNat, zero o.xr.toNat]
  | .fst h o | .fstOrd h o => rstore h o
  | .fatom h o => [only [.C] h, spec (isA .C o.dr), spec (isA .C o.br), spec (isSrc .C o.xr), zero o.scp.toNat, size (o.sz.toNat ≥ 2), code (fld o.off.toNat 15 12 < 10 || (fld o.off.toNat 15 12 == 10 && o.sz.toNat == 2))]
  | .fldx h o | .fldxT h o => [only [.C] h, spec (isA .C o.a), zero o.b.toNat, zero o.sub.toNat, zero o.imm.toNat]
  | .gsig h o | .gwait h o | .gpoll h o => sysAB h o o.imm.toNat
  | .book h o | .bkcan h o | .cpost h o | .coll h o | .topb h o | .dqpush h o | .dqpop h o | .qmap h o | .qunmap h o => eng h o true o.imm.toNat
  | .bkqry h o | .bkrel h o => eng h o true (fld o.imm.toNat 23 3)
  | .dqsteal h o => eng h o false (fld o.imm.toNat 23 10)
  | .htsset h o => eng h o true (fld o.imm.toNat 23 12)
  | .htsdec h o => eng h o false 0
  | .matrixCommandStart _ | .matrixCommandComplete _ _ | .sdreq _ | .root _ | .shootdownComplete _ _
  | .fenceAckTimeout _ | .lwwaitTimeout _ _ | .countedWriteArrival _ | .fldTimeout _ | .fatomTimeout _
  | .fldxTimeout _ | .gateRefill _ | .heldDequePush _ | .queueNotify _ _ _ | .resultLanding _ | .storePerform _
  | .trapEntry _ | .taskEndByFault _ _ | .bookingDue _ _ | .sliceEnd _ _ _ | .forcedSave _ | .contextSave _ _
  | .contextRestore _ _ | .prefetchStart _ | .prefetchComplete _ | .leasePendingTimeout _ | .taskActivate _
  | .taskWake _ _ | .priorityAging _ _ | .autoSteal _ | .bookingDecide | .bookingRequestAging _ | .slotBoundary
  | .bookHold _ | .bookHoldReply _ | .bookReplyTimeout _ | .bookCommit _ | .bookRelease _ | .bookHoldLeaseExpiry _ _ _
  | .bookEndReport _ | .copyPacketStart _ | .copyPacketComplete _ | .collectiveStepStart _ _ | .collectiveComplete _
  | .collectiveTimeout _ | .collectiveFailureDetect _ _ | .read _ | .rdata _ | .write _ | .wrord _
  | .orderedStoreRelease _ | .orderedStoreTimeout _ | .atom _ | .arply _ | .ack _ | .nack _ | .xreq _ | .xdata _
  | .xack _ | .xflt _ | .xabt _ | .beacon _ | .beaconSend | .beaconLoss | .ldown _ | .packetForward _ | .cdata _
  | .cack _ | .cctlHeld _ | .cctlWithdraw _ | .cctlFlush _ | .cctlLate _ | .cctlNofit _ | .cctlDigestMismatch _
  | .cctlRedo _ | .cdig _ | .scrub _ | .frameRetire _ | .energyReconcile _ _ | .powerCapLimit _ | .powerCapLift
  | .thermalWarning _ | .thermalTrip _ | .coolantAlarm | .machineCheck _ | .powerOn | .d3hotEntry _
  | .functionLevelReset _ | .hostBar2Read _ _ _ | .hostBar2Write _ _ _ | .hostAtomicOp _ _ _ | .cqtail _ _ _
  | .evhead _ _ | .partCreate _ | .partDestroy _ | .granMove _ | .arbWeight _ | .imageLoad _ | .ctxStart _
  | .ctxStop _ | .ctxResume _ | .vfReset _ | .gateReq _ | .gateClose _ | .routeLoad _ | .groupLoad _ | .jobBind _
  | .migStart _ | .migStop _ | .migCommit _ | .cntRead _ | .attest _ | .dbgAttach _ | .dbgMem _ | .dbgDetach _
  | .patchLoad _ | .fjarlosSensorRead | .fjarlosPowerCapSet _ | .fjarlosFirmwareUpdate _ | .fjarlosCounterRead _ _
  | .linkFailure _ | .linkTraining _ _ | .powerLoss | .packageReset => []

/-- The header of an instruction word; `none` for an operation without a word. -/
def header : Instr → Option Hdr
  | .add h _ | .sub h _ | .and h _ | .or h _ | .xor h _ | .shl h _ | .shr h _ | .sra h _ | .mul h _ | .mulh h _
  | .mulhu h _ | .min h _ | .max h _ | .minu h _ | .maxu h _ | .addi h _ | .andi h _ | .ori h _ | .xori h _
  | .shli h _ | .shri h _ | .srai h _ | .muli h _ | .lih h _ | .extr h _ | .extru h _ | .ins h _ | .clz h _ | .ctz h _
  | .popc h _ | .brev h _ | .cmpEq h _ | .cmpNe h _ | .cmpLt h _ | .cmpLtu h _ | .cmpGe h _ | .cmpGeu h _
  | .cmpiEq h _ | .cmpiNe h _ | .cmpiLt h _ | .cmpiLtu h _ | .cmpiGe h _ | .cmpiGeu h _ | .pand h _ | .por h _
  | .pxor h _ | .pandn h _ | .pnot h _ | .pmov h _ | .br h _ | .brz h _ | .brnz h _ | .call h _ | .jmpi h _
  | .calli h _ | .loop h _ | .brloop h _ | .spl h _ | .fil h _ | .crr h _ | .crw h _ | .nop h _ | .mode h _
  | .ifence h _ | .yield h _ | .exit h _ | .trap h _ | .tret h _ | .brk h _ | .vaddF32 h _ | .vsubF32 h _
  | .vmulF32 h _ | .vfmaF32 h _ | .vfmsF32 h _ | .vfnmaF32 h _ | .vminF32 h _ | .vmaxF32 h _ | .vabsF32 h _
  | .vnegF32 h _ | .vrcpF32 h _ | .vrsqF32 h _ | .vexp2F32 h _ | .vlog2F32 h _ | .vaddH h _ | .vsubH h _ | .vmulH h _
  | .vfmaH h _ | .vminH h _ | .vmaxH h _ | .vaddI32 h _ | .vsubI32 h _ | .vmulI32 h _ | .vand h _ | .vor h _
  | .vxor h _ | .vshl h _ | .vshr h _ | .vsra h _ | .vaddss h _ | .vsubss h _ | .vaddus h _ | .vsubus h _
  | .vminI32 h _ | .vmaxI32 h _ | .vcmpF32 h _ | .vcmpI32 h _ | .vcmpuI32 h _ | .mand h _ | .mor h _ | .mxor h _
  | .mnot h _ | .mandn h _ | .mpop h _ | .mmov h _ | .vcvtNf h _ | .vcvtFn h _ | .vcvtF32I32 h _ | .vcvtI32F32 h _
  | .vcvtHF32 h _ | .vcvtF32H h _ | .vperm h _ | .vpermRot h _ | .vbcast h _ | .vsel h _ | .vext h _ | .vins h _
  | .vredAdd h _ | .vredMin h _ | .vredMax h _ | .vld h _ | .vlds h _ | .vldg h _ | .vldb h _ | .vgld h _ | .vglds h _
  | .vgldg h _ | .mld h _ | .vst h _ | .vsts h _ | .vsct h _ | .vstCnt h _ | .vstm h _ | .vgst h _ | .vgsts h _
  | .vgsct h _ | .mst h _ | .mma h _ | .mmas h _ | .mzero h _ | .mdrn h _ | .mldacc h _ | .mscale h _ | .mxpose h _
  | .mfmt h _ | .mwait h _ | .ld h _ | .lds h _ | .st h _ | .ldAcq h _ | .ldsAcq h _ | .stRel h _ | .aadd h _
  | .aand h _ | .aor h _ | .axor h _ | .amin h _ | .amax h _ | .aminu h _ | .amaxu h _ | .aswp h _ | .acas h _
  | .aaddF32 h _ | .fence h _ | .fenceAck h _ | .barinit h _ | .barwait h _ | .barwaitNw h _ | .barwaitNa h _
  | .barfree h _ | .lwin h _ | .lwclose h _ | .lwwait h _ | .lwpoll h _ | .fld h _ | .fst h _ | .fstOrd h _
  | .fatom h _ | .fldx h _ | .fldxT h _ | .gsig h _ | .gwait h _ | .gpoll h _ | .book h _ | .bkqry h _ | .bkcan h _
  | .bkrel h _ | .cpost h _ | .coll h _ | .topb h _ | .dqpush h _ | .dqpop h _ | .dqsteal h _ | .htsset h _
  | .htsdec h _ | .qmap h _ | .qunmap h _ => some h
  | .matrixCommandStart _ | .matrixCommandComplete _ _ | .sdreq _ | .root _ | .shootdownComplete _ _
  | .fenceAckTimeout _ | .lwwaitTimeout _ _ | .countedWriteArrival _ | .fldTimeout _ | .fatomTimeout _
  | .fldxTimeout _ | .gateRefill _ | .heldDequePush _ | .queueNotify _ _ _ | .resultLanding _ | .storePerform _
  | .trapEntry _ | .taskEndByFault _ _ | .bookingDue _ _ | .sliceEnd _ _ _ | .forcedSave _ | .contextSave _ _
  | .contextRestore _ _ | .prefetchStart _ | .prefetchComplete _ | .leasePendingTimeout _ | .taskActivate _
  | .taskWake _ _ | .priorityAging _ _ | .autoSteal _ | .bookingDecide | .bookingRequestAging _ | .slotBoundary
  | .bookHold _ | .bookHoldReply _ | .bookReplyTimeout _ | .bookCommit _ | .bookRelease _ | .bookHoldLeaseExpiry _ _ _
  | .bookEndReport _ | .copyPacketStart _ | .copyPacketComplete _ | .collectiveStepStart _ _ | .collectiveComplete _
  | .collectiveTimeout _ | .collectiveFailureDetect _ _ | .read _ | .rdata _ | .write _ | .wrord _
  | .orderedStoreRelease _ | .orderedStoreTimeout _ | .atom _ | .arply _ | .ack _ | .nack _ | .xreq _ | .xdata _
  | .xack _ | .xflt _ | .xabt _ | .beacon _ | .beaconSend | .beaconLoss | .ldown _ | .packetForward _ | .cdata _
  | .cack _ | .cctlHeld _ | .cctlWithdraw _ | .cctlFlush _ | .cctlLate _ | .cctlNofit _ | .cctlDigestMismatch _
  | .cctlRedo _ | .cdig _ | .scrub _ | .frameRetire _ | .energyReconcile _ _ | .powerCapLimit _ | .powerCapLift
  | .thermalWarning _ | .thermalTrip _ | .coolantAlarm | .machineCheck _ | .powerOn | .d3hotEntry _
  | .functionLevelReset _ | .hostBar2Read _ _ _ | .hostBar2Write _ _ _ | .hostAtomicOp _ _ _ | .cqtail _ _ _
  | .evhead _ _ | .partCreate _ | .partDestroy _ | .granMove _ | .arbWeight _ | .imageLoad _ | .ctxStart _
  | .ctxStop _ | .ctxResume _ | .vfReset _ | .gateReq _ | .gateClose _ | .routeLoad _ | .groupLoad _ | .jobBind _
  | .migStart _ | .migStop _ | .migCommit _ | .cntRead _ | .attest _ | .dbgAttach _ | .dbgMem _ | .dbgDetach _
  | .patchLoad _ | .fjarlosSensorRead | .fjarlosPowerCapSet _ | .fjarlosFirmwareUpdate _ | .fjarlosCounterRead _ _
  | .linkFailure _ | .linkTraining _ _ | .powerLoss | .packageReset => none

/-- R24: a `C` word has no `TOK` bit. -/
def tokOk (h : Hdr) : Bool := h.str != .C || h.tok.toNat == 0

end Enc

/-- The first check of R59 that the word of `i` fails. -/
def illegal (i : Instr) : Option DecodeErr :=
  match Enc.header i with
  | none => none
  | some h =>
    if Enc.tokOk h then ((Enc.checks i).find? fun c => !c.1).map (·.2) else some .tokenOnC

/-- The word of `i` passes every encoding check of R59. -/
def WellFormed (i : Instr) : Bool := (illegal i).isNone

/-- `i` is an instruction word of R61 and not another operation of the part. -/
def Instr.isWord (i : Instr) : Bool := (Enc.header i).isSome

end Sys2Proof
end

