-- ==== Sys2Proof/Machine/Ops.lean ====
section
/-!
DEFINITION. The operations that every instruction word shares: the conditions of issue (R13, R20 to R27, R42, R51, R53), the
results in flight (R22, R49), the rendezvous (R103), taking a trap (R385 to R388) and returning from one (R390).
-/
namespace Sys2Proof.Machine

/-- The outcome of a step. -/
abbrev Out := Host.Outcome State Fault Refusal

/-! ## The executing strand -/

/-- The strand whose turn it is, with its task. -/
structure Env where
  core : Nat
  slot : Nat
  t : Strand
  task : Task
  st : StrandSt
  h : Hdr
  /-- the value that `qi` pops (R25) -/
  qi : Word := 0
deriving DecidableEq, Repr

/-- The register that a result in flight will write, by specifier; predicates count from 128 on. -/
def FOp.dest : FOp → Option Nat
  | .scalar n _ | .vector n _ _ | .mask n _ _ | .load n _ _ _ | .badLoad n _ _ | .ctlLoad n _ | .fil n _ | .atomic _ _ _ _ n
  | .sdreq _ n | .root _ n | .engine n | .fatom n _ _ | .gsig _ _ n | .barArrive _ _ n | .barWait _ _ _ n => some n
  | .pred n _ => some (128 + n)
  | _ => none
/-- A cycle that never comes: a result of `DST` 15 may not be read in timed mode before its completion has been observed (R52). -/
def never : Nat := 2 ^ 64
/-- A read of register `r` by strand `t` would come too early in timed mode: before `DST` cycles, or, for a result of `DST` 15, before
its completion has been observed (R52). `a0` and `p0` are constants (R15, R16). -/
def State.early (s : State) (t : Strand) (k : Task) (r : Nat) : Bool :=
  !k.tagd && r != 84 && r != 128 && decide (s.cyc < SMap.get (k.str t).haz 0 r)
/-- A result of `DST` 15 of strand `t` that goes to `r` has not landed. -/
def State.landing (s : State) (core sl : Nat) (t : Strand) (r : Nat) : Bool :=
  s.flights.any fun f => f.core == core && f.slot == sl && decide (f.strand = t) && f.dst == 15 && f.op.dest == some r
/-- The strand has learnt, by a token, a popped value or a word that waits, that what has landed is complete (R51, R52; assumption
log 15): only results still in flight (`busy`) stay unobserved. -/
def StrandSt.observe (x : StrandSt) (on : Bool) (busy : Nat → Bool) : StrandSt :=
  { x with haz := if on then x.haz.filter fun p => p.2 != never || busy p.1 else x.haz }
/-- The scalar registers and predicates of a strand as a word that issues now reads them (R52). -/
def State.readable (s : State) (core : Nat) (t : Strand) (k : Task) : StrandSt :=
  if k.tagd then k.str t
  else
    let x := (List.range 32).foldl (fun (x : StrandSt) n =>
      if s.early t k (84 + n) then x.setReg n (Config.earlyRead 64 s.cyc (4 * core + t.code) (84 + n)) else x) (k.str t)
    (List.range 8).foldl (fun (x : StrandSt) n =>
      if s.early t k (128 + n) then x.setPred n (Config.earlyRead 1 s.cyc (4 * core + t.code) (128 + n) == 1) else x) x

/-- The strand named by `turn` in the active task of its core. -/
def State.env? (s : State) (h : Hdr) : Option Env :=
  let core := s.turn / 4
  let t := Strand.ofCode (s.turn % 4)
  match (s.core core).active with
  | none => none
  | some sl =>
    match s.task? core sl with
    | none => none
    | some k => some { core := core, slot := sl, t := t, task := k, st := s.readable core t k, h := h }

/-- The next strand's turn. -/
def State.nextTurn (s : State) : State := { s with turn := s.turn + 1 }
/-- The next core's turn. -/
def State.nextCore (s : State) : State := { s with turn := 4 * (s.turn / 4 + 1) }

/-- A trap is being taken, the task is ending, or a restored task waits for its lease: no strand issues (R370, R388, R392). -/
def Task.stopped (k : Task) : Bool := k.trap.isSome || k.ending.isSome || k.leaseWait.isSome
/-- The smallest word count of the four strands (R13). -/
def Task.minCount (k : Task) : Nat := min (min k.sC.wc k.sL.wc) (min k.sX.wc k.sS.wc)
/-- The strand may pass its next word (R13). The counts are those of this moment of the cycle, so that an advance of a strand whose turn
came earlier in the cycle counts already; R13 does not say whether it does (DESIGN CHOICE, assumption log 3). -/
def Env.windowOpen (e : Env) : Bool := decide (e.st.wc - e.task.minCount < e.task.win.toNat)

/-! ## Tokens and tags -/

/-- The next strand on the ring L, X, S (R20); `C` has none. -/
def ringSucc (c : Nat) : Nat := if c = 1 then 2 else if c = 2 then 3 else 1
/-- The previous strand on the ring (R20). -/
def ringPred (c : Nat) : Nat := if c = 1 then 3 else if c = 2 then 1 else 2
/-- The key of the token queue from one strand to another. -/
def tokKey (a b : Nat) : Nat := 4 * a + b
/-- The token queue of a key. -/
def Task.tok (k : Task) (key : Nat) : TokQ := SMap.get k.toks ⟨0, 0, none⟩ key
/-- Entries taken: visible and reserved tokens, and the one consumed in this cycle (R21). -/
def TokQ.taken (q : TokQ) (cyc : Nat) : Nat := q.vis + q.rsv + (if q.usedAt = some cyc then 1 else 0)
/-- The word waits for a token (R20). -/
def Env.waits (e : Env) : Bool := e.h.tok.getLsbD 3 || e.h.tok.getLsbD 2
/-- The tokens a word waits for are visible, and the queues it signals have room (R21). -/
def Env.tokensReady (e : Env) (cyc : Nat) : Bool :=
  let c := e.t.code
  let k := e.task
  (!e.h.tok.getLsbD 3 || (k.tok (tokKey (ringPred c) c)).vis ≥ 1) &&
  (!e.h.tok.getLsbD 2 || (k.tok (tokKey (ringSucc c) c)).vis ≥ 1) &&
  (!e.h.tok.getLsbD 1 || (k.tok (tokKey c (ringPred c))).taken cyc < 8) &&
  (!e.h.tok.getLsbD 0 || (k.tok (tokKey c (ringSucc c))).taken cyc < 8)
/-- The tags a word names are free, in tagged mode (R53). -/
def Env.tagsReady (e : Env) : Bool :=
  let free (n : BitVec 3) : Bool := n.toNat == 0 || !e.st.tags.getLsbD n.toNat
  !e.task.tagd || (free e.h.tc1 && free e.h.tc2 && free e.h.tal)
/-- One token consumed from a queue (R21). -/
def Task.consume (k : Task) (on : Bool) (key cyc : Nat) : Task :=
  if on then { k with toks := SMap.upd k.toks ⟨0, 0, none⟩ key fun q => { q with vis := q.vis - 1, usedAt := some cyc } } else k
/-- One entry of a queue reserved (R20). -/
def Task.reserve (k : Task) (on : Bool) (key : Nat) : Task :=
  if on then { k with toks := SMap.upd k.toks ⟨0, 0, none⟩ key fun q => { q with rsv := q.rsv + 1 } } else k
/-- A reserved token becomes visible (R22). -/
def Task.signal (k : Task) (on : Bool) (key : Nat) : Task :=
  if on then { k with toks := SMap.upd k.toks ⟨0, 0, none⟩ key fun q => { q with vis := q.vis + 1, rsv := q.rsv - 1 } } else k
/-- The first word of a pre-emption handler issues: its budget counts from now (R364). -/
def Task.startBudget (k : Task) (cyc : Nat) : Task :=
  match k.budgetArm with
  | some b => if k.handler.isSome then { k with budgetEnd := some (cyc + b), budgetArm := none } else k
  | none => k
/-- What the `TOK` and `TAL` bits of a word do as it issues (R20, R53). -/
def Task.claim (k : Task) (h : Hdr) (cyc : Nat) : Task :=
  let c := h.str.code
  let k := k.startBudget cyc
  let k := k.consume (h.tok.getLsbD 3) (tokKey (ringPred c) c) cyc
  let k := k.consume (h.tok.getLsbD 2) (tokKey (ringSucc c) c) cyc
  let k := k.reserve (h.tok.getLsbD 1) (tokKey c (ringPred c))
  let k := k.reserve (h.tok.getLsbD 0) (tokKey c (ringSucc c))
  if k.tagd && h.tal.toNat != 0 then k.updStr h.str fun x => { x with tags := x.tags ||| (1#8 <<< h.tal.toNat) } else k
/-- What becomes of the tokens and tag of a word when its effect is visible (R22, R53). -/
def Task.release (k : Task) (t : Strand) (sig tal : Nat) (tagd : Bool) : Task :=
  let c := t.code
  let k := k.signal (sig.testBit 1) (tokKey c (ringPred c))
  let k := k.signal (sig.testBit 0) (tokKey c (ringSucc c))
  if tagd && tal != 0 then k.updStr t fun x => { x with tags := x.tags &&& ~~~(1#8 <<< tal) } else k

/-- A reserved token that will not come: its entry frees. -/
def Task.unreserve (k : Task) (on : Bool) (key : Nat) : Task :=
  if on then { k with toks := SMap.upd k.toks ⟨0, 0, none⟩ key fun q => { q with rsv := q.rsv - 1 } } else k
/-- `f` done on the queues that the flight's tokens belong to: those set aside, or the present ones (R388). -/
def Task.onQueuesOf (k : Task) (f : Flight) (g : Task → Task) : Task :=
  match k.handler with
  | some a =>
    if f.aside then { k with handler := some { a with toks := (g { k with toks := a.toks }).toks } } else g k
  | none => g k
/-- The tokens and tag of a flight whose effect is visible (R22, R53, R158). -/
def Task.land (k : Task) (f : Flight) : Task := k.onQueuesOf f fun k => k.release f.strand f.sig f.tal f.tagd
/-- The tokens and tag of a flight that is discarded (R163). -/
def Task.drop (k : Task) (f : Flight) : Task :=
  (k.onQueuesOf f fun k =>
    (k.unreserve (f.sig.testBit 1) (tokKey f.strand.code (ringPred f.strand.code))).unreserve (f.sig.testBit 0)
      (tokKey f.strand.code (ringSucc f.strand.code))).release f.strand 0 f.tal f.tagd

/-! ## Scalar queues -/

/-- The input queue of the strand with code `c` (R25). -/
def Task.queue (k : Task) (c : Nat) : List Word := SMap.get k.sq [] c
/-- The strand whose queue a push specifier names (R25, R48). -/
def pushTarget (n : Nat) : Option Nat :=
  if n = 117 then some 0 else if n = 118 then some 1 else if n = 119 then some 2 else if n = 120 then some 3 else none
/-- The push that a result in flight will make. -/
def FOp.pushes : FOp → Option Nat
  | .scalar n _ => pushTarget n
  | .load n _ _ _ | .badLoad n _ _ => pushTarget n
  | .ctlLoad n _ => pushTarget n
  | .fil n _ => pushTarget n
  | _ => none
/-- Pushes issued and not landed (R26). -/
def State.pushesInFlight (s : State) (core slot c : Nat) : Nat :=
  s.flights.countP fun f => f.core == core && f.slot == slot && f.op.pushes == some c
/-- A push into queue `c` has room (R26). An entry that a strand popped earlier in the cycle is free already for a strand whose turn comes
later; the rule gives the next cycle for tokens only (R21) (DESIGN CHOICE, assumption log 3). -/
def State.pushRoom (s : State) (e : Env) (c : Nat) : Bool :=
  decide ((e.task.queue c).length + s.pushesInFlight e.core e.slot c < 16)

/-! ## Results in flight -/

/-- What the body of a word adds to the results in flight. -/
structure Fly where
  lat : Nat
  op : FOp
  acc : Bool := false
  cls : Nat := 0
  acq : Bool := false
  rel : Bool := false
  /-- the access uses its strand's own scratch paths (R296) -/
  own : Bool := false
  stat : BitVec 3 := 0
deriving DecidableEq, Repr

/-- The cycle in which a result of latency `lat` lands (R49): exactly then below 15, in some later cycle at 15. -/
def State.dueOf (s : State) (lat : Nat) : Nat :=
  if lat < 15 then s.cyc + lat else s.cyc + 15 + Config.extraLatency s.fresh

/-- The cycle from which a destination may be read in timed mode: `DST` cycles after issue, and for `DST` 15 none that can be told
in advance (R52). -/
def Env.readFrom (e : Env) (cyc : Nat) : Nat := if e.h.dst.toNat = 15 then never else cyc + e.h.dst.toNat
/-- In timed mode a destination may be read only `DST` cycles after issue (R52). -/
def State.noteEarly (s : State) (e : Env) (y : Fly) : State :=
  match y.op.dest with
  | none => s
  | some r =>
    if e.task.tagd then s
    else s.updTask e.core e.slot fun k => k.updStr e.t fun x =>
      { x with haz := SMap.upd x.haz 0 r fun c => max c (e.readFrom s.cyc) }
/-- A flight added for the word at the strand of `e`. -/
def State.addFlight (s : State) (e : Env) (y : Fly) : State :=
  let s := s.noteEarly e y
  { s with
    flights := s.flights ++
      [{ id := s.nextId, core := e.core, slot := e.slot, strand := e.t, ip := e.st.ip, issued := s.cyc,
         due := s.dueOf y.lat, dst := e.h.dst.toNat, tagd := e.task.tagd, tal := e.h.tal.toNat,
         sig := e.h.tok.toNat % 4, acc := y.acc, cls := y.cls, acq := y.acq, rel := y.rel, own := y.own, stat := y.stat, op := y.op }]
    nextId := s.nextId + 1
    fresh := if y.lat < 15 then s.fresh else s.fresh + 1 }

/-- A word without a result has a flight only for its tokens and its tag, which act in the cycle after issue (R22). `call` and `calli`
are taken as words without a result here, although they write a link: R22 does not say in which of its two cases they fall
(DEDUCED, assumption log 15). -/
def State.addNop (s : State) (e : Env) : State :=
  if e.h.tok.toNat % 4 = 0 ∧ (e.h.tal.toNat = 0 ∨ !e.task.tagd) then s else s.addFlight e { lat := 1, op := .nop }

/-! ## Traps -/

/-- The cause codes of R385. -/
def cIllegal : Nat := 0x0001
/-- R385. -/
def cDistance : Nat := 0x0002
/-- R385. -/
def cAlignment : Nat := 0x0003
/-- R385. -/
def cPrivilege : Nat := 0x0004
/-- R385. -/
def cRange : Nat := 0x0005
/-- R385. -/
def cBankConflict : Nat := 0x0006
/-- R385. -/
def cBarrierWrite : Nat := 0x0007
/-- R385. -/
def cGate : Nat := 0x0008
/-- R385. -/
def cWindow : Nat := 0x0009
/-- R385. -/
def cFormat : Nat := 0x000A
/-- R385. -/
def cFarAccess : Nat := 0x000B
/-- R385. -/
def cPoison : Nat := 0x000C
/-- R385. -/
def cSoftware : Nat := 0x000D
/-- R385. -/
def cBreakpoint : Nat := 0x000E
/-- R385. -/
def cScheduleMiss : Nat := 0x0020
/-- R385. -/
def cMatrixPoison : Nat := 0x0021
/-- R385. -/
def cCopyEngine : Nat := 0x0022
/-- R385. -/
def cFarCompletion : Nat := 0x0023
/-- R385. -/
def cLease : Nat := 0x0030
/-- R385. -/
def cDoubleFault : Nat := 0x0031
/-- R385. -/
def cBookingDue : Nat := 0x0038
/-- R385. -/
def cSliceEnd : Nat := 0x0039
/-- R385. -/
def cFabricStatus : Nat := 0x0040
/-- R385. -/
def cQueueStarved : Nat := 0x0041
/-- R385. -/
def cMemoryError : Nat := 0x0042
/-- R385. -/
def cLeasePending : Nat := 0x0043
/-- R385. -/
def cContextLost : Nat := 0x0044
/-- R385. -/
def cResidentEnded : Nat := 0x0045

/-- A flight that trap entry waits for (R55, R137, R388): all results in flight but stores whose source has been read,
abandoned fences and barrier waits, and far atomics. -/
def FOp.drains : FOp → Bool
  | .store _ | .storeVal _ | .cntStore _ _ _ | .mxStore _ | .fence _ _ _ | .barWait _ _ _ _ | .barArrive _ _ _ | .fatom _ _ _
  | .matrix _ => false
  | _ => true
/-- A flight of the task in slot `sl` of core `n`. -/
def Flight.ofTask (f : Flight) (n sl : Nat) : Bool := f.core == n && f.slot == sl
/-- Nothing is in flight that trap entry waits for. -/
def State.drained (s : State) (n sl : Nat) : Bool := !(s.flights.any fun f => f.ofTask n sl && f.op.drains)

/-- The record of a trap as a number of 512 bits (R386). -/
def trapRecord (i : TrapInfo) (bhnd rc rl rx rs : Nat) : Nat :=
  i.cause % 2 ^ 16 + 2 ^ 26 * i.strand.code + 2 ^ 28 * i.prec + 2 ^ 31 * (if i.late ∧ i.cause = cPoison then 1 else 0)
  + 2 ^ 64 * (i.info % 2 ^ 32) + 2 ^ 112 * (i.eid % 2 ^ 16) + 2 ^ 128 * (i.estat % 2 ^ 32) + 2 ^ 160 * (i.ecmd % 2 ^ 32)
  + 2 ^ 192 * bhnd + 2 ^ 224 * (i.ip % 2 ^ 32) + 2 ^ 256 * (rs % 2 ^ 32) + 2 ^ 288 * (rx % 2 ^ 32)
  + 2 ^ 320 * (rl % 2 ^ 32) + 2 ^ 352 * (rc % 2 ^ 32) + 2 ^ 384 * (i.faddr % 2 ^ 64) + 2 ^ 448 * (i.cyc % 2 ^ 64)

/-- The resume word of strand `t` (R387): a fence that the trap abandons is issued again. -/
def State.resumeWord (s : State) (n sl : Nat) (k : Task) (i : TrapInfo) (t : Strand) : Nat :=
  let own := (k.str t).ip
  if t = i.strand ∧ i.prec = 0 ∧ i.resume ≠ .asIs then (if i.resume = .again then i.ip else i.ip + 1)
  else
    match (k.str t).wait with
    | .flight id =>
      match s.flights.find? (fun f => f.id == id && f.ofTask n sl) with
      | some f =>
        match f.op with
        | .fence _ _ _ => f.ip
        | _ => own
      | none => own
    | _ => own

/-- A strand at the handler's first word (R388). -/
def StrandSt.enter (x : StrandSt) (ip : Nat) : StrandSt := { x with ip := ip, wc := 0, tags := 0, wait := .none }

/-- A wait that a trap or pre-emption ends: at a barrier, the current `PHASE` with bit 63 set goes to the register (R182); a fence is
abandoned, to be issued again (R177). -/
def State.endWait (s : State) (k : Task) (f : Flight) : Task :=
  match f.op with
  | .barWait l _ _ d => (k.updStr .C fun x => x.setReg (d - 84) (barResult (s.readLoc l 16) true)).land f
  | .barArrive l false d => k.updStr .C fun x => x.setReg (d - 84) (barResult (s.readLoc l 16) true)
  | .fence _ _ _ => k.drop f
  | _ => k
/-- What becomes of a flight at trap entry: a fence or barrier wait is over; an arrival stands; the queues that the others
signal are set aside, and their tags are free (R177, R182, R388). -/
def Flight.atEntry (f : Flight) : Option Flight :=
  match f.op with
  | .fence _ _ _ | .barWait _ _ _ _ => none
  | .barArrive l false _ => some { f with op := .barArrive l true 84, aside := true, tal := 0 }
  | _ => some { f with aside := true, tal := 0 }
/-- What becomes of a flight of the handler at its return: its queues are discarded and its tags freed (R390). -/
def Flight.atReturn (f : Flight) : Flight :=
  if f.aside then { f with aside := false } else { f with sig := 0, tal := 0 }

/-- The commands in the queue: one that has completed leaves in the next cycle (R157, R158). -/
def Mxe.live (m : Mxe) (cyc : Nat) : List MxCmd := m.queue.filter fun c => !(c.done && c.running.getD 0 < cyc)

/-- The budget limit of a pre-emption handler (R364): `HCAP`, or 65,535 on a partition without slices. -/
def State.hcap (s : State) (part : Nat) : Nat :=
  match SMap.find? s.parts part with
  | some p => if p.split = 0 then 65535 else p.hcap
  | none => 65535
/-- Entry into the handler (R388 steps 3 and 4): the record, the queues set aside, and all strands at `TVEC`. -/
def State.enterTrap (s : State) (n sl : Nat) (i : TrapInfo) : State :=
  match s.task? n sl with
  | none => s
  | some k =>
    let r := trapRecord i k.bhnd.toNat (s.resumeWord n sl k i .C) (s.resumeWord n sl k i .L)
      (s.resumeWord n sl k i .X) (s.resumeWord n sl k i .S)
    let k := (s.flights.filter fun f => f.ofTask n sl).foldl s.endWait k
    let aside : SetAside := { toks := k.toks, sq := k.sq, bq := k.bq, wcs := [k.sC.wc, k.sL.wc, k.sX.wc, k.sS.wc] }
    let ent := k.tvec.toNat % 2 ^ 32 / 8 * 8
    let k := k.updAll fun x => x.enter ent
    let k := { k with
      sC := { k.sC with spill := Mem.write k.sC.spill 4032 64 r }
      toks := [], sq := [], bq := [], rdv := .gathering, trap := none, handler := some aside
      budgetEnd := if i.cause = cSliceEnd ∧ k.budgetEnd.isNone ∧ min k.pbudget.toNat (s.hcap k.part) = 0 then some s.cyc else k.budgetEnd
      budgetArm := if i.cause = cSliceEnd ∧ k.budgetEnd.isNone ∧ min k.pbudget.toNat (s.hcap k.part) ≠ 0 then
          some (min k.pbudget.toNat (s.hcap k.part))
        else none }
    { s.setTask n sl k with flights := s.flights.filterMap fun f => if f.ofTask n sl then f.atEntry else some f }

/-- A trap condition of the task in slot `sl` of core `n` (R388 to R391): taken, held, or a Double Fault in handler mode;
a precise condition met while another trap is being taken recurs later. A command-precise one waits for the next cycle, so that a
precise one of its own cycle comes first. A task that is not active holds it until it is. -/
def State.deliver (s : State) (n sl : Nat) (i : TrapInfo) : State :=
  match s.task? n sl with
  | none => s
  | some k =>
    if k.ending.isSome then s
    else if k.trap.isSome then
      (if i.prec = 0 ∧ !i.late then s else s.setTask n sl { k with held := k.held ++ [i] })
    else if k.handler.isSome then
      (if i.prec = 0 then
        s.setTask n sl { k with ending := some { cause := cDoubleFault, faddr := i.faddr, ip := i.ip, sub := i.cause } }
      else s.setTask n sl { k with held := k.held ++ [i] })
    else if (s.core n).active ≠ some sl ∨ (i.prec = 1 ∧ i.cyc = s.cyc) then s.setTask n sl { k with held := k.held ++ [i] }
    else if s.drained n sl then s.enterTrap n sl i
    else s.setTask n sl { k with trap := some i }
/-- A Memory Poison fault has found the poisoned unit that it names (R314). -/
def State.foundBy (s : State) (n sl : Nat) (i : TrapInfo) : State :=
  if i.cause ≠ cPoison then s
  else
    match s.task? n sl with
    | some k => s.find { key := k.key, core := n, name := some i.faddr }
    | none => s
/-- A trap condition detected in this cycle (R386). -/
def State.raise (s : State) (n sl : Nat) (i : TrapInfo) : State := (s.foundBy n sl i).deliver n sl { i with cyc := s.cyc }

/-- A Lease Violation at word `ip` (R210, R308): the task ends; in handler mode it is a Double Fault (R389). -/
def State.violate (s : State) (n sl faddr ip : Nat) : State :=
  s.updTask n sl fun k =>
    if k.ending.isSome then k
    else if k.handler.isSome then { k with ending := some { cause := cDoubleFault, faddr := faddr, ip := ip, sub := cLease } }
    else { k with ending := some { cause := cLease, faddr := faddr, ip := ip } }

/-- The order in which held traps are delivered (R391). -/
def heldRank (i : TrapInfo) : Nat :=
  if i.cause = cSliceEnd then 0 else if i.cause = cBookingDue then 2 ^ 40 else 1 + i.ecmd
/-- The held trap that is delivered first, and the others. -/
def firstHeld : List TrapInfo → Option (TrapInfo × List TrapInfo)
  | [] => none
  | i :: t =>
    match firstHeld t with
    | none => some (i, [])
    | some (j, r) => if heldRank i ≤ heldRank j then some (i, t) else some (j, i :: r)

/-- A 32-bit resume word in the trap record (R386). -/
def Task.rip (k : Task) (off : Nat) : Nat := Mem.read k.sC.spill off 4

/-- The return from a handler (R390). -/
def State.leaveTrap (s : State) (n sl : Nat) : State :=
  match s.task? n sl with
  | none => s
  | some k =>
    match k.handler with
    | none => s
    | some a =>
      let back (x : StrandSt) (ip wc : Nat) : StrandSt := { x with ip := ip, wc := wc, tags := 0, wait := .none }
      let k := { k with
        sC := back k.sC (k.rip 4076) (a.wcs.getD 0 0)
        sL := back k.sL (k.rip 4072) (a.wcs.getD 1 0)
        sX := back k.sX (k.rip 4068) (a.wcs.getD 2 0)
        sS := back k.sS (k.rip 4064) (a.wcs.getD 3 0)
        toks := a.toks, sq := a.sq, bq := a.bq, rdv := .gathering, handler := none }
      let s := { s with flights := s.flights.map fun (f : Flight) => if f.ofTask n sl then f.atReturn else f }
      match firstHeld k.held with
      | none => s.setTask n sl k
      | some (i, rest) => (s.setTask n sl { k with held := rest }).enterTrap n sl { i with resume := .asIs }

/-! ## Issue -/

/-- What the body of a word answers. -/
inductive Res where
  /-- it cannot issue in this cycle -/
  | stall
  /-- a precise trap with its address, code and engine status; the strand does not pass the word -/
  | trap (cause : Nat) (faddr : Nat) (info : Nat) (resume : Resume) (estat : Nat)
  /-- an access outside the lease, with its address -/
  | violation (va : Nat)
  /-- the effect, without a result in flight, and the next word if it is not the one that follows -/
  | done (s : State) (target : Option Nat)
  /-- the effect and the result in flight -/
  | fly (s : State) (y : Fly)
  /-- as `fly`, and the strand waits for the flight -/
  | block (s : State) (y : Fly)
  /-- the state given, in which nobody passes the word -/
  | halt (s : State)
deriving DecidableEq, Repr

/-- A precise fault of an instruction's entry. -/
def Res.fault (cause faddr : Nat) : Res := .trap cause faddr 0 .again 0

/-- The predicate of the word (R42). -/
def Env.predicate (e : Env) : Bool :=
  let n := e.h.psel.toNat
  (if n < 8 then e.st.pred n else e.st.q.getLsbD (n - 8)) != e.h.pn

/-- A strand past its word, at `target` or at the next word (R13). -/
def StrandSt.pass (x : StrandSt) (target : Option Nat) : StrandSt :=
  { x with ip := target.getD (x.ip + 1), wc := x.wc + 1 }

/-- The strand of `e` passes its word: tokens, tag, `qi` and the instruction pointer. -/
def State.passWord (s : State) (e : Env) (pop : Bool) (target : Option Nat) : State :=
  s.updTask e.core e.slot fun k =>
    let k := k.claim e.h s.cyc
    let k := if pop then { k with sq := SMap.upd k.sq [] e.t.code List.tail } else k
    k.updStr e.t fun x => (x.observe (pop || e.waits) (s.landing e.core e.slot e.t)).pass target

/-- The strand of `e` skips a word of another strand (R13). -/
def State.skipWord (s : State) (e : Env) (target : Option Nat) : State :=
  s.updTask e.core e.slot fun k => k.updStr e.t fun x => x.pass target

/-- The record of a precise trap at the strand of `e`. -/
def Env.info (e : Env) (cause faddr info : Nat) (resume : Resume) (estat : Nat) : TrapInfo :=
  { cause := cause, faddr := faddr, ip := e.st.ip, strand := e.t, estat := estat, info := info, resume := resume }

/-- What becomes of the answer of a body. -/
def State.settle (s : State) (e : Env) (pop : Bool) : Res → State
  | .stall => s.nextTurn
  | .trap c f i r es => (s.raise e.core e.slot (e.info c f i r es)).nextCore
  | .violation va => (s.violate e.core e.slot va e.st.ip).nextCore
  | .done s' target => ((s'.addNop e).passWord e pop target).nextTurn
  | .halt s' => s'.nextCore
  | .fly s' y => ((s'.addFlight e y).passWord e pop none).nextTurn
  | .block s' y =>
    (((s'.addFlight e y).passWord e pop none).updTask e.core e.slot fun k =>
      k.updStr e.t fun x => { x with wait := .flight s'.nextId }).nextTurn

/-- How a word takes part in the queues: whether it names `qi`, and where it pushes. -/
structure Ports where
  pop : Bool := false
  push : Option Nat := none
deriving DecidableEq, Repr

/-- The strand that executes may take a word up: its task runs and it does not wait (R103, R175, R388). -/
def Env.live (e : Env) : Bool := !e.task.stopped && decide (e.st.wait = .none)

/-- Issue of a word that is neither a control-flow nor a rendezvous word: stalls, the distance check of R51, the predicate of
R42, and its body. `lat` is the smallest latency of the word (R49). -/
def issue (h : Hdr) (lat : Nat) (p : Ports) (body : Env → State → Res) (s : State) : Out :=
  match s.env? h with
  | none => .fault .noSuchStep
  | some e =>
    .next <|
      if !e.live || !e.windowOpen then s.nextTurn
      else if e.t ≠ h.str then s.skipWord e none
      else if h.dst.toNat < lat then s.settle e false (.fault cDistance 0)
      else if !e.tagsReady || !e.tokensReady s.cyc then s.nextTurn
      else if !e.predicate then s.settle e false (.done s none)
      else if p.pop && (e.task.queue e.t.code).isEmpty then s.nextTurn
      else if (match p.push with | some c => !s.pushRoom e c | none => false) then s.nextTurn
      else
        let e := { e with qi := (e.task.queue e.t.code).headD 0 }
        s.settle e p.pop (body e s)

/-! ## Rendezvous -/

/-- All four strands stand at the rendezvous word. -/
def Task.allArrived (k : Task) : Bool :=
  decide (k.sC.wait = .arrived) && decide (k.sL.wait = .arrived) && decide (k.sX.wait = .arrived) && decide (k.sS.wait = .arrived)
/-- Every strand leaves the rendezvous: past the word, or begun again. -/
def Task.meetEnd (k : Task) (pass : Bool) : Task :=
  let k := k.updAll fun x => { (if pass then x.pass none else x) with wait := .none }
  { k with rdv := .gathering }
/-- A strand arrives at the rendezvous word; the last arrival fixes the cycle of the decision (R103). -/
def Task.arrive (k : Task) (t : Strand) (cyc : Nat) : Task :=
  let k := k.updStr t fun x => { x with wait := .arrived }
  if k.allArrived then { k with rdv := .decide (cyc + 1) } else k

/-- What a rendezvous word does once it is decided. -/
inductive Meet where
  | trap (cause : Nat) (faddr : Nat) (estat : Nat)
  | violation (va : Nat)
  /-- all strands pass the word and the machine continues from the state given -/
  | pass (s : State)
  /-- as `pass`, with a result in flight -/
  | passFly (s : State) (y : Fly)
  /-- as `pass`, and the task parks (R35, R293) -/
  | park (s : State) (w : Wake)
  /-- the state given, in which nobody passes the word (a return from a handler, the end of the task) -/
  | leave (s : State)
deriving DecidableEq, Repr

/-- All strands past the rendezvous word, with the tokens and tag of the strand named in `STR`; each has observed what has landed
(R51). -/
def State.meetPassed (s : State) (e : Env) : State :=
  s.updTask e.core e.slot fun k =>
    ((k.claim (if e.task.tagd then e.h else { e.h with tal := 0 }) s.cyc).meetEnd true).updEach fun t x =>
      x.observe true (s.landing e.core e.slot t)
/-- As `meetPassed`, for a word without a result. -/
def State.meetPass (s : State) (e : Env) : State := (s.addNop e).meetPassed e
/-- The register files of a core and its matrix engine after a yield point: free values of a new generation (R35, R138). -/
def State.scramble (s : State) (n : Nat) : State :=
  let g := s.fresh
  { (s.updCore n fun c => { c with
      vec := { gen := some g, m := [] }
      msk := { gen := some (g + 128), m := [] }
      mxe := { c.mxe with
        acc0 := { gen := some (g + 256), m := [] }
        acc1 := { gen := some (g + 16640), m := [] }
        scale := { gen := some (g + 33024), m := [] }
        count := Config.freeValue 32 (g + 33536) } }) with fresh := g + 33537 }
/-- The task leaves the active slot and keeps its task slot (R293). -/
def State.park (s : State) (n sl : Nat) (w : Wake) : State :=
  (s.updTask n sl fun k => { k with st := .parked w, entered := s.cyc, stolen := false, orderSeq := 0 }).updCore n fun c =>
    { c with active := none, freeAt := s.cyc }

/-- A rendezvous word (R103): each strand's checks, the meeting, the predicate of the strand named in `STR`, the word's own
waits (`ready`), and its effect. -/
def rendezvous (h : Hdr) (lat : Nat) (ready : Env → State → Bool) (body : Env → State → Meet) (s : State) : Out :=
  match s.env? h with
  | none => .fault .noSuchStep
  | some e =>
    .next <|
      if e.task.stopped then s.nextTurn
      else if e.st.wait = .arrived then
        if e.t ≠ h.str then s.nextTurn
        else
          let on := decide (e.task.rdv = .draining) ||
            (match e.task.rdv with | .decide c => decide (c ≤ s.cyc) && e.predicate | _ => false)
          let off := match e.task.rdv with | .decide c => decide (c ≤ s.cyc) && !e.predicate | _ => false
          if off then (s.meetPass e).nextCore
          else if !on then s.nextTurn
          else if !ready e s then (s.updTask e.core e.slot fun k => { k with rdv := .draining }).nextTurn
          else
            match body e s with
            | .trap c f es =>
              ((s.updTask e.core e.slot fun k => k.meetEnd false).raise e.core e.slot (e.info c f 0 .again es)).nextCore
            | .violation va => (s.violate e.core e.slot va e.st.ip).nextCore
            | .pass s' => (s'.meetPass e).nextCore
            | .passFly s' y => ((s'.addFlight e y).meetPassed e).nextCore
            | .park s' w => ((s'.meetPass e).park e.core e.slot w).nextCore
            | .leave s' => s'.nextCore
      else if e.st.wait ≠ .none then s.nextTurn
      else if h.dst.toNat < lat then s.settle e false (.fault cDistance 0)
      else if e.t = h.str && (!e.tagsReady || !e.tokensReady s.cyc) then s.nextTurn
      else (s.updTask e.core e.slot fun k => k.arrive e.t s.cyc).nextTurn

/-! ## Control flow -/

/-- The key of the branch-outcome queue from evaluator to reader (R27). -/
def outKey (e r : Nat) : Nat := 4 * e + r
/-- The outcomes waiting in a queue. -/
def Task.outcomes (k : Task) (e r : Nat) : List Outcome := SMap.get k.bq [] (outKey e r)
/-- All three queues of the evaluating strand have room (R27). An entry that a reader popped earlier in the cycle is free already for an
evaluator whose turn comes later; the rule does not say it (DESIGN CHOICE, assumption log 3). -/
def Task.outRoom (k : Task) (e : Nat) : Bool :=
  [0, 1, 2, 3].all fun r => r == e || decide ((k.outcomes e r).length < 16)
/-- The outcome pushed into the three queues of the evaluating strand (R96). -/
def Task.pushOutcome (k : Task) (e : Nat) (o : Outcome) : Task :=
  { k with bq := [0, 1, 2, 3].foldl (fun m r => if r = e then m else SMap.upd m [] (outKey e r) (· ++ [o])) k.bq }

/-- What the evaluation of a control-flow word answers (R96 to R100). -/
inductive Eval where
  | misaligned (target : Nat)
  /-- the outcome, the change of every strand's counters and stage predicates, and the link -/
  | go (taken : Bool) (target : Nat) (count : Nat) (link : Option (Nat × Word))
deriving DecidableEq, Repr

/-- Strand state `x` with link `v` in register `a n`: a link lands at issue (R49), and in timed mode it may be read `DST` cycles after
that (R52). -/
def StrandSt.setLink (x : StrandSt) (e : Env) (cyc n : Nat) (v : Word) : StrandSt :=
  let x := x.setReg n v
  if e.task.tagd then x
  else { x with haz := SMap.upd x.haz 0 (84 + n) fun c => max c (e.readFrom cyc) }
/-- A control-flow word (group `0x06`): evaluated by the strand of `STR`, followed by the others (R27, R96). `eval` gets
whether the predicate is 1; `every` is what an applied outcome does in each strand. -/
def control (h : Hdr) (pop : Bool) (eval : Env → Bool → Eval) (every : StrandSt → Nat → StrandSt) (s : State) : Out :=
  match s.env? h with
  | none => .fault .noSuchStep
  | some e =>
    .next <|
      if !e.live || !e.windowOpen then s.nextTurn
      else if e.t ≠ h.str then
        match e.task.outcomes h.str.code e.t.code with
        | [] => s.nextTurn
        | o :: _ =>
          if o.pushed ≥ s.cyc then s.nextTurn
          else
            s.updTask e.core e.slot fun k =>
              let k := { k with bq := SMap.upd k.bq [] (outKey h.str.code e.t.code) List.tail }
              k.updStr e.t fun x =>
                (if o.ap then every x o.count else x).pass (if o.taken then some o.target else none)
      else if !e.tagsReady || !e.tokensReady s.cyc then s.nextTurn
      else if !e.task.outRoom e.t.code then s.nextTurn
      else
        let on := e.predicate
        if on && pop && (e.task.queue e.t.code).isEmpty then s.nextTurn
        else
          let e := { e with qi := (e.task.queue e.t.code).headD 0 }
          match eval e on with
          | .misaligned tgt => s.settle e false (.fault cAlignment tgt)
          | .go taken target count link =>
            let taken := taken && on
            let s' := s.updTask e.core e.slot fun k =>
              (k.pushOutcome e.t.code ⟨s.cyc, taken, target, count, on⟩).updStr e.t fun x =>
                let x := if on then every x count else x
                match link with
                | some (n, v) => if on then x.setLink e s.cyc n v else x
                | none => x
            s.settle e (pop && on) (.done s' (if taken then some target else none))

end Sys2Proof.Machine
end

