-- ==== Sys2Proof/Machine/Flags.lean ====
section
/-!
DEFINITION. The sticky bits of `STAT` (R32, R78, R116) and the conditions that compares test (R93, R125).
-/
namespace Sys2Proof.Machine

/-- `STAT.INV` (R30). -/
def fINV : BitVec 3 := 1
/-- `STAT.OVF` (R30). -/
def fOVF : BitVec 3 := 2
/-- `STAT.CLAMP` (R30). -/
def fCLAMP : BitVec 3 := 4

/-- The bits of `STAT` that a read in cycle `cyc` returns (R32). -/
def Task.statAt (k : Task) (cyc : Nat) : BitVec 3 := if k.statCyc < cyc then k.stat ||| k.statPend else k.stat
/-- Sticky bits set by hardware in cycle `cyc` (R32). -/
def Task.stick (k : Task) (f : BitVec 3) (cyc : Nat) : Task :=
  if k.statCyc = cyc then { k with statPend := k.statPend ||| f }
  else { k with stat := k.stat ||| k.statPend, statPend := f, statCyc := cyc }
/-- A write to `STAT` that takes effect in cycle `cyc`: a setting of the cycle before is applied to it (R32). -/
def Task.writeStat (k : Task) (v : BitVec 3) (cyc : Nat) : Task :=
  { k with stat := v, statPend := if k.statCyc + 1 = cyc then k.statPend else 0 }
/-- Sticky bits set in the `STAT` of a task (R32). -/
def State.setStat (s : State) (n sl : Nat) (f : BitVec 3) : State :=
  if f = 0 then s else s.updTask n sl fun k => k.stick f s.cyc

/-- The conditions of `cmp` and `cmpi` (R93), by minor code. -/
def cmpCond (mn : Nat) (a b : Word) : Bool :=
  if mn = 0 then a == b
  else if mn = 1 then a != b
  else if mn = 2 then a.slt b
  else if mn = 3 then a.ult b
  else if mn = 4 then b.sle a
  else b.ule a

/-- The integer conditions of `vcmp.i32` and `vcmpu.i32` (R125), by condition code. -/
def icmpCond (signed : Bool) (cc : Nat) (a b : Lane) : Bool :=
  let lt (x y : Lane) : Bool := if signed then x.slt y else x.ult y
  if cc = 0 then a == b
  else if cc = 1 then a != b
  else if cc = 2 then lt a b
  else if cc = 3 then !lt b a
  else if cc = 4 then lt b a
  else !lt a b

/-- The flags of the written lanes together: each bit is set at most once (R116). -/
def laneFlags (lanes : BitVec 64) (f : Nat → BitVec 3) : BitVec 3 :=
  (List.range 64).foldl (fun acc i => if lanes.getLsbD i then acc ||| f i else acc) 0

/-- A guest is a task of a function other than 0 (R236). -/
def Task.guest (k : Task) : Bool := k.fn != 0
/-- The scope a word performs at, and whether it was clamped (R168, R236). -/
def Task.scope (k : Task) (scp : Nat) : Nat × Bool := if k.guest ∧ scp ≥ 3 then (2, true) else (scp, false)
/-- A clamp sets `STAT.CLAMP` as the word issues (R168). -/
def State.clamp (s : State) (e : Env) (scp : Nat) : State :=
  if (e.task.scope scp).2 then s.setStat e.core e.slot fCLAMP else s

end Sys2Proof.Machine
end

