-- ==== Sys2Proof/Machine/Operands.lean ====
section
/-!
DEFINITION. The operand forms: scalar and vector sources, masks, effective addresses, the checks of scalar, vector and scratch
addresses, and the pieces of memory that an access reads or writes (R36 to R39, R89, R114, R131 to R135, R166 to R170).
-/
namespace Sys2Proof.Machine

/-! ## Registers -/

/-- A scalar source: an `a` register of the strand, or the value popped from `qi` (R89). -/
def Env.src (e : Env) (n : BitVec 7) : Word := if n.toNat = 116 then e.qi else e.st.reg (n.toNat - 84)
/-- The specifier is `qi`. -/
def isPop (n : BitVec 7) : Bool := n.toNat == 116
/-- `Sext(IMM, 32)` (R91). -/
def imm32 (i : BitVec 32) : Word := i.signExtend 64
/-- The ports of a word with two sources and a destination. -/
def ports (a b d : BitVec 7) : Ports := { pop := isPop a || isPop b, push := pushTarget d.toNat }

/-- A vector, operand or last-result register as a word reads it (R52, R114). -/
def State.vread (s : State) (e : Env) (n : Nat) : Vec :=
  if s.early e.t e.task n then Config.earlyRead 2048 s.cyc (4 * e.core + e.t.code) n else (s.core e.core).vreg n
/-- A mask register, 0 to 7, as a word reads it (R52). -/
def State.mread (s : State) (e : Env) (n : Nat) : Word :=
  if s.early e.t e.task (76 + n) then Config.earlyRead 64 s.cyc (4 * e.core + e.t.code) (76 + n)
  else (s.core e.core).mreg n
/-- A vector source: a register, or bits 31:0 of a scalar in every lane (R114). -/
def State.vsrc (s : State) (e : Env) (n : BitVec 7) : Vec :=
  if n.toNat < 76 then s.vread e n.toNat else ofLanes fun _ => (e.src n).truncate 32
/-- A mask register by specifier 76 to 83 (R48). -/
def State.msrc (s : State) (e : Env) (n : BitVec 7) : Word := s.mread e (n.toNat - 76)
/-- The lanes that a masked form writes (R115). -/
def State.lanes (s : State) (e : Env) (o : RRR) : BitVec 64 :=
  if Enc.ME o then s.mread e (Enc.MK o) else BitVec.allOnes 64

/-! ## Effective addresses -/

/-- `(BR + Sext(OFF)) mod 2^64` (R131, R166). -/
def effAddr (base : Word) {w : Nat} (off : BitVec w) : Nat := (base + off.signExtend 64).toNat
/-- The number of bytes that `SZ` codes for a scalar access (R45). -/
def szBytes (sz : BitVec 2) : Nat := 2 ^ sz.toNat

/-- What the address checks of an access find (R135, R169). -/
inductive Addr where
  | ok (ps : List Piece)
  /-- a word of the translation control page (R310) -/
  | control (off : Nat)
  | misaligned (a : Nat)
  | range (a : Nat)
  | violation (va : Nat)
deriving DecidableEq, Repr

/-- The translation control page: the top 64 KiB of every context's global space (R310). -/
def controlBase : Nat := 0xFFFFFFFF0000
/-- A global address is well-formed and names this device (R38, R39, R166): bits 63:48 zero, and every byte below 2^48. -/
def globalOk (a n : Nat) : Bool := a / 2 ^ 48 == 0 && decide (a + n ≤ 2 ^ 48)
/-- An address lies in the own local window: bits 63:32 zero and all bytes below the end of the scratchpad (R36). -/
def localScratch (a n : Nat) : Bool := decide (a + n ≤ Config.scratchBytes)

/-- A task's regions and text allow an access of every one of `n` bytes at a virtual address; where several cover a byte it has
the union of their rights (R210, R308). -/
def Task.regionAllows (k : Task) (va n : Nat) (wr : Bool) : Bool :=
  (List.range n).all fun i =>
    (!wr && decide (k.textb.toNat ≤ va + i) && decide (va + i < k.textb.toNat + 80 * k.txl)) ||
    k.regions.any fun r =>
      decide (r.core = none) && decide (r.lo ≤ va + i) && decide (va + i < r.lo + r.len) && (if wr then r.wr else r.rd)
/-- The physical place of `n` leased bytes that lie in one page, with the rights of page and region (R308). -/
def Task.leased (k : Task) (va n : Nat) (wr : Bool) : Option Loc :=
  if k.regionAllows va n wr then (leaseAddr k.lease va wr).map fun pa => ⟨none, pa⟩ else none

/-- The checks of a scalar access of `n` bytes at `ea` (R166, R169, R170). -/
def State.scalarAddr (s : State) (e : Env) (ea n : Nat) (wr : Bool) : Addr :=
  if ea % n ≠ 0 then .misaligned ea
  else if ea / 2 ^ 63 = 1 then
    (if ea % 2 ^ 63 / 2 ^ 32 ≠ 0 then .range ea
     else
      match s.scratchAt e.core e.task.part (ea % 2 ^ 32) n with
      | none => .range ea
      | some l => .ok [⟨l, n, 0, ea⟩])
  else if !globalOk ea n then .range ea
  else if controlBase ≤ ea then .control (ea - controlBase)
  else
    match e.task.leased ea n wr with
    | none => .violation ea
    | some l => .ok [⟨l, n, 0, ea⟩]

/-- A scalar address of the own local window (R36, R166). -/
def nearScratch (ea n : Nat) : Bool := ea / 2 ^ 63 == 1 && localScratch (ea % 2 ^ 63) n
/-- The latency that the address of a scalar load requires (R170). -/
def scalarLat (ea n : Nat) : Nat := if nearScratch ea n then 6 else 15

/-- One lane of a vector access: its address, length and offset in the register. -/
structure LaneAddr where
  a : Nat
  len : Nat
  off : Nat
deriving DecidableEq, Repr

/-- The most different words that the lanes need from one sub-array of the own scratchpad (R296). -/
def subWords (ls : List LaneAddr) : Nat :=
  let ws := ((ls.filter fun l => localScratch l.a l.len).map fun l => l.a / 8).eraseDups
  ws.foldl (fun m w => max m (ws.countP fun v => v / 8192 == w / 8192 && v % 64 == w % 64)) 0
/-- The first lane that fails a check. -/
def firstBad (ls : List LaneAddr) (bad : LaneAddr → Bool) : Option LaneAddr := ls.find? bad

/-- The address that a fault of the effective address itself reports: the first lane's, which the fault concerns like every other. -/
def baseFault (ea : Word) (ls : List LaneAddr) : Nat := (ls.head?.map (·.a)).getD ea.toNat
/-- The checks of R135 for a scratch vector or mask access from effective address `ea`, whose bits 63:32 must be zero (R131); lane
addresses are numbers modulo 2^64. -/
def State.scratchLanes (s : State) (e : Env) (ea : Word) (ls : List LaneAddr) : Addr :=
  match firstBad ls fun l => l.a % l.len != 0 with
  | some l => .misaligned l.a
  | none =>
    if ea.toNat / 2 ^ 32 ≠ 0 then .range (baseFault ea ls)
    else
    match firstBad ls fun l => (s.scratchAt e.core e.task.part l.a l.len).isNone with
    | some l => .range l.a
    | none => .ok (ls.filterMap fun l => (s.scratchAt e.core e.task.part l.a l.len).map fun p => ⟨p, l.len, l.off, l.a⟩)

/-- The checks of R135 for a global vector access from effective address `ea`, itself a global address of this device (R38, R131). The
control page takes no vector access (R310). -/
def globalLanes (e : Env) (ea : Word) (ls : List LaneAddr) (wr : Bool) : Addr :=
  match firstBad ls fun l => l.a % l.len != 0 with
  | some l => .misaligned l.a
  | none =>
    if ea.toNat / 2 ^ 48 ≠ 0 then .range (baseFault ea ls)
    else
    match firstBad ls fun l => !globalOk l.a l.len || controlBase ≤ l.a with
    | some l => .range l.a
    | none =>
      match firstBad ls fun l => (e.task.leased l.a l.len wr).isNone with
      | some l => .violation l.a
      | none => .ok (ls.filterMap fun l => (e.task.leased l.a l.len wr).map fun p => ⟨p, l.len, l.off, l.a⟩)

/-- The lanes of a vector register at addresses `f i` (R132, R133). -/
def lanesAt (f : Nat → Word) : List LaneAddr := (List.range 64).map fun i => ⟨(f i).toNat, 4, 4 * i⟩
/-- Bytes 31:0 of lane `i`, sign-extended: an index (R132, R133). -/
def laneIndex (v : Vec) (i : Nat) : Word := (lane v i).signExtend 64

/-- A registered barrier word covers one of the bytes written (R180). -/
def State.hitsBarrier (s : State) (ps : List Piece) : Option Piece :=
  ps.find? fun p =>
    match p.loc.core with
    | none => false
    | some c => (s.core c).bars.any fun b => decide (b < p.loc.off + p.len) && decide (p.loc.off < b + 16)

/-- Two accesses touch a common byte. -/
def Piece.meets (p q : Piece) : Bool :=
  decide (p.loc.core = q.loc.core) && decide (p.loc.off < q.loc.off + q.len) && decide (q.loc.off < p.loc.off + p.len)

/-- The value in the bytes of an access: byte `off` of the register is the byte at the piece (R5). -/
def State.gather (s : State) (ps : List Piece) : Nat :=
  ps.foldl (fun n p => n ||| (s.readLoc p.loc p.len <<< (8 * p.off))) 0
/-- The first part of an access that is poisoned (R135). -/
def State.firstPoison (s : State) (ps : List Piece) : Option Piece := ps.find? fun p => s.isPoisoned p.loc p.len
/-- The pieces of a write of register contents `v` (R133). -/
def scatter (ps : List Piece) (v : Nat) : List WPiece :=
  ps.map fun p => (p.loc, p.len, (v >>> (8 * p.off)) % 2 ^ (8 * p.len))

/-- A scratch operand address of groups `0x22`, `0x23`, `0x25`, `0x28`, `0x29` and of `fldx`: bits 63:32 zero and `n` bytes in
the own local window (R167, R205). -/
def ownScratch (a : Word) (n : Nat) : Bool := localScratch a.toNat n
/-- A record read from the own scratchpad as a number. -/
def State.scratchNat (s : State) (core off n : Nat) : Nat := Mem.read (s.core core).scratch off n
/-- Bytes of the own scratchpad written by the part itself. -/
def State.putScratch (s : State) (core off n v : Nat) : State := s.writePieces [(⟨some core, off⟩, n, v)]

end Sys2Proof.Machine
end

