-- ==== Sys2Proof/Machine/Control.lean ====
section
/-!
DEFINITION. Group `0x06`, the control-flow words (R96 to R102), and of group `0x08` the words `nop`, `mode`, `ifence`, `trap` and
`tret` (R107 to R109, R112, R389, R390).
-/
namespace Sys2Proof.Machine

/-- The target of a direct form (R57). -/
def directTarget (ip : Nat) (o : BRA) : Nat := (8 * ((ip / 8 : Nat) + o.off.toInt) % 2 ^ 64).toNat
/-- The link of a call: the first word of the next fetch block (R98). -/
def linkOf (ip : Nat) : Word := BitVec.ofNat 64 (8 * (ip / 8 + 1))
/-- Nothing changes in a strand that follows an outcome. -/
def noEffect (x : StrandSt) (_ : Nat) : StrandSt := x

/-- A word of group `0x06` that compares and branches (R97). -/
def branchOp (cond : Word → Bool) (h : Hdr) (o : BRA) (s : State) : Out :=
  control h (isPop o.a) (fun e _ => .go (cond (e.src o.a)) (directTarget e.st.ip o) 0 none) noEffect s
/-- `br` (R97). -/
def execBr (h : Hdr) (o : BRA) (s : State) : Out :=
  control h false (fun e _ => .go true (directTarget e.st.ip o) 0 none) noEffect s
/-- `brz` (R97). -/
def execBrz (h : Hdr) (o : BRA) (s : State) : Out := branchOp (fun a => a == 0) h o s
/-- `brnz` (R97). -/
def execBrnz (h : Hdr) (o : BRA) (s : State) : Out := branchOp (fun a => a != 0) h o s
/-- `call` (R98). -/
def execCall (h : Hdr) (o : BRA) (s : State) : Out :=
  control h false (fun e _ => .go true (directTarget e.st.ip o) 0 (some (o.l.toNat - 84, linkOf e.st.ip))) noEffect s
/-- The target of an indirect form, checked even when predicated off unless it is `qi` (R57, R98). -/
def indirect (o : BRA) (link : Option Nat) (e : Env) (on : Bool) : Eval :=
  let tgt := (e.src o.a).toNat
  if tgt % 8 ≠ 0 ∧ (on ∨ !isPop o.a) then .misaligned tgt
  else .go true tgt 0 (link.map fun l => (l, linkOf e.st.ip))
/-- `jmpi` (R98). -/
def execJmpi (h : Hdr) (o : BRA) (s : State) : Out := control h (isPop o.a) (indirect o none) noEffect s
/-- `calli` (R98). -/
def execCalli (h : Hdr) (o : BRA) (s : State) : Out :=
  control h (isPop o.a) (indirect o (some (o.l.toNat - 84))) noEffect s

/-- What `loop` sets in every strand (R99). -/
def StrandSt.loopStart (x : StrandSt) (n drn count : Nat) : StrandSt :=
  { x with
    lc := SMap.set x.lc n ⟨BitVec.ofNat 32 (if count > 0 then count - 1 else 0), BitVec.ofNat 4 drn⟩
    q := if count > 0 then 1 else 0 }
/-- `loop` (R99). -/
def execLoop (h : Hdr) (o : BRA) (s : State) : Out :=
  control h (isPop o.a) (fun e _ => .go false 0 (min (e.src o.a).toNat 0xFFFFFFFF) none)
    (fun x count => x.loopStart (Enc.LCS o) (Enc.DRN o) count) s
/-- What `brloop` does in every strand, and whether it is taken (R100). -/
def StrandSt.loopEnd (x : StrandSt) (n : Nat) : StrandSt × Bool :=
  let c := x.loopCtr n
  let sh : BitVec 8 := x.q <<< 1
  if c.cnt ≠ 0 then ({ x with q := sh ||| 1, lc := SMap.set x.lc n ⟨c.cnt - 1, c.drn⟩ }, true)
  else if c.drn ≠ 0 then ({ x with q := sh, lc := SMap.set x.lc n ⟨c.cnt, c.drn - 1⟩ }, true)
  else ({ x with q := sh }, false)
/-- `brloop` (R100). -/
def execBrloop (h : Hdr) (o : BRA) (s : State) : Out :=
  control h false (fun e _ => .go (e.st.loopEnd (Enc.LCS o)).2 (directTarget e.st.ip o) 0 none)
    (fun x _ => (x.loopEnd (Enc.LCS o)).1) s

/-! ## System words -/

/-- `nop` (R107). -/
def execNop (h : Hdr) (_ : SYS) (s : State) : Out := issue h 0 {} (fun _ s => .done s none) s

/-- No result of the task is in flight but stores whose source has been read (R108). -/
def State.landedAll (s : State) (n sl : Nat) : Bool :=
  !(s.flights.any fun f => f.ofTask n sl && (match f.op with
    | .store _ | .storeVal _ | .cntStore _ _ _ | .mxStore _ => false
    | _ => true))
/-- Every result of `DST` below 15 of the task has landed (R55, R110). -/
def State.landedShort (s : State) (n sl : Nat) : Bool :=
  !(s.flights.any fun f => f.ofTask n sl && decide (f.dst < 15) && (match f.op with
    | .store _ | .storeVal _ | .cntStore _ _ _ | .mxStore _ => false
    | _ => true))
/-- `mode` (R108). -/
def execMode (h : Hdr) (o : SYS) (s : State) : Out :=
  rendezvous h 0 (fun e s => s.landedAll e.core e.slot && ((s.core e.core).mxe.live s.cyc).isEmpty)
    (fun e s => .pass (s.updTask e.core e.slot fun k =>
      { (k.updAll fun x => { x.observe true (fun _ => false) with tags := 0 }) with tagd := o.imm.getLsbD 0 })) s

/-- `ifence` (R109): the instruction cache and fetch buffers hold nothing, and later fetches see the present text (R58). -/
def execIfence (h : Hdr) (_ : SYS) (s : State) : Out :=
  issue h 0 {} (fun e s => .done (s.updCore e.core fun c => { c with icache := [], stale := [] }) none) s

/-- `trap` outside handler mode raises Software (R112); in handler mode it is the return (R389, R390). -/
def trapOp (h : Hdr) (o : SYS) (s : State) : Out :=
  match s.env? h with
  | none => .fault .noSuchStep
  | some e =>
    if e.task.handler.isSome then
      rendezvous h 0 (fun e s => s.drained e.core e.slot) (fun e s => .leave (s.leaveTrap e.core e.slot)) s
    else issue h 0 {} (fun _ _ => .trap cSoftware 0 (fld o.imm.toNat 15 0) .after 0) s
/-- `trap` (R112). -/
def execTrap (h : Hdr) (o : SYS) (s : State) : Out := trapOp h o s
/-- `tret`: `trap 0` (R389). -/
def execTret (h : Hdr) (o : SYS) (s : State) : Out := trapOp h o s

end Sys2Proof.Machine
end

