-- ==== Sys2Proof/Machine/Numeric.lean ====
section
/-!
DEFINITION. Numbers and their codes (chapter 03): exact values, the narrow and IEEE formats, `Decode` and `Encode`, format
records, scales, IEEE operations on codes, and the algorithms of the approximate operations (R119 to R122).
Flags are the bits of `STAT` (R30): 1 is `INV`, 2 is `OVF`.
-/
namespace Sys2Proof.Machine

/-! ## Exact reals: `n / d * 2 ^ e` -/

/-- An exact real: `n / d * 2 ^ e` with `d` positive. -/
structure Exact where
  n : Int
  d : Nat := 1
  e : Int := 0
deriving DecidableEq, Repr

/-- Shift a numerator left by a count that is not negative. -/
def ishl (n : Int) (k : Int) : Int := n * (2 ^ k.toNat : Nat)

/-- Sum. -/
def Exact.add (x y : Exact) : Exact :=
  let e := min x.e y.e
  ⟨ishl x.n (x.e - e) * y.d + ishl y.n (y.e - e) * x.d, x.d * y.d, e⟩
/-- Product. -/
def Exact.mul (x y : Exact) : Exact := ⟨x.n * y.n, x.d * y.d, x.e + y.e⟩
/-- Negation. -/
def Exact.neg (x : Exact) : Exact := ⟨-x.n, x.d, x.e⟩
/-- Difference. -/
def Exact.sub (x y : Exact) : Exact := x.add y.neg
/-- Quotient by a value that is not zero. -/
def Exact.div (x y : Exact) : Exact :=
  ⟨(if y.n < 0 then -1 else 1) * x.n * y.d, x.d * y.n.natAbs, x.e - y.e⟩
/-- Times a power of two. -/
def Exact.scale (x : Exact) (k : Int) : Exact := ⟨x.n, x.d, x.e + k⟩
/-- An integer. -/
def Exact.ofInt (n : Int) : Exact := ⟨n, 1, 0⟩
/-- The greatest integer not above `x`. -/
def Exact.floor (x : Exact) : Int := (ishl x.n x.e) / ((x.d * 2 ^ (-x.e).toNat : Nat) : Int)
/-- `floor (log2 |x|)` for `x` not zero. -/
def Exact.log2 (x : Exact) : Int :=
  let a := x.n.natAbs
  let k : Int := (Nat.log2 a : Int) - (Nat.log2 x.d : Int)
  -- 2^k * d <= a, or one less
  let up := if k < 0 then decide (x.d ≤ a * 2 ^ (-k).toNat) else decide (x.d * 2 ^ k.toNat ≤ a)
  x.e + (if up then k else k - 1)

/-- Rounding modes of `FPCTL.RM` (R30): 0 nearest even, 1 toward zero, 2 up, 3 down. -/
abbrev RMode := Nat

/-- `RoundMag` of R77 for quantum `2 ^ k`: the multiple of the quantum, for magnitude `|x|`. -/
def roundMag (x : Exact) (k : Int) (rm : RMode) (neg : Bool) : Nat :=
  let up (lo : Nat) (half : Ordering) (exact : Bool) : Nat :=
    if exact then lo
    else if rm = 0 then
      match half with
      | .lt => lo
      | .gt => lo + 1
      | .eq => if lo % 2 = 0 then lo else lo + 1
    else if rm = 2 then (if neg then lo else lo + 1)
    else if rm = 3 then (if neg then lo + 1 else lo)
    else lo
  if x.n = 0 then 0
  else if x.log2 + 2 < k then up 0 .lt false
  else
    let n := x.n.natAbs * 2 ^ (x.e - k).toNat
    let d := x.d * 2 ^ (k - x.e).toNat
    up (n / d) (compare (2 * (n % d)) d) (n % d == 0)

/-- `RN(n / d, k)`: the nearest multiple of `2 ^ -k`, ties to even (chapter 05), as that multiple. -/
def rnQ (n d k : Nat) : Nat := roundMag ⟨n, d, 0⟩ (-(k : Int)) 0 false

/-! ## Formats and their values -/

/-- A number format (R68): widths, bias, policy. -/
structure Fmt where
  s : Nat
  e : Nat
  m : Nat
  b : Int
  p : Nat
deriving DecidableEq, Repr

/-- R72. -/
def fp32 : Fmt := ⟨1, 8, 23, 127, 1⟩
/-- R72. -/
def bf16 : Fmt := ⟨1, 8, 7, 127, 1⟩
/-- R72. -/
def fp16 : Fmt := ⟨1, 5, 10, 15, 1⟩

/-- The width of a code (R68). -/
def Fmt.w (f : Fmt) : Nat := f.s + f.e + f.m

/-- What a code stands for (R69). `num` carries the sign of a zero. -/
inductive Val where
  | reserved
  | nan
  | inf (neg : Bool)
  | num (neg : Bool) (x : Exact)
deriving DecidableEq, Repr

/-- `Decode` of R69. -/
def Fmt.decode (f : Fmt) (c pad : Nat) : Val :=
  if pad ≠ 0 then .reserved
  else if f.p = 0 ∧ f.s = 1 ∧ c = 2 ^ (f.w - 1) then .reserved
  else
    let neg := f.s = 1 ∧ (c >>> (f.w - 1)) % 2 = 1
    let e := (c >>> f.m) % 2 ^ f.e
    let m := c % 2 ^ f.m
    let sg (n : Nat) : Int := if neg then -(n : Int) else n
    if f.e = 0 then .num neg ⟨sg m, 1, -f.b⟩
    else if f.p = 1 ∧ e = 2 ^ f.e - 1 then (if m = 0 then .inf neg else .nan)
    else if f.p = 2 ∧ e = 2 ^ f.e - 1 ∧ m = 2 ^ f.m - 1 then .nan
    else if e = 0 then .num neg ⟨sg m, 1, 1 - f.b - f.m⟩
    else .num neg ⟨sg (2 ^ f.m + m), 1, (e : Int) - f.b - f.m⟩

/-- `HasNaN` (R77). -/
def Fmt.hasNaN (f : Fmt) : Bool := f.p == 2 || (f.p == 1 && f.m ≥ 1)
/-- `NaNCode` (R77). -/
def Fmt.nanCode (f : Fmt) : Nat :=
  (2 ^ f.e - 1) * 2 ^ f.m + (if f.p = 2 then 2 ^ f.m - 1 else 2 ^ (f.m - 1))
/-- `MaxFinite` (R77). -/
def Fmt.maxFinite (f : Fmt) : Exact :=
  if f.e = 0 then ⟨(2 ^ f.m - 1 : Nat), 1, -f.b⟩
  else if f.p = 1 ∨ (f.p = 2 ∧ f.m = 0) then ⟨(2 ^ f.m + (2 ^ f.m - 1) : Nat), 1, (2 ^ f.e - 2 : Nat) - f.b - f.m⟩
  else if f.p = 2 then ⟨(2 ^ f.m + (2 ^ f.m - 2) : Nat), 1, (2 ^ f.e - 1 : Nat) - f.b - f.m⟩
  else ⟨(2 ^ f.m + (2 ^ f.m - 1) : Nat), 1, (2 ^ f.e - 1 : Nat) - f.b - f.m⟩

/-- `Pack` (R77) of the magnitude `y`, a value of the format. -/
def Fmt.pack (f : Fmt) (neg : Bool) (y : Exact) : Nat :=
  let sgn := if neg ∧ f.s = 1 then 2 ^ (f.w - 1) else 0
  let quo (k : Int) : Nat := (y.n.natAbs * 2 ^ (y.e - k).toNat) / (y.d * 2 ^ (k - y.e).toNat)
  if y.n = 0 then sgn
  else if f.e = 0 then sgn + quo (-f.b)
  else if y.log2 < 1 - f.b then sgn + quo (1 - f.b - f.m)
  else sgn + (y.log2 + f.b).toNat * 2 ^ f.m + (quo (y.log2 - f.m) - 2 ^ f.m)
/-- `Pack` of an infinity (R77). -/
def Fmt.packInf (f : Fmt) (neg : Bool) : Nat :=
  (if neg ∧ f.s = 1 then 2 ^ (f.w - 1) else 0) + (2 ^ f.e - 1) * 2 ^ f.m

/-- `|x| > |y|` without forming large powers. -/
def Exact.gtMag (x y : Exact) : Bool :=
  if x.n = 0 then false
  else if y.n = 0 then true
  else if x.log2 ≠ y.log2 then decide (x.log2 > y.log2)
  else
    let e := min x.e y.e
    decide (x.n.natAbs * 2 ^ (x.e - e).toNat * y.d > y.n.natAbs * 2 ^ (y.e - e).toNat * x.d)

/-- `Encode` of R77: the code and the flags it sets. -/
def Fmt.encode (f : Fmt) (rm : RMode) (sat : Bool) (v : Val) : Nat × BitVec 3 :=
  match v with
  | .reserved | .nan => if f.hasNaN then (f.nanCode, 0) else (0, 1)
  | .inf neg =>
    if f.s = 0 ∧ neg then (0, 1)
    else if f.p = 1 ∧ !sat then (f.packInf neg, 0)
    else if f.p = 2 ∧ !sat then (f.nanCode, 2)
    else (f.pack neg f.maxFinite, 2)
  | .num neg x =>
    if f.s = 0 ∧ neg then (if x.n ≠ 0 then (0, 1) else (0, 0))
    else
      let k : Int :=
        if f.e = 0 then -f.b
        else if x.n = 0 then 0
        else max x.log2 (1 - f.b) - f.m
      let y : Exact := ⟨roundMag x k rm neg, 1, k⟩
      if y.gtMag f.maxFinite then
        let toward := rm = 1 ∨ (rm = 3 ∧ !neg) ∨ (rm = 2 ∧ neg)
        if sat ∨ f.p = 0 ∨ toward then (f.pack neg f.maxFinite, 2)
        else if f.p = 1 then (f.packInf neg, 2)
        else (f.nanCode, 2)
      else (f.pack (neg && !(y.n == 0 && f.p == 0)) y, 0)

/-- `Round32` (R77). -/
def round32 (rm : RMode) (v : Val) : Nat × BitVec 3 := fp32.encode rm false v

/-- Where a decoded value is read as a number, a reserved code reads as NaN and sets `INV` (R70). -/
def Val.read : Val → Val × BitVec 3
  | .reserved => (.nan, 1)
  | v => (v, 0)

/-- The sign of a value. -/
def Val.isNeg : Val → Bool
  | .inf n => n
  | .num n _ => n
  | _ => false
/-- A value is NaN. -/
def Val.isNaN : Val → Bool
  | .nan | .reserved => true
  | _ => false
/-- A value is a zero. -/
def Val.isZero : Val → Bool
  | .num _ x => x.n == 0
  | _ => false
/-- The value with the other sign. -/
def Val.negate : Val → Val
  | .inf n => .inf !n
  | .num n x => .num (!n) x.neg
  | v => v

/-- Exact product with the special cases of IEEE 754-2019 (R84). -/
def Val.mul (a b : Val) : Val × BitVec 3 :=
  match a, b with
  | .num n x, .num m y => (.num (n != m) (x.mul y), 0)
  | .inf n, .inf m => (.inf (n != m), 0)
  | .inf n, .num m y => if y.n = 0 then (.nan, 1) else (.inf (n != m), 0)
  | .num n x, .inf m => if x.n = 0 then (.nan, 1) else (.inf (n != m), 0)
  | _, _ => (.nan, 0)

/-- Exact sum with the special cases of IEEE 754-2019 (R84); `rm` gives the sign of an exact zero. -/
def Val.add (rm : RMode) (a b : Val) : Val × BitVec 3 :=
  match a, b with
  | .num n x, .num m y =>
    let s := x.add y
    if s.n = 0 then (.num (if n = m then n else rm == 3) s, 0)
    else (.num (decide (s.n < 0)) s, 0)
  | .inf n, .inf m => if n = m then (.inf n, 0) else (.nan, 1)
  | .inf n, .num _ _ => (.inf n, 0)
  | .num _ _, .inf m => (.inf m, 0)
  | _, _ => (.nan, 0)

/-- Multiplication by a scale factor (R79). -/
def Val.mulScale (v f : Val) : Val × BitVec 3 := v.mul f
/-- Division by a scale factor (R79). -/
def Val.divScale (v f : Val) : Val × BitVec 3 :=
  match f with
  | .num m y =>
    if y.n = 0 then (.nan, 1)
    else
      match v with
      | .num n x => (.num (n != m) (x.div y), 0)
      | .inf n => (.inf (n != m), 0)
      | _ => (.nan, 0)
  | _ => (.nan, 1)

/-! ## Format records -/

/-- The fields of a format record that its readers use (R73). -/
structure Rec where
  f : Fmt
  kind : Nat
  scm : Nat
  tsc : Nat
  sat : Bool
  /-- container width in bits (R71, R72) -/
  cw : Nat
deriving DecidableEq, Repr

/-- The record's fields (R73). -/
def Rec.of (r : BitVec 128) : Rec :=
  let x := r.toNat
  let kind := fld x 3 0
  let f : Fmt :=
    if kind = 1 then fp32
    else if kind = 2 then bf16
    else if kind = 3 then fp16
    else ⟨fld x 4 4, fld x 8 5, fld x 12 9, sextI (fld x 23 16) 8, fld x 25 24⟩
  { f := f, kind := kind, scm := fld x 30 28, tsc := fld x 63 32, sat := fld x 26 26 == 1,
    cw := if kind = 1 then 32 else if kind = 0 then (if fld x 27 27 = 1 then 8 else 4) else 16 }

/-- R74. -/
def recValid (r : BitVec 128) : Bool :=
  let x := r.toNat
  let kind := fld x 3 0
  let s := fld x 4 4
  let e := fld x 8 5
  let m := fld x 12 9
  let pol := fld x 25 24
  let ctr := fld x 27 27
  let scm := fld x 30 28
  let w := s + e + m
  fld x 127 64 == 0 && fld x 31 31 == 0 && fld x 15 13 == 0 && scm ≤ 4 && (scm == 1 || fld x 63 32 == 0)
  && (if kind = 0 then
        2 ≤ w && w ≤ 8 && e ≤ 8 && m ≤ 8 && ctr == (if w ≤ 4 then 0 else 1) && pol ≤ 2 && (e != 0 || pol == 0)
        && (pol != 1 || (e ≥ 2 && m ≥ 1)) && (pol != 2 || (e ≥ 1 && e + m ≥ 2))
      else kind ≤ 3 && s == 0 && e == 0 && m == 0 && fld x 23 16 == 0 && pol == 0 && ctr == 0)

/-- R75: a record that may stand as the A (`col` false) or B (`col` true) operand of a matrix instruction. -/
def recOperand (r : BitVec 128) (col : Bool) : Bool :=
  recValid r && fld r.toNat 3 0 != 1 && (fld r.toNat 30 28 ≤ 1 || fld r.toNat 30 28 == (if col then 3 else 2))
/-- R75: the pair is of one class. -/
def recPair (a b : BitVec 128) : Bool := (fld a.toNat 3 0 == 0) == (fld b.toNat 3 0 == 0)

/-- The value of container `c` under a record (R69, R71). -/
def Rec.decode (r : Rec) (c : Nat) : Val := r.f.decode (c % 2 ^ r.f.w) (c / 2 ^ r.f.w)
/-- The per-tensor factor of a record, 1 unless `SCM` is 1 (R79). -/
def Rec.tensorFactor (r : Rec) : Val := if r.scm = 1 then fp32.decode r.tsc 0 else .num false ⟨1, 1, 0⟩
/-- R80: the record takes part in the integer path. -/
def Rec.isInt (r : Rec) : Bool := r.kind == 0 && r.f.e == 0 && r.f.b == 0 && r.scm == 0

/-! ## IEEE operations on codes -/

/-- The value of an IEEE code, with `INV` for a signalling NaN (R84). -/
def ieee (f : Fmt) (c : Nat) : Val × BitVec 3 :=
  match f.decode c 0 with
  | .nan => (.nan, if (c >>> (f.m - 1)) % 2 = 0 then 1 else 0)
  | v => (v, 0)

/-- A subnormal code is replaced by zero of its sign (R86). -/
def flush (f : Fmt) (c : Nat) : Nat := if (c >>> f.m) % 2 ^ f.e = 0 then c - c % 2 ^ f.m else c

/-- `a * b + c` rounded once (R84); a product alone when `c` is absent, a sum when `b` is absent. -/
def fpSum (f : Fmt) (rm : RMode) (a b : Nat) (subtract : Bool) : Nat × BitVec 3 :=
  let (x, f1) := ieee f a
  let (y, f2) := ieee f b
  let (v, f3) := Val.add rm x (if subtract then y.negate else y)
  let (c, f4) := f.encode rm false v
  (c, f1 ||| f2 ||| f3 ||| f4)
/-- Product (R84). -/
def fpMul (f : Fmt) (rm : RMode) (a b : Nat) : Nat × BitVec 3 :=
  let (x, f1) := ieee f a
  let (y, f2) := ieee f b
  let (v, f3) := x.mul y
  let (c, f4) := f.encode rm false v
  (c, f1 ||| f2 ||| f3 ||| f4)
/-- Fused multiply-add, with the product or the addend negated (R84). -/
def fpFma (f : Fmt) (rm : RMode) (a b c : Nat) (negProd negAdd : Bool) : Nat × BitVec 3 :=
  let (x, f1) := ieee f a
  let (y, f2) := ieee f b
  let (z, f3) := ieee f c
  let (p, f4) := x.mul y
  let (v, f5) := Val.add rm (if negProd then p.negate else p) (if negAdd then z.negate else z)
  let (r, f6) := f.encode rm false v
  (r, f1 ||| f2 ||| f3 ||| f4 ||| f5 ||| f6)

/-- The order of codes that are no NaN; -0 lies below +0 when `zeros`. -/
def fpKey (f : Fmt) (zeros : Bool) (c : Nat) : Int :=
  let mag := c % 2 ^ (f.w - 1)
  if (c >>> (f.w - 1)) % 2 = 1 then -(mag : Int) - (if zeros then 1 else 0) else mag
/-- The 2019 minimum (`mx` false) or maximum (R84). -/
def fpMinMax (f : Fmt) (mx : Bool) (a b : Nat) : Nat × BitVec 3 :=
  let (x, f1) := ieee f a
  let (y, f2) := ieee f b
  if x.isNaN || y.isNaN then (f.nanCode, f1 ||| f2)
  else if (decide (fpKey f true a < fpKey f true b)) != mx then (a, 0) else (b, 0)

/-- The conditions of `vcmp.f32` (R125). -/
def fpCmp (cc a b : Nat) : Bool × BitVec 3 :=
  let (x, f1) := ieee fp32 a
  let (y, f2) := ieee fp32 b
  let nan := x.isNaN || y.isNaN
  let ka := fpKey fp32 false a
  let kb := fpKey fp32 false b
  let fl := f1 ||| f2 ||| (if nan && 2 ≤ cc && cc ≤ 5 then 1 else 0)
  let r := match cc with
    | 0 => !nan && ka == kb
    | 1 => nan || ka != kb
    | 2 => !nan && decide (ka < kb)
    | 3 => !nan && decide (ka ≤ kb)
    | 4 => !nan && decide (ka > kb)
    | 5 => !nan && decide (ka ≥ kb)
    | 6 => nan
    | _ => !nan
  (r, fl)

/-! ## The approximate operations -/

/-- Integer square root by bits: the largest `r` below `2 ^ k` above `r0` with `r * r ≤ n`. -/
def isqrtAux (n : Nat) : Nat → Nat → Nat
  | 0, r => r
  | k + 1, r => isqrtAux n k (if (r + 2 ^ k) * (r + 2 ^ k) ≤ n then r + 2 ^ k else r)
/-- Integer square root of a number below `2 ^ 64`. -/
def isqrt (n : Nat) : Nat := isqrtAux n 32 0

/-- `RN(2 ^ (j / 64), 30)` in units of `2 ^ -30` (R121). -/
def exp2Table : List Nat :=
  [1073741824, 1085434106, 1097253708, 1109202018, 1121280436, 1133490379, 1145833280, 1158310587,
   1170923762, 1183674286, 1196563654, 1209593378, 1222764986, 1236080024, 1249540052, 1263146652,
   1276901417, 1290805962, 1304861917, 1319070932, 1333434672, 1347954824, 1362633090, 1377471191,
   1392470869, 1407633882, 1422962010, 1438457051, 1454120821, 1469955159, 1485961921, 1502142985] ++
  [1518500250, 1535035634, 1551751076, 1568648537, 1585730000, 1602997467, 1620452965, 1638098541,
   1655936265, 1673968228, 1692196547, 1710623359, 1729250827, 1748081133, 1767116489, 1786359126,
   1805811301, 1825475297, 1845353420, 1865448001, 1885761398, 1906295993, 1927054196, 1948038440,
   1969251188, 1990694927, 2012372174, 2034285470, 2056437387, 2078830522, 2101467502, 2124350982]
/-- `RN(log2(1 + j / 64), 30)` in units of `2 ^ -30` (R122). -/
def log2Table : List Nat :=
  [0, 24017256, 47667823, 70962728, 93912511, 116527248, 138816582, 160789745,
   182455581, 203822568, 224898839, 245692198, 266210141, 286459867, 306448299, 326182095,
   345667660, 364911162, 383918542, 402695523, 421247625, 439580170, 457698295, 475606957,
   493310944, 510814882, 528123241, 545240343, 562170370, 578917365, 595485245, 611877800] ++
  [628098702, 644151509, 660039669, 675766525, 691335320, 706749198, 722011213, 737124328,
   752091421, 766915285, 781598637, 796144114, 810554283, 824831638, 838978604, 852997541,
   866890747, 880660455, 894308843, 907838029, 921250079, 934547002, 947730758, 960803257,
   973766362, 986621888, 999371606, 1012017244, 1024560487, 1037002979, 1049346328, 1061592099]

/-- A multiple of `2 ^ -k`. -/
def fx (n : Int) (k : Nat) : Exact := ⟨n, 1, -(k : Int)⟩

/-- `y1 * 2 ^ -e` of R119 for the magnitude of a finite nonzero operand. -/
def rcpApprox (x : Exact) : Exact :=
  let e := x.log2
  let m : Exact := x.scale (-e)
  let j := ((m.sub (.ofInt 1)).scale 7).floor.toNat
  let y0 := fx (rnQ 256 (257 + 2 * j) 24) 24
  (y0.mul ((Exact.ofInt 2).sub (m.mul y0))).scale (-e)
/-- `y1 * 2 ^ (-e / 2)` of R120 for a positive finite operand. -/
def rsqApprox (x : Exact) : Exact :=
  let e0 := x.log2
  let e := if e0 % 2 = 1 then e0 - 1 else e0
  let m : Exact := x.scale (-e)
  let j := ((m.sub (.ofInt 1)).scale 5).floor.toNat
  -- 1 / sqrt (c / 64) with c = 65 + 2 j, rounded to a multiple of 2^-24; c is odd, so no tie arises
  let y0 := fx ((isqrt (2 ^ 56 / (65 + 2 * j)) + 1) / 2 : Nat) 24
  ((y0.mul ((Exact.ofInt 3).sub ((m.mul y0).mul y0))).scale (-1)).scale (-(e / 2))
/-- `y * 2 ^ n` of R121 for a finite operand. -/
def exp2Approx (x : Exact) : Exact :=
  let n := x.floor
  let t := x.sub (.ofInt n)
  let j := (t.scale 6).floor.toNat
  let u := t.sub (fx j 6)
  let y := (fx (exp2Table.getD j 0) 30).mul
    ((Exact.ofInt 1).add (u.mul ((fx 744261118 30).add (u.mul (fx 257941248 30)))))
  y.scale n
/-- `y` of R122 for a positive finite operand. -/
def log2Approx (x : Exact) : Exact :=
  let e := x.log2
  let m : Exact := x.scale (-e)
  let j := ((m.sub (.ofInt 1)).scale 6).floor.toNat
  let c := (Exact.ofInt 1).add (fx j 6)
  let u := (m.sub c).mul (fx (rnQ 64 (64 + j) 30) 30)
  ((Exact.ofInt e).add (fx (log2Table.getD j 0) 30)).add
    (u.mul ((fx 1549082005 30).add (u.mul ((fx (-774541002) 30).add (u.mul (fx 516360668 30))))))

/-- A signed value from an exact real; zero is +0. -/
def Val.ofExact (x : Exact) : Val := .num (decide (x.n < 0)) x

/-- The approximate operations 10 to 13 of group `0x10` on one lane (R118 to R122). -/
def fpApprox (mn : Nat) (rm : RMode) (c : Nat) : Nat × BitVec 3 :=
  let (v, f1) := ieee fp32 c
  let done (v : Val) (fl : BitVec 3) : Nat × BitVec 3 :=
    let (r, f2) := round32 rm v
    (r, f1 ||| fl ||| f2)
  let zero (neg : Bool) : Val := .num neg ⟨0, 1, 0⟩
  match v with
  | .nan | .reserved => (fp32.nanCode, f1)
  | .inf neg =>
    if mn = 10 then done (zero neg) 0
    else if mn = 11 then (if neg then done .nan 1 else done (zero false) 0)
    else if mn = 12 then (if neg then done (zero false) 0 else done (.inf false) 0)
    else (if neg then done .nan 1 else done (.inf false) 0)
  | .num neg x =>
    if mn = 12 then done (.ofExact (exp2Approx x)) 0
    else if x.n = 0 then done (.inf (if mn = 13 then true else neg)) 0
    else if mn = 10 then done (.ofExact (if neg then (rcpApprox x.neg).neg else rcpApprox x)) 0
    else if neg then done .nan 1
    else if mn = 11 then done (.ofExact (rsqApprox x)) 0
    else done (.ofExact (log2Approx x)) 0

/-- An FP32 code rounded to an integer of 32 bits (R128). -/
def fpToI32 (rm : RMode) (c : Nat) : Nat × BitVec 3 :=
  let (v, _) := ieee fp32 c
  let clamp (neg : Bool) : Nat × BitVec 3 := (if neg then 0x80000000 else 0x7FFFFFFF, 1)
  match v with
  | .nan | .reserved => (0, 1)
  | .inf neg => clamp neg
  | .num neg x =>
    let n := roundMag x 0 rm neg
    if neg ∧ n > 0x80000000 then clamp true
    else if !neg ∧ n > 0x7FFFFFFF then clamp false
    else (if neg then (2 ^ 32 - n) % 2 ^ 32 else n, 0)


end Sys2Proof.Machine
end

