-- ==== Sys2Proof/Machine/Access.lean ====
section
/-!
DEFINITION. The order in which memory accesses perform (R171, R175, R237, R240), what a write to memory brings about (R180, R283,
R305, R313), and the landing of the results that registers and memory receive (R18, R22, R49, R50, R137).
-/
namespace Sys2Proof.Machine

/-! ## Order -/

/-- The bytes that a pending access touches. -/
def FOp.pieces : FOp → List Piece
  | .load _ ps _ _ | .badLoad _ _ ps => ps
  | .storeSrc _ ps => ps
  | .store ws | .storeVal ws | .mxStore ws => ws.map fun w => ⟨w.1, w.2.1, 0, 0⟩
  | .cntSrc _ c off => [⟨⟨some c, off⟩, 256, 0, 0⟩]
  | .cntStore c off _ => [⟨⟨some c, off⟩, 256, 0, 0⟩]
  | .atomic _ p _ _ _ => [p]
  | _ => []
/-- The bytes that a flight touches; a `gsig` reads its payload in the own scratchpad (R200). -/
def Flight.pieces (f : Flight) : List Piece :=
  match f.op with
  | .gsig _ (some a) _ => [⟨⟨some f.core, a⟩, 32, 0, a⟩]
  | op => op.pieces
/-- Two lists of pieces touch a common byte. -/
def overlaps (ps qs : List Piece) : Bool := ps.any fun p => qs.any fun q => p.meets q
/-- Pending access `g` comes before a later access of the same strand in class `cls` to the bytes `ps`: it has the same class
(R240), touches a common byte (R237), or is an acquire (R171). -/
def Flight.holds (g : Flight) (cls : Nat) (ps : List Piece) : Bool :=
  (g.acc && (g.cls == cls || overlaps g.pieces ps)) || g.acq
/-- A scratch access of `S` waits while an earlier strided or scattered store uses its paths (R296). -/
def State.pathsBusy (s : State) (e : Env) (ps : List Piece) : Bool :=
  e.t == .S && decide (s.cyc < e.st.paths) && ps.any fun p => p.loc.core.isSome
/-- A store that needs `k` words of one sub-array uses its strand's paths for `k` cycles from its issue (R296). -/
def State.takePaths (s : State) (e : Env) (k : Nat) : State :=
  if k ≤ 1 then s else s.updTask e.core e.slot fun t => t.updStr e.t fun x => { x with paths := s.cyc + k }
/-- A load that would read at issue waits for the earlier accesses of its strand that come before it. -/
def State.mustWait (s : State) (e : Env) (cls : Nat) (ps : List Piece) : Bool :=
  s.flights.any fun g => g.ofTask e.core e.slot && g.strand = e.t && g.holds cls ps
/-- A matrix command of the task that writes scratch and entered the queue before cycle `cyc` has not completed (R165, R175). -/
def State.matrixWrites (s : State) (n sl cyc : Nat) : Bool :=
  (s.core n).mxe.queue.any fun c => c.slot == sl && (c.op == 3 || c.op == 6) && !c.done && decide (c.entered < cyc)
/-- Every access that a release waits for has performed: those that any strand of the task issued in an earlier cycle (R171). -/
def State.released (s : State) (n sl id cyc : Nat) : Bool :=
  !(s.flights.any fun g => g.ofTask n sl && g.acc && g.id != id && decide (g.issued < cyc)) && !s.matrixWrites n sl cyc
/-- A remote store or far atomic that `fence.ack` waits for: of a covered class, issued before it, with no reply yet (R176). -/
def FarReq.awaited (r : FarReq) (n sl ser cmask cyc : Nat) : Bool :=
  r.task == (n, sl, ser) && cmask.testBit r.cls && decide (r.issued < cyc) &&
    (match r.kind with
     | .store _ => true
     | .atomic _ => true
     | _ => false)
/-- A fence has nothing left to wait for (R175, R176). -/
def State.fenceDone (s : State) (f : Flight) (cmask : Nat) (ack : Bool) : Bool :=
  !(s.flights.any fun g => g.ofTask f.core f.slot && decide (g.issued < f.issued) && cmask.testBit g.cls &&
      (g.acc || (ack && (match g.op with
        | .fstSrc _ _ _ => true
        | _ => false))))
  && !(cmask.testBit 0 && s.matrixWrites f.core f.slot f.issued)
  && (!ack ||
      (match s.task? f.core f.slot with
       | none => true
       | some k => !((s.ctx k.key).far.any fun r => r.awaited f.core f.slot k.ser cmask f.issued)))

/-! ## Whether a flight's moment has come -/

/-- The order allows the flight to take effect now. -/
def State.flightReady (s : State) (f : Flight) : Bool :=
  let inOrder := !(s.flights.any fun g => g.id < f.id && g.ofTask f.core f.slot && g.strand = f.strand && g.holds f.cls f.pieces)
  match f.op with
  | .load _ _ _ _ | .badLoad _ _ _ | .ctlLoad _ _ | .atomic _ _ _ _ _ => inOrder
  | .sdreq _ _ | .root _ _ =>
    inOrder && (match s.task? f.core f.slot with
      | some k => decide ((s.ctx k.key).sds.length < 16)
      | none => true)
  | .store _ | .cntStore _ _ _ => inOrder && (!f.rel || s.released f.core f.slot f.id f.issued)
  | .fence m _ ack => s.fenceDone f m ack.isSome
  | .barArrive l _ _ => s.released f.core f.slot f.id f.issued && s.barOpen l
  | .barWait l ph _ _ => !s.barReg l || s.barPhase l != ph
  | .gsig _ _ _ => s.released f.core f.slot f.id f.issued
  | .engine _ | .fatom _ _ _ | .matrix _ => false
  | _ => true

/-! ## Writes -/

/-- The mappings of a scheduler whose notify word is looked for: mapped and held queues (R283, R286). -/
def Hts.queues (h : Hts) : List QMapping := h.qslots.map (·.2) ++ h.qheld.map (·.2)
/-- A write touches the notify word of a queue (R283). -/
def State.notifies (s : State) (ps : List WPiece) (q : QMapping) : Bool :=
  match s.translate (ctxKey q.part q.fn) q.qaddr with
  | .error _ => false
  | .ok (pa, _) => ps.any fun p => decide (p.1.core = none) && decide (p.1.off < pa + 8) && decide (pa < p.1.off + p.2.1)
/-- Every queue of the part that a write notifies, as requests to the schedulers (R285). -/
def State.notifyList (s : State) (ps : List WPiece) : List HtsReq :=
  (((s.hts.map (·.2)).flatMap Hts.queues ++ s.ctxs.filterMap fun c => c.2.evMap).filter (s.notifies ps)).map fun q =>
    { core := q.core, part := q.part, fn := q.fn, op := .notify q.part q.fn (BitVec.ofNat 64 q.qaddr) }
/-- A write performs: dirty bits, bytes, poison of the pieces `bad`, and the notifies it makes (R283, R305, R313). -/
def State.perform (s : State) (k : Nat) (ps : List WPiece) (bad : List WPiece := []) : State :=
  let s := (s.markDirty k ps).writePieces ps bad
  { s with htsReqs := s.htsReqs ++ s.notifyList ps }
/-- A piece of a write touches a registered barrier word. -/
def State.inBarrier (s : State) (p : WPiece) : Bool :=
  match p.1.core with
  | none => false
  | some c => (s.core c).bars.any fun b => decide (b < p.1.off + p.2.1) && decide (p.1.off < b + 16)
/-- The bytes of a write that no registered barrier word covers, for an engine's write that skips them (R180). -/
def State.skipBarriers (s : State) (ps : List WPiece) : List WPiece × Bool := (ps.filter fun p => !s.inBarrier p, ps.any s.inBarrier)
/-- The `ERR` bit 2 of the barrier words that an engine's write covers (R180). -/
def State.flagSkipped (s : State) (ps : List WPiece) : State :=
  ps.foldl (fun s p =>
    match p.1.core with
    | none => s
    | some c =>
      (s.core c).bars.foldl (fun s b =>
        if b < p.1.off + p.2.1 ∧ p.1.off < b + 16 then
          s.barPut ⟨some c, b⟩ (setFld (s.readLoc ⟨some c, b⟩ 16) 114 114 1)
        else s) s) s
/-- A write by an engine, the fabric or the host: in pieces of at most 8 bytes, those of `bad` with poisoned data, registered barrier
words skipped (R180, R238, R313). -/
def State.engineWrite (s : State) (k : Nat) (ps : List WPiece) (bad : List WPiece := []) : State × Bool :=
  let (qs, skipped) := s.skipBarriers ps
  ((s.flagSkipped ps).perform k qs (s.skipBarriers bad).1, skipped)
/-- The pieces of a run of data from `base` on that hold a byte of a payload word of 8 bytes with its mark set (R313, R322). -/
def markedPieces (ps : List WPiece) (base marks : Nat) : List WPiece :=
  ps.filter fun p => (List.range p.2.1).any fun i => marks.testBit ((p.1.off + i - base) / 8)

/-! ## Landing -/

/-- A scalar result: an `a` register, or a push into a queue (R25, R89). -/
def Task.landScalar (k : Task) (t : Strand) (spec : Nat) (v : Word) : Task :=
  match pushTarget spec with
  | some c => { k with sq := SMap.upd k.sq [] c (· ++ [v]) }
  | none => k.updStr t fun x => x.setReg (spec - 84) v
/-- A vector result: the written lanes, and for an `X` result the last-result file (R18, R115). -/
def Core.landVector (c : Core) (t : Strand) (spec : Nat) (v : Vec) (lanes : BitVec 64) : Core :=
  let new := if lanes = BitVec.allOnes 64 then v else mixLanes (c.vreg spec) v lanes
  let c' := if t = .X then
      (((c.setVreg 75 (c.vreg 74)).setVreg 74 (c.vreg 73)).setVreg 73 (c.vreg 72)).setVreg 72 new
    else c
  c'.setVreg spec new
/-- A mask result: the written bits (R115). -/
def Core.landMask (c : Core) (spec : Nat) (v bits : Word) : Core :=
  c.setMreg (spec - 76) ((v &&& bits) ||| (c.mreg (spec - 76) &&& ~~~bits))

/-- An `X` result has landed in the register in this cycle, so that an `L` result is discarded (R19). -/
def Core.beaten (c : Core) (t : Strand) (spec cyc : Nat) : Bool := t == .L && SMap.find? c.xLanded spec == some cyc
/-- A result lands in a vector or mask register by `g`, unless an `X` result of the same cycle beats it (R19). -/
def Core.landReg (c : Core) (t : Strand) (spec cyc : Nat) (g : Core → Core) : Core :=
  if c.beaten t spec cyc then c
  else if t = .X then { g c with xLanded := SMap.set c.xLanded spec cyc }
  else g c

/-- The value of a load of `n` bytes, extended to 64 bits (R170). -/
def extend (v n : Nat) (sgn : Bool) : Word := if sgn then BitVec.ofInt 64 (sextI v (8 * n)) else BitVec.ofNat 64 v
/-- A loaded value lands by its destination specifier: vector, mask or scalar (R131, R170). -/
def State.landLoaded (s : State) (f : Flight) (spec n : Nat) (sgn : Bool) (v : Nat) : State :=
  if spec < 72 then
    (if (s.core f.core).active = some f.slot then
      s.updCore f.core fun c => c.landReg f.strand spec s.cyc fun c => c.landVector f.strand spec (BitVec.ofNat 2048 v) (BitVec.allOnes 64)
     else s)
  else if 76 ≤ spec ∧ spec < 84 then
    (if (s.core f.core).active = some f.slot then
      s.updCore f.core fun c => c.landReg f.strand spec s.cyc fun c => c.landMask spec (BitVec.ofNat 64 v) (BitVec.allOnes 64)
     else s)
  else s.updTask f.core f.slot fun k => k.landScalar f.strand spec (extend v n sgn)

/-- The flight is over: its tokens are visible, its tag is free, its flags are set, and a strand that waited for it goes on
(R22, R53, R116, R175, R181). -/
def State.finish (s : State) (f : Flight) : State :=
  let s := { s with flights := s.flights.filter fun g => g.id != f.id }
  (s.updTask f.core f.slot fun k =>
    (k.land f).updStr f.strand fun x =>
      if x.wait = .flight f.id then { x.observe true (s.landing f.core f.slot f.strand) with wait := .none } else x).setStat f.core f.slot f.stat
/-- The source of a store has been read: tokens and tag are released, and the store performs later (R22, R137, R239). -/
def State.sourceRead (s : State) (f : Flight) (op : FOp) : State :=
  let due := s.cyc + 1 + Config.performDelay s.fresh
  let s := { s with
    fresh := s.fresh + 1
    flights := s.flights.map fun (g : Flight) => if g.id = f.id then { g with op := op, due := due, sig := 0, tal := 0 } else g }
  s.updTask f.core f.slot fun k => k.land f
/-- A register as the source of a store, read two cycles after issue: a vector or mask register of the core, or a scalar of the
strand (R52, R137). -/
def State.sourceValue (s : State) (f : Flight) (spec : Nat) : Nat :=
  match s.task? f.core f.slot with
  | none => 0
  | some k =>
    if s.early f.strand k spec then
      (Config.earlyRead 2048 s.cyc (4 * f.core + f.strand.code) spec).toNat % (if spec < 76 then 2 ^ 2048 else 2 ^ 64)
    else if spec < 76 then ((s.core f.core).vreg spec).toNat
    else if spec < 84 then ((s.core f.core).mreg (spec - 76)).toNat
    else ((k.str f.strand).reg (spec - 84)).toNat
/-- A poisoned word reached a load or atomic of latency 15: the late Memory Poison fault (R135, R173). -/
def State.latePoison (s : State) (f : Flight) (faddr : Nat) : State :=
  (s.finish { f with stat := 0 }).raise f.core f.slot
    { cause := cPoison, faddr := faddr, ip := f.ip, strand := f.strand, late := true, resume := .asIs }
/-- A store or atomic comes to perform after one of its bytes has been registered as part of a barrier word: it is not performed, and
raises the Barrier Write fault at its word, which its strand has passed (R180; DESIGN CHOICE, assumption log 74). -/
def State.lateBarrier (s : State) (f : Flight) (faddr : Nat) : State :=
  (s.finish { f with stat := 0 }).raise f.core f.slot
    { cause := cBarrierWrite, faddr := faddr, ip := f.ip, strand := f.strand, late := true, resume := .asIs }
end Sys2Proof.Machine
end

