-- ==== Sys2Proof/Machine/Windows.lean ====
section
/-!
DEFINITION. Landing windows as the counting port sees them (R184, R185, R187, R420).
-/
namespace Sys2Proof.Machine

/-- Fields of a window descriptor (R184). -/
def Window.base (w : Window) : Nat := fld w.desc.toNat 31 0
/-- R184. -/
def Window.len (w : Window) : Nat := fld w.desc.toNat 52 32
/-- R184. -/
def Window.exp (w : Window) : Nat := fld w.desc.toNat 91 64
/-- R184. -/
def Window.any (w : Window) : Bool := w.desc.getLsbD 112
/-- Access entry `k` (R184). -/
def Window.acl (w : Window) (k : Nat) : Nat := fld w.desc.toNat (159 + 32 * k) (128 + 32 * k)
/-- The window admits bytes for (requester, owner) from another device (R187). -/
def Window.admits (w : Window) (rq owner : Nat) : Bool :=
  w.any || [0, 1, 2, 3].any fun k =>
    (w.acl k).testBit 31 && fld (w.acl k) 23 12 == rq && fld (w.acl k) 11 0 == owner
/-- The status word of an open window (R185). -/
def Window.status (w : Window) : Word :=
  BitVec.ofNat 64 ((if w.rdy then 2 ^ 63 else 0) + w.err * 2 ^ 59 + 2 ^ 58 + w.cnt)
/-- The status word of a window that is not open (R420). -/
def statusNotOpen : Word := BitVec.ofNat 64 (7 * 2 ^ 59)
/-- The status word of window `w` of a core (R185, R420). -/
def Core.winStatus (c : Core) (w : Nat) : Word :=
  match SMap.find? c.windows w with
  | some x => x.status
  | none => statusNotOpen
/-- Whole bytes `off` to `off + n - 1` lie in the window. -/
def Window.holds (w : Window) (off n : Nat) : Bool := decide (w.base ≤ off) && decide (off + n ≤ w.base + w.len)
/-- The bytes of `off` to `off + n - 1` that lie in the window. -/
def Window.part (w : Window) (off n : Nat) : Nat := min (off + n) (w.base + w.len) - max off w.base
/-- The window counts `n` bytes (R187). -/
def Window.count (w : Window) (n : Nat) (skipped poisoned : Bool) : Window :=
  let cnt := min (w.cnt + n) 268435455
  { w with
    cnt := cnt
    rdy := w.rdy || decide (w.exp ≤ cnt)
    err := if w.err ≠ 0 then w.err else if skipped then 5 else if poisoned then 2 else 0 }
/-- Waiters of a window that is ready get its status as it stands at the end of the cycle (R188): those parked on window `w` of core
`c`, and those for whom it became ready in this cycle. Wakes of one cycle keep the order of their arrival (R290). -/
def State.wakeWindow (s : State) (c w : Nat) (status : Word) : State :=
  State.updCore { s with nextId := s.nextId + 1 } c fun k =>
    { k with slots := k.slots.map fun (sl, t) =>
        match t.st with
        | .parked (.window w' _ dst) =>
          if w' = w then (sl, { t with st := .parked (.windowDone w status dst), entered := s.cyc, orderSeq := s.nextId }) else (sl, t)
        | .parked (.windowDone w' old dst) =>
          if w' = w ∧ t.entered = s.cyc ∧ old.getLsbD 63 then (sl, { t with st := .parked (.windowDone w status dst) }) else (sl, t)
        | _ => (sl, t) }
/-- A window of a core is replaced; if it became ready its waiters are decided (R188). -/
def State.setWindow (s : State) (c w : Nat) (x : Window) : State :=
  let s := s.updCore c fun k => { k with windows := SMap.set k.windows w x }
  if x.rdy then s.wakeWindow c w x.status else s

/-- A counted write of the owning context: stored, and counted by the window that holds some of its bytes (R187, R246). The
pieces are those of one write, at most 8 bytes each where an engine makes it. -/
def State.countedWrite (s : State) (key c off n : Nat) (ps bad : List WPiece) : State :=
  let (s, skipped) := s.engineWrite key ps bad
  match List.find? (fun p => decide (0 < p.2.part off n)) (s.core c).windows with
  | none => s
  | some (w, x) => s.setWindow c w (x.count (x.part off n) skipped (!bad.isEmpty))

/-- A write that reaches the scratchpad only through window `w` (R187): `none` when it is not admitted. -/
def State.directWrite (s : State) (key c w off rq owner : Nat) (ps bad : List WPiece) (n : Nat) : Option State :=
  match SMap.find? (s.core c).windows w with
  | none => none
  | some x =>
    if x.admits rq owner && x.holds off n then
      let (s, skipped) := s.engineWrite key ps bad
      some (s.setWindow c w (x.count n skipped (!bad.isEmpty)))
    else none

/-- The pieces of at most 8 bytes of a run of bytes, split at multiples of 8 (R238). -/
def chunk8 (l : Loc) (bs : List Byte) : List WPiece :=
  (List.range ((l.off % 8 + bs.length + 7) / 8)).filterMap fun k =>
    let lo := max l.off (l.off / 8 * 8 + 8 * k)
    let hi := min (l.off + bs.length) (l.off / 8 * 8 + 8 * k + 8)
    if lo < hi then some (⟨l.core, lo⟩, hi - lo, leNat ((bs.drop (lo - l.off)).take (hi - lo))) else none

/-- The context has its scratchpads now (R325, R361). -/
def Context.present (c : Context) : Bool :=
  match c.phase with
  | .running => true
  | .saving _ => true
  | _ => false
/-- The context that a core of partition `p` serves now: that of its tasks, else the partition's running context. -/
def State.keyOfCore (s : State) (p core : Nat) : Nat :=
  match (s.core core).slots with
  | (_, k) :: _ => k.key
  | [] =>
    match List.find? (fun (c : Nat × Context) => c.1 / 128 == p && c.2.present) s.ctxs with
    | some c => c.1
    | none => ctxKey p 0

/-- A write arrives at a counting port (R187): a write of the owning context, or one that comes only through a window. -/
def execCountedWriteArrival (w : CWrite) (s : State) : Out :=
  match s.partOf w.core with
  | none => .fault .noSuchStep
  | some p =>
    let key := s.keyOfCore p w.core
    if w.direct then
      match SMap.find? (s.core w.core).windows w.win with
      | none => .next s
      | some x =>
        let ps := chunk8 ⟨some w.core, x.base + w.off⟩ w.bytes
        match s.directWrite key w.core w.win (x.base + w.off) w.rq w.owner ps (markedPieces ps (x.base + w.off) w.marks) w.bytes.length with
        | none => .next s
        | some s' => .next s'
    else
      let ps := chunk8 ⟨some w.core, w.off⟩ w.bytes
      .next (s.countedWrite key w.core w.off w.bytes.length ps (markedPieces ps w.off w.marks))

end Sys2Proof.Machine
end

