-- ==== Sys2Proof/Machine/Busy.lean ====
section
/-!
DEFINITION. Copy packets and collective blocks as records (R218, R221), the scratch bytes that engine writes still in progress
will write (R160), and the calendars as other engines read them (R254).
-/
namespace Sys2Proof.Machine

/-! ## Copy packets (R218) -/

/-- Bits of a copy packet. -/
def CopyPkt.f (p : CopyPkt) (hi lo : Nat) : Nat := fld p.rcd.toNat hi lo
/-- The source address. -/
def CopyPkt.src (p : CopyPkt) : Nat := p.f 63 0
/-- The destination address. -/
def CopyPkt.dest (p : CopyPkt) : Nat := p.f 127 64
/-- Bytes of a row. -/
def CopyPkt.len (p : CopyPkt) : Nat := p.f 159 128
/-- Rows. -/
def CopyPkt.rows (p : CopyPkt) : Nat := p.f 175 160 + 1
/-- The source of row `r`. -/
def CopyPkt.srcRow (p : CopyPkt) (r : Nat) : Nat :=
  (((p.src : Int) + (r : Int) * sextI (p.f 223 192) 32) % (2 ^ 64 : Nat)).toNat
/-- The destination of row `r`. -/
def CopyPkt.destRow (p : CopyPkt) (r : Nat) : Nat :=
  (((p.dest : Int) + (r : Int) * sextI (p.f 255 224) 32) % (2 ^ 64 : Nat)).toNat
/-- The booking and stage in which it runs. -/
def CopyPkt.handle (p : CopyPkt) : BitVec 32 := BitVec.ofNat 32 (p.f 287 256)
/-- R218. -/
def CopyPkt.stage (p : CopyPkt) : Nat := p.f 290 288
/-- The packet belongs to stage `n` of booking `h`. -/
def CopyPkt.inStage (p : CopyPkt) (h : BitVec 32) (n : Nat) : Bool := p.handle == h && p.stage == n
/-- Bytes of a unit (R257). -/
def unitBytes : Nat := 4096
/-- Units of one row. -/
def CopyPkt.perRow (p : CopyPkt) : Nat := (p.len + unitBytes - 1) / unitBytes
/-- Rows that the packet moves. -/
def CopyPkt.toMove (p : CopyPkt) : Nat := match p.rowLimit with
  | some n => min n p.rows
  | none => p.rows
/-- Offset and length of unit `k` within its row. -/
def CopyPkt.unit (p : CopyPkt) (k : Nat) : Nat × Nat :=
  let o := k % p.perRow * unitBytes
  (o, min unitBytes (p.len - o))
/-- No unit of the packet is left to move. -/
def CopyPkt.over (p : CopyPkt) : Bool := p.failed != 0 || decide (p.toMove * p.perRow ≤ p.nextUnit)
/-- Bytes that a packet has still to move. -/
def CopyPkt.left (p : CopyPkt) : Nat :=
  if p.over then 0 else p.toMove * p.len - (p.nextUnit / p.perRow * p.len + p.nextUnit % p.perRow * unitBytes)
/-- Cycles that so many bytes take on a copy engine (R257). -/
def copyCycles (n : Nat) : Nat := (n + Config.copyRate - 1) / Config.copyRate
/-- Cycles that the units from `k` on take that a packet has still to move; `fuel` bounds their number (R257). -/
def CopyPkt.cyclesFrom (p : CopyPkt) : Nat → Nat → Nat
  | 0, _ => 0
  | fuel + 1, k => if p.toMove * p.perRow ≤ k then 0 else copyCycles (p.unit k).2 + p.cyclesFrom fuel (k + 1)
/-- Cycles that the rest of a packet takes. -/
def CopyPkt.cyclesLeft (p : CopyPkt) : Nat := p.cyclesFrom (p.toMove * p.perRow - p.nextUnit) p.nextUnit
/-- Every packet that has been posted and has not completed. -/
def State.packets (s : State) : List CopyPkt := s.hts.flatMap fun h => h.2.copies
/-- The packets that satisfy `q` changed by `f`. -/
def State.updPackets (s : State) (q : CopyPkt → Bool) (f : CopyPkt → CopyPkt) : State :=
  { s with hts := s.hts.map fun (h : Nat × Hts) => (h.1, { h.2 with copies := h.2.copies.map fun p => if q p then f p else p }) }
/-- A location in the form of R166 names scratch. -/
def isScratchAddr (a : Nat) : Bool := a / 2 ^ 63 % 2 == 1
/-- The core and offset that a scratch address in the form of R166 names. -/
def scratchPlace (own a : Nat) : Option (Nat × Nat) :=
  if isScratchAddr a ∧ a % 2 ^ 63 / 2 ^ 32 = 0 then scratchMap own (a % 2 ^ 32) else none

/-! ## Collective blocks (R221) -/

/-- Bits of the block of a collective. -/
def Coll.f (c : Coll) (hi lo : Nat) : Nat := fld c.block.toNat hi lo
/-- The booking of the instance is one of this device. -/
def Coll.ownBooking (c : Coll) : Bool := c.booker == c.me
/-- An interval belongs to the booking of an instance: a booking of this device, or of another device of its fabric job (R254, R317). -/
def State.collInterval (s : State) (c : Coll) (i : Interval) : Bool :=
  i.handle == c.booked && (if c.ownBooking then i.dev == 0
    else i.dev == c.members.getD c.booker 0 + 1 && (match (s.ctx (ctxKey c.part c.fn)).job with
      | some j => i.job == j.job
      | none => false))
/-- The bytes of `COUNT` elements (R337). -/
def Coll.bytes (c : Coll) : Nat := c.f 159 128 * (Rec.of c.rcd).cw / 8
/-- The receive buffer's length (R337). -/
def Coll.rlen (c : Coll) : Nat :=
  let p := c.members.length
  let n := c.bytes / 64
  if c.f 195 192 = 2 ∨ c.f 195 192 = 4 then p * c.bytes
  else if c.f 195 192 = 1 then 64 * ((c.me + 1) * n / p - c.me * n / p)
  else c.bytes

/-! ## Tiles of a collective (R344, R345) -/

/-- Two runs of bytes meet. -/
def runsMeet (a n b m : Nat) : Bool := decide (0 < n) && decide (0 < m) && decide (a < b + m) && decide (b < a + n)
/-- Bytes of a tile. -/
def collTile : Nat := 4096
/-- Bytes that a run brings to a tile. -/
def tilePart (x : Xfer) (tile : Nat) : Nat := min (x.dst + x.len) (collTile * (tile + 1)) - max x.dst (collTile * tile)
/-- Bytes of a tile received in a step from a member. -/
def Coll.received (c : Coll) (step tile peer : Nat) : Nat :=
  ((c.tiles.find? fun t => t.1 == step && t.2.1 == tile && t.2.2.1 == peer).map (·.2.2.2)).getD 0
/-- Bytes of a tile expected in a step from a member (R345). -/
def Coll.expected (c : Coll) (step tile peer : Nat) : Nat :=
  ((c.plan[step]?.map (·.recvs)).getD []).foldl (fun n x => if x.peer = peer then n + tilePart x tile else n) 0
/-- What has not come from a member in a step is absent: the step is flushed, or the member has failed after a flush (R351). -/
def Coll.absent (c : Coll) (step peer : Nat) : Bool := match c.flushed with
  | some n => decide (step < n) || c.fmask.testBit peer
  | none => false
/-- The tile's ready flag for a step is set, or what has not come of it is absent (R345, R351). -/
def Coll.tileReady (c : Coll) (step tile peer : Nat) : Bool :=
  decide (c.expected step tile peer ≤ c.received step tile peer) || c.absent step peer
/-- A tile of `RBUF` holds its final bytes (R345): of `OP` 1, which copies its chunk at the end, none does. -/
def Coll.tileFinal (c : Coll) (tile : Nat) : Bool :=
  c.copied && c.f 195 192 != 1 && (((List.range c.plan.length).zip c.plan).all fun (i, st) => st.recvs.all fun x =>
    !runsMeet x.dst x.len (collTile * tile) collTile || c.tileReady i tile x.peer)
/-- Some tile that is not final meets `n` bytes of `RBUF` from an offset on (R160, R345). -/
def Coll.unsettledIn (c : Coll) (off n : Nat) : Bool :=
  (List.range (n / collTile + 2)).any fun i => runsMeet (collTile * (off / collTile + i)) collTile off n && !c.tileFinal (off / collTile + i)

/-! ## Writes in progress -/

/-- A counted write that has not performed will write some of these bytes (R134, R160). -/
def State.countedAhead (s : State) (c off n : Nat) : Bool :=
  s.flights.any fun f =>
    match f.op with
    | .cntSrc _ c' o | .cntStore c' o _ => c' == c && runsMeet off n o 256
    | _ => false
/-- A run of bytes of the scratchpad of core `c` lies where an engine or a counted write is still writing, or in a window that is not
ready (cause 4 of R160). -/
def State.notResident (s : State) (c off n : Nat) : Bool :=
  ((s.core c).windows.any fun w => !w.2.rdy && runsMeet off n w.2.base w.2.len)
  || s.countedAhead c off n
  || (s.hts.any fun h => h.2.copies.any fun p => (p.running.isSome || p.nextUnit != 0) &&
      (List.range p.rows).any fun r =>
        match scratchPlace p.core (p.destRow r) with
        | some (c', o) => c' == c && runsMeet off n o p.len
        | none => false)
  || (s.colls.any fun k => k.started &&
      match scratchPlace k.core (k.f 127 64) with
      | some (c', o) =>
        let lo := max off o
        c' == c && runsMeet off n o k.rlen && k.unsettledIn (lo - o) (min (off + n) (o + k.rlen) - lo)
      | none => false)

/-! ## Calendars -/

/-- The slot of a cycle (R2). -/
def State.slot (s : State) : Nat := s.cyc / 64
/-- The intervals of a calendar. -/
def State.cal (s : State) (c : Nat) : List Interval := SMap.get s.bu.cals [] c
/-- The interval holds slot `t`. -/
def Interval.at? (i : Interval) (t : Nat) : Bool := decide (i.start ≤ t) && decide (t < i.start + i.len)
/-- The interval belongs to booking `h` of this part. -/
def Interval.own (i : Interval) (h : BitVec 32) : Bool := i.dev == 0 && i.handle == h
/-- Matrix engines that hold an interval in slot `t` (R407). -/
def State.mxeHeld (s : State) (t : Nat) : Nat :=
  s.bu.cals.countP fun c => decide (c.1 < Config.nCores) && c.2.any fun i => i.at? t
/-- The admission limit is met in slot `t` (R407). -/
def State.limited (s : State) (t : Nat) : Bool :=
  match s.bu.limit with
  | none => false
  | some n => decide (n ≤ s.mxeHeld t)

end Sys2Proof.Machine
end

