-- ==== Sys2Proof/Machine/Matrix.lean ====
section
/-!
DEFINITION. Group `0x18` and the matrix engine (R138 to R165) with the arithmetic of R80 to R83: the checks at issue, the
queue, the moment at which a command starts, and what it does when it completes.
-/
namespace Sys2Proof.Machine

/-! ## Words and their operands -/

/-- `M = N` of a shape (R142). -/
def mxDim (o : MXC) : Nat := 32 * 2 ^ fld o.shp.toNat 3 2
/-- `K` of a shape (R142). -/
def mxDepth (o : MXC) : Nat := 32 * 2 ^ fld o.shp.toNat 1 0
/-- `M = N` of a command (R142). -/
def MxCmd.dim (c : MxCmd) : Nat := 32 * 2 ^ fld c.shp 3 2
/-- `K` of a command (R142). -/
def MxCmd.depth (c : MxCmd) : Nat := 32 * 2 ^ fld c.shp 1 0
/-- A register of a matrix word (R141). -/
def Env.mreg (e : Env) (n : BitVec 7) : Nat := (e.st.reg (n.toNat - 84)).toNat
/-- The format-table entry that a word selects (R47, R143). -/
def Env.fmtSel (e : Env) (o : MXC) : Nat :=
  if o.fsl.toNat = 1 then (e.task.fmtb.toNat + (e.st.loopCtr 1).cnt.toNat) % 16 else o.fsi.toNat
/-- The records of an entry; an entry never written holds three zero records (R76). -/
def Task.entryAt (k : Task) (n : Nat) : FmtEntry := SMap.get k.fmt ⟨0, 0, 0⟩ n
/-- An entry is empty (R76). -/
def FmtEntry.isEmpty (f : FmtEntry) : Bool := f == ⟨0, 0, 0⟩
/-- The stamp of a word: none when `SR` is `a0` (R141). -/
def Env.stamp (e : Env) (o : MXC) : Option Nat := if o.sr.toNat = 84 then none else some (e.mreg o.sr)

/-- Bytes of a tile of `n` elements of `cw` bits (R144). -/
def tileBytes (n cw : Nat) : Nat := n * cw / 8
/-- The bank group that holds a tile wholly (R145): 0 is A, 1 is B. -/
def bankGroup (a n : Nat) : Option Nat :=
  if a + n ≤ Config.groupB then some 0 else if Config.groupB ≤ a then some 1 else none

/-- What the checks of R143 need to know of a word: its tiles with their lengths, in the order `AA`, `BA`; whether it selects an
entry; the groups rule of R145; and the last Format check. -/
structure MxNeed where
  tiles : List (Nat × Nat)
  sel : Bool
  /-- the two tiles lie in different groups -/
  apart : Bool
  format : Bool

/-- The first address of a list that fails a test. -/
def firstAddr (as : List Nat) (bad : Nat → Bool) : Option Nat := as.find? bad

/-- The metadata record of `mmas` is valid for the shape (R149). -/
def metaValid (r m k : Nat) : Bool :=
  fld r 127 64 == 0 && fld r 55 48 == 0 && fld r 63 56 == 1 && fld r 47 40 == k / 4 && fld r 39 32 == m

/-- Checks 3 to 7 of R143 (check 1 is the decoder's, check 2 `issue`'s): `none` when the word passes. `md` is the address of the
metadata record with `M` and `K`. A poisoned metadata record raises the precise Memory Poison fault after the range of the record and
before the checks of what it names; R143 and R149 name no check for it (DESIGN CHOICE, assumption log 73). -/
def State.mxCheck (s : State) (e : Env) (empty : Bool) (need : MxNeed) (md : Option (Nat × Nat × Nat)) : Option Res :=
  let recAt := md.map (·.1)
  let addrs := need.tiles.map (·.1) ++ recAt.toList
  let readable := match md with
    | some (a, _, _) => localScratch a 16 && (s.firstPoison [⟨⟨some e.core, a⟩, 16, 0, a⟩]).isNone
    | none => false
  let r := match md with
    | some (a, _, _) => s.scratchNat e.core a 16
    | none => 0
  let tiles := need.tiles ++ (match md with
    | some (_, m, k) => if readable then [(fld r 31 0, m * k / 8)] else []
    | none => [])
  match firstAddr (addrs ++ (if readable then [fld r 31 0] else [])) fun a => a % 64 != 0 with
  | some a => some (.fault cAlignment a)
  | none =>
    if need.sel && empty then some (.fault cFormat 0)
    else
      match (need.tiles ++ recAt.toList.map fun a => (a, 16)).find? (fun (p : Nat × Nat) => !localScratch p.1 p.2) with
      | some p => some (.fault cRange p.1)
      | none =>
        match md with
        | some (a, _, _) =>
          if !readable then some (.fault cPoison a)
          else
            match tiles.find? (fun (p : Nat × Nat) => !localScratch p.1 p.2) with
            | some p => some (.fault cRange p.1)
            | none => rest tiles r
        | none => rest tiles r
where
  /-- Checks 6 and 7. -/
  rest (tiles : List (Nat × Nat)) (r : Nat) : Option Res :=
    let gs := tiles.map fun p => bankGroup p.1 p.2
    let clash :=
      match tiles.find? fun p => (bankGroup p.1 p.2).isNone with
      | some p => some p.1
      | none =>
        if need.apart && gs.getD 0 none == gs.getD 1 none then some ((tiles.getD 1 (0, 0)).1)
        else if md.isSome && gs.getD 2 none != gs.getD 0 none then some ((tiles.getD 2 (0, 0)).1)
        else none
    match clash with
    | some a => some (.fault cBankConflict a)
    | none =>
      if !need.format then some (.fault cFormat 0)
      else
        match md with
        | some (_, m, k) => if metaValid r m k then none else some (.fault cFormat 0)
        | none => none

/-- An `mfmt` to entry `n` has not landed (R156). -/
def State.entryPending (s : State) (e : Env) (n : Nat) : Bool :=
  s.flights.any fun f => f.ofTask e.core e.slot && (match f.op with
    | .fmt m _ => m == n
    | _ => false)

/-- The stage of the task's booking whose interval on this matrix engine holds a slot (R162). -/
def State.stageOf (s : State) (core : Nat) (h : BitVec 32) (slot : Nat) : Option Nat :=
  ((s.cal core).find? fun i => h != 0 && i.own h && i.at? slot).map (·.stage)

/-- A command enters the queue with its copies (R139, R140, R143, R160, R162). -/
def State.mxEnter (s : State) (e : Env) (op : Nat) (o : MXC) (f : FmtEntry) (md : BitVec 128) : Res :=
  let m := (s.core e.core).mxe
  if (m.live s.cyc).length ≥ 16 then .stall
  else
    let stamp := e.stamp o
    let c : MxCmd := {
      op := op, acc := o.acc.toNat, aa := e.mreg o.aa, ba := e.mreg o.ba, stamp := stamp, shp := o.shp.toNat,
      fmt := f, mdrec := md, idx := m.count.toNat, entered := s.cyc, ip := e.st.ip, flight := s.nextId, slot := e.slot,
      stage := stamp.bind fun t => s.stageOf e.core e.task.bhnd (t / 64) }
    .fly (s.updCore e.core fun k => { k with mxe := { m with queue := m.live s.cyc ++ [c], count := m.count + 1 } })
      { lat := 15, op := .matrix m.count.toNat }

/-- A matrix word that becomes a command. -/
def matrixOp (op : Nat) (sel : Bool) (need : Env → FmtEntry → MxNeed) (md : Bool) (h : Hdr) (o : MXC) (s : State) : Out :=
  issue h 15 {}
    (fun e s =>
      let n := e.fmtSel o
      if sel && s.entryPending e n then .stall
      else
        let f := if sel then e.task.entryAt n else ⟨0, 0, 0⟩
        let rec? := if md then some (e.mreg o.mr, mxDim o, mxDepth o) else none
        match s.mxCheck e f.isEmpty (need e f) rec? with
        | some r => r
        | none =>
          s.mxEnter e op o f (if md then BitVec.ofNat 128 (s.scratchNat e.core (e.mreg o.mr) 16) else 0)) s

/-- The container width of a record. -/
def cwOf (r : BitVec 128) : Nat := (Rec.of r).cw
/-- A record is valid as the A and the B operand, and the pair is of one class (R75, R147). -/
def FmtEntry.product (f : FmtEntry) : Bool := recOperand f.a false && recOperand f.b true && recPair f.a f.b

/-- `mma` (R146, R147). -/
def execMma (h : Hdr) (o : MXC) (s : State) : Out :=
  matrixOp 0 true (fun e f =>
    { tiles := [(e.mreg o.aa, tileBytes (mxDim o * mxDepth o) (cwOf f.a)), (e.mreg o.ba, tileBytes (mxDepth o * mxDim o) (cwOf f.b))],
      sel := true, apart := true, format := f.product }) false h o s
/-- `mmas` (R148, R149). -/
def execMmas (h : Hdr) (o : MXC) (s : State) : Out :=
  matrixOp 1 true (fun e f =>
    { tiles := [(e.mreg o.aa, tileBytes (mxDim o * mxDepth o / 2) (cwOf f.a)), (e.mreg o.ba, tileBytes (mxDepth o * mxDim o) (cwOf f.b))],
      sel := true, apart := true, format := f.product }) true h o s
/-- `mzero` (R151). -/
def execMzero (h : Hdr) (o : MXC) (s : State) : Out :=
  matrixOp 2 false (fun _ _ => { tiles := [], sel := false, apart := false, format := true }) false h o s
/-- `mdrn` (R152). -/
def execMdrn (h : Hdr) (o : MXC) (s : State) : Out :=
  matrixOp 3 true (fun e f =>
    { tiles := [(e.mreg o.aa, tileBytes (mxDim o * mxDim o) (cwOf f.o))], sel := true, apart := false, format := recValid f.o })
    false h o s
/-- `mldacc` (R153). -/
def execMldacc (h : Hdr) (o : MXC) (s : State) : Out :=
  matrixOp 4 false (fun e _ =>
    { tiles := [(e.mreg o.aa, tileBytes (mxDim o * mxDim o) 32)], sel := false, apart := false, format := true }) false h o s
/-- `mscale` (R154). -/
def execMscale (h : Hdr) (o : MXC) (s : State) : Out :=
  matrixOp 5 false (fun e _ => { tiles := [(e.mreg o.aa, 512)], sel := false, apart := false, format := true }) false h o s
/-- `mxpose` (R155). -/
def execMxpose (h : Hdr) (o : MXC) (s : State) : Out :=
  matrixOp 6 true (fun e f =>
    { tiles := [(e.mreg o.aa, tileBytes (mxDim o * mxDim o) (cwOf f.a)), (e.mreg o.ba, tileBytes (mxDim o * mxDim o) (cwOf f.a))],
      sel := true, apart := true, format := recOperand f.a false }) false h o s

/-- `mfmt` (R143, R156): the entry is written 8 cycles after issue. A poisoned word of the record block raises the precise Memory Poison
fault after the range check; R156 names no fault for it (DESIGN CHOICE, assumption log 73). -/
def execMfmt (h : Hdr) (o : MXC) (s : State) : Out :=
  issue h 15 {}
    (fun e s =>
      let a := e.mreg o.aa
      if s.entryPending e (e.fmtSel o) then .stall
      else if a % 16 ≠ 0 then .fault cAlignment a
      else if !localScratch a 48 then .fault cRange a
      else
        match s.firstPoison ((List.range 6).map fun k => ⟨⟨some e.core, a + 8 * k⟩, 8, 0, a + 8 * k⟩) with
        | some p => .fault cPoison p.name
        | none =>
          let v : FmtEntry := ⟨BitVec.ofNat 128 (s.scratchNat e.core a 16), BitVec.ofNat 128 (s.scratchNat e.core (a + 16) 16),
            BitVec.ofNat 128 (s.scratchNat e.core (a + 32) 16)⟩
          if v.product && recValid v.o then .fly s { lat := 8, op := .fmt (e.fmtSel o) v } else .fault cFormat 0) s

/-- `mwait` (R51, R157): it has observed what has landed. -/
def execMwait (h : Hdr) (o : MXC) (s : State) : Out :=
  issue h 15 {}
    (fun e s =>
      if ((s.core e.core).mxe.live s.cyc).countP (fun c => c.slot == e.slot) > o.shp.toNat then .stall
      else .done (s.updTask e.core e.slot fun k => k.updStr e.t fun x => x.observe true (s.landing e.core e.slot e.t)) none) s

/-! ## Lanes, conflicts and occupancy -/

/-- The command runs on the MAC lane (R139). -/
def MxCmd.mac (c : MxCmd) : Bool := c.op < 3
/-- The command names an accumulator (R141). -/
def MxCmd.usesAcc (c : MxCmd) : Bool := c.op < 5
/-- Two commands conflict (R139). -/
def MxCmd.conflicts (c d : MxCmd) : Bool :=
  (c.usesAcc && d.usesAcc && c.acc == d.acc) || (c.op == 5 && d.mac) || (d.op == 5 && c.mac)
/-- The command is running in a cycle. -/
def MxCmd.runs (c : MxCmd) (cyc : Nat) : Bool :=
  match c.running with
  | some t => decide (cyc ≤ t)
  | none => false
/-- Cycles in its lane (R159). -/
def MxCmd.span (c : MxCmd) : Nat :=
  let a := Rec.of c.fmt.a
  let b := Rec.of c.fmt.b
  let mma := if a.kind ≠ 0 then 2 * c.depth else if a.cw = 4 ∧ b.cw = 4 then c.depth / 2 else c.depth
  if c.op = 0 then mma
  else if c.op = 1 then mma / 2
  else if c.op = 2 ∨ c.op = 5 then 4
  else if c.op = 3 then max c.dim (c.dim * c.dim * cwOf c.fmt.o / 2048)
  else if c.op = 4 then max c.dim (c.dim * c.dim / 64)
  else max c.dim (c.dim * c.dim * cwOf c.fmt.a / 2048)
/-- The scratch bytes that a command reads (R144, R148, R149, R154). -/
def MxCmd.reads (c : MxCmd) : List (Nat × Nat) :=
  let sq := c.dim * c.dim
  let ab := c.dim * c.depth
  if c.op = 0 then [(c.aa, tileBytes ab (cwOf c.fmt.a)), (c.ba, tileBytes ab (cwOf c.fmt.b))]
  else if c.op = 1 then
    [(c.aa, tileBytes (ab / 2) (cwOf c.fmt.a)), (c.ba, tileBytes ab (cwOf c.fmt.b)), (fld c.mdrec.toNat 31 0, ab / 8)]
  else if c.op = 4 then [(c.aa, 4 * sq)]
  else if c.op = 5 then [(c.aa, 512)]
  else if c.op = 6 then [(c.aa, tileBytes sq (cwOf c.fmt.a))]
  else []

/-! ## Start (R160, R161) -/

/-- What happens to a command that is looked at. -/
inductive MxStart where
  | wait
  | go
  | miss (cause : Nat)
  | poison
deriving DecidableEq, Repr

/-- The task's booking holds an interval here that is present or to come (R161). -/
def State.holdsHere (s : State) (core : Nat) (h : BitVec 32) : Bool :=
  h != 0 && (s.cal core).any fun i => i.own h && decide (s.slot < i.start + i.len)
/-- The booking condition of an unstamped command (R161, R407). -/
def State.bookingAllows (s : State) (core : Nat) (h : BitVec 32) (span : Nat) : Bool :=
  if s.holdsHere core h then (s.cal core).any fun i => i.own h && i.at? s.slot
  else
    !s.limited s.slot &&
      !(s.cal core).any fun i => decide (i.start * 64 < s.cyc + span) && decide (s.cyc < (i.start + i.len) * 64)
/-- Some byte the command reads is not there yet (cause 4). -/
def State.mxAbsent (s : State) (core : Nat) (c : MxCmd) : Bool := c.reads.any fun p => s.notResident core p.1 p.2
/-- A command that may start reads poison (R163). -/
def State.mxPoisoned (s : State) (core : Nat) (c : MxCmd) : Bool := c.reads.any fun p => s.isPoisoned ⟨some core, p.1⟩ p.2
/-- The command at hand with the commands before it in the queue (R160, R161). -/
def State.mxTry (s : State) (core : Nat) (before : List MxCmd) (c : MxCmd) : MxStart :=
  let h := match s.task? core c.slot with
    | some k => k.bhnd
    | none => 0
  let gone := match s.task? core c.slot with
    | some k => k.ending.isSome
    | none => false
  let behind := before.any fun d => d.running.isNone
  let busy := before.any fun d => d.runs s.cyc && (d.conflicts c || d.mac == c.mac)
  if gone || (s.core core).quiet || (s.core core).waits then .wait
  else match c.stamp with
  | some t =>
    if s.cyc ≤ c.entered ∨ s.cyc < t then .wait
    else if t < c.entered + 4 ∨ t < s.cyc then .miss 1
    else if behind || busy then .miss 2
    else if h = 0 ∨ !((s.cal core).any fun i => i.own h && i.at? (t / 64)) then .miss 3
    else if s.mxAbsent core c then .miss 4
    else if s.mxPoisoned core c then .poison
    else .go
  | none =>
    if s.cyc < c.entered + 4 || behind || busy || !s.bookingAllows core h c.span then .wait
    else if s.mxAbsent core c then .miss 4
    else if s.mxPoisoned core c then .poison
    else .go
/-- The first command of the queue with something to do now. -/
def State.mxNext (s : State) (core : Nat) : List MxCmd → List MxCmd → Option (List MxCmd × MxCmd × MxStart × List MxCmd)
  | _, [] => none
  | before, c :: rest =>
    if c.running.isSome then s.mxNext core (before ++ [c]) rest
    else
      match s.mxTry core before c with
      | .wait => s.mxNext core (before ++ [c]) rest
      | r => some (before, c, r, rest)

/-- The faulting command and every later one leave the queue without effect (R163). -/
def State.mxDiscard (s : State) (core : Nat) (before : List MxCmd) (gone : List MxCmd) : State :=
  let s := s.updCore core fun k => { k with mxe := { k.mxe with queue := before } }
  gone.foldl (fun s c =>
    match s.flights.find? fun f => f.id == c.flight with
    | none => s
    | some f => { (s.updTask f.core f.slot fun k => k.drop f) with flights := s.flights.filter fun g => g.id != f.id }) s
/-- A command has found every poisoned word among the bytes that it reads (R163, R314). -/
def State.mxFound (s : State) (core : Nat) (c : MxCmd) : State :=
  let key := match s.task? core c.slot with
    | some t => t.key
    | none => 0
  { s with found := s.found ++
      ((s.core core).poison.filter fun u => c.reads.any fun p => decide (8 * u < p.1 + p.2) && decide (p.1 < 8 * u + 8)).map fun u =>
        { key := key, core := core, loc := some ⟨some core, 8 * u⟩ } }
/-- The trap of a matrix command (R163, R386). -/
def State.mxTrap (s : State) (core : Nat) (c : MxCmd) (cause estat : Nat) : State :=
  s.raise core c.slot
    { cause := cause, ip := c.ip, strand := .X, prec := 1, ecmd := c.idx, estat := estat, eid := core, resume := .asIs }
/-- The elements of its shape become undefined (R163). -/
def State.mxUndefine (s : State) (core : Nat) (c : MxCmd) : State :=
  if !c.usesAcc || c.op == 3 then s
  else
    let upd (r : RFile) : RFile :=
      (List.range c.dim).foldr (fun i r => (List.range c.dim).foldr (fun j r =>
        r.write (128 * i + j) (Config.freeValue 32 (s.fresh + 128 * i + j))) r) r
    let s' := s.updCore core fun k =>
      { k with mxe := if c.acc = 0 then { k.mxe with acc0 := upd k.mxe.acc0 } else { k.mxe with acc1 := upd k.mxe.acc1 } }
    { s' with fresh := s.fresh + 16384 }
/-- A command starts: its operands as they stand are kept for the choice of R165, and a slot that an unbooked command takes is
marked (R161). -/
def State.mxGo (s : State) (core : Nat) (before : List MxCmd) (c : MxCmd) (rest : List MxCmd) : State :=
  let fin := s.cyc + c.span - 1
  let snap := (s.core core).scratch.filter fun b => c.reads.any fun p => decide (p.1 ≤ b.1) && decide (b.1 < p.1 + p.2)
  let s' := s.updCore core fun k =>
    { k with mxe := { k.mxe with queue := before ++ { c with running := some fin, snap := snap } :: rest } }
  if (s.cal core).any (fun i => i.at? s.slot) then s'
  else { s' with bu := { s'.bu with marks := s'.bu.marks ++ [(core, s.slot, fin / 64)] } }

/-- A queued command starts, or faults (R160, R161, R163). -/
def execMatrixCommandStart (core : Nat) (s : State) : Out :=
  match s.mxNext core [] (s.core core).mxe.queue with
  | none => .fault .noSuchStep
  | some (before, c, r, rest) =>
    match r with
    | .wait => .fault .noSuchStep
    | .go => .next (s.mxGo core before c rest)
    | .miss n => .next ((s.mxDiscard core before (c :: rest)).mxTrap core c cScheduleMiss n)
    | .poison => .next ((((s.mxFound core c).mxUndefine core c).mxDiscard core before (c :: rest)).mxTrap core c cMatrixPoison 0)

/-! ## Completion -/

/-- A byte that the command reads: where a store changed it during the occupancy, the old or the new granule (R165). -/
def mxByte (fresh : Nat) (old cur : Mem) (a : Nat) : Byte :=
  let x := Mem.get old a
  let y := Mem.get cur a
  if x = y then y else if Config.freeBool (fresh + a / 8) then y else x
/-- Container `n`, `cw` bits wide, of a tile (R71, R144). -/
def container (rd : Nat → Byte) (base cw n : Nat) : Nat :=
  if cw = 4 then ((rd (base + n / 2)).toNat >>> (4 * (n % 2))) % 16
  else leNat ((List.range (cw / 8)).map fun k => rd (base + n * (cw / 8) + k))
/-- Element `k` of accumulator `n` of an engine. -/
def Mxe.acc (m : Mxe) (n : Nat) : RFile := if n = 0 then m.acc0 else m.acc1
/-- An accumulator replaced. -/
def Mxe.setAcc (m : Mxe) (n : Nat) (r : RFile) : Mxe := if n = 0 then { m with acc0 := r } else { m with acc1 := r }
/-- An element of a scale vector: 0 `SVAR`, 1 `SVBC`, 2 `SVOR`, 3 `SVOC` (R138). -/
def Mxe.scaleAt (m : Mxe) (v i : Nat) : Val := fp32.decode (m.scale.read 32 0x3F800000 (128 * v + i)).toNat 0
/-- The A or B factor of R79. -/
def Mxe.factor (m : Mxe) (r : Rec) (v i : Nat) : Val := if 2 ≤ r.scm then m.scaleAt v i else r.tensorFactor
/-- The output factor of R79. -/
def Mxe.outFactor (m : Mxe) (r : Rec) (i j : Nat) : Val × BitVec 3 :=
  if r.scm = 2 then (m.scaleAt 2 i, 0)
  else if r.scm = 3 then (m.scaleAt 3 j, 0)
  else if r.scm = 4 then (m.scaleAt 2 i).mulScale (m.scaleAt 3 j)
  else (r.tensorFactor, 0)

/-- What a chunk has summed up so far (R80): the finite sum, and which special products it met. -/
structure Chunk where
  sum : Exact := ⟨0, 1, 0⟩
  nan : Bool := false
  pos : Bool := false
  neg : Bool := false
  inv : BitVec 3 := 0
/-- One product added to a chunk (R80). -/
def Chunk.step (t : Chunk) (a b : Val) : Chunk :=
  let (x, f1) := a.read
  let (y, f2) := b.read
  let (p, f3) := x.mul y
  let t := { t with inv := t.inv ||| f1 ||| f2 ||| f3 }
  match p with
  | .num _ v => { t with sum := t.sum.add v }
  | .inf n => if n then { t with neg := true } else { t with pos := true }
  | _ => { t with nan := true }
/-- The value of a chunk (R80). -/
def Chunk.val (t : Chunk) : Val × BitVec 3 :=
  let fl := t.inv ||| (if t.pos && t.neg then 1 else 0)
  if t.nan || (t.pos && t.neg) then (.nan, fl)
  else if t.pos then (.inf false, fl)
  else if t.neg then (.inf true, fl)
  else (.num (decide (t.sum.n < 0)) t.sum, fl)
/-- A chunk scaled, rounded and added to an accumulator element (R80). -/
def chunkInto (acc : Nat) (fa fb : Val) (t : Chunk) : Nat × BitVec 3 :=
  let (v, f1) := t.val
  let (v, f2) := v.mulScale fa
  let (v, f3) := v.mulScale fb
  let v := match v with
    | .num n x => if x.n = 0 then .num false x else .num n x
    | v => v
  let (c, f4) := round32 0 v
  let (r, f5) := fpSum fp32 0 acc c false
  (r, f1 ||| f2 ||| f3 ||| f4 ||| f5)
/-- One element on the floating path: `prods` are the pairs of operands of each chunk (R80). -/
def floatElem (acc : Nat) (fa fb : Val) (chunks : List (List (Val × Val))) : Nat × BitVec 3 :=
  chunks.foldl (fun (r : Nat × BitVec 3) ps =>
    let (x, f) := chunkInto r.1 fa fb (ps.foldl (fun t p => t.step p.1 p.2) {})
    (x, r.2 ||| f)) (acc, 0)
/-- The integer that a code stands for on the integer path (R70, R81). -/
def Val.int : Val → Int × BitVec 3
  | .num _ x => (x.floor, 0)
  | .reserved => (0, 1)
  | _ => (0, 0)
/-- One element on the integer path (R81). -/
def intElem (acc : Nat) (chunks : List (List (Val × Val))) : Nat × BitVec 3 :=
  let (s, f) := (chunks.flatMap id).foldl (fun (r : Int × BitVec 3) p =>
    (r.1 + p.1.int.1 * p.2.int.1, r.2 ||| p.1.int.2 ||| p.2.int.2)) ((acc : Int), (0 : BitVec 3))
  ((s % (2 ^ 32 : Nat)).toNat, f)
/-- The entry meets the integer-path condition (R80). -/
def FmtEntry.isInt (f : FmtEntry) : Bool := (Rec.of f.a).isInt && (Rec.of f.b).isInt

/-- The kept positions of group `g` of row `i`, and whether the nibble is reserved (R149, R150). -/
def metaNibble (rd : Nat → Byte) (base i k g : Nat) : Nat × Nat × Bool :=
  let n := ((rd (base + i * k / 8 + g / 2)).toNat >>> (4 * (g % 2))) % 16
  (n % 4, n / 4, decide (n / 4 ≤ n % 4))
/-- The operands of one element: its chunks of pairs, dense index `k` rising (R80, R144, R148). -/
def MxCmd.pairs (c : MxCmd) (rd : Nat → Byte) (i j : Nat) : List (List (Val × Val)) :=
  let ra := Rec.of c.fmt.a
  let rb := Rec.of c.fmt.b
  let len := if ra.kind = 0 then 32 else 16
  let b (k : Nat) : Val := rb.decode (container rd c.ba rb.cw (k * c.dim + j))
  let a (col : Nat) : Val := ra.decode (container rd c.aa ra.cw (col * c.dim + i))
  (List.range (c.depth / len)).map fun ch =>
    if c.op = 0 then (List.range len).map fun k => (a (ch * len + k), b (ch * len + k))
    else
      (List.range (len / 4)).flatMap fun q =>
        let g := ch * (len / 4) + q
        let (lo, hi, bad) := metaNibble rd (fld c.mdrec.toNat 31 0) i c.depth g
        if bad then [(.reserved, b (4 * g + lo)), (.reserved, b (4 * g + hi))]
        else [(a (2 * g), b (4 * g + lo)), (a (2 * g + 1), b (4 * g + hi))]
/-- One element of a product (R146, R148). -/
def MxCmd.product (c : MxCmd) (m : Mxe) (rd : Nat → Byte) (i j : Nat) : Nat × BitVec 3 :=
  let acc := ((m.acc c.acc).read 32 0 (128 * i + j)).toNat
  if c.fmt.isInt then intElem acc (c.pairs rd i j)
  else floatElem acc (m.factor (Rec.of c.fmt.a) 0 i) (m.factor (Rec.of c.fmt.b) 1 j) (c.pairs rd i j)
/-- One element of a drain (R82, R152). -/
def MxCmd.drain (c : MxCmd) (m : Mxe) (i j : Nat) : Nat × BitVec 3 :=
  let x := ((m.acc c.acc).read 32 0 (128 * i + j)).toNat
  let r := Rec.of c.fmt.o
  let v : Val := if c.fmt.isInt then Val.ofExact (Exact.ofInt (sextI x 32)) else fp32.decode x 0
  let (f, f1) := m.outFactor r i j
  let (w, f2) := if r.scm = 0 then (v, 0) else v.divScale f
  let (code, f3) := r.f.encode 0 r.sat w
  (code, f1 ||| f2 ||| f3)

/-- Elements `f i j` written into an accumulator. -/
def RFile.fill (r : RFile) (dim : Nat) (f : Nat → Nat → Nat) : RFile :=
  (List.range dim).foldr (fun i r => (List.range dim).foldr (fun j r =>
    r.write (128 * i + j) (BitVec.ofNat 32 (f i j))) r) r
/-- All flags of the elements. -/
def allFlags (dim : Nat) (f : Nat → Nat → BitVec 3) : BitVec 3 :=
  (List.range dim).foldl (fun a i => (List.range dim).foldl (fun a j => a ||| f i j) a) 0
/-- A row of containers as bytes. -/
def rowBytes (cw dim : Nat) (f : Nat → Nat) : List Byte :=
  leBytes ((List.range dim).foldr (fun j n => f j + 2 ^ cw * n) 0) (dim * cw / 8)
/-- A tile written row by row (R144): its pieces of at most 8 bytes. -/
def tilePieces (core base cw dim : Nat) (f : Nat → Nat → Nat) : List WPiece :=
  (List.range dim).flatMap fun i => chunk8 ⟨some core, base + i * dim * cw / 8⟩ (rowBytes cw dim (f i))

/-- What a command does (R146 to R155): the engine after it, the bytes it writes and the flags it sets. -/
def MxCmd.effect (c : MxCmd) (core : Nat) (m : Mxe) (rd : Nat → Byte) : Mxe × List WPiece × BitVec 3 :=
  if c.op ≤ 1 then
    (m.setAcc c.acc ((m.acc c.acc).fill c.dim fun i j => (c.product m rd i j).1), [],
      allFlags c.dim fun i j => (c.product m rd i j).2)
  else if c.op = 2 then (m.setAcc c.acc {}, [], 0)
  else if c.op = 3 then
    (m, tilePieces core c.aa (cwOf c.fmt.o) c.dim fun i j => (c.drain m i j).1, allFlags c.dim fun i j => (c.drain m i j).2)
  else if c.op = 4 then
    (m.setAcc c.acc ((m.acc c.acc).fill c.dim fun i j => container rd c.aa 32 (i * c.dim + j)), [], 0)
  else if c.op = 5 then
    ({ m with scale := (List.range 128).foldr (fun i r => r.write (128 * c.shp + i) (BitVec.ofNat 32 (container rd c.aa 32 i))) m.scale },
      [], 0)
  else
    let cw := cwOf c.fmt.a
    (m, tilePieces core c.ba cw c.dim fun j i => container rd c.aa cw (i * c.dim + j), 0)

/-- What a command writes to scratch performs at its completion, as a store of `X` in class 0 (R165), in the engine's place among the
writes of the cycle (R297). -/
def State.mxWrite (s : State) (core : Nat) (c : MxCmd) (ps : List WPiece) : State :=
  if ps.isEmpty then s
  else
    { s with
      flights := s.flights ++ [{ id := s.nextId, core := core, slot := c.slot, strand := .X, ip := c.ip, issued := c.entered, due := s.cyc
                                 dst := 15, tagd := false, tal := 0, sig := 0, acc := true, op := .mxStore ps }]
      nextId := s.nextId + 1 }
/-- A running command completes: its effect is visible, its flags are set, its token is visible and its tag free (R83, R158,
R165); it leaves the queue in the next cycle (R157). -/
def State.mxComplete (s : State) (core : Nat) (c : MxCmd) : State :=
  let k := s.core core
  let (m, ps, fl) := c.effect core k.mxe (mxByte s.fresh c.snap k.scratch)
  let m := { m with queue := m.queue.map fun d => if d.idx = c.idx then { d with done := true } else d }
  let s := { (s.updCore core fun k => { k with mxe := m }) with fresh := s.fresh + Config.scratchBytes / 8 }
  let s := s.mxWrite core c ps
  let s := s.setStat core c.slot fl
  match s.flights.find? fun f => f.id == c.flight with
  | none => s
  | some f => s.finish f
/-- The command read a word that was poisoned during its occupancy: a granule written meanwhile is read as it was or as it is, by the same
choice as its bytes (`mxByte`; R163, R165). -/
def State.mxMetPoison (s : State) (core : Nat) (c : MxCmd) : Bool :=
  c.reads.any fun p => (s.core core).poison.any fun u => runsMeet (8 * u) 8 p.1 p.2 && Config.freeBool (s.fresh + u)
/-- A running matrix command completes (R158), or has read poison and faults (R163). -/
def execMatrixCommandComplete (core idx : Nat) (s : State) : Out :=
  let q := (s.core core).mxe.queue
  match q.find? fun c => c.idx == idx && !c.done && (match c.running with
      | some t => decide (t ≤ s.cyc)
      | none => false) with
  | none => .fault .noSuchStep
  | some c =>
    if s.mxMetPoison core c then
      .next ((((s.mxFound core c).mxUndefine core c).mxDiscard core (q.takeWhile fun d => d.idx != idx)
        (q.dropWhile fun d => d.idx != idx)).mxTrap core c cMatrixPoison 0)
    else .next (s.mxComplete core c)

/-- The command that is due to complete on a core. -/
def Core.mxDue (k : Core) (cyc : Nat) : Option Nat :=
  (k.mxe.queue.find? fun c => !c.done && (match c.running with
    | some t => decide (t ≤ cyc)
    | none => false)).map (·.idx)
/-- Some lane of the engine runs in a cycle (R381). -/
def Core.mxRunning (k : Core) (cyc : Nat) : Option Nat := (k.mxe.queue.find? fun c => c.runs cyc).map (·.slot)

end Sys2Proof.Machine
end

