-- ==== Sys2Proof/Machine/Sync.lean ====
section
/-!
DEFINITION. Groups `0x22`, `0x23` and `0x25`: fences (R174 to R177), barrier words (R178 to R183), landing windows (R184 to R189)
and gates (R199 to R203, R375 to R378).
-/
namespace Sys2Proof.Machine

/-! ## Operands in the own scratchpad (R167) -/

/-- The address of register `n` of the strand. -/
def Env.sreg (e : Env) (n : BitVec 7) : Word := e.st.reg (n.toNat - 84)
/-- Own accesses to a record that have not performed hold its reading back (R237). -/
def State.unsettled (s : State) (e : Env) (c off n : Nat) : Bool := s.mustWait e 16 [⟨⟨some c, off⟩, n, 0, off⟩]
/-- The checks of a scratch operand in the own window: alignment, then range (R167, R169). -/
def ownChecks (a : Word) (n align : Nat) (k : Res) : Res :=
  if a.toNat % align ≠ 0 then .fault cAlignment a.toNat
  else if !ownScratch a n then .fault cRange a.toNat
  else k
/-- The reading of a record of `n` bytes: waits for own pending stores to it; poison faults at the word (R169). -/
def State.withRecord (s : State) (e : Env) (a n : Nat) (k : Nat → Res) : Res :=
  if s.unsettled e e.core a n then .stall
  else
    match s.firstPoison ((List.range (n / 8)).map fun i => ⟨⟨some e.core, a + 8 * i⟩, 8, 0, a + 8 * i⟩) with
    | some p => .fault cPoison p.name
    | none => k (s.scratchNat e.core a n)
/-- A result of latency 15 for a scalar register. -/
def result15 (s : State) (d : BitVec 7) (v : Word) : Res := .fly s { lat := 15, op := .scalar d.toNat v }

/-! ## Fences -/

/-- The class mask and scope of a fence (R174). -/
def fenceMask (o : SYS) : Nat := fld o.imm.toNat 15 0
/-- R174. -/
def fenceScope (o : SYS) : Nat := fld o.imm.toNat 18 16
/-- `fence` (R175). -/
def execFence (h : Hdr) (o : SYS) (s : State) : Out :=
  issue h 15 {}
    (fun e s => .block (s.clamp e (fenceScope o)) { lat := 15, op := .fence (fenceMask o) (e.task.scope (fenceScope o)).1 none }) s

/-- A remote store awaits its acknowledgement. -/
def FarReq.isStore (r : FarReq) : Bool :=
  match r.kind with
  | .store _ => true
  | _ => false
/-- The stores of a task that a `fence.ack` issued in cycle `cyc` waits for (R176). -/
def State.openStores (s : State) (key n sl ser cmask cyc : Nat) : List FarReq :=
  (s.ctx key).far.filter fun r => r.isStore && r.awaited n sl ser cmask cyc
/-- `FSTAT` with status, device and the four path counts (R30). -/
def fstatWord (st dev : Nat) (open_ : List FarReq) : Word :=
  let pc (i : Nat) : Nat := min 4095 (open_.countP fun r => r.route == i)
  BitVec.ofNat 64 (st * 2 ^ 60 + dev * 2 ^ 48 + pc 3 * 2 ^ 36 + pc 2 * 2 ^ 24 + pc 1 * 2 ^ 12 + pc 0)
/-- `fence.ack` (R176). -/
def execFenceAck (h : Hdr) (o : SYS) (s : State) : Out :=
  issue h 15 {}
    (fun e s =>
      let a := e.sreg o.a
      let go : Res :=
        let s := s.clamp e (fenceScope o)
        let s := s.updTask e.core e.slot fun k =>
          { k with fstat := fstatWord 1 0 (s.openStores k.key e.core e.slot k.ser (fenceMask o) s.cyc) }
        .block s { lat := 15,
                   op := .fence (fenceMask o) (e.task.scope (fenceScope o)).1 (some (if o.a.toNat = 84 then 0 else a.toNat + 1)) }
      if o.a.toNat = 84 then go else ownChecks a 512 64 go) s
/-- The counts of a waiting `fence.ack` follow the stores still open (R176). -/
def State.refreshFstat (s : State) (n sl : Nat) : State :=
  match s.flights.find? fun f => f.ofTask n sl && (match f.op with
      | .fence _ _ (some _) => true
      | _ => false) with
  | none => s
  | some f =>
    match f.op with
    | .fence m _ _ =>
      s.updTask n sl fun k => { k with fstat := fstatWord 1 0 (s.openStores k.key n sl k.ser m f.issued) }
    | _ => s
/-- The link timeout of a context in cycles (R329). -/
def Context.linkTimeout (c : Context) : Nat := match c.job with
  | some j => j.tmoMs * Config.slotsPerMs * 64
  | none => Config.slotsPerMs * 64
/-- A `fence.ack` whose own accesses have performed and for which every open store has passed the link timeout (R176). -/
def State.fenceTimedOut (s : State) (f : Flight) : Bool :=
  match f.op, s.task? f.core f.slot with
  | .fence m _ (some _), some k =>
    let c := s.ctx k.key
    let open_ := s.openStores k.key f.core f.slot k.ser m f.issued
    s.fenceDone f m false && decide (f.due ≤ s.cyc) && !open_.isEmpty
    && !(s.flights.any fun g => g.ofTask f.core f.slot && decide (g.issued < f.issued) && m.testBit g.cls && (match g.op with
        | .fstSrc _ _ _ => true
        | _ => false))
    && open_.all (fun r => decide (r.sent + c.linkTimeout ≤ s.cyc))
    && !(c.far.any fun r => !r.isStore && r.awaited f.core f.slot k.ser m f.issued)
  | _, _ => false
/-- A `fence.ack` ends with Failed Peer: `FSTAT`, and the mask of devices if one is asked for (R176). -/
def execFenceAckTimeout (id : Nat) (s : State) : Out :=
  match s.flights.find? fun f => f.id == id with
  | none => .fault .noSuchStep
  | some f =>
    if !s.fenceTimedOut f then .fault .noSuchStep
    else
      match f.op, s.task? f.core f.slot with
      | .fence m _ (some a), some k =>
        let open_ := s.openStores k.key f.core f.slot k.ser m f.issued
        let devs := open_.map (·.dev)
        let lowest := devs.foldl min 4095
        let s := s.updTask f.core f.slot fun k => { k with fstat := fstatWord 2 lowest open_ }
        let mask := (List.range 4096).foldr (fun d n => (if devs.contains d then 1 else 0) + 2 * n) 0
        let s := if a = 0 then s
          else (s.engineWrite k.key (chunk8 ⟨some f.core, a - 1⟩ (leBytes mask 512))).1
        .next (s.finish f)
      | _, _ => .fault .noSuchStep

/-! ## Barrier words -/

/-- The checks of a barrier word's address: alignment, then a mapped scratchpad of the partition (R167, R179). -/
def State.barAddr (s : State) (e : Env) (a : Word) (k : Loc → Res) : Res :=
  if a.toNat % 16 ≠ 0 then .fault cAlignment a.toNat
  else if a.toNat ≥ 2 ^ 32 then .fault cRange a.toNat
  else
    match s.scratchAt e.core e.task.part a.toNat 16 with
    | none => .fault cRange a.toNat
    | some l => if s.mustWait e 16 [⟨l, 16, 0, a.toNat⟩] then .stall
                else if s.isPoisoned l 16 then .fault cPoison a.toNat else k l
/-- `barinit` (R179). -/
def execBarinit (h : Hdr) (o : SYS) (s : State) : Out :=
  issue h 15 {}
    (fun e s => s.barAddr e (e.sreg o.a) fun l =>
      let v := s.readLoc l 16
      if s.barReg l then result15 s o.b 1
      else if fld v 126 120 ≠ 0 ∨ fld v 79 60 ≠ 0 ∨ fld v 31 28 ≠ 0 ∨ (fld v 87 80 = 0 ∧ fld v 27 0 = 0) then result15 s o.b 2
      else
        let w := fld v 27 0 + 2 ^ 32 * fld v 27 0 + 2 ^ 80 * fld v 87 80 + 2 ^ 127
        match l.core with
        | none => .stall
        | some c =>
          result15 ((s.barPut l w).updCore c fun k => { k with bars := NSet.add k.bars l.off }) o.b 0) s
/-- `barwait` (R181). -/
def execBarwait (h : Hdr) (o : SYS) (s : State) : Out :=
  issue h 15 {} (fun e s => s.barAddr e (e.sreg o.a) fun l => .block s { lat := 1, op := .barArrive l false o.b.toNat }) s
/-- `barwait.nw` (R181). -/
def execBarwaitNw (h : Hdr) (o : SYS) (s : State) : Out :=
  issue h 15 {} (fun e s => s.barAddr e (e.sreg o.a) fun l => .fly s { lat := 1, op := .barArrive l true o.b.toNat }) s
/-- `barwait.na` (R181). -/
def execBarwaitNa (h : Hdr) (o : SYS) (s : State) : Out :=
  issue h 15 {}
    (fun e s => s.barAddr e (e.sreg o.a) fun l =>
      .block s { lat := 15, op := .barWait l ((e.sreg o.b).toNat % 65536) false o.b.toNat }) s
/-- The result of a wait on a word that is not registered, or is freed: bit 63 and `ERR` bit 1 (R181, R183). -/
def barFreed (v : Nat) : Word := barResult v true ||| BitVec.ofNat 64 (2 ^ 17)
/-- `barfree` (R183). -/
def execBarfree (h : Hdr) (o : SYS) (s : State) : Out :=
  issue h 15 {}
    (fun e s => s.barAddr e (e.sreg o.a) fun l =>
      if !s.barReg l then result15 s o.b 1
      else
        let waits (f : Flight) : Bool := match f.op with
          | .barWait l' _ _ _ => l' == l
          | _ => false
        let v := setFld (s.readLoc l 16) 127 127 0
        let v := if s.flights.any waits then setFld v 113 113 1 else v
        let s := s.barPut l v
        let s := match l.core with
          | none => s
          | some c => s.updCore c fun k => { k with bars := NSet.del k.bars l.off }
        let s := { s with flights := s.flights.map fun (f : Flight) =>
          match f.op with
          | .barWait l' _ _ d => if l' = l then { f with op := .scalar d (barFreed v) } else f
          | _ => f }
        result15 s o.b 0) s
/-- An arrival performs (R181): the result of a word that does not wait, or the wait for its phase. -/
def State.landArrival (s : State) (f : Flight) (l : Loc) (nowait : Bool) (dst : Nat) : State :=
  let v := s.readLoc l 16
  let due := max s.cyc (f.issued + 15 + Config.extraLatency s.fresh)
  let put (s : State) (op : FOp) : State :=
    { s with
      fresh := s.fresh + 1
      flights := s.flights.map fun (g : Flight) => if g.id = f.id then { g with op := op, due := due } else g }
  if !s.barReg l then put s (.scalar dst (barFreed v))
  else
    let ph := s.barPhase l
    let s := s.barArrival l
    if nowait then put s (.scalar dst (barResult v false)) else put s (.barWait l ph true dst)
/-- A wait is over: with the phase after the one arrived in, or the present one (R181). -/
def State.landWait (s : State) (f : Flight) (l : Loc) (ph : Nat) (arrived : Bool) (dst : Nat) : State :=
  let v := s.readLoc l 16
  let r := if !s.barReg l then barFreed v
    else if arrived then barResult (setFld v 111 96 (ph + 1)) false
    else barResult v false
  (s.updTask f.core f.slot fun k => k.landScalar .C dst r).finish f

/-! ## Landing windows -/

/-- A descriptor is valid for a window that is not open (R184, R186). -/
def Core.windowOk (c : Core) (w d : Nat) : Bool :=
  let base := fld d 31 0
  let len := fld d 52 32
  (SMap.find? c.windows w).isNone && fld d 63 53 == 0 && fld d 95 92 == 0 && fld d 127 113 == 0
  && ([0, 1, 2, 3].all fun k => fld d (158 + 32 * k) (152 + 32 * k) == 0)
  && base % 64 == 0 && len % 64 == 0 && decide (64 ≤ len) && decide (len ≤ 1572864) && decide (base + len ≤ Config.scratchBytes)
  && !(c.windows.any fun p => runsMeet base len p.2.base p.2.len)
/-- `lwin` (R186). -/
def execLwin (h : Hdr) (o : SYS) (s : State) : Out :=
  issue h 15 {}
    (fun e s =>
      let a := e.sreg o.a
      let w := fld o.imm.toNat 5 0
      ownChecks a 32 32 <|
        if s.unsettled e e.core a.toNat 32 then .stall
        else
          let d := s.scratchNat e.core a.toNat 32
          if !(s.core e.core).windowOk w d then .fault cWindow 0
          else s.withRecord e a.toNat 32 fun d =>
            .done (s.updCore e.core fun c =>
              { c with windows := SMap.set c.windows w ⟨BitVec.ofNat 256 d, fld d 91 64 == 0, 0, 0⟩ }) none) s
/-- Window `w` of a core closes (R189). -/
def State.closeWindow (s : State) (c w : Nat) : State :=
  match SMap.find? (s.core c).windows w with
  | none => s
  | some x =>
    let status : Word := BitVec.ofNat 64 (2 ^ 63 + 4 * 2 ^ 59 + x.cnt)
    let s := s.updCore c fun k => { k with windows := SMap.erase k.windows w }
    if x.rdy then s else s.wakeWindow c w status
/-- `lwclose` (R189). -/
def execLwclose (h : Hdr) (o : SYS) (s : State) : Out :=
  issue h 15 {} (fun e s => .done (s.closeWindow e.core (fld o.imm.toNat 5 0)) none) s
/-- `lwpoll` (R188, R420). -/
def execLwpoll (h : Hdr) (o : SYS) (s : State) : Out :=
  issue h 15 {} (fun e s => result15 s o.b ((s.core e.core).winStatus (fld o.imm.toNat 5 0))) s

/-- What a yield point waits for before the task leaves the active slot: results of `DST` below 15 and the matrix queue (R110,
R164). -/
def State.yieldReady (e : Env) (s : State) : Bool :=
  s.landedShort e.core e.slot && ((s.core e.core).mxe.live s.cyc).isEmpty
/-- `lwwait` (R188). -/
def execLwwait (h : Hdr) (o : SYS) (s : State) : Out :=
  rendezvous h 15 State.yieldReady
    (fun e s =>
      let w := fld o.imm.toNat 5 0
      let t := fld o.imm.toNat 23 8
      match SMap.find? (s.core e.core).windows w with
      | none => .passFly (s.scramble e.core) { lat := 15, op := .scalar o.b.toNat statusNotOpen }
      | some x =>
        if x.rdy then .passFly (s.scramble e.core) { lat := 15, op := .scalar o.b.toNat x.status }
        else .park s (.window w (if t = 0 then none else some (s.cyc + 1 + 4096 * t)) (o.b.toNat - 84))) s
/-- The timeout of a parked window wait passes (R188). -/
def execLwwaitTimeout (core slot : Nat) (s : State) : Out :=
  match s.task? core slot with
  | none => .fault .noSuchStep
  | some k =>
    match k.st with
    | .parked (.window w (some t) dst) =>
      if s.cyc < t then .fault .noSuchStep
      else
        let cnt := match SMap.find? (s.core core).windows w with
          | some x => x.cnt
          | none => 0
        .next (State.setTask { s with nextId := s.nextId + 1 } core slot
          { k with st := .parked (.windowDone w (BitVec.ofNat 64 (6 * 2 ^ 59 + 2 ^ 58 + cnt)) dst), entered := s.cyc, orderSeq := s.nextId })
    | _ => .fault .noSuchStep

/-! ## Gates -/

/-- Fields of the gate operand word (R199). -/
def gateNo (x : Word) : Nat := fld x.toNat 11 0
/-- R199. -/
def gateP (x : Word) : Bool := x.getLsbD 63
/-- R199. -/
def gatePaddr (x : Word) : Nat := fld x.toNat 52 32
/-- The access entry of a caller: the lowest valid one with its partition and function (R376). -/
def Gate.entry (g : Gate) (part fn : Nat) : Option Nat :=
  g.acl.find? fun a => a.testBit 31 && fld a 12 7 == part && fld a 6 0 == fn
/-- The rights that a use needs: bits of the entry of which one must be set, and bits of which all must (R199). -/
def gateMay (a : Nat) (any all : List Nat) : Bool := any.any a.testBit && all.all a.testBit
/-- The checks of R199: the operand word, the gate and the caller's rights. -/
def State.gateOk (s : State) (k : Task) (x : Word) (any all : List Nat) : Option Gate :=
  if fld x.toNat 62 53 ≠ 0 ∨ fld x.toNat 31 12 ≠ 0 then none
  else if gatePaddr x % 32 ≠ 0 ∨ !localScratch (gatePaddr x) 32 then none
  else
    match SMap.find? s.gates (gateNo x) with
    | none => none
    | some g =>
      match g.entry k.part k.fn with
      | none => none
      | some a => if gateMay a any all then some g else none
/-- The result word of a gate (R199). -/
def gateWord (st : Nat) (g : Gate) (seq : Nat) : Word :=
  BitVec.ofNat 64 (st * 2 ^ 60 + g.state * 2 ^ 58 + g.level * 2 ^ 50 + seq % 2 ^ 48)
/-- A task that comes to a wait for sequence number `v` need not park (R201): the gate is closed, or its number meets `v`. While queued
signals are being applied no wait is evaluated (R378). -/
def Gate.met (r : Gate) (v : Nat) : Bool := r.state == 2 || (decide (v ≤ r.seq) && (r.state == 1 || r.queue == []))
/-- Waits of a gate that its present state satisfies become ready (R201). A gate in transit wakes nobody before its queued
signals are applied (R378). -/
def State.wakeGate (s : State) (g : Nat) : State :=
  match SMap.find? s.gates g with
  | none => s
  | some r =>
    { s with nextId := s.nextId + 1, cores := s.cores.map fun (n, c) =>
        (n, { c with slots := c.slots.map fun (sl, t) =>
          match t.st with
          | .parked (.gate g' v dst p) =>
            if g' = g ∧ (r.state = 2 ∨ (r.state = 0 ∧ r.queue = [] ∧ v ≤ r.seq)) then
              (sl, { t with st := .parked (.gateReady g dst p), entered := s.cyc, orderSeq := s.nextId })
            else (sl, t)
          | _ => (sl, t) }) }
/-- A gate replaced, with its waits looked at. -/
def State.setGate (s : State) (g : Nat) (r : Gate) : State := { s with gates := SMap.set s.gates g r }.wakeGate g
/-- The place of the payload that a gate word names in the own scratchpad, as an access of its strand (R199, R237). -/
def gatePieces (core : Nat) (x : Word) : List Piece := if gateP x then [⟨⟨some core, gatePaddr x⟩, 32, 0, gatePaddr x⟩] else []
/-- The class of a payload access, which has no class of its own (R240): that of no other access. -/
def gateCls : Nat := 17
/-- The 32-byte payload copied to a scratch address by the part. -/
def State.putPayload (s : State) (key core : Nat) (p : Option Nat) (v : Nat) : State :=
  match p with
  | none => s
  | some a => (s.engineWrite key (chunk8 ⟨some core, a⟩ (leBytes v 32))).1
/-- `gsig` (R200): checked at issue, done when the accesses it releases have performed. Its reading of the payload is an access of `C`,
which later stores of `C` to the same bytes follow (R237). -/
def execGsig (h : Hdr) (o : SYS) (s : State) : Out :=
  issue h 15 {}
    (fun e s =>
      let x := e.sreg o.a
      match s.gateOk e.task x [27] (if gateP x then [30] else []) with
      | none => .fault cGate (gateNo x)
      | some _ =>
        .fly s { lat := 15, op := .gsig (gateNo x) (if gateP x then some (gatePaddr x) else none) o.b.toNat,
                 acc := gateP x, cls := gateCls }) s
/-- The update point of a `gsig` (R200, R203). A gate that has left transit while queued signals are still being applied takes no signal
before them: a `gsig` of that time joins the queue and answers Queued with the state bits 0. R203 speaks of queueing only while the gate
is in transit (DESIGN CHOICE, assumption log 75). -/
def State.landGsig (s : State) (f : Flight) (g : Nat) (p : Option Nat) (dst : Nat) : State :=
  match SMap.find? s.gates g, s.task? f.core f.slot with
  | some r, some k =>
    let pay := p.map fun a => s.scratchNat f.core a 32
    let fin (s : State) (v : Word) : State := (s.updTask f.core f.slot fun k => k.landScalar .C dst v).finish f
    if r.state = 2 then fin s (gateWord 4 r r.seq)
    else if r.state = 1 ∨ r.queue ≠ [] then
      if r.queue.length ≥ 16 then fin s (gateWord 3 r r.seq)
      else
        let r := { r with queue := r.queue ++ [⟨k.part, k.fn, pay⟩] }
        fin (s.setGate g r) (gateWord 2 r (r.seq + r.queue.length))
    else if r.level = 0 then fin s (gateWord 1 r r.seq)
    else
      let r := { r with level := r.level - 1, payload := pay.getD r.payload, seq := (r.seq + 1) % 2 ^ 64 }
      fin (s.setGate g r) (gateWord 0 r r.seq)
  | _, _ => s.finish f
/-- The snapshot of a gate wait: the result word and the payload (R201). -/
def State.gateSnapshot (s : State) (key core g : Nat) (p : Option Nat) : State × Word :=
  match SMap.find? s.gates g with
  | none => (s, 0)
  | some r =>
    if r.state = 2 then (s, gateWord 4 r r.seq) else (s.putPayload key core p r.payload, gateWord 0 r r.seq)
/-- `gwait` (R201). The payload that it will receive overwrites what `C` has stored there before it (R237). -/
def execGwait (h : Hdr) (o : SYS) (s : State) : Out :=
  rendezvous h 15 (fun e s => State.yieldReady e s && !s.mustWait e gateCls (gatePieces e.core (e.sreg o.a)))
    (fun e s =>
      let x := e.sreg o.a
      let p := if gateP x then some (gatePaddr x) else none
      match s.gateOk e.task x [28] (if gateP x then [29] else []) with
      | none => .trap cGate (gateNo x) 0
      | some r =>
        if r.met (e.sreg o.b).toNat then
          let (s, v) := s.gateSnapshot e.task.key e.core (gateNo x) p
          .passFly (s.scramble e.core) { lat := 15, op := .scalar o.b.toNat v }
        else .park s (.gate (gateNo x) (e.sreg o.b).toNat (o.b.toNat - 84) p)) s
/-- `gpoll` (R202). The payload that it writes follows what `C` has stored there before it (R237). -/
def execGpoll (h : Hdr) (o : SYS) (s : State) : Out :=
  issue h 15 {}
    (fun e s =>
      let x := e.sreg o.a
      match s.gateOk e.task x (if gateP x then [29] else [28, 29]) [] with
      | none => .fault cGate (gateNo x)
      | some r =>
        if s.mustWait e gateCls (gatePieces e.core x) then .stall
        else result15 (s.putPayload e.task.key e.core (if gateP x then some (gatePaddr x) else none) r.payload) o.b
          (gateWord (if r.state = 2 then 4 else 0) r r.seq)) s
/-- At each slot that is a multiple of 64 the bucket of an active gate is refilled (R200). -/
def execGateRefill (g : Nat) (s : State) : Out :=
  match SMap.find? s.gates g with
  | none => .fault .noSuchStep
  | some r =>
    if s.slot % 64 ≠ 0 ∨ s.cyc % 64 ≠ 0 ∨ r.refilled = s.slot + 1 then .fault .noSuchStep
    else
      let level := if r.state = 0 ∧ r.queue = [] then min r.cap (r.level + r.refill) else r.level
      .next { s with gates := SMap.set s.gates g { r with level := level, refilled := s.slot + 1 } }

end Sys2Proof.Machine
end

