-- ==== Sys2Proof/Machine/Report.lean ====
section
/-!
DEFINITION. What the part reports by itself: host event entries (R403), event packets in a context's partition block (R279, R393),
and the time slices of a shared partition (R359, R360).
-/
namespace Sys2Proof.Machine

/-! ## Host event ring (R403) -/

/-- BAR0 of a function. -/
def State.fnOf (s : State) (fn : Nat) : HostFn := SMap.get s.host {} fn
/-- BAR0 of a function changed. -/
def State.updFn (s : State) (fn : Nat) (f : HostFn → HostFn) : State := { s with host := SMap.set s.host fn (f (s.fnOf fn)) }
/-- An entry appended to a function's ring, with vector 1; dropped and counted when the ring is full (R403). -/
def State.hostEvent (s : State) (fn code part ofFn reason : Nat) : State :=
  s.updFn fn fun h =>
    if h.evtail - h.evhead ≥ 256 then { h with dropped := h.dropped + 1 }
    else
      { h with
        ring := h.ring ++ [⟨code, part, ofFn, reason, s.cyc, min h.dropped (2 ^ 24 - 1)⟩]
        evtail := h.evtail + 1, dropped := 0, msix := h.msix ||| 2 }

/-! ## Event packets (R279) -/

/-- A write of a context's own word can be made: its page is mapped and writable and no unit of it is poisoned. -/
def State.canWrite (s : State) (key va n : Nat) : Bool :=
  (List.range n).all fun i =>
    match s.translate key (va + i) with
    | .ok (pa, _, w, _) => w && !s.isPoisoned ⟨none, pa⟩ 1
    | .error _ => false
/-- A word of a context written as one of its accesses, with the notifies it makes (R279, R283). -/
def State.writeWord (s : State) (key va n v : Nat) : State :=
  match s.translate key va with
  | .ok (pa, _) => (s.bill key fun c => { c with dramw := c.dramw + BitVec.ofNat 64 n }).perform key [(⟨none, pa⟩, n, v)]
  | .error _ => s
/-- A word of a context read. -/
def State.readWord (s : State) (key va n : Nat) : Nat := (s.readVirtNat key va n).getD 0
/-- The partition block of a context (R278). -/
def State.pblk (s : State) (key : Nat) : Nat :=
  match (s.ctx key).image with
  | some i => i.pblk
  | none => 0
/-- Firmware tells the host of an event that could not be written (R279). -/
def State.tellHost (s : State) (key code : Nat) : State := s.hostEvent (key % 128) code (key / 128) (key % 128) 5
/-- `EVLOST` counts an event that was not written, if it can be written itself; else the host is told, as it is when the event's own write
was impossible (R279). -/
def State.loseEvent (s : State) (key code : Nat) (told : Bool) : State :=
  let a := s.pblk key + 8
  let ok := s.canWrite key a 4
  let s := if ok then s.writeWord key a 4 (min (s.readWord key a 4 + 1) 0xFFFFFFFF) else s
  if told || !ok then s.tellHost key code else s
/-- An event is appended to the context's event queue, or counted in `EVLOST`; `detail` is bits 511:128 of its packet (R279). Of a full
queue only the header is looked at: such an event is not written. -/
def State.event (s : State) (key code detail : Nat) : State :=
  let p := s.pblk key
  let q := p + 128
  let head := s.readWord key (q + 80) 8
  let i := s.readWord key (q + 64) 8
  let slot := p + 256 + 64 * (i % 64)
  if (s.ctx key).image.isNone then s
  else if !s.canWrite key q 96 then s.loseEvent key code true
  else if i - head ≥ 64 then s.loseEvent key code false
  else if !s.canWrite key slot 64 then s.loseEvent key code true
  else
    let s := s.writeWord key (q + 64) 8 (i + 1)
    let s := s.writeWord key slot 64 (code % 65536 + 2 ^ 64 * (s.cyc % 2 ^ 64) + 2 ^ 128 * (detail % 2 ^ 384))
    let s := s.writeWord key (q + 72) 8 (i + 1)
    s.writeWord key q 8 (i + 1)
/-- A field at bits `hi` down of an event packet, as part of its detail. -/
def detailAt (lo v : Nat) : Nat := v * 2 ^ (lo - 128)
/-- A Fabric Status event (R393). -/
def State.fabricStatus (s : State) (key tag reason dev op cls route : Nat) : State :=
  s.event key cFabricStatus
    (detailAt 128 tag + detailAt 160 reason + detailAt 168 dev + detailAt 180 op + detailAt 184 cls + detailAt 188 route)

/-! ## Slices of a shared partition (R359, R360) -/

/-- A partition serves two functions. -/
def Partition.shared (p : Partition) : Bool := p.split != 0
/-- The first slot and the length of a function's slice within a frame. -/
def Partition.slice (p : Partition) (fn : Nat) : Nat × Nat :=
  if fn = min p.fn0 p.fn1 then (0, 64 * p.split) else (64 * p.split, 4096 - 64 * p.split)
/-- Slots of the save window (R359). -/
def Partition.saveSlots (p : Partition) : Nat := 320 + (p.hcap + 63) / 64
/-- Slot `t` lies in the bookable part of the function's slice (R359, R360); a partition with one function has no slices. -/
def Partition.bookable (p : Partition) (fn t : Nat) : Bool :=
  if !p.shared then true
  else
    let (a, n) := p.slice fn
    let o := t % 4096
    decide (a + 320 ≤ o) && decide (o + p.saveSlots < a + n)
/-- The partition of a context. -/
def State.partition? (s : State) (key : Nat) : Option Partition := SMap.find? s.parts (key / 128)
/-- Work of the context may start now (R360, R361). -/
def State.mayRun (s : State) (key : Nat) : Bool :=
  decide ((s.ctx key).phase = .running) &&
    match s.partition? key with
    | some p => p.bookable (key % 128) s.slot
    | none => false
/-- The context's share of a resource that its partition has `n` of (R356). -/
def State.share (s : State) (key n : Nat) : Nat :=
  match s.partition? key with
  | some p => if p.shared then n / 2 else n
  | none => 0
/-- Granules of the context's partition in a cluster (R11). -/
def State.granulesIn (s : State) (key cluster : Nat) : Nat :=
  match s.partition? key with
  | some p => (List.range 6).countP fun g => p.gmask.testBit (6 * cluster + g)
  | none => 0

end Sys2Proof.Machine
end

