-- ==== Sys2Proof/Machine/Net.lean ====
section
/-!
DEFINITION. Sending on the fabric: the routes of a context (R319, R320), the packet header (R322, R323), and the packets that the
part sends to itself, which never cross a port (R39, R333).
-/
namespace Sys2Proof

/-! ## Packets (R322, R323) -/

/-- Bytes of a packet: the header flit and its payload (R322). -/
def Pkt.bytes (p : Pkt) : Nat := 64 + p.payload.length
/-- Flits of a packet (R322). -/
def Pkt.flits (p : Pkt) : Nat := 1 + (p.payload.length + 63) / 64
/-- The header flit of a packet (R322). -/
def Pkt.header (p : Pkt) : BitVec 512 :=
  BitVec.ofNat 512 (p.route.toNat + 2 ^ 112 * p.hop.toNat + 2 ^ 115 * p.nhop.toNat + 2 ^ 119 * (if p.mc then 1 else 0) + 2 ^ 120 * (p.ty % 32)
    + 2 ^ 125 * p.rti.toNat + 2 ^ 127 * p.spart.toNat + 2 ^ 133 * p.job.toNat + 2 ^ 145 * p.ddev.toNat + 2 ^ 157 * p.sdev.toNat
    + 2 ^ 169 * p.rqdev.toNat + 2 ^ 181 * p.sub.toNat + 2 ^ 185 * p.cls.toNat + 2 ^ 189 * p.poff.toNat + 2 ^ 199 * p.payload.length
    + 2 ^ 208 * p.status.toNat + 2 ^ 216 * p.reason.toNat + 2 ^ 224 * p.tag.toNat + 2 ^ 256 * p.opnd.toNat + 2 ^ 320 * p.addr.toNat
    + 2 ^ 384 * p.ocnt.toNat)
/-- The output port of a packet at its present hop (R319). -/
def Pkt.port (p : Pkt) : Nat := fld p.route.toNat (4 * p.hop.toNat + 3) (4 * p.hop.toNat)
/-- The virtual channel of a packet at its present hop (R321). -/
def Pkt.vc (p : Pkt) : Nat := (if p.mc then 8 else 0) + p.hop.toNat
/-- The record that an XREQ carries (R194). -/
def Pkt.xRecord (p : Pkt) : Nat := Machine.leNat (p.payload.take 32)
/-- The members that an XREQ carries. -/
def Pkt.xMembers (p : Pkt) : List Nat := (List.range ((p.payload.length - 32) / 2)).map fun k => Machine.leNat ((p.payload.drop (32 + 2 * k)).take 2)
/-- The route of a packet, as LDOWNs are counted by: job, source, destination and ports (R326). -/
def Pkt.routeKey (p : Pkt) : Nat := ((p.job.toNat * 4096 + p.sdev.toNat) * 4096 + p.ddev.toNat) * 2 ^ 32 + p.route.toNat

end Sys2Proof

namespace Sys2Proof.Machine

/-! ## Routes (R319) -/

/-- The entry of route `r` to device `dev`. -/
def Context.route (c : Context) (dev r : Nat) : Nat := (SMap.get c.routes 0 (4 * dev + r)).toNat
/-- A route is usable: `V` = 1 and `DOWN` = 0 (R319). -/
def Context.usable (c : Context) (dev r : Nat) : Bool := (c.route dev r).testBit 63 && !(c.route dev r).testBit 62
/-- The usable routes to a device, rising. -/
def Context.usableRoutes (c : Context) (dev : Nat) : List Nat := (List.range 4).filter (c.usable dev)
/-- `DEVNO.NUM` of a context (R30, R317). -/
def Context.devNo (c : Context) : Nat := match c.job with
  | some j => j.dev
  | none => 0
/-- A device belongs to the context's job (R190, R195): the own device, or one that firmware has loaded a route to. -/
def Context.inJob (c : Context) (dev : Nat) : Bool :=
  match c.job with
  | none => false
  | some j => j.dev == dev || (List.range 4).any fun r => (c.route dev r).testBit 63
/-- A device can be sent to: the own device needs no route (R319). -/
def Context.reachable (c : Context) (dev : Nat) : Bool := c.devNo == dev || !(c.usableRoutes dev).isEmpty
/-- The context that belongs to a job, with its key (R317). -/
def State.ctxOfJob (s : State) (job : Nat) : Option (Nat × Context) :=
  List.find? (fun (c : Nat × Context) => match c.2.job with
    | some j => j.job == job
    | none => false) s.ctxs

/-- A packet that the part accepts for a membership (R318, R322): it came in on a port assigned to the job, or never crossed one, its type
is not reserved, and its class is the type's. -/
def JobBind.accepts (j : JobBind) (p : Pkt) : Bool :=
  (p.inside || j.ports.testBit p.inPort.toNat) && decide (p.ty < 20) && p.mc == replyType p.ty
/-- The context that a packet reaches (R317, R318): that of its job. -/
def State.arrival (s : State) (p : Pkt) : Option (Nat × Context) :=
  (s.ctxOfJob p.job.toNat).bind fun x => match x.2.job with
    | some j => if j.accepts p then some x else none
    | none => none
/-- Firmware's fabric counter of discarded packets rises (R318, R322). -/
def State.discard (s : State) : State := { s with mgmt := { s.mgmt with discards := s.mgmt.discards + 1 } }

/-! ## Ports and routes (R320, R321) -/

/-- The packets that wait at a port in a virtual channel. -/
def State.waiting (s : State) (port vc : Nat) : List Pkt := SMap.get s.net.queues [] (16 * port + vc)
/-- A packet waits at its port in its virtual channel (R321). -/
def State.toPort (s : State) (p : Pkt) : State :=
  { s with net := { s.net with queues := SMap.set s.net.queues (16 * p.port + p.vc) (s.waiting p.port p.vc ++ [p]) } }
/-- Flits of a class that wait for the first hop of a route (R320). -/
def State.hopFlits (s : State) (c : Context) (dev : Nat) (reply : Bool) (r : Nat) : Nat :=
  (s.waiting (fld (c.route dev r) 3 0) (if reply then 8 else 0)).foldl (fun n p => n + p.flits) 0
/-- The route on which a packet leaves (R320): of the usable ones, the one whose first hop has the fewest flits of the class waiting, and the
lowest of those that tie. -/
def State.chooseRoute (s : State) (c : Context) (dev : Nat) (reply : Bool) : Option Nat :=
  (c.usableRoutes dev).foldl (fun m r => match m with
    | none => some r
    | some b => if s.hopFlits c dev reply r < s.hopFlits c dev reply b then some r else m) none
/-- A packet of a context, with partition `part`, put on its way to a device: the route on which it leaves (0 within the part), or none
where there is no route and nothing is sent. A packet to the part itself never crosses a port (R39, R333); one whose first port is not of the
job is discarded (R318). `RTI` of an acknowledgement names the acknowledged store's route, and that of an LDOWN the discarded packet's
(R323); every other packet bears its own. -/
def State.launchPkt (s : State) (c : Context) (part dev : Nat) (p : Pkt) : Option Nat × State :=
  match c.job with
  | none => (none, s)
  | some j =>
    let p := { p with sdev := BitVec.ofNat 12 j.dev, ddev := BitVec.ofNat 12 dev, job := BitVec.ofNat 12 j.job,
                      spart := BitVec.ofNat 6 part, mc := replyType p.ty }
    if dev = j.dev then (some 0, { s with loop := s.loop ++ [{ p with inside := true }] })
    else
      match s.chooseRoute c dev p.mc with
      | none => (none, s)
      | some r =>
        let e := c.route dev r
        let p := { p with rti := if p.ty = 6 ∨ p.ty = 7 ∨ p.ty = 15 then p.rti else BitVec.ofNat 2 r,
                          nhop := BitVec.ofNat 4 (fld e 35 32), hop := 0, route := BitVec.ofNat 32 (fld e 31 0) }
        (some r, if j.ports.testBit p.port then s.toPort p else s.discard)
/-- A packet sent from a context to a device: the route on which it left, as in `State.launchPkt`. -/
def State.send (s : State) (key dev : Nat) (p : Pkt) : Option Nat × State :=
  let (r, s) := s.launchPkt (s.ctx key) (key / 128) dev p
  (r, if r.isNone ∨ dev = (s.ctx key).devNo then s else s.bill key fun c => { c with fabb := c.fabb + BitVec.ofNat 64 (p.bytes) })
/-- A packet whose route does not matter. -/
def State.sendOff (s : State) (key dev : Nat) (p : Pkt) : State := (s.send key dev p).2
/-- A reply to the device that sent a packet (R320). -/
def State.reply (s : State) (key : Nat) (to_ : Pkt) (p : Pkt) : State :=
  s.sendOff key to_.sdev.toNat { p with tag := to_.tag, rqdev := to_.rqdev, cls := to_.cls }
/-- A packet with no context to receive it. A request for a context that was destroyed is refused with reason 7 (R325), the late reply to one is
ignored, and any other packet is discarded and counted (R318). -/
def State.unserved (s : State) (p : Pkt) : State :=
  match s.arrival p, SMap.find? s.gone p.job.toNat with
  | none, some c =>
    let reply (s : State) (dev : Nat) (q : Pkt) : State :=
      (s.launchPkt c 0 dev { q with tag := p.tag, rqdev := p.rqdev, cls := p.cls, reason := 7 }).2
    let from_ := p.sdev.toNat
    match c.job with
    | none => s.discard
    | some j =>
      if !j.accepts p then s.discard
      else if p.ty = 0 ∨ p.ty = 2 ∨ p.ty = 3 then reply s from_ { ty := 7, rti := p.rti }
      else if p.ty = 4 then reply s from_ { ty := 5 }
      else if p.ty = 8 then
        let ms := (List.range p.xMembers.length).zip p.xMembers
        ms.foldl (fun s m => reply s m.2 { ty := 12, addr := p.addr, opnd := BitVec.ofNat 64 m.1, status := 1 }) (reply s from_ { ty := 11 })
      else s
  | none, none => s.discard
  | some _, _ => s
/-- The bytes of a received packet are counted to its context (R381). -/
def State.received (s : State) (key : Nat) (p : Pkt) : State :=
  if p.inside then s
  else s.bill key fun c => { c with fabb := c.fabb + BitVec.ofNat 64 (p.bytes) }
/-- The same for a request that reads or writes the context's memory, with the walk that finds it (R325, R382). -/
def State.served (s : State) (key : Nat) (p : Pkt) : State := (s.received key p).billWalk key

end Sys2Proof.Machine
end

