-- ==== Sys2Proof/Machine/Hts.lean ====
section
/-!
DEFINITION. The Hardware Task Scheduler: footprints and edges (R208, R209), task records and deques (R223 to R226), dependence
counters (R230 to R232), hardware queue slots (R233, R234, R283 to R286), and the words of group `0x29` that use them.
-/
namespace Sys2Proof.Machine

/-! ## Footprints (R208) -/

/-- One region entry, if it is valid (R208). -/
def State.regionEntry (s : State) (own part x : Nat) : Option Region :=
  let a := fld x 63 0
  let n := fld x 95 64
  let rd := x.testBit 96
  let wr := x.testBit 97
  if fld x 127 98 ≠ 0 ∨ (!rd ∧ !wr) ∨ n = 0 then none
  else if isScratchAddr a then
    (if a % 2 ^ 63 / 2 ^ 32 ≠ 0 then none
     else (s.scratchAt own part (a % 2 ^ 32) n).map fun l => ⟨l.core, l.off, n, rd, wr⟩)
  else if globalOk a n then some ⟨none, a, n, rd, wr⟩
  else none
/-- The regions of the footprint record at a scratch address; address 0 names none, `none` is an invalid record (R205, R208). -/
def State.footprint (s : State) (own part a : Nat) : Option (List Region) :=
  if a = 0 then some []
  else if a % 16 ≠ 0 ∨ !localScratch a 16 then none
  else
    let hd := s.scratchNat own a 16
    let n := fld hd 3 0
    if fld hd 127 4 ≠ 0 ∨ n = 0 ∨ !localScratch a (16 + 16 * n) then none
    else (List.range n).mapM fun i => s.regionEntry own part (s.scratchNat own (a + 16 + 16 * i) 16)

/-- The bytes of the footprint record at a scratch address that are read. -/
def State.footBytes (s : State) (own a : Nat) : Nat :=
  if a = 0 ∨ a % 16 ≠ 0 ∨ !localScratch a 16 then 0
  else
    let n := 16 + 16 * fld (s.scratchNat own a 16) 3 0
    if localScratch a n then n else 16
/-- Bytes of the own scratchpad that a word reads are free of poison, or the word faults (R169). -/
def State.clean (s : State) (e : Env) (a n : Nat) (k : Res) : Res :=
  match s.firstPoison ((List.range (n / 8)).map fun i => ⟨⟨some e.core, a + 8 * i⟩, 8, 0, a + 8 * i⟩) with
  | some p => .fault cPoison p.name
  | none => k
/-- The same for the footprint record that a record names. The faults come before the checks of the records' content (R205); whether they
do so for a record whose content is bad is not stated (DEDUCED, assumption log 76). -/
def State.cleanFootprint (s : State) (e : Env) (a : Nat) (k : Res) : Res := s.clean e a (s.footBytes e.core a) k

/-- Two footprints overlap in a byte that one of them writes (R209). -/
def regionsClash (a b : List Region) : Bool :=
  a.any fun r => b.any fun q => decide (r.core = q.core) && runsMeet r.lo r.len q.lo q.len && (r.wr || q.wr)
/-- The scheduler's table has room for a unit (R209, R356). -/
def State.tableRoom (s : State) (cluster key : Nat) (regs : List Region) : Bool :=
  regs.isEmpty || (decide ((s.htsOf cluster).table.length < 512) &&
    (match s.partition? key with
     | some p => !p.shared || decide ((s.htsOf cluster).table.countP (fun u => ctxKey u.part u.fn == key) < 256)
     | none => true))
/-- A unit is submitted for core `core`: its number, and the units it depends on. Of the units of one cycle those of lower cores come
first, so a unit of a higher core that is there already depends on it (R209). -/
def State.submit (s : State) (cluster key core : Nat) (regs : List Region) : Nat × State :=
  let uid := s.nextId
  let s := { s with nextId := s.nextId + 1 }
  if regs.isEmpty then (uid, s)
  else
    (uid, s.updHts cluster fun h =>
      let clash (u : FpUnit) : Bool := ctxKey u.part u.fn == key && regionsClash u.regs regs
      let later (u : FpUnit) : Bool := u.cyc == s.cyc && decide (core < u.core)
      let deps := (h.table.filter fun u => clash u && !later u).map (·.uid)
      { h with table := (h.table.map fun u => if clash u && later u then { u with deps := u.deps ++ [uid] } else u) ++
          [{ uid := uid, part := key / 128, fn := key % 128, regs := regs, deps := deps, cyc := s.cyc, core := core }] })
/-- A unit has completed: it leaves the table, and the units that depend on it no longer wait for it (R209). -/
def State.unitDone (s : State) (uid : Nat) : State :=
  if uid = 0 then s
  else
    { s with hts := s.hts.map fun (c, h) =>
        (c, { h with table := (h.table.filter fun u => u.uid != uid).map fun u =>
          { u with deps := u.deps.filter fun d => d != uid } }) }
/-- Every unit that a unit depends on has completed (R209). -/
def State.edgesDone (s : State) (uid : Nat) : Bool :=
  s.hts.all fun h => h.2.table.all fun u => u.uid != uid || u.deps.isEmpty

/-! ## Bookings as the scheduler sees them -/

/-- The booking of a handle that belongs to a context (R213). -/
def State.booking? (s : State) (key : Nat) (h : BitVec 32) : Option Booking :=
  s.bu.bookings.find? fun b => b.handle == h && ctxKey b.part b.fn == key
/-- A booking that has not ended (R213). -/
def Booking.live (b : Booking) : Bool := b.st = .deferred || b.st = .committed || b.st = .running
/-- The handle is live (R224). -/
def State.handleLive (s : State) (key : Nat) (h : BitVec 32) : Bool :=
  match s.booking? key h with
  | some b => b.live
  | none => false

/-! ## Task records (R223, R224) -/

/-- Bits of a task record. -/
def recf (r : BitVec 256) (hi lo : Nat) : Nat := fld r.toNat hi lo
/-- The record is valid apart from its footprint (R224). -/
def State.recordOk (s : State) (key : Nat) (r : BitVec 256) (walker : Bool) : Bool :=
  recf r 255 255 == 0 && recf r 67 64 == 0 && recf r 159 128 % 8 == 0 && recf r 127 112 != 0
  && (recf r 254 254 == 0 || s.partOf (recf r 253 244) == some (key / 128))
  && (recf r 191 160 == 0 || s.handleLive key (BitVec.ofNat 32 (recf r 191 160)))
  && (recf r 230 230 == if walker then 1 else 0)
/-- The core whose deque an entry goes to (R223). -/
def DqEntry.target (d : DqEntry) : Nat := if recf d.rcd 254 254 = 1 then recf d.rcd 253 244 else d.src
/-- The booking handle of an entry. -/
def DqEntry.bh (d : DqEntry) : BitVec 32 := BitVec.ofNat 32 (recf d.rcd 191 160)
/-- The entry's footprint as a unit: that of its booking stands for a booked task (R209). A walker task whose TOPB names a booking is
taken as such a task, although R209 also gives every walker its TOPB's footprint (DEDUCED, assumption log 77). -/
def DqEntry.edges (d : DqEntry) : List Region := if d.bh = 0 then d.regions else []
/-- The deque entry for the record at scratch address `a` of core `own`, if it is valid (R205, R224). -/
def State.entryAt (s : State) (k : Task) (own a : Nat) : Option DqEntry :=
  let r := BitVec.ofNat 256 (s.scratchNat own a 32)
  if !s.recordOk k.key r false then none
  else (s.footprint own k.part (recf r 223 192)).map fun regs =>
    { rcd := r, tvec := k.tvec, part := k.part, fn := k.fn, src := own, regions := regs }

/-! ## Deques (R225) -/

/-- A deque has room. -/
def State.dequeRoom (s : State) (core : Nat) : Bool := decide ((s.core core).deque.length < 64)
/-- The next task serial of a context in a cluster (R225). -/
def State.nextSerial (s : State) (cluster key : Nat) : Nat × State :=
  let n := (SMap.get (s.htsOf cluster).serials 0 key + 1) % 2 ^ 20
  (n, s.updHts cluster fun h => { h with serials := SMap.set h.serials key n })
/-- An entry that is a unit is pushed onto the bottom of its target deque (R225). Its serial and the state. -/
def State.push (s : State) (d : DqEntry) : Nat × State :=
  let t := d.target
  let (ser, s) := s.nextSerial (clusterOf t) (ctxKey d.part d.fn)
  (ser, s.updCore t fun c => { c with deque := c.deque ++ [{ d with ser := ser, entered := s.cyc }] })
/-- An entry that core `core` issued becomes a unit of the scheduler of its target deque (R209). -/
def State.submitEntry (s : State) (core : Nat) (d : DqEntry) : DqEntry × State :=
  let (uid, s) := s.submit (clusterOf d.target) (ctxKey d.part d.fn) core d.edges
  ({ d with uid := uid }, s)
/-- The table of the target's scheduler has room for the entry (R209). -/
def State.entryRoom (s : State) (d : DqEntry) : Bool := s.tableRoom (clusterOf d.target) (ctxKey d.part d.fn) d.edges
/-- A record is released by a counter or a notify: the scheduler of a cluster pushes it at the end of the cycle, or when the deque has
room (R226, R232). The number that stands for it until then, and the state. -/
def State.holdPush (s : State) (cluster core : Nat) (d : DqEntry) : Nat × State :=
  let uid := s.nextId
  (uid, { (s.updHts cluster fun h => { h with heldPush := h.heldPush ++ [(core, { d with uid := uid })] }) with nextId := uid + 1 })
/-- The entry may be dispatched: its edges have completed and its booking is not deferred (R209, R217). -/
def State.eligible (s : State) (d : DqEntry) : Bool :=
  s.edgesDone d.uid &&
    match s.booking? (ctxKey d.part d.fn) d.bh with
    | some b => decide (b.st ≠ .deferred)
    | none => true
/-- The entry can be pushed now. -/
def State.canPush (s : State) (d : DqEntry) : Bool :=
  s.dequeRoom d.target && s.entryRoom d && decide ((s.ctx (ctxKey d.part d.fn)).phase = .running)
/-- The released record that is pushed next, with its issuing core and the others: that of the lowest core, and among those of one core
the one released first (R226). -/
def State.takeHeld (s : State) : List (Nat × DqEntry) → Option ((Nat × DqEntry) × List (Nat × DqEntry))
  | [] => none
  | (n, d) :: rest =>
    match s.takeHeld rest with
    | none => if s.canPush d then some ((n, d), rest) else none
    | some (x, r) => if s.canPush d && decide (n ≤ x.1) then some ((n, d), rest) else some (x, (n, d) :: r)
/-- The mappings whose pushed copy had number `a` now await the copy with number `b`, or none (R234, R283). -/
def State.repend (s : State) (a : Nat) (b : Option Nat) : State :=
  let f (q : QMapping) : QMapping := if q.pending = some a then { q with pending := b } else q
  { s with
    hts := s.hts.map fun (c, h) =>
      (c, { h with qslots := h.qslots.map fun (i, q) => (i, f q), qheld := h.qheld.map fun (i, q) => (i, f q) })
    ctxs := s.ctxs.map fun (i, c) => (i, { c with evMap := c.evMap.map f }) }
/-- A released record is pushed, at once or, held for a full deque, when an entry frees (R225, R232). -/
def execHeldDequePush (cluster : Nat) (s : State) : Out :=
  match s.takeHeld (s.htsOf cluster).heldPush with
  | none => .fault .noSuchStep
  | some ((n, d), rest) =>
    let (d', s) := (s.updHts cluster fun h => { h with heldPush := rest }).submitEntry n d
    .next ((s.push d').2.repend d.uid (some d'.uid))

/-! ## Dependence counters (R230 to R232) -/

/-- The counter number belongs to the context (R230, R356). -/
def State.counterOk (s : State) (key cluster n : Nat) : Bool := decide (n < s.share key (640 * s.granulesIn key cluster))
/-- The key of a counter. -/
def ctrKey (key n : Nat) : Nat := 4096 * key + n
/-- `amt` is subtracted, for a core, from a counter of its cluster (R232): the status, the count, and the state with what fires. -/
def State.decrement (s : State) (core key n amt : Nat) : Nat × Nat × State :=
  let cluster := clusterOf core
  if !s.counterOk key cluster n then (3, 0, s)
  else
    let c := SMap.get (s.htsOf cluster).ctrs {} (ctrKey key n)
    let new := c.val - amt
    let fires := decide (c.val ≠ 0) && decide (new = 0)
    let put (s : State) (x : Counter) : State := s.updHts cluster fun h => { h with ctrs := SMap.set h.ctrs (ctrKey key n) x }
    let s' :=
      if fires then
        let s := put s { val := 0, armed := none }
        match c.armed with
        | none => s
        | some d => (s.holdPush cluster core d).2
      else put s { c with val := new }
    (if amt > c.val then 2 else if fires then 1 else 0, new, s')
/-- A decrement by an engine, an `exit`, a collective or `fldx`; discarded where the counter is not owned (R230). -/
def State.engineDecrement (s : State) (core key n : Nat) : State := (s.decrement core key n 1).2.2

/-! ## Queue slots (R233, R283 to R286) -/

/-- The context owns a slot of a cluster: ten slots for each granule, halved between two functions (R283, R356). -/
def State.ownsSlot (s : State) (key cluster slot : Nat) : Bool := SMap.find? (s.htsOf cluster).qowner slot == some key
/-- The lowest free slot that a mapping may take (R286). -/
def State.freeSlot (s : State) (cluster key : Nat) (any : Bool) (want : Nat) : Option Nat :=
  (List.range 64).find? fun i =>
    s.ownsSlot key cluster i && (any || i == want) && (SMap.find? (s.htsOf cluster).qslots i).isNone
/-- The queue at an address is mapped or waiting (R234): cluster, slot or held entry. -/
def State.findQueue (s : State) (key qaddr : Nat) : Option (Nat × Bool × Nat × QMapping) :=
  s.hts.findSome? fun (c, h) =>
    let hit (q : QMapping) : Bool := ctxKey q.part q.fn == key && q.qaddr == qaddr
    match List.find? (fun (p : Nat × QMapping) => hit p.2) h.qslots with
    | some (i, q) => some (c, true, i, q)
    | none => (List.find? (fun (p : Nat × QMapping) => hit p.2) h.qheld).map fun (i, q) => (c, false, i, q)
/-- The lowest free held-request entry of a context (R286, R356). -/
def State.freeHeld (s : State) (key : Nat) : Option Nat :=
  (List.range (s.share key 256)).find? fun k => s.hts.all fun h => (SMap.find? h.2.qheld (256 * key + k)).isNone
/-- Bit `k` of `PNB` in the partition block (R279, R286). -/
def State.setPnb (s : State) (key k : Nat) (on : Bool) : State :=
  let a := s.pblk key + 64 + k / 8
  let b := s.readWord key a 1
  if s.canWrite key a 1 then s.writeWord key a 1 (setFld b (k % 8) (k % 8) (if on then 1 else 0)) else s
/-- The notify of a mapped queue: its record is pushed unless a copy still waits for a prefetcher (R283). -/
def State.notifySlot (s : State) (cluster slot : Nat) (q : QMapping) : State :=
  let (pend, s) := match q.pending with
    | some u => (some u, s)
    | none =>
      let (u, s) := s.holdPush cluster q.core q.entry
      (some u, s)
  s.updHts cluster fun h => { h with qslots := SMap.set h.qslots slot { q with pending := pend, lastNotify := s.cyc, pnb := none } }
/-- A slot that is free goes to a held request: the one whose `PNB` bit was set earliest, else the lowest entry (R286). -/
def State.grantSlot (s : State) (cluster slot : Nat) : State :=
  match SMap.find? (s.htsOf cluster).qowner slot with
  | none => s
  | some key =>
    let cand := (s.htsOf cluster).qheld.filter fun p => p.1 / 256 == key && (p.2.any || p.2.want == slot)
    let better (p q : Nat × QMapping) : Bool :=
      match p.2.pnb, q.2.pnb with
      | some a, some b => decide (a < b) || (a == b && decide (p.1 < q.1))
      | some _, none => true
      | none, some _ => false
      | none, none => decide (p.1 < q.1)
    match cand.find? fun p => cand.all fun q => p.1 == q.1 || better p q with
    | none => s
    | some (k, q) =>
      let s := s.updHts cluster fun h =>
        { h with qheld := SMap.erase h.qheld k, qslots := SMap.set h.qslots slot { q with pnb := none } }
      if q.pnb.isSome then (s.setPnb key (k % 256) false).notifySlot cluster slot { q with pnb := none } else s
/-- The mapping of the context in the cluster that is taken back: `NPRE` 0, no copy awaiting a prefetcher, last notify oldest (R286). -/
def State.victim (s : State) (cluster key : Nat) : Option (Nat × QMapping) :=
  let cand := (s.htsOf cluster).qslots.filter fun p =>
    s.ownsSlot key cluster p.1 && !p.2.npre && p.2.pending.isNone
  cand.find? fun p => cand.all fun r => decide (p.2.lastNotify < r.2.lastNotify) ||
    (p.2.lastNotify == r.2.lastNotify && decide (p.1 ≤ r.1))
/-- The notify of a held request (R286). -/
def State.notifyHeld (s : State) (cluster k : Nat) (q : QMapping) : State :=
  let key := k / 256
  let map (s : State) (slot : Nat) : State :=
    let s := s.updHts cluster fun h => { h with qheld := SMap.erase h.qheld k }
    let s := if q.pnb.isSome then s.setPnb key (k % 256) false else s
    s.notifySlot cluster slot { q with pnb := none }
  match s.freeSlot cluster key q.any q.want with
  | some slot => map s slot
  | none =>
    match s.victim cluster key with
    | some (slot, v) =>
      -- with no entry free the displaced queue takes the one that the notifying queue leaves (DESIGN CHOICE, assumption log 78)
      let j := match s.freeHeld key with
        | some j => 256 * key + j
        | none => k
      (map s slot).updHts cluster fun h => { h with qheld := SMap.set h.qheld j v }
    | none =>
      if q.pnb.isSome then s
      else
        let s := s.updHts cluster fun h => { h with qheld := SMap.set h.qheld k { q with pnb := some s.cyc } }
        (s.setPnb key (k % 256) true).event key cQueueStarved (detailAt 128 q.qaddr + detailAt 192 (k % 256))
/-- The notify of a queue mapped by `qmap` or held (R283, R286). -/
def State.notifyQueue (s : State) (key qaddr : Nat) : State :=
  match s.findQueue key qaddr with
  | none => s
  | some (cl, true, slot, q) => s.notifySlot cl slot q
  | some (cl, false, k, q) => s.notifyHeld cl k q
/-- A write to the notify word of a queue of a context (R283, R286, R361). -/
def State.notify (s : State) (key qaddr : Nat) : State :=
  let c := s.ctx key
  if c.phase ≠ .running then s.updCtx key fun c => { c with notes := c.notes ++ [qaddr] }
  else
    match c.evMap with
    | some q =>
      if q.qaddr = qaddr then
        match q.pending with
        | some _ => s
        | none =>
          let (u, s) := s.holdPush (clusterOf q.core) q.core q.entry
          s.updCtx key fun c => { c with evMap := some { q with pending := some u, lastNotify := s.cyc } }
      else s.notifyQueue key qaddr
    | none => s.notifyQueue key qaddr
/-- The same as a step of its own. -/
def execQueueNotify (part fn : Nat) (qaddr : BitVec 64) (s : State) : Out := .next (s.notify (ctxKey part fn) qaddr.toNat)

/-! ## Words of group `0x29` that act on the scheduler -/

/-- A result word (R207). -/
def statusWord (st v : Nat) : Word := BitVec.ofNat 64 (st * 2 ^ 60 + v)
/-- A word of groups `0x28` and `0x29` (R204). -/
def engineWord (h : Hdr) (o : SYS) (body : Env → State → Res) (s : State) : Out := issue h 15 { pop := isPop o.a } body s
/-- The record at the address in `A` (R205). Own stores to scratch perform first, so that the record and those it names are read
as the program wrote them. -/
def State.recordArg (s : State) (e : Env) (o : SYS) (n align : Nat) (k : Nat → Nat → Res) : Res :=
  let a := e.src o.a
  ownChecks a n align <|
    if s.flights.any fun f => f.ofTask e.core e.slot && f.strand = e.t && f.acc && f.op.pieces.any fun p => p.loc.core.isSome then .stall
    else s.withRecord e a.toNat n (k a.toNat)

/-- A word whose effect the schedulers bring about at the end of the cycle, with its answer (R226, R285). -/
def State.ask (s : State) (e : Env) (o : SYS) (op : HtsOp) : Res :=
  result15 { s with htsReqs := s.htsReqs ++ [{ core := e.core, part := e.task.part, fn := e.task.fn, flight := s.nextId, op := op }] } o.b 0
/-- A new entry is pushed by a word: it becomes a unit now, and the deque takes it or not at the end of the cycle (R209, R225, R226). -/
def State.askPush (s : State) (e : Env) (o : SYS) (d : DqEntry) : Res :=
  if !s.entryRoom d then .stall
  else
    let (d, s) := s.submitEntry e.core d
    s.ask e o (.push d)
/-- `dqpush` (R225). -/
def execDqpush (h : Hdr) (o : SYS) (s : State) : Out :=
  engineWord h o (fun e s => s.recordArg e o 32 32 fun a r =>
    s.cleanFootprint e (fld r 223 192) <|
    match s.entryAt e.task e.core a with
    | none => result15 s o.b (statusWord 2 0)
    | some d => s.askPush e o d) s
/-- `dqpop` (R225). Earlier accesses of class 0 or to the bytes that it writes perform first (R205, R240). It writes no registered barrier
word (R169, R180). -/
def execDqpop (h : Hdr) (o : SYS) (s : State) : Out :=
  engineWord h o (fun e s =>
    let a := e.src o.a
    let p : Piece := ⟨⟨some e.core, a.toNat⟩, 32, 0, a.toNat⟩
    ownChecks a 32 32 <|
      match s.hitsBarrier [p] with
      | some p => .fault cBarrierWrite p.name
      | none => if s.mustWait e 0 [p] then .stall else s.ask e o (.pop a.toNat)) s
/-- `dqsteal` (R225). -/
def execDqsteal (h : Hdr) (o : SYS) (s : State) : Out :=
  engineWord h o (fun e s =>
    let k := fld o.imm.toNat 9 0
    if k = e.core ∨ s.partOf k ≠ some e.task.part then result15 s o.b (statusWord 2 0) else s.ask e o (.steal k)) s

/-- `htsset` (R231). -/
def execHtsset (h : Hdr) (o : SYS) (s : State) : Out :=
  engineWord h o (fun e s =>
    let n := fld o.imm.toNat 11 0
    let v := (e.sreg o.b).toNat % 2 ^ 32
    let cl := clusterOf e.core
    let key := e.task.key
    let set (armed : Option DqEntry) : Res :=
      if !s.counterOk key cl n then result15 s o.b (statusWord 2 0)
      else
        let c := SMap.get (s.htsOf cl).ctrs {} (ctrKey key n)
        let st := if c.armed.isSome ∧ c.val ≠ 0 then 1 else 0
        let put (s : State) (x : Counter) : State := s.updHts cl fun h => { h with ctrs := SMap.set h.ctrs (ctrKey key n) x }
        if v = 0 then
          let s := put s { val := 0, armed := none }
          result15 (match armed with
            | some d => (s.holdPush cl e.core d).2
            | none => s) o.b (statusWord st 0)
        else result15 (put s { val := v, armed := armed }) o.b (statusWord st 0)
    if o.a.toNat = 84 then set none
    else s.recordArg e o 32 32 fun a r =>
      s.cleanFootprint e (fld r 223 192) <|
      match s.entryAt e.task e.core a with
      | none => result15 s o.b (statusWord 2 0)
      | some d => set (some d)) s
/-- `htsdec` (R232). -/
def execHtsdec (h : Hdr) (o : SYS) (s : State) : Out :=
  engineWord h o (fun e s =>
    -- a release: every access issued before has performed (R232)
    if !s.released e.core e.slot s.nextId s.cyc then .stall
    else
      let (st, v, s) := s.decrement e.core e.task.key (fld o.imm.toNat 11 0) (fld o.imm.toNat 23 12)
      result15 s o.b (statusWord st v)) s

/-- `qmap` (R233, R234, R286). -/
def execQmap (h : Hdr) (o : SYS) (s : State) : Out :=
  engineWord h o (fun e s => s.recordArg e o 32 32 fun _ r =>
    let any := r.testBit 102
    let want := fld r 101 96
    let trec := fld r 95 64
    let bad := result15 s o.b (statusWord 2 0)
    let named := trec % 32 == 0 && localScratch trec 32
    let tr := s.scratchNat e.core trec 32
    s.clean e trec (if named then 32 else 0) <| s.cleanFootprint e (if named then fld tr 223 192 else 0) <|
    if fld r 255 104 ≠ 0 ∨ (any ∧ want ≠ 0) ∨ fld r 63 0 % 64 ≠ 0 ∨ !globalOk (fld r 63 0) 8 ∨ trec % 32 ≠ 0 ∨ !localScratch trec 32
        ∨ (!any ∧ !s.ownsSlot e.task.key (clusterOf e.core) want) then bad
    else
      match s.entryAt e.task e.core trec with
      | none => bad
      | some d =>
        s.ask e o (.map { part := e.task.part, fn := e.task.fn, qaddr := fld r 63 0, npre := r.testBit 103, any := any, want := want,
                          core := e.core, entry := d })) s
/-- `qunmap` (R234, R286). -/
def execQunmap (h : Hdr) (o : SYS) (s : State) : Out := engineWord h o (fun e s => s.ask e o (.unmap (e.src o.a).toNat)) s

/-! ## Walker tasks (R227, R228) -/

/-- Bits of a TOPB. -/
def topf (b : BitVec 1024) (hi lo : Nat) : Nat := fld b.toNat hi lo
/-- Trip count of dimension `d`. -/
def trips (b : BitVec 1024) (d : Nat) : Nat := topf b (128 + 16 * d + 15) (128 + 16 * d) + 1
/-- The number of steps (R227). -/
def topSteps (b : BitVec 1024) : Nat := trips b 0 * trips b 1 * trips b 2 * trips b 3
/-- The TOPB is valid apart from its footprint and handle (R227). -/
def topOk (b : BitVec 1024) : Bool :=
  topf b 1023 896 == 0 && topf b 831 818 == 0 && topf b 63 34 == 0
  && ((List.range 4).all fun d => decide (d ≤ topf b 33 32) || trips b d == 1)
  && decide (topSteps b ≤ 2 ^ 32) && decide (topf b 863 832 < topSteps b) && topf b 31 0 % 8 == 0
/-- The record of the walker task (R228). -/
def walkerRecord (b : BitVec 1024) (a : Nat) (k : Task) : BitVec 256 :=
  BitVec.ofNat 256 (a + 2 ^ 68 * (k.textb.toNat / 16 % 2 ^ 44) + 2 ^ 112 * (k.txl % 2 ^ 16) + 2 ^ 160 * topf b 799 768
    + 2 ^ 192 * topf b 895 864 + 2 ^ 224 * topf b 817 813 + 2 ^ 230 + 2 ^ 231 * topf b 800 800 + 2 ^ 232 * topf b 812 801)
/-- `topb` (R228). -/
def execTopb (h : Hdr) (o : SYS) (s : State) : Out :=
  engineWord h o (fun e s => s.recordArg e o 128 64 fun a v =>
    let b := BitVec.ofNat 1024 v
    let r := walkerRecord b a e.task
    s.cleanFootprint e (topf b 895 864) <|
    let regs := s.footprint e.core e.task.part (topf b 895 864)
    match (if topOk b && s.recordOk e.task.key r true then regs else none) with
    | none => result15 s o.b (statusWord 2 0)
    | some regs =>
      s.askPush e o
        { rcd := r, topb := b, tvec := e.task.tvec, part := e.task.part, fn := e.task.fn, src := e.core, regions := regs }) s

/-! ## The end of a cycle (R226, R285) -/

/-- The order of requests of one cycle: `qunmap`, notifies, `qmap`, `dqpop`, pushes, steals. -/
def HtsOp.rank : HtsOp → Nat
  | .unmap _ => 0
  | .notify _ _ _ => 1
  | .map _ => 2
  | .pop _ => 3
  | .push _ => 4
  | .steal _ => 5
/-- Among requests of one kind: notifies by the address of the word, others by core. -/
def HtsReq.place (r : HtsReq) : Nat :=
  match r.op with
  | .notify _ _ a => a.toNat
  | _ => r.core
/-- Request `a` comes before request `b`, which was made after it. -/
def HtsReq.before (a b : HtsReq) : Bool :=
  decide (a.op.rank < b.op.rank) || (a.op.rank == b.op.rank && decide (a.place ≤ b.place))
/-- The request that is next, with the others. -/
def nextReq : List HtsReq → Option (HtsReq × List HtsReq)
  | [] => none
  | r :: rs =>
    match nextReq rs with
    | none => some (r, [])
    | some (q, qs) => if r.before q then some (r, rs) else some (q, r :: qs)
/-- The answer to a request, as the value of the result in flight. -/
def State.answerReq (s : State) (r : HtsReq) (st v : Nat) : State :=
  { s with flights := s.flights.map fun f =>
      if f.id = r.flight then { f with op := match f.op with
        | .scalar spec _ => .scalar spec (statusWord st v)
        | op => op } else f }
/-- The bottom entry of a deque, with the rest. -/
def popBottom (q : List DqEntry) : Option (DqEntry × List DqEntry) := q.getLast?.map fun d => (d, q.dropLast)
/-- The top entry of a deque that a function may steal, with the rest (R225, R356). -/
def firstStealable (fn : Nat) : List DqEntry → Option (DqEntry × List DqEntry)
  | [] => none
  | d :: q =>
    if d.fn = fn ∧ recf d.rcd 229 229 = 0 ∧ !d.stolen then some (d, q)
    else (firstStealable fn q).map fun (x, r) => (x, d :: r)
/-- An entry of core `v` moves to the bottom of core `own`, marked stolen (R225); its wait in the deque begins again (R290). -/
def State.steal (s : State) (own v : Nat) (d : DqEntry) (rest : List DqEntry) : State :=
  (s.updCore v fun c => { c with deque := rest }).updCore own fun c =>
    { c with deque := c.deque ++ [{ d with stolen := true, entered := s.cyc, eligibleAt := none }], stoleAt := s.cyc + 1 }
/-- The schedulers do what a request asks (R225, R234, R283, R286). -/
def State.serve (s : State) (r : HtsReq) : State :=
  let key := ctxKey r.part r.fn
  match r.op with
  | .unmap qaddr =>
    match s.findQueue key qaddr with
    | none => s.answerReq r 1 0
    | some (cl, true, slot, _) =>
      ((s.updHts cl fun h => { h with qslots := SMap.erase h.qslots slot }).grantSlot cl slot).answerReq r 0 0
    | some (cl, false, k, q) =>
      let s := if q.pnb.isSome then s.setPnb key (k % 256) false else s
      (s.updHts cl fun h => { h with qheld := SMap.erase h.qheld k }).answerReq r 0 0
  | .notify part fn qaddr => s.notify (ctxKey part fn) qaddr.toNat
  | .map q =>
    let cl := clusterOf r.core
    let event := match (s.ctx key).evMap with
      | some m => m.qaddr == q.qaddr
      | none => false
    if (s.findQueue key q.qaddr).isSome || event then s.answerReq r 3 0
    else
      match s.freeSlot cl key q.any q.want with
      | some slot => (s.updHts cl fun h => { h with qslots := SMap.set h.qslots slot q }).answerReq r 0 slot
      | none =>
        match s.freeHeld key with
        | none => s.answerReq r 2 0
        | some k => (s.updHts cl fun h => { h with qheld := SMap.set h.qheld (256 * key + k) q }).answerReq r 1 0
  | .pop a =>
    match popBottom (s.core r.core).deque with
    | none => s.answerReq r 1 0
    | some (d, q) =>
      if recf d.rcd 230 230 = 1 then s.answerReq r 2 0
      else
        let s := (((s.updCore r.core fun c => { c with deque := q }).unitDone d.uid).repend d.uid none)
        (s.engineWrite key (chunk8 ⟨some r.core, a⟩ (leBytes d.rcd.toNat 32))).1.answerReq r 0 d.ser
  | .push d =>
    if !s.dequeRoom d.target then (s.unitDone d.uid).answerReq r 1 0
    else
      let (ser, s) := s.push d
      s.answerReq r 0 ser
  | .steal v =>
    match firstStealable r.fn (s.core v).deque with
    | none => s.answerReq r 1 0
    | some (d, rest) => if !s.dequeRoom r.core then s.answerReq r 3 0 else (s.steal r.core v d rest).answerReq r 0 d.ser
/-- The next request of the cycle is served. -/
def State.serveNext (s : State) : State :=
  match nextReq s.htsReqs with
  | none => s
  | some (r, rs) => { s with htsReqs := rs }.serve r

end Sys2Proof.Machine
end

