-- ==== Sys2Proof/Machine/Booking.lean ====
section
/-!
DEFINITION. The Booking Unit's calendars: search and commit (R261 to R263), release, cancel and returned slots (R215, R216, R269),
overrun and slip (R265 to R268), and the words of group `0x28` (R211 to R217).
-/
namespace Sys2Proof.Machine

/-! ## Calendars and engines -/

/-- The calendar of an engine (R212, R254): 0 matrix, 1 copy, 2 memory channel group, 3 port, 4 reduction context. -/
def calNo (ecls inst : Nat) : Nat := [0, 768, 864, 912, 928].getD ecls 960 + inst
/-- The instances of a class (R1). -/
def instances (ecls : Nat) : Nat := [768, 96, 48, 16, 32].getD ecls 0
/-- The capacity of an engine of a class (R254). -/
def capacityOf (ecls : Nat) : Nat := if ecls = 2 ∨ ecls = 3 then 8 else 1
/-- An instance is available to a context (R212). -/
def State.available (s : State) (key ecls inst : Nat) : Bool :=
  match s.partition? key with
  | none => false
  | some p =>
    decide (inst < instances ecls) &&
    (if ecls = 0 then p.gmask.testBit (granuleOf inst)
     else if ecls = 1 then decide (s.granulesIn key (inst / 12) ≠ 0)
     else if ecls = 2 then p.gmask.testBit inst
     else if ecls = 3 then (match (s.ctx key).job with
       | some j => j.ports.testBit inst
       | none => false)
     else decide (ecls = 4))
/-- The instances that a stage names (R261). -/
def State.named (s : State) (key : Nat) (g : Stage) : List Nat :=
  if g.inst ≠ 0xFFF then [g.inst] else (List.range (instances g.ecls)).filter fun i => s.available key g.ecls i
/-- A calendar's intervals replaced. -/
def State.setCal (s : State) (c : Nat) (l : List Interval) : State := { s with bu := { s.bu with cals := SMap.set s.bu.cals c l } }
/-- The booking with handle `h` changed. -/
def State.updBooking (s : State) (h : BitVec 32) (f : Booking → Booking) : State :=
  { s with bu := { s.bu with bookings := s.bu.bookings.map fun b => if b.handle = h then f b else b } }
/-- Stage `n` of a booking. -/
def Booking.stage? (b : Booking) (n : Nat) : Option Stage := b.stages[n]?
/-- Stage `n` of booking `h` changed. -/
def State.updStage (s : State) (h : BitVec 32) (n : Nat) (f : Stage → Stage) : State :=
  s.updBooking h fun b => { b with stages := b.stages.mapIdx fun i g => if i = n then f g else g }
/-- The end slot of a booking: the first slot after its last held slot (R215); a stage released before it began holds none. -/
def Booking.endSlot (b : Booking) : Nat := (b.stages.filter fun g => !g.released).foldl (fun m g => max m g.fin) 0

/-! ## Search (R261) -/

/-- Held capacity of a calendar in a slot, tentative holds of other devices included (R275). -/
def State.heldCap (s : State) (c u : Nat) : Nat :=
  ((s.cal c).filter fun i => i.at? u).foldl (fun n i => n + i.cap) 0
  + ((s.bu.holds.filter fun h => h.cal == c && decide (h.first ≤ u) && decide (u < h.last + h.dur)).foldl (fun n h => n + h.cap) 0)
/-- Slot `u` can take a stage of the context (R256, R261, R270, R407). -/
def State.slotOk (s : State) (key : Nat) (g : Stage) (inst u : Nat) : Bool :=
  let c := calNo g.ecls inst
  decide (u < s.slot + Config.horizon)
  && (match s.partition? key with
      | some p => p.bookable (key % 128) u
      | none => false)
  && !(s.bu.marks.any fun m => m.1 == c && decide (m.2.1 ≤ u) && decide (u ≤ m.2.2))
  && decide (s.heldCap c u + g.cap ≤ capacityOf g.ecls)
  && !(g.ecls == 0 && s.limited u)
/-- The first slot of `a .. a + n - 1` that cannot take the stage. -/
def State.blocked (s : State) (key : Nat) (g : Stage) (inst a n : Nat) : Option Nat :=
  ((List.range n).map fun i => a + i).find? fun u => !s.slotOk key g inst u
/-- The least feasible start at or after `a` on one instance; `fuel` bounds the slots looked at by the horizon (R261). -/
def State.fitOn (s : State) (key : Nat) (g : Stage) (inst : Nat) : Nat → Nat → Option Nat
  | 0, _ => none
  | fuel + 1, a =>
    match s.blocked key g inst a g.dur with
    | none => some a
    | some u => if u ≥ s.slot + Config.horizon then none else s.fitOn key g inst fuel (u + 1)
/-- Entries of a calendar that are taken: live intervals, and one for each tentative hold, which a COMMIT turns into an interval (R254, R275;
DEDUCED, assumption log 79). -/
def State.entries (s : State) (c : Nat) : Nat := (s.cal c).length + s.bu.holds.countP fun h => h.cal == c
/-- `EarliestFit` (R261). `used` names the calendars that earlier stages of the same search take an entry of (R254). -/
def State.earliestFit (s : State) (key : Nat) (used : List Nat) (g : Stage) (lo : Nat) : Option (Nat × Nat) :=
  (s.named key g).foldl (fun best i =>
    if s.entries (calNo g.ecls i) + used.count (calNo g.ecls i) ≥ Config.calEntries then best
    else
      match s.fitOn key g i (Config.horizon + 1) lo with
      | none => best
      | some a =>
        match best with
        | none => some (i, a)
        | some (_, b) => if a < b then some (i, a) else best) none

/-- What the loop body of `Search` answers. -/
inductive Placed where
  | none
  /-- the whole chain is shifted later by so many slots -/
  | later (n : Nat)
  | all (ps : List (Nat × Nat))
deriving DecidableEq, Repr
/-- How a stage is fitted: the calendars that earlier stages of the search use, its number, the stage and the least start. -/
abbrev Fit := List Nat → Nat → Stage → Nat → Option (Nat × Nat)
/-- The stages of one step, the first with number `n`, fitted at one common start, the least from `lo` on: each stage's instance,
and the start. An ordinary booking has one stage in each step. -/
def fitStep (fit : Fit) (used : List Nat) (n : Nat) (gs : List Stage) : Nat → Nat → Option (List Nat × Nat)
  | 0, _ => none
  | fuel + 1, lo =>
    match ((List.range gs.length).zip gs).mapM fun (i, g) => fit used (n + i) g lo with
    | none => none
    | some ps =>
      let st := ps.foldl (fun m p => max m p.2) lo
      if ps.all fun p => p.2 == st then some (ps.map (·.1), st) else fitStep fit used n gs fuel st
/-- The calendars that the placed stages of a step use; a remote stage uses none here. -/
def usedBy (gs : List Stage) (xs : List Nat) : List Nat :=
  (gs.zip xs).filterMap fun (g, x) => if g.rmt || g.ended then none else some (calNo g.ecls x)
/-- The stages split into steps (R342). -/
def stepsOf : List Stage → List (List Stage)
  | [] => []
  | g :: rest =>
    match stepsOf rest with
    | (g' :: gs) :: more => if g'.step = g.step then (g :: g' :: gs) :: more else [g] :: (g' :: gs) :: more
    | more => [g] :: more
/-- The longest of a step's stages. -/
def stepDur (gs : List Stage) : Nat := gs.foldl (fun m g => max m g.dur) 0
/-- The steps after one that ends at slot `e`, the next stage having number `n` (R261). -/
def chain (fit : Fit) : List Nat → Nat → Nat → List (List Stage) → Placed
  | _, _, _, [] => .all []
  | used, n, e, gs :: rest =>
    let gmin := gs.foldl (fun m g => max m g.gmin) 0
    let gmax := gs.foldl (fun m g => min m g.gmax) 255
    match fitStep fit used n gs (Config.horizon + 1) (e + gmin) with
    | Option.none => .none
    | some (xs, st) =>
      if st > e + gmax then .later (st - e - gmax)
      else
        match chain fit (used ++ usedBy gs xs) (n + gs.length) (st + stepDur gs) rest with
        | .all ps => .all (xs.map (fun x => (x, st)) ++ ps)
        | r => r
/-- `Search` from slot `t`, the first stage being number `n` and starting no later than `last` (R261, R268). -/
def searchSteps (fit : Fit) (n : Nat) (ss : List (List Stage)) (last : Option Nat) (deadline : Option Nat) :
    Nat → Nat → Option (List (Nat × Nat))
  | 0, _ => none
  | fuel + 1, t =>
    match ss with
    | [] => some []
    | gs :: rest =>
      match fitStep fit [] n gs (Config.horizon + 1) t with
      | none => none
      | some (xs, st) =>
        if (match last with | some l => decide (l < st) | none => false) then none
        else
          match chain fit (usedBy gs xs) (n + gs.length) (st + stepDur gs) rest with
          | .none => none
          | .later d => searchSteps fit n ss last deadline fuel (st + d)
          | .all ps =>
            let qs := xs.map (fun x => (x, st)) ++ ps
            let e := (qs.zip ss.flatten).foldl (fun m (p, g) => max m (p.2 + g.dur)) 0
            if (match deadline with | some d => decide (d < e) | none => false) then none else some qs
/-- `Search` of a list of stages (R261). -/
def searchFrom (fit : Fit) (n : Nat) (gs : List Stage) (last : Option Nat) (deadline : Option Nat) (fuel t : Nat) :
    Option (List (Nat × Nat)) := searchSteps fit n (stepsOf gs) last deadline fuel t
/-- The fit of local stages, remote ones taken as free (R261, R274). -/
def State.fitFree (s : State) (key : Nat) : Fit := fun used _ g lo =>
  if g.rmt then some (g.inst, lo) else s.earliestFit key used g lo

/-- The collective whose member's handle a booking is (R342). -/
def State.collAt (s : State) (b : Booking) : Option Coll :=
  b.coll.bind fun t => s.colls.find? fun c => ctxKey c.part c.fn == ctxKey b.part b.fn && c.tag == t
/-- The first slot after all that a collective holds on this device; 0 for any other booking. -/
def State.memberEnd (s : State) (b : Booking) : Nat :=
  match s.collAt b with
  | none => 0
  | some c => s.bu.cals.foldl (fun m k => (k.2.filter (s.collInterval c)).foldl (fun m i => max m (i.start + i.len)) m) 0
/-- The lower bound `rel` of a request as far as it is known, and whether all of it is: a unit it depends on that is no placed booking gives no
fit (R261). -/
def State.lowerBound (s : State) (b : Booking) : Nat × Bool :=
  let key := ctxKey b.part b.fn
  let after (r : Nat × Bool) (f : Booking) : Nat × Bool :=
    if f.st = .deferred then (r.1, false) else (max r.1 (max f.endSlot (s.memberEnd f)), r.2)
  let fol := b.fol.foldl (fun r h => match s.booking? key h with
    | some f => after r f
    | none => r) (max b.rls (s.slot + 2), true)
  let deps := s.hts.flatMap fun h => (h.2.table.filter fun u => u.uid == b.uid).flatMap (·.deps)
  deps.foldl (fun r d => match s.bu.bookings.find? fun f => f.uid == d with
    | some f => after r f
    | none => (r.1, false)) fol
/-- The deadline of a booking, if it has one (R211). -/
def Booking.deadline (b : Booking) : Option Nat := if b.dlv then some (b.rls + b.dln) else none
/-- The placement of a request without remote stages (R261). -/
def State.search (s : State) (b : Booking) : Option (List (Nat × Nat)) :=
  let (rel, known) := s.lowerBound b
  if known then searchFrom (s.fitFree (ctxKey b.part b.fn)) 0 b.stages none b.deadline (Config.horizon + 1) rel else none

/-! ## Moves -/

/-- A `BST` value (R30). -/
def bstWord (slot : Nat) : Word := BitVec.ofNat 64 (2 ^ 63 + slot % 2 ^ 58)
/-- A stage's start as reported, with the stamps of its commands that have not started moved by `d` slots (R162, R217). -/
def State.reportStart (s : State) (h : BitVec 32) (n start : Nat) (d : Int) : State :=
  { s with cores := s.cores.map fun (i, c) =>
      (i, { c with
        slots := c.slots.map fun (sl, k) => (sl, if k.bhnd = h then { k with bst := SMap.set k.bst n (bstWord start) } else k)
        mxe := { c.mxe with queue := c.mxe.queue.map fun m =>
          let own := match SMap.find? c.slots m.slot with
            | some k => k.bhnd == h
            | none => false
          if own && m.stage == some n && m.running.isNone then
            { m with stamp := m.stamp.map fun t => ((t : Int) + 64 * d).toNat }
          else m } }) }

/-! ## Commit (R263) -/

/-- Interval entries for a placed local stage. -/
def State.addInterval (s : State) (h : BitVec 32) (n : Nat) (g : Stage) (inst start len : Nat) : State :=
  let c := calNo g.ecls inst
  s.setCal c (s.cal c ++ [{ start := start, len := len, cap := g.cap, handle := h, stage := n }])
/-- The entries of booking `h` from stage `n` on leave their calendars. -/
def State.removeFrom (s : State) (h : BitVec 32) (n : Nat) : State :=
  { s with bu := { s.bu with cals := s.bu.cals.map fun (p : Nat × List Interval) => (p.1, p.2.filter fun i => !(i.own h && decide (n ≤ i.stage))) } }
/-- Stages `n ..` of a booking take their places; the first placement moves nothing (R162, R263, R268). -/
def State.place (s : State) (h : BitVec 32) (n : Nat) : List (Nat × Nat) → State
  | [] => s
  | (x, st) :: ps =>
    let s := match s.bu.bookings.find? fun b => b.handle == h with
      | none => s
      | some b =>
        match b.stage? n with
        | none => s
        | some g =>
          let s := if g.rmt || g.ended then s else s.addInterval h n g x st g.dur
          let s := s.updStage h n fun g => { g with rinst := x, start := st, fin := st + g.dur, placed := true }
          s.reportStart h n st ((st : Int) - (g.start : Int))
    s.place h (n + 1) ps
/-- The record's result area after a commit (R214): `RLS`, and `ROFF` and `RINST` of each stage, as stores of class 0 (R205). -/
def State.writeResult (s : State) (b : Booking) (eff : Nat) : State :=
  match b.resultAt with
  | none => s
  | some a =>
    let key := ctxKey b.part b.fn
    let put (s : State) (off n v : Nat) : State := (s.engineWrite key (chunk8 ⟨some b.core, a + off⟩ (leBytes v n))).1
    let s := put s 16 8 (eff % 2 ^ 58)
    ((List.range b.stages.length).zip b.stages).foldl (fun s (n, g) =>
      put s (32 + 12 * n + 8) 4 (2 ^ 4 * (g.rinst % 2 ^ 12) + 2 ^ 16 * ((g.start - eff) % 2 ^ 16))) s
/-- A stage that was released while the request was deferred ends without work (R216). -/
def Stage.endIfReleased (g : Stage) : Stage := if g.released then { g with ended := true } else g
/-- A booking has reached a final state: its unit completes (R209, R213). -/
def State.finalize (s : State) (h : BitVec 32) (st : BState) : State :=
  match s.bu.bookings.find? fun b => b.handle == h with
  | none => s
  | some b =>
    (s.updBooking h fun b => { b with
      st := st, finalSlot := s.slot, stages := b.stages.map fun g => { g with fin := min g.fin (s.slot + 1) } }).unitDone b.uid
/-- A placement is committed (R263). -/
def State.commit (s : State) (b : Booking) (ps : List (Nat × Nat)) : State :=
  let eff := max b.rls (s.slot + 2)
  let s := s.place b.handle 0 ps
  let s := { s with bu := { s.bu with commits := s.bu.commits + 1 } }
  let s := s.updBooking b.handle fun b => { b with st := .committed, rel := eff, committed := s.bu.commits }
  let s := match s.bu.bookings.find? fun c => c.handle == b.handle with
    | none => s
    | some c => s.writeResult c eff
  let rel (s : State) (n : Nat) : State :=
    { s with bu := { s.bu with cals := s.bu.cals.map fun (p : Nat × List Interval) => (p.1, p.2.filter fun i => !(i.own b.handle && i.stage == n)) } }
  let s := ((List.range b.stages.length).zip b.stages).foldl (fun s (n, g) => if g.released then rel s n else s) s
  s.updBooking b.handle fun b => { b with stages := b.stages.map Stage.endIfReleased }

/-! ## Handles (R213) -/

/-- The next serial that no live or queryable handle of the partition carries; `fuel` bounds the skips. -/
def nextSerialFrom (used : Nat → Bool) : Nat → Nat → Nat
  | 0, n => n
  | fuel + 1, n => if used n then nextSerialFrom used fuel (if n + 1 = 2 ^ 26 then 1 else n + 1) else n
/-- The handle that the partition's next decided request gets (R213). -/
def State.nextHandle (s : State) (part : Nat) : BitVec 32 :=
  let start := SMap.get s.bu.serials 1 part
  let used (n : Nat) : Bool := s.bu.bookings.any fun b => b.handle == BitVec.ofNat 32 (part * 2 ^ 26 + n)
  BitVec.ofNat 32 (part * 2 ^ 26 + nextSerialFrom used (s.bu.bookings.length + 1) start)
/-- The handle is taken into use. -/
def State.takeHandle (s : State) (part : Nat) : BitVec 32 × State :=
  let h := s.nextHandle part
  let n := h.toNat % 2 ^ 26 + 1
  (h, { s with bu := { s.bu with serials := SMap.set s.bu.serials part (if n = 2 ^ 26 then 1 else n) } })

/-! ## Messages to other Booking Units (R274 to R276) -/

/-- The bytes of a booking message in a `BOOK` packet; slots are fabric slots (R331). -/
def bookBytes (m : BookMsg) (off : Int) : List Byte :=
  leBytes m.handle.toNat 4 ++ leBytes m.stage 1 ++ leBytes m.ecls 1 ++ leBytes m.inst 2 ++ leBytes m.cap 1 ++ leBytes m.dur 2
    ++ leBytes ((m.lo : Int) + off).toNat 8 ++ leBytes ((m.hi : Int) + off).toNat 8
/-- A booking message sent to a device: subtype 0 HOLD, 1 HOLD reply, 2 COMMIT, 3 RELEASE, 4 end report. -/
def State.sendBook (s : State) (key dev sub : Nat) (m : BookMsg) : State :=
  s.sendOff key dev { ty := 13, sub := BitVec.ofNat 4 sub, rqdev := BitVec.ofNat 12 (s.ctx key).devNo,
                      payload := bookBytes m s.bu.beaconOff }
/-- RELEASE to the device of every remote stage of a booking from stage `m` on. -/
def State.sendReleases (s : State) (b : Booking) (m : Nat) : State :=
  ((List.range b.stages.length).zip b.stages).foldl (fun s (n, g) =>
    if g.rmt && decide (m ≤ n) then s.sendBook (ctxKey b.part b.fn) g.dev 3 { dev := g.dev, handle := b.handle, stage := n } else s) s

/-! ## Early finish, release, cancel (R215, R216, R269) -/

/-- The slots of stage `n` from slot `t` on return in the first cycle of the next slot (R269). -/
def State.returnFrom (s : State) (h : BitVec 32) (n t : Nat) : State :=
  { s with bu := { s.bu with returns := s.bu.returns ++ [{ handle := h, stage := n, first := t }] } }
/-- The work of a stage is done: its remaining slots return, and it has ended (R111, R216, R269). -/
def State.earlyFinish (s : State) (h : BitVec 32) (n : Nat) : State :=
  (s.returnFrom h n (s.slot + 1)).updStage h n fun g => { g with ended := true, fin := min g.fin (s.slot + 1) }
/-- A booking whose stages have all ended is Done (R216); one that expands a collective, when the member has written its record, since a redo
adds to its stages (R349). -/
def State.doneIfEnded (s : State) (h : BitVec 32) : State :=
  match s.bu.bookings.find? fun b => b.handle == h with
  | none => s
  | some b =>
    if (b.st = .committed ∨ b.st = .running) ∧ b.stages.all (·.ended) ∧ (s.collAt b).isNone then s.finalize h .done else s
/-- The matrix commands and copy rows of the stages from `m` on of a cancelled booking that run on mark the slots they take (R256, R269). -/
def State.markRunning (s : State) (h : BitVec 32) (m : Nat) : State :=
  let mx := s.cores.flatMap fun (n, c) =>
    (c.mxe.queue.filter fun q => q.runs s.cyc && (match SMap.find? c.slots q.slot with
      | some k => k.bhnd == h
      | none => false) && decide (m ≤ q.stage.getD m)).filterMap fun q => q.running.map fun t => (n, s.slot, t / 64)
  let ce := s.packets.filterMap fun p =>
    if p.handle = h ∧ m ≤ p.stage then p.running.map fun t =>
      (calNo 1 p.engine, s.slot, (t + p.cyclesFrom (p.toMove * p.perRow - p.nextUnit) (p.nextUnit + 1) - 1) / 64) else none
  { s with bu := { s.bu with marks := s.bu.marks ++ mx ++ ce } }
/-- Deficits of contexts whose queue on an engine holds no packet become 0 (R362); `held` says whether it holds one. -/
def State.clearDeficits (s : State) (held : Nat → Nat → Bool) : State :=
  { s with hts := s.hts.map fun (p : Nat × Hts) => (p.1, { p.2 with deficit := p.2.deficit.filter fun d => held (d.1 / 16384) (d.1 % 16384) }) }
/-- A packet that its cancel ends: it moves the row in progress, if there is one, and nothing more (R215, R220). -/
def CopyPkt.cut (p : CopyPkt) (st : Nat) : CopyPkt :=
  { p with withdrawn := st, rowLimit := some (p.nextUnit / p.perRow + (if p.running.isSome ∨ p.nextUnit % p.perRow ≠ 0 then 1 else 0)) }
/-- The copy packets of the stages from `m` on of a cancelled booking complete with status 5 (R215, R220). -/
def State.cancelPackets (s : State) (h : BitVec 32) (m : Nat) : State :=
  let s := s.updPackets (fun p => p.handle == h && decide (m ≤ p.stage) && p.withdrawn == 0 && !p.over) fun p => p.cut 5
  s.clearDeficits fun e k => s.packets.any fun p => p.engine == e && ctxKey p.part p.fn == k && p.withdrawn == 0 && !p.over
/-- A task dispatched under booking `h`, whose stage on its core, if it has one, is number `m` or later: it has been cancelled (R229). -/
def cancelTask (b : Booking) (core m : Nat) (k : Task) : Task :=
  if k.bhnd = b.handle ∧ k.part = b.part ∧ k.fn = b.fn ∧
      !(((List.range b.stages.length).zip b.stages).any fun x => decide (x.1 < m) && x.2.ecls == 0 && x.2.rinst == core && !x.2.ended) then
    { k with cancelled := true } else k
/-- The tasks dispatched under a booking, in their slots or kept by a save, learn of its cancel (R229). -/
def State.cancelTasks (s : State) (b : Booking) (m : Nat) : State :=
  let on (n : Nat) (c : Core) : Core := { c with slots := c.slots.map fun (sl, k) => (sl, cancelTask b n m k) }
  let own := s.coresOf b.part
  let s := { s with cores := s.cores.map fun (n, c) => (n, on n c) }
  s.updCtx (ctxKey b.part b.fn) fun c => { c with kept := c.kept.map fun (i, k) => (i, on (own.getD i 0) k) }
/-- The requests that wait for a booking to be decided leave the queue; a word's own request stays. -/
def State.dropRequests (s : State) (h : BitVec 32) : State :=
  { s with bu := { s.bu with reqs := s.bu.reqs.filter fun r => match r.kind with
    | .book c _ => c.handle != h || r.flight != 0
    | .replace g _ _ _ => g != h
    | _ => true } }
/-- A booking is cancelled, or ends as if cancelled with state `st`: every slot from the next one on returns (R215). -/
def State.cancelBooking (s : State) (h : BitVec 32) (st : BState) : State :=
  match s.bu.bookings.find? fun b => b.handle == h with
  | none => s
  | some b =>
    if !b.live then s
    else
      let s := (((s.cancelPackets h 0).markRunning h 0).cancelTasks b 0).sendReleases b 0
      let s := { s with colls := s.colls.map fun (c : Coll) => if c.handle = h then { c with cancelled := true } else c }
      let s := (List.range b.stages.length).foldl (fun s n => s.returnFrom h n (s.slot + 1)) s
      let s := (s.dropRequests h).updBooking h fun b => { b with stages := b.stages.map fun g => { g with ended := true } }
      s.finalize h st
/-- A booking ends as if cancelled at stage `m`, the first one removed: its earlier stages keep their slots, and the handle is NOFIT (R268). -/
def State.endFrom (s : State) (h : BitVec 32) (m : Nat) : State :=
  match s.bu.bookings.find? fun b => b.handle == h with
  | none => s
  | some b =>
    if !b.live then s
    else if m = 0 then s.cancelBooking h .nofit
    else
      let s := (((s.cancelPackets h m).markRunning h m).cancelTasks b m).sendReleases b m
      let s := ((s.removeFrom h m).dropRequests h).updBooking h fun b =>
        { b with st := .nofit, finalSlot := s.slot
                 stages := b.stages.mapIdx fun i g => if m ≤ i then { g with ended := true, released := true } else g }
      s.unitDone b.uid

/-! ## Records and words (R211 to R216) -/

/-- Stage `n` of a booking record as a number. -/
def stageBits (r n : Nat) : Nat := fld r (256 + 96 * n + 95) (256 + 96 * n)
/-- The stage of an entry (R212). -/
def stageOfBits (x : Nat) : Stage :=
  { ecls := fld x 63 60, inst := fld x 59 48, dev := fld x 47 36, rmt := fld x 35 35 == 1, cap := fld x 34 31, dur := fld x 28 16,
    gmin := fld x 7 0, gmax := fld x 15 8 }
/-- A stage entry is valid; bits 95:80 and 79:68 are the unit's. One that names any instance of a class of which none is available to the
partition breaks the limit of R212 and is Invalid (DEDUCED, assumption log 80: R212 does not say it, and NOFIT would be the other reading). -/
def State.stageOk (s : State) (key n x : Nat) : Bool :=
  let g := stageOfBits x
  fld x 67 64 == 0 && fld x 30 29 == 0 && decide (g.ecls ≤ 4) && decide (1 ≤ g.cap) && decide (g.cap ≤ capacityOf g.ecls)
  && decide (1 ≤ g.dur) && decide (g.dur ≤ 4096) && decide (g.gmin ≤ g.gmax) && (n != 0 || (g.gmin == 0 && g.gmax == 0))
  && (g.rmt || g.dev == 0)
  && (if g.rmt then decide (g.inst < instances g.ecls) || g.inst == 0xFFF
      else if g.inst == 0xFFF then !(s.named key g).isEmpty else s.available key g.ecls g.inst)
/-- The booking of a record, if it is valid (R211, R212); its footprint is `regs`. -/
def State.bookingOf (s : State) (k : Task) (core a r : Nat) : Option (Booking × Bool) :=
  let n := fld r 251 248
  let key := k.key
  let xs := (List.range 8).map (stageBits r)
  let fols := (List.range 4).map fun i => BitVec.ofNat 32 (fld r (32 * i + 31) (32 * i))
  let remote := fld r 253 253 == 1
  let gs := (xs.take n).mapIdx fun i x => { stageOfBits x with step := i }
  if 1 ≤ n ∧ n ≤ 8 ∧ fld r 247 245 = 0 ∧ fld r 191 186 = 0 ∧ (fld r 255 255 = 1 ∨ fld r 239 224 = 0)
      ∧ ((List.range n).all fun i => s.stageOk key i (xs.getD i 0)) ∧ ((xs.drop n).all fun x => x == 0)
      ∧ remote = gs.any (·.rmt)
      ∧ (fols.all fun f => f == 0 || f.toNat / 2 ^ 26 == k.part)
  then
    some ({ handle := 0, part := k.part, fn := k.fn, core := core, st := .committed, stages := gs, fol := fols.filter (· != 0),
            prio := fld r 244 240, rls := fld r 185 128, dlv := fld r 255 255 == 1, dln := fld r 239 224,
            altok := fld r 252 252 == 1, accepted := s.cyc, cluster := clusterOf core, resultAt := some a, remote := remote },
          fld r 254 254 == 1)
  else none

/-- The front end of a cluster accepts a request now (R258). -/
def State.frontFree (s : State) (cluster : Nat) : Bool := decide (SMap.get s.bu.front 0 cluster = 0 ∨ SMap.get s.bu.front 0 cluster + 3 ≤ s.cyc)
/-- A request enters the central queue; its word's flight is the next one added (R258, R259). -/
def State.enqueue (s : State) (e : Env) (prio : Nat) (aging : Bool) (k : ReqKind) : State :=
  let cl := clusterOf e.core
  { s with bu := { s.bu with
      front := SMap.set s.bu.front cl (s.cyc + 1)
      reqs := s.bu.reqs ++ [{ seq := s.nextId, prio := prio, aging := aging, accepted := s.cyc, cluster := cl, flight := s.nextId,
                              part := e.task.part, fn := e.task.fn, kind := k }] } }
/-- A word that asks the central unit, and whose result lands after the decision (R258). -/
def askUnit (s : State) (e : Env) (o : SYS) (prio : Nat) (aging : Bool) (k : ReqKind) : Res :=
  if !s.frontFree (clusterOf e.core) then .stall
  else .fly (s.enqueue e prio aging k) { lat := 15, op := .engine o.b.toNat }
/-- `book` (R214). -/
def execBook (h : Hdr) (o : SYS) (s : State) : Out :=
  engineWord h o (fun e s => s.recordArg e o 128 64 fun a r =>
    s.cleanFootprint e (fld r 223 192) <|
    match s.bookingOf e.task e.core a r, s.footprint e.core e.task.part (fld r 223 192) with
    | some (b, defer), some regs =>
      if !s.frontFree (clusterOf e.core) || !s.tableRoom (clusterOf e.core) e.task.key regs then .stall
      else
        let (uid, s) := s.submit (clusterOf e.core) e.task.key e.core regs
        askUnit s e o b.prio true (.book { b with uid := uid } defer)
    | _, _ => result15 s o.b (statusWord 3 0)) s
/-- The handle in `A`. -/
def Env.handleArg (e : Env) (o : SYS) : BitVec 32 := (e.src o.a).setWidth 32
/-- `bkqry` (R215). -/
def execBkqry (h : Hdr) (o : SYS) (s : State) : Out :=
  engineWord h o (fun e s => askUnit s e o 31 false (.query (e.handleArg o) (fld o.imm.toNat 2 0))) s
/-- `bkcan` (R215). -/
def execBkcan (h : Hdr) (o : SYS) (s : State) : Out :=
  engineWord h o (fun e s => askUnit s e o 31 false (.cancel (e.handleArg o))) s
/-- `bkrel` (R216). -/
def execBkrel (h : Hdr) (o : SYS) (s : State) : Out :=
  engineWord h o (fun e s => askUnit s e o 31 false (.release (e.handleArg o) (fld o.imm.toNat 2 0))) s

/-- The code of a booking's state (R207). -/
def stateCode (b : Option Booking) : Nat :=
  match b with
  | none => 0
  | some b =>
    match b.st with
    | .deferred => 1
    | .committed => 2
    | .running => 3
    | .done => 4
    | .cancelled => 5
    | .nofit => 6
/-- The slots from `t` on that stage `n` of a booking holds: those of its intervals, or of its placement on another device. -/
def State.heldFrom (s : State) (h : BitVec 32) (n : Nat) (g : Stage) (t : Nat) : Nat :=
  if g.rmt then g.fin - max g.start t
  else s.bu.cals.foldl (fun m c => (c.2.filter fun i => i.own h && i.stage == n).foldl (fun m i => m + (i.start + i.len - max i.start t)) m) 0
/-- `bkrel` decided (R216): the result and the state. -/
def State.releaseStage (s : State) (key : Nat) (h : BitVec 32) (n : Nat) : Word × State :=
  match s.booking? key h with
  | none => (statusWord 2 0, s)
  | some b =>
    match b.stage? n with
    | none => (statusWord 1 0, s)
    | some g =>
      if b.st = .deferred then (statusWord 0 0, s.updStage h n fun g => { g with released := true })
      else if g.ended ∨ !b.live then (statusWord 1 0, s)
      else
        let s' := if g.begun then s.earlyFinish h n
          else (s.returnFrom h n 0).updStage h n fun g => { g with ended := true, released := true }
        let s' := if g.rmt then s'.sendBook key g.dev 3 { dev := g.dev, handle := h, stage := n } else s'
        (statusWord 0 (s.heldFrom h n g (s.slot + 1)), s'.doneIfEnded h)
/-- `bkcan` decided (R215). -/
def State.cancelAsked (s : State) (key : Nat) (h : BitVec 32) : Word × State :=
  let b := s.booking? key h
  (statusWord (stateCode b) 0, match b with
    | some _ => s.cancelBooking h .cancelled
    | none => s)
/-- The start slot of a placed stage; of a collective that of step `n`, which is that of the step's first stage, or at a member that has only
its own stages, of the interval of its own (R342). -/
def State.startOf (s : State) (b : Booking) (n : Nat) : Option Nat :=
  match b.coll with
  | none => (b.stage? n).bind fun g => if g.placed then some g.start else none
  | some _ =>
    if b.stages.isEmpty then
      (s.collAt b).bind fun c => (c.plan[n]?.bind fun st => st.stage.or st.rctx).bind fun m =>
        ((s.bu.cals.flatMap (·.2)).filter fun i => s.collInterval c i && i.stage == m).map (·.start) |>.min?
    else ((b.stages.filter fun g => g.step == n && g.placed).map (·.start)).min?
/-- `bkqry` decided (R207, R215, R342). -/
def State.queryAsked (s : State) (key : Nat) (h : BitVec 32) (n : Nat) : Word :=
  let b := s.booking? key h
  statusWord (stateCode b) (((b.bind fun b => s.startOf b n).getD 0) % 2 ^ 58)

/-! ## Slip (R268) -/

/-- The stages of a booking from `first` on are to be placed by the exchange of R274 (R276). -/
def State.askReplace (s : State) (b : Booking) (first lo last : Nat) : State :=
  { s with nextId := s.nextId + 1, bu := { s.bu with reqs := s.bu.reqs ++
      [{ seq := s.nextId, prio := b.prio, aging := true, accepted := s.cyc, cluster := b.cluster, flight := 0, part := b.part,
         fn := b.fn, kind := .replace b.handle first lo last }] } }
/-- The stages of a booking from `n` on leave their places, and are asked for again from slot `lo` on (R350). -/
def State.replaceFrom (s : State) (h : BitVec 32) (n lo : Nat) : State :=
  match s.bu.bookings.find? fun b => b.handle == h with
  | none => s
  | some b =>
    if b.stages.length ≤ n ∨ !b.live then s
    else
      let s := (s.removeFrom h n).updBooking h fun b =>
        { b with stages := b.stages.mapIdx fun i g => if n ≤ i then { g with placed := false, begun := false, ended := false } else g }
      s.askReplace b n (max lo (s.slot + 2)) (s.slot + Config.horizon)
/-- Stage `m` and the later stages of `h` re-placed when stage `m` no longer fits the end of the stage before it (R268); a chain
with a remote stage is placed again by the exchange (R276). -/
def State.slipStages (s : State) (h : BitVec 32) (m : Nat) : State :=
  match s.bu.bookings.find? fun b => b.handle == h with
  | none => s
  | some b =>
    match b.stage? (m - 1), b.stage? m with
    | some p, some g =>
      if g.begun ∨ g.ended ∨ !b.live then s
      else if p.fin + g.gmin ≤ g.start ∧ g.start ≤ p.fin + g.gmax then s
      else
        let s := s.removeFrom h m
        let lo := max (p.fin + g.gmin) (max g.start (s.slot + 2))
        let last := p.fin + g.gmax
        if (b.stages.drop m).any (·.rmt) then
          s.askReplace b m lo last
        else
          match searchFrom (s.fitFree (ctxKey b.part b.fn)) m (b.stages.drop m) (some last) b.deadline (Config.horizon + 1) lo with
          | none => s.endFrom h m
          | some ps => s.place h m ps
    | _, _ => s
/-- Bookings that follow `h` by handle or by footprint, in commit order (R268). -/
def State.followers (s : State) (h : BitVec 32) (uid : Nat) : List (BitVec 32) :=
  let fs := s.bu.bookings.filter fun g => g.live && g.st != .deferred && g.handle != h &&
    (g.fol.contains h || s.hts.any fun x => x.2.table.any fun u => u.uid == g.uid && uid != 0 && u.deps.contains uid)
  (fs.mergeSort fun a b => decide (a.committed ≤ b.committed)).map (·.handle)
/-- `Slip` (R268); a follower without a placement is NOFIT, and what runs under it ends as with a cancel (DEDUCED, assumption log 81); `fuel` bounds the chain of followers. -/
def State.slip (s : State) : Nat → BitVec 32 → Nat → State
  | 0, _, _ => s
  | fuel + 1, h, k =>
    let s := s.slipStages h (k + 1)
    match s.bu.bookings.find? fun b => b.handle == h with
    | none => s
    | some b =>
      (s.followers h b.uid).foldl (fun s g =>
        match s.bu.bookings.find? fun c => c.handle == g with
        | none => s
        | some c =>
          match c.stages with
          | [] => s
          | g0 :: _ =>
            if g0.begun ∨ b.endSlot ≤ g0.start ∨ !c.live then s
            else
              let s := s.removeFrom g 0
              let lo := max b.endSlot (max g0.start (s.slot + 2))
              if c.stages.any (·.rmt) then s.askReplace c 0 lo (s.slot + Config.horizon)
              else
                match searchFrom (s.fitFree (ctxKey c.part c.fn)) 0 c.stages none c.deadline (Config.horizon + 1) lo with
                | none => s.cancelBooking g .nofit
                | some ps => (s.place g 0 ps).slip fuel g (c.stages.length - 1)) s

/-! ## Overrun (R265, R266) -/

/-- The bytes of a copy stage not yet written: of its packets, and of a collective's tiles (R265, R342). -/
def State.copyLeft (s : State) (i : Interval) : Nat :=
  (s.packets.filter fun p => p.inStage i.handle i.stage).foldl (fun n p => n + p.left) 0
  + ((s.colls.filter fun k => s.collInterval k i).foldl (fun n k =>
      n + ((List.range k.plan.length).zip k.plan).foldl (fun n (j, st) =>
        if st.stage = some i.stage then
          n + (if st.begun then (k.queue.filter fun q => q.1 == j).foldl (fun n q => n + q.2.len) 0
               else st.sends.foldl (fun n x => n + x.len) 0)
        else n) 0) 0)
/-- A walker task has a step that it has not begun. -/
def Task.stepsAhead (k : Task) : Bool :=
  recf k.rcd 230 230 == 1 && (k.fresh || decide ((if k.stepBegun then k.step + 1 else k.step) < topSteps k.topb))
/-- Work of a stage on an engine that cannot end within the present slot (R265). -/
def State.pastEnd (s : State) (c : Nat) (i : Interval) : Bool :=
  match s.bu.bookings.find? fun b => b.handle == i.handle with
  | none => false
  | some b =>
    match b.stage? i.stage with
    | none => false
    | some g =>
      if g.ended then false
      else if c < 768 then
        let k := s.core c
        let left := (k.mxe.queue.filter fun m => m.stage == some i.stage && !m.done &&
          (match SMap.find? k.slots m.slot with
           | some t => t.bhnd == i.handle
           | none => false)).foldl (fun n m => n + (match m.running with
              | some t => t + 1 - s.cyc
              | none => m.span)) 0
        decide (64 < left) || (k.slots.any fun (_, t) => t.bhnd == i.handle && t.stepsAhead)
          || k.deque.any fun d => d.bh == i.handle && recf d.rcd 230 230 == 1
      else if c < 864 then decide (64 * Config.copyRate < s.copyLeft i)
      else if 928 ≤ c then
        s.colls.any fun k => s.collInterval k i && k.plan.any fun st => st.rctx == some i.stage && !st.begun
      else false
/-- Walker tasks under a booking begin no step before cycle `t` (R266). -/
def State.holdWalkers (s : State) (core : Nat) (h : BitVec 32) (t : Nat) : State :=
  s.updCore core fun c => { c with slots := c.slots.map fun (sl, k) =>
    (sl, if k.bhnd = h ∧ recf k.rcd 230 230 = 1 then { k with stepHold := some t } else k) }
/-- A stage stops in the interval `i` of a calendar: no further step of a collective begins in it (R266). -/
def State.stopIn (s : State) (c : Nat) (i : Interval) : State :=
  s.setCal c ((s.cal c).map fun j => if j = i then { j with stopped := true } else j)
/-- The start of a continuation of a stage on calendar `c` (R261, R266). -/
def State.continueOn (s : State) (c key : Nat) (g : Stage) (inst : Nat) : Option Nat :=
  if s.entries c ≥ Config.calEntries then none else s.fitOn key g inst (Config.horizon + 1) (s.slot + 2)
/-- The overrun of one interval in the first cycle of its last slot (R266): the state and whether the stage's end grew. -/
def State.overrun (s : State) (c : Nat) (i : Interval) : State × Bool :=
  match s.bu.bookings.find? fun b => b.handle == i.handle with
  | none => (s, false)
  | some b =>
    match b.stage? i.stage with
    | none => (s, false)
    | some g =>
      let key := ctxKey b.part b.fn
      let l := s.slot
      if s.slotOk key g g.rinst (l + 1) && decide (i.len < 8191) then
        let s := s.setCal c ((s.cal c).map fun j => if j = i then { j with len := j.len + 1 } else j)
        (s.updStage i.handle i.stage fun g => { g with fin := l + 2 }, true)
      else
        let n := if c < 864 ∧ 768 ≤ c then (s.copyLeft i + 64 * Config.copyRate - 1) / (64 * Config.copyRate) else min g.dur 64
        match s.continueOn c key { g with dur := n } g.rinst with
        | none => (s.cancelBooking i.handle .nofit, false)
        | some st =>
          let d : Int := (st : Int) - (l + 1 : Nat)
          let s := (s.stopIn c i).addInterval i.handle i.stage g g.rinst st n
          let start := ((g.start : Int) + d).toNat
          let s := s.updStage i.handle i.stage fun g => { g with fin := st + n, start := start, hold := 64 * st }
          let s := s.reportStart i.handle i.stage start d
          (if c < 768 then s.holdWalkers c i.handle (64 * st) else s, true)

/-! ## The first cycle of a slot (R271) -/

/-- Ended entries are reclaimed, expired marks cleared, stages begun and ended, and final states older than 65,536 slots forgotten
(R213, R254, R256). -/
def State.reclaim (s : State) : State :=
  let t := s.slot
  let s := { s with bu := { s.bu with
    cals := s.bu.cals.map fun (p : Nat × List Interval) => (p.1, p.2.filter fun i => decide (t < i.start + i.len))
    marks := s.bu.marks.filter fun m => decide (t ≤ m.2.2)
    holds := s.bu.holds
    bookings := (s.bu.bookings.filter fun (b : Booking) => b.live || decide (t < b.finalSlot + 65536)).map fun (b : Booking) =>
      if b.st != BState.deferred then
        let gs := b.stages.map fun (g : Stage) =>
          { g with begun := g.begun || (g.placed && decide (g.start ≤ t)), ended := g.ended || (g.placed && decide (g.fin ≤ t)) }
        { b with stages := gs, st := if b.st == BState.committed && gs.any (fun (g : Stage) => g.begun) then BState.running else b.st }
      else b } }
  s.bu.bookings.foldl (fun (s : State) (b : Booking) => s.doneIfEnded b.handle) s
/-- The returns that fall due (R269). -/
def State.applyReturns (s : State) : State :=
  let rs := s.bu.returns
  { s with bu := { s.bu with
    returns := []
    cals := s.bu.cals.map fun (p : Nat × List Interval) => (p.1, (p.2.map fun i =>
      (rs.filter fun r => i.dev == r.dev && i.job == r.job && i.handle == r.handle && i.stage == r.stage).foldl (fun (i : Interval) r =>
        if r.first < i.start + i.len then { i with len := r.first - i.start } else i) i).filter fun i => decide (0 < i.len)) } }
/-- The intervals of matrix engines, copy engines and reduction contexts whose last slot is this one, in the order of R271. -/
def State.lastSlots (s : State) : List (Nat × Interval) :=
  (s.bu.cals.filter fun c => decide (c.1 < 864) || decide (928 ≤ c.1)).flatMap fun (c, l) =>
    (l.filter fun i => decide (i.start + i.len = s.slot + 1)).map fun i => (c, i)
/-- The overrun of a stage of another device's booking on this device (R266, R276): the new end is reported to its Booking Unit, or, where no
continuation fits, that the stage ends here without one (class 15 in the report). -/
def State.overrunRemote (s : State) (c : Nat) (i : Interval) : State :=
  match s.colls.find? fun k => !k.ownBooking && s.collInterval k i with
  | none => s
  | some k =>
    let key := ctxKey k.part k.fn
    let late := if c < 864 then decide (64 * Config.copyRate < s.copyLeft i)
      else k.plan.any fun st => st.rctx == some i.stage && !st.begun
    let inst := if c < 864 then c - 768 else c - 928
    let g : Stage := { ecls := if c < 864 then 1 else 4, inst := inst, cap := i.cap }
    let report (s : State) (ecls e : Nat) : State :=
      s.sendBook key (i.dev - 1) 4 { dev := (s.ctx key).devNo, handle := i.handle, stage := i.stage, ecls := ecls, hi := e }
    if !late then s
    else if s.slotOk key g inst (s.slot + 1) && decide (i.len < 8191) then
      report (s.setCal c ((s.cal c).map fun j => if j = i then { j with len := j.len + 1 } else j)) 0 (s.slot + 2)
    else
      let n := if c < 864 then (s.copyLeft i + 64 * Config.copyRate - 1) / (64 * Config.copyRate) else min i.len 64
      match s.continueOn c key { g with dur := n } inst with
      | none => report (s.stopIn c i) 15 (s.slot + 1)
      | some st =>
        let s := s.stopIn c i
        report (s.setCal c (s.cal c ++ [{ i with start := st, len := n }])) 0 (st + n)
/-- The overrun tests and then the slips of every end that grew (R271 steps 3 and 4). -/
def State.overruns (s : State) : State :=
  let (s, grown) := s.lastSlots.foldl (fun (r : State × List (BitVec 32 × Nat)) (c, i) =>
    let (s, g) := r
    if i.dev ≠ 0 then (s.overrunRemote c i, g)
    else if s.pastEnd c i then
      let (s', up) := s.overrun c i
      (s', if up then g ++ [(i.handle, i.stage)] else g)
    else (s, g)) (s, [])
  grown.foldl (fun s (h, k) => s.slip (s.bu.bookings.length + 1) h k) s
/-- A deferred booking can no longer be placed: 65,536 slots have passed since its effective release, or its deadline lies before the end that
follows from the known part of its lower bound (R214, R260). R214 does not say of which slot the effective release counts here; it is that
of the slot of acceptance (DEDUCED, assumption log 82). -/
def State.expired (s : State) (b : Booking) : Bool :=
  let least := b.stages.foldl (fun n g => n + g.dur) 0 + (b.stages.drop 1).foldl (fun n g => n + g.gmin) 0
  let rel := (s.lowerBound b).1
  decide (max b.rls (b.accepted / 64 + 2) + 65536 < s.slot) || (b.dlv && decide (b.rls + b.dln < rel + least))
/-- The effective priority of a request or of a deferred booking (R259). -/
def effPrio (cyc prio accepted : Nat) : Nat := min 31 (prio + (cyc - accepted) / 262144)
/-- Every deferred request is searched, in queue order (R271 step 5). A cross-device request asks for its exchange again. -/
def State.searchDeferred (s : State) : State :=
  let ds := (s.bu.bookings.filter fun b => b.st = .deferred).mergeSort fun a b =>
    let p := effPrio s.cyc a.prio a.accepted
    let q := effPrio s.cyc b.prio b.accepted
    decide (q < p) || (p == q && (decide (a.accepted < b.accepted) || (a.accepted == b.accepted && decide (a.cluster ≤ b.cluster))))
  ds.foldl (fun s b =>
    if b.coll.isSome then s
    else if s.expired b then s.cancelBooking b.handle .nofit
    else if b.remote then
      (if s.bu.reqs.any (fun r => match r.kind with
          | .book c _ => c.handle == b.handle
          | _ => false) then s
       else
        { s with nextId := s.nextId + 1, bu := { s.bu with reqs := s.bu.reqs ++
            [{ seq := s.nextId, prio := b.prio, aging := true, accepted := b.accepted, cluster := b.cluster, flight := 0, part := b.part,
               fn := b.fn, kind := .book b true }] } })
    else
      match s.search b with
      | none => s
      | some ps => s.commit b ps) s
/-- Restored cores go on when the bookable part of their context's slice begins (R360). -/
def State.releaseCores (s : State) : State :=
  { s with cores := s.cores.map fun (n, c) =>
      (n, if c.waits && (match c.active.bind fun sl => SMap.find? c.slots sl with
        | some k => s.mayRun k.key
        | none => true) then { c with waits := false } else c) }
/-- The first cycle of a slot (R271). -/
def execSlotBoundary (s : State) : Out :=
  if s.cyc % 64 ≠ 0 ∨ s.slot ≤ s.bu.lastSlot then .fault .noSuchStep
  else
    let s := { s with bu := { s.bu with lastSlot := s.slot } }
    let s := s.reclaim.applyReturns.overruns.searchDeferred.releaseCores
    -- counters are committed to the blocks (R382)
    let add (a b : Word) : Word := a + b
    .next { s with ctxs := s.ctxs.map fun (k, c) =>
      (k, { c with
        pending := {}
        counters :=
          { snap := BitVec.ofNat 64 s.slot, mbusy := add c.counters.mbusy c.pending.mbusy,
            vbusy := add c.counters.vbusy c.pending.vbusy, copyb := add c.counters.copyb c.pending.copyb,
            dramr := add c.counters.dramr c.pending.dramr, dramw := add c.counters.dramw c.pending.dramw,
            fabb := add c.counters.fabb c.pending.fabb, energy := add c.counters.energy c.pending.energy } }) }

/-- A queued request's priority rises by one level for every full 4,096 slots (R259). -/
def Req.eff (r : Req) (cyc : Nat) : Nat := if r.aging then effPrio cyc r.prio r.accepted else r.prio
/-- The levels a request has gained by now are noted (R259). -/
def execBookingRequestAging (seq : Nat) (s : State) : Out :=
  match s.bu.reqs.find? fun r => r.seq == seq && r.aging && decide (r.raised < r.eff s.cyc - r.prio) with
  | none => .fault .noSuchStep
  | some _ =>
    .next { s with bu := { s.bu with reqs := s.bu.reqs.map fun r => if r.seq = seq then { r with raised := r.raised + 1 } else r } }

end Sys2Proof.Machine
end

