-- ==== Sys2Proof/Machine/Copy.lean ====
section
/-!
DEFINITION. Copy packets: `cpost` (R218, R219), the arbiter of a copy engine (R257, R362), the movement of bytes in units, and the
completion of a packet (R220).
-/
namespace Sys2Proof.Machine

/-! ## Writes of engines -/

/-- A location named in the form of R166 of an aligned word of four bytes of this device, for an engine: status 2 where no such
location exists, 3 where the tables do not map it with the right asked for (R220). -/
def State.enginePlace (s : State) (key own a : Nat) (wr : Bool) : Except Nat Loc :=
  if isScratchAddr a then
    (if a % 2 ^ 63 / 2 ^ 32 ≠ 0 then .error 2
     else match s.scratchAt own (key / 128) (a % 2 ^ 32) 4 with
       | none => .error 2
       | some l => .ok l)
  else if !globalOk a 4 || decide (controlBase ≤ a) then .error 2
  else
    match s.translate key a with
    | .error _ => .error 3
    | .ok (pa, rd, w, _) => if (if wr then w else rd) then .ok ⟨none, pa⟩ else .error 3
/-- One piece that an engine of the owning context has written is counted by the window that holds it (R187). -/
def State.countPiece (s : State) (p : WPiece) (poisoned : Bool) : State :=
  match p.1.core with
  | none => s
  | some c =>
    match List.find? (fun (w : Nat × Window) => decide (0 < w.2.part p.1.off p.2.1)) (s.core c).windows with
    | none => s
    | some (w, x) => s.setWindow c w (x.count (x.part p.1.off p.2.1) (s.skipBarriers [p]).2 poisoned)
/-- A write of an engine of the owning context, its pieces with their poison: stored, registered barrier words skipped, and
counted (R180, R187, R313); whether a barrier word was skipped. -/
def State.engineStore (s : State) (key : Nat) (ps : List (WPiece × Bool)) : State × Bool :=
  let (s, skipped) := s.engineWrite key (ps.map (·.1)) ((ps.filter (·.2)).map (·.1))
  (ps.foldl (fun s p => s.countPiece p.1 p.2) s, skipped)

/-! ## Units (R257) -/

/-- Unit `k` of a packet read and written (R220): status 2 or 3, or the state, its bytes, and whether a barrier word was skipped
and a poisoned word moved. -/
def State.copyUnit (s : State) (p : CopyPkt) (k : Nat) : Except Nat (State × Nat × Bool × Bool) :=
  let key := ctxKey p.part p.fn
  let r := k / p.perRow
  let (o, n) := p.unit k
  let at4 (base i : Nat) : Nat := (base + o + 4 * i) % 2 ^ 64
  let words := List.range (n / 4)
  let srcs := words.map fun i => s.enginePlace key p.core (at4 (p.srcRow r) i) false
  let dsts := words.map fun i => s.enginePlace key p.core (at4 (p.destRow r) i) true
  let worst := (srcs ++ dsts).foldl (fun m x => match x with
    | .error e => if m = 0 then e else min m e
    | .ok _ => m) 0
  if worst ≠ 0 then .error worst
  else
    let ps : List (WPiece × Bool) := (srcs.zip dsts).filterMap fun (a, b) =>
      match a, b with
      | .ok a, .ok b => some ((b, 4, s.readLoc a 4), s.isPoisoned a 4)
      | _, _ => none
    let dr := 4 * (ps.length - (srcs.countP fun x => match x with
      | .ok l => l.core.isSome
      | .error _ => false))
    let dw := 4 * ps.countP fun x => x.1.1.core.isNone
    let met : List Found := ((words.zip srcs).filter fun x => match x.2 with
      | .ok l => s.isPoisoned l 4
      | .error _ => false).map fun x => { key := key, core := p.core, name := some (at4 (p.srcRow r) x.1), loc := x.2.toOption }
    let (s, skipped) := { s with found := s.found ++ met }.engineStore key ps
    let s := if p.f 383 383 = 1 then
        match s.scratchAt p.core p.part (p.f 351 320) 16 with
        | some l => s.barCredit l (ps.foldl (fun m x => if (s.skipBarriers [x.1]).2 then m else m + 4) 0)
        | none => s
      else s
    .ok (s.bill key (fun c => { c with copyb := c.copyb + BitVec.ofNat 64 n, dramr := c.dramr + BitVec.ofNat 64 dr,
                                       dramw := c.dramw + BitVec.ofNat 64 dw }), n, skipped, ps.any (·.2))
/-! ## Posting (R218, R219) -/

/-- A packet's addresses are well-formed and its fields keep to their limits (R218). -/
def State.packetOk (s : State) (key own : Nat) (r : Nat) : Bool :=
  let a (x : Nat) : Bool := x % 4 == 0 && (isScratchAddr x || x / 2 ^ 48 == 0)
  fld r 511 448 == 0 && fld r 382 352 == 0 && fld r 319 316 == 0 && fld r 191 176 == 0
  && a (fld r 63 0) && a (fld r 127 64) && fld r 223 192 % 4 == 0 && fld r 255 224 % 4 == 0
  && fld r 159 128 % 4 == 0 && decide (4 ≤ fld r 159 128) && decide (fld r 159 128 ≤ 16777216)
  && decide (fld r 298 296 ≤ 4)
  && (fld r 287 256 != 0 || decide (fld r 315 312 < 12) || fld r 315 312 == 15)
  && (if fld r 383 383 = 1 then fld r 351 320 % 16 == 0 && (s.scratchAt own (key / 128) (fld r 351 320) 16).isSome
      else fld r 351 320 == 0)
  && (fld r 415 384 % 8 == 0 && localScratch (fld r 415 384) 8)
/-- The footprint of a packet: each row a region (R209). -/
def CopyPkt.regions (p : CopyPkt) : List Region :=
  (List.range p.rows).flatMap fun r =>
    let reg (a : Nat) (wr : Bool) : Region :=
      match scratchPlace p.core a with
      | some (c, o) => ⟨some c, o, p.len, !wr, wr⟩
      | none => ⟨none, a, p.len, !wr, wr⟩
    [reg (p.srcRow r) false, reg (p.destRow r) true]
/-- The stage that a booked packet runs in, with its booking. -/
def State.copyStage (s : State) (p : CopyPkt) : Option (Booking × Stage) :=
  (s.booking? (ctxKey p.part p.fn) p.handle).bind fun b => (b.stage? p.stage).map fun g => (b, g)
/-- A packet runs as booked traffic: its stage has not ended (R219). -/
def State.asBooked (s : State) (p : CopyPkt) : Bool :=
  p.handle != 0 && match s.copyStage p with
    | some (_, g) => !g.ended
    | none => false
/-- A packet stands in a virtual queue: it has units to move and the arbiter has not chosen it (R219, R362). -/
def CopyPkt.waits (p : CopyPkt) : Bool := p.running.isNone && p.withdrawn == 0 && !p.over
/-- Bytes queued for a context on a copy engine (R362): those of its unbooked packets. -/
def State.queuedBytes (s : State) (key engine : Nat) : Nat :=
  (s.packets.filter fun p => p.engine == engine && ctxKey p.part p.fn == key && p.waits && !p.chosen && !s.asBooked p).foldl
    (fun n p => n + p.left) 0
/-- Packets queued for a context on a copy engine (R219). -/
def State.queuedCount (s : State) (key engine : Nat) : Nat :=
  s.packets.countP fun p => p.engine == engine && ctxKey p.part p.fn == key && p.waits && !p.chosen
/-- The engine of an unbooked packet (R218, R362): the one named, or the one of the cluster with the fewest bytes queued. -/
def State.chooseEngine (s : State) (key cluster cei : Nat) : Nat :=
  if cei < 12 then 12 * cluster + cei
  else
    ((List.range 12).map fun i => 12 * cluster + i).foldl
      (fun best e => if s.queuedBytes key e < s.queuedBytes key best then e else best) (12 * cluster)
/-- The packet enters its virtual queue (R219): the result word and the state. -/
def State.postPacket (s : State) (p : CopyPkt) : Word × State :=
  let cl := clusterOf p.core
  let key := ctxKey p.part p.fn
  let no (st : Nat) : Word × State := (statusWord st 0, s.unitDone p.uid)
  let put (engine : Nat) : Word × State :=
    if s.queuedCount key engine ≥ 256 then no 1
    else
      let n := SMap.get (s.htsOf cl).packets 0 key
      (statusWord 0 (n % 2 ^ 20), s.updHts cl fun h =>
        { h with copies := h.copies ++ [{ p with engine := engine, posted := n }]
                 packets := SMap.set h.packets key ((n + 1) % 2 ^ 32) })
  if p.handle = 0 then put (s.chooseEngine key cl (p.f 315 312))
  else
    match s.copyStage p with
    | none => no 2
    | some (b, g) =>
      if !b.live ∨ g.ecls ≠ 1 ∨ g.rmt then no 2
      else put (if g.placed then g.rinst else if g.inst ≠ 0xFFF then g.inst else 12 * cl)
/-- `cpost` (R219, R258). -/
def execCpost (h : Hdr) (o : SYS) (s : State) : Out :=
  engineWord h o (fun e s => s.recordArg e o 64 64 fun _ r =>
    let key := e.task.key
    let cl := clusterOf e.core
    if !s.packetOk key e.core r then result15 s o.b (statusWord 2 0)
    else
      let p : CopyPkt := { serial := s.nextId, part := e.task.part, fn := e.task.fn, core := e.core, slot := e.slot, ser := e.task.ser,
                           ip := e.st.ip, rcd := BitVec.ofNat 512 r, engine := 0, uid := 0, posted := 0 }
      if !s.tableRoom cl key p.regions || (p.handle != 0 && !s.frontFree cl) then .stall
      else
        let s := s.clamp e (p.f 298 296)
        let (uid, s) := s.submit cl key e.core p.regions
        let p := { p with serial := uid, uid := uid }
        if p.handle = 0 then
          let (v, s) := s.postPacket p
          result15 s o.b v
        else askUnit s e o 31 false (.post p)) s

/-! ## Units (R219, R257, R362) -/

/-- The copy engine holds an interval in slot `t`. -/
def State.engineHeld (s : State) (engine t : Nat) : Bool := (s.cal (calNo 1 engine)).any fun i => i.at? t
/-- The engine that a packet runs on. -/
def State.engineOf (s : State) (p : CopyPkt) : Nat :=
  match s.copyStage p with
  | some (_, g) => if g.placed then g.rinst else p.engine
  | none => p.engine
/-- A unit is moving on an engine. -/
def State.engineBusy (s : State) (engine : Nat) : Bool := s.packets.any fun p => p.engine == engine && p.running.isSome
/-- The cycle in which the next unit of a packet would end. -/
def State.unitEnd (s : State) (p : CopyPkt) : Nat := s.cyc + copyCycles (p.unit p.nextUnit).2
/-- A booked packet may start its next unit now: its edges have completed, the packets of the stage before it have moved their bytes, its
engine is free, and the unit ends within the slots that its stage holds (R219, R257). -/
def State.bookedStart (s : State) (p : CopyPkt) : Bool :=
  p.waits && s.asBooked p && s.edgesDone p.uid && decide ((s.ctx (ctxKey p.part p.fn)).phase = .running) &&
  !s.engineBusy (s.engineOf p) &&
  ((s.cal (calNo 1 (s.engineOf p))).any fun i => i.own p.handle && i.stage == p.stage && i.at? s.slot &&
    decide (s.unitEnd p ≤ 64 * (i.start + i.len))) &&
  !(s.packets.any fun q => q.inStage p.handle p.stage && decide (q.serial < p.serial) && q.withdrawn == 0 && !q.over)
/-- An unbooked packet that may move bytes now. -/
def State.startable (s : State) (p : CopyPkt) : Bool :=
  p.waits && !s.asBooked p && s.edgesDone p.uid && s.mayRun (ctxKey p.part p.fn)
/-- The head of a context's virtual queue on an engine (R219). -/
def State.queueHead (s : State) (key engine : Nat) : Option CopyPkt :=
  (s.packets.filter fun p => p.engine == engine && ctxKey p.part p.fn == key && p.waits && !p.chosen && !s.asBooked p).foldl
    (fun (m : Option CopyPkt) p => match m with
      | some q => if p.serial < q.serial then some p else m
      | none => some p) none
/-- An engine is free for an unbooked unit of a packet (R257): nothing moves on it, and the unit ends before the next slot that an
interval holds. -/
def State.freeForUnbooked (s : State) (engine : Nat) (p : CopyPkt) : Bool :=
  !s.engineBusy engine && !s.engineHeld engine s.slot &&
    (decide (s.unitEnd p ≤ 64 * (s.slot + 1)) || !s.engineHeld engine (s.slot + 1))
/-- The row in progress of a cancelled packet goes on: outside the slots that other bookings hold (R215, R256). -/
def State.rowGoesOn (s : State) (p : CopyPkt) : Bool :=
  p.running.isNone && p.withdrawn != 0 && !p.over && s.freeForUnbooked p.engine p && s.mayRun (ctxKey p.part p.fn)
/-- `WT` of a context in a cluster (R362): set at its creation, and changed by firmware. -/
def State.weight (s : State) (cluster key : Nat) : Nat := SMap.get (s.htsOf cluster).weights 1 key
/-- The key of a deficit. -/
def defKey (engine key : Nat) : Nat := 16384 * engine + key
/-- `Next` of R362 over the contexts whose head is startable, with their heads: the context chosen and the deficits. -/
def arbitrate (wt : Nat → Nat) (size : Nat → Nat) (d : SMap Nat) (engine : Nat) : Nat → List Nat → Option (Nat × SMap Nat)
  | 0, _ => none
  | _, [] => none
  | fuel + 1, c :: cs =>
    let have_ := SMap.get d 0 (defKey engine c)
    if size c ≤ have_ then some (c, SMap.set d (defKey engine c) (have_ - size c))
    else arbitrate wt size (SMap.set d (defKey engine c) (have_ + wt c * 65536)) engine fuel (cs ++ [c])
/-- The packet that an engine's arbiter chooses now, with the new deficits. -/
def State.nextPacket (s : State) (engine : Nat) : Option (CopyPkt × Nat × SMap Nat) :=
  let cl := engine / 12
  let h := s.htsOf cl
  let keys := (s.ctxs.map (·.1)).filter fun k => match s.queueHead k engine with
    | some p => s.startable p
    | none => false
  let last := SMap.get h.lastServed 0 engine
  let order := keys.filter (fun k => decide (last < k)) ++ keys.filter fun k => decide (k ≤ last)
  let size (k : Nat) : Nat := match s.queueHead k engine with
    | some p => p.len * p.rows
    | none => 0
  let fuel := (order.foldl (fun n k => n + size k) 0 / 65536 + 2) * (order.length + 1)
  (arbitrate (s.weight cl) size h.deficit engine fuel order).bind fun (k, d) => (s.queueHead k engine).map fun p => (p, k, d)
/-- The packet that moves an unbooked unit on an engine now: the one chosen before, which runs to its end, else the arbiter's next choice,
with the context served and the new deficits (R362). -/
def State.unbookedNext (s : State) (engine : Nat) : Option (CopyPkt × Option (Nat × SMap Nat)) :=
  match s.packets.find? fun p => p.engine == engine && p.chosen && p.withdrawn == 0 && !p.over && !s.asBooked p with
  | some p => if s.startable p && s.freeForUnbooked engine p then some (p, none) else none
  | none => (s.nextPacket engine).bind fun (p, k, d) => if s.freeForUnbooked engine p then some (p, some (k, d)) else none
/-- The next unit of a packet moves from now on. -/
def State.startUnit (s : State) (p : CopyPkt) (engine : Nat) : State :=
  let s' := s.updPackets (fun q => q.serial == p.serial) fun q => { q with engine := engine, running := some (s.unitEnd p) }
  if p.withdrawn = 0 then s'
  else { s' with bu := { s'.bu with marks := s'.bu.marks ++ [(calNo 1 engine, s.slot, (s.cyc + p.cyclesLeft - 1) / 64)] } }
/-- A copy packet starts its next unit (R219, R257, R362). -/
def execCopyPacketStart (serial : Nat) (s : State) : Out :=
  match s.packets.find? fun p => p.serial == serial with
  | none => .fault .noSuchStep
  | some p =>
    if s.bookedStart p then .next (s.startUnit p (s.engineOf p))
    else if s.rowGoesOn p then .next (s.startUnit p p.engine)
    else
      match s.unbookedNext p.engine with
      | none => .fault .noSuchStep
      | some (q, pick) =>
        if q.serial ≠ serial then .fault .noSuchStep
        else
          let s := s.startUnit p p.engine
          match pick with
          | none => .next s
          | some (k, d) =>
            let s := s.updPackets (fun q => q.serial == serial) fun q => { q with chosen := true }
            let d := if (s.queueHead k p.engine).isNone then SMap.set d (defKey p.engine k) 0 else d
            .next (s.updHts (p.engine / 12) fun h => { h with deficit := d, lastServed := SMap.set h.lastServed p.engine k })
/-- A unit has moved: its bytes are read and written (R220). After the last one the writes perform; a cancelled row that a status ends
early takes no more slots (R256). -/
def State.moveUnit (s : State) (p : CopyPkt) : State :=
  let (s, p) := match s.copyUnit p p.nextUnit with
    | .error e => (s, { p with failed := e, running := none })
    | .ok (s, _, sk, po) =>
      (s, { p with nextUnit := p.nextUnit + 1, running := none, skipped := p.skipped || sk, poisoned := p.poisoned || po })
  let s := if p.withdrawn ≠ 0 ∧ p.over then
      { s with bu := { s.bu with marks := s.bu.marks.map fun m => if m.1 = calNo 1 p.engine then (m.1, m.2.1, min m.2.2 s.slot) else m } }
    else s
  let p := if p.over then { p with doneAt := s.cyc + Config.performDelay s.fresh } else p
  { (s.updPackets (fun q => q.serial == p.serial) fun _ => p) with fresh := s.fresh + 1 }
/-- The packet whose unit ends now. -/
def State.unitDue (s : State) : Option CopyPkt := s.packets.find? fun p => match p.running with
  | some t => decide (t ≤ s.cyc)
  | none => false

/-! ## Completion (R220) -/

/-- A packet of the context. -/
def CopyPkt.ofKey (p : CopyPkt) (key : Nat) : Bool := ctxKey p.part p.fn == key

/-- `ST` of the completion word (R220). -/
def CopyPkt.status (p : CopyPkt) : Nat :=
  if p.failed ≠ 0 then p.failed else if p.withdrawn ≠ 0 then p.withdrawn else if p.skipped then 1 else if p.poisoned then 4 else 0
/-- The packet has no unit left, and its writes have performed. -/
def CopyPkt.finished (p : CopyPkt) (cyc : Nat) : Bool := p.running.isNone && p.over && decide (p.doneAt ≤ cyc)
/-- A command-precise fault of a posted command in the task that posted it, or the event that takes its place (R220, R393). -/
def State.commandFault (s : State) (core slot ser key : Nat) (i : TrapInfo) (detail : Nat) : State :=
  let here := match s.task? core slot with
    | some k => k.key == key && k.ser == ser && k.ending.isNone
    | none => false
  if here then s.raise core slot { i with prec := 1, resume := .asIs } else s.event key i.cause detail
/-- The work of a copy stage is done when no posted packet of it is left (R269). -/
def State.copyStageDone (s : State) (p : CopyPkt) : State :=
  if s.asBooked p && !(s.packets.any fun q => q.inStage p.handle p.stage && q.serial != p.serial) then
    (s.earlyFinish p.handle p.stage).doneIfEnded p.handle
  else s
/-- A packet ends: its completion word is written and its counter decremented, it leaves its queue, and the fault that it asked for is
raised (R220). -/
def State.endPacket (s : State) (p : CopyPkt) : State :=
  let key := ctxKey p.part p.fn
  let s := s.copyStageDone p
  let s := s.updHts (clusterOf p.core) fun h => { h with copies := h.copies.filter fun q => q.serial != p.serial }
  let st := p.status
  let word := st * 2 ^ 60 + 2 ^ 59 + p.f 447 416
  let s := if p.f 415 384 = 0 then s else (s.engineWrite key [(⟨some p.core, p.f 415 384⟩, 8, word)]).1
  let s := if p.f 299 299 = 1 then s.engineDecrement p.core key (p.f 311 300) else s
  let s := s.unitDone p.uid
  if p.f 291 291 = 1 ∧ (st = 2 ∨ st = 3 ∨ st = 5 ∨ st = 6) then
    s.commandFault p.core p.slot p.ser key
      { cause := cCopyEngine, ip := p.ip, ecmd := p.posted, estat := st, eid := 4096 + p.engine }
      (detailAt 128 (p.f 447 416) + detailAt 160 st + detailAt 168 (4096 + p.engine))
  else s
/-- The copy engine writes the completion word and decrements the counter (R220). -/
def execCopyPacketComplete (serial : Nat) (s : State) : Out :=
  match s.packets.find? fun p => p.serial == serial with
  | none => .fault .noSuchStep
  | some p =>
    if !p.finished s.cyc ∨ !(s.ctx (ctxKey p.part p.fn)).present then .fault .noSuchStep else .next (s.endPacket p)
/-- The reset of a function ends the packets of a context with status 6; where it is not present their completion words would lie in the
save area that the reset discards (R374 steps 1 and 3). -/
def State.abortPackets (s : State) (key : Nat) : State :=
  if !(s.ctx key).present then s
  else (s.packets.filter fun p => p.ofKey key).foldl (fun s p => s.endPacket { p with withdrawn := 6, failed := 0 }) s

end Sys2Proof.Machine
end

