-- ==== Sys2Proof/Machine/Coll.lean ====
section
/-!
DEFINITION. Collectives (chapter 14): the plan of steps of each algorithm (R338, R341), the combination of elements (R339, R340),
the Shuttle and reception of tiles (R344 to R346), failures (R348 to R353), the completion record (R222, R354), and `coll` (R222,
R335 to R337).
-/
namespace Sys2Proof.Machine

/-! ## Fields -/

/-- `OP` (R221). -/
def Coll.op (c : Coll) : Nat := c.f 195 192
/-- `RED` (R221). -/
def Coll.red (c : Coll) : Nat := c.f 199 196
/-- The context of the member. -/
def Coll.key (c : Coll) : Nat := ctxKey c.part c.fn
/-- `GRP` (R335). -/
def Coll.grp (c : Coll) : Nat := c.tag / 2 ^ 24
/-- Collective of a context by its tag changed. -/
def State.updColl (s : State) (key tag : Nat) (f : Coll → Coll) : State :=
  { s with colls := s.colls.map fun c => if c.key = key ∧ c.tag = tag then f c else c }
/-- The collective of a context with a tag. -/
def State.coll? (s : State) (key tag : Nat) : Option Coll := s.colls.find? fun c => c.key == key && c.tag == tag
/-- The live members, rising (R349). -/
def Coll.live (c : Coll) : List Nat := (List.range c.members.length).filter fun m => !c.fmask.testBit m
/-- The coordinator: the live member of lowest number (R336, R353). -/
def Coll.coordinator (c : Coll) : Nat := c.live.headD 0
/-- The device of a member. -/
def Coll.device (c : Coll) (m : Nat) : Nat := c.members.getD m 0

/-! ## Plans (R338, R341) -/

/-- All that is sent in one step: sending member and run. -/
abbrev StepPlan := List (Nat × Xfer)
/-- Chunk `c` of a vector of `n` bytes among `p` members: offset and length (R338). -/
def chunkRun (p n c : Nat) : Nat × Nat :=
  let u := n / 64
  let k := c % p
  (64 * (k * u / p), 64 * ((k + 1) * u / p - k * u / p))
/-- Ring reduce steps. -/
def ringReduce (p n : Nat) : List StepPlan :=
  (List.range (p - 1)).map fun s => (List.range p).map fun m =>
    let (o, l) := chunkRun p n (m + 2 * p - s - 1)
    (m, ⟨(m + 1) % p, o, o, l, 0⟩)
/-- Ring gather steps. -/
def ringGather (p n : Nat) : List StepPlan :=
  (List.range (p - 1)).map fun s => (List.range p).map fun m =>
    let (o, l) := chunkRun p n (m + p - s)
    (m, ⟨(m + 1) % p, o, o, l, 1⟩)
/-- Ring all-gather steps. -/
def ringAllGather (p n : Nat) : List StepPlan :=
  (List.range (p - 1)).map fun s => (List.range p).map fun m =>
    let b := (m + p - s) % p
    (m, ⟨(m + 1) % p, b * n, b * n, n, 1⟩)
/-- Chained broadcast steps. -/
def chained (p n root : Nat) : List StepPlan :=
  (List.range (2 * p - 2)).map fun s => (List.range p).filterMap fun m =>
    let j := (m + p - root) % p
    let (o, l) := chunkRun p n (s - j)
    if j ≠ p - 1 ∧ j ≤ s ∧ s - j < p then some (m, ⟨(m + 1) % p, o, o, l, 1⟩) else none
/-- All-to-all steps. -/
def allToAll (p n : Nat) : List StepPlan :=
  (List.range (p - 1)).map fun k => (List.range p).map fun m =>
    let d := (m + k + 1) % p
    (m, ⟨d, d * n, m * n, n, 1⟩)
/-- Nodes of depth `d` of a tree of `p` nodes (R341). -/
def nodesAt (p d : Nat) : List Nat := (List.range p).filter fun t => decide (2 ^ d ≤ t + 1) && decide (t + 1 < 2 ^ (d + 1))
/-- Tree reduce steps over the members of `order`, of the runs `rs` (offset, length): into the parent, or into its reduction
context. -/
def treeReduce (order : List Nat) (rs : List (Nat × Nat)) (fabric : Bool) : List StepPlan :=
  let p := order.length
  let mem (t : Nat) : Nat := order.getD t 0
  (List.range (Nat.log2 p)).flatMap fun i =>
    let up (ok : Nat → Bool) (mode : Nat) : StepPlan :=
      ((nodesAt p (Nat.log2 p - i)).filter ok).flatMap fun t => rs.map fun (o, l) => (mem t, ⟨mem ((t - 1) / 2), o, o, l, mode⟩)
    if fabric then [up (fun _ => true) 2] else [up (fun t => t % 2 == 1) 0, up (fun t => t % 2 == 0) 0]
/-- Tree broadcast steps over the members of `order`. -/
def treeBroadcast (order : List Nat) (rs : List (Nat × Nat)) : List StepPlan :=
  let p := order.length
  let mem (t : Nat) : Nat := order.getD t 0
  (List.range (Nat.log2 p)).map fun i =>
    (nodesAt p (i + 1)).flatMap fun t => rs.map fun (o, l) => (mem ((t - 1) / 2), ⟨mem t, o, o, l, 1⟩)
/-- The algorithm that an operation takes for a hint (R341). -/
def algUsed (op alg : Nat) : Nat := if op = 0 then alg else if op = 3 then min alg 1 else 0
/-- The steps of an operation among `p` members on `n` bytes (R341). -/
def expand (op alg p n root : Nat) : List StepPlan :=
  let whole := [(0, n)]
  let order := (List.range p).map fun t => (t + root) % p
  let plan :=
    if op = 0 then
      (if alg = 0 then ringReduce p n ++ ringGather p n else treeReduce order whole (alg == 2) ++ treeBroadcast order whole)
    else if op = 1 then ringReduce p n
    else if op = 2 then ringAllGather p n
    else if op = 3 then (if alg = 0 then chained p n root else treeBroadcast order whole)
    else allToAll p n
  if p ≤ 1 then [] else plan.map fun s => s.filter fun x => decide (0 < x.2.len)
/-- Node `t` of a tree is `u` or an ancestor of `u`; `fuel` is the tree's height. -/
def isAbove (t : Nat) : Nat → Nat → Bool
  | 0, u => u == t
  | fuel + 1, u => u == t || (u != 0 && isAbove t fuel ((u - 1) / 2))
/-- Tree steps that bring the runs `own` of each member up to the root, each node passing on those of its subtree (R349). -/
def treeCollect (order : List Nat) (own : Nat → List (Nat × Nat)) : List StepPlan :=
  let p := order.length
  let mem (t : Nat) : Nat := order.getD t 0
  (List.range (Nat.log2 p)).flatMap fun i =>
    [1, 0].map fun odd => ((nodesAt p (Nat.log2 p - i)).filter (· % 2 == odd)).flatMap fun t =>
      ((List.range p).filter fun u => isAbove t (Nat.log2 p) u).flatMap fun u =>
        (own (mem u)).map fun (o, l) => (mem t, ⟨mem ((t - 1) / 2), o, o, l, 1⟩)
/-- The chunks of the result, as a redo and `CMASK` know them: those of R338, or where nothing is reduced the blocks. -/
def chunkOf (op p n k : Nat) : Nat × Nat := if op = 2 ∨ op = 4 then (k * n, n) else chunkRun p n k
/-- The steps of a redo over the live members (R349): the chunks of `mask` over the alternate tree, up to its root from the members that
contribute to them and down to all. A block of `OP` 4 has one reader, to which it goes directly (assumption log 94). -/
def expandRedo (op p n root : Nat) (live : List Nat) (mask : Nat) : List StepPlan :=
  let ks := (List.range p).filter mask.testBit
  let runs (ks : List Nat) : List (Nat × Nat) := ks.map (chunkOf op p n)
  let q := live.length
  let plan :=
    if op ≤ 1 then treeReduce live (runs ks) false ++ treeBroadcast live (runs ks)
    else if op = 2 then
      treeCollect live (fun m => runs (ks.filter (· == m))) ++ treeBroadcast live (runs (ks.filter live.contains))
    else if op = 3 then
      (if live.contains root then treeCollect live (fun m => if m = root then runs ks else []) ++ treeBroadcast live (runs ks) else [])
    else
      (List.range (q - 1)).map fun k => (List.range q).filterMap fun i =>
        let m := live.getD i 0
        let d := live.getD ((i + k + 1) % q) 0
        if mask.testBit m then some (m, ⟨d, d * n, m * n, n, 1⟩) else none
  if q ≤ 1 then [] else plan.map fun s => s.filter fun x => decide (0 < x.2.len)

/-- The stages that the steps take in the booking (R342), in their order: step, class, member. -/
def stagesOf (plan : List StepPlan) (p : Nat) : List (Nat × Nat × Nat) :=
  ((List.range plan.length).zip plan).flatMap fun (i, xs) =>
    ((List.range p).filter fun m => xs.any fun x => x.1 == m).map (fun m => (i, 1, m)) ++
    ((List.range p).filter fun m => xs.any fun x => x.2.peer == m && x.2.mode == 2).map fun m => (i, 4, m)
/-- The duration of a step in slots (R342). -/
def stepSlots (xs : StepPlan) (p : Nat) : Nat :=
  let b := (List.range p).foldl (fun m i => max m ((xs.filter fun x => x.1 == i).foldl (fun n x => n + x.2.len) 0)) 0
  (b + 15039) / 15040 + 1
/-- A member's part of the plan, its stages numbered from `base` on. -/
def memberPlan (plan : List StepPlan) (p me base quiet : Nat) : List CStep :=
  let st := stagesOf plan p
  let find (i ecls : Nat) : Option Nat := (st.findIdx? fun x => x == (i, ecls, me)).map (· + base)
  ((List.range plan.length).zip plan).map fun (i, xs) =>
    { stage := find i 1, rctx := find i 4, dur := stepSlots xs p, quiet := quiet
      sends := (xs.filter fun x => x.1 == me).map (·.2)
      recvs := (xs.filter fun x => x.2.peer == me).map fun x => { x.2 with peer := x.1 } }
/-- The plan of an instance under an algorithm, taken up by a member in a slot. Booking messages take 16 slots (R274), so that the member looks
for its places some slots later. -/
def Coll.adopt (c : Coll) (alg slot : Nat) : Coll :=
  let p := c.members.length
  let plan := expand c.op alg p c.bytes (c.f 221 216)
  { c with alg := alg, plan := memberPlan plan p c.me 0 (slot + 32), sends := plan, nst := (stagesOf plan p).length
           span := plan.foldl (fun n xs => n + stepSlots xs p) 0 }
/-- The stages of the coordinator's booking for a plan, steps numbered from `first` on (R342). -/
def Coll.stages (c : Coll) (plan : List StepPlan) (first : Nat) : List Stage :=
  let p := c.members.length
  (stagesOf plan p).map fun (i, ecls, m) =>
    { ecls := ecls, inst := 0xFFF, dev := if m = c.me then 0 else c.device m, rmt := m != c.me, cap := 1
      dur := stepSlots (plan.getD i []) p, gmin := 0, gmax := if first + i = 0 then 0 else 255, step := first + i }

/-! ## Combination (R339, R340) -/

/-- A value as a collective reads it (R339). -/
def Rec.readColl (r : Rec) (code : Nat) : Val :=
  match r.decode code with
  | .reserved => if r.f.hasNaN then .nan else .num false ⟨0, 1, 0⟩
  | v => v
/-- The greater of two values by the IEEE 754-2019 maximum. -/
def maxVal (a b : Val) : Val :=
  match a, b with
  | .nan, _ | _, .nan | .reserved, _ | _, .reserved => .nan
  | .inf false, _ | _, .inf false => .inf false
  | .inf true, v => v
  | v, .inf true => v
  | .num n x, .num m y =>
    if x.n = 0 ∧ y.n = 0 then .num (n && m) x else if (x.sub y).n < 0 then .num m y else .num n x
/-- The lesser of two values by the IEEE 754-2019 minimum. -/
def minVal (a b : Val) : Val := (maxVal a.negate b.negate).negate
/-- Two values under `RED`, not yet encoded. -/
def redVal (red : Nat) (a b : Val) : Val := if red = 1 then maxVal a b else if red = 2 then minVal a b else (Val.add 0 a b).1
/-- The element codes of several operands folded exactly and encoded once, or one alone as it stands (R339, R340). -/
def Rec.foldCodes (r : Rec) (red : Nat) : List Nat → Nat
  | [] => 0
  | [x] => x
  | x :: xs => (r.f.encode 0 r.sat (xs.foldl (fun v y => redVal red v (r.readColl y)) (r.readColl x))).1
/-- Words of four bytes folded element by element; the container is 4, 8, 16 or 32 bits wide. -/
def Rec.foldWords (r : Rec) (red : Nat) (ws : List Nat) : Nat :=
  (List.range (32 / r.cw)).foldr (fun i n =>
    r.foldCodes red (ws.map fun w => w / 2 ^ (r.cw * i) % 2 ^ r.cw) % 2 ^ r.cw + 2 ^ r.cw * n) 0

/-! ## Buffers (R337, R341) -/

/-- Runs of a buffer of `n` bytes at address `a` that the pieces of a write touch: offset and length. -/
def State.bufferHits (s : State) (c : Coll) (a n : Nat) (ps : List WPiece) : List (Nat × Nat) :=
  let cut (l : Loc) (off len : Nat) : List (Nat × Nat) := ps.filterMap fun p =>
    let lo := max p.1.off l.off
    let hi := min (p.1.off + p.2.1) (l.off + len)
    if p.1.core = l.core ∧ lo < hi then some (off + lo - l.off, hi - lo) else none
  match scratchPlace c.core a with
  | some (k, o) => cut ⟨some k, o⟩ 0 n
  | none => (List.range (n / 65536 + 2)).flatMap fun i =>
    let lo := max a ((a / 65536 + i) * 65536)
    let hi := min (a + n) ((a / 65536 + i + 1) * 65536)
    if lo < hi then
      match s.enginePlace c.key c.core lo false with
      | .ok l => cut l (lo - a) (hi - lo)
      | .error _ => []
    else []
/-- The bytes of `SBUF` that the member reads (R337). -/
def Coll.slen (c : Coll) : Nat :=
  if c.op = 4 then c.members.length * c.bytes else if c.op = 3 ∧ c.me ≠ c.f 221 216 then 0 else c.bytes
/-- A strand of the context stores while its collectives run: what depends on these bytes of their buffers is undefined (R346). -/
def State.spoil (s : State) (key : Nat) (ps : List WPiece) : State :=
  { s with colls := s.colls.map fun c =>
      if c.key = key then
        { c with spoilS := c.spoilS ++ (if c.op = 3 then [] else s.bufferHits c (c.f 63 0) c.slen ps)
                 spoilR := c.spoilR ++ s.bufferHits c (c.f 127 64) c.rlen ps }
      else c }
/-- A word of a buffer, the bytes of those of its elements that were stored into replaced by free ones (R346). -/
def State.blur (s : State) (c : Coll) (runs : List (Nat × Nat)) (off v : Nat) : Nat :=
  let u := max 1 ((Rec.of c.rcd).cw / 8)
  (List.range 4).foldl (fun v i =>
    if runs.any fun r => runsMeet r.1 r.2 (off + i / u * u) u then
      setFld v (8 * i + 7) (8 * i) ((Config.freeValue 32 (s.fresh + off)).toNat / 2 ^ (8 * i))
    else v) v
/-- The word of four bytes at an offset of `SBUF`, with its poison. An address that does not translate gives a free value. -/
def State.sbufWord (s : State) (c : Coll) (off : Nat) : Nat × Bool :=
  match s.enginePlace c.key c.core ((c.f 63 0 + off) % 2 ^ 64) false with
  | .ok l => (s.blur c c.spoilS off (s.readLoc l 4), s.isPoisoned l 4)
  | .error _ => ((Config.freeValue 32 (s.fresh + off)).toNat, false)
/-- The word at an offset of the buffer that a member's steps act on: the staging buffer for `OP` 1, else `RBUF`. -/
def State.workWord (s : State) (c : Coll) (off : Nat) : Nat × Bool :=
  if c.op = 1 then (Mem.read c.staging off 4, c.stagingPoison.contains (off / 64))
  else
    match s.enginePlace c.key c.core ((c.f 127 64 + off) % 2 ^ 64) false with
    | .ok l => (s.blur c c.spoilR off (s.readLoc l 4), s.isPoisoned l 4)
    | .error _ => ((Config.freeValue 32 (s.fresh + off)).toNat, false)
/-- The word that a step sends. -/
def State.sendWord (s : State) (c : Coll) (off : Nat) : Nat × Bool := if c.op = 4 then s.sbufWord c off else s.workWord c off
/-- No step from `k` on brings bytes to this word (R346). -/
def Coll.finalFrom (c : Coll) (k off : Nat) : Bool :=
  (c.plan.drop k).all fun st => st.recvs.all fun x => decide (off + 4 ≤ x.dst) || decide (x.dst + x.len ≤ off)
/-- A word of four bytes with its poison, by its offset. -/
abbrev BufWord := Nat × Nat × Bool
/-- Words written into `RBUF`; those that have their final value are counted, each unit once (R346). -/
def State.putRbuf (s : State) (c : Coll) (ws : List BufWord) (final : Nat → Bool) : State :=
  let place (ws : List BufWord) : List (WPiece × Bool) := ws.filterMap fun (o, v, p) =>
    match s.enginePlace c.key c.core ((c.f 127 64 + o) % 2 ^ 64) true with
    | .ok l => some ((l, 4, v), p)
    | .error _ => none
  let (fin, rest) := ws.partition fun w => final w.1 && !c.counted.contains (w.1 / 64)
  let s := s.updColl c.key c.tag fun c => { c with counted := fin.foldl (fun m w => NSet.add m (w.1 / 64)) c.counted }
  let plain := place rest
  let s := (s.engineWrite c.key (plain.map (·.1)) ((plain.filter (·.2)).map (·.1))).1
  (s.engineStore c.key (place fin)).1
/-- Words written by step `k - 1` into the buffer that the steps act on. -/
def State.putWork (s : State) (c : Coll) (k : Nat) (ws : List BufWord) : State :=
  if c.op = 1 then
    s.updColl c.key c.tag fun c =>
      { c with
        staging := ws.foldl (fun m w => Mem.write m w.1 4 w.2.1) c.staging
        stagingPoison := ws.foldl (fun m w => if w.2.2 then NSet.add m (w.1 / 64) else m) c.stagingPoison }
  else s.putRbuf c ws (c.finalFrom k)
/-- The words of a run. -/
def runWords (off len : Nat) : List Nat := (List.range (len / 4)).map fun i => off + 4 * i
/-- The runs of the local copy before a member's first step (R341): source offset in `SBUF`, offset in the working buffer, length. -/
def Coll.localRuns (c : Coll) : List (Nat × Nat × Nat) :=
  let n := c.bytes
  if c.op ≤ 1 then [(0, 0, n)]
  else if c.op = 2 then [(0, c.me * n, n)]
  else if c.op = 3 then (if c.me = c.f 221 216 then [(0, 0, n)] else [])
  else [(c.me * n, c.me * n, n)]
/-- The local copy before the member's first step, once the units it depends on have completed (R209, R341). -/
def State.localCopy (s : State) (key tag : Nat) : State :=
  match s.coll? key tag with
  | none => s
  | some c =>
    if c.copied || !c.started || !s.edgesDone c.uid then s
    else
      c.localRuns.foldl (fun s (a, b, n) => s.putWork c 0 ((runWords 0 n).map fun o => (b + o, s.sbufWord c (a + o))))
        (s.updColl key tag fun c => { c with copied := true })
/-- The instance begins at this member: its coordinator's booking has committed under handle `h` with an algorithm. -/
def State.beginColl (s : State) (c : Coll) (h : BitVec 32) (alg : Nat) : State :=
  let s := s.updColl c.key c.tag fun _ => { c.adopt alg s.slot with booked := h, started := true, start := s.slot }
  let s := s.updBooking c.handle fun b => if b.st = .deferred then { b with st := .committed } else b
  s.localCopy c.key c.tag

/-! ## The Shuttle (R344) -/

/-- A run cut at the tiles of the receiving buffer. -/
def tilesOf (x : Xfer) : List Xfer :=
  (List.range ((x.dst % collTile + x.len + collTile - 1) / collTile)).filterMap fun k =>
    let lo := max x.dst (x.dst / collTile * collTile + collTile * k)
    let hi := min (x.dst + x.len) (x.dst / collTile * collTile + collTile * (k + 1))
    if lo < hi then some { x with src := x.src + (lo - x.dst), dst := lo, len := hi - lo } else none
/-- A run of a step may be sent: every byte of it that an earlier step brings has come (R344). -/
def Coll.mayForward (c : Coll) (step : Nat) (x : Xfer) : Bool :=
  c.op == 4 || ((List.range step).all fun j => ((c.plan[j]?.map (·.recvs)).getD []).all fun y =>
    !runsMeet y.dst y.len x.src x.len ||
      ((List.range (x.len / collTile + 2)).all fun k =>
        let t := x.src / collTile + k
        !runsMeet (collTile * t) collTile x.src x.len || c.tileReady j t y.peer))
/-- A packet of an instance. -/
def Coll.packet (c : Coll) (ty : Nat) : Pkt := { ty := ty, tag := BitVec.ofNat 32 c.tag, rqdev := BitVec.ofNat 12 (c.device c.me) }
/-- One tile sent as `CDATA` packets of up to 256 bytes (R344, R347). -/
def State.sendTile (s : State) (c : Coll) (step : Nat) (x : Xfer) : State :=
  (List.range ((x.len + 255) / 256)).foldl (fun s i =>
    let n := min 256 (x.len - 256 * i)
    let ws := (runWords (256 * i) n).map fun o => s.sendWord c (x.src + o)
    let marks := (List.range ws.length).foldl (fun m j => if (ws.getD j (0, false)).2 then m ||| (1 <<< (j / 2)) else m) 0
    s.sendOff c.key (c.device x.peer) { c.packet 16 with
      addr := BitVec.ofNat 64 (x.dst + 256 * i)
      opnd := BitVec.ofNat 64 (step % 65536 + 2 ^ 16 * c.me + (if x.mode = 1 then 2 ^ 24 else 0) + (if x.mode = 2 then 2 ^ 25 else 0))
      payload := ws.flatMap fun w => leBytes w.1 4, marks := marks }) s
/-- Every tile that may be sent is sent, and kept until it is acknowledged (R344, R348). -/
def State.pump (s : State) (key tag : Nat) : State :=
  match s.coll? key tag with
  | none => s
  | some c =>
    let go := c.queue.filter fun q => c.mayForward q.1 q.2
    let s := go.foldl (fun s q => s.sendTile c q.1 q.2) s
    s.updColl key tag fun c =>
      { c with queue := c.queue.filter fun q => !go.contains q
               unacked := c.unacked ++ go.map fun q => (q.1, q.2.dst / collTile, q.2.peer, s.cyc) }
/-- The slots of a stage that its work leaves over return: of the own booking, or of another device's, which is told (R269, R276). -/
def State.giveBack (s : State) (c : Coll) (n : Nat) : State :=
  if c.ownBooking then (s.earlyFinish c.booked n).doneIfEnded c.booked
  else
    let dev := c.device c.booker
    let job := match (s.ctx c.key).job with
      | some j => j.job
      | none => 0
    let s : State := { s with bu := { s.bu with returns := s.bu.returns ++
      [{ dev := dev + 1, job := job, handle := c.booked, stage := n, first := s.slot + 1 }] } }
    s.sendBook c.key dev 4 { dev := c.device c.me, handle := c.booked, stage := n, hi := s.slot + 1 }
/-- Steps whose tiles are all sent and acknowledged have ended; a reduction context is held until its operands have come (R343). -/
def State.endSteps (s : State) (key tag : Nat) : State :=
  match s.coll? key tag with
  | none => s
  | some c =>
    let allDone (i : Nat) (st : CStep) : Bool :=
      st.begun && !st.ended && !(c.queue.any fun q => q.1 == i) && !(c.unacked.any fun u => u.1 == i) &&
        (st.rctx.isNone || (st.recvs.all fun x => x.mode != 2 || (tilesOf x).all fun t => c.tileReady i (t.dst / collTile) x.peer))
    let ends := ((List.range c.plan.length).zip c.plan).filter fun x => allDone x.1 x.2
    let s := s.updColl key tag fun c => { c with plan := c.plan.mapIdx fun i st => if allDone i st then { st with ended := true } else st }
    ends.foldl (fun s x =>
      let s := match x.2.stage with
        | some n => s.giveBack c n
        | none => s
      match x.2.rctx with
      | some n => s.giveBack c n
      | none => s) s
/-- A step of this member has its booked time now: an interval of its stage holds the present slot. -/
def State.stepHeld (s : State) (c : Coll) (st : CStep) : Bool :=
  let held (n : Option Nat) : Bool := match n with
    | none => true
    | some n => s.bu.cals.any fun (k : Nat × List Interval) => decide (768 ≤ k.1) && k.2.any fun i =>
        s.collInterval c i && i.stage == n && i.at? s.slot && !i.stopped
  (st.stage.isSome || st.rctx.isSome) && held st.stage && held st.rctx
/-- The step that begins now, if one does: the first that has a stage and has not begun. -/
def State.dueStep (s : State) (c : Coll) : Option Nat :=
  match c.plan.findIdx? fun st => (st.stage.isSome || st.rctx.isSome) && !st.begun with
  | none => none
  | some i =>
    if c.started && c.withdrawn.isNone && !c.cancelled && s.edgesDone c.uid && decide ((s.ctx c.key).phase = .running) &&
        (match c.plan[i]? with
         | some st => s.stepHeld c st
         | none => false) then some i
    else none
/-- The Shuttle of a member begins a step (R344), the first one after the local copy (R341). -/
def execCollectiveStepStart (tag step : Nat) (s : State) : Out :=
  match s.colls.find? fun c => c.tag == tag && s.dueStep c == some step with
  | none => .fault .noSuchStep
  | some c =>
    let s := (s.localCopy c.key c.tag).updBooking c.handle fun b =>
      if b.st = .committed ∧ b.stages.isEmpty then { b with st := .running } else b
    let s := s.updColl c.key tag fun c =>
      { c with
        plan := c.plan.mapIdx fun i st => if i = step then { st with begun := true } else st
        queue := c.queue ++ (((c.plan[step]?.map (·.sends)).getD []).flatMap tilesOf).map fun x => (step, x)
        flushed := c.flushed.map fun n => max n step }
    .next ((s.pump c.key tag).endSteps c.key tag)

/-! ## Notices (R347) -/

/-- A `CCTL` packet to a member: `SUB`, member mask, and for a redo the chunks. -/
def State.cctl (s : State) (c : Coll) (m sub mask chunks : Nat) : State :=
  s.sendOff c.key (c.device m) { c.packet 18 with sub := BitVec.ofNat 4 sub, opnd := BitVec.ofNat 64 mask, ocnt := BitVec.ofNat 128 chunks }
/-- The start of the next slice of a context in slots, or two slots on where it has no slices or is in its own (R359, R350). -/
def State.nextSlice (s : State) (key : Nat) : Nat :=
  match s.partition? key with
  | none => s.slot + 2
  | some p =>
    let (a, _) := p.slice (key % 128)
    let frame := s.slot / 4096 * 4096
    if p.bookable (key % 128) s.slot then s.slot + 2
    else if s.slot < frame + a + 320 then frame + a + 320 else frame + 4096 + a + 320
/-- A slot as a fabric slot, and back (R331). -/
def State.fabricSlot (s : State) (t : Nat) : Nat := ((t : Int) + s.bu.beaconOff).toNat
/-- R331. -/
def State.ownSlot (s : State) (t : Nat) : Nat := ((t : Int) - s.bu.beaconOff).toNat
/-- New time is asked for stage `n` of the instance's booking and those after it, from slot `lo` on (R350): at the unit that holds the booking, by
a Held notice to its member whose mask names the descheduled one (assumption log 95). -/
def State.askTime (s : State) (c : Coll) (n lo : Nat) : State :=
  if c.ownBooking then s.replaceFrom c.booked n lo
  else
    s.sendOff c.key (c.device c.booker) { c.packet 18 with
      addr := BitVec.ofNat 64 (s.fabricSlot lo), opnd := BitVec.ofNat 64 (2 ^ c.me), ocnt := BitVec.ofNat 128 n }
/-- The first step of a member that has not begun and whose booked time has passed, or was given up, while the member was descheduled (R350). -/
def State.missedStep (s : State) (c : Coll) : Option (Nat × Nat) :=
  match c.plan.findIdx? fun st => (st.stage.isSome || st.rctx.isSome) && !st.begun with
  | none => none
  | some i =>
    (c.plan[i]?.bind fun st => st.stage.or st.rctx).bind fun n =>
      if c.started && c.withdrawn.isNone && !c.cancelled && decide (((c.plan[i]?.map (·.quiet)).getD 0) ≤ s.slot) &&
          !(s.bu.cals.any fun k => k.2.any fun x => s.collInterval c x && x.stage == n && !x.stopped && decide (s.slot < x.start + x.len)) &&
          !(s.bu.holds.any fun h => h.handle == c.booked && h.stage == n) &&
          !(c.ownBooking && s.bu.reqs.any fun r => match r.kind with
            | .replace h _ _ _ => h == c.booked
            | _ => false)
      then some (i, n) else none
/-- Its stages are booked again from its next slice on (R350); an exchange takes at most 850 slots, so that it asks again after 1,024. -/
def State.rebookStep (s : State) (c : Coll) (i n : Nat) : State :=
  State.askTime (s.updColl c.key c.tag fun c =>
    { c with plan := c.plan.mapIdx fun j st => if j = i then { st with quiet := s.slot + 1024 } else st }) c n (s.nextSlice c.key)
/-- The same to every other live member. -/
def State.cctlAll (s : State) (c : Coll) (sub mask chunks : Nat) : State :=
  (c.live.filter (· != c.me)).foldl (fun s m => s.cctl c m sub mask chunks) s
/-- The collective that a packet names at this part. -/
def State.collOf (s : State) (p : Pkt) : Option Coll :=
  (s.arrival p).bind fun (key, _) => s.coll? key p.tag.toNat
/-- The member that a device is. -/
def Coll.memberOf (c : Coll) (dev : Nat) : Nat := (c.members.findIdx? (· == dev)).getD c.members.length

/-! ## Reduction contexts (R340) -/

/-- Operands waiting in the reduction context for a run, from every member that it expects there and that is not absent. -/
def Coll.operands (c : Coll) (step off len : Nat) : Option (List (List Byte × Nat)) :=
  (((c.plan[step]?.map (·.recvs)).getD []).filter fun x => x.mode == 2 && runsMeet x.dst x.len off len &&
      !(c.absent step x.peer && !c.rctx.any fun q => q.1 == step && q.2.1 == x.peer && q.2.2.1 == off)).mapM fun x =>
    (c.rctx.find? fun q => q.1 == step && q.2.1 == x.peer && q.2.2.1 == off && q.2.2.2.1.length == len).map (·.2.2.2)
/-- The reduction context folds the operands of a run, absent children omitted, when none is waited for (R340, R345). -/
def State.foldRun (s : State) (key tag step off len : Nat) : State :=
  match s.coll? key tag with
  | none => s
  | some c =>
    match c.operands step off len with
    | none | some [] => s
    | some ops =>
      let rec_ := Rec.of c.rcd
      let s := s.updColl key tag fun c => { c with rctx := c.rctx.filter fun q => !(q.1 == step && q.2.2.1 == off && q.2.2.2.1.length == len) }
      s.putWork c (step + 1) ((List.range (len / 4)).map fun i =>
        let (x, xp) := s.workWord c (off + 4 * i)
        (off + 4 * i, rec_.foldWords c.red (x :: ops.map fun b => leNat ((b.1.drop (4 * i)).take 4)),
         xp || ops.any fun b => b.2.testBit (i / 2)))
/-- Every run that waits in the reduction context is folded if nothing is waited for any more (R351). -/
def State.foldWaiting (s : State) (key tag : Nat) : State :=
  match s.coll? key tag with
  | none => s
  | some c => c.rctx.foldl (fun s q => s.foldRun key tag q.1 q.2.2.1 q.2.2.2.1.length) s

/-! ## Redo, flush (R349, R351) -/

/-- The live members compute the chunks of `mask` again (R349): the steps so far are over, the working copy of the chunks begins
again from `SBUF`, and the steps of the alternate tree follow, as continuations of the instance's booking. -/
def State.redo (s : State) (c : Coll) (mask : Nat) : State :=
  let p := c.members.length
  let plan := expandRedo c.op p c.bytes (c.f 221 216) c.live mask
  let old := c.plan.map fun st => { st with begun := true, ended := true, sends := [], recvs := [] }
  let c' := { c with plan := old ++ memberPlan plan p c.me c.nst (s.slot + 1024), nst := c.nst + (stagesOf plan p).length
                     sends := old.map (fun _ => []) ++ plan, redone := some mask
                     span := c.span + plan.foldl (fun n xs => n + stepSlots xs p) 0
                     queue := [], unacked := [], rctx := [] }
  let s := s.updColl c.key c.tag fun _ => c'
  let s := if c.op ≤ 1 then
      ((List.range p).filter mask.testBit).foldl (fun s k =>
        let (o, l) := chunkRun p c.bytes k
        s.putWork c' old.length ((runWords o l).map fun x => (x, s.sbufWord c' x))) s
    else s
  if c.ownBooking && !plan.isEmpty then
    let s := s.updBooking c.booked fun b => { b with stages := b.stages ++ c.stages plan old.length }
    match s.bu.bookings.find? fun b => b.handle == c.booked with
    | none => s
    | some b => s.askReplace b c.nst (s.slot + 2) (s.slot + Config.horizon)
  else s
/-- Chunks that have not their final value at every live member: at the coordinator, those not final here, and any others. -/
def State.unfinished (s : State) (c : Coll) : Nat :=
  let p := c.members.length
  (List.range p).foldl (fun m k =>
    let (o, l) := chunkOf c.op p c.bytes k
    let waits := ((List.range c.plan.length).zip c.plan).any fun (i, st) => st.recvs.any fun x =>
      runsMeet x.dst x.len o l && (tilesOf x).any fun t => !c.tileReady i (t.dst / collTile) x.peer
    if waits || (Config.freeValue 64 s.fresh).getLsbD k then m ||| (1 <<< k) else m) 0
/-- A member that has become the coordinator books what is to come under its own handle (R353). -/
def Coll.lead (c : Coll) : Coll :=
  if c.booker = c.me then c else { c with booker := c.me, booked := c.handle, nst := 0 }
/-- Members of a mask have failed (R349): every member notes it, and the coordinator tells the live members to redo; after a flush nothing is
redone, and what was waited for from them is absent (R351). -/
def State.failMembers (s : State) (c : Coll) (mask : Nat) : State :=
  let c' := { c with fmask := c.fmask ||| mask }
  let s := s.updColl c.key c.tag fun _ => c'
  if c.flushed.isSome then ((s.foldWaiting c.key c.tag).pump c.key c.tag).endSteps c.key c.tag
  else if c'.coordinator = c.me && c.started then
    let chunks := s.unfinished c'
    let s := { s with fresh := s.fresh + 1 }
    (s.cctlAll c'.lead 6 c'.fmask (chunks + 2 ^ 64 * c'.lead.booked.toNat)).redo c'.lead chunks
  else s
/-- The slot in which a step ends by its booking, or by its duration from the cycle in which a tile was sent (R342). -/
def State.stepEnd (s : State) (c : Coll) (step cyc : Nat) : Nat :=
  match c.plan[step]? with
  | none => cyc / 64
  | some st =>
    match (s.bu.bookings.find? fun b => b.handle == c.booked).bind fun b => st.stage.bind fun n => b.stages[n]? with
    | some g => g.start + st.dur
    | none => cyc / 64 + st.dur
/-- A failed member is detected by the coordinator: no route to it is usable, or an acknowledgement is missing `2 D` slots after the
end of its step (R349). -/
def State.lostMember (s : State) (c : Coll) (m : Nat) : Bool :=
  c.started && c.coordinator == c.me && m != c.me && !c.fmask.testBit m && decide (m < c.members.length) &&
  (!(s.ctx c.key).reachable (c.device m) ||
    c.unacked.any fun u => u.2.2.1 == m && decide (s.stepEnd c u.1 u.2.2.2 + 2 * ((c.plan[u.1]?.map (·.dur)).getD 1) ≤ s.slot))
/-- A member is found to have failed (R349). -/
def execCollectiveFailureDetect (tag member : Nat) (s : State) : Out :=
  match s.colls.find? fun c => c.tag == tag && s.lostMember c member with
  | none => .fault .noSuchStep
  | some c => .next (s.failMembers c (2 ^ member))
/-- The steps of an instance that have begun at a member: up to the last that the member has begun or has received bytes of. -/
def Coll.stepsBegun (c : Coll) : Nat :=
  (List.range c.plan.length).foldl (fun n i =>
    if ((c.plan[i]?.map (·.begun)).getD false) || c.tiles.any (fun t => t.1 == i) then i + 1 else n) 0
/-- What a flush does at a member (R351): the steps begun end, what has not come of them is absent, and what is held goes on. The unit that holds
the booking places the remaining steps again, as continuations. -/
def State.flushColl (s : State) (c : Coll) : State :=
  let n := c.stepsBegun
  let s := s.updColl c.key c.tag fun c => { c with flushed := some n, flushSlot := s.slot, unacked := [] }
  let s := ((s.foldWaiting c.key c.tag).pump c.key c.tag).endSteps c.key c.tag
  if c.ownBooking then
    match (s.bu.bookings.find? fun b => b.handle == c.booked).bind fun b => b.stages.findIdx? fun g => decide (n ≤ g.step) && !g.ended with
    | some m => s.replaceFrom c.booked m (s.slot + 2)
    | none => s
  else s
/-- The slot at which an instance times out (R351). -/
def State.collLimit (s : State) (c : Coll) : Nat :=
  let begin_ := match s.bu.bookings.find? fun b => b.handle == c.booked with
    | some b => ((b.stages.head?).map (·.start)).getD c.start
    | none => c.start
  begin_ + (if c.f 335 320 = 0 then (s.ctx c.key).linkTimeout / 64 else 64 * c.f 335 320)
/-- The instance times out at its coordinator (R351). -/
def State.collTimedOut (s : State) (c : Coll) : Bool :=
  c.started && c.coordinator == c.me && c.flushed.isNone && !c.plan.isEmpty && decide (s.collLimit c ≤ s.slot)
/-- R351. -/
def execCollectiveTimeout (tag : Nat) (s : State) : Out :=
  match s.colls.find? fun c => c.tag == tag && s.collTimedOut c with
  | none => .fault .noSuchStep
  | some c => .next ((s.cctlAll c 2 0 0).flushColl c)

/-! ## Reception (R345, R352) -/

/-- Words of four bytes of a payload. -/
def payloadWords (p : Pkt) : List BufWord :=
  (List.range (p.payload.length / 4)).map fun i =>
    (p.addr.toNat + 4 * i, leNat ((p.payload.drop (4 * i)).take 4), p.marks.testBit (i / 2))
/-- The bytes of a `CDATA` applied (R345). -/
def State.applyTile (s : State) (c : Coll) (p : Pkt) (step from_ : Nat) : State :=
  let ws := payloadWords p
  let rec_ := Rec.of c.rcd
  if p.opnd.getLsbD 25 then
    State.foldRun (s.updColl c.key c.tag fun c => { c with rctx := c.rctx ++ [(step, from_, p.addr.toNat, p.payload, p.marks)] })
      c.key c.tag step p.addr.toNat p.payload.length
  else if p.opnd.getLsbD 24 then s.putWork c (step + 1) ws
  else
    s.putWork c (step + 1) (ws.map fun (o, v, poi) =>
      let (x, xp) := s.workWord c o
      (o, rec_.foldWords c.red [x, v], poi || xp))
/-- The bytes of a packet counted for their tile, and the acknowledgement of a complete tile (R345). -/
def State.countTile (s : State) (c : Coll) (p : Pkt) (step from_ : Nat) : State :=
  let tile := p.addr.toNat / collTile
  let n := c.received step tile from_ + p.payload.length
  let s := s.updColl c.key c.tag fun c =>
    { c with tiles := (c.tiles.filter fun t => !(t.1 == step && t.2.1 == tile && t.2.2.1 == from_)) ++ [(step, tile, from_, n)] }
  if n = c.expected step tile from_ then
    s.sendOff c.key (c.device from_) { c.packet 17 with opnd := BitVec.ofNat 64 (step % 65536 + 2 ^ 16 * tile) }
  else s
/-- A late contribution: discarded, counted, and its sender told (R352). -/
def State.lateTile (s : State) (key : Nat) (p : Pkt) : State :=
  let s := match s.coll? key p.tag.toNat with
    | some c => s.updColl key c.tag fun c => { c with late := c.late + 1 }
    | none => { s with collLate := SMap.upd s.collLate 0 (256 * key + p.tag.toNat / 2 ^ 24) (· + 1) }
  s.reply key p { ty := 18, sub := 3 }
/-- A contribution that cannot be applied now (R347, R350); `ADDR` names the fabric slot from which it can (assumption log 95). -/
def State.holdTile (s : State) (key : Nat) (p : Pkt) : State :=
  s.reply key p { ty := 18, sub := 0, addr := BitVec.ofNat 64 (s.fabricSlot (s.nextSlice key)) }
/-- A notice for an instance whose `coll` the member has not issued is kept until then (R336, R350). -/
def State.keepNotice (s : State) (p : Pkt) : State :=
  match s.arrival p with
  | none => s.unserved p
  | some (key, _) =>
    if p.tag.toNat % 2 ^ 24 < SMap.get s.collCount 0 (256 * key + p.tag.toNat / 2 ^ 24) then s
    else { (s.received key p) with digests := s.digests ++ [(key, { p with inside := true })] }
/-- `CDATA` arrives (R345, R350, R352). -/
def execCdata (p : Pkt) (s : State) : Out :=
  match s.arrival p with
  | none => .next (s.unserved p)
  | some (key, x) =>
    let s := (s.received key p).localCopy key p.tag.toNat
    let step := fld p.opnd.toNat 15 0
    let from_ := fld p.opnd.toNat 23 16
    match s.coll? key p.tag.toNat with
    | none =>
      let issued := SMap.get s.collCount 0 (256 * key + p.tag.toNat / 2 ^ 24)
      .next (if p.tag.toNat % 2 ^ 24 < issued then s.lateTile key p else s.holdTile key p)
    | some c =>
      if c.flushed.isSome && c.absent step c.members.length then .next (s.lateTile key p)
      else if x.phase ≠ .running ∨ !c.copied then .next (s.holdTile key p)
      else if c.expected step (p.addr.toNat / collTile) from_ = 0 then .next s
      else .next ((((s.applyTile c p step from_).countTile c p step from_).pump key c.tag).endSteps key c.tag)
/-- `CACK`: the tile is kept no longer (R345, R348). -/
def execCack (p : Pkt) (s : State) : Out :=
  match s.collOf p with
  | none => .next (s.unserved p)
  | some c =>
    let step := fld p.opnd.toNat 15 0
    let tile := fld p.opnd.toNat 47 16
    let m := c.memberOf p.sdev.toNat
    let s := (s.received c.key p).updColl c.key c.tag fun c =>
      { c with unacked := c.unacked.filter fun u => !(u.1 == step && u.2.1 == tile && u.2.2.1 == m) }
    .next (s.endSteps c.key c.tag)
/-- No step begins any more in the present intervals of a stage on this device. -/
def State.stopStage (s : State) (c : Coll) (n : Nat) : State :=
  { s with bu := { s.bu with cals := s.bu.cals.map fun (k : Nat × List Interval) =>
      (k.1, k.2.map fun i => if s.collInterval c i && i.stage == n then { i with stopped := true } else i) } }
/-- `CCTL` Held (R350): from a descheduled receiver, its sender keeps the tiles, and the step and those after it take a later place; from
another sender, the unit that holds the booking gives them that place. -/
def execCctlHeld (p : Pkt) (s : State) : Out :=
  match s.collOf p with
  | none => .next (s.unserved p)
  | some c =>
    let s := s.received c.key p
    let m := c.memberOf p.sdev.toNat
    let lo := s.ownSlot p.addr.toNat
    if p.opnd ≠ 0 then .next (if c.ownBooking then s.replaceFrom c.booked (p.ocnt.toNat % 2 ^ 32) lo else s)
    else
    let held := c.unacked.filter fun u => u.2.2.1 == m
    match held with
    | [] => .next s
    | u :: _ =>
      let first := held.foldl (fun n v => min n v.1) u.1
      let s := s.updColl c.key c.tag fun c =>
        { c with
          unacked := c.unacked.filter fun u => u.2.2.1 != m
          queue := c.queue.filter fun q => decide (q.1 < first)
          plan := c.plan.mapIdx fun i st => if first ≤ i then
              { st with begun := false, ended := false, quiet := s.slot + 1024
                        sends := if i = first then
                            (st.sends.flatMap tilesOf).filter fun x => held.any fun v => v.1 == i && v.2.1 == x.dst / collTile && v.2.2.1 == x.peer
                          else st.sends }
            else st }
      match (c.plan.drop first).findSome? (·.stage) with
      | some n => .next ((s.stopStage c n).askTime c n lo)
      | none => .next s
/-- `CCTL` Withdraw (R349, R353). -/
def execCctlWithdraw (p : Pkt) (s : State) : Out :=
  match s.collOf p with
  | none => .next (s.keepNotice p)
  | some c => .next ((s.received c.key p).failMembers c (if p.opnd = 0 then 2 ^ c.memberOf p.sdev.toNat else p.opnd.toNat))
/-- `CCTL` Flush (R351). -/
def execCctlFlush (p : Pkt) (s : State) : Out :=
  match s.collOf p with
  | none => .next (s.keepNotice p)
  | some c => .next (if c.flushed.isSome then s else (s.received c.key p).flushColl c)
/-- `CCTL` Late (R352). -/
def execCctlLate (p : Pkt) (s : State) : Out :=
  match s.collOf p with
  | none => .next (s.unserved p)
  | some c =>
    let m := c.memberOf p.sdev.toNat
    .next ((s.received c.key p).updColl c.key c.tag fun c =>
      { c with toldLate := true, unacked := c.unacked.filter fun u => u.2.2.1 != m })
/-- `CCTL` NOFIT (R342). -/
def execCctlNofit (p : Pkt) (s : State) : Out :=
  match s.collOf p with
  | none => .next (s.keepNotice p)
  | some c => .next (if c.started then s else (s.received c.key p).updColl c.key c.tag fun c => { c with withdrawn := some 3 })
/-- `CCTL` Digest mismatch: the member that sends it takes no part (R353). -/
def execCctlDigestMismatch (p : Pkt) (s : State) : Out :=
  match s.collOf p with
  | none => .next (s.keepNotice p)
  | some c => .next ((s.received c.key p).failMembers c (2 ^ c.memberOf p.sdev.toNat))
/-- `CCTL` Redo: the failed members in `OPND`, and in `OCNT` the chunks to compute again and the handle of the coordinator's booking above them
(R349, R353; assumption log 95). -/
def execCctlRedo (p : Pkt) (s : State) : Out :=
  match s.collOf p with
  | none => .next (s.keepNotice p)
  | some c =>
    let from_ := c.memberOf p.sdev.toNat
    let c' := { c with
      fmask := c.fmask ||| p.opnd.toNat, booker := from_, booked := BitVec.ofNat 32 (fld p.ocnt.toNat 95 64)
      nst := if from_ = c.booker then c.nst else 0 }
    let s := (s.received c.key p).updColl c.key c.tag fun _ => c'
    .next (s.redo c' (p.ocnt.toNat % 2 ^ 64))

/-! ## Digests (R336) -/

/-- The digest of a block. -/
def Coll.digest (c : Coll) : List Byte :=
  leBytes c.op 1 ++ leBytes c.red 1 ++ leBytes (c.f 159 128) 4 ++ leBytes (c.f 221 216) 1 ++ leBytes c.rcd.toNat 16
/-- The coordinator's digest compared (R336, R353): the instance begins, or the member withdraws. -/
def State.compareDigest (s : State) (c : Coll) (p : Pkt) : State :=
  if p.payload = c.digest then s.beginColl c (BitVec.ofNat 32 (fld p.opnd.toNat 31 0)) (fld p.opnd.toNat 33 32)
  else
    let c' := { c with withdrawn := some 2, fmask := c.fmask ||| 2 ^ c.me }
    (s.cctl c 0 1 (2 ^ c.me) 0).updColl c.key c.tag fun _ => c'
/-- `CDIG`: compared with the member's block, or kept until the member issues its `coll` (R336). -/
def execCdig (p : Pkt) (s : State) : Out :=
  match s.arrival p with
  | none => .next (s.unserved p)
  | some (key, _) =>
    match s.coll? key p.tag.toNat with
    | none => .next (s.keepNotice p)
    | some c => .next (if c.started then s.received key p else (s.received key p).compareDigest c p)
/-- The coordinator's instance begins, and every other member is told (R336); one that has failed meanwhile makes a redo (R349). -/
def State.announce (s : State) (c : Coll) (h : BitVec 32) (alg : Nat) : State :=
  let s := (c.live.filter (· != c.me)).foldl (fun s m =>
    s.sendOff c.key (c.device m) { c.packet 19 with opnd := BitVec.ofNat 64 (h.toNat + 2 ^ 32 * alg), payload := c.digest }) s
  let s := s.beginColl { c with handle := h } h alg
  match s.coll? c.key c.tag with
  | some c => if c.fmask = 0 then s else s.failMembers c 0
  | none => s

/-! ## Completion (R222, R354) -/

/-- Everything that a member takes part in is done, or it leaves the instance at a step boundary. -/
def State.collDone (s : State) (c : Coll) : Bool :=
  let quiet := c.queue.isEmpty && c.unacked.isEmpty
  c.withdrawn.isSome || (c.cancelled && c.queue.isEmpty) ||
  (c.started && s.edgesDone c.uid && quiet && c.plan.all (fun st => (st.stage.isNone && st.rctx.isNone) || st.begun) &&
    (((List.range c.plan.length).zip c.plan).all fun (i, st) => st.recvs.all fun x => (tilesOf x).all fun t =>
      c.tileReady i (t.dst / collTile) x.peer || (c.flushed.isSome && decide (c.flushSlot + c.span + 1024 < s.slot))))
/-- `ST` of the record (R354). -/
def Coll.status (c : Coll) : Nat :=
  if c.cancelled ∨ c.withdrawn = some 3 then 3 else if c.fmask ≠ 0 then 2 else if c.flushed.isSome ∨ c.toldLate then 1 else 0
/-- The members whose contribution chunk `k` of member `m`'s buffer holds before any step of the plan, as a mask (R341, R349). -/
def Coll.ownShare (c : Coll) (m k : Nat) : Nat :=
  let fresh := match c.redone with
    | some mask => mask.testBit k
    | none => true
  if c.op ≤ 1 then (if fresh then 2 ^ m else 2 ^ c.members.length - 1)
  else if c.op = 3 then (if m = c.f 221 216 ∨ !fresh then 2 ^ c.f 221 216 else 0)
  else if k = m ∨ !fresh then 2 ^ k else 0
/-- Chunks that a run meets. -/
def Coll.chunksIn (c : Coll) (off len : Nat) : List Nat :=
  (List.range c.members.length).filter fun k =>
    let (o, l) := chunkOf c.op c.members.length c.bytes k
    runsMeet off len o l
/-- What a run brings to chunk `k`, by the shares of every member (R338, R341). -/
def Coll.brings (c : Coll) (shares : List (List Nat)) (from_ k : Nat) : Nat :=
  if c.op = 4 then 2 ^ from_ else (shares.getD from_ []).getD k 0
/-- A share of a chunk after a run has come: added to it, or in its place. -/
def shareAfter (old new mode : Nat) : Nat := if mode = 1 then new else old ||| new
/-- The shares of every member after a step in which everything comes. -/
def Coll.sharesAfter (c : Coll) (shares : List (List Nat)) (xs : StepPlan) : List (List Nat) :=
  shares.mapIdx fun m ks => ks.mapIdx fun k v => (xs.filter fun x => x.2.peer == m && (c.chunksIn x.2.dst x.2.len).contains k).foldl
    (fun v x => shareAfter v (c.brings shares x.1 k) x.2.mode) v
/-- The shares of every member before the first step. -/
def Coll.sharesFirst (c : Coll) : List (List Nat) :=
  (List.range c.members.length).map fun m => (List.range c.members.length).map fun k => c.ownShare m k
/-- Of a chunk in a step from a member: 0 nothing has come, 1 part, 2 all. -/
def Coll.come (c : Coll) (step peer k : Nat) : Nat :=
  let (o, l) := chunkOf c.op c.members.length c.bytes k
  let ts := (((c.plan[step]?.map (·.recvs)).getD []).filter fun x => x.peer == peer).flatMap fun x =>
    (tilesOf x).filter fun t => runsMeet t.dst t.len o l
  let got := ts.map fun t => (c.received step (t.dst / collTile) peer, c.expected step (t.dst / collTile) peer)
  if got.all fun g => decide (g.2 ≤ g.1) then 2 else if got.all fun g => g.1 == 0 then 0 else 1
/-- The contributions that the chunks of this member's buffer hold, and would hold if everything had come (R351). What others had when they
sent on after a flush only they know: `some` gives a free part of it. -/
def Coll.sharesHere (c : Coll) (part_ : Nat → Nat → Nat) : List (Nat × Nat) :=
  let go := ((List.range c.sends.length).zip c.sends).foldl
    (fun (r : List (List Nat) × List Nat) (ix : Nat × StepPlan) =>
      let mine := ix.2.filter fun x => x.2.peer == c.me
      (c.sharesAfter r.1 ix.2,
       r.2.mapIdx fun k v => (mine.filter fun x => (c.chunksIn x.2.dst x.2.len).contains k).foldl (fun v x =>
         let new := c.brings r.1 x.1 k &&& part_ ix.1 k
         let n := c.come ix.1 x.1 k
         if n = 2 then shareAfter v new x.2.mode else if n = 1 ∧ x.2.mode = 1 then v &&& new else v) v))
    (c.sharesFirst, c.sharesFirst.getD c.me [])
  (go.2.zip (go.1.getD c.me [])).mapIdx fun k x => if c.op = 1 ∧ k ≠ c.me then (0, 0) else x
/-- `CMASK` of the record (R222, R349, R351, R352): the members whose contributions every chunk of the result holds that is to hold them. -/
def State.cmask (s : State) (c : Coll) : Nat :=
  let all := (2 ^ c.members.length - 1) &&& (2 ^ 64 - 1 - c.fmask % 2 ^ 64)
  let own := if c.toldLate then all &&& (2 ^ 64 - 1 - 2 ^ c.me) else all
  if c.withdrawn = some 3 ∨ !c.copied then 0
  else if c.flushed.isSome ∨ c.cancelled ∨ c.withdrawn.isSome then
    let part_ (i k : Nat) : Nat :=
      if c.flushed.isSome then (Config.freeValue 64 (s.fresh + c.members.length * i + k)).toNat ||| 2 ^ c.me else 2 ^ 64 - 1
    (c.sharesHere part_).foldl (fun m x => m &&& (2 ^ 64 - 1 - (x.2 - (x.2 &&& x.1)))) own
  else own
/-- Runs of `RBUF` that depend on bytes that strands of this member stored: those of `RBUF` itself, and those to which the bytes of
`SBUF` go (R338, R346). -/
def Coll.spoiled (c : Coll) : List (Nat × Nat) :=
  let (o, l) := chunkRun c.members.length c.bytes c.me
  c.spoilR ++ (if c.op = 1 then c.spoilS.filterMap fun r =>
      if r.1 < o + l ∧ o < r.1 + r.2 then some (max r.1 o - o, min (r.1 + r.2) (o + l) - max r.1 o) else none
    else if c.op = 2 then c.spoilS.map fun r => (c.me * c.bytes + r.1, r.2)
    else if c.op = 4 then c.spoilS.filter fun r => runsMeet r.1 r.2 (c.me * c.bytes) c.bytes
    else c.spoilS)
/-- What strands spoiled is undefined in the result of a collective that has run (R346). -/
def State.spoilResult (s : State) (c : Coll) : State :=
  if c.spoiled.isEmpty || !c.started then s
  else
    let ws := (runWords 0 c.rlen).filter fun o => c.spoiled.any fun r => runsMeet r.1 r.2 o 4
    let s' := s.putRbuf c (ws.map fun o =>
      match s.enginePlace c.key c.core ((c.f 127 64 + o) % 2 ^ 64) false with
      | .ok l => (o, s.blur c c.spoiled o (s.readLoc l 4), s.isPoisoned l 4)
      | .error _ => (o, 0, false)) fun _ => false
    { s' with fresh := s'.fresh + c.rlen }
/-- A member writes its completion record and decrements its counter (R222). -/
def execCollectiveComplete (tag : Nat) (s : State) : Out :=
  match s.colls.find? fun c => c.tag == tag && (s.ctx c.key).present && s.collDone c with
  | none => .fault .noSuchStep
  | some c =>
    let key := c.key
    let s := s.localCopy key tag
    let c := (s.coll? key tag).getD c
    let (o, l) := chunkRun c.members.length c.bytes c.me
    let s := if c.op = 1 ∧ c.started ∧ c.withdrawn.isNone then
        s.putRbuf c ((runWords 0 l).map fun x => (x, s.workWord c (o + x))) fun _ => true
      else s
    let s := s.spoilResult c
    let late := c.late + SMap.get s.collLate 0 (256 * key + c.grp)
    let r := s.cmask c + 2 ^ 64 * c.fmask + 2 ^ 128 * (late % 2 ^ 32) + 2 ^ 192 * c.status + 2 ^ 200 * c.alg + 2 ^ 255
    let s := if c.cancelled ∧ c.me ≠ c.coordinator then s.cctl c c.coordinator 1 (2 ^ c.me) 0
      else if c.cancelled then s.cctlAll c 1 (2 ^ c.me) 0
      else s
    let s := (s.engineWrite key (chunk8 ⟨some c.core, c.f 415 384⟩ (leBytes r 32))).1
    let s := if c.f 236 236 = 1 then s.engineDecrement c.core key (c.f 248 237) else s
    let s := s.unitDone c.uid
    let s := match s.bu.bookings.find? fun b => b.handle == c.handle with
      | some b => if b.live then s.finalize c.handle .done else s
      | none => s
    .next { s with
      fresh := s.fresh + c.members.length * (c.sends.length + 1)
      colls := s.colls.filter fun d => !(d.key == key && d.tag == tag)
      collLate := SMap.erase s.collLate (256 * key + c.grp) }

/-! ## `coll` (R222, R335 to R337) -/

/-- A buffer of `n` bytes in the form of R166 on the own device. -/
def State.bufferOk (s : State) (own part a n : Nat) : Bool :=
  if isScratchAddr a then a % 2 ^ 63 / 2 ^ 32 == 0 && (s.scratchAt own part (a % 2 ^ 32) n).isSome
  else globalOk a n && decide (a + n ≤ controlBase)
/-- Two buffers share a byte. -/
def buffersMeet (own a n b m : Nat) : Bool :=
  match scratchPlace own a, scratchPlace own b with
  | some (c, x), some (d, y) => c == d && runsMeet x n y m
  | none, none => runsMeet a n b m
  | _, _ => false
/-- A block keeps its limits (R221, R337). -/
def State.blockOk (s : State) (k : Task) (c : Coll) : Bool :=
  let r := c.block.toNat
  let p := c.members.length
  fld r 1023 416 == 0 && fld r 383 336 == 0 && fld r 319 314 == 0 && fld r 255 249 == 0 && fld r 235 233 == 0
  && fld r 223 222 == 0 && fld r 207 203 == 0 && fld r 191 160 == 0
  && decide (c.op ≤ 4) && decide (c.red ≤ 2) && (decide (c.op ≤ 1) || c.red == 0) && decide (c.f 201 200 ≤ 2)
  && decide (1 ≤ c.f 159 128) && (if c.op = 3 then decide (c.f 221 216 < p) else c.f 221 216 == 0)
  && c.f 415 384 % 32 == 0 && localScratch (c.f 415 384) 32
  && (c.f 159 128 * (Rec.of c.rcd).cw) % 512 == 0
  && c.f 63 0 % 64 == 0 && c.f 127 64 % 64 == 0
  && (c.slen == 0 || s.bufferOk c.core k.part (c.f 63 0) c.slen) && s.bufferOk c.core k.part (c.f 127 64) (max 64 c.rlen)
  && (decide (1 < c.op) || isScratchAddr (c.f 127 64))
  && !buffersMeet c.core (c.f 63 0) c.slen (c.f 127 64) c.rlen
/-- The footprint of a collective (R209). -/
def Coll.regions (c : Coll) : List Region :=
  let reg (a n : Nat) (wr : Bool) : Region :=
    match scratchPlace c.core a with
    | some (k, o) => ⟨some k, o, n, !wr, wr⟩
    | none => ⟨none, a, n, !wr, wr⟩
  [reg (c.f 63 0) c.slen false, reg (c.f 127 64) c.rlen true].filter fun r => decide (0 < r.len)
/-- `coll` (R222): checked and counted; the coordinator's request goes to the Booking Unit, another member has a local handle that
stays deferred until the coordinator commits (R342). -/
def execColl (h : Hdr) (o : SYS) (s : State) : Out :=
  engineWord h o (fun e s => s.recordArg e o 128 64 fun _ r =>
    let key := e.task.key
    let x := s.ctx key
    let cl := clusterOf e.core
    let grp := fld r 215 208
    let members := SMap.get x.groups [] grp
    let me := (members.findIdx? (· == x.devNo)).getD 0
    match SMap.find? e.task.fmt (fld r 227 224) with
    | none => result15 s o.b (statusWord 2 0)
    | some f =>
      let k := SMap.get s.collCount 0 (256 * key + grp)
      let c : Coll := { tag := grp * 2 ^ 24 + k % 2 ^ 24, members := members, me := me, block := BitVec.ofNat 1024 r, rcd := f.o,
                        part := e.task.part, fn := e.task.fn, core := e.core, uid := 0, handle := 0,
                        alg := algUsed (fld r 195 192) (fld r 201 200) }
      if x.job.isNone ∨ members.isEmpty ∨ !members.contains x.devNo ∨ !(members.all x.inJob)
          ∨ !(members.all fun d => members.count d == 1) then
        result15 s o.b (statusWord 3 0)
      else if !s.blockOk e.task c then result15 s o.b (statusWord 2 0)
      else if !s.tableRoom cl key c.regions || !s.frontFree cl then .stall
      else
        let (uid, s) := s.submit cl key e.core c.regions
        let c := { c with uid := uid }
        let s := { s with collCount := SMap.set s.collCount (256 * key + grp) (k + 1) }
        if me = 0 then askUnit { s with colls := s.colls ++ [c] } e o (fld r 232 228) true (.coll c.tag)
        else
          let (hd, s) := s.takeHandle e.task.part
          let c := { c with handle := hd }
          let b : Booking := { handle := hd, part := c.part, fn := c.fn, core := e.core, st := .deferred, stages := [], accepted := s.cyc,
                               prio := fld r 232 228, cluster := cl, remote := true, coll := some c.tag }
          let s := { s with colls := s.colls ++ [c], bu := { s.bu with bookings := s.bu.bookings ++ [b] } }
          let (now, later) := s.digests.partition fun d => d.1 == key && d.2.tag.toNat == c.tag
          let s := { s with digests := later, loop := s.loop ++ now.map (·.2) }
          result15 s o.b (BitVec.ofNat 64 (2 ^ 58 * fld r 201 200 + hd.toNat))) s

end Sys2Proof.Machine
end

