-- ==== Sys2Proof/Decode.lean ====
section
/-!
DEFINITION. From stored bytes to an instruction and back. A word is ten bytes, lowest byte first (R5); its fields are those of
R41 and R43; its row is given by the opcode map of R61, with the minor codes of R141 for the matrix group. Decoding is total:
it answers a well-formed instruction or the reason why there is none.
-/
namespace Sys2Proof
namespace Dec

/-- Bits `lo + n - 1` to `lo` of a word (R4). -/
def bits (w : BitVec 80) (lo n : Nat) : BitVec n := w.extractLsb' lo n

/-- The common part of a word (R41). -/
def hdr (w : BitVec 80) : Hdr :=
  { str := Strand.ofCode (bits w 78 2).toNat, tok := bits w 74 4, pn := w.getLsbD 73, psel := bits w 69 4,
    dst := bits w 65 4, tal := bits w 62 3, tc1 := bits w 59 3, tc2 := bits w 56 3 }
/-- Format `RRR` (R43). -/
def ofRRR (w : BitVec 80) : RRR := ⟨bits w 39 7, bits w 32 7, bits w 25 7, bits w 18 7, bits w 0 18⟩
/-- Format `RRI` (R43). -/
def ofRRI (w : BitVec 80) : RRI := ⟨bits w 39 7, bits w 32 7, bits w 0 32⟩
/-- Format `MEM` (R43). -/
def ofMEM (w : BitVec 80) : MEM := ⟨bits w 39 7, bits w 32 7, bits w 28 4, bits w 25 3, bits w 23 2, bits w 0 23⟩
/-- Format `MEMX` (R43). -/
def ofMEMX (w : BitVec 80) : MEMX :=
  ⟨bits w 39 7, bits w 32 7, bits w 28 4, bits w 25 3, bits w 23 2, bits w 16 7, bits w 0 16⟩
/-- Format `BRA` (R43). -/
def ofBRA (w : BitVec 80) : BRA := ⟨bits w 39 7, bits w 32 7, bits w 0 32⟩
/-- Format `MXC` (R43). -/
def ofMXC (w : BitVec 80) : MXC :=
  ⟨bits w 45 1, bits w 38 7, bits w 31 7, bits w 24 7, bits w 20 4, bits w 19 1, bits w 15 4, bits w 8 7, bits w 0 8⟩
/-- Format `SYS` (R43). -/
def ofSYS (w : BitVec 80) : SYS := ⟨bits w 39 7, bits w 32 7, bits w 24 8, bits w 0 24⟩

/-- Group 0x00 of the opcode map (R61). -/
def group00 (mn : Nat) (h : Hdr) (w : BitVec 80) : Except DecodeErr Instr :=
  match mn with
  | 0 => .ok (.add h (ofRRR w))
  | 1 => .ok (.sub h (ofRRR w))
  | 2 => .ok (.and h (ofRRR w))
  | 3 => .ok (.or h (ofRRR w))
  | 4 => .ok (.xor h (ofRRR w))
  | 5 => .ok (.shl h (ofRRR w))
  | 6 => .ok (.shr h (ofRRR w))
  | 7 => .ok (.sra h (ofRRR w))
  | 8 => .ok (.mul h (ofRRR w))
  | 9 => .ok (.mulh h (ofRRR w))
  | 10 => .ok (.mulhu h (ofRRR w))
  | 11 => .ok (.min h (ofRRR w))
  | 12 => .ok (.max h (ofRRR w))
  | 13 => .ok (.minu h (ofRRR w))
  | 14 => .ok (.maxu h (ofRRR w))
  | _ => .error .reservedMinor

/-- Group 0x01 of the opcode map (R61). -/
def group01 (mn : Nat) (h : Hdr) (w : BitVec 80) : Except DecodeErr Instr :=
  match mn with
  | 0 => .ok (.addi h (ofRRI w))
  | 1 => .ok (.andi h (ofRRI w))
  | 2 => .ok (.ori h (ofRRI w))
  | 3 => .ok (.xori h (ofRRI w))
  | 4 => .ok (.shli h (ofRRI w))
  | 5 => .ok (.shri h (ofRRI w))
  | 6 => .ok (.srai h (ofRRI w))
  | 7 => .ok (.muli h (ofRRI w))
  | 8 => .ok (.lih h (ofRRI w))
  | _ => .error .reservedMinor

/-- Group 0x02 of the opcode map (R61). -/
def group02 (mn : Nat) (h : Hdr) (w : BitVec 80) : Except DecodeErr Instr :=
  match mn with
  | 0 => .ok (.extr h (ofRRI w))
  | 1 => .ok (.extru h (ofRRI w))
  | 2 => .ok (.ins h (ofRRI w))
  | 3 => .ok (.clz h (ofRRI w))
  | 4 => .ok (.ctz h (ofRRI w))
  | 5 => .ok (.popc h (ofRRI w))
  | 6 => .ok (.brev h (ofRRI w))
  | _ => .error .reservedMinor

/-- Group 0x03 of the opcode map (R61). -/
def group03 (mn : Nat) (h : Hdr) (w : BitVec 80) : Except DecodeErr Instr :=
  match mn with
  | 0 => .ok (.cmpEq h (ofRRR w))
  | 1 => .ok (.cmpNe h (ofRRR w))
  | 2 => .ok (.cmpLt h (ofRRR w))
  | 3 => .ok (.cmpLtu h (ofRRR w))
  | 4 => .ok (.cmpGe h (ofRRR w))
  | 5 => .ok (.cmpGeu h (ofRRR w))
  | _ => .error .reservedMinor

/-- Group 0x04 of the opcode map (R61). -/
def group04 (mn : Nat) (h : Hdr) (w : BitVec 80) : Except DecodeErr Instr :=
  match mn with
  | 0 => .ok (.cmpiEq h (ofRRI w))
  | 1 => .ok (.cmpiNe h (ofRRI w))
  | 2 => .ok (.cmpiLt h (ofRRI w))
  | 3 => .ok (.cmpiLtu h (ofRRI w))
  | 4 => .ok (.cmpiGe h (ofRRI w))
  | 5 => .ok (.cmpiGeu h (ofRRI w))
  | _ => .error .reservedMinor

/-- Group 0x05 of the opcode map (R61). -/
def group05 (mn : Nat) (h : Hdr) (w : BitVec 80) : Except DecodeErr Instr :=
  match mn with
  | 0 => .ok (.pand h (ofRRR w))
  | 1 => .ok (.por h (ofRRR w))
  | 2 => .ok (.pxor h (ofRRR w))
  | 3 => .ok (.pandn h (ofRRR w))
  | 4 => .ok (.pnot h (ofRRR w))
  | 5 => .ok (.pmov h (ofRRR w))
  | _ => .error .reservedMinor

/-- Group 0x06 of the opcode map (R61). -/
def group06 (mn : Nat) (h : Hdr) (w : BitVec 80) : Except DecodeErr Instr :=
  match mn with
  | 0 => .ok (.br h (ofBRA w))
  | 1 => .ok (.brz h (ofBRA w))
  | 2 => .ok (.brnz h (ofBRA w))
  | 3 => .ok (.call h (ofBRA w))
  | 4 => .ok (.jmpi h (ofBRA w))
  | 5 => .ok (.calli h (ofBRA w))
  | 6 => .ok (.loop h (ofBRA w))
  | 7 => .ok (.brloop h (ofBRA w))
  | _ => .error .reservedMinor

/-- Group 0x07 of the opcode map (R61). -/
def group07 (mn : Nat) (h : Hdr) (w : BitVec 80) : Except DecodeErr Instr :=
  match mn with
  | 0 => .ok (.spl h (ofRRI w))
  | 1 => .ok (.fil h (ofRRI w))
  | 2 => .ok (.crr h (ofRRI w))
  | 3 => .ok (.crw h (ofRRI w))
  | _ => .error .reservedMinor

/-- Group 0x08 of the opcode map (R61). -/
def group08 (mn : Nat) (h : Hdr) (w : BitVec 80) : Except DecodeErr Instr :=
  match mn with
  | 0 => .ok (.nop h (ofSYS w))
  | 1 => .ok (.mode h (ofSYS w))
  | 2 => .ok (.ifence h (ofSYS w))
  | 3 => .ok (.yield h (ofSYS w))
  | 4 => .ok (.exit h (ofSYS w))
  | 5 => if (ofSYS w).imm.toNat = 0 then .ok (.tret h (ofSYS w)) else .ok (.trap h (ofSYS w))
  | 6 => .ok (.brk h (ofSYS w))
  | _ => .error .reservedMinor

/-- Group 0x10 of the opcode map (R61). -/
def group10 (mn : Nat) (h : Hdr) (w : BitVec 80) : Except DecodeErr Instr :=
  match mn with
  | 0 => .ok (.vaddF32 h (ofRRR w))
  | 1 => .ok (.vsubF32 h (ofRRR w))
  | 2 => .ok (.vmulF32 h (ofRRR w))
  | 3 => .ok (.vfmaF32 h (ofRRR w))
  | 4 => .ok (.vfmsF32 h (ofRRR w))
  | 5 => .ok (.vfnmaF32 h (ofRRR w))
  | 6 => .ok (.vminF32 h (ofRRR w))
  | 7 => .ok (.vmaxF32 h (ofRRR w))
  | 8 => .ok (.vabsF32 h (ofRRR w))
  | 9 => .ok (.vnegF32 h (ofRRR w))
  | 10 => .ok (.vrcpF32 h (ofRRR w))
  | 11 => .ok (.vrsqF32 h (ofRRR w))
  | 12 => .ok (.vexp2F32 h (ofRRR w))
  | 13 => .ok (.vlog2F32 h (ofRRR w))
  | _ => .error .reservedMinor

/-- Group 0x11 of the opcode map (R61). -/
def group11 (mn : Nat) (h : Hdr) (w : BitVec 80) : Except DecodeErr Instr :=
  match mn with
  | 0 => .ok (.vaddH h (ofRRR w))
  | 1 => .ok (.vsubH h (ofRRR w))
  | 2 => .ok (.vmulH h (ofRRR w))
  | 3 => .ok (.vfmaH h (ofRRR w))
  | 4 => .ok (.vminH h (ofRRR w))
  | 5 => .ok (.vmaxH h (ofRRR w))
  | _ => .error .reservedMinor

/-- Group 0x12 of the opcode map (R61). -/
def group12 (mn : Nat) (h : Hdr) (w : BitVec 80) : Except DecodeErr Instr :=
  match mn with
  | 0 => .ok (.vaddI32 h (ofRRR w))
  | 1 => .ok (.vsubI32 h (ofRRR w))
  | 2 => .ok (.vmulI32 h (ofRRR w))
  | 3 => .ok (.vand h (ofRRR w))
  | 4 => .ok (.vor h (ofRRR w))
  | 5 => .ok (.vxor h (ofRRR w))
  | 6 => .ok (.vshl h (ofRRR w))
  | 7 => .ok (.vshr h (ofRRR w))
  | 8 => .ok (.vsra h (ofRRR w))
  | 9 => .ok (.vaddss h (ofRRR w))
  | 10 => .ok (.vsubss h (ofRRR w))
  | 11 => .ok (.vaddus h (ofRRR w))
  | 12 => .ok (.vsubus h (ofRRR w))
  | 13 => .ok (.vminI32 h (ofRRR w))
  | 14 => .ok (.vmaxI32 h (ofRRR w))
  | _ => .error .reservedMinor

/-- Group 0x13 of the opcode map (R61). -/
def group13 (mn : Nat) (h : Hdr) (w : BitVec 80) : Except DecodeErr Instr :=
  match mn with
  | 0 => .ok (.vcmpF32 h (ofRRR w))
  | 1 => .ok (.vcmpI32 h (ofRRR w))
  | 2 => .ok (.vcmpuI32 h (ofRRR w))
  | 3 => .ok (.mand h (ofRRR w))
  | 4 => .ok (.mor h (ofRRR w))
  | 5 => .ok (.mxor h (ofRRR w))
  | 6 => .ok (.mnot h (ofRRR w))
  | 7 => .ok (.mandn h (ofRRR w))
  | 8 => .ok (.mpop h (ofRRR w))
  | 9 => .ok (.mmov h (ofRRR w))
  | _ => .error .reservedMinor

/-- Group 0x14 of the opcode map (R61). -/
def group14 (mn : Nat) (h : Hdr) (w : BitVec 80) : Except DecodeErr Instr :=
  match mn with
  | 0 => .ok (.vcvtNf h (ofRRR w))
  | 1 => .ok (.vcvtFn h (ofRRR w))
  | 2 => .ok (.vcvtF32I32 h (ofRRR w))
  | 3 => .ok (.vcvtI32F32 h (ofRRR w))
  | 4 => .ok (.vcvtHF32 h (ofRRR w))
  | 5 => .ok (.vcvtF32H h (ofRRR w))
  | 6 => if (ofRRR w).md.getLsbD 9 then .ok (.vpermRot h (ofRRR w)) else .ok (.vperm h (ofRRR w))
  | 7 => .ok (.vbcast h (ofRRR w))
  | 8 => .ok (.vsel h (ofRRR w))
  | 9 => .ok (.vext h (ofRRR w))
  | 10 => .ok (.vins h (ofRRR w))
  | 11 => .ok (.vredAdd h (ofRRR w))
  | 12 => .ok (.vredMin h (ofRRR w))
  | 13 => .ok (.vredMax h (ofRRR w))
  | _ => .error .reservedMinor

/-- Group 0x15 of the opcode map (R61). -/
def group15 (mn : Nat) (h : Hdr) (w : BitVec 80) : Except DecodeErr Instr :=
  match mn with
  | 0 => .ok (.vld h (ofMEM w))
  | 1 => .ok (.vlds h (ofMEMX w))
  | 2 => .ok (.vldg h (ofMEMX w))
  | 3 => .ok (.vldb h (ofMEM w))
  | 4 => .ok (.vgld h (ofMEM w))
  | 5 => .ok (.vglds h (ofMEMX w))
  | 6 => .ok (.vgldg h (ofMEMX w))
  | 7 => .ok (.mld h (ofMEM w))
  | _ => .error .reservedMinor

/-- Group 0x16 of the opcode map (R61). -/
def group16 (mn : Nat) (h : Hdr) (w : BitVec 80) : Except DecodeErr Instr :=
  match mn with
  | 0 => .ok (.vst h (ofMEM w))
  | 1 => .ok (.vsts h (ofMEMX w))
  | 2 => .ok (.vsct h (ofMEMX w))
  | 3 => .ok (.vstCnt h (ofMEM w))
  | 4 => .ok (.vstm h (ofMEMX w))
  | 5 => .ok (.vgst h (ofMEM w))
  | 6 => .ok (.vgsts h (ofMEMX w))
  | 7 => .ok (.vgsct h (ofMEMX w))
  | 8 => .ok (.mst h (ofMEM w))
  | _ => .error .reservedMinor

/-- Group 0x18 of the opcode map (R61, R141). -/
def group18 (mn : Nat) (h : Hdr) (w : BitVec 80) : Except DecodeErr Instr :=
  match mn with
  | 0 => .ok (.mma h (ofMXC w))
  | 1 => .ok (.mmas h (ofMXC w))
  | 2 => .ok (.mzero h (ofMXC w))
  | 3 => .ok (.mdrn h (ofMXC w))
  | 4 => .ok (.mldacc h (ofMXC w))
  | 5 => .ok (.mscale h (ofMXC w))
  | 6 => .ok (.mxpose h (ofMXC w))
  | 7 => .ok (.mfmt h (ofMXC w))
  | 8 => .ok (.mwait h (ofMXC w))
  | _ => .error .reservedMinor

/-- Group 0x20 of the opcode map (R61). -/
def group20 (mn : Nat) (h : Hdr) (w : BitVec 80) : Except DecodeErr Instr :=
  match mn with
  | 0 => .ok (.ld h (ofMEM w))
  | 1 => .ok (.lds h (ofMEM w))
  | 2 => .ok (.st h (ofMEM w))
  | 3 => .ok (.ldAcq h (ofMEM w))
  | 4 => .ok (.ldsAcq h (ofMEM w))
  | 5 => .ok (.stRel h (ofMEM w))
  | _ => .error .reservedMinor

/-- Group 0x21 of the opcode map (R61). -/
def group21 (mn : Nat) (h : Hdr) (w : BitVec 80) : Except DecodeErr Instr :=
  match mn with
  | 0 => .ok (.aadd h (ofMEMX w))
  | 1 => .ok (.aand h (ofMEMX w))
  | 2 => .ok (.aor h (ofMEMX w))
  | 3 => .ok (.axor h (ofMEMX w))
  | 4 => .ok (.amin h (ofMEMX w))
  | 5 => .ok (.amax h (ofMEMX w))
  | 6 => .ok (.aminu h (ofMEMX w))
  | 7 => .ok (.amaxu h (ofMEMX w))
  | 8 => .ok (.aswp h (ofMEMX w))
  | 9 => .ok (.acas h (ofMEMX w))
  | 10 => .ok (.aaddF32 h (ofMEMX w))
  | _ => .error .reservedMinor

/-- Group 0x22 of the opcode map (R61). -/
def group22 (mn : Nat) (h : Hdr) (w : BitVec 80) : Except DecodeErr Instr :=
  match mn with
  | 0 => .ok (.fence h (ofSYS w))
  | 1 => .ok (.fenceAck h (ofSYS w))
  | 2 => .ok (.barinit h (ofSYS w))
  | 3 => if fld (ofSYS w).imm.toNat 1 0 = 1 then .ok (.barwaitNw h (ofSYS w))
    else if fld (ofSYS w).imm.toNat 1 0 = 2 then .ok (.barwaitNa h (ofSYS w)) else .ok (.barwait h (ofSYS w))
  | 4 => .ok (.barfree h (ofSYS w))
  | _ => .error .reservedMinor

/-- Group 0x23 of the opcode map (R61). -/
def group23 (mn : Nat) (h : Hdr) (w : BitVec 80) : Except DecodeErr Instr :=
  match mn with
  | 0 => .ok (.lwin h (ofSYS w))
  | 1 => .ok (.lwclose h (ofSYS w))
  | 2 => .ok (.lwwait h (ofSYS w))
  | 3 => .ok (.lwpoll h (ofSYS w))
  | _ => .error .reservedMinor

/-- Group 0x24 of the opcode map (R61). -/
def group24 (mn : Nat) (h : Hdr) (w : BitVec 80) : Except DecodeErr Instr :=
  match mn with
  | 0 => .ok (.fld h (ofMEMX w))
  | 1 => .ok (.fst h (ofMEMX w))
  | 2 => .ok (.fstOrd h (ofMEMX w))
  | 3 => .ok (.fatom h (ofMEMX w))
  | 4 => .ok (.fldx h (ofSYS w))
  | 5 => .ok (.fldxT h (ofSYS w))
  | _ => .error .reservedMinor

/-- Group 0x25 of the opcode map (R61). -/
def group25 (mn : Nat) (h : Hdr) (w : BitVec 80) : Except DecodeErr Instr :=
  match mn with
  | 0 => .ok (.gsig h (ofSYS w))
  | 1 => .ok (.gwait h (ofSYS w))
  | 2 => .ok (.gpoll h (ofSYS w))
  | _ => .error .reservedMinor

/-- Group 0x28 of the opcode map (R61). -/
def group28 (mn : Nat) (h : Hdr) (w : BitVec 80) : Except DecodeErr Instr :=
  match mn with
  | 0 => .ok (.book h (ofSYS w))
  | 1 => .ok (.bkqry h (ofSYS w))
  | 2 => .ok (.bkcan h (ofSYS w))
  | 3 => .ok (.bkrel h (ofSYS w))
  | _ => .error .reservedMinor

/-- Group 0x29 of the opcode map (R61). -/
def group29 (mn : Nat) (h : Hdr) (w : BitVec 80) : Except DecodeErr Instr :=
  match mn with
  | 0 => .ok (.cpost h (ofSYS w))
  | 1 => .ok (.coll h (ofSYS w))
  | 2 => .ok (.topb h (ofSYS w))
  | 3 => .ok (.dqpush h (ofSYS w))
  | 4 => .ok (.dqpop h (ofSYS w))
  | 5 => .ok (.dqsteal h (ofSYS w))
  | 6 => .ok (.htsset h (ofSYS w))
  | 7 => .ok (.htsdec h (ofSYS w))
  | 8 => .ok (.qmap h (ofSYS w))
  | 9 => .ok (.qunmap h (ofSYS w))
  | _ => .error .reservedMinor

/-- The opcode map (R61): the row that a major group and minor code name. -/
def rowOf (mj mn : Nat) (h : Hdr) (w : BitVec 80) : Except DecodeErr Instr :=
  match mj with
  | 0x00 => group00 mn h w
  | 0x01 => group01 mn h w
  | 0x02 => group02 mn h w
  | 0x03 => group03 mn h w
  | 0x04 => group04 mn h w
  | 0x05 => group05 mn h w
  | 0x06 => group06 mn h w
  | 0x07 => group07 mn h w
  | 0x08 => group08 mn h w
  | 0x10 => group10 mn h w
  | 0x11 => group11 mn h w
  | 0x12 => group12 mn h w
  | 0x13 => group13 mn h w
  | 0x14 => group14 mn h w
  | 0x15 => group15 mn h w
  | 0x16 => group16 mn h w
  | 0x18 => group18 mn h w
  | 0x20 => group20 mn h w
  | 0x21 => group21 mn h w
  | 0x22 => group22 mn h w
  | 0x23 => group23 mn h w
  | 0x24 => group24 mn h w
  | 0x25 => group25 mn h w
  | 0x28 => group28 mn h w
  | 0x29 => group29 mn h w
  | _ => .error .reservedGroup

/-- The number stored in ten bytes, lowest first (R5). -/
def wordOf (bs : List Byte) : BitVec 80 :=
  BitVec.ofNat 80 (bs.foldr (fun b n => b.toNat + 256 * n) 0)

/-- The ten bytes of a word, lowest first (R5). -/
def bytesOf (w : BitVec 80) : List Byte := (List.range 10).map fun k => w.extractLsb' (8 * k) 8

/-- The instruction of a word: its row, if the word passes every check of R59. -/
def word (w : BitVec 80) : Except DecodeErr Instr :=
  match rowOf (bits w 50 6).toNat (bits w 46 4).toNat (hdr w) w with
  | .error e => .error e
  | .ok i =>
    match illegal i with
    | some e => .error e
    | none => .ok i

/-- The instruction at the front of a list of bytes, and the bytes after it. -/
def bytes (bs : List Byte) : Except DecodeErr (Instr × List Byte) :=
  if bs.length < 10 then .error .truncated
  else
    match word (wordOf (bs.take 10)) with
    | .error e => .error e
    | .ok i => .ok (i, bs.drop 10)

/-- The fields of a word laid side by side (R41). -/
def pack (h : Hdr) (mj mn : Nat) (ops : BitVec 46) : BitVec 80 :=
  BitVec.ofNat 2 h.str.code ++ (h.tok ++ (BitVec.ofBool h.pn ++ (h.psel ++ (h.dst ++ (h.tal ++ (h.tc1 ++ (h.tc2 ++
    (BitVec.ofNat 6 mj ++ (BitVec.ofNat 4 mn ++ ops)))))))))
/-- R43. -/
def bitsRRR (o : RRR) : BitVec 46 := o.d ++ (o.a ++ (o.b ++ (o.c ++ o.md)))
/-- R43. -/
def bitsRRI (o : RRI) : BitVec 46 := o.d ++ (o.a ++ o.imm)
/-- R43. -/
def bitsMEM (o : MEM) : BitVec 46 := o.dr ++ (o.br ++ (o.cls ++ (o.scp ++ (o.sz ++ o.off))))
/-- R43. -/
def bitsMEMX (o : MEMX) : BitVec 46 := o.dr ++ (o.br ++ (o.cls ++ (o.scp ++ (o.sz ++ (o.xr ++ o.off)))))
/-- R43. -/
def bitsBRA (o : BRA) : BitVec 46 := o.a ++ (o.l ++ o.off)
/-- R43. -/
def bitsMXC (o : MXC) : BitVec 46 :=
  o.acc ++ (o.aa ++ (o.ba ++ (o.sr ++ (o.shp ++ (o.fsl ++ (o.fsi ++ (o.mr ++ o.rsv)))))))
/-- R43. -/
def bitsSYS (o : SYS) : BitVec 46 := o.a ++ (o.b ++ (o.sub ++ o.imm))

end Dec

open Dec in
/-- The word of an instruction, written from the encoding tables of R41, R43 and R61; `none` for an operation without one. -/
def encode : Instr → Option (BitVec 80)
  | .add h o => some (pack h 0x00 0 (bitsRRR o))
  | .sub h o => some (pack h 0x00 1 (bitsRRR o))
  | .and h o => some (pack h 0x00 2 (bitsRRR o))
  | .or h o => some (pack h 0x00 3 (bitsRRR o))
  | .xor h o => some (pack h 0x00 4 (bitsRRR o))
  | .shl h o => some (pack h 0x00 5 (bitsRRR o))
  | .shr h o => some (pack h 0x00 6 (bitsRRR o))
  | .sra h o => some (pack h 0x00 7 (bitsRRR o))
  | .mul h o => some (pack h 0x00 8 (bitsRRR o))
  | .mulh h o => some (pack h 0x00 9 (bitsRRR o))
  | .mulhu h o => some (pack h 0x00 10 (bitsRRR o))
  | .min h o => some (pack h 0x00 11 (bitsRRR o))
  | .max h o => some (pack h 0x00 12 (bitsRRR o))
  | .minu h o => some (pack h 0x00 13 (bitsRRR o))
  | .maxu h o => some (pack h 0x00 14 (bitsRRR o))
  | .addi h o => some (pack h 0x01 0 (bitsRRI o))
  | .andi h o => some (pack h 0x01 1 (bitsRRI o))
  | .ori h o => some (pack h 0x01 2 (bitsRRI o))
  | .xori h o => some (pack h 0x01 3 (bitsRRI o))
  | .shli h o => some (pack h 0x01 4 (bitsRRI o))
  | .shri h o => some (pack h 0x01 5 (bitsRRI o))
  | .srai h o => some (pack h 0x01 6 (bitsRRI o))
  | .muli h o => some (pack h 0x01 7 (bitsRRI o))
  | .lih h o => some (pack h 0x01 8 (bitsRRI o))
  | .extr h o => some (pack h 0x02 0 (bitsRRI o))
  | .extru h o => some (pack h 0x02 1 (bitsRRI o))
  | .ins h o => some (pack h 0x02 2 (bitsRRI o))
  | .clz h o => some (pack h 0x02 3 (bitsRRI o))
  | .ctz h o => some (pack h 0x02 4 (bitsRRI o))
  | .popc h o => some (pack h 0x02 5 (bitsRRI o))
  | .brev h o => some (pack h 0x02 6 (bitsRRI o))
  | .cmpEq h o => some (pack h 0x03 0 (bitsRRR o))
  | .cmpNe h o => some (pack h 0x03 1 (bitsRRR o))
  | .cmpLt h o => some (pack h 0x03 2 (bitsRRR o))
  | .cmpLtu h o => some (pack h 0x03 3 (bitsRRR o))
  | .cmpGe h o => some (pack h 0x03 4 (bitsRRR o))
  | .cmpGeu h o => some (pack h 0x03 5 (bitsRRR o))
  | .cmpiEq h o => some (pack h 0x04 0 (bitsRRI o))
  | .cmpiNe h o => some (pack h 0x04 1 (bitsRRI o))
  | .cmpiLt h o => some (pack h 0x04 2 (bitsRRI o))
  | .cmpiLtu h o => some (pack h 0x04 3 (bitsRRI o))
  | .cmpiGe h o => some (pack h 0x04 4 (bitsRRI o))
  | .cmpiGeu h o => some (pack h 0x04 5 (bitsRRI o))
  | .pand h o => some (pack h 0x05 0 (bitsRRR o))
  | .por h o => some (pack h 0x05 1 (bitsRRR o))
  | .pxor h o => some (pack h 0x05 2 (bitsRRR o))
  | .pandn h o => some (pack h 0x05 3 (bitsRRR o))
  | .pnot h o => some (pack h 0x05 4 (bitsRRR o))
  | .pmov h o => some (pack h 0x05 5 (bitsRRR o))
  | .br h o => some (pack h 0x06 0 (bitsBRA o))
  | .brz h o => some (pack h 0x06 1 (bitsBRA o))
  | .brnz h o => some (pack h 0x06 2 (bitsBRA o))
  | .call h o => some (pack h 0x06 3 (bitsBRA o))
  | .jmpi h o => some (pack h 0x06 4 (bitsBRA o))
  | .calli h o => some (pack h 0x06 5 (bitsBRA o))
  | .loop h o => some (pack h 0x06 6 (bitsBRA o))
  | .brloop h o => some (pack h 0x06 7 (bitsBRA o))
  | .spl h o => some (pack h 0x07 0 (bitsRRI o))
  | .fil h o => some (pack h 0x07 1 (bitsRRI o))
  | .crr h o => some (pack h 0x07 2 (bitsRRI o))
  | .crw h o => some (pack h 0x07 3 (bitsRRI o))
  | .nop h o => some (pack h 0x08 0 (bitsSYS o))
  | .mode h o => some (pack h 0x08 1 (bitsSYS o))
  | .ifence h o => some (pack h 0x08 2 (bitsSYS o))
  | .yield h o => some (pack h 0x08 3 (bitsSYS o))
  | .exit h o => some (pack h 0x08 4 (bitsSYS o))
  | .trap h o => some (pack h 0x08 5 (bitsSYS o))
  | .tret h o => some (pack h 0x08 5 (bitsSYS o))
  | .brk h o => some (pack h 0x08 6 (bitsSYS o))
  | .vaddF32 h o => some (pack h 0x10 0 (bitsRRR o))
  | .vsubF32 h o => some (pack h 0x10 1 (bitsRRR o))
  | .vmulF32 h o => some (pack h 0x10 2 (bitsRRR o))
  | .vfmaF32 h o => some (pack h 0x10 3 (bitsRRR o))
  | .vfmsF32 h o => some (pack h 0x10 4 (bitsRRR o))
  | .vfnmaF32 h o => some (pack h 0x10 5 (bitsRRR o))
  | .vminF32 h o => some (pack h 0x10 6 (bitsRRR o))
  | .vmaxF32 h o => some (pack h 0x10 7 (bitsRRR o))
  | .vabsF32 h o => some (pack h 0x10 8 (bitsRRR o))
  | .vnegF32 h o => some (pack h 0x10 9 (bitsRRR o))
  | .vrcpF32 h o => some (pack h 0x10 10 (bitsRRR o))
  | .vrsqF32 h o => some (pack h 0x10 11 (bitsRRR o))
  | .vexp2F32 h o => some (pack h 0x10 12 (bitsRRR o))
  | .vlog2F32 h o => some (pack h 0x10 13 (bitsRRR o))
  | .vaddH h o => some (pack h 0x11 0 (bitsRRR o))
  | .vsubH h o => some (pack h 0x11 1 (bitsRRR o))
  | .vmulH h o => some (pack h 0x11 2 (bitsRRR o))
  | .vfmaH h o => some (pack h 0x11 3 (bitsRRR o))
  | .vminH h o => some (pack h 0x11 4 (bitsRRR o))
  | .vmaxH h o => some (pack h 0x11 5 (bitsRRR o))
  | .vaddI32 h o => some (pack h 0x12 0 (bitsRRR o))
  | .vsubI32 h o => some (pack h 0x12 1 (bitsRRR o))
  | .vmulI32 h o => some (pack h 0x12 2 (bitsRRR o))
  | .vand h o => some (pack h 0x12 3 (bitsRRR o))
  | .vor h o => some (pack h 0x12 4 (bitsRRR o))
  | .vxor h o => some (pack h 0x12 5 (bitsRRR o))
  | .vshl h o => some (pack h 0x12 6 (bitsRRR o))
  | .vshr h o => some (pack h 0x12 7 (bitsRRR o))
  | .vsra h o => some (pack h 0x12 8 (bitsRRR o))
  | .vaddss h o => some (pack h 0x12 9 (bitsRRR o))
  | .vsubss h o => some (pack h 0x12 10 (bitsRRR o))
  | .vaddus h o => some (pack h 0x12 11 (bitsRRR o))
  | .vsubus h o => some (pack h 0x12 12 (bitsRRR o))
  | .vminI32 h o => some (pack h 0x12 13 (bitsRRR o))
  | .vmaxI32 h o => some (pack h 0x12 14 (bitsRRR o))
  | .vcmpF32 h o => some (pack h 0x13 0 (bitsRRR o))
  | .vcmpI32 h o => some (pack h 0x13 1 (bitsRRR o))
  | .vcmpuI32 h o => some (pack h 0x13 2 (bitsRRR o))
  | .mand h o => some (pack h 0x13 3 (bitsRRR o))
  | .mor h o => some (pack h 0x13 4 (bitsRRR o))
  | .mxor h o => some (pack h 0x13 5 (bitsRRR o))
  | .mnot h o => some (pack h 0x13 6 (bitsRRR o))
  | .mandn h o => some (pack h 0x13 7 (bitsRRR o))
  | .mpop h o => some (pack h 0x13 8 (bitsRRR o))
  | .mmov h o => some (pack h 0x13 9 (bitsRRR o))
  | .vcvtNf h o => some (pack h 0x14 0 (bitsRRR o))
  | .vcvtFn h o => some (pack h 0x14 1 (bitsRRR o))
  | .vcvtF32I32 h o => some (pack h 0x14 2 (bitsRRR o))
  | .vcvtI32F32 h o => some (pack h 0x14 3 (bitsRRR o))
  | .vcvtHF32 h o => some (pack h 0x14 4 (bitsRRR o))
  | .vcvtF32H h o => some (pack h 0x14 5 (bitsRRR o))
  | .vperm h o => some (pack h 0x14 6 (bitsRRR o))
  | .vpermRot h o => some (pack h 0x14 6 (bitsRRR o))
  | .vbcast h o => some (pack h 0x14 7 (bitsRRR o))
  | .vsel h o => some (pack h 0x14 8 (bitsRRR o))
  | .vext h o => some (pack h 0x14 9 (bitsRRR o))
  | .vins h o => some (pack h 0x14 10 (bitsRRR o))
  | .vredAdd h o => some (pack h 0x14 11 (bitsRRR o))
  | .vredMin h o => some (pack h 0x14 12 (bitsRRR o))
  | .vredMax h o => some (pack h 0x14 13 (bitsRRR o))
  | .vld h o => some (pack h 0x15 0 (bitsMEM o))
  | .vlds h o => some (pack h 0x15 1 (bitsMEMX o))
  | .vldg h o => some (pack h 0x15 2 (bitsMEMX o))
  | .vldb h o => some (pack h 0x15 3 (bitsMEM o))
  | .vgld h o => some (pack h 0x15 4 (bitsMEM o))
  | .vglds h o => some (pack h 0x15 5 (bitsMEMX o))
  | .vgldg h o => some (pack h 0x15 6 (bitsMEMX o))
  | .mld h o => some (pack h 0x15 7 (bitsMEM o))
  | .vst h o => some (pack h 0x16 0 (bitsMEM o))
  | .vsts h o => some (pack h 0x16 1 (bitsMEMX o))
  | .vsct h o => some (pack h 0x16 2 (bitsMEMX o))
  | .vstCnt h o => some (pack h 0x16 3 (bitsMEM o))
  | .vstm h o => some (pack h 0x16 4 (bitsMEMX o))
  | .vgst h o => some (pack h 0x16 5 (bitsMEM o))
  | .vgsts h o => some (pack h 0x16 6 (bitsMEMX o))
  | .vgsct h o => some (pack h 0x16 7 (bitsMEMX o))
  | .mst h o => some (pack h 0x16 8 (bitsMEM o))
  | .mma h o => some (pack h 0x18 0 (bitsMXC o))
  | .mmas h o => some (pack h 0x18 1 (bitsMXC o))
  | .mzero h o => some (pack h 0x18 2 (bitsMXC o))
  | .mdrn h o => some (pack h 0x18 3 (bitsMXC o))
  | .mldacc h o => some (pack h 0x18 4 (bitsMXC o))
  | .mscale h o => some (pack h 0x18 5 (bitsMXC o))
  | .mxpose h o => some (pack h 0x18 6 (bitsMXC o))
  | .mfmt h o => some (pack h 0x18 7 (bitsMXC o))
  | .mwait h o => some (pack h 0x18 8 (bitsMXC o))
  | .ld h o => some (pack h 0x20 0 (bitsMEM o))
  | .lds h o => some (pack h 0x20 1 (bitsMEM o))
  | .st h o => some (pack h 0x20 2 (bitsMEM o))
  | .ldAcq h o => some (pack h 0x20 3 (bitsMEM o))
  | .ldsAcq h o => some (pack h 0x20 4 (bitsMEM o))
  | .stRel h o => some (pack h 0x20 5 (bitsMEM o))
  | .aadd h o => some (pack h 0x21 0 (bitsMEMX o))
  | .aand h o => some (pack h 0x21 1 (bitsMEMX o))
  | .aor h o => some (pack h 0x21 2 (bitsMEMX o))
  | .axor h o => some (pack h 0x21 3 (bitsMEMX o))
  | .amin h o => some (pack h 0x21 4 (bitsMEMX o))
  | .amax h o => some (pack h 0x21 5 (bitsMEMX o))
  | .aminu h o => some (pack h 0x21 6 (bitsMEMX o))
  | .amaxu h o => some (pack h 0x21 7 (bitsMEMX o))
  | .aswp h o => some (pack h 0x21 8 (bitsMEMX o))
  | .acas h o => some (pack h 0x21 9 (bitsMEMX o))
  | .aaddF32 h o => some (pack h 0x21 10 (bitsMEMX o))
  | .fence h o => some (pack h 0x22 0 (bitsSYS o))
  | .fenceAck h o => some (pack h 0x22 1 (bitsSYS o))
  | .barinit h o => some (pack h 0x22 2 (bitsSYS o))
  | .barwait h o => some (pack h 0x22 3 (bitsSYS o))
  | .barwaitNw h o => some (pack h 0x22 3 (bitsSYS o))
  | .barwaitNa h o => some (pack h 0x22 3 (bitsSYS o))
  | .barfree h o => some (pack h 0x22 4 (bitsSYS o))
  | .lwin h o => some (pack h 0x23 0 (bitsSYS o))
  | .lwclose h o => some (pack h 0x23 1 (bitsSYS o))
  | .lwwait h o => some (pack h 0x23 2 (bitsSYS o))
  | .lwpoll h o => some (pack h 0x23 3 (bitsSYS o))
  | .fld h o => some (pack h 0x24 0 (bitsMEMX o))
  | .fst h o => some (pack h 0x24 1 (bitsMEMX o))
  | .fstOrd h o => some (pack h 0x24 2 (bitsMEMX o))
  | .fatom h o => some (pack h 0x24 3 (bitsMEMX o))
  | .fldx h o => some (pack h 0x24 4 (bitsSYS o))
  | .fldxT h o => some (pack h 0x24 5 (bitsSYS o))
  | .gsig h o => some (pack h 0x25 0 (bitsSYS o))
  | .gwait h o => some (pack h 0x25 1 (bitsSYS o))
  | .gpoll h o => some (pack h 0x25 2 (bitsSYS o))
  | .book h o => some (pack h 0x28 0 (bitsSYS o))
  | .bkqry h o => some (pack h 0x28 1 (bitsSYS o))
  | .bkcan h o => some (pack h 0x28 2 (bitsSYS o))
  | .bkrel h o => some (pack h 0x28 3 (bitsSYS o))
  | .cpost h o => some (pack h 0x29 0 (bitsSYS o))
  | .coll h o => some (pack h 0x29 1 (bitsSYS o))
  | .topb h o => some (pack h 0x29 2 (bitsSYS o))
  | .dqpush h o => some (pack h 0x29 3 (bitsSYS o))
  | .dqpop h o => some (pack h 0x29 4 (bitsSYS o))
  | .dqsteal h o => some (pack h 0x29 5 (bitsSYS o))
  | .htsset h o => some (pack h 0x29 6 (bitsSYS o))
  | .htsdec h o => some (pack h 0x29 7 (bitsSYS o))
  | .qmap h o => some (pack h 0x29 8 (bitsSYS o))
  | .qunmap h o => some (pack h 0x29 9 (bitsSYS o))
  | .matrixCommandStart _ | .matrixCommandComplete _ _ | .sdreq _ | .root _ | .shootdownComplete _ _
  | .fenceAckTimeout _ | .lwwaitTimeout _ _ | .countedWriteArrival _ | .fldTimeout _ | .fatomTimeout _
  | .fldxTimeout _ | .gateRefill _ | .heldDequePush _ | .queueNotify _ _ _ | .resultLanding _ | .storePerform _
  | .trapEntry _ | .taskEndByFault _ _ | .bookingDue _ _ | .sliceEnd _ _ _ | .forcedSave _ | .contextSave _ _
  | .contextRestore _ _ | .prefetchStart _ | .prefetchComplete _ | .leasePendingTimeout _ | .taskActivate _
  | .taskWake _ _ | .priorityAging _ _ | .autoSteal _ | .bookingDecide | .bookingRequestAging _ | .slotBoundary
  | .bookHold _ | .bookHoldReply _ | .bookReplyTimeout _ | .bookCommit _ | .bookRelease _ | .bookHoldLeaseExpiry _ _ _
  | .bookEndReport _ | .copyPacketStart _ | .copyPacketComplete _ | .collectiveStepStart _ _ | .collectiveComplete _
  | .collectiveTimeout _ | .collectiveFailureDetect _ _ | .read _ | .rdata _ | .write _ | .wrord _
  | .orderedStoreRelease _ | .orderedStoreTimeout _ | .atom _ | .arply _ | .ack _ | .nack _ | .xreq _ | .xdata _
  | .xack _ | .xflt _ | .xabt _ | .beacon _ | .beaconSend | .beaconLoss | .ldown _ | .packetForward _ | .cdata _
  | .cack _ | .cctlHeld _ | .cctlWithdraw _ | .cctlFlush _ | .cctlLate _ | .cctlNofit _ | .cctlDigestMismatch _
  | .cctlRedo _ | .cdig _ | .scrub _ | .frameRetire _ | .energyReconcile _ _ | .powerCapLimit _ | .powerCapLift
  | .thermalWarning _ | .thermalTrip _ | .coolantAlarm | .machineCheck _ | .powerOn | .d3hotEntry _
  | .functionLevelReset _ | .hostBar2Read _ _ _ | .hostBar2Write _ _ _ | .hostAtomicOp _ _ _ | .cqtail _ _ _
  | .evhead _ _ | .partCreate _ | .partDestroy _ | .granMove _ | .arbWeight _ | .imageLoad _ | .ctxStart _
  | .ctxStop _ | .ctxResume _ | .vfReset _ | .gateReq _ | .gateClose _ | .routeLoad _ | .groupLoad _ | .jobBind _
  | .migStart _ | .migStop _ | .migCommit _ | .cntRead _ | .attest _ | .dbgAttach _ | .dbgMem _ | .dbgDetach _
  | .patchLoad _ | .fjarlosSensorRead | .fjarlosPowerCapSet _ | .fjarlosFirmwareUpdate _ | .fjarlosCounterRead _ _
  | .linkFailure _ | .linkTraining _ _ | .powerLoss | .packageReset => none

/-- The stored bytes of an instruction word (R5). -/
def encodeBytes (i : Instr) : Option (List Byte) := (encode i).map Dec.bytesOf

/-- The instruction that the decoder reads from the bytes of a word whose low `nbits` bits are `w` and whose other bits are 0. -/
def decodeTableWord (nbits w : Nat) : Option Instr :=
  match Dec.bytes (Dec.bytesOf (BitVec.ofNat 80 (w % 2 ^ nbits))) with
  | .ok (i, _) => some i
  | .error _ => none

end Sys2Proof
end

