-- ==== Sys2Proof/Machine/Fetch.lean ====
section
/-!
DEFINITION. Fetching an instruction word (R56, R58) and what happens to a word that is no encoding (R59, R62).
-/
namespace Sys2Proof.Machine

/-- The virtual address of word `w` of a text (R56). -/
def wordAddr (textb w : Nat) : Nat := textb + w / 8 * 80 + w % 8 * 10

/-- What a fetch finds. -/
inductive Fetch where
  | word (w : BitVec 80) (s : State)
  | violation (va : Nat)
  | poison (va : Nat)
deriving DecidableEq, Repr

/-- The physical addresses of the ten bytes of a word, all in the text and leased for reading (R56, R210, R308). -/
def Task.wordPlaces (k : Task) (va : Nat) : Option (List Nat) :=
  if va + 10 ≤ k.textb.toNat + 80 * k.txl then (List.range 10).mapM fun i => leaseAddr k.lease (va + i) false else none

/-- A byte of text as core `n` fetches it: as it stood at the last `ifence` where a store has changed it since (R58). -/
def State.textAt (s : State) (n a : Nat) : Byte :=
  match SMap.find? (s.core n).stale a with
  | some b => BitVec.ofNat 8 b
  | none => Mem.get s.dram a
/-- Words of ten bytes that the instruction cache of 64 KiB holds (R58). -/
def icacheWords : Nat := 6553
/-- A fetched word kept by the core while its instruction cache has room (R58; assumption log 17). -/
def Core.keepWord (c : Core) (a w : Nat) : Core := if c.icache.length < icacheWords then { c with icache := SMap.set c.icache a w } else c
/-- The word at index `ip` of a task's text on core `n`: from the instruction cache and fetch buffers where they hold it, else
from memory, after which they hold it until the next `ifence` (R56, R58). -/
def State.fetch (s : State) (n : Nat) (k : Task) (ip : Nat) : Fetch :=
  let va := wordAddr k.textb.toNat ip
  match k.wordPlaces va with
  | none => .violation va
  | some ps =>
    match SMap.find? (s.core n).icache (ps.headD 0) with
    | some w => .word (BitVec.ofNat 80 w) s
    | none =>
      if ps.any fun a => s.isPoisoned ⟨none, a⟩ 1 then .poison va
      else
        let w := Dec.wordOf (ps.map (s.textAt n))
        .word w ((s.billWalk k.key).updCore n fun c => c.keepWord (ps.headD 0) w.toNat)

/-- The word belongs to group `0x06`, whose words every strand follows (R62). -/
def followed (mj : Nat) : Bool := mj == 0x06
/-- The word is a rendezvous word, in handler mode `trap` too (R62, R103, R389). -/
def meets (mj mn : Nat) (handler : Bool) : Bool :=
  (mj == 0x08 && (mn == 1 || mn == 3 || mn == 4 || (handler && mn == 5)))
  || (mj == 0x24 && mn == 0) || (mj == 0x23 && mn == 2) || (mj == 0x25 && mn == 1)

/-- A word that fails an encoding check of R59: the strand of its `STR`, and every strand at a rendezvous word, takes the
Illegal Instruction trap; another strand waits at a control-flow word and skips any other. -/
def State.illegalWord (s : State) (w : BitVec 80) : State :=
  match s.env? (Dec.hdr w) with
  | none => s.nextTurn
  | some e =>
    let mj := (Dec.bits w 50 6).toNat
    let mn := (Dec.bits w 46 4).toNat
    if !e.live || !e.windowOpen then s.nextTurn
    else if e.t = e.h.str ∨ meets mj mn e.task.handler.isSome then s.settle e false (.fault cIllegal 0)
    else if followed mj then s.nextTurn
    else s.skipWord e none

/-- A fetch that reads a poisoned unit: a precise Memory Poison fault at the word (R313). -/
def State.fetchPoison (s : State) (sl va ip : Nat) : State :=
  (s.raise (s.turn / 4) sl { cause := cPoison, faddr := va, ip := ip, strand := Strand.ofCode (s.turn % 4) }).nextCore

/-- The strands that may take up a word now: the core's task runs, and the strand waits for nothing or for a rendezvous, which a trap
about to be delivered puts off (R391). -/
def Task.ready (k : Task) (t : Strand) : Bool :=
  !k.stopped && (decide ((k.str t).wait = .none) ||
    (decide ((k.str t).wait = .arrived) && decide (k.rdv ≠ .gathering) && (k.held.isEmpty || k.handler.isSome)))

/-- The first turn at or after `from` whose strand may take up a word, with its core and task. -/
def nextReady (start : Nat) : SMap Core → Option (Nat × Nat × Task)
  | [] => none
  | (n, c) :: rest =>
    match if c.quiet || c.waits then none else c.active with
    | none => nextReady start rest
    | some sl =>
      match SMap.find? c.slots sl with
      | none => nextReady start rest
      | some k =>
        match [Strand.C, Strand.L, Strand.X, Strand.S].find? (fun t => start ≤ 4 * n + t.code && k.ready t) with
        | some t => some (4 * n + t.code, sl, k)
        | none => nextReady start rest

end Sys2Proof.Machine
end

