-- ==== Sys2Proof/Machine/Decide.lean ====
section
/-!
DEFINITION. The decisions of the central Booking Unit (R258 to R263, R277), and the two-phase exchange with the units of other
devices on both sides (R274 to R276).
-/
namespace Sys2Proof.Machine

/-! ## The queue (R259) -/

/-- Request `a` is decided before request `b` (R259). -/
def Req.before (cyc : Nat) (a b : Req) : Bool :=
  decide (b.eff cyc < a.eff cyc) ||
  (a.eff cyc == b.eff cyc &&
    (decide (a.accepted < b.accepted) ||
      (a.accepted == b.accepted && (decide (a.cluster < b.cluster) || (a.cluster == b.cluster && decide (a.seq < b.seq))))))
/-- The request at the head of the queue: the one whose search is in progress, else the first in order. -/
def State.headReq (s : State) : Option Req :=
  match s.bu.reqs.find? fun r => r.search.isSome with
  | some r => some r
  | none =>
    (s.bu.reqs.filter fun r => r.flight != 0 || decide (r.accepted < s.cyc)).foldl (fun (m : Option Req) r =>
      match m with
      | none => some r
      | some q => if r.before s.cyc q then some r else m) none
/-- A request leaves the queue: the unit has decided it in this cycle. -/
def State.dropReq (s : State) (seq : Nat) : State :=
  { s with bu := { s.bu with reqs := s.bu.reqs.filter fun r => r.seq != seq, decidedAt := s.cyc + 1, exchange := none } }
/-- The word that waits for a decision gets its result no more than 8 cycles later (R258). -/
def State.answer (s : State) (flight : Nat) (v : Word) : State :=
  { s with
    fresh := s.fresh + 1
    flights := s.flights.map fun (f : Flight) =>
      match f.op with
      | .engine d => if f.id = flight then { f with op := .scalar d v, due := max (f.issued + 15) (s.cyc + 1 + Config.extraLatency s.fresh % 8) } else f
      | _ => f }

/-! ## Outcomes of `book` and `coll` (R207, R214, R260, R277) -/

/-- The booking joins those known by their handles, replacing one with the same handle. -/
def State.putBooking (s : State) (b : Booking) : State :=
  { s with bu := { s.bu with bookings := (s.bu.bookings.filter fun c => c.handle != b.handle) ++ [b] } }
/-- Deferred requests of the context, and how many it may hold (R260, R356). -/
def State.deferRoom (s : State) (key : Nat) : Bool :=
  decide ((s.bu.bookings.filter fun b => b.st == .deferred && b.coll.isNone && ctxKey b.part b.fn == key).length < s.share key 32)
/-- The collective that a booking expands. -/
def State.collOfBooking (s : State) (b : Booking) : Option Coll := b.coll.bind fun t => s.coll? (ctxKey b.part b.fn) t
/-- The handle of a request that is not decided after all is given back, if it was the last one taken (R213). -/
def State.returnHandle (s : State) (b : Booking) : State :=
  let n := b.handle.toNat % 2 ^ 26
  if SMap.get s.bu.serials 1 b.part = (if n + 1 = 2 ^ 26 then 1 else n + 1) then { s with bu := { s.bu with serials := SMap.set s.bu.serials b.part n } } else s
/-- A placement is committed and the word answered (R263). -/
def State.decideFit (s : State) (r : Req) (b : Booking) (ps : List (Nat × Nat)) : State :=
  let s := (s.putBooking b).commit b ps
  match s.collOfBooking b with
  | some c =>
    let s := s.updColl c.key c.tag fun c => { c with handle := b.handle }
    let s := (s.announce { c with handle := b.handle } b.handle c.alg).doneIfEnded b.handle
    (s.answer r.flight (BitVec.ofNat 64 (2 ^ 58 * c.alg + b.handle.toNat))).dropReq r.seq
  | none => (s.answer r.flight (statusWord 0 b.handle.toNat)).dropReq r.seq
/-- No placement: deferred, or NOFIT (R214, R260, R342). -/
def State.decideNofit (s : State) (r : Req) (b : Booking) (defer : Bool) : State :=
  let known := s.bu.bookings.any fun c => c.handle == b.handle
  match s.collOfBooking b with
  | some c =>
    let s := (s.returnHandle b).cctlAll c 4 0 0
    let s := { s with colls := s.colls.filter fun d => !(d.key == c.key && d.tag == c.tag) }
    ((s.unitDone c.uid).answer r.flight (statusWord 1 0)).dropReq r.seq
  | none =>
    if known then s.dropReq r.seq
    else if defer && s.deferRoom (ctxKey b.part b.fn) then
      ((s.putBooking { b with st := .deferred }).answer r.flight (statusWord 2 b.handle.toNat)).dropReq r.seq
    else (((s.returnHandle b).unitDone b.uid).answer r.flight (statusWord 1 0)).dropReq r.seq
/-- The booking that a collective's coordinator asks for, with an algorithm (R342). -/
def Coll.booking (c : Coll) (r : Req) (alg : Nat) : Booking :=
  let plan := expand c.op alg c.members.length c.bytes (c.f 221 216)
  { handle := 0, part := c.part, fn := c.fn, core := c.core, st := .committed, stages := c.stages plan 0, prio := c.f 232 228,
    rls := c.f 313 256, accepted := r.accepted, cluster := r.cluster, remote := decide (1 < c.members.length), coll := some c.tag }

/-! ## The exchange of the requesting unit (R274) -/

/-- Each remote stage restricted to the starts that its device named. -/
def State.fitWithin (s : State) (key : Nat) (rs : List (Nat × Nat × Nat × Nat)) : Fit := fun used n g lo =>
  if g.rmt then
    match rs.find? fun r => r.1 == n with
    | some (_, x, f, l) => if max lo f ≤ l then some (x, max lo f) else none
    | none => none
  else s.earliestFit key used g lo
/-- The stages of a booking that an exchange places, with their numbers. -/
def remoteStages (b : Booking) (first : Nat) : List (Nat × Stage) :=
  (((List.range b.stages.length).zip b.stages).drop first).filter fun x => x.2.rmt
/-- RELEASE to the device of every remote stage from `first` on. -/
def State.releaseHolds (s : State) (b : Booking) (first : Nat) : State :=
  (remoteStages b first).foldl (fun s (n, g) => s.sendBook (ctxKey b.part b.fn) g.dev 3 { dev := (s.ctx (ctxKey b.part b.fn)).devNo, handle := b.handle, stage := n }) s
/-- The booking under exchange. -/
def State.underExchange (s : State) (r : Req) : Option Booking :=
  match r.kind with
  | .book b _ => some b
  | .replace h _ _ _ => s.bu.bookings.find? fun b => b.handle == h
  | _ => none
/-- The requests with one changed. -/
def State.updReq (s : State) (seq : Nat) (f : Req → Req) : State :=
  { s with bu := { s.bu with reqs := s.bu.reqs.map fun r => if r.seq = seq then f r else r } }
/-- The exchange ends without a placement (R274, R276, R277). -/
def State.exchangeFail (s : State) (r : Req) (x : Exchange) : State :=
  match s.underExchange r with
  | none => s.dropReq r.seq
  | some b =>
    let s := s.releaseHolds b x.first
    match r.kind with
    | .book _ defer =>
      (match s.collOfBooking b with
       | some c =>
         if c.alg = 2 ∧ c.f 202 202 = 1 then
           -- expanded again with the ring, in the same decision (R277, R343)
           let c' := { c with alg := 0 }
           let s := s.updColl c.key c.tag fun _ => c'
           let s := { (s.returnHandle b) with bu := { (s.returnHandle b).bu with exchange := none } }
           s.updReq r.seq fun q => { q with kind := .book (c'.booking r 0) false, search := some s.cyc }
         else s.decideNofit r b defer
       | none => s.decideNofit r b defer)
    | _ => (s.cancelBooking b.handle .nofit).dropReq r.seq
/-- The stages that a request places again belong to a booking that has ended meanwhile. -/
def Req.stale (r : Req) (b : Booking) : Bool :=
  match r.kind with
  | .replace _ _ _ _ => !b.live
  | _ => false
/-- The exchange with its lower bound no earlier than slot `s + 2` of the present slot (R262). -/
def State.fromNow (s : State) (x : Exchange) : Exchange := { x with lo := max x.lo (s.slot + 2) }
/-- A round begins (R274): remote stages taken as free, HOLD sent for each. -/
def State.startRound (s : State) (r : Req) (x : Exchange) : State :=
  let x := s.fromNow x
  match s.underExchange r with
  | none => s.dropReq r.seq
  | some b =>
    if r.stale b then s.dropReq r.seq
    else
    let key := ctxKey b.part b.fn
    match searchFrom (s.fitFree key) x.first (b.stages.drop x.first) x.last b.deadline (Config.horizon + 1) x.lo with
    | none => s.exchangeFail r x
    | some ps =>
      let x := { x with place := ps, replies := [], limit := s.cyc + 850 * 64 }
      let s := { s with bu := { s.bu with exchange := some x } }
      (remoteStages b x.first).foldl (fun s (n, g) =>
        let st := (ps.getD (n - x.first) (0, 0)).2
        s.sendBook key g.dev 0 { dev := (s.ctx key).devNo, handle := b.handle, stage := n, ecls := g.ecls, inst := g.inst, cap := g.cap,
                                 dur := g.dur + 1, lo := st, hi := st + 255 }) s
/-- The next round from a later bound, or the end of the exchange after the third (R274). -/
def State.nextRound (s : State) (r : Req) (x : Exchange) (lo : Nat) : State :=
  if x.round ≥ 3 then s.exchangeFail r x else s.startRound r { x with round := x.round + 1, lo := lo }
/-- Every reply of the round is there (R274). -/
def State.decideRound (s : State) (r : Req) (x : Exchange) : State :=
  let x := s.fromNow x
  match s.underExchange r with
  | none => s.dropReq r.seq
  | some b =>
    if r.stale b then (s.releaseHolds b x.first).dropReq r.seq
    else
    let key := ctxKey b.part b.fn
    let fits := searchFrom (s.fitWithin key x.replies) x.first (b.stages.drop x.first) x.last b.deadline (Config.horizon + 1) x.lo
    let inLease := decide (s.cyc + 16 * 64 ≤ x.limit)
    match (if inLease then fits else none) with
    | some ps =>
      let s := (remoteStages b x.first).foldl (fun s (n, g) =>
        s.sendBook key g.dev 2 { dev := (s.ctx key).devNo, handle := b.handle, stage := n, lo := (ps.getD (n - x.first) (0, 0)).2 }) s
      (match r.kind with
       | .book _ _ => s.decideFit r b ps
       | _ => ((s.place b.handle x.first ps).slip (s.bu.bookings.length + 1) b.handle (b.stages.length - 1)).dropReq r.seq)
    | none =>
      let s := s.releaseHolds b x.first
      let start (n : Nat) : Nat := (x.place.getD (n - x.first) (0, 0)).2
      let d := x.replies.foldl (fun (m : Int) q => max m ((q.2.2.1 : Int) - (start q.1 : Int))) (-(Config.horizon : Int))
      s.nextRound r x (((start x.first : Nat) : Int) + d).toNat
/-- The request whose exchange is in progress, with the exchange. -/
def State.exchanging (s : State) : Option (Req × Exchange) :=
  s.bu.exchange.bind fun x => (s.bu.reqs.find? fun r => r.seq == x.req).map fun r => (r, x)
/-- The context that a booking message reaches, on a port of its job or from within the part (R317, R318). -/
def State.bookArrival (s : State) (m : BookMsg) : Option (Nat × Context) :=
  (s.ctxOfJob m.job).bind fun x => match x.2.job with
    | some j => if m.inside || j.ports.testBit m.inPort.toNat then some x else none
    | none => none
/-- The bytes of a booking message that has come in are counted to its context (R381). -/
def State.heard (s : State) (key : Nat) (m : BookMsg) : State :=
  if m.inside then s else s.bill key fun c => { c with fabb := c.fabb + BitVec.ofNat 64 (64 + (bookBytes m 0).length) }
/-- A HOLD reply arrives (R274). -/
def execBookHoldReply (m : BookMsg) (s : State) : Out :=
  match s.bookArrival m with
  | none => .next s.discard
  | some (key, _) =>
  let s := s.heard key m
  match s.exchanging with
  | none => .next s
  | some (r, x) =>
    match s.underExchange r with
    | none => .next s
    | some b =>
      if b.handle ≠ m.handle ∨ ctxKey b.part b.fn ≠ key ∨ x.replies.any (fun q => q.1 == m.stage) then .next s
      else
        let local_ (n : Nat) : Nat := ((n : Int) - s.bu.beaconOff).toNat
        let x := { x with replies := x.replies ++ [(m.stage, m.inst, local_ m.lo, local_ m.hi)] }
        let s := { s with bu := { s.bu with exchange := some x } }
        .next (if x.replies.length = (remoteStages b x.first).length then s.decideRound r x else s)
/-- A reply is missing after 850 slots (R274). -/
def execBookReplyTimeout (handle : BitVec 32) (s : State) : Out :=
  match s.exchanging with
  | none => .fault .noSuchStep
  | some (r, x) =>
    if x.handle ≠ handle ∨ s.cyc < x.limit then .fault .noSuchStep
    else .next (s.nextRound r x ((x.place.headD (0, 0)).2 + 1))
/-- An exchange begins at the head of the queue (R274); without beacons it is refused (R331). -/
def State.startExchange (s : State) (r : Req) (h : BitVec 32) (first lo : Nat) (last : Option Nat) : State :=
  let x : Exchange := { handle := h, req := r.seq, first := first, last := last, round := 1, lo := lo, place := [], limit := 0 }
  if s.bu.synced then s.startRound r x else s.exchangeFail r x

/-! ## Decisions (R259) -/

/-- A booking request whose search is over (R261, R263, R274). -/
def State.decideBook (s : State) (r : Req) (b : Booking) (defer : Bool) : State :=
  let (h, s) := if b.handle = 0 then s.takeHandle b.part else (b.handle, s)
  let b := { b with handle := h }
  let s := s.updReq r.seq fun q => { q with kind := .book b defer }
  let r := { r with kind := .book b defer }
  if b.remote && b.stages.any (·.rmt) then
    let (lo, known) := s.lowerBound b
    if known then s.startExchange r h 0 lo none else s.decideNofit r b defer
  else
    match s.search b with
    | some ps => s.decideFit r b ps
    | none =>
      match s.collOfBooking b with
      | some c =>
        if c.alg = 2 ∧ c.f 202 202 = 1 then
          let c' := { c with alg := 0 }
          let s := (s.updColl c.key c.tag fun _ => c').returnHandle b
          s.updReq r.seq fun q => { q with kind := .book (c'.booking r 0) false, search := some s.cyc }
        else s.decideNofit r b defer
      | none => s.decideNofit r b defer
/-- The request at the head is decided, or its search begins (R259, R262). -/
def State.decideHead (s : State) (r : Req) : State :=
  let key := ctxKey r.part r.fn
  let now (v : Word) (s : State) : State := (s.answer r.flight v).dropReq r.seq
  match r.kind with
  | .query h n => now (s.queryAsked key h n) s
  | .cancel h =>
    let (v, s) := s.cancelAsked key h
    now v s
  | .release h n =>
    let (v, s) := s.releaseStage key h n
    now v s
  | .post p =>
    let (v, s) := s.postPacket p
    now v s
  | .replace h first lo last =>
    let s := s.updReq r.seq fun q => { q with search := some s.cyc }
    s.startExchange r h first (max lo (s.slot + 2)) (some last)
  | .coll tag =>
    match s.coll? key tag with
    | none => s.dropReq r.seq
    | some c =>
      { (s.updReq r.seq fun q => { q with kind := .book (c.booking r c.alg) false, search := some (s.cyc + Config.searchDelay s.fresh) })
        with fresh := s.fresh + 1 }
  | .book b defer =>
    match r.search with
    | none => { (s.updReq r.seq fun q => { q with search := some (s.cyc + Config.searchDelay s.fresh) }) with fresh := s.fresh + 1 }
    | some t => if s.cyc < t then s else s.decideBook r b defer
/-- Cycles from the acceptance of a word's request to its decision, at least: so many that a result which lands 15 cycles after issue (R49)
lands no more than 8 after the decision (R258; DEDUCED, assumption log 26). -/
def acceptDelay : Nat := 7
/-- The unit has something to do now: no exchange holds the head, nothing was decided in this cycle, and the head's search is over or
may begin. -/
def State.canDecide (s : State) : Option Req :=
  if s.exchanging.isSome || s.bu.decidedAt == s.cyc + 1 then none
  else s.headReq.bind fun r => match r.search with
    | none => if r.flight = 0 ∨ r.accepted + acceptDelay ≤ s.cyc then some r else none
    | some t => if t ≤ s.cyc then some r else none
/-- The central unit decides the head request (R259). -/
def execBookingDecide (s : State) : Out :=
  match s.canDecide with
  | none => .fault .noSuchStep
  | some r => .next (s.decideHead r)

/-! ## The side of the other device (R275, R276) -/

/-- The last start of the run of feasible starts that begins at `f`, none beyond `last`. -/
def State.runEnd (s : State) (key : Nat) (g : Stage) (inst : Nat) (last : Nat) : Nat → Nat → Nat
  | 0, f => f
  | fuel + 1, f => if f < last ∧ s.slotOk key g inst (f + g.dur) then s.runEnd key g inst last fuel (f + 1) else f
/-- The entries of a stage of another device's booking leave their calendars. -/
def State.removeOf (s : State) (m : BookMsg) : State :=
  { s with bu := { s.bu with cals := s.bu.cals.map fun (p : Nat × List Interval) =>
      (p.1, p.2.filter fun i => !(i.dev == m.dev + 1 && i.job == m.job && i.handle == m.handle && i.stage == m.stage)) } }
/-- The hold of the message's stage. -/
def Hold.isOf (h : Hold) (m : BookMsg) : Bool := h.job == m.job && h.dev == m.dev && h.handle == m.handle && h.stage == m.stage
/-- HOLD arrives (R275). A stage that is placed again gives up the entry that it had (R276; DEDUCED, assumption log 83). Without beacons
nothing is held (R331). -/
def execBookHold (m : BookMsg) (s : State) : Out :=
  match s.bookArrival m with
  | none => .next s.discard
  | some (key, x) =>
    let s := s.heard key m
    let here (n : Nat) : Nat := ((n : Int) - s.bu.beaconOff).toNat
    let s := ({ s with bu := { s.bu with holds := s.bu.holds.filter fun h => !h.isOf m } }).removeOf m
    let g : Stage := { ecls := m.ecls, inst := m.inst, cap := m.cap, dur := m.dur }
    let back (s : State) (inst lo hi : Nat) : State :=
      s.sendBook key m.dev 1 { dev := x.devNo, handle := m.handle, stage := m.stage, ecls := m.ecls, inst := inst, lo := lo, hi := hi }
    match (if s.bu.synced then s.earliestFit key [] g (max (here m.lo) (s.slot + 64)) else none) with
    | none => .next (back s m.inst 1 0)
    | some (inst, f) =>
      let l := s.runEnd key g inst (max (here m.hi) (f + (m.hi - m.lo))) 512 f
      let l := if f ≤ here m.hi then min l (here m.hi) else l
      let h : Hold := { job := m.job, dev := m.dev, handle := m.handle, stage := m.stage, cal := calNo m.ecls inst, cap := m.cap, dur := m.dur,
                        first := f, last := l, expires := s.cyc + 850 * 64 }
      .next (back { s with bu := { s.bu with holds := s.bu.holds ++ [h] } } inst f l)
/-- COMMIT arrives: the hold becomes one entry (R275). A device that beacons have stopped reaching cannot tell its start: it frees the hold and
reports that the stage has no place, so that the booking is NOFIT (R331; DEDUCED, assumption log 92). -/
def execBookCommit (m : BookMsg) (s : State) : Out :=
  match s.bookArrival m with
  | none => .next s.discard
  | some (key, x) =>
  let s := s.heard key m
  match s.bu.holds.find? fun h => h.isOf m && decide (s.cyc < h.expires) with
  | none => .next s
  | some h =>
    if !s.bu.synced then
      .next (State.sendBook { s with bu := { s.bu with holds := s.bu.holds.filter fun k => k != h } } key m.dev 4
        { dev := x.devNo, handle := m.handle, stage := m.stage, ecls := 15 })
    else
    let st := ((m.lo : Int) - s.bu.beaconOff).toNat
    let s := ({ s with bu := { s.bu with holds := s.bu.holds.filter fun k => k != h } }).removeOf m
    .next (s.setCal h.cal (s.cal h.cal ++
      [{ start := st, len := h.dur, cap := h.cap, handle := h.handle, dev := m.dev + 1, job := m.job, stage := h.stage }]))
/-- RELEASE arrives: a hold is freed, or the entries of a cancelled booking return (R275, R276). -/
def execBookRelease (m : BookMsg) (s : State) : Out :=
  match s.bookArrival m with
  | none => .next s.discard
  | some (key, _) =>
  let s := s.heard key m
  .next { s with bu := { s.bu with
    holds := s.bu.holds.filter fun h => !h.isOf m
    returns := s.bu.returns ++ [{ dev := m.dev + 1, job := m.job, handle := m.handle, stage := m.stage, first := s.slot + 1 }] } }
/-- A hold whose lease has ended (R275). -/
def execBookHoldLeaseExpiry (dev : Nat) (handle : BitVec 32) (stage : Nat) (s : State) : Out :=
  let lapsed (h : Hold) : Bool := h.dev == dev && h.handle == handle && h.stage == stage && decide (h.expires ≤ s.cyc)
  if s.bu.holds.any lapsed then .next { s with bu := { s.bu with holds := s.bu.holds.filter fun h => !lapsed h } }
  else .fault .noSuchStep
/-- A remote stage's new end is reported: the stages after it slip if it grew (R276); class 15 says that no continuation fits there, and the
booking ends as in R266 step 3. -/
def execBookEndReport (m : BookMsg) (s : State) : Out :=
  match s.bookArrival m with
  | none => .next s.discard
  | some (key, _) =>
  let s := s.heard key m
  match s.bu.bookings.find? fun b => b.handle == m.handle && ctxKey b.part b.fn == key with
  | none => .next s
  | some b =>
    match b.stage? m.stage with
    | none => .next s
    | some g =>
      let e := ((m.hi : Int) - s.bu.beaconOff).toNat
      if !b.live ∨ !g.rmt ∨ g.dev ≠ m.dev then .next s
      else if m.ecls = 15 then .next (s.cancelBooking m.handle .nofit)
      else
        let s := s.updStage m.handle m.stage fun g => { g with fin := e, ended := g.ended || decide (e ≤ s.slot + 1) }
        let s := if g.fin < e then s.slip (s.bu.bookings.length + 1) m.handle m.stage else s
        .next (s.doneIfEnded m.handle)

end Sys2Proof.Machine
end

