-- ==== Sys2Proof/Machine/ScalarMem.lean ====
section
/-!
DEFINITION. Groups `0x20` and `0x21`: scalar loads and stores, acquires and releases, atomics, and the accesses of the translation
control page (R166 to R173, R310).
-/
namespace Sys2Proof.Machine

/-- The effective address of a `MEM` word (R166). -/
def Env.eaMem (e : Env) (o : MEM) : Nat := effAddr (e.st.reg (o.br.toNat - 84)) o.off
/-- The effective address of a `MEMX` word (R166). -/
def Env.eaMemx (e : Env) (o : MEMX) : Nat := effAddr (e.st.reg (o.br.toNat - 84)) o.off

/-- The body of a scalar load (R170, R171). -/
def loadBody (sgn acq : Bool) (o : MEM) (e : Env) (s : State) : Res :=
  let ea := e.eaMem o
  let n := szBytes o.sz
  let lat := scalarLat ea n
  if e.h.dst.toNat < lat then .fault cDistance 0
  else
    match s.scalarAddr e ea n false with
    | .misaligned a => .fault cAlignment a
    | .range a => .fault cRange a
    | .violation a => .violation a
    | .control off =>
      if e.t = .C ∧ n = 8 ∧ !sgn ∧ (off = 0 ∨ off = 8 ∨ off = 16 ∨ off = 24) then
        .fly (if acq then s.clamp e o.scp.toNat else s)
          { lat := 15, op := .ctlLoad o.dr.toNat off, acc := true, cls := o.cls.toNat, acq := acq }
      else .fault cRange ea
    | .ok ps =>
      if lat = 6 then
        if s.mustWait e o.cls.toNat ps || s.pathsBusy e ps then .stall
        else
          match s.firstPoison ps with
          | some p => .fault cPoison p.name
          | none =>
            .fly (if acq then s.clamp e o.scp.toNat else s)
              { lat := 6, op := .scalar o.dr.toNat (extend (s.gather ps) n sgn), acq := acq }
      else if s.pathsBusy e ps then .stall
      else
        .fly (if acq then s.clamp e o.scp.toNat else s)
          { lat := 15, op := .load o.dr.toNat ps n sgn, acc := true, cls := o.cls.toNat, acq := acq }
/-- A scalar load (R170). -/
def loadOp (sgn acq : Bool) (h : Hdr) (o : MEM) (s : State) : Out :=
  issue h 6 { push := pushTarget o.dr.toNat } (loadBody sgn acq o) s
/-- `ld` (R170). -/
def execLd (h : Hdr) (o : MEM) (s : State) : Out := loadOp false false h o s
/-- `lds` (R170). -/
def execLds (h : Hdr) (o : MEM) (s : State) : Out := loadOp true false h o s
/-- `ld.acq` (R171). -/
def execLdAcq (h : Hdr) (o : MEM) (s : State) : Out := loadOp false true h o s
/-- `lds.acq` (R171). -/
def execLdsAcq (h : Hdr) (o : MEM) (s : State) : Out := loadOp true true h o s

/-- The body of a scalar store (R170, R171): the source is read two cycles after issue (R137). -/
def storeBody (rel : Bool) (o : MEM) (e : Env) (s : State) : Res :=
  let ea := e.eaMem o
  match s.scalarAddr e ea (szBytes o.sz) true with
  | .misaligned a => .fault cAlignment a
  | .range a => .fault cRange a
  | .violation a => .violation a
  | .control _ => .fault cRange ea
  | .ok ps =>
    match s.hitsBarrier ps with
    | some p => .fault cBarrierWrite p.name
    | none =>
      if s.pathsBusy e ps then .stall
      else .fly (if rel then s.clamp e o.scp.toNat else s)
        { lat := 2, op := if isPop o.dr then .storeVal (scatter ps e.qi.toNat) else .storeSrc o.dr.toNat ps,
          acc := true, cls := o.cls.toNat, rel := rel, own := nearScratch ea (szBytes o.sz) }
/-- A scalar store (R170). -/
def storeOp (rel : Bool) (h : Hdr) (o : MEM) (s : State) : Out := issue h 2 { pop := isPop o.dr } (storeBody rel o) s
/-- `st` (R170). -/
def execSt (h : Hdr) (o : MEM) (s : State) : Out := storeOp false h o s
/-- `st.rel` (R171). -/
def execStRel (h : Hdr) (o : MEM) (s : State) : Out := storeOp true h o s

/-- The new value of an atomic on `n` bytes, and its flags (R172). -/
def atomicNew (mn n old x cmp : Nat) : Nat × BitVec 3 :=
  let w := 8 * n
  if mn = 0 then ((old + x) % 2 ^ w, 0)
  else if mn = 1 then (old &&& x, 0)
  else if mn = 2 then (old ||| x, 0)
  else if mn = 3 then (old ^^^ x, 0)
  else if mn = 4 then (if sextI old w < sextI x w then old else x, 0)
  else if mn = 5 then (if sextI old w > sextI x w then old else x, 0)
  else if mn = 6 then (if old < x then old else x, 0)
  else if mn = 7 then (if old > x then old else x, 0)
  else if mn = 8 then (x, 0)
  else if mn = 9 then (if old = cmp then x else old, 0)
  else fpSum fp32 0 old x false
/-- Whether an atomic writes (R172). -/
def atomicWrites (mn old cmp : Nat) : Bool := mn != 9 || old == cmp

/-- The body of an atomic (R172, R310). -/
def atomicBody (mn : Nat) (o : MEMX) (e : Env) (s : State) : Res :=
  let ea := e.eaMemx o
  let n := szBytes o.sz
  let x : Word := BitVec.ofNat 64 ((e.src o.xr).toNat % 2 ^ (8 * n))
  let cmp : Word := BitVec.ofNat 64 ((e.src o.dr).toNat % 2 ^ (8 * n))
  let fly (op : FOp) : Res :=
    .fly (s.clamp e o.scp.toNat) { lat := 15, op := op, acc := true, cls := o.cls.toNat, own := nearScratch ea n }
  match s.scalarAddr e ea n true with
  | .misaligned a => .fault cAlignment a
  | .range a => .fault cRange a
  | .violation a => .violation a
  | .control off =>
    if mn = 8 ∧ n = 8 ∧ off = 0 then fly (.sdreq x o.dr.toNat)
    else if mn = 8 ∧ n = 8 ∧ off = 16 then fly (.root x o.dr.toNat)
    else .fault cRange ea
  | .ok ps =>
    match s.scalarAddr e ea n false with
    | .violation a => .violation a
    | _ =>
      match s.hitsBarrier ps with
      | some p => .fault cBarrierWrite p.name
      | none =>
        match ps with
        | [] => .stall
        | p :: _ => if s.pathsBusy e ps then .stall else fly (.atomic mn p x cmp o.dr.toNat)
/-- An atomic (R172). -/
def atomicOp (mn : Nat) (h : Hdr) (o : MEMX) (s : State) : Out := issue h 15 { pop := isPop o.xr } (atomicBody mn o) s
/-- `aadd` (R172). -/
def execAadd (h : Hdr) (o : MEMX) (s : State) : Out := atomicOp 0 h o s
/-- `aand` (R172). -/
def execAand (h : Hdr) (o : MEMX) (s : State) : Out := atomicOp 1 h o s
/-- `aor` (R172). -/
def execAor (h : Hdr) (o : MEMX) (s : State) : Out := atomicOp 2 h o s
/-- `axor` (R172). -/
def execAxor (h : Hdr) (o : MEMX) (s : State) : Out := atomicOp 3 h o s
/-- `amin` (R172). -/
def execAmin (h : Hdr) (o : MEMX) (s : State) : Out := atomicOp 4 h o s
/-- `amax` (R172). -/
def execAmax (h : Hdr) (o : MEMX) (s : State) : Out := atomicOp 5 h o s
/-- `aminu` (R172). -/
def execAminu (h : Hdr) (o : MEMX) (s : State) : Out := atomicOp 6 h o s
/-- `amaxu` (R172). -/
def execAmaxu (h : Hdr) (o : MEMX) (s : State) : Out := atomicOp 7 h o s
/-- `aswp` (R172). -/
def execAswp (h : Hdr) (o : MEMX) (s : State) : Out := atomicOp 8 h o s
/-- `acas` (R172). -/
def execAcas (h : Hdr) (o : MEMX) (s : State) : Out := atomicOp 9 h o s
/-- `aadd.f32` (R172). -/
def execAaddF32 (h : Hdr) (o : MEMX) (s : State) : Out := atomicOp 10 h o s

/-- The old value of an atomic lands, and its write performs (R172, R173), unless its word has become part of a registered barrier
word (R180). -/
def State.landAtomic (s : State) (f : Flight) (mn : Nat) (p : Piece) (x cmp : Word) (spec : Nat) : State :=
  if s.inBarrier (p.loc, p.len, 0) then s.lateBarrier f p.name
  else if s.isPoisoned p.loc p.len then s.latePoison f p.name
  else
    let old := s.readLoc p.loc p.len
    let (new, fl) := atomicNew mn p.len old x.toNat cmp.toNat
    let key := match s.task? f.core f.slot with | some k => k.key | none => 0
    let s := if atomicWrites mn old cmp.toNat then s.perform key [(p.loc, p.len, new)] else s
    (s.updTask f.core f.slot fun k => k.landScalar f.strand spec (BitVec.ofNat 64 old)).finish { f with stat := f.stat ||| fl }

end Sys2Proof.Machine
end

