-- ==== Sys2Proof/Machine/Far.lean ====
section
/-!
DEFINITION. Group `0x24` and the fabric packets that serve it: far loads, stores and atomics at both ends (R190 to R193, R247,
R325 to R330), and third-party reads at the requester, the owner and the recipient (R194 to R198, R332 to R334).
-/
namespace Sys2Proof.Machine

/-! ## Far addresses (R38, R39, R190) -/

/-- `DEV` of a far address. -/
def farDev (ea : Nat) : Nat := fld ea 59 48
/-- `VA` of a far address. -/
def farVa (ea : Nat) : Nat := ea % 2 ^ 48
/-- The address is global with `F` = 1 and its `n` bytes lie below 2^48. -/
def farOk (ea n : Nat) : Bool := ea / 2 ^ 60 == 1 && decide (farVa ea + n ≤ 2 ^ 48)
/-- The Far Access checks at issue (R190, R319): the reason of the refusal, 0 where the device is not of the job. -/
def Context.farRefusal (c : Context) (dev : Nat) : Option Nat :=
  if !c.inJob dev then some 0 else if !c.reachable dev then some 9 else none
/-- A non-posted request (R327). -/
def FarReq.nonPosted (r : FarReq) : Bool := !r.isStore
/-- A third-party read. -/
def FarReq.isThird (r : FarReq) : Bool := match r.kind with
  | .third _ _ _ _ _ _ _ _ _ _ _ _ => true
  | _ => false
/-- A further non-posted request keeps the limits of R327. -/
def Context.farRoom (c : Context) (third : Bool) : Bool :=
  decide (c.far.countP FarReq.nonPosted < 4096) && (!third || decide (c.far.countP FarReq.isThird < 1024))
/-- Remote stores of a context that have issued and not left yet; the route of each is still to be chosen (R192, R320). -/
def State.unsentStores (s : State) (key : Nat) : Nat :=
  s.flights.countP fun f => (match f.op with
    | .fstSrc _ _ _ => true
    | _ => false) && (match s.task? f.core f.slot with
    | some k => k.key == key
    | none => false)
/-- A further remote store keeps the limit of R247 on every route, whichever those not sent yet will take. -/
def State.storeRoom (s : State) (key : Nat) : Bool :=
  (List.range 4).all fun r => decide (((s.ctx key).far.countP fun q => q.isStore && q.route == r) + s.unsentStores key < 2 ^ 31 - 1)
/-- A request of the context changed. -/
def State.setFar (s : State) (key : Nat) (f : List FarReq → List FarReq) : State := s.updCtx key fun c => { c with far := f c.far }
/-- A request is recorded and its packet sent; its tag (R328). -/
def State.request (s : State) (key dev cls issued : Nat) (task : Nat × Nat × Nat) (kind : FarKind) (p : Pkt) : State :=
  let tag := (s.ctx key).nextTag
  let s := s.updCtx key fun c => { c with nextTag := (c.nextTag + 1) % 2 ^ 32 }
  let (r, s) := s.send key dev { p with tag := BitVec.ofNat 32 tag, cls := BitVec.ofNat 4 cls, rqdev := BitVec.ofNat 12 (s.ctx key).devNo }
  let s := match kind, r with
    | .store _, some r =>
      s.updCtx key fun c => { c with sent := SMap.upd c.sent 0 ((16 * dev + cls) * 4 + r) fun n => (n + 1) % 2 ^ 32 }
    | _, _ => s
  s.setFar key fun l => l ++ [{ tag := tag, dev := dev, cls := cls, route := r.getD 0, issued := issued, sent := s.cyc, task := task, va := p.addr.toNat, kind := kind }]

/-! ## Words (R190 to R193) -/

/-- Bytes of a far load (R191). -/
def fldBytes (sz : BitVec 2) : Nat := [64, 256, 1024, 4096].getD sz.toNat 64
/-- `fld` (R191); like every access it waits for an acquire of its strand (R171). -/
def execFld (h : Hdr) (o : MEMX) (s : State) : Out :=
  rendezvous h 15 (fun e s => State.yieldReady e s && (s.ctx e.task.key).farRoom false && !s.mustWait e 16 [])
    (fun e s =>
      let ea := effAddr (e.sreg o.br) o.off
      let d := (e.sreg o.dr).toNat
      let n := fldBytes o.sz
      if d % 64 ≠ 0 then .trap cAlignment d 0
      else if ea % 64 ≠ 0 then .trap cAlignment ea 0
      else if !localScratch d n then .trap cRange d 0
      else if !farOk ea n then .trap cRange ea 0
      else
        match (s.ctx e.task.key).farRefusal (farDev ea) with
        | some r => .trap cFarAccess ea (r * 256)
        | none =>
          let tag := (s.ctx e.task.key).nextTag
          .park (s.request e.task.key (farDev ea) o.cls.toNat s.cyc (e.core, e.slot, e.task.ser) (.load e.core e.slot d n [])
            { ty := 0, addr := BitVec.ofNat 64 (farVa ea), sub := o.sz.setWidth 4 }) (.far tag)) s

/-- Bytes of a remote store by its source (R192): a vector register, or `2^SZ` bytes of an `a` register. -/
def fstBytes (o : MEMX) : Nat := if o.dr.toNat < 72 then 256 else szBytes o.sz
/-- The body of a remote store (R192); like every access it waits for an acquire of its strand (R171). -/
def fstBody (ord : Bool) (o : MEMX) (e : Env) (s : State) : Res :=
  let ea := e.eaMemx o
  let n := fstBytes o
  let win := o.xr.toNat ≠ 84
  let w := e.src o.xr
  let c := s.ctx e.task.key
  if ea % (if o.dr.toNat < 72 then 4 else n) ≠ 0 then .fault cAlignment ea
  else if !farOk ea n then .fault cRange ea
  else if win ∧ (farVa ea ≠ 0 ∨ fld w.toNat 63 37 ≠ 0) then .fault cRange ea
  else
    match c.farRefusal (farDev ea) with
    | some r => .trap cFarAccess ea 0 .again (r * 256)
    | none =>
      if !s.storeRoom e.task.key || s.mustWait e 16 [] then .stall
      else
        .fly s { lat := 2, cls := o.cls.toNat,
                 op := .fstSrc o.dr.toNat n
                   { ty := if ord then 3 else 2, addr := if win then w else BitVec.ofNat 64 (farVa ea), ddev := BitVec.ofNat 12 (farDev ea),
                     sub := if win then 1 else 0, cls := o.cls } }
/-- `fst` (R192). -/
def execFst (h : Hdr) (o : MEMX) (s : State) : Out := issue h 15 {} (fstBody false o) s
/-- `fst.ord` (R192). -/
def execFstOrd (h : Hdr) (o : MEMX) (s : State) : Out := issue h 15 {} (fstBody true o) s
/-- The source of a remote store has been read, and the packet leaves (R192, R247). -/
def State.sendStore (s : State) (f : Flight) (src n : Nat) (p : Pkt) : State :=
  match s.task? f.core f.slot with
  | none => s.finish f
  | some k =>
    let v := s.sourceValue f src
    let dev := p.ddev.toNat
    let count (r : Nat) : Nat := SMap.get (s.ctx k.key).sent 0 ((16 * dev + f.cls) * 4 + r)
    let ocnt := if p.ty = 3 then count 0 + 2 ^ 32 * count 1 + 2 ^ 64 * count 2 + 2 ^ 96 * count 3 else 0
    let s := s.request k.key dev f.cls f.issued (f.core, f.slot, k.ser) (.store (p.ty == 3))
      { p with payload := leBytes v n, ocnt := BitVec.ofNat 128 ocnt }
    (s.finish f).refreshFstat f.core f.slot

/-- The address of a far atomic: its offset is the low 12 bits of `OFF` (R193). -/
def Env.eaFatom (e : Env) (o : MEMX) : Nat := effAddr (e.sreg o.br) (o.off.extractLsb' 0 12)
/-- `fatom` (R171, R193): `SUB` carries the operation and `STS` the size code, since the four bits of `SUB` cannot tell apart the 21 pairs of
both (DEDUCED, assumption log 90), and the expected value of `acas` is the payload. -/
def execFatom (h : Hdr) (o : MEMX) (s : State) : Out :=
  issue h 15 { pop := isPop o.xr }
    (fun e s =>
      let ea := e.eaFatom o
      let n := szBytes o.sz
      let op := fld o.off.toNat 15 12
      let c := s.ctx e.task.key
      if ea % n ≠ 0 then .fault cAlignment ea
      else if !farOk ea n then .fault cRange ea
      else
        match c.farRefusal (farDev ea) with
        | some r => .trap cFarAccess ea 0 .again (r * 256)
        | none =>
          if !c.farRoom false || s.mustWait e 16 [] then .stall
          else
            let s := s.request e.task.key (farDev ea) o.cls.toNat s.cyc (e.core, e.slot, e.task.ser) (.atomic s.nextId)
              { ty := 4, addr := BitVec.ofNat 64 (farVa ea), opnd := e.src o.xr, sub := BitVec.ofNat 4 op,
                status := o.sz.setWidth 8, payload := if op = 9 then leBytes (e.sreg o.dr).toNat 8 else [] }
            .fly s { lat := 15, op := .fatom o.dr.toNat ea c.nextTag, cls := o.cls.toNat }) s

/-! ## The target (R325) -/

/-- The context serves far accesses: it is not stopped, resetting, destroyed or in the stop phase of a migration; a descheduled one is served (R325, R361). -/
def Context.serves (c : Context) : Bool :=
  !c.migStopped && match c.phase with
  | .running => true
  | .saving _ => true
  | .saved occ => occ == 0 || occ == 3
  | _ => false
/-- The steps in which `n` bytes at a virtual address are translated: four bytes, fewer for a shorter access, and one where the steps
would not be aligned and could cross a page. -/
def farStep (va n : Nat) : Nat := if va % min n 4 = 0 then min n 4 else 1
/-- What the ports' translation caches hold of a virtual address (R325): its translation as last read. -/
def State.portEntry (s : State) (key va : Nat) : Option (Nat × Bool × Bool × Bool) :=
  (List.find? (fun (e : (Nat × Nat) × (Nat × Bool × Bool × Bool)) => e.1 == (key, va / 65536)) s.portTlb).map fun e =>
    (e.2.1 + va % 65536, e.2.2)
/-- A cache holds a translation that the tables no longer give. -/
def State.portStale (s : State) (key va : Nat) : Bool :=
  match s.portEntry key va with
  | none => false
  | some e => match s.translate key va with
    | .ok t => t != e
    | .error _ => true
/-- The translation of a virtual address at the target of an access that begins in page `first` (R325). Until a shoot-down clears it, a stale
entry of a cache may serve the access or may have made room: which is free (assumption log 89). -/
def State.portTranslate (s : State) (key first va : Nat) : Except Nat (Nat × Bool × Bool × Bool) :=
  match s.portEntry key va with
  | some e => if s.portStale key va && Config.freeBool (s.fresh + (va / 65536 - first)) then .ok e else s.translate key va
  | none => s.translate key va
/-- The 64 KiB pages of `n` bytes. -/
def pagesOf (va n : Nat) : List Nat := (List.range ((va % 65536 + n + 65535) / 65536)).map (va / 65536 + ·)
/-- The ports' caches after an access to `n` bytes has been translated. -/
def State.portFill (s : State) (key va n : Nat) : State :=
  let ps := pagesOf va n
  let got := ps.filterMap fun p => match s.portTranslate key (va / 65536) (65536 * p) with
    | .ok e => some ((key, p), e)
    | .error _ => none
  { s with
    fresh := if ps.any fun p => s.portStale key (65536 * p) then s.fresh + ps.length else s.fresh
    portTlb := (s.portTlb.filter fun e => !(e.1.1 == key && ps.contains e.1.2)) ++ got }
/-- The places of the `n` bytes at a virtual address, in aligned steps, with the right asked for, or the reason of a refusal (R325). -/
def State.farPlaces (s : State) (key va n : Nat) (right : Bool → Bool → Bool → Bool) : Except Nat (List (Nat × Loc)) :=
  let st := farStep va n
  (List.range (n / st)).mapM fun i =>
    if controlBase ≤ va + st * i then .error 1
    else
      match s.portTranslate key (va / 65536) (va + st * i) with
      | .error r => .error r
      | .ok (pa, rd, wr, fr) => if right rd wr fr then .ok (st * i, ⟨none, pa⟩) else .error 3
/-- The bytes at places of `st` bytes each, with a mark for each 8 bytes that is poisoned (R325). -/
def State.readPlaces (s : State) (st : Nat) (ps : List (Nat × Loc)) : List Byte × Nat :=
  (ps.flatMap fun p => leBytes (s.readLoc p.2 st) st,
   ps.foldl (fun m p => if s.isPoisoned p.2 st then m ||| (1 <<< (p.1 / 8)) else m) 0)
/-- The serving of a far access has found the poison at some places, whose virtual address begins at `va` (R314). -/
def State.findPlaces (s : State) (key va st : Nat) (ps : List (Nat × Loc)) : State :=
  { s with found := s.found ++ (ps.filter fun p => s.isPoisoned p.2 st).map fun p => { key := key, name := some (va + p.1), loc := some p.2 } }
/-- A packet that carries a piece of read data: bytes `256 i ..` of the whole. -/
def dataPacket (p : Pkt) (data : List Byte × Nat) (i : Nat) : Pkt :=
  { p with payload := (data.1.drop (256 * i)).take 256, marks := data.2 / 2 ^ (32 * i) % 2 ^ 32, poff := BitVec.ofNat 10 (4 * i) }
/-- Bytes read from DRAM are counted to a context (R381). -/
def State.billRead (s : State) (key n : Nat) : State := s.bill key fun c => { c with dramr := c.dramr + BitVec.ofNat 64 n }
/-- Bytes written to DRAM are counted to a context (R381). -/
def State.billWrite (s : State) (key n : Nat) : State := s.bill key fun c => { c with dramw := c.dramw + BitVec.ofNat 64 n }
/-- READ arrives (R325, R327). -/
def execRead (p : Pkt) (s : State) : Out :=
  match s.arrival p with
  | none => .next (s.unserved p)
  | some (key, c) =>
    let s := s.served key p
    let n := [64, 256, 1024, 4096].getD p.sub.toNat 64
    let no (r : Nat) : Out := .next (s.reply key p { ty := 7, rti := p.rti, reason := BitVec.ofNat 8 r })
    if !c.serves then no 7
    else
      match s.farPlaces key p.addr.toNat n fun _ _ fr => fr with
      | .error r => no r
      | .ok ps =>
        let s := s.portFill key p.addr.toNat n
        let data := s.readPlaces (farStep p.addr.toNat n) ps
        .next ((List.range ((n + 255) / 256)).foldl (fun s i => s.reply key p (dataPacket { ty := 1 } data i))
          ((s.billRead key n).findPlaces key p.addr.toNat (farStep p.addr.toNat n) ps))
/-- A remote store performs at its target, or is refused (R325): the reason, 0 when it performed whole. -/
def State.performStore (s : State) (key : Nat) (c : Context) (p : Pkt) : Nat × State :=
  let n := p.payload.length
  let bytes (ps : List (Nat × Loc)) : List WPiece :=
    let st := farStep p.addr.toNat n
    ps.map fun q => (q.2, st, leNat ((p.payload.drop q.1).take st))
  if !c.serves then (7, s)
  else if p.sub = 1 then
    let core := fld p.addr.toNat 9 0
    let w := fld p.addr.toNat 15 10
    let off := fld p.addr.toNat 36 16
    if !c.present ∨ s.partOf core ≠ some (key / 128) then (10, s)
    else
      match SMap.find? (s.core core).windows w with
      | none => (10, s)
      | some x =>
        let ps := chunk8 ⟨some core, x.base + off⟩ p.payload
        match s.directWrite key core w (x.base + off) p.sdev.toNat p.sdev.toNat ps [] n with
        | none => (10, s)
        | some s' => (if (s.skipBarriers ps).2 then 6 else 0, s'.spoil key ps)
  else
    match s.farPlaces key p.addr.toNat n fun _ wr _ => wr with
    | .error r => (r, s)
    | .ok ps => (0, (((s.portFill key p.addr.toNat n).billWrite key n).perform key (bytes ps)).spoil key (bytes ps))
/-- The arrival count of a store's source and route rises (R247, R328). -/
def State.countArrival (s : State) (key : Nat) (p : Pkt) : State :=
  let k := ((64 * p.sdev.toNat + p.spart.toNat) * 16 + p.cls.toNat) * 4 + p.rti.toNat
  s.updCtx key fun c => { c with arrived := SMap.upd c.arrived 0 k fun n => (n + 1) % 2 ^ 32 }
/-- A store is performed or refused and answered (R327). -/
def State.answerStore (s : State) (key : Nat) (c : Context) (p : Pkt) : State :=
  let (r, s) := s.performStore key c p
  if r = 0 then s.reply key p { ty := 6, rti := p.rti } else s.reply key p { ty := 7, rti := p.rti, reason := BitVec.ofNat 8 r }
/-- WRITE arrives (R325, R328). -/
def execWrite (p : Pkt) (s : State) : Out :=
  match s.arrival p with
  | none => .next (s.unserved p)
  | some (key, c) => .next (((s.served key p).countArrival key p).answerStore key c p)
/-- WRORD arrives and is held until its counts are met (R247). -/
def execWrord (p : Pkt) (s : State) : Out :=
  match s.arrival p with
  | none => .next (s.unserved p)
  | some (key, _) => .next { (s.served key p) with heldOrd := (s.served key p).heldOrd ++ [(key, s.cyc, p)] }
/-- Every store that an ordered store follows has arrived: each count has reached the one carried, modulo 2^32 (R247). -/
def State.countsMet (s : State) (key : Nat) (p : Pkt) : Bool :=
  (List.range 4).all fun r =>
    let have_ := SMap.get (s.ctx key).arrived 0 (((64 * p.sdev.toNat + p.spart.toNat) * 16 + p.cls.toNat) * 4 + r)
    decide ((have_ + 2 ^ 32 - fld p.ocnt.toNat (32 * r + 31) (32 * r)) % 2 ^ 32 < 2 ^ 31)
/-- The ordered stores that are held for a context which is reset or destroyed are refused with reason 7 (R325, R327). -/
def State.refuseHeld (s : State) (key : Nat) : State :=
  let held := s.heldOrd.filter fun h => h.1 == key
  held.foldl (fun s (_, _, p) => (s.reply key p { ty := 7, rti := p.rti, reason := 7 }).countArrival key p)
    { s with heldOrd := s.heldOrd.filter fun h => h.1 != key }
/-- A held ordered store performs (R247). -/
def execOrderedStoreRelease (idx : Nat) (s : State) : Out :=
  match s.heldOrd[idx]? with
  | none => .fault .noSuchStep
  | some (key, _, p) =>
    if !s.countsMet key p then .fault .noSuchStep
    else
      let s := { s with heldOrd := s.heldOrd.eraseIdx idx }
      .next ((s.answerStore key (s.ctx key) p).countArrival key p)
/-- An ordered store has been held longer than the link timeout (R247). -/
def State.heldTooLong (s : State) (key arrived : Nat) : Bool := decide (arrived + (s.ctx key).linkTimeout < s.cyc)
/-- It is discarded and not acknowledged (R247). -/
def execOrderedStoreTimeout (idx : Nat) (s : State) : Out :=
  match s.heldOrd[idx]? with
  | none => .fault .noSuchStep
  | some (key, t, _) =>
    if s.heldTooLong key t then .next { s with heldOrd := s.heldOrd.eraseIdx idx } else .fault .noSuchStep
/-- ATOM arrives and is performed at the home (R173, R325); the reply's `STS` carries the poison status in bit 0 and the flags above. -/
def execAtom (p : Pkt) (s : State) : Out :=
  match s.arrival p with
  | none => .next (s.unserved p)
  | some (key, c) =>
    let s := s.served key p
    let n := 2 ^ (p.status.toNat % 4)
    let no (r : Nat) : Out := .next (s.reply key p { ty := 5, reason := BitVec.ofNat 8 r })
    if !c.serves then no 7
    else
      match s.farPlaces key p.addr.toNat n fun rd wr _ => rd && wr with
      | .error r => no r
      | .ok ps =>
        match ps with
        | [] => no 1
        | (_, l) :: _ =>
          let s := s.portFill key p.addr.toNat n
          if s.isPoisoned l n then
            .next ((s.find { key := key, name := some p.addr.toNat, loc := some l }).reply key p { ty := 5, status := 1 })
          else
            let old := s.readLoc l n
            let cmp := leNat p.payload % 2 ^ (8 * n)
            let (new, fl) := atomicNew p.sub.toNat n old (p.opnd.toNat % 2 ^ (8 * n)) cmp
            let s := if atomicWrites p.sub.toNat old cmp then ((s.billWrite key n).perform key [(l, n, new)]).spoil key [(l, n, new)] else s
            .next (s.reply key p { ty := 5, status := BitVec.ofNat 8 (2 * fl.toNat), payload := leBytes old 8 })

/-! ## The requester (R191 to R193, R326, R328, R329) -/

/-- The outstanding request with a tag, in the context of a packet's job. -/
def State.farOf (s : State) (p : Pkt) : Option (Nat × FarReq) :=
  (s.arrival p).bind fun (key, c) => (c.far.find? fun r => r.tag == p.tag.toNat).map fun r => (key, r)
/-- A request is no longer outstanding. -/
def State.closeFar (s : State) (key tag : Nat) : State := s.setFar key fun l => l.filter fun r => r.tag != tag
/-- The task that a far load parked gets a new wake condition. -/
def State.wakeFar (s : State) (key core slot tag : Nat) (w : Wake) : State :=
  State.updTask { s with nextId := s.nextId + 1 } core slot fun k =>
    if k.key = key ∧ k.st = .parked (.far tag) then { k with st := .parked w, entered := s.cyc, orderSeq := s.nextId } else k
/-- A far load fails: its destination is unchanged, and its task resumes into the Far Access fault (R191). -/
def State.failLoad (s : State) (key : Nat) (r : FarReq) (reason : Nat) : State :=
  match r.kind with
  | .load core slot _ _ _ => (s.closeFar key r.tag).wakeFar key core slot r.tag (.farFault reason (2 ^ 60 + r.dev * 2 ^ 48 + r.va))
  | _ => s
/-- The reply of a far load is whole: its bytes are written with their marks, and the task wakes (R191, R313). A context that is not
present gets them at its restore. -/
def State.finishLoad (s : State) (key : Nat) (r : FarReq) : State :=
  match r.kind with
  | .load core slot dst n got =>
    if got.foldl (fun m g => m + g.2.1.length) 0 < n ∨ !(s.ctx key).present then s
    else
      let ps : List (WPiece × Bool) := got.flatMap fun (o, bs, marks) =>
        (List.range (bs.length / 8)).map fun i =>
          ((⟨some core, dst + o + 8 * i⟩, 8, leNat ((bs.drop (8 * i)).take 8)), marks.testBit i)
      let s := (s.engineWrite key (ps.map (·.1)) ((ps.filter (·.2)).map (·.1))).1
      (s.closeFar key r.tag).wakeFar key core slot r.tag .now
  | _ => s
/-- A far load. -/
def FarReq.isLoad (r : FarReq) : Bool := match r.kind with
  | .load _ _ _ _ _ => true
  | _ => false
/-- A far atomic. -/
def FarReq.isAtomic (r : FarReq) : Bool := match r.kind with
  | .atomic _ => true
  | _ => false
/-- A request has had no reply within the link timeout, so that a reply now is discarded (R329). -/
def State.late (s : State) (key : Nat) (r : FarReq) : Bool := !r.answered && decide (r.sent + (s.ctx key).linkTimeout ≤ s.cyc)
/-- RDATA arrives (R191); one for no outstanding load, or a late one, is discarded (R329). -/
def execRdata (p : Pkt) (s : State) : Out :=
  match s.farOf p with
  | none => .next (s.unserved p)
  | some (key, r) =>
    if s.late key r then .next (s.received key p)
    else
    match r.kind with
    | .load core slot dst n got =>
      let r := { r with kind := .load core slot dst n (got ++ [(64 * p.poff.toNat, p.payload, p.marks)]) }
      let s := (s.received key p).setFar key fun l => l.map fun q => if q.tag = r.tag then r else q
      .next (s.finishLoad key r)
    | _ => .next s
/-- The number of a fabric operation in a Fabric Status event (R393). -/
def State.statusOf (s : State) (key : Nat) (r : FarReq) (reason op : Nat) : State := s.fabricStatus key r.tag reason r.dev op r.cls r.route
/-- A far atomic ends without a value: its destination is free, its tag frees (R193). -/
def State.loseAtomic (s : State) (key : Nat) (r : FarReq) (flight : Nat) : State :=
  let (n, sl, _) := r.task
  let v : Word := Config.freeValue 64 s.fresh
  let s := (s.closeFar key r.tag)
  let s := { s with
    fresh := s.fresh + 1
    flights := s.flights.map fun (f : Flight) => match f.op with
      | .fatom d _ _ => if f.id = flight then { f with op := .scalar d v, due := max s.cyc (f.issued + 15) } else f
      | _ => f }
  s.refreshFstat n sl
/-- A reply that comes while the context is not present waits for its restore (R361); its request counts as answered. -/
def State.holdReply (s : State) (key tag : Nat) (p : Pkt) : State :=
  s.updCtx key fun c => { c with
    heldReplies := c.heldReplies ++ [p]
    far := c.far.map fun r => if r.tag = tag then { r with answered := true } else r }
/-- ARPLY arrives (R193): the old value, a refusal, or the poison status. -/
def execArply (p : Pkt) (s : State) : Out :=
  match s.farOf p with
  | none => .next (s.unserved p)
  | some (key, r) =>
    if s.late key r && r.isAtomic then .next (s.received key p)
    else if !(s.ctx key).present then .next (s.holdReply key r.tag p)
    else
    let s := s.received key p
    match r.kind with
    | .atomic flight =>
      if p.reason ≠ 0 then .next ((s.loseAtomic key r flight).statusOf key r p.reason.toNat 2)
      else
        let (n, sl, _) := r.task
        let s := (s.closeFar key r.tag).refreshFstat n sl
        (match s.flights.find? fun f => f.id == flight with
         | none => .next s
         | some f =>
           match f.op with
           | .fatom d ea _ =>
             if p.status.getLsbD 0 then .next (s.latePoison f ea)
             else
               .next { s with flights := s.flights.map fun (g : Flight) => if g.id = flight then
                 { g with op := .scalar d (BitVec.ofNat 64 (leNat p.payload)), due := max s.cyc (g.issued + 15)
                          stat := BitVec.ofNat 3 (p.status.toNat / 2) } else g }
           | _ => .next s)
    | _ => .next s
/-- ACK arrives (R328); a late one changes no count (R329). -/
def execAck (p : Pkt) (s : State) : Out :=
  match s.farOf p with
  | none => .next (s.unserved p)
  | some (key, r) =>
    let (n, sl, _) := r.task
    .next (if s.late key r then s.received key p else if r.isStore then ((s.received key p).closeFar key r.tag).refreshFstat n sl else s)
/-- NACK arrives: a refused store or far load (R191, R328); a late one is discarded (R329). -/
def execNack (p : Pkt) (s : State) : Out :=
  match s.farOf p with
  | none => .next (s.unserved p)
  | some (key, r) =>
    let t := s.received key p
    let (n, sl, _) := r.task
    .next (if s.late key r then t else match r.kind with
      | .store _ => ((t.closeFar key r.tag).refreshFstat n sl).statusOf key r p.reason.toNat 1
      | .load _ _ _ _ _ => if (s.ctx key).present then t.failLoad key r p.reason.toNat else t.holdReply key r.tag p
      | _ => t)
/-- A request of a kind that has timed out (R329), with its context. -/
def State.timedOut (s : State) (ok : FarReq → Bool) : Option (Nat × FarReq) :=
  s.ctxs.findSome? fun (key, c) => (c.far.find? fun r => c.present && ok r && s.late key r).map fun r => (key, r)
/-- A far load without its reply within the link timeout (R191, R329). A load whose bytes wait for a restore has its reply. -/
def execFldTimeout (tag : Nat) (s : State) : Out :=
  match s.timedOut fun r => r.tag == tag && r.isLoad with
  | none => .fault .noSuchStep
  | some (key, r) => .next (s.failLoad key r 8)
/-- A far atomic without its reply within the link timeout (R193). -/
def execFatomTimeout (tag : Nat) (s : State) : Out :=
  match s.timedOut fun r => r.tag == tag && r.isAtomic with
  | none => .fault .noSuchStep
  | some (key, r) =>
    match r.kind with
    | .atomic flight => .next ((s.loseAtomic key r flight).statusOf key r 8 3)
    | _ => .fault .noSuchStep

/-! ## Third-party reads (R194 to R198, R333) -/

/-- Fields of a request record (R194). -/
def xLen (r : Nat) : Nat := fld r 80 64
/-- R194. -/
def xCore (r : Nat) : Nat := fld r 137 128
/-- R194. -/
def xWin (r : Nat) : Nat := fld r 143 138
/-- R194. -/
def xOff (r : Nat) : Nat := fld r 164 144
/-- The owner device of a record issued at device `own`. -/
def xOwner (own r : Nat) : Nat := if r.testBit 60 then farDev (fld r 63 0) else own
/-- The window target of a record in the layout of R192 (R322). -/
def xTarget (r : Nat) : Nat := xCore r + 2 ^ 10 * xWin r + 2 ^ 16 * xOff r
/-- The payload of an XREQ: the record, then two bytes for each member (R333; assumption log 90). -/
def xPayload (r : Nat) (members : List Nat) : List Byte := leBytes r 32 ++ members.flatMap fun m => leBytes m 2
/-- The checks of R195 and R319: the reason of a refusal, or the members. -/
def Context.thirdMembers (c : Context) (r : Nat) : Except Nat (List Nat) :=
  let mc := r.testBit 96
  let o := fld r 63 0
  let len := xLen r
  if fld r 239 237 ≠ 0 ∨ fld r 191 165 ≠ 0 ∨ fld r 127 124 ≠ 0 ∨ fld r 103 97 ≠ 0 ∨ fld r 95 81 ≠ 0 ∨ fld o 63 61 ≠ 0
      ∨ (!o.testBit 60 ∧ farDev o ≠ 0) ∨ (mc ∧ fld r 123 112 ≠ 0) ∨ (!mc ∧ fld r 111 104 ≠ 0) then .error 0
  else if len % 64 ≠ 0 ∨ len < 64 ∨ 65536 < len ∨ 1572864 < xOff r + len ∨ 2 ^ 48 < farVa o + len then .error 0
  else
    let members := if mc then SMap.get c.groups [] (fld r 111 104) else [fld r 123 112]
    if c.job.isNone ∨ members.isEmpty ∨ !c.inJob (xOwner c.devNo r) ∨ !members.all c.inJob then .error 0
    else if fld r 223 192 % 32 ≠ 0 ∨ !localScratch (fld r 223 192) 32 then .error 0
    else if !(xOwner c.devNo r :: members).all c.reachable then .error 9
    else .ok members
/-- The body of `fldx` (R195): the request is sent and `C` goes on. -/
def fldxBody (trap : Bool) (o : SYS) (e : Env) (s : State) : Res :=
  let a := e.sreg o.a
  ownChecks a 32 32 <|
    let key := e.task.key
    let c := s.ctx key
    if s.unsettled e e.core a.toNat 32 then .stall
    else
    match c.thirdMembers (s.scratchNat e.core a.toNat 32) with
    | .error n => .trap cFarAccess a.toNat 0 .again (n * 256)
    | .ok members =>
      s.withRecord e a.toNat 32 fun r =>
        if !c.farRoom true then .stall
        else
          let limit := s.cyc + (if fld r 255 244 = 0 then c.linkTimeout else 4096 * fld r 255 244)
          .done (s.request key (xOwner c.devNo r) (fld r 243 240) s.cyc (e.core, e.slot, e.task.ser)
            (.third e.core e.slot e.task.ser e.st.ip trap (BitVec.ofNat 256 r) members 0 0 0 none limit)
            { ty := 8, addr := BitVec.ofNat 64 (xTarget r), opnd := BitVec.ofNat 64 (farVa (fld r 63 0)), payload := xPayload r members }) none
/-- `fldx` (R194, R195). -/
def execFldx (h : Hdr) (o : SYS) (s : State) : Out := issue h 15 {} (fldxBody false o) s
/-- `fldx.t` (R194, R198). -/
def execFldxT (h : Hdr) (o : SYS) (s : State) : Out := issue h 15 {} (fldxBody true o) s

/-- XREQ arrives at the owner (R333 steps 2 and 3). In what it sends to a member `OPND` holds the member number in bits 7:0 and `LEN` above
(assumption log 90). -/
def execXreq (p : Pkt) (s : State) : Out :=
  match s.arrival p with
  | none => .next (s.unserved p)
  | some (key, c) =>
    let s := s.served key p
    let n := xLen p.xRecord
    let ms := (List.range p.xMembers.length).zip p.xMembers
    let base (ty k : Nat) : Pkt :=
      { ty := ty, tag := p.tag, rqdev := p.rqdev, cls := p.cls, addr := p.addr, opnd := BitVec.ofNat 64 (k + 256 * n) }
    let no (r : Nat) : Out :=
      let s := s.reply key p { ty := 11, reason := BitVec.ofNat 8 r }
      .next (ms.foldl (fun s m => s.sendOff key m.2 { base 12 m.1 with status := 1 }) s)
    if !c.serves then no 7
    else
      match s.farPlaces key p.opnd.toNat n fun _ _ fr => fr with
      | .error r => no r
      | .ok ps =>
        let st := farStep p.opnd.toNat n
        let s := s.portFill key p.opnd.toNat n
        let data := s.readPlaces st ps
        .next (ms.foldl (fun s m =>
          (List.range ((n + 255) / 256)).foldl (fun s i => s.sendOff key m.2 (dataPacket (base 9 m.1) data i)) s)
          ((s.billRead key n).findPlaces key p.opnd.toNat st ps))
/-- A delivery of the context by its tag, requester and member number. -/
def Delivery.is (d : Delivery) (p : Pkt) : Bool := d.tag == p.tag.toNat && d.rq == p.rqdev.toNat && d.mem == p.opnd.toNat % 256
/-- The delivery that a packet belongs to. -/
def Context.delivery (c : Context) (p : Pkt) : Delivery :=
  (c.deliveries.find? fun d => d.is p).getD
    { tag := p.tag.toNat, mem := p.opnd.toNat % 256, rq := p.rqdev.toNat, core := fld p.addr.toNat 9 0, win := fld p.addr.toNat 15 10
      len := p.opnd.toNat / 256 }
/-- What the member still remembers of a delivery that is over is of no use to any packet: the requester's longest `TMO` and the link timeout
have passed since (R194, R333; assumption log 91). -/
def State.forgets (s : State) (c : Context) (d : Delivery) : Bool := match d.endedAt with
  | some t => d.owed == 0 && decide (t + 4095 * 4096 + c.linkTimeout ≤ s.cyc)
  | none => false
/-- A delivery changed; those that are long over are forgotten. -/
def State.setDelivery (s : State) (key : Nat) (p : Pkt) (d : Delivery) : State :=
  s.updCtx key fun c => { c with deliveries := (c.deliveries.filter fun x => !x.is p && !s.forgets c x) ++ [d] }
/-- The outcome of a member goes to the requester: 0 Accepted, 1 Rejected, 2 Poisoned, 3 Aborted (R333 step 5). -/
def State.sendXack (s : State) (key : Nat) (p : Pkt) (st : Nat) : State :=
  s.sendOff key p.rqdev.toNat { ty := 10, tag := p.tag, rqdev := p.rqdev, cls := p.cls, opnd := BitVec.ofNat 64 (p.opnd.toNat % 256), status := BitVec.ofNat 8 st }
/-- XDATA arrives at a member (R333 steps 4 and 5). -/
def execXdata (p : Pkt) (s : State) : Out :=
  match s.arrival p with
  | none => .next (s.unserved p)
  | some (key, c) =>
    let s := s.received key p
    let d := c.delivery p
    if d.endedAt.isSome then .next s
    else
      let off := fld p.addr.toNat 36 16 + 64 * p.poff.toNat
      let open_ := c.present && decide (s.partOf d.core = some (key / 128))
      let stored : Option State :=
        if !open_ then none
        else
          match SMap.find? (s.core d.core).windows d.win with
          | none => none
          | some x =>
            let ps := chunk8 ⟨some d.core, x.base + off⟩ p.payload
            s.directWrite key d.core d.win (x.base + off) p.rqdev.toNat p.sdev.toNat ps (markedPieces ps (x.base + off) p.marks) p.payload.length
      let d := { d with got := d.got + p.payload.length, rejected := d.rejected || stored.isNone
                        poisoned := d.poisoned || (stored.isSome && p.marks != 0) }
      let s := stored.getD s
      if d.len ≤ d.got then
        .next ((s.setDelivery key p { d with endedAt := some s.cyc }).sendXack key p (if d.rejected then 1 else if d.poisoned then 2 else 0))
      else .next (s.setDelivery key p d)
/-- An abort makes a window that is not ready ready with the error (R189, R197). -/
def State.abortWindow (s : State) (core win err : Nat) : State :=
  match SMap.find? (s.core core).windows win with
  | none => s
  | some x => if x.rdy then s else s.setWindow core win { x with rdy := true, err := err }
/-- XABT arrives at a member (R196, R197, R333): a window that is not ready is made ready with the error, 1 from the owner or 3 from
the requester, whoever the window's access list admits (R415, the row of pages without `FR`). In a context that is not present the window is
made ready at the restore (R334). The member acknowledges once. -/
def execXabt (p : Pkt) (s : State) : Out :=
  match s.arrival p with
  | none => .next (s.unserved p)
  | some (key, c) =>
    let s := s.received key p
    let d := c.delivery p
    if d.aborted then .next s
    else
      let here := c.present && decide (s.partOf d.core = some (key / 128))
      let s := s.setDelivery key p
        { d with aborted := true, endedAt := some (d.endedAt.getD s.cyc), owed := if c.present then 0 else p.status.toNat }
      let s := if here then s.abortWindow d.core d.win p.status.toNat else s
      .next (if d.endedAt.isSome then s else s.sendXack key p 3)
/-- The aborts that came while the context was not present reach their windows (R334). -/
def State.applyAborts (s : State) (key : Nat) : State :=
  let owed := (s.ctx key).deliveries.filter fun d => d.owed != 0
  let s := s.updCtx key fun c => { c with deliveries := c.deliveries.map fun d => { d with owed := 0 } }
  owed.foldl (fun s d => if s.partOf d.core = some (key / 128) then s.abortWindow d.core d.win d.owed else s) s
/-- The completion record of a third-party read (R197), then in the next cycle the decrement and the fault of R198. An aborted member
shows that the owner has refused; the reason of a refusal that never arrives is a free value. -/
def State.finishThird (s : State) (key : Nat) (r : FarReq) : State :=
  match r.kind with
  | .third core slot ser ip trap rcd members ack rej poi ofc _ =>
    let n := members.length
    let all := 2 ^ n - 1
    let tom := all &&& (2 ^ 64 - 1 - ack)
    let st := if ofc.isSome || r.aborted then 1 else if tom ≠ 0 then 4 else if rej ≠ 0 then 3 else if poi ≠ 0 then 2 else 0
    let x := rcd.toNat
    let a := fld x 223 192
    let w0 := st + 2 ^ 8 * (if st = 1 then ofc.getD (Config.freeValue 8 s.fresh).toNat else 0) + 2 ^ 16 * n + 2 ^ 23
    let s := { s.closeFar key r.tag with fresh := s.fresh + 1 }
    let s := (s.engineWrite key [(⟨some core, a + 8⟩, 8, ack), (⟨some core, a + 16⟩, 8, rej), (⟨some core, a + 24⟩, 8, tom),
                                 (⟨some core, a⟩, 8, w0)]).1
    let s := ((List.range n).zip members).foldl (fun s (k, dev) =>
      if tom.testBit k then
        s.sendOff key dev { ty := 12, tag := BitVec.ofNat 32 r.tag, rqdev := BitVec.ofNat 12 (s.ctx key).devNo, cls := BitVec.ofNat 4 r.cls,
                            addr := BitVec.ofNat 64 (xTarget x), opnd := BitVec.ofNat 64 (k + 256 * xLen x), status := 3 }
      else s) s
    let fault := trap && (st == 1 || st == 3 || st == 4)
    { s with later := s.later ++
        [{ cyc := s.cyc + 1, core := core, slot := slot, ser := ser, key := key, ctr := if x.testBit 236 then some (fld x 235 224) else none
           fault := if fault then some { cause := cFarCompletion, ip := ip, info := st } else none
           detail := detailAt 128 r.tag + detailAt 160 st + detailAt 168 0xFFFF }] }
  | _ => s
/-- A third-party read changed; the record is written when every member has acknowledged (R333 step 6). When one of them was aborted
while the requester is still waiting, the owner's `XFLT` is on its way and is waited for, so that R334's one outcome is recorded. -/
def State.updThird (s : State) (key : Nat) (r : FarReq) : State :=
  let s := s.setFar key fun l => l.map fun q => if q.tag = r.tag then r else q
  match r.kind with
  | .third _ _ _ _ _ _ members ack _ _ ofc _ =>
    if ack % 2 ^ members.length = 2 ^ members.length - 1 && (ofc.isSome || !r.aborted) then s.finishThird key r else s
  | _ => s
/-- XACK arrives at the requester (R333 step 6). -/
def execXack (p : Pkt) (s : State) : Out :=
  match s.farOf p with
  | none => .next (s.unserved p)
  | some (key, r) =>
    if !(s.ctx key).present then .next (s.holdReply key r.tag p)
    else match r.kind with
    | .third c sl ser ip t rcd ms ack rej poi ofc lim =>
      let b := 2 ^ p.opnd.toNat
      .next ((s.received key p).updThird key { r with
        aborted := r.aborted || p.status == 3
        kind := .third c sl ser ip t rcd ms (ack ||| b) (if p.status = 1 then rej ||| b else rej) (if p.status = 2 then poi ||| b else poi) ofc lim })
    | _ => .next s
/-- XFLT arrives at the requester (R333). -/
def execXflt (p : Pkt) (s : State) : Out :=
  match s.farOf p with
  | none => .next (s.unserved p)
  | some (key, r) =>
    if !(s.ctx key).present then .next (s.holdReply key r.tag p)
    else match r.kind with
    | .third c sl ser ip t rcd ms ack rej poi _ lim =>
      .next ((s.received key p).updThird key { r with kind := .third c sl ser ip t rcd ms ack rej poi (some p.reason.toNat) lim })
    | _ => .next s
/-- A third-party read that is past its limit, with its context. -/
def State.thirdTimedOut (s : State) (tag : Nat) : Option (Nat × FarReq) :=
  s.ctxs.findSome? fun (key, c) => (c.far.find? fun r => c.present && r.tag == tag && (match r.kind with
    | .third _ _ _ _ _ _ _ _ _ _ _ lim => decide (lim ≤ s.cyc)
    | _ => false)).map fun r => (key, r)
/-- `TMO` passes (R197, R333). -/
def execFldxTimeout (tag : Nat) (s : State) : Out :=
  match s.thirdTimedOut tag with
  | none => .fault .noSuchStep
  | some (key, r) => .next (s.finishThird key r)
/-- What follows a completion record (R197, R198), at the beginning of a cycle. -/
def State.applyLater (s : State) : State :=
  let due := s.later.filter fun l => decide (l.cyc ≤ s.cyc)
  due.foldl (fun s l =>
    let s := match l.ctr with
      | some n => s.engineDecrement l.core l.key n
      | none => s
    match l.fault with
    | some i => s.commandFault l.core l.slot l.ser l.key i l.detail
    | none => s) { s with later := s.later.filter fun l => !decide (l.cyc ≤ s.cyc) }

end Sys2Proof.Machine
end

