-- ==== Sys2Proof/Machine/Scalar.lean ====
section
/-!
DEFINITION. Groups `0x00` to `0x05` and `0x07`: scalar arithmetic, bit fields, compares, predicate logic, the spill store and the
control registers (R89 to R95, R105, R106).
-/
namespace Sys2Proof.Machine

/-! ## Integer arithmetic (R90) -/

/-- `op D, A, B` (R89, R90). -/
def scalarOp (lat : Nat) (f : Word → Word → Word) (h : Hdr) (o : RRR) (s : State) : Out :=
  issue h lat (ports o.a o.b o.d)
    (fun e s => .fly s { lat := lat, op := .scalar o.d.toNat (f (e.src o.a) (e.src o.b)) }) s

/-- `sh = b & 63` (R90). -/
def shAmt (b : Word) : Nat := b.toNat % 64
/-- Bits 127:64 of the signed product (R90). -/
def mulHigh (a b : Word) : Word := BitVec.ofInt 64 (a.toInt * b.toInt / 2 ^ 64)
/-- Bits 127:64 of the unsigned product (R90). -/
def mulHighU (a b : Word) : Word := BitVec.ofNat 64 (a.toNat * b.toNat / 2 ^ 64)

/-- `add` (R90). -/
def execAdd (h : Hdr) (o : RRR) (s : State) : Out := scalarOp 1 (fun a b => a + b) h o s
/-- `sub` (R90). -/
def execSub (h : Hdr) (o : RRR) (s : State) : Out := scalarOp 1 (fun a b => a - b) h o s
/-- `and` (R90). -/
def execAnd (h : Hdr) (o : RRR) (s : State) : Out := scalarOp 1 (fun a b => a &&& b) h o s
/-- `or` (R90). -/
def execOr (h : Hdr) (o : RRR) (s : State) : Out := scalarOp 1 (fun a b => a ||| b) h o s
/-- `xor` (R90). -/
def execXor (h : Hdr) (o : RRR) (s : State) : Out := scalarOp 1 (fun a b => a ^^^ b) h o s
/-- `shl` (R90). -/
def execShl (h : Hdr) (o : RRR) (s : State) : Out := scalarOp 1 (fun a b => a <<< shAmt b) h o s
/-- `shr` (R90). -/
def execShr (h : Hdr) (o : RRR) (s : State) : Out := scalarOp 1 (fun a b => a >>> shAmt b) h o s
/-- `sra` (R90). -/
def execSra (h : Hdr) (o : RRR) (s : State) : Out := scalarOp 1 (fun a b => a.sshiftRight (shAmt b)) h o s
/-- `mul` (R90). -/
def execMul (h : Hdr) (o : RRR) (s : State) : Out := scalarOp 3 (fun a b => a * b) h o s
/-- `mulh` (R90). -/
def execMulh (h : Hdr) (o : RRR) (s : State) : Out := scalarOp 3 (fun a b => mulHigh a b) h o s
/-- `mulhu` (R90). -/
def execMulhu (h : Hdr) (o : RRR) (s : State) : Out := scalarOp 3 (fun a b => mulHighU a b) h o s
/-- `min` (R90). -/
def execMin (h : Hdr) (o : RRR) (s : State) : Out := scalarOp 1 (fun a b => if a.slt b then a else b) h o s
/-- `max` (R90). -/
def execMax (h : Hdr) (o : RRR) (s : State) : Out := scalarOp 1 (fun a b => if b.slt a then a else b) h o s
/-- `minu` (R90). -/
def execMinu (h : Hdr) (o : RRR) (s : State) : Out := scalarOp 1 (fun a b => if a.ult b then a else b) h o s
/-- `maxu` (R90). -/
def execMaxu (h : Hdr) (o : RRR) (s : State) : Out := scalarOp 1 (fun a b => if b.ult a then a else b) h o s

/-! ## Immediates (R91) -/

/-- `op D, A, imm` (R91). -/
def scalarImmOp (lat : Nat) (f : Word → BitVec 32 → Word) (h : Hdr) (o : RRI) (s : State) : Out :=
  issue h lat { pop := isPop o.a, push := pushTarget o.d.toNat }
    (fun e s => .fly s { lat := lat, op := .scalar o.d.toNat (f (e.src o.a) o.imm) }) s

/-- `addi` (R91). -/
def execAddi (h : Hdr) (o : RRI) (s : State) : Out := scalarImmOp 1 (fun a i => a + imm32 i) h o s
/-- `andi` (R91). -/
def execAndi (h : Hdr) (o : RRI) (s : State) : Out := scalarImmOp 1 (fun a i => a &&& imm32 i) h o s
/-- `ori` (R91). -/
def execOri (h : Hdr) (o : RRI) (s : State) : Out := scalarImmOp 1 (fun a i => a ||| imm32 i) h o s
/-- `xori` (R91). -/
def execXori (h : Hdr) (o : RRI) (s : State) : Out := scalarImmOp 1 (fun a i => a ^^^ imm32 i) h o s
/-- `shli` (R91). -/
def execShli (h : Hdr) (o : RRI) (s : State) : Out := scalarImmOp 1 (fun a i => a <<< i.toNat) h o s
/-- `shri` (R91). -/
def execShri (h : Hdr) (o : RRI) (s : State) : Out := scalarImmOp 1 (fun a i => a >>> i.toNat) h o s
/-- `srai` (R91). -/
def execSrai (h : Hdr) (o : RRI) (s : State) : Out := scalarImmOp 1 (fun a i => a.sshiftRight i.toNat) h o s
/-- `muli` (R91). -/
def execMuli (h : Hdr) (o : RRI) (s : State) : Out := scalarImmOp 3 (fun a i => a * imm32 i) h o s
/-- `lih` (R91). -/
def execLih (h : Hdr) (o : RRI) (s : State) : Out := scalarImmOp 1 (fun a i => i ++ a.extractLsb' 0 32) h o s

/-! ## Bit fields (R92) -/

/-- The `len` bits of `a` from bit `pos` (R92). -/
def bitsAt (a : Word) (pos len : Nat) : Nat := (a.toNat >>> pos) % 2 ^ len
/-- Leading zero bits (R92). -/
def clz64 (a : Word) : Nat := if a = 0 then 64 else 63 - Nat.log2 a.toNat
/-- Trailing zero bits (R92). -/
def ctz64 (a : Word) : Nat := ((List.range 64).find? fun k => a.getLsbD k).getD 64
/-- One bits (R92). -/
def popc64 (a : Word) : Nat := (List.range 64).countP fun k => a.getLsbD k
/-- Bits in the other order (R92). -/
def brev64 (a : Word) : Word :=
  BitVec.ofNat 64 ((List.range 64).foldl (fun n k => 2 * n + (if a.getLsbD k then 1 else 0)) 0)

/-- `op D, A, pos, len` and `op D, A` (R92). -/
def bitFieldOp (f : Word → RRI → Word) (h : Hdr) (o : RRI) (s : State) : Out :=
  issue h 1 { pop := isPop o.a, push := pushTarget o.d.toNat }
    (fun e s => .fly s { lat := 1, op := .scalar o.d.toNat (f (e.src o.a) o) }) s

/-- `extr` (R92). -/
def execExtr (h : Hdr) (o : RRI) (s : State) : Out :=
  bitFieldOp (fun a o => BitVec.ofInt 64 (sextI (bitsAt a (Enc.pos o) (Enc.len o)) (Enc.len o))) h o s
/-- `extru` (R92). -/
def execExtru (h : Hdr) (o : RRI) (s : State) : Out :=
  bitFieldOp (fun a o => BitVec.ofNat 64 (bitsAt a (Enc.pos o) (Enc.len o))) h o s
/-- `ins`: `D` is a source too (R92). -/
def execIns (h : Hdr) (o : RRI) (s : State) : Out :=
  issue h 1 { pop := isPop o.a }
    (fun e s =>
      let v := setFld (e.src o.d).toNat (Enc.pos o + Enc.len o - 1) (Enc.pos o) (e.src o.a).toNat
      .fly s { lat := 1, op := .scalar o.d.toNat (BitVec.ofNat 64 v) }) s
/-- `clz` (R92). -/
def execClz (h : Hdr) (o : RRI) (s : State) : Out := bitFieldOp (fun a _ => BitVec.ofNat 64 (clz64 a)) h o s
/-- `ctz` (R92). -/
def execCtz (h : Hdr) (o : RRI) (s : State) : Out := bitFieldOp (fun a _ => BitVec.ofNat 64 (ctz64 a)) h o s
/-- `popc` (R92). -/
def execPopc (h : Hdr) (o : RRI) (s : State) : Out := bitFieldOp (fun a _ => BitVec.ofNat 64 (popc64 a)) h o s
/-- `brev` (R92). -/
def execBrev (h : Hdr) (o : RRI) (s : State) : Out := bitFieldOp (fun a _ => brev64 a) h o s

/-! ## Compares and predicates (R93, R94) -/

/-- `cmp.cc pd, A, B` (R93). -/
def cmpOp (mn : Nat) (h : Hdr) (o : RRR) (s : State) : Out :=
  issue h 1 { pop := isPop o.a || isPop o.b }
    (fun e s => .fly s { lat := 1, op := .pred (Enc.PD o) (cmpCond mn (e.src o.a) (e.src o.b)) }) s
/-- `cmpi.cc pd, A, imm` (R93): `PD` is bits 45:43, the top bits of `D`. -/
def cmpiOp (mn : Nat) (h : Hdr) (o : RRI) (s : State) : Out :=
  issue h 1 { pop := isPop o.a }
    (fun e s => .fly s { lat := 1, op := .pred (fld o.d.toNat 6 4) (cmpCond mn (e.src o.a) (imm32 o.imm)) }) s

/-- `cmp.eq` (R93). -/
def execCmpEq (h : Hdr) (o : RRR) (s : State) : Out := cmpOp 0 h o s
/-- `cmp.ne` (R93). -/
def execCmpNe (h : Hdr) (o : RRR) (s : State) : Out := cmpOp 1 h o s
/-- `cmp.lt` (R93). -/
def execCmpLt (h : Hdr) (o : RRR) (s : State) : Out := cmpOp 2 h o s
/-- `cmp.ltu` (R93). -/
def execCmpLtu (h : Hdr) (o : RRR) (s : State) : Out := cmpOp 3 h o s
/-- `cmp.ge` (R93). -/
def execCmpGe (h : Hdr) (o : RRR) (s : State) : Out := cmpOp 4 h o s
/-- `cmp.geu` (R93). -/
def execCmpGeu (h : Hdr) (o : RRR) (s : State) : Out := cmpOp 5 h o s
/-- `cmpi.eq` (R93). -/
def execCmpiEq (h : Hdr) (o : RRI) (s : State) : Out := cmpiOp 0 h o s
/-- `cmpi.ne` (R93). -/
def execCmpiNe (h : Hdr) (o : RRI) (s : State) : Out := cmpiOp 1 h o s
/-- `cmpi.lt` (R93). -/
def execCmpiLt (h : Hdr) (o : RRI) (s : State) : Out := cmpiOp 2 h o s
/-- `cmpi.ltu` (R93). -/
def execCmpiLtu (h : Hdr) (o : RRI) (s : State) : Out := cmpiOp 3 h o s
/-- `cmpi.ge` (R93). -/
def execCmpiGe (h : Hdr) (o : RRI) (s : State) : Out := cmpiOp 4 h o s
/-- `cmpi.geu` (R93). -/
def execCmpiGeu (h : Hdr) (o : RRI) (s : State) : Out := cmpiOp 5 h o s

/-- A predicate-logic word (R94). -/
def predOp (f : Bool → Bool → Bool) (h : Hdr) (o : RRR) (s : State) : Out :=
  issue h 1 {} (fun e s => .fly s { lat := 1, op := .pred (Enc.PD o) (f (e.st.pred (Enc.PA o)) (e.st.pred (Enc.PB o))) }) s

/-- `pand` (R94). -/
def execPand (h : Hdr) (o : RRR) (s : State) : Out := predOp (fun a b => a && b) h o s
/-- `por` (R94). -/
def execPor (h : Hdr) (o : RRR) (s : State) : Out := predOp (fun a b => a || b) h o s
/-- `pxor` (R94). -/
def execPxor (h : Hdr) (o : RRR) (s : State) : Out := predOp (fun a b => a != b) h o s
/-- `pandn` (R94). -/
def execPandn (h : Hdr) (o : RRR) (s : State) : Out := predOp (fun a b => a && !b) h o s
/-- `pnot` (R94). -/
def execPnot (h : Hdr) (o : RRR) (s : State) : Out := predOp (fun a _ => !a) h o s
/-- `pmov` (R94). -/
def execPmov (h : Hdr) (o : RRR) (s : State) : Out := predOp (fun a _ => a) h o s

/-! ## Spill store (R105) -/

/-- The spill offset of a word (R105). -/
def spillOff (o : RRI) : Nat := fld o.imm.toNat 11 0
/-- `spl` (R105): the source is read two cycles after issue. -/
def execSpl (h : Hdr) (o : RRI) (s : State) : Out :=
  issue h 2 { pop := isPop o.a }
    (fun e s =>
      if spillOff o % 8 ≠ 0 then .fault cAlignment (spillOff o)
      else .fly s { lat := 2, op := .spill o.a.toNat e.qi (spillOff o) }) s
/-- `fil` (R105). -/
def execFil (h : Hdr) (o : RRI) (s : State) : Out :=
  issue h 1 { push := pushTarget o.d.toNat }
    (fun _ s =>
      if spillOff o % 8 ≠ 0 then .fault cAlignment (spillOff o)
      else .fly s { lat := 1, op := .fil o.d.toNat (spillOff o) }) s

/-! ## Control registers (R29 to R33, R106) -/

/-- `TASKID` of a task (R30). -/
def taskId (core slot ser : Nat) : Nat := core * 2 ^ 22 + slot * 2 ^ 20 + ser % 2 ^ 20
/-- The value that a read of control register `n` returns (R29, R30). -/
def State.creg (s : State) (e : Env) (n : Nat) : Word :=
  let k := e.task
  if n = 0x00 then BitVec.ofNat 64 s.cyc
  else if n = 0x01 then BitVec.ofNat 64 (s.cyc % 2 ^ 64 / 64)
  else if n = 0x02 then k.win.setWidth 64
  else if n = 0x03 then (if k.tagd then 1 else 0)
  else if 0x04 ≤ n ∧ n ≤ 0x07 then ((e.st.loopCtr (n - 4)).drn ++ (e.st.loopCtr (n - 4)).cnt).setWidth 64
  else if n = 0x08 then k.fmtb.setWidth 64
  else if n = 0x09 then k.fpctl.setWidth 64
  else if n = 0x0A then (k.statAt s.cyc).setWidth 64
  else if n = 0x0B then k.tvec
  else if n = 0x0C then k.textb
  else if n = 0x0D then BitVec.ofNat 64 (taskId e.core e.slot k.ser)
  else if n = 0x0E then BitVec.ofNat 64 k.part
  else if n = 0x0F then BitVec.ofNat 64 k.fn
  else if n = 0x10 then k.bhnd.setWidth 64
  else if n = 0x11 then k.fstat
  else if n = 0x12 then k.pbudget.setWidth 64
  else if n = 0x13 then (match (s.ctx k.key).job with | some j => BitVec.ofNat 64 j.dev | none => 0)
  else SMap.get k.bst 0 (n - 0x18)
/-- A write to control register `n` takes effect (R30, R31, R32). -/
def Task.setCreg (k : Task) (n : Nat) (v : Word) (cyc : Nat) : Task :=
  if n = 0x02 then { k with win := if v.setWidth 8 = 0 then 1 else v.setWidth 8 }
  else if n = 0x08 then { k with fmtb := v.setWidth 4 }
  else if n = 0x09 then { k with fpctl := v.setWidth 3 }
  else if n = 0x0A then k.writeStat (v.setWidth 3) cyc
  else if n = 0x0B then { k with tvec := v &&& 0xFFFFFFF8 }
  else if n = 0x12 then { k with pbudget := v.setWidth 16 }
  else k
/-- The control register that a word names (R106). -/
def cregNo (o : RRI) : Nat := fld o.imm.toNat 7 0
/-- `crr` (R106). -/
def execCrr (h : Hdr) (o : RRI) (s : State) : Out :=
  issue h 1 { push := pushTarget o.d.toNat }
    (fun e s => .fly s { lat := 1, op := .scalar o.d.toNat (s.creg e (cregNo o)) }) s
/-- `crw` (R106): the Privilege fault for a read-only register (R29), else a write seen from the next cycle on (R31). -/
def execCrw (h : Hdr) (o : RRI) (s : State) : Out :=
  issue h 0 { pop := isPop o.a }
    (fun e s =>
      if !Enc.cregWritable (cregNo o) then .fault cPrivilege 0
      else .fly s { lat := 1, op := .creg (cregNo o) (e.src o.a) }) s

end Sys2Proof.Machine
end

