-- ==== Sys2Proof/Machine/Land.lean ====
section
/-!
DEFINITION. What a result in flight does when its moment comes: it lands in its register, reads the source of a store, or
performs an access at its memory (R22, R49, R50, R105, R131, R137, R170, R171).
-/
namespace Sys2Proof.Machine

/-- Bytes of an access that lie in DRAM (R381). -/
def dramBytes (ps : List Piece) : Nat := (ps.filter fun p => p.loc.core.isNone).foldl (fun n p => n + p.len) 0
/-- Bytes of a write that lie in DRAM (R381). -/
def dramWritten (ps : List WPiece) : Nat := (ps.filter fun p => p.1.core.isNone).foldl (fun n p => n + p.2.1) 0
/-- The context of a flight. -/
def State.flightKey (s : State) (f : Flight) : Nat := match s.task? f.core f.slot with
  | some k => k.key
  | none => 0
/-- A task's field changed as a flight lands. -/
def State.landTask (s : State) (f : Flight) (g : Task → Task) : State := (s.updTask f.core f.slot g).finish f
/-- A register file of the core changed as a flight lands: the registers belong to the task in the active slot (R34). -/
def State.landCore (s : State) (f : Flight) (g : Core → Core) : State :=
  (if (s.core f.core).active = some f.slot then s.updCore f.core g else s).finish f
/-- The value that a spill stores: popped, or read from its register two cycles after issue (R105). -/
def State.spillValue (s : State) (f : Flight) (src : Nat) (v : Word) : Nat := if src = 116 then v.toNat else s.sourceValue f src
/-- What a fill reads: the value of the last spill to its place that came before it and has not landed, else the spill store
(R105). -/
def State.fillValue (s : State) (f : Flight) (off : Nat) : Nat :=
  let spills := s.flights.filter fun g => decide (g.id < f.id) && g.ofTask f.core f.slot && decide (g.strand = f.strand) &&
    (match g.op with
     | .spill _ _ o => o == off
     | _ => false)
  match spills.getLast? with
  | some g =>
    match g.op with
    | .spill src v _ => s.spillValue g src v
    | _ => 0
  | none =>
    match s.task? f.core f.slot with
    | some k => Mem.read (k.str f.strand).spill off 8
    | none => 0
/-- The word of the control page at an offset (R310). -/
def Context.controlWord (c : Context) (off : Nat) : Nat :=
  if off = 0 then c.sdNext else if off = 8 then c.sdDone else if off = 16 then c.root else c.cecnt
/-- A load of latency 15 reads its bytes and lands (R131, R135, R170). -/
def State.landLoad (s : State) (f : Flight) (spec : Nat) (ps : List Piece) (n : Nat) (sgn : Bool) : State :=
  match s.firstPoison ps with
  | some p => s.latePoison f p.name
  | none =>
    let s' := s.billRead (s.flightKey f) (dramBytes ps)
    (s'.landLoaded f spec n sgn (s.gather ps)).finish f
/-- A store performs (R137, R239), unless a byte of it has become part of a registered barrier word (R180). -/
def State.landStore (s : State) (f : Flight) (ps : List WPiece) : State :=
  match ps.find? s.inBarrier with
  | some p => s.lateBarrier f p.1.off
  | none => (((s.billWrite (s.flightKey f) (dramWritten ps)).perform (s.flightKey f) ps).spoil (s.flightKey f) ps).finish f
/-- A counted store performs: a word registered since its issue is skipped (R180, R187). -/
def State.landCounted (s : State) (f : Flight) (c off v : Nat) : State :=
  let ps := chunk8 ⟨some c, off⟩ (leBytes v 256)
  ((s.countedWrite (s.flightKey f) c off 256 ps []).spoil (s.flightKey f) ps).finish f
/-- A fence is over; one that asked for acknowledgements leaves `FSTAT` zero (R175, R176). -/
def State.landFence (s : State) (f : Flight) (ack : Bool) : State :=
  (if ack then s.updTask f.core f.slot fun k => { k with fstat := 0 } else s).finish f

/-- A result lands, a source is read, or an access performs that needs no source (R49, R50). `none`: the flight has no such step. -/
def State.landFlight (s : State) (f : Flight) : Option State :=
  match f.op with
  | .nop => some (s.finish f)
  | .scalar spec v => some (s.landTask f fun k => k.landScalar f.strand spec v)
  | .vector spec v lanes => some (s.landCore f fun c => c.landReg f.strand spec s.cyc fun c => c.landVector f.strand spec v lanes)
  | .mask spec v bits => some (s.landCore f fun c => c.landReg f.strand spec s.cyc fun c => c.landMask spec v bits)
  | .creg n v => some (s.landTask f fun k => k.setCreg n v s.cyc)
  | .pred n v => some (s.landTask f fun k => k.updStr f.strand fun x => x.setPred n v)
  | .load spec ps n sgn => some (s.landLoad f spec ps n sgn)
  | .badLoad _ name _ => some (s.latePoison f name)
  | .ctlLoad spec off =>
    some (s.landTask f fun k => k.landScalar f.strand spec (BitVec.ofNat 64 ((s.ctx k.key).controlWord off)))
  | .storeSrc src ps => some (s.sourceRead f (.store (scatter ps (s.sourceValue f src))))
  | .storeVal ps => some (s.sourceRead f (.store ps))
  | .store _ | .mxStore _ => none
  | .cntSrc src c off => some (s.sourceRead f (.cntStore c off (s.sourceValue f src)))
  | .cntStore _ _ _ => none
  | .spill src v off =>
    let x := s.spillValue f src v
    some (s.landTask f fun k => k.updStr f.strand fun y => { y with spill := Mem.write y.spill off 8 x })
  | .fil spec off =>
    let v := s.fillValue f off
    some (s.landTask f fun k => k.landScalar f.strand spec (BitVec.ofNat 64 v))
  | .fstSrc src n p => some (s.sendStore f src n p)
  | .atomic op p x cmp spec =>
    let n := dramBytes [p]
    let writes := atomicWrites op (s.readLoc p.loc p.len) cmp.toNat
    let s := (s.billRead (s.flightKey f) n).billWrite (s.flightKey f) (if writes then n else 0)
    some ((if writes then s.spoil (s.flightKey f) [(p.loc, p.len, 0)] else s).landAtomic f op p x cmp spec)
  | .sdreq _ _ | .root _ _ => none
  | .fence _ _ ack => some (s.landFence f ack.isSome)
  | .barArrive l nw d => some (s.landArrival f l nw d)
  | .barWait l ph a d => some (s.landWait f l ph a d)
  | .engine _ | .fatom _ _ _ | .matrix _ => none
  | .fmt n v => some (s.landTask f fun k => { k with fmt := SMap.set k.fmt n v })
  | .gsig g p d => some (s.landGsig f g p d)

/-- The flight with a number. -/
def State.flight? (s : State) (id : Nat) : Option Flight := s.flights.find? fun f => f.id == id
/-- A shoot-down of the context that is due to complete does not wait for the access longer than the order of R240 asks: it performs now
(R311, R312; assumption log 64). -/
def State.pressed (s : State) (f : Flight) : Bool :=
  f.acc && decide (f.issued + 15 ≤ s.cyc) &&
    match (s.ctx (s.flightKey f)).sds with
    | [] => false
    | d :: _ => decide (d.due ≤ s.cyc)
/-- The moment of a flight has come: its cycle, and the order of accesses (R49, R240). -/
def State.flightDue (s : State) (f : Flight) : Bool := (decide (f.due ≤ s.cyc) || s.pressed f) && s.flightReady f

/-- A word's result lands at its latency (R22, R49, R50). -/
def execResultLanding (id : Nat) (s : State) : Out :=
  match s.flight? id with
  | none => .fault .noSuchStep
  | some f =>
    if !s.flightDue f then .fault .noSuchStep
    else
      match s.landFlight f with
      | none => .fault .noSuchStep
      | some s' => .next s'
/-- A store whose source has been read performs (R137, R239). -/
def execStorePerform (id : Nat) (s : State) : Out :=
  match s.flight? id with
  | none => .fault .noSuchStep
  | some f =>
    if !s.flightDue f then .fault .noSuchStep
    else
      match f.op with
      | .store ps => .next (s.landStore f ps)
      | .cntStore c off v =>
        .next (s.landCounted f c off v)
      | .mxStore ps => .next ((s.engineWrite (s.flightKey f) ps).1.finish f)
      | _ => .fault .noSuchStep

end Sys2Proof.Machine
end

