-- ==== Sys2Proof/Machine/Tasks.lean ====
section
/-!
DEFINITION. The life of a task: leases (R306, R307), prefetch and activation (R288 to R290), walker steps (R228, R229, R295), the
words `yield`, `exit` and `brk` (R110, R111, R113), trap entry (R388), booked tasks that are due (R292), waking (R293), stealing by
idle cores (R294), and the end of a task by a fault (R392).
-/
namespace Sys2Proof.Machine

/-! ## Leases (R306, R307) -/

/-- What a walk of a lease has found: its pages, how many it needs, and the first page that is not resident with its reason. -/
structure LeaseWalk where
  pages : List LeasePage := []
  n : Nat := 0
  bad : Option (Nat × Nat) := none
deriving DecidableEq, Repr

/-- A page that is not resident. -/
def LeaseWalk.miss (w : LeaseWalk) (va reason : Nat) : LeaseWalk :=
  { w with n := w.n + 1, bad := if w.bad.isSome then w.bad else some (va, reason) }
/-- The pages of one region from `x` on, with the rights it names (R307); `fuel` bounds their number. -/
def State.walkPages (s : State) (key : Nat) (rd wr : Bool) (hi : Nat) : Nat → Nat → LeaseWalk → LeaseWalk
  | 0, _, w => w
  | fuel + 1, x, w =>
    if hi ≤ x ∨ 8192 < w.n then w
    else
      match w.pages.find? fun p => p.va ≤ x && x < p.va + p.size with
      | some p =>
        s.walkPages key rd wr hi fuel (p.va + p.size)
          (if (rd && !p.rd) || (wr && !p.wr) then
            { (w.miss p.va 3) with n := w.n, pages := w.pages.filter fun q => q.va != p.va }
           else w)
      | none =>
        match s.walk1 key x with
        | .error r => s.walkPages key rd wr hi fuel ((x / 0x10000 + 1) * 0x10000) (w.miss (x / 0x10000 * 0x10000) r)
        | .ok l =>
          let va := x / l.size * l.size
          match s.walkStage2 key l.ga with
          | .error r => s.walkPages key rd wr hi fuel (va + l.size) (w.miss va r)
          | .ok (pa, e) =>
            s.walkPages key rd wr hi fuel (va + l.size)
              (if (rd && !l.rd) || (wr && !(l.wr && e.w)) then w.miss va 3
               else { w with n := w.n + 1, pages := w.pages ++ [⟨va, l.size, pa, l.rd, l.wr && e.w⟩] })
/-- The lease of a task (R210): its global regions, and its text, readable. -/
def State.walkLease (s : State) (k : Task) : LeaseWalk :=
  let rs := (k.regions.filter fun r => r.core.isNone) ++ [⟨none, k.textb.toNat, 80 * k.txl, true, false⟩]
  rs.foldl (fun w r => s.walkPages k.key r.rd r.wr (r.lo + r.len) 16385 r.lo w) {}
/-- Entries of a cluster's lease table in use (R306). -/
def State.leaseUse (s : State) (cluster : Nat) : Nat :=
  (s.cores.filter fun c => clusterOf c.1 == cluster).foldl (fun n c => c.2.slots.foldl (fun n t => n + t.2.lease.length) n) 0
/-- Tasks whose lease holds a page of a frame: its pin count (R306). -/
def State.pins (s : State) (frame : Nat) : Nat :=
  s.cores.foldl (fun n c => c.2.slots.foldl (fun n t => n + t.2.lease.countP fun p => p.pa / Config.frameBytes == frame) n) 0
/-- `TASKID` of a task (R30). -/
def Task.idWord (k : Task) (core slot : Nat) : Nat := taskId core slot k.ser % 2 ^ 32

/-- The Lease Pending event of a task, for the page at `va` (R307); a poisoned descriptor has been found (R314). -/
def State.leasePending (s : State) (n sl : Nat) (k : Task) (va r : Nat) : State :=
  let s := if r = 5 then
      match s.badTable k.key va with
      | some pa => s.find { key := k.key, core := n, loc := some ⟨none, pa⟩ }
      | none => s
    else s
  s.event k.key cLeasePending (detailAt 128 va + detailAt 192 (k.idWord n sl) + detailAt 224 r)
/-- The prefetcher walks the lease of the task in its slot, first in cycle `start` (R288, R306, R307). -/
def State.tryLease (s : State) (n sl start : Nat) : State :=
  match s.task? n sl with
  | none => s
  | some k =>
    let w := s.walkLease k
    let s := s.billWalk k.key
    if 8192 < w.n then s.setTask n sl { k with ending := some { cause := cLease, ip := recf k.rcd 159 128 } }
    else
      match w.bad with
      | some (va, r) =>
        let told := match k.st with
          | .prefetching _ _ p => p
          | _ => false
        let s := s.setTask n sl { k with st := .prefetching 0 start true, lease := [] }
        if told then s else s.leasePending n sl k va r
      | none =>
        if 32768 < s.leaseUse (clusterOf n) - k.lease.length + w.n then s.setTask n sl { k with st := .prefetching 0 start false, lease := [] }
        else s.setTask n sl { k with st := .prefetching (max (start + 24) s.cyc) start false, lease := w.pages }
/-- The lease of a restored task is made again under the rules of a prefetch (R306, R307, R370): a lease too long ends the task; a page
that is not resident gives one event; where the table has too few entries the task waits without one. -/
def State.remakeLease (s : State) (n sl : Nat) : State :=
  match s.task? n sl with
  | none => s
  | some k =>
    let w := s.walkLease k
    let s := s.billWalk k.key
    if k.ending.isSome then s
    else if 8192 < w.n then s.setTask n sl { k with ending := some { cause := cLease, ip := recf k.rcd 159 128 } }
    else
      match w.bad with
      | some (va, r) =>
        if k.leaseWait.isSome && !k.leaseFull then s
        else (s.setTask n sl { k with leaseWait := some s.cyc, leaseFull := false }).leasePending n sl k va r
      | none =>
        if 32768 < s.leaseUse (clusterOf n) + w.n then s.setTask n sl { k with leaseWait := some s.cyc, leaseFull := true }
        else s.setTask n sl { k with lease := w.pages, leaseWait := none, leaseFull := false }
/-- The restored task in a slot that waits for entries of the lease table can have them now (R306). -/
def State.leaseRoom (s : State) (n : Nat) (k : Task) : Bool :=
  k.leaseFull && k.ending.isNone && decide (s.leaseUse (clusterOf n) + (s.walkLease k).n ≤ 32768)
/-- Every prefetch and every restored task of a context that waits for pages walks them again, as does every prefetch whose lease `hit`
names (R307, R311, R370). -/
def State.retryLeases (s : State) (key : Nat) (hit : List LeasePage → Bool := fun _ => false) : State :=
  s.cores.foldl (fun s (n, c) =>
    c.slots.foldl (fun s (sl, k) =>
      if k.key ≠ key then s
      else
        match k.st with
        | .prefetching _ start pending =>
          if c.prefetch = some sl ∧ k.ending.isNone ∧ (pending ∨ hit k.lease) then s.tryLease n sl start else s
        | _ => if k.leaseWait.isSome then s.remakeLease n sl else s) s) s

/-! ## Walker steps (R228) -/

/-- The task is a walker task (R223). -/
def Task.walker (k : Task) : Bool := recf k.rcd 230 230 == 1
/-- Index `d` of step `x`. -/
def stepIndex (b : BitVec 1024) (x d : Nat) : Nat :=
  (x / (List.range d).foldl (fun p i => p * trips b i) 1) % trips b d
/-- The pointer of operand `t` at step `x`. -/
def stepPointer (b : BitVec 1024) (x t : Nat) : Word :=
  BitVec.ofInt 64 ((topf b (255 + 64 * t) (192 + 64 * t) : Nat) +
    ((List.range (topf b 33 32 + 1)).foldl (fun (a : Int) d =>
      a + (stepIndex b x d : Nat) * sextI (topf b (384 + 128 * t + 32 * d + 31) (384 + 128 * t + 32 * d)) 32) 0))
/-- The registers that step `x` delivers to a bank, with its instruction pointer. -/
def StrandSt.startStep (b : BitVec 1024) (x : Nat) (r : StrandSt) : StrandSt :=
  let i (d : Nat) : Nat := stepIndex b x d
  let r := (r.setReg 10 (BitVec.ofNat 64 x)).setReg 11 (BitVec.ofNat 64 (i 0 + 2 ^ 16 * i 1 + 2 ^ 32 * i 2 + 2 ^ 48 * i 3))
  let r := ((r.setReg 12 (stepPointer b x 0)).setReg 13 (stepPointer b x 1)).setReg 14 (stepPointer b x 2)
  { r with ip := topf b 31 0 }
/-- A step begins: queues empty, tags free, registers delivered (R228, R229). -/
def Task.beginStep (k : Task) (x : Nat) : Task :=
  let k := k.updAll fun r => { (r.startStep k.topb x) with wc := 0, tags := 0, wait := .none }
  { k with toks := [], sq := [], bq := [], rdv := .gathering, step := x, stepBegun := true, stepHold := none }
/-- A walker writes its resume point into `FIRST` of its TOPB (R229). -/
def State.writeFirst (s : State) (k : Task) (step : Nat) : State :=
  (s.engineWrite k.key (chunk8 ⟨some k.src, recf k.rcd 63 0 + 104⟩ (leBytes step 4))).1

/-! ## Prefetch (R288) -/

/-- The state of R34 for the entry's task. -/
def State.newTask (s : State) (d : DqEntry) : Task :=
  let ent := recf d.rcd 159 128
  let x : StrandSt := { ip := ent }
  let key := ctxKey d.part d.fn
  let walk := recf d.rcd 230 230 == 1
  let live := match s.booking? key d.bh with
    | some b => if b.live || b.st == BState.done then some b else none
    | none => none
  let bst : SMap Word := match live with
    | some b => (List.range b.stages.length).foldl (fun m n => SMap.set m n (bstWord ((b.stage? n).map (·.start) |>.getD 0))) []
    | none => []
  let held := match s.booking? key d.bh with
    | some b => b.stages.foldl (fun m g => if g.ecls = 0 ∧ g.placed ∧ !g.ended ∧ g.rinst = d.target then max m g.hold else m) 0
    | none => 0
  let k : Task := {
    part := d.part, fn := d.fn, ser := d.ser, uid := d.uid, rcd := d.rcd, topb := d.topb, stolen := d.stolen, root := d.root,
    entered := s.cyc, regions := d.regions, txl := recf d.rcd 127 112, tvec := d.tvec,
    textb := BitVec.ofNat 64 (16 * recf d.rcd 111 68), bhnd := d.bh, bst := bst, src := d.src,
    agedFrom := match d.eligibleAt with
      | some t => s.cyc - t
      | none => 0
    sC := x.setReg 1 (BitVec.ofNat 64 (if walk then topf d.topb 127 64 else recf d.rcd 63 0)), sL := x, sX := x, sS := x }
  if walk then { k.beginStep (topf d.topb 863 832) with stepHold := if held = 0 then none else some held } else k
/-- The lowest free task slot of a core that an entry may take (R288). -/
def Core.slotFor (c : Core) (booked : Bool) : Option Nat :=
  if !booked && decide (3 ≤ c.slots.countP fun t => t.2.bhnd == 0) then none
  else [0, 1, 2, 3].find? fun i => (SMap.find? c.slots i).isNone
/-- An entry enters a task slot, and its prefetch begins (R288). -/
def State.dispatch (s : State) (n : Nat) (d : DqEntry) : State :=
  match (s.core n).slotFor (d.bh != 0) with
  | none => s
  | some sl =>
    let k := { s.newTask d with st := .prefetching 0 s.cyc false }
    let s := s.updCore n fun c => { c with slots := SMap.set c.slots sl k, prefetch := some sl }
    (s.repend d.uid none).tryLease n sl s.cyc
/-- A booking is due: from the first cycle of the slot before its first stage until it ends (R292). -/
def State.bookingDue (s : State) (key : Nat) (h : BitVec 32) : Option Nat :=
  match s.booking? key h with
  | some b =>
    let st := (b.stages.head?.map (·.start)).getD 0
    if (b.st = .committed ∨ b.st = .running) ∧ st ≤ s.slot + 1 then some st else none
  | none => none
/-- The level of a deque entry (R290). -/
def DqEntry.level (d : DqEntry) (cyc : Nat) : Nat :=
  min 31 (recf d.rcd 228 224 + (match d.eligibleAt with
    | some t => (cyc - t) / 262144
    | none => 0))
/-- Entry `a` is taken before entry `b`, which lies above it (R288). -/
def State.takenBefore (s : State) (a b : DqEntry) : Bool :=
  let due (d : DqEntry) : Option Nat := if d.bh = 0 then none else s.bookingDue (ctxKey d.part d.fn) d.bh
  match due a, due b with
  | some x, some y => decide (x < y) || (x == y && decide (b.level s.cyc ≤ a.level s.cyc))
  | some _, none => true
  | none, some _ => false
  | none, none => decide (b.level s.cyc ≤ a.level s.cyc)
/-- The entry that the prefetcher of a core takes now, by its place in the deque (R288). -/
def State.prefetchNext (s : State) (n : Nat) : Option (Nat × DqEntry) :=
  let c := s.core n
  if c.prefetch.isSome || c.quiet || decide (s.cyc < c.prefetchFree) || c.deque.isEmpty then none
  else
    (((List.range c.deque.length).zip c.deque).filter fun (_, d) =>
      decide (d.entered < s.cyc) && (c.slotFor (d.bh != 0)).isSome && s.mayRun (ctxKey d.part d.fn) && s.eligible d).foldl
      (fun (m : Option (Nat × DqEntry)) x =>
        match m with
        | none => some x
        | some y => if s.takenBefore x.2 y.2 then some x else m) none
/-- The prefetcher removes an eligible entry into a free task slot (R288). -/
def execPrefetchStart (core : Nat) (s : State) : Out :=
  match s.prefetchNext core with
  | none => .fault .noSuchStep
  | some (i, d) =>
    .next ((s.updCore core fun c => { c with deque := c.deque.eraseIdx i }).dispatch core d)
/-- The first two fetch blocks at the entry word are fetched into the instruction cache (R288). -/
def State.fetchAhead (s : State) (n : Nat) (k : Task) : State :=
  (List.range 16).foldl (fun s i =>
    match k.wordPlaces (wordAddr k.textb.toNat (k.sC.ip + i)) with
    | none => s
    | some ps =>
      if (ps.any fun a => s.isPoisoned ⟨none, a⟩ 1) || (SMap.find? (s.core n).icache (ps.headD 0)).isSome then s
      else s.updCore n fun c =>
        c.keepWord (ps.headD 0) (Dec.wordOf (ps.map (s.textAt n))).toNat) s
/-- The prefetch of a core, with its slot, task and times. -/
def State.prefetching? (s : State) (n : Nat) : Option (Nat × Task × Nat × Nat × Bool) :=
  (s.core n).prefetch.bind fun sl =>
    (s.task? n sl).bind fun k =>
      match k.st with
      | .prefetching done start pending => some (sl, k, done, start, pending)
      | _ => none
/-- The prefetch of a core can go on: it completes, or entries of the lease table have become free. -/
def State.prefetchReady (s : State) (n : Nat) : Bool :=
  match s.prefetching? n with
  | some (_, k, done, _, pending) =>
    k.ending.isNone && !(s.core n).quiet && s.mayRun k.key &&
      (if done ≠ 0 then decide (done ≤ s.cyc)
       else !pending && decide (s.leaseUse (clusterOf n) + (s.walkLease k).n ≤ 32768))
  | none => false
/-- A prefetch completes (R288, R290), or begins again with free lease entries (R306). -/
def execPrefetchComplete (core : Nat) (s : State) : Out :=
  if !s.prefetchReady core then .fault .noSuchStep
  else
    match s.prefetching? core with
    | none => .fault .noSuchStep
    | some (sl, k, done, start, _) =>
      if done = 0 then .next (s.tryLease core sl start)
      else
        let s := s.fetchAhead core k
        let k := { k with st := .runnable, entered := s.cyc, agedFrom := s.cyc - k.agedFrom, order := 1, orderSeq := s.nextId }
        let k := { k with boost := (s.cyc - k.agedFrom) / 262144 }
        .next { ((s.setTask core sl k).updCore core fun c => { c with prefetch := none, prefetchFree := s.cyc + 1 }) with nextId := s.nextId + 1 }
/-- A task that has waited 65,536 slots for the pages of its lease (R307). -/
def State.leaseExpired (s : State) (n : Nat) : Option (Nat × Task) :=
  List.find? (fun (p : Nat × Task) => p.2.ending.isNone &&
    (match p.2.st, p.2.leaseWait with
     | .prefetching _ start true, _ => decide (start + 65536 * 64 ≤ s.cyc)
     | _, some t => !p.2.leaseFull && decide (t + 65536 * 64 ≤ s.cyc)
     | _, none => false)) (s.core n).slots
/-- Such a task ends with the Lease Violation fault (R307). -/
def execLeasePendingTimeout (core : Nat) (s : State) : Out :=
  match s.leaseExpired core with
  | none => .fault .noSuchStep
  | some (sl, k) =>
    let va := match (s.walkLease k).bad with
      | some (va, _) => va
      | none => 0
    .next (s.setTask core sl { k with ending := some { cause := cLease, faddr := va, ip := recf k.rcd 159 128 } })

/-! ## Activation (R289, R290) -/

/-- The levels that a runnable task has gained by waiting (R290). -/
def Task.aged (k : Task) (cyc : Nat) : Nat := (cyc - k.agedFrom) / 262144
/-- The level of a task with `n` levels gained. -/
def Task.level (k : Task) (n : Nat) : Nat := min 31 (recf k.rcd 228 224 + n)
/-- A runnable task enters its level (R290): class 0 of a wake, 3 of a yield. -/
def State.makeRunnable (s : State) (n sl cls : Nat) : State :=
  { (s.updTask n sl fun k =>
      { k with st := .runnable, entered := s.cyc, agedFrom := s.cyc, boost := 0, order := cls
               orderSeq := if cls = 0 ∧ k.orderSeq ≠ 0 then k.orderSeq else s.nextId }) with nextId := s.nextId + 1 }
/-- A waiting task's level rises (R290). -/
def execPriorityAging (core slot : Nat) (s : State) : Out :=
  match s.task? core slot with
  | none => .fault .noSuchStep
  | some k =>
    if k.st ≠ .runnable ∨ k.level (k.aged s.cyc) ≤ k.level k.boost then .fault .noSuchStep
    else
      .next { (s.setTask core slot { k with boost := k.aged s.cyc, entered := s.cyc, order := 2, orderSeq := s.nextId }) with nextId := s.nextId + 1 }
/-- Runnable task `a` is chosen before runnable task `b` (R289). -/
def State.chosenBefore (s : State) (a b : Task) : Bool :=
  let due (k : Task) : Bool := k.bhnd != 0 && (s.bookingDue k.key k.bhnd).isSome
  let la := a.level a.boost
  let lb := b.level b.boost
  if due a ≠ due b then due a
  else if la ≠ lb then decide (lb < la)
  else if a.entered ≠ b.entered then decide (a.entered < b.entered)
  else if a.order ≠ b.order then decide (a.order < b.order)
  else decide (a.orderSeq < b.orderSeq)
/-- A walker task that has not begun is held until its stage's continuation (R266). -/
def Task.heldBack (k : Task) (cyc : Nat) : Bool := k.fresh && match k.stepHold with
  | some t => decide (cyc < t)
  | none => false
/-- The task that a core makes active now (R289). -/
def State.activeNext (s : State) (n : Nat) : Option (Nat × Task) :=
  let c := s.core n
  if c.active.isSome || c.quiet || decide (s.cyc ≤ c.freeAt) then none
  else
    (c.slots.filter fun (_, k) =>
      decide (k.st = .runnable) && k.ending.isNone && k.leaseWait.isNone && !k.heldBack s.cyc && (decide (k.entered < s.cyc) || k.order == 2) && s.mayRun k.key).foldl
      (fun (m : Option (Nat × Task)) x =>
        match m with
        | none => some x
        | some y => if s.chosenBefore x.2 y.2 then some x else m) none
/-- The condition that a task takes as it becomes active: the fault it owes (R191), else a trap held while it was not active. -/
def State.deliverWaiting (s : State) (n sl : Nat) : State :=
  match s.task? n sl with
  | none => s
  | some k =>
    match k.owed with
    | some i => (s.setTask n sl { k with owed := none }).raise n sl i
    | none =>
      if k.handler.isSome || k.trap.isSome then s
      else
        match firstHeld k.held with
        | none => s
        | some (i, rest) => (s.setTask n sl { k with held := rest }).deliver n sl { i with resume := .asIs }
/-! ## Booking Due (R292) -/

/-- The task in a slot is due and runnable, and its trap has not been raised. -/
def State.isDue (s : State) (n sl : Nat) : Bool :=
  match s.task? n sl with
  | some k => k.bhnd != 0 && decide (k.st = .runnable) && !k.dueRaised && (s.bookingDue k.key k.bhnd).isSome
  | none => false
/-- The active task gives way to a due one: unbooked, or its booking has ended. -/
def State.givesWay (s : State) (k : Task) : Bool := k.bhnd == 0 || !s.handleLive k.key k.bhnd
/-- Booking Due raised in the active task for the due task in slot `sl`; its `IP` and `STR` name no word, so they are free. -/
def State.raiseDue (s : State) (n act sl : Nat) : State :=
  let s' := (s.updTask n sl fun k => { k with dueRaised := true }).raise n act
    { cause := cBookingDue, prec := 2, resume := .asIs, ip := (Config.freeValue 32 s.fresh).toNat
      strand := Strand.ofCode (Config.freeValue 2 (s.fresh + 1)).toNat }
  { s' with fresh := s'.fresh + 2 }
/-- The active task of a core takes Booking Due now for the task in a slot; a walker takes it at a step boundary. -/
def State.dueNow (s : State) (n sl : Nat) : Option Nat :=
  (s.core n).active.bind fun a =>
    (s.task? n a).bind fun k => if s.isDue n sl && !k.walker && s.givesWay k && k.ending.isNone then some a else none
/-- Booking Due (R292). -/
def execBookingDue (core slot : Nat) (s : State) : Out :=
  match s.dueNow core slot with
  | none => .fault .noSuchStep
  | some a => .next (s.raiseDue core a slot)
/-- A walker at a step boundary takes it before the step's first word. -/
def State.dueAtBoundary (s : State) (n a : Nat) : State :=
  match s.task? n a with
  | none => s
  | some k =>
    match [0, 1, 2, 3].find? (s.isDue n) with
    | some sl => if s.givesWay k then s.raiseDue n a sl else s
    | none => s

/-! ## The end of a task (R111, R224, R229, R392) -/

/-- The stage of a booking on this core's matrix engine that has begun and not ended. -/
def State.stageHere (s : State) (k : Task) (n : Nat) : Option Nat :=
  match s.booking? k.key k.bhnd with
  | none => none
  | some b =>
    ((List.range b.stages.length).zip b.stages).findSome? fun (i, g) =>
      if g.ecls == 0 && g.rinst == n && g.placed && g.start ≤ s.slot && !g.ended then some i else none
/-- The task slot is freed, and if the task was active the active slot too (R111, R289). -/
def State.leaveSlot (s : State) (n sl : Nat) : State :=
  s.updCore n fun c =>
    { c with
      slots := SMap.erase c.slots sl
      active := if c.active = some sl then none else c.active
      freeAt := if c.active = some sl then s.cyc else c.freeAt
      prefetch := if c.prefetch = some sl then none else c.prefetch
      prefetchFree := if c.prefetch = some sl then s.cyc + 1 else c.prefetchFree }
/-- Firmware reports the end of a root task to the host (R278). -/
def State.reportRoot (s : State) (k : Task) : State := if k.root then s.hostEvent k.fn cResidentEnded k.part k.fn 0 else s
/-- A task ends with its completion action and an early finish of its stage (R111, R224). -/
def State.endTask (s : State) (n sl : Nat) : State :=
  match s.task? n sl with
  | none => s
  | some k =>
    let s := s.leaveSlot n sl
    let s := if recf k.rcd 231 231 = 1 then s.engineDecrement n k.key (recf k.rcd 243 232) else s
    let s := match s.stageHere k n with
      | some g => (s.earlyFinish k.bhnd g).doneIfEnded k.bhnd
      | none => s
    (s.unitDone k.uid).reportRoot k
/-- A walker at the boundary before step `x`: it ends when its booking is cancelled (R229), parks until its continuation (R266), or
begins the step. -/
def State.stepBoundary (s : State) (n sl x : Nat) : State :=
  match s.task? n sl with
  | none => s
  | some k =>
    if k.cancelled then (s.writeFirst k x).endTask n sl
    else
      let hold := match k.stepHold with
        | some t => decide (s.cyc < t)
        | none => false
      if hold then
        (s.setTask n sl { (k.beginStep x) with stepBegun := false, stepHold := k.stepHold }).park n sl (.stage (k.stepHold.getD 0))
      else (s.setTask n sl (k.beginStep x)).dueAtBoundary n sl
/-- A core makes a task active: a new task with the state of R34, another with the state of R35 (R289). A walker stands at the
boundary before its first step (R229, R292). -/
def execTaskActivate (core : Nat) (s : State) : Out :=
  match s.activeNext core with
  | none => .fault .noSuchStep
  | some (sl, k) =>
    let s := if k.fresh then s.updCore core fun c => { c with vec := {}, msk := {}, mxe := {} } else s.scramble core
    let s := s.setTask core sl { k with st := .active, fresh := false, boost := 0 }
    let s := s.updCore core fun c => { c with active := some sl }
    .next (if k.fresh && k.walker then s.stepBoundary core sl k.step else s.deliverWaiting core sl)

/-- Everything that `exit` waits for: results landed, stores performed, matrix commands completed (R111 step 1). -/
def State.exitReady (e : Env) (s : State) : Bool :=
  !(s.flights.any fun f => f.ofTask e.core e.slot) && ((s.core e.core).mxe.queue.all fun c => c.done)
/-- `exit` (R111, R229, R389). -/
def execExit (h : Hdr) (_ : SYS) (s : State) : Out :=
  rendezvous h 0 State.exitReady
    (fun e s => .leave (
      if e.task.walker && e.task.handler.isNone && decide (e.task.step + 1 < topSteps e.task.topb) then
        s.stepBoundary e.core e.slot (e.task.step + 1)
      else s.endTask e.core e.slot)) s
/-- `yield` (R110): the task is runnable at once, behind every task of its level. -/
def execYield (h : Hdr) (_ : SYS) (s : State) : Out :=
  rendezvous h 0 State.yieldReady
    (fun e s => .leave ((((s.meetPass e).park e.core e.slot .now)).makeRunnable e.core e.slot 3)) s
/-- The part waits for this before a task that a fault ends is gone: results in flight land, accesses perform and running matrix
commands complete (R392 step 1). -/
def State.faultDrained (s : State) (n sl : Nat) : Bool :=
  !(s.flights.any fun f => f.ofTask n sl && (match f.op with
    | .fence _ _ _ | .barWait _ _ _ _ | .barArrive _ _ _ | .fatom _ _ _ | .matrix _ => false
    | _ => true))
  && !((s.core n).mxe.queue.any fun c => c.slot == sl && c.running.isSome && !c.done)
/-- What is left of the flights of a task that a fault has ended: arrivals at barriers stand (R182). -/
def Flight.orphan (f : Flight) : Option Flight := match f.op with
  | .barArrive l _ _ => some { f with op := .barArrive l true 84, aside := true, tal := 0, sig := 0 }
  | _ => none
/-- A Lease Violation or Double Fault ends a task (R392). -/
def execTaskEndByFault (core slot : Nat) (s : State) : Out :=
  match s.task? core slot with
  | none => .fault .noSuchStep
  | some k =>
    match k.ending with
    | none => .fault .noSuchStep
    | some e =>
      if !s.faultDrained core slot then .fault .noSuchStep
      else
        let s := { s with flights := s.flights.filterMap fun (f : Flight) => if f.ofTask core slot then f.orphan else some f }
        let s := s.updCore core fun c => { c with mxe := { c.mxe with queue := c.mxe.queue.filter fun m => m.slot != slot } }
        let s := if k.bhnd = 0 then s else s.cancelBooking k.bhnd .cancelled
        let s := if k.walker then s.writeFirst k k.step else s
        let s := ((s.unitDone k.uid).leaveSlot core slot).reportRoot k
        .next (s.event k.key e.cause (detailAt 128 e.faddr + detailAt 192 (k.idWord core slot) + detailAt 224 (e.ip % 2 ^ 32) +
          detailAt 256 k.bhnd.toNat + (if e.cause = cDoubleFault then detailAt 288 e.sub else 0)))

/-! ## Traps -/

/-- The trap of a core's active task can be entered: everything in flight has landed (R388). -/
def State.trapReady (s : State) (n : Nat) : Option (Nat × TrapInfo) :=
  (s.core n).active.bind fun sl =>
    (s.task? n sl).bind fun k => k.trap.bind fun i => if s.drained n sl && k.ending.isNone then some (sl, i) else none
/-- A command-precise fault of an earlier cycle is delivered now to the active task, which is in no handler (R391). -/
def State.heldReady (s : State) (n : Nat) : Option (Nat × TrapInfo × List TrapInfo) :=
  (s.core n).active.bind fun sl =>
    (s.task? n sl).bind fun k =>
      if k.trap.isSome || k.handler.isSome || k.ending.isSome then none
      else (firstHeld k.held).bind fun x => if x.1.cyc < s.cyc then some (sl, x.1, x.2) else none
/-- The handler is entered once everything in flight has landed (R388, R391). -/
def execTrapEntry (core : Nat) (s : State) : Out :=
  match s.trapReady core with
  | some (sl, i) => .next (s.enterTrap core sl i)
  | none =>
    match s.heldReady core with
    | none => .fault .noSuchStep
    | some (sl, i, rest) => .next ((s.updTask core sl fun k => { k with held := rest }).deliver core sl { i with resume := .asIs })
/-- `brk` (R113): the context halts when a debugger is attached to it (R373), else Breakpoint; neither passes the word, and the
strand goes on after it. -/
def execBrk (h : Hdr) (o : SYS) (s : State) : Out :=
  issue h 0 {}
    (fun e s =>
      if (s.ctx e.task.key).debugger then
        .halt ((s.updTask e.core e.slot fun k => k.updStr e.t fun x => { x with ip := x.ip + 1 }).updCtx e.task.key fun c =>
          { c with phase := .saving 3 })
      else .trap cBreakpoint 0 (fld o.imm.toNat 15 0) .after 0) s

/-! ## Waking (R293) -/

/-- The wake condition of a parked task holds, since an earlier cycle. -/
def State.wakeReady (s : State) (k : Task) : Bool :=
  match k.st with
  | .parked .now | .parked (.farFault _ _) | .parked (.windowDone _ _ _) | .parked (.gateReady _ _ _) => decide (k.entered < s.cyc)
  | .parked (.stage t) => decide (t ≤ s.cyc) || k.cancelled
  | _ => false
/-- A parked task's condition holds and it becomes runnable at the tail of its level, with the result of its wait (R188, R191, R201,
R266, R293). -/
def execTaskWake (core slot : Nat) (s : State) : Out :=
  match s.task? core slot with
  | none => .fault .noSuchStep
  | some k =>
    if !s.wakeReady k ∨ (s.ctx k.key).phase ≠ .running then .fault .noSuchStep
    else
      let up (s : State) : State := s.makeRunnable core slot 0
      match k.st with
      | .parked .now => .next (up s)
      | .parked (.farFault r a) =>
        let ip := k.sL.ip - 1
        .next (up (s.setTask core slot { (k.updAll fun x => { x with ip := ip, wc := x.wc - 1 }) with
          owed := some { cause := cFarAccess, faddr := a, ip := ip, strand := .L, estat := r * 256, resume := .again } }))
      | .parked (.windowDone _ v d) => .next (up (s.setTask core slot (k.updStr .C fun x => x.setReg d v)))
      | .parked (.gateReady g d p) =>
        let (s, v) := s.gateSnapshot k.key core g p
        .next (up (s.updTask core slot fun k => k.updStr .C fun x => x.setReg d v))
      | .parked (.stage _) =>
        if k.cancelled then .next ((s.writeFirst k k.step).endTask core slot)
        else .next (up (s.setTask core slot { k with stepBegun := true, stepHold := none }))
      | _ => .fault .noSuchStep

/-! ## Stealing by idle cores (R294) -/

/-- A core is idle (R294). -/
def State.idle (s : State) (n : Nat) : Bool :=
  let c := s.core n
  c.active.isNone && c.prefetch.isNone && !c.quiet && (c.slotFor false).isSome
  && (c.freeAt == 0 || decide (c.freeAt < s.cyc)) && !(c.slots.any fun t => decide (t.2.st = .runnable)) && !(c.deque.any s.eligible)
/-- The context that an idle core of a partition works for now. -/
def State.servedKey (s : State) (part : Nat) : Option Nat :=
  (List.find? (fun (c : Nat × Context) => c.1 / 128 == part && s.mayRun c.1) s.ctxs).map (·.1)
/-- The other cores of the partition in the cluster, from the one after `n` on, wrapping (R294). -/
def State.victims (s : State) (n part : Nat) : List Nat :=
  let base := clusterOf n * Config.coresPerCluster
  ((List.range (Config.coresPerCluster - 1)).map fun i => base + (n - base + 1 + i) % Config.coresPerCluster).filter fun v => s.partOf v = some part
/-- The entry that an idle core steals now, with its core (R225, R294); steals go by ascending core (R226). -/
def State.stealNext (s : State) (n : Nat) : Option (Nat × DqEntry × List DqEntry) :=
  if s.cyc % 16 ≠ 0 ∨ (s.cores.any fun c => decide (n ≤ c.1) && s.partOf c.1 == s.partOf n && c.2.stoleAt == s.cyc + 1) ∨ !s.idle n ∨ !s.dequeRoom n then none
  else
    (s.partOf n).bind fun part =>
      (s.servedKey part).bind fun key =>
        (s.victims n part).findSome? fun v => (firstStealable (key % 128) (s.core v).deque).map fun x => (v, x)
/-- An idle core steals (R294). -/
def execAutoSteal (core : Nat) (s : State) : Out :=
  match s.stealNext core with
  | none => .fault .noSuchStep
  | some (v, d, rest) => .next (s.steal core v d rest)

/-- Entries of the deques that have become eligible are noted at the end of a cycle (R287, R290). -/
def State.noteEligible (s : State) : State :=
  s.cores.foldl (fun s (n, c) =>
    if c.deque.any fun d => d.eligibleAt.isNone && s.eligible d then
      s.updCore n fun c => { c with deque := c.deque.map fun d =>
        if d.eligibleAt.isNone && s.eligible d then { d with eligibleAt := some s.cyc } else d }
    else s) s

end Sys2Proof.Machine
end

