-- ==== Sys2Proof/Machine/Translate.lean ====
section
/-!
DEFINITION. Shoot-downs (R309 to R312), errors and poison found by the scrubbers (R313, R314), and frame retirement (R315).
-/
namespace Sys2Proof.Machine

/-! ## Shoot-downs -/

/-- A shoot-down value keeps the limits of R310. -/
def shootOk (x : Nat) : Bool :=
  fld x 63 48 == 0 && fld x 15 3 == 0 && decide (fld x 1 0 < 2) &&
    (if x.testBit 2 then fld x 47 16 == 0 && fld x 1 0 == 0 else x.testBit 0 == false || fld x 20 16 == 0)
/-- The range that a value names. -/
def shootRange (x : Nat) : Nat × Nat :=
  if x.testBit 2 then (0, 2 ^ 48) else (fld x 47 16 * 2 ^ 16, if x.testBit 0 then 0x200000 else 0x10000)
/-- A request is submitted with the next ticket; its work is done within half its limit, and what used an old translation performs in the
other half (R311, R312; assumption log 64). -/
def State.submitShoot (s : State) (key x : Nat) : State :=
  let lim := if x.testBit 2 then 131072 else 4096
  let due := s.cyc + 1 + Config.extraLatency s.fresh % (lim / 2)
  let s := s.updCtx key fun c => { c with sdNext := c.sdNext + 1, sds := c.sds ++ [⟨c.sdNext, BitVec.ofNat 64 x, due⟩] }
  { s with fresh := s.fresh + 1 }
/-- The result of an `aswp` to the control page lands. -/
def State.landControl (s : State) (f : Flight) (spec : Nat) (v : Word) : State := s.landTask f fun k => k.landScalar .C spec v
/-- `aswp` to `SDREQ` performs (R310, R311). -/
def execSdreq (id : Nat) (s : State) : Out :=
  match s.flight? id with
  | none => .fault .noSuchStep
  | some f =>
    match f.op with
    | .sdreq x spec =>
      if !s.flightDue f then .fault .noSuchStep
      else
        let key := s.flightKey f
        if shootOk x.toNat then .next ((s.submitShoot key x.toNat).landControl f spec (BitVec.ofNat 64 (s.ctx key).sdNext))
        else .next (s.landControl f spec (BitVec.allOnes 64))
    | _ => .fault .noSuchStep
/-- The root of a context's stage-1 tables is set. -/
def Context.setRoot (c : Context) (x : Nat) : Context := { c with image := c.image.map fun i => { i with s1root := x } }
/-- `aswp` to `ROOT` performs (R310). -/
def execRoot (id : Nat) (s : State) : Out :=
  match s.flight? id with
  | none => .fault .noSuchStep
  | some f =>
    match f.op with
    | .root x spec =>
      if !s.flightDue f then .fault .noSuchStep
      else
        let key := s.flightKey f
        if x.toNat % 4096 = 0 ∧ fld x.toNat 63 48 = 0 then
          .next (((s.updCtx key fun c => c.setRoot x.toNat).submitShoot key 4).landControl f spec (BitVec.ofNat 64 (s.ctx key).sdNext))
        else .next (s.landControl f spec (BitVec.allOnes 64))
    | _ => .fault .noSuchStep
/-- Some entry of a lease lies in a range. -/
def leaseHit (lo n : Nat) (lease : List LeasePage) : Bool := lease.any fun p => runsMeet p.va p.size lo n
/-- The part of a page that lies in the range of an entry, as that entry with its new translation. -/
def LeasePage.within (p g : LeasePage) : LeasePage :=
  let va := max p.va g.va
  { va := va, size := min (p.va + p.size) (g.va + g.size) - va, pa := p.pa + (va - p.va), rd := p.rd, wr := p.wr }
/-- The lease of a task after its entries in a range have been walked again: an entry whose page still meets its region's rights takes the
new translation, and any other is revoked for good (R311 item 2). -/
def State.rewalk (s : State) (k : Task) (lo n : Nat) : List LeasePage :=
  let new := (s.walkLease k).pages
  k.lease.flatMap fun g =>
    if !runsMeet g.va g.size lo n then [g] else (new.filter fun p => runsMeet p.va p.size g.va g.size).map fun p => p.within g
/-- The ports' translation caches hold no entry of a range (R311 item 1, R325). -/
def State.clearPorts (s : State) (key lo n : Nat) : State :=
  { s with portTlb := s.portTlb.filter fun e => !(e.1.1 == key && runsMeet (65536 * e.1.2) 65536 lo n) }
/-- Every lease of a context walked again in a range (R311), but for tasks that are still prefetching, which walk the range themselves
(item 4). -/
def State.rewalkAll (s : State) (key lo n : Nat) : State :=
  { s.billWalk key with cores := s.cores.map fun (i, c) =>
      (i, { c with slots := c.slots.map fun (sl, k) =>
        match k.st with
        | .prefetching _ _ _ => (sl, k)
        | _ => if k.key = key ∧ leaseHit lo n k.lease then (sl, { k with lease := s.rewalk k lo n }) else (sl, k) }) }
/-- An access of the context to DRAM that uses an old translation of a range has not performed (R311 item 3); one that waits in its class
behind an `aswp` to the control page takes its turn after it (assumption log 64). -/
def State.accessPending (s : State) (key lo n : Nat) : Bool :=
  s.flights.any fun f => f.acc && s.flightKey f == key
    && (match s.task? f.core f.slot with
      | none => false
      | some k => f.op.pieces.any fun p => p.loc.core.isNone &&
          k.lease.any fun g => runsMeet g.va g.size lo n && decide (g.pa < p.loc.off + p.len) && decide (p.loc.off < g.pa + g.size))
    && !(s.flights.any fun g => decide (g.id < f.id) && g.ofTask f.core f.slot && g.strand = f.strand && g.holds f.cls f.pieces &&
      match g.op with
      | .sdreq _ _ | .root _ _ => true
      | _ => false)
/-- The request of a context that completes now: the oldest, when its time has come (R311, R312). -/
def State.shootReady (s : State) (key : Nat) : Option Shootdown :=
  match (s.ctx key).sds with
  | [] => none
  | d :: _ =>
    let (lo, n) := shootRange d.value.toNat
    if d.due ≤ s.cyc && !s.accessPending key lo n then some d else none
/-- A shoot-down completes (R311). -/
def execShootdownComplete (part fn : Nat) (s : State) : Out :=
  let key := ctxKey part fn
  match s.shootReady key with
  | none => .fault .noSuchStep
  | some d =>
    let (lo, n) := shootRange d.value.toNat
    let s := s.updCtx key fun c => { c with sdDone := d.ticket + 1, sds := c.sds.drop 1 }
    .next (((s.rewalkAll key lo n).clearPorts key lo n).retryLeases key (leaseHit lo n))

/-! ## Errors and poison (R313, R314) -/

/-- A correctable error is counted in a context's `CECNT` (R310, R314). -/
def State.countError (s : State) (key : Nat) : State := s.updCtx key fun c => { c with cecnt := min (c.cecnt + 1) (2 ^ 64 - 1) }
/-- A Memory Error event (R314). -/
def State.memoryError (s : State) (key addr : Nat) (scratch : Bool) : State :=
  s.event key cMemoryError (detailAt 128 addr + (if scratch then detailAt 192 1 else 0))
/-- The context and guest-physical frame to which a physical frame is mapped. -/
def State.frameOwner (s : State) (frame : Nat) : Option (Nat × Nat) :=
  s.ctxs.findSome? fun (key, c) => (List.find? (fun (p : Nat × S2Entry) => p.2.pfn == frame) c.s2).map fun p => (key, p.1)
/-- The scratch address by which a cluster names a byte (R36), in the form of R166. -/
def clusterAddr (core off : Nat) : Nat := 2 ^ 63 + 0x10000000 + (core % Config.coresPerCluster) * 0x200000 + off
/-- The context whose scratchpad a core holds. -/
def State.scratchOwner (s : State) (core : Nat) : Option Nat := (s.partOf core).map fun p => s.keyOfCore p core
/-- A unit of which no event has told since it was marked: the event (R314). `va` is the virtual address where the part knows it, and `key`
the context whose access found it. -/
def State.tellUnit (s : State) (key : Option Nat) (l : Loc) (va : Option Nat) : State :=
  match l.core with
  | some core =>
    let word := l.off / 8
    let c := s.core core
    if !c.poison.contains word ∨ c.told.contains word then s
    else
      let s := s.updCore core fun c => { c with told := NSet.add c.told word }
      match s.scratchOwner core with
      | some key => s.memoryError key (clusterAddr core (8 * word)) true
      | none => s
  | none =>
    let line := l.off / 64
    if !s.dramPoison.contains line ∨ s.dramTold.contains line then s
    else
      let s := { s with dramTold := NSet.add s.dramTold line }
      match s.frameOwner (l.off / Config.frameBytes) with
      | some (owner, g) => s.memoryError (key.getD owner) (va.getD (g * Config.frameBytes + 64 * line % Config.frameBytes)) false
      | none => s
/-- The poisoned unit that an access names: in scratch, in the form of R166 or as an offset, or in global space (R36, R38). -/
def State.foundAt (s : State) (x : Found) : Option (Loc × Option Nat) :=
  match x.loc with
  | some l => some (l, x.name)
  | none =>
    x.name.bind fun a =>
      let sc := (if isScratchAddr a then scratchPlace x.core a else if a < 2 ^ 32 then scratchMap x.core a else none).bind fun (c, o) =>
        if (s.core c).poison.contains (o / 8) then some ((⟨some c, o⟩ : Loc), (none : Option Nat)) else none
      match sc with
      | some r => some r
      | none =>
        match s.translate x.key a with
        | .ok (pa, _) => some (⟨none, pa⟩, some (a / 64 * 64))
        | .error _ => none
/-- The events of the poison that accesses have found (R314). -/
def State.tellFound (s : State) : State :=
  s.found.foldl (fun s x => match s.foundAt x with
    | some (l, va) => s.tellUnit (some x.key) l va
    | none => s) { s with found := [] }
/-! ## Frames (R299, R309, R315) -/

/-- The memory channel group of a frame (R299). -/
def groupOf (frame : Nat) : Nat := frame / Config.framesPerGroup
/-- A frame holds something: a context maps it or has its stage-2 array in it, or it is a gate window. -/
def State.frameHeld (s : State) (frame : Nat) : Bool :=
  (s.frameOwner frame).isSome || (s.ctxs.any fun c => c.2.s2base / Config.frameBytes == frame) ||
    s.gates.any fun g => g.2.wlen != 0 && g.2.wpfn == frame
/-- A frame is in use: it holds something, or is retired. -/
def State.frameUsed (s : State) (frame : Nat) : Bool := s.mgmt.retired.contains frame || s.frameHeld frame
/-- The lowest platform frame of a group that is not in use (R299). -/
def State.platformFrame (s : State) (group : Nat) : Option Nat :=
  ((List.range (Config.framesPerGroup - Config.firstPlatform)).map fun i => group * Config.framesPerGroup + Config.firstPlatform + i).find?
    fun f => !s.frameUsed f
/-- The contents of a frame copied into another, poison marks included. -/
def State.copyFrame (s : State) (a b : Nat) : State :=
  let n := Config.frameBytes
  let inA (x : Nat) : Bool := decide (a * n ≤ x) && decide (x < (a + 1) * n)
  { s with
    dram := (s.dram.filter fun c => inA c.1).foldl (fun m c => Mem.set m (c.1 - a * n + b * n) c.2) (Mem.clear s.dram (b * n) n)
    dramTold := (s.dramTold.filter fun u => inA (64 * u)).foldl (fun p u => NSet.add p (u - a * n / 64 + b * n / 64))
      (s.dramTold.filter fun u => !(decide (b * n ≤ 64 * u) && decide (64 * u < (b + 1) * n)))
    dramPoison := (s.dramPoison.filter fun u => inA (64 * u)).foldl (fun p u => NSet.add p (u - a * n / 64 + b * n / 64))
      (s.dramPoison.filter fun u => !(decide (b * n ≤ 64 * u) && decide (64 * u < (b + 1) * n))) }
/-- A frame is zeroed, with its marks (R316). -/
def State.zeroFrame (s : State) (a : Nat) : State :=
  let n := Config.frameBytes
  let out (u : Nat) : Bool := !(decide (a * n ≤ 64 * u) && decide (64 * u < (a + 1) * n))
  { s with dram := Mem.clear s.dram (a * n) n, dramPoison := s.dramPoison.filter out, dramTold := s.dramTold.filter out }
/-- Every stage-2 entry that maps one frame maps another, and what lay in it moves with it (R315). -/
def State.remapFrame (s : State) (a b : Nat) : State :=
  { s with
    ctxs := s.ctxs.map fun (key, c) => (key, { c with
      s2base := if c.s2base / Config.frameBytes = a then b * Config.frameBytes + c.s2base % Config.frameBytes else c.s2base
      s2 := c.s2.map fun (g, e) => (g, if e.pfn = a then { e with pfn := b } else e) })
    gates := s.gates.map fun (g, r) => (g, if r.wlen ≠ 0 ∧ r.wpfn = a then { r with wpfn := b } else r) }
/-- Firmware retires a frame whose pin count is zero (R309, R315); the freed frame is zeroed (R316). -/
def execFrameRetire (frame : Nat) (s : State) : Out :=
  if s.pins frame ≠ 0 ∨ s.mgmt.retired.contains frame then .fault .noSuchStep
  else
    let retire (s : State) : State := { s with mgmt := { s.mgmt with retired := NSet.add s.mgmt.retired frame } }
    if !s.frameHeld frame then .next (retire s)
    else
      match s.platformFrame (groupOf frame) with
      | none => .next { s with mgmt := { s.mgmt with degraded := NSet.add s.mgmt.degraded (groupOf frame) } }
      | some b =>
        let keys := (s.ctxs.filter fun (_, c) => c.s2.any fun p => p.2.pfn == frame).map (·.1)
        let s := retire ((((s.zeroFrame b).copyFrame frame b).remapFrame frame b).zeroFrame frame)
        .next (keys.foldl (fun s key => (s.clearPorts key 0 (2 ^ 48)).retryLeases key) s)

end Sys2Proof.Machine
end

