-- ==== Sys2Proof/Machine/SaveArea.lean ====
section
/-!
DEFINITION. The layout of a context's save area (R367, R368): for each piece of a core's state its place in the core's section, how
it is read from the core, and how a value at that place is put back. Where the manual gives a region and not the packing in it, the
packing is the model's (assumption log 31). Guest-physical memory as firmware reads and writes it.
-/
namespace Sys2Proof.Machine

/-! ## One piece of a section -/

/-- A piece of state: offset in its section, bytes, and the core's value read and put back. -/
structure Place where
  off : Nat
  n : Nat
  get : Core → Nat
  put : Core → Nat → Core

/-- `n` places in a row, of `size` bytes each. -/
def row (off size n : Nat) (get : Nat → Core → Nat) (put : Nat → Core → Nat → Core) : List Place :=
  (List.range n).map fun i => ⟨off + size * i, size, get i, put i⟩
/-- A piece of the task in slot `sl`. -/
def slotPlace (sl off n : Nat) (get : Task → Nat) (put : Task → Nat → Task) : Place :=
  ⟨0x1B0000 + 0x8000 * sl + off, n,
   fun c => match SMap.find? c.slots sl with
     | none => 0
     | some k => get k,
   fun c v => match SMap.find? c.slots sl with
     | none => c
     | some k => { c with slots := SMap.set c.slots sl (put k v) }⟩

/-! ## The engine and the vector registers -/

/-- The accumulators, scale vectors and command count (R368). -/
def enginePlaces : List Place :=
  row 0x180000 4 16384 (fun k c => (c.mxe.acc0.read 32 0 k).toNat)
    (fun k c v => { c with mxe := { c.mxe with acc0 := c.mxe.acc0.write k (BitVec.ofNat 32 v) } })
  ++ row 0x190000 4 16384 (fun k c => (c.mxe.acc1.read 32 0 k).toNat)
    (fun k c v => { c with mxe := { c.mxe with acc1 := c.mxe.acc1.write k (BitVec.ofNat 32 v) } })
  ++ row 0x1A0000 4 512 (fun k c => (c.mxe.scale.read 32 0x3F800000 k).toNat)
    (fun k c v => { c with mxe := { c.mxe with scale := c.mxe.scale.write k (BitVec.ofNat 32 v) } })
  ++ [⟨0x1A0800, 4, fun c => c.mxe.count.toNat, fun c v => { c with mxe := { c.mxe with count := BitVec.ofNat 32 v } }⟩]
/-- `v`, `o`, `z` and `m` (R368). -/
def vectorPlaces : List Place :=
  row 0x1A1000 256 76 (fun k c => (c.vreg k).toNat) (fun k c v => c.setVreg k (BitVec.ofNat 2048 v))
  ++ row 0x1A5C00 8 8 (fun k c => (c.mreg k).toNat) (fun k c v => c.setMreg k (BitVec.ofNat 64 v))
/-- A window put back from its descriptor and status word. -/
def Core.putWindow (c : Core) (w v : Nat) : Core :=
  let st := v / 2 ^ 256
  if st.testBit 58 then
    { c with windows := SMap.set c.windows w ⟨BitVec.ofNat 256 v, st.testBit 63, fld st 62 59, st % 2 ^ 58⟩ }
  else { c with windows := SMap.erase c.windows w }
/-- Landing windows: descriptor and status word (R368). -/
def windowPlaces : List Place :=
  row 0x1A6000 40 64
    (fun w c => (match SMap.find? c.windows w with
      | some x => x.desc.toNat
      | none => 0) + 2 ^ 256 * (c.winStatus w).toNat)
    (fun w c v => c.putWindow w v)
/-- Barrier registrations: the `i`-th registered address, all ones where there is none (R368). -/
def barrierPlaces : List Place :=
  row 0x1A7000 4 64 (fun i c => c.bars.getD i 0xFFFFFFFF)
    (fun i c v =>
      let rest := match c.bars[i]? with
        | some b => NSet.del c.bars b
        | none => c.bars
      { c with bars := if v = 0xFFFFFFFF then rest else NSet.add rest v })

/-! ## The deque -/

/-- Entry `i` of a deque changed. -/
def Core.updEntry (c : Core) (i : Nat) (f : DqEntry → DqEntry) : Core :=
  { c with deque := c.deque.mapIdx fun j d => if j = i then f d else d }
/-- The deque: count, then record and TOPB copy of each entry (R368). -/
def dequePlaces : List Place :=
  ⟨0x1A8000, 4, fun c => c.deque.length, fun c v => { c with deque := c.deque.take v }⟩
  :: (row 0x1A8004 160 64
        (fun i c => match c.deque[i]? with
          | some d => d.rcd.toNat + 2 ^ 256 * d.topb.toNat
          | none => 0)
        (fun i c v => c.updEntry i fun d => { d with rcd := BitVec.ofNat 256 v, topb := BitVec.ofNat 1024 (v / 2 ^ 256) }))

/-! ## A task slot -/

/-- The state code of a slot (R368): 0 empty, 1 runnable, 2 parked, 3 active at the save; a task in prefetch counts as runnable. -/
def stateNumber : TState → Nat
  | .prefetching _ _ _ => 1
  | .runnable => 1
  | .active => 3
  | .parked _ => 2
/-- The state code put back: an edited slot is emptied, or its task made runnable. -/
def Core.putSlotState (c : Core) (sl v : Nat) : Core :=
  if v = 0 then
    { c with slots := SMap.erase c.slots sl
             active := if c.active = some sl then none else c.active
             prefetch := if c.prefetch = some sl then none else c.prefetch }
  else if v = 1 then
    { c with slots := SMap.upd c.slots { part := 0, fn := 0, ser := 0, sC := { ip := 0 }, sL := { ip := 0 }, sX := { ip := 0 }, sS := { ip := 0 } } sl
               fun k => { k with st := .runnable }
             active := if c.active = some sl then none else c.active }
  else c
/-- State, record and TOPB copy of slot `sl`. -/
def recordPlaces (sl : Nat) : List Place :=
  [⟨0x1B0000 + 0x8000 * sl, 4, fun c => match SMap.find? c.slots sl with
      | none => 0
      | some k => stateNumber k.st, fun c v => c.putSlotState sl v⟩,
   slotPlace sl 0x40 32 (fun k => k.rcd.toNat) (fun k v => { k with rcd := BitVec.ofNat 256 v }),
   slotPlace sl 0x60 128 (fun k => k.topb.toNat) (fun k v => { k with topb := BitVec.ofNat 1024 v })]
/-- The `a` banks: 32 registers of `C`, 16 each of `L`, `X` and `S`. -/
def bankPlaces (sl : Nat) : List Place :=
  let bank (t : Strand) (off n : Nat) : List Place := (List.range n).map fun i =>
    slotPlace sl (off + 8 * i) 8 (fun k => ((k.str t).reg i).toNat) (fun k v => k.updStr t fun x => x.setReg i (BitVec.ofNat 64 v))
  bank .C 0x100 32 ++ bank .L 0x200 16 ++ bank .X 0x280 16 ++ bank .S 0x300 16
/-- The 64 bytes of a strand: `p`, `q`, `lc0` to `lc3`, instruction pointer, word count and scoreboard. -/
def strandPlaces (sl : Nat) (t : Strand) : List Place :=
  let at_ (off n : Nat) (get : StrandSt → Nat) (put : StrandSt → Nat → StrandSt) : Place :=
    slotPlace sl (0x380 + 64 * t.code + off) n (fun k => get (k.str t)) (fun k v => k.updStr t fun x => put x v)
  [at_ 0 1 (fun x => x.p.toNat) (fun x v => { x with p := BitVec.ofNat 8 v ||| 1 }),
   at_ 1 1 (fun x => x.q.toNat) (fun x v => { x with q := BitVec.ofNat 8 v }),
   at_ 40 4 (fun x => x.ip) (fun x v => { x with ip := v }),
   at_ 48 8 (fun x => x.wc) (fun x v => { x with wc := v }),
   at_ 56 1 (fun x => x.tags.toNat) (fun x v => { x with tags := BitVec.ofNat 8 v })]
  ++ (List.range 4).map fun i =>
    at_ (8 + 8 * i) 8 (fun x => (x.loopCtr i).cnt.toNat + 2 ^ 32 * (x.loopCtr i).drn.toNat)
      (fun x v => { x with lc := SMap.set x.lc i ⟨BitVec.ofNat 32 v, BitVec.ofNat 4 (v / 2 ^ 32)⟩ })
/-- A header that names nothing, for reading control registers of a task that executes no word. -/
def noHdr (t : Strand) : Hdr := { str := t, tok := 0, pn := false, psel := 0, dst := 0, tal := 0, tc1 := 0, tc2 := 0 }
/-- Control registers 0 to 31 by number (R29, R368); reserved numbers are zero. -/
def cregPlaces (s : State) (core sl : Nat) : List Place :=
  (List.range 32).map fun n =>
    slotPlace sl (0x480 + 8 * n) 8
      (fun k =>
        if n = 0x0A then (k.statAt (s.cyc + 1)).toNat
        else if 0x14 ≤ n ∧ n < 0x18 then 0
        else (s.creg { core := core, slot := sl, t := .C, task := k, st := k.sC, h := noHdr .C } n).toNat)
      (fun k v => k.setCreg n (BitVec.ofNat 64 v) s.cyc)
/-- The twelve pairs of different strands, evaluator and reader. -/
def strandPairs : List (Nat × Nat) := (List.range 16).filterMap fun i => if i / 4 = i % 4 then none else some (i / 4, i % 4)
/-- The branch-outcome queues: target, count, and the flags taken, applied and valid of each entry. -/
def outcomePlaces (sl : Nat) : List Place :=
  ((List.range 12).zip strandPairs).flatMap fun (q, e, r) => (List.range 16).map fun i =>
    slotPlace sl (0x840 + 256 * q + 16 * i) 16
      (fun k => match (k.outcomes e r)[i]? with
        | some o => o.target + 2 ^ 32 * o.count + 2 ^ 64 * ((if o.taken then 1 else 0) + (if o.ap then 2 else 0) + 4)
        | none => 0)
      (fun k v =>
        let o : Outcome := ⟨0, v.testBit 64, v % 2 ^ 32, v / 2 ^ 32 % 2 ^ 32, v.testBit 65⟩
        { k with bq := SMap.upd k.bq [] (outKey e r) fun l => l.set i o })
/-- Walker resume point, token counts, scalar queues, branch outcomes, format table (R368). -/
def queuePlaces (sl : Nat) : List Place :=
  slotPlace sl 0x580 8 (fun k => k.step) (fun k v => { k with step := v })
  :: (List.range 16).flatMap (fun i =>
      [slotPlace sl (0x600 + i) 1 (fun k => (k.tok i).vis)
         (fun k v => { k with toks := SMap.upd k.toks ⟨0, 0, none⟩ i fun q => { q with vis := v } }),
       slotPlace sl (0x610 + i) 1 (fun k => (k.tok i).rsv)
         (fun k v => { k with toks := SMap.upd k.toks ⟨0, 0, none⟩ i fun q => { q with rsv := v } })])
  ++ (List.range 4).flatMap (fun q =>
      slotPlace sl (0x620 + q) 1 (fun k => (k.queue q).length) (fun k v => { k with sq := SMap.upd k.sq [] q (·.take v) })
      :: (List.range 16).map fun i =>
        slotPlace sl (0x640 + 128 * q + 8 * i) 8 (fun k => ((k.queue q).getD i 0).toNat)
          (fun k v => { k with sq := SMap.upd k.sq [] q fun l => l.set i (BitVec.ofNat 64 v) }))
  ++ outcomePlaces sl
/-- The format table. -/
def formatPlaces (sl : Nat) : List Place :=
  (List.range 16).map fun i =>
    slotPlace sl (0x1600 + 48 * i) 48
      (fun k => let f := k.entryAt i; f.a.toNat + 2 ^ 128 * f.b.toNat + 2 ^ 256 * f.o.toNat)
      (fun k v => { k with fmt := SMap.set k.fmt i ⟨BitVec.ofNat 128 v, BitVec.ofNat 128 (v / 2 ^ 128), BitVec.ofNat 128 (v / 2 ^ 256)⟩ })
/-- Everything of one task slot but its spill stores. -/
def taskPlaces (s : State) (core sl : Nat) : List Place :=
  recordPlaces sl ++ bankPlaces sl ++ ([Strand.C, .L, .X, .S].flatMap (strandPlaces sl)) ++ cregPlaces s core sl ++ queuePlaces sl
    ++ formatPlaces sl
/-- Everything of one core that has a place of its own (R368). -/
def corePlaces (s : State) (core : Nat) : List Place :=
  enginePlaces ++ vectorPlaces ++ windowPlaces ++ barrierPlaces ++ dequePlaces ++ ([0, 1, 2, 3].flatMap (taskPlaces s core))

/-! ## Memories: the scratchpad with its poison map, and the spill stores -/

/-- The poison map as bytes: bit `w` marks word `w` (R368). -/
def poisonMap (p : NSet) : Mem :=
  p.foldl (fun m w => Mem.set m (w / 8) (Mem.get m (w / 8) ||| BitVec.ofNat 8 (2 ^ (w % 8)))) []
/-- The marks of a poison map. -/
def poisonOfMap (m : Mem) : NSet :=
  m.flatMap fun c => ((List.range 8).filter fun i => c.2.getLsbD i).map fun i => 8 * c.1 + i
/-- The offset of a strand's spill store in a section. -/
def spillBase (sl : Nat) (t : Strand) : Nat := 0x1B0000 + 0x8000 * sl + 0x4000 + 0x1000 * t.code
/-- Bytes of a memory moved up by `d`. -/
def shift (d : Nat) (m : Mem) : List (Nat × Byte) := m.map fun c => (c.1 + d, c.2)
/-- The bytes of a section that hold memories. -/
def Core.memBytes (c : Core) : List (Nat × Byte) :=
  c.scratch ++ shift 0x1D0000 (poisonMap c.poison) ++ c.slots.flatMap fun (sl, k) =>
    [Strand.C, .L, .X, .S].flatMap fun t => shift (spillBase sl t) (k.str t).spill
/-- The bytes of a number at an offset. -/
def bytesAt (off n v : Nat) : List (Nat × Byte) := (leBytes v n).mapIdx fun i b => (off + i, b)
/-- Bytes whose format the manual does not give: unstarted commands, and the wake conditions of parked tasks; free values from
number `g` on (assumption log 1). -/
def Core.freeBytes (c : Core) (g : Nat) : List (Nat × Byte) :=
  (List.range c.mxe.queue.length).flatMap (fun i => bytesAt (0x1A0804 + 64 * i) 64 (Config.freeValue 512 (g + i)).toNat)
  ++ c.slots.flatMap fun (sl, k) => match k.st with
    | .parked _ => bytesAt (0x1B0000 + 0x8000 * sl + 4) 60 (Config.freeValue 480 (g + 16 + sl)).toNat
    | _ => []
/-- A core's section as bytes that are not zero. -/
def State.sectionBytes (s : State) (core g : Nat) (c : Core) : List (Nat × Byte) :=
  (c.memBytes ++ c.freeBytes g ++ (corePlaces s core).flatMap fun p => bytesAt p.off p.n (p.get c)).filter fun b => b.2 != 0

/-- A run of a section's bytes as a memory that begins at 0. -/
def window (m : Mem) (lo n : Nat) : Mem := (m.filter fun c => decide (lo ≤ c.1) && decide (c.1 < lo + n)).map fun c => (c.1 - lo, c.2)
/-- A core loaded from its section: as it stood at the save, with every place whose bytes have been edited since (R370, R373). -/
def State.loadSection (s : State) (core : Nat) (kept : Core) (m : Mem) : Core :=
  let marks := poisonOfMap (window m 0x1D0000 0x6000)
  let c := { kept with scratch := window m 0 Config.scratchBytes, poison := marks, told := kept.told.filter marks.contains }
  let c := (corePlaces s core).foldl (fun c p =>
    let v := Mem.read m p.off p.n
    if v = p.get kept then c else p.put c v) c
  { c with slots := c.slots.map fun (sl, k) =>
      (sl, [Strand.C, .L, .X, .S].foldl (fun k t => k.updStr t fun x => { x with spill := window m (spillBase sl t) 0x1000 }) k) }

/-! ## Guest-physical memory -/

/-- The runs of at most 64 KiB of a range of guest-physical addresses that stage 2 maps: physical address, offset in the range and
length; the range begins at a multiple of 64 KiB. -/
def State.guestRuns (s : State) (key ga n : Nat) : List (Nat × Nat × Nat) :=
  (List.range ((n + 65535) / 65536)).filterMap fun i =>
    (s.walk2 key (ga + 65536 * i)).map fun (pa, _) => (pa, 65536 * i, min 65536 (n - 65536 * i))
/-- The bytes of a range that are not zero, as a memory that begins at 0. -/
def State.guestBytes (s : State) (key ga n : Nat) : Mem :=
  (s.guestRuns key ga n).flatMap fun (pa, off, len) => shift off (window s.dram pa len)
/-- Some line of a range is poisoned. -/
def State.guestPoisoned (s : State) (key ga n : Nat) : Bool :=
  (s.guestRuns key ga n).any fun (pa, _, len) => s.isPoisoned ⟨none, pa⟩ len
/-- The stage-2 entries of a range are marked dirty (R305). -/
def State.dirtyRange (s : State) (key ga n : Nat) : State :=
  s.updCtx key fun c => { c with s2 := c.s2.map fun (g, e) =>
    if ga < (g + 1) * Config.frameBytes ∧ g * Config.frameBytes < ga + n then (g, { e with d := true }) else (g, e) }
/-- A range of guest-physical memory written whole: the bytes given, zeros elsewhere, and no poison. -/
def State.putGuest (s : State) (key ga n : Nat) (bs : List (Nat × Byte)) : State :=
  let runs := s.guestRuns key ga n
  let s := runs.foldl (fun s (pa, _, len) =>
    let out (u : Nat) : Bool := !(decide (pa < 64 * (u + 1)) && decide (64 * u < pa + len))
    { s with dram := Mem.clear s.dram pa len, dramPoison := s.dramPoison.filter out, dramTold := s.dramTold.filter out }) s
  let s := bs.foldl (fun s (off, b) => match s.walk2 key (ga + off) with
    | none => s
    | some (pa, _) => { s with dram := Mem.set s.dram pa b }) s
  s.dirtyRange key ga n

end Sys2Proof.Machine
end

