-- ==== Sys2Proof/Machine/Contexts.lean ====
section
/-!
DEFINITION. Pre-emption (R363 to R365), saving (R366 to R369, R372), restoring and the loss of a context (R370, R371), and the start of
its resident program (R278, R279).
-/
namespace Sys2Proof.Machine

/-! ## Completion of a firmware command (R399) -/

/-- A command has completed: its status and value, `CQHEAD`, and vector 0 (R399). -/
def State.complete (s : State) (fn : Nat) (htag : BitVec 32) (sts rval : Nat) : State :=
  s.updFn fn fun h => { h with done := h.done ++ [(htag, sts, rval)], headDone := h.headDone + 1, msix := h.msix ||| 1 }

/-! ## The start of a pre-emption (R363, R364) -/

/-- The cores of a context's partition. -/
def State.ctxCores (s : State) (key : Nat) : List Nat := s.coresOf (key / 128)
/-- The slot and task that are active on a core, if they are the context's. -/
def State.activeOf (s : State) (key n : Nat) : Option (Nat × Task) :=
  (s.core n).active.bind fun sl => (s.task? n sl).bind fun k => if k.key = key then some (sl, k) else none
/-- Slice End raised in the active task of a core (R363). While another trap is being taken or handled it is held, and its budget
counts from now (R391). Its `IP` and `STR` name no word, so they are free. -/
def State.raiseSliceEnd (s : State) (key occ n : Nat) : State :=
  match s.activeOf key n with
  | none => s
  | some (sl, k) =>
    let s' := s.raise n sl
      { cause := cSliceEnd, prec := 2, resume := .asIs, info := occ, ip := (Config.freeValue 32 s.fresh).toNat
        strand := Strand.ofCode (Config.freeValue 2 (s.fresh + 1)).toNat }
    let s' := if k.handler.isSome || k.trap.isSome then
        s'.updTask n sl fun k => { k with budgetEnd := some (s.cyc + min k.pbudget.toNat (s.hcap k.part)) }
      else s'
    { s' with fresh := s'.fresh + 2 }
/-- A context leaves every collective that it takes part in: the coordinator is told, or by it the others (R349, R353). A member that
still writes its record does so with status 2. -/
def State.withdrawAll (s : State) (key : Nat) (record : Bool) : State :=
  let mine := s.colls.filter fun c => c.key == key && c.withdrawn.isNone
  let s := mine.foldl (fun s c =>
    if c.coordinator = c.me then s.cctlAll c 1 (2 ^ c.me) 0 else s.cctl c c.coordinator 1 (2 ^ c.me) 0) s
  let out (c : Coll) : Coll :=
    if c.key = key ∧ c.withdrawn.isNone then { c with withdrawn := some 2, fmask := c.fmask ||| 2 ^ c.me } else c
  { s with colls := if record then s.colls.map out else s.colls.filter fun c => c.key != key }
/-- A context is pre-empted: occasion 0 slice end, 1 stop, 2 migration (R363). A stopped context fails in its collectives (R349). -/
def State.startSave (s : State) (key occ : Nat) : State :=
  let s := if occ = 1 then s.withdrawAll key true else s
  (s.ctxCores key).foldl (fun s n => (s.updCore n fun c => { c with waits := false }).raiseSliceEnd key occ n)
    (s.updCtx key fun c => { c with phase := .saving occ })
/-- Slot `t` lies in the save window of a function's slice, or outside its slice (R359). -/
def Partition.pastWork (p : Partition) (fn t : Nat) : Bool :=
  let (a, n) := p.slice fn
  let o := t % 4096
  !(decide (a ≤ o) && decide (o + p.saveSlots < a + n))
/-- A context may be pre-empted for an occasion now: the end of the work in its slice, or a request. -/
def State.sliceEnds (s : State) (key occ : Nat) : Bool :=
  decide ((s.ctx key).phase = .running) &&
    match s.partition? key with
    | some p => if occ = 0 then p.shared && p.pastWork (key % 128) s.slot else decide (occ ≤ 2)
    | none => false
/-- `SLICE_END` (R363). -/
def execSliceEnd (part fn occ : Nat) (s : State) : Out :=
  if s.sliceEnds (ctxKey part fn) occ then .next (s.startSave (ctxKey part fn) occ) else .fault .noSuchStep

/-! ## The forced save (R364, R365) -/

/-- The active task of a core that a forced save acts on now: its budget is spent, or a debugger has halted its context. -/
def State.forcedNow (s : State) (core : Nat) : Option (Nat × Task) :=
  (s.core core).active.bind fun sl =>
    (s.task? core sl).bind fun k =>
      match (s.ctx k.key).phase with
      | .saving occ =>
        let spent := match k.budgetEnd with
          | some t => decide (t ≤ s.cyc)
          | none => false
        if !(s.core core).quiet && k.ending.isNone && (occ == 3 || spent) then some (sl, k) else none
      | _ => none
/-- What a forced save makes of a flight: a fence or barrier wait is over, an arrival stands (R177, R182, R365). -/
def Flight.atFreeze (f : Flight) : Option Flight :=
  match f.op with
  | .fence _ _ _ | .barWait _ _ _ _ => none
  | .barArrive l false _ => some { f with op := .barArrive l true 84 }
  | _ => some f
/-- The strands at a forced save: each stands at the word it has not issued; an abandoned fence is issued again (R365). -/
def State.standStill (s : State) (n sl : Nat) (k : Task) : Task :=
  let fenceWord (x : StrandSt) : Option Nat := match x.wait with
    | .flight id => (s.flights.find? fun f => f.id == id && f.ofTask n sl).bind fun f => match f.op with
      | .fence _ _ _ => some f.ip
      | _ => none
    | _ => none
  let k := k.updAll fun x => match fenceWord x with
    | some ip => { x with ip := ip, wc := x.wc - 1, wait := .none }
    | none => { x with wait := .none }
  { k with rdv := .gathering, budgetEnd := none, budgetArm := none }
/-- `FORCED_SAVE` (R365): no strand issues another word, and abandoned waits are over; what is in flight lands later. -/
def execForcedSave (core : Nat) (s : State) : Out :=
  match s.forcedNow core with
  | none => .fault .noSuchStep
  | some (sl, k) =>
    let stood := s.standStill core sl k
    let ended := (s.flights.filter fun (f : Flight) => f.ofTask core sl).foldl s.endWait stood
    let s := { (s.setTask core sl ended) with
      flights := s.flights.filterMap fun (f : Flight) => if f.ofTask core sl then f.atFreeze else some f }
    .next (s.updCore core fun c => { c with quiet := true })

/-! ## The save (R366 to R369, R372) -/

/-- A flight that the save does not wait for: it is saved with the context. -/
def FOp.savable : FOp → Bool
  | .matrix _ | .barArrive _ _ _ => true
  | _ => false
/-- A far load or far atomic that has not performed: a save waits for it, unlike for a posted remote store (R253). -/
def FarReq.waitsSave (r : FarReq) : Bool := match r.kind with
  | .load _ _ _ _ _ | .atomic _ => true
  | _ => false
/-- A flight of a task of the context. -/
def State.flightOf (s : State) (key : Nat) (f : Flight) : Bool := match s.task? f.core f.slot with
  | some k => k.key == key
  | none => false
/-- The handler phase is over on every core, and everything that a save waits for has taken effect (R364, R365). -/
def State.settled (s : State) (key : Nat) : Bool :=
  (s.ctxCores key).all (fun n => ((s.activeOf key n).isNone || (s.core n).quiet) &&
    !((s.core n).mxe.queue.any fun c => c.running.isSome && !c.done) &&
    !((s.core n).slots.any fun p => p.2.key == key && p.2.ending.isSome))
  && !(s.flights.any fun f => s.flightOf key f && !f.op.savable)
  && !((s.ctx key).far.any FarReq.waitsSave)
  && !(s.packets.any fun p => p.ofKey key && p.running.isSome)
/-- The occasion of a save that can be made now. -/
def State.saveReady (s : State) (key : Nat) : Option Nat :=
  match (s.ctx key).phase with
  | .saving occ => if s.settled key then some occ else none
  | _ => none
/-- The packets of the context, each of which has ended its current unit, go back to their queues with the rest (R365). -/
def State.stopPackets (s : State) (key : Nat) : State := s.updPackets (fun p => p.ofKey key) fun p => { p with chosen := false }
/-- Every live booking of a context is cancelled as by `bkcan` (R371, R373). -/
def State.cancelAll (s : State) (key : Nat) : State :=
  (s.bu.bookings.filter fun b => ctxKey b.part b.fn == key && b.live).foldl (fun s b => s.cancelBooking b.handle .cancelled) s
/-- The TOPB copies of a context's walkers, in task-slot order and then deque order, `FIRST` set to the resume point (R372). -/
def State.walkerCopies (s : State) (key : Nat) : List (BitVec 1024) :=
  let cs := (s.ctxCores key).map s.core
  (cs.flatMap fun c => (c.slots.filter fun p => p.2.key == key && p.2.walker).map fun p =>
    BitVec.ofNat 1024 (setFld p.2.topb.toNat 863 832 p.2.step))
  ++ cs.flatMap fun c => (c.deque.filter fun d => ctxKey d.part d.fn == key && recf d.rcd 230 230 == 1).map fun d => d.topb
/-- The restart area is written at `RSTB` (R372). -/
def State.writeRestart (s : State) (key : Nat) : State :=
  match (s.ctx key).image with
  | none => s
  | some i =>
    let ts := s.walkerCopies key
    (s.updCtx key fun c => { c with restarts := ts.length }).writeVirt key i.rstb (leBytes ts.length 64 ++ (ts.take 256).flatMap fun t => leBytes t.toNat 128)
/-- Length of the save area of a context with so many cores (R367). -/
def saveLen (ncore : Nat) : Nat := 65536 + ncore * 2097152
/-- The header of a save area (R367). -/
def saveHeader (cyc sseq ncore part fn occ : Nat) : Nat :=
  1 * 2 ^ 64 + occ * 2 ^ 80 + fn * 2 ^ 89 + part * 2 ^ 96 + ncore * 2 ^ 102 + sseq % 2 ^ 64 * 2 ^ 128 + cyc % 2 ^ 64 * 2 ^ 192
/-- The save area of a context. -/
def State.saveBase (s : State) (key : Nat) : Nat := match (s.ctx key).image with
  | some i => i.saveb
  | none => 0
/-- The seal over an area as it stands, under the context's key and a sequence number (R369). -/
def State.sealNow (s : State) (key sseq : Nat) : BitVec 128 :=
  Config.sealOf (key + 2 ^ 14 * sseq) (s.guestBytes key (s.saveBase key) (saveLen (s.ctxCores key).length))
/-- The area is written: header, core numbers and sections, then sealed (R366 to R369). -/
def State.writeArea (s : State) (key occ : Nat) : State :=
  let cores := s.ctxCores key
  let sseq := (s.ctx key).sseq + 1
  let hd := bytesAt 0 32 (saveHeader s.cyc sseq cores.length (key / 128) (key % 128) occ)
    ++ (cores.mapIdx fun n c => bytesAt (64 + 2 * n) 2 c).flatten
  let secs := (cores.mapIdx fun n c => shift (65536 + n * 2097152) (s.sectionBytes c (s.fresh + 64 * n) (s.core c))).flatten
  let len := saveLen cores.length
  let s' := (s.putGuest key (s.saveBase key) len ((hd.filter fun b => b.2 != 0) ++ secs)).billWrite key len
  let s' := { s' with fresh := s'.fresh + 64 * cores.length }
  s'.updCtx key fun c => { c with sseq := sseq, sealVal := s'.sealNow key sseq }
/-- A core as it is kept for the restore: its leases are released, and no strand or prefetcher is held (R309). -/
def Core.keep (c : Core) : Core :=
  { c with quiet := false, waits := false, slots := c.slots.map fun (sl, k) => (sl, { k with lease := [], budgetEnd := none, budgetArm := none, leaseWait := none, leaseFull := false }) }
/-- The context leaves its cores, which are zeroed for the next owner (R316, R366). -/
def State.leaveCores (s : State) (key : Nat) : State :=
  let cores := s.ctxCores key
  let mine := s.flights.filter fun f => s.flightOf key f
  let kept := cores.mapIdx fun n c => (n, (s.core c).keep)
  let s' := { s with flights := s.flights.filter fun f => !s.flightOf key f, cores := s.cores.filter fun c => !cores.contains c.1 }
  s'.updCtx key fun c => { c with kept := kept, keptFlights := mine }
/-- The command that asked for a save completes (R366). -/
def State.tellStopper (s : State) (key : Nat) : State :=
  match (s.ctx key).stopper with
  | none => s
  | some (fn, htag) => (s.updCtx key fun c => { c with stopper := none }).complete fn htag 0 0
/-- A migration phase is complete: an entry in the physical function's ring, whose code and reason the manual does not give (R403). -/
def State.tellPhase (s : State) (key : Nat) : State :=
  { (s.hostEvent 0 (Config.freeValue 16 s.fresh).toNat (key / 128) (key % 128) (Config.freeValue 8 (s.fresh + 1)).toNat) with
    fresh := s.fresh + 2 }
/-- `CONTEXT_SAVE` (R366): a debugger halt cancels every booking first (R373). -/
def execContextSave (part fn : Nat) (s : State) : Out :=
  let key := ctxKey part fn
  match s.saveReady key with
  | none => .fault .noSuchStep
  | some occ =>
    let s := if occ = 3 then s.cancelAll key else s
    let s := ((s.stopPackets key).writeRestart key).writeArea key occ
    let s := ((s.leaveCores key).updCtx key fun c => { c with phase := .saved occ }).tellStopper key
    .next (if occ = 2 then s.tellPhase key else s)

/-! ## The start of a resident program (R278, R371, R402) -/

/-- The root task's record: `NOSTL` 1, `BH` 0, `FPR` 0, `ARG` the partition block (R278). -/
def Image.rootTask (i : Image) (ent : Nat) : BitVec 256 :=
  let r := i.rootrec.toNat
  BitVec.ofNat 256 (setFld (setFld (setFld (setFld r 229 229 1) 223 160 0) 159 128 ent) 63 0 i.pblk)
/-- A task of the image started on the lowest core of the partition with serial 0; `why` is 0 for the root task, else the reason of
the loss, with the restart count of R372 in `a2` (R278, R371). -/
def State.launch (s : State) (key why : Nat) : State :=
  match (s.ctx key).image, (s.ctxCores key).head? with
  | some i, some n =>
    let d : DqEntry := { rcd := i.rootTask (if why = 0 then recf i.rootrec 159 128 else i.rfent)
                         tvec := BitVec.ofNat 64 (i.tvec0 / 8 * 8), part := key / 128, fn := key % 128, src := n, root := true, entered := s.cyc }
    match (s.core n).slotFor false with
    | none => s
    | some sl =>
      (s.dispatch n d).updTask n sl fun k =>
        if why = 0 then k
        else k.updStr .C fun x => (x.setReg 2 (BitVec.ofNat 64 (s.ctx key).restarts)).setReg 3 (BitVec.ofNat 64 why)
  | _, _ => s

/-! ## The loss of a context (R371, R394, R408) -/

/-- The units of a context leave a footprint table. -/
def Hts.dropUnits (h : Hts) (key : Nat) : Hts :=
  let mine (u : FpUnit) : Bool := ctxKey u.part u.fn == key
  let dead := (h.table.filter mine).map (·.uid)
  { h with table := (h.table.filter fun u => !mine u).map fun u => { u with deps := u.deps.filter fun d => !dead.contains d } }
/-- The copy packets of a context that no cancel has ended leave their queues. -/
def Hts.dropPackets (h : Hts) (key : Nat) : Hts := { h with copies := h.copies.filter fun p => !(p.ofKey key && p.withdrawn == 0) }
/-- Everything that runs for a context is discarded: tasks, deque entries, commands, and the requests of its tasks. -/
def State.discardWork (s : State) (key : Nat) : State :=
  let cores := if (s.ctx key).present then s.ctxCores key else []
  let gone := (cores.flatMap fun n => (s.core n).deque.map (·.uid)) ++ (s.ctx key).kept.flatMap fun c => c.2.deque.map (·.uid)
  let s := gone.foldl (fun s u => s.repend u none) s
  let s := { s with
    flights := s.flights.filter fun f => !s.flightOf key f
    cores := s.cores.filter fun c => !cores.contains c.1
    htsReqs := s.htsReqs.filter fun r => ctxKey r.part r.fn != key || r.flight == 0
    bu := { s.bu with reqs := s.bu.reqs.filter fun r => ctxKey r.part r.fn != key || r.flight == 0 }
    hts := s.hts.map fun (p : Nat × Hts) => (p.1, p.2.dropUnits key) }
  s.updCtx key fun c => { c with
    kept := [], keptFlights := []
    far := c.far.filter fun r => r.isStore || r.isThird }
/-- A context is lost for a reason (R371, R394): its work is discarded, its bookings are cancelled, the host and the context are told,
and it starts again at `RFENT` if it may; while it is not present it does so in its next slice. -/
def State.loseContext (s : State) (key reason : Nat) (here restart : Bool) : State :=
  let s := (s.cancelAll key).discardWork key
  let s := { s with hts := s.hts.map fun (p : Nat × Hts) => (p.1, p.2.dropPackets key) }
  let s := s.updCtx key fun c => { c with lostReason := reason }
  let s := (s.event key cContextLost (detailAt 128 reason)).hostEvent (key % 128) cContextLost (key / 128) (key % 128) reason
  if !restart then s.updCtx key fun c => { c with phase := .lost, startAs := none }
  else if here then (s.updCtx key fun c => { c with phase := .running, startAs := none }).launch key reason
  else s.updCtx key fun c => { c with phase := .saved 0, startAs := some reason }

/-! ## The restore (R370, R371) -/

/-- Another context of the partition has the cores now. -/
def State.otherPresent (s : State) (key : Nat) : Bool :=
  s.ctxs.any fun c => c.1 != key && c.1 / 128 == key / 128 && c.2.present
/-- A saved context can be restored now: alone on its partition, or in its own slice before the save window (R359, R370). -/
def State.inSlice (s : State) (key : Nat) : Bool :=
  match s.partition? key with
  | some p => (!p.shared || !p.pastWork (key % 128) s.slot) && !s.otherPresent key
  | none => false
/-- `CONTEXT_RESTORE` has something to do. -/
def State.restoreReady (s : State) (key : Nat) : Bool := decide ((s.ctx key).phase = .saved 0) && s.inSlice key && s.mgmt.power == .ready
/-- The leases of the restored tasks are made again; a page that is not resident gives a Lease Pending event (R307, R370). -/
def State.remakeLeases (s : State) (key : Nat) : State :=
  s.cores.foldl (fun s (n, c) =>
    c.slots.foldl (fun s (sl, k) =>
      if k.key ≠ key then s
      else
        match k.st with
        | .prefetching _ start _ => s.tryLease n sl start
        | _ => s.remakeLease n sl) s) s
/-- Stage starts that moved while the context was away reach `BST` and the stamps (R162, R217). -/
def State.refreshStarts (s : State) (key : Nat) : State :=
  (s.bu.bookings.filter fun b => ctxKey b.part b.fn == key && b.live).foldl (fun s b =>
    ((List.range b.stages.length).zip b.stages).foldl (fun s (n, g) =>
      let was := s.cores.findSome? fun (_, c) =>
        (List.find? (fun (p : Nat × Task) => p.2.bhnd == b.handle && p.2.key == key) c.slots).map fun p =>
          (SMap.get p.2.bst (bstWord g.start) n).toNat % 2 ^ 58
      match was with
      | some w => if w = g.start then s else s.reportStart b.handle n g.start ((g.start : Int) - (w : Int))
      | none => s) s) s
/-- Parked tasks whose conditions hold now wake (R370 step 5). -/
def State.wakeRestored (s : State) (key : Nat) : State :=
  let s := (s.gates.map (·.1)).foldl (fun s g => s.wakeGate g) s
  let s := (s.ctxCores key).foldl (fun s n => (s.core n).windows.foldl (fun s (w, x) =>
    if x.rdy then s.wakeWindow n w x.status else s) s) s
  (s.ctx key).far.foldl (fun s r => s.finishLoad key r) s
/-- Steps 2 to 6 of a restore (R370). -/
def State.loadContext (s : State) (key : Nat) (area : Mem) : State :=
  let cores := s.ctxCores key
  let c := s.ctx key
  let s := { s with
    cores := cores.foldl (fun m n =>
      let i := (cores.findIdx? (· == n)).getD 0
      SMap.set m n (s.loadSection n (SMap.get c.kept {} i) (window area (65536 + i * 2097152) 2097152))) s.cores
    flights := s.flights ++ c.keptFlights
    agenda := c.notes.map (fun a => Instr.queueNotify (key / 128) (key % 128) (BitVec.ofNat 64 a)) ++ s.agenda
    loop := s.loop ++ c.heldReplies }
  let s := s.updCtx key fun c => { c with
    phase := .running, kept := [], keptFlights := [], notes := [], heldReplies := [] }
  let s := cores.foldl (fun s n => s.updCore n fun c => { c with waits := !s.mayRun key }) s
  (((s.remakeLeases key).refreshStarts key).applyAborts key).wakeRestored key
/-- What is wrong with a save area: 1 poisoned, 2 its seal or sequence does not match (R371). -/
def State.areaFault (s : State) (key : Nat) (area : Mem) : Option Nat :=
  let c := s.ctx key
  if s.guestPoisoned key (s.saveBase key) (saveLen (s.ctxCores key).length) then some 1
  else if Mem.read area 16 8 ≠ c.sseq % 2 ^ 64 ∨ s.sealNow key c.sseq ≠ c.sealVal then some 2
  else none
/-- A saved context is restored, or lost (R370, R371); one that has not started yet starts. -/
def State.restore (s : State) (key : Nat) : State :=
  match (s.ctx key).startAs with
  | some why => (s.updCtx key fun c => { c with phase := .running, startAs := none }).launch key why
  | none =>
    let len := saveLen (s.ctxCores key).length
    let area := s.guestBytes key (s.saveBase key) len
    let s := s.billRead key len
    match s.areaFault key area with
    | some r => s.loseContext key r true true
    | none =>
      let s := s.loadContext key area
      if (s.ctx key).resuming then (s.updCtx key fun c => { c with resuming := false }).tellPhase key else s
/-- `CONTEXT_RESTORE` (R370). -/
def execContextRestore (part fn : Nat) (s : State) : Out :=
  if s.restoreReady (ctxKey part fn) then .next (s.restore (ctxKey part fn)) else .fault .noSuchStep

end Sys2Proof.Machine
end

