-- ==== Sys2Proof/Machine/Firmware.lean ====
section
/-!
DEFINITION. The command queues (R399 to R401) and the firmware commands of partitions, contexts and images (R355 to R359, R402), gates
(R376, R403), routes, groups and jobs (R317 to R319, R329, R332).
-/
namespace Sys2Proof.Machine

/-! ## Descriptors (R399, R400) -/

/-- `n` operand bytes from byte `i` on. -/
def operand (d : Desc) (i n : Nat) : Nat := fld d.opnd.toNat (8 * (i + n) - 1) (8 * i)
/-- Every operand byte outside the ranges (first byte, count) is zero (R399). -/
def unusedZero (d : Desc) (used : List (Nat × Nat)) : Bool :=
  (List.range 48).all fun i => used.any (fun u => decide (u.1 ≤ i) && decide (i < u.1 + u.2)) || operand d i 1 == 0
/-- A stop or move of a context that the function asked for is running. -/
def State.stopping (s : State) (fn : Nat) : Bool := s.ctxs.any fun c => match c.2.stopper with
  | some (f, _) => f == fn
  | none => false
/-- A command of the function is running: it stops, moves or resets (R400). -/
def State.fnBusy (s : State) (fn : Nat) : Bool := s.stopping fn || (fn == 0 && s.host.any fun h => h.2.resetBy.isSome)
/-- A command of some function is running, and firmware takes no other: each is indivisible with respect to every other (R400). -/
def State.commandRuns (s : State) : Bool := (s.ctxs.any fun c => c.2.stopper.isSome) || s.host.any fun h => h.2.resetBy.isSome
/-- The functions with a descriptor that firmware may take. -/
def State.waitingFns (s : State) : List Nat :=
  if s.commandRuns then [] else (s.host.filter fun h => !h.2.queue.isEmpty && !h.2.flr).map (·.1)
/-- The descriptor that firmware takes next: the queues in turn, in ascending function number (R400). -/
def State.nextDesc (s : State) : Option (Nat × Desc) :=
  let fs := s.waitingFns
  let fn := match fs.find? fun f => decide (s.lastFn < f) with
    | some f => some f
    | none => fs.head?
  fn.bind fun f => (s.fnOf f).queue.head?.map fun d => (f, d)
/-- The descriptor leaves its queue. -/
def State.takeDesc (s : State) (fn : Nat) : State := { (s.updFn fn fun h => { h with queue := h.queue.tail }) with lastFn := fn }

/-- How a command ends: with a status, a value and a state; or later, when a save is complete. -/
inductive Cmd where
  | done (sts rval : Nat) (s : State)
  | later (s : State)
deriving DecidableEq, Repr
/-- Statuses of R399. -/
def cmdInvalid (s : State) : Cmd := .done 1 0 s
/-- R399. -/
def cmdNoResource (s : State) : Cmd := .done 3 0 s
/-- R399. -/
def cmdWrongState (s : State) : Cmd := .done 4 0 s
/-- R399. -/
def cmdOk (s : State) : Cmd := .done 0 0 s
/-- A command taken by firmware (R399 to R401, R404): only the next descriptor; Denied for a function that may not give it, Wrong
state in recovery, Invalid for an unused operand byte that is not zero. -/
def command (d : Desc) (vf recovery : Bool) (used : List (Nat × Nat)) (body : State → Cmd) (s : State) : Out :=
  match s.nextDesc with
  | none => .fault .noSuchStep
  | some (fn, d') =>
    if d' ≠ d then .fault .noSuchStep
    else if s.mgmt.power ≠ .ready then .fault .notPowered
    else
      let s := s.takeDesc fn
      if fn ≠ 0 ∧ !vf then .next (s.complete fn d.htag 2 0)
      else if s.mgmt.recovery ∧ !(recovery && fn == 0) then .next (s.complete fn d.htag 4 0)
      else if !unusedZero d used then .next (s.complete fn d.htag 1 0)
      else
        match body s with
        | .done sts v s' => .next (s'.complete fn d.htag sts v)
        | .later s' => .next s'

/-- The context of a function (R355): it is bound to at most one partition. -/
def State.ctxOfFn (s : State) (fn : Nat) : Option Nat := (List.find? (fun (c : Nat × Context) => c.1 % 128 == fn) s.ctxs).map (·.1)
/-- The context that bytes `i` and `i + 1` name (R401): a virtual function's command names its own, by name or by zeros. -/
def State.ctxArg (s : State) (d : Desc) (i : Nat) : Option Nat :=
  let p := operand d i 1
  let f := operand d (i + 1) 1
  if d.fn = 0 then (if f < 128 ∧ (SMap.find? s.ctxs (ctxKey p f)).isSome then some (ctxKey p f) else none)
  else (s.ctxOfFn d.fn).bind fun k => if (p = 0 ∧ f = 0) ∨ ctxKey p f = k then some k else none
/-- A command on the context of bytes 0 and 1; Invalid when there is none. -/
def State.onCtx (s : State) (d : Desc) (body : Nat → Context → Cmd) : Cmd :=
  match s.ctxArg d 0 with
  | none => cmdInvalid s
  | some key => body key (s.ctx key)

/-! ## Partitions (R355 to R359, R362) -/

/-- The granules of a mask. -/
def granulesOf (mask : Nat) : List Nat := (List.range Config.nGranules).filter mask.testBit
/-- The frames that firmware maps for a function on a granule: all partition frames, or one half of them on a shared partition
(R299, R305; assumption log 32), but for those of a list: retired frames, and pages that a migration left there for another context
(R315, R358). -/
def framesFor (out : List Nat) (shared second : Bool) (g : Nat) : List Nat :=
  let n := if shared then Config.firstPlatform / 2 else Config.firstPlatform
  ((List.range n).map fun i => g * Config.framesPerGroup + (if second then n else 0) + i).filter fun f => !out.contains f
/-- The stage-2 array of a new context (R305). -/
def stage2Of (out : List Nat) (mask : Nat) (shared second : Bool) : SMap S2Entry :=
  ((granulesOf mask).flatMap (framesFor out shared second)).mapIdx fun g f => (g, { pfn := f, w := true })
/-- Frames that are not mapped again: retired ones (R315), and those where a migration has left a page of some context (R358, R380). -/
def State.takenFrames (s : State) : List Nat :=
  s.mgmt.retired ++ s.ctxs.flatMap fun c => (c.2.s2.filter fun p => p.2.pp).map fun p => p.2.pfn
/-- The queue slots of a granule for a function: ten at its position in the cluster, or five of them (R283, R356; assumption log 33). -/
def slotsFor (shared second : Bool) (g : Nat) : List Nat :=
  let base := 10 * (g % 6)
  (List.range (if shared then 5 else 10)).map fun i => base + (if second then 5 else 0) + i
/-- The arbiter weights of a new context (R362): in each cluster the granules that its partition holds there, or 1. -/
def State.setWeights (s : State) (key mask : Nat) : State :=
  (List.range Config.nClusters).foldl (fun s cl =>
    s.updHts cl fun h => { h with weights := SMap.set h.weights key (max 1 ((granulesOf mask).countP fun g => g / 6 == cl)) }) s
/-- The queue slots of a granule given to a context. -/
def State.giveSlots (s : State) (key : Nat) (shared second : Bool) (g : Nat) : State :=
  s.updHts (g / 6) fun h => { h with qowner := (slotsFor shared second g).foldl (fun m i => SMap.set m i key) h.qowner }
/-- The platform frame that firmware gives a stage-2 array, from the granules of the partition where it can (R299, R305; assumption
log 32). -/
def State.arrayFrame (s : State) (mask : Nat) : Nat :=
  ((granulesOf mask ++ List.range Config.nGranules).findSome? s.platformFrame).getD Config.firstPlatform
/-- A context created on a partition (R355, R356, R362). -/
def State.createCtx (s : State) (part fn mask : Nat) (shared second : Bool) : State :=
  let key := ctxKey part fn
  let base := s.arrayFrame mask * Config.frameBytes
  let c : Context := { s2len := 5120 * (granulesOf mask).length, s2base := base, s2 := stage2Of s.takenFrames mask shared second }
  State.setWeights ((granulesOf mask).foldl (fun (s : State) g => s.giveSlots key shared second g)
    { s with ctxs := SMap.set s.ctxs key c }) key mask
/-- Both slices of a shared partition have a bookable part of at least 64 slots (R359). -/
def Partition.slicesOk (p : Partition) : Bool :=
  decide (1 ≤ p.split) && decide (p.split ≤ 63) &&
    [p.fn0, p.fn1].all fun f => decide (320 + p.saveSlots + 64 ≤ (p.slice f).2)
/-- `PART_CREATE` (R355 to R359). -/
def execPartCreate (d : Desc) (s : State) : Out :=
  command d false false [(0, 9), (10, 2)]
    (fun s =>
      let mask := operand d 0 6
      let fns := [operand d 6 1, operand d 7 1].filter (· != 0)
      let shared := fns.length == 2
      let p : Partition := ⟨mask, fns.headD 0, fns.getD 1 (fns.headD 0), if shared then operand d 8 1 else 0, operand d 10 2⟩
      if mask = 0 ∨ fns.any (fun f => decide (96 < f)) ∨ (shared && p.fn0 == p.fn1) ∨ (shared && !p.slicesOk) then cmdInvalid s
      else if s.parts.any (fun q => q.2.gmask &&& mask != 0) ∨ fns.any (fun f => (s.ctxOfFn f).isSome) then cmdWrongState s
      else
        match (List.range 48).find? fun i => (SMap.find? s.parts i).isNone with
        | none => cmdNoResource s
        | some part =>
          let s := { s with parts := SMap.set s.parts part p, bu := { s.bu with serials := SMap.erase s.bu.serials part } }
          let s :=
            if shared then (s.createCtx part (min p.fn0 p.fn1) mask true false).createCtx part (max p.fn0 p.fn1) mask true true
            else s.createCtx part p.fn0 mask false false
          .done 0 part s) s

/-- A context has stopped, or never started (R401). -/
def Context.stopped (c : Context) : Bool :=
  match c.phase with
  | .created => true
  | .saved occ => occ == 1
  | .lost => true
  | .destroyed => true
  | _ => false
/-- Frames of a list are zeroed (R316). -/
def State.zeroFrames (s : State) (fs : List Nat) : State :=
  let out (u : Nat) : Bool := !fs.contains (64 * u / Config.frameBytes)
  { s with dram := s.dram.filter fun c => !fs.contains (c.1 / Config.frameBytes)
           dramPoison := s.dramPoison.filter out, dramTold := s.dramTold.filter out }
/-- The frames of a context that are its own. -/
def Context.ownFrames (c : Context) : List Nat := (c.s2.filter fun p => !p.2.plat).map fun p => p.2.pfn
/-- What the schedulers hold for a context is cleared: counters, held pushes, queues, packets, serials, weights (R374 step 2, R401). -/
def Hts.clearKey (h : Hts) (key : Nat) (all : Bool) : Hts :=
  let h := h.dropUnits key
  { h with
    ctrs := h.ctrs.filter fun c => c.1 / 4096 != key
    heldPush := h.heldPush.filter fun d => ctxKey d.2.part d.2.fn != key
    qslots := h.qslots.filter fun q => ctxKey q.2.part q.2.fn != key
    qheld := h.qheld.filter fun q => q.1 / 256 != key
    copies := h.copies.filter fun p => !p.ofKey key
    qowner := if all then h.qowner.filter fun q => q.2 != key else h.qowner
    serials := if all then SMap.erase h.serials key else h.serials
    packets := if all then SMap.erase h.packets key else h.packets
    weights := if all then SMap.erase h.weights key else h.weights
    deficit := h.deficit.filter fun q => q.1 % 16384 != key }
/-- The same in every cluster. -/
def State.clearHts (s : State) (key : Nat) (all : Bool) : State :=
  { s with hts := s.hts.map fun (p : Nat × Hts) => (p.1, p.2.clearKey key all)
           htsReqs := s.htsReqs.filter fun r => ctxKey r.part r.fn != key }
/-- The recorded gate requests of a context lapse (R403). -/
def State.lapseRequests (s : State) (key : Nat) : State :=
  { s with gateReqs := s.gateReqs.filter fun r => ctxKey r.part r.fn != key }
/-- What the part still answers for a context that is destroyed: its job, and the routes by which it refuses (R325). -/
def State.leaveJob (s : State) (key : Nat) : State :=
  let c := s.ctx key
  match c.job with
  | none => s
  | some j => { s with gone := SMap.set s.gone j.job { phase := .destroyed, job := some j, routes := c.routes } }
/-- A context is destroyed with everything of its own zeroed (R316, R401). -/
def State.destroyCtx (s : State) (key : Nat) : State :=
  let s := ((((s.cancelAll key).discardWork key).refuseHeld key).clearHts key true).leaveJob key
  let s := ((s.zeroFrames (s.ctx key).ownFrames).lapseRequests key).clearPorts key 0 (2 ^ 48)
  { s with
    colls := s.colls.filter fun c => c.key != key
    collCount := s.collCount.filter fun c => c.1 / 256 != key
    collLate := s.collLate.filter fun c => c.1 / 256 != key
    digests := s.digests.filter fun h => h.1 != key
    ctxs := SMap.erase s.ctxs key }
/-- `PART_DESTROY` (R401). -/
def execPartDestroy (d : Desc) (s : State) : Out :=
  command d false false [(0, 1)]
    (fun s =>
      let part := operand d 0 1
      match SMap.find? s.parts part with
      | none => cmdInvalid s
      | some p =>
        let keys := (s.ctxs.filter fun c => c.1 / 128 == part).map (·.1)
        if keys.any fun k => !(s.ctx k).stopped then cmdWrongState s
        else
          let s := keys.foldl State.destroyCtx s
          let cores := (List.range Config.nCores).filter fun n => p.gmask.testBit (granuleOf n)
          cmdOk { s with parts := SMap.erase s.parts part, cores := s.cores.filter fun c => !cores.contains c.1 }) s

/-- A mapped frame that no lease holds and that nothing was ever written to: firmware may unmap it (assumption log 32). -/
def State.untouched (s : State) (e : S2Entry) : Bool :=
  !e.d && !e.plat && s.pins e.pfn == 0 && !(s.dram.any fun c => c.1 / Config.frameBytes == e.pfn)
/-- The contexts of a partition. -/
def State.ctxsOf (s : State) (part : Nat) : List Nat := (s.ctxs.filter fun c => c.1 / 128 == part).map (·.1)
/-- A partition is drained on a granule (R357). -/
def State.drainedOn (s : State) (part g : Nat) : Bool :=
  let cores := (List.range 16).map fun i => 16 * g + i
  cores.all (fun n => (s.core n).slots.isEmpty && (s.core n).deque.isEmpty && (s.cal n).isEmpty)
  && (s.cal (calNo 2 g)).isEmpty
  && !((s.htsOf (g / 6)).qslots.any fun q => q.2.part == part)
  && (s.ctxsOf part).all fun k => (s.ctx k).kept.isEmpty
/-- An entry of a context's stage-2 array that has no place when the array becomes one granule shorter: a frame of the group, or an entry
past the new end. -/
def Context.leavesWith (c : Context) (g : Nat) (p : Nat × S2Entry) : Bool := groupOf p.2.pfn == g || decide (c.s2len - 5120 ≤ p.1)
/-- Firmware unmaps what nothing was ever written to, before it looks at the conditions of a move (assumption log 32). -/
def State.unmapIdle (s : State) (key g : Nat) : State :=
  s.updCtx key fun c => { c with s2 := c.s2.filter fun p => !(c.leavesWith g p && s.untouched p.2) }
/-- A frame of the group is mapped to a context, or an entry lies past the end of its shorter array (R357). -/
def State.mapsGroup (s : State) (key g : Nat) : Bool := (s.ctx key).s2.any ((s.ctx key).leavesWith g)
/-- The stage-2 array of a context becomes one granule shorter. -/
def State.shortenArray (s : State) (key : Nat) : State := s.updCtx key fun c => { c with s2len := c.s2len - 5120 }
/-- The frames of a granule are mapped after the others of a context. -/
def State.mapGroup (s : State) (key g : Nat) (shared second : Bool) : State :=
  s.updCtx key fun c =>
    let first := c.s2.foldl (fun m p => max m (p.1 + 1)) 0
    { c with s2len := c.s2len + 5120
             s2 := c.s2 ++ (framesFor s.takenFrames shared second g).mapIdx fun i f => (first + i, { pfn := f, w := true }) }
/-- `GRAN_MOVE` (R357). -/
def execGranMove (d : Desc) (s : State) : Out :=
  command d false false [(0, 3)]
    (fun s =>
      let g := operand d 0 1
      let a := operand d 1 1
      let b := operand d 2 1
      match SMap.find? s.parts a, SMap.find? s.parts b with
      | some p, some q =>
        if Config.nGranules ≤ g ∨ !p.gmask.testBit g ∨ a = b then cmdInvalid s
        else
          let u := (s.ctxsOf a).foldl (fun s k => (s.unmapIdle k g).clearPorts k 0 (2 ^ 48)) s
          if p.gmask = 2 ^ g ∨ !s.drainedOn a g ∨ !s.drainedOn b g ∨ (s.ctxsOf a).any (fun k => u.mapsGroup k g) then cmdWrongState s
          else
            let s := (s.ctxsOf a).foldl (fun s k => s.shortenArray k) u
            let s := s.zeroFrames ((List.range Config.firstPlatform).map fun i => g * Config.framesPerGroup + i)
            let s := { s with
              cores := s.cores.filter fun c => granuleOf c.1 != g
              parts := SMap.set (SMap.set s.parts a { p with gmask := p.gmask - 2 ^ g }) b { q with gmask := q.gmask + 2 ^ g } }
            cmdOk ((s.ctxsOf b).foldl (fun s k =>
              let second := q.shared && k % 128 == max q.fn0 q.fn1
              ((s.mapGroup k g q.shared second).giveSlots k q.shared second g).retryLeases k) s)
      | _, _ => cmdInvalid s) s
/-- `ARB_WEIGHT` (R362). -/
def execArbWeight (d : Desc) (s : State) : Out :=
  command d false false [(0, 4)]
    (fun s => s.onCtx d fun key _ =>
      let cl := operand d 2 1
      let wt := operand d 3 1
      if Config.nClusters ≤ cl ∨ wt = 0 then cmdInvalid s
      else cmdOk (s.updHts cl fun h => { h with weights := SMap.set h.weights key wt })) s

/-! ## Memory of a context as firmware and the host reach it -/

/-- The pieces of a write at a guest-physical address, one for each byte, where stage 2 maps every byte and allows the write. -/
def State.guestPieces (s : State) (key ga : Nat) (bs : List Byte) : Option (List WPiece) :=
  ((List.range bs.length).zip bs).mapM fun (i, b) => match s.walk2 key (ga + i) with
    | some (pa, e) => if e.w then some (⟨none, pa⟩, 1, b.toNat) else none
    | none => none
/-- Bytes of host memory. -/
def State.hostBytes (s : State) (a n : Nat) : List Byte := Mem.readBytes s.hostMem a n
/-- Bytes written to host memory. -/
def State.putHost (s : State) (a : Nat) (bs : List Byte) : State := { s with hostMem := Mem.writeBytes s.hostMem a bs }
/-- `IMAGE_LOAD` (R401): bytes from host memory into the context. -/
def execImageLoad (d : Desc) (s : State) : Out :=
  command d true false [(0, 2), (8, 24)]
    (fun s => s.onCtx d fun key _ =>
      match s.guestPieces key (operand d 16 8) (s.hostBytes (operand d 8 8) (operand d 24 8)) with
      | none => cmdInvalid s
      | some ps => cmdOk ((s.billWrite key ps.length).perform key ps)) s
/-- `n` bytes at a guest-physical address as a number, where stage 2 maps them and none is poisoned. -/
def State.guestNat (s : State) (key ga n : Nat) : Option Nat :=
  ((List.range n).mapM fun i => (s.walk2 key (ga + i)).bind fun (pa, _) =>
    if s.isPoisoned ⟨none, pa⟩ 1 then none else some (Mem.get s.dram pa)).map leNat

/-! ## Contexts (R278, R402) -/

/-- A task record of an image that can make a task (R224). -/
def rootOk (r : Nat) : Bool :=
  fld r 255 255 == 0 && fld r 67 64 == 0 && fld r 159 128 % 8 == 0 && fld r 127 112 != 0 && fld r 230 230 == 0
/-- The image header keeps its limits (R402). -/
def headerOk (h : Nat) : Bool :=
  fld h 2047 1024 == 0 && fld h 511 384 == 0 && fld h 63 48 == 0 && fld h 31 0 == 0x3639584C && fld h 47 32 == 1
  && fld h 127 64 % 64 == 0 && fld h 191 128 % 65536 == 0 && fld h 255 192 % 64 == 0 && fld h 287 256 % 8 == 0
  && fld h 319 288 % 8 == 0 && fld h 383 320 % 4096 == 0 && rootOk (fld h 767 512)
/-- The image of a header. -/
def imageOf (h : Nat) : Image :=
  { pblk := fld h 127 64, saveb := fld h 191 128, rstb := fld h 255 192, rfent := fld h 287 256, tvec0 := fld h 319 288
    s1root := fld h 383 320, rootrec := BitVec.ofNat 256 (fld h 767 512), evtrec := BitVec.ofNat 256 (fld h 1023 768) }
/-- The partition block as it is first written: `GMASK`, and the event queue's `LOG2N` = 6 (R279). -/
def blockBytes (gmask : Nat) : List Byte := leBytes (gmask + 2 ^ (1024 + 704) * 6) 4352
/-- The partition block is written and the event slot mapped (R278, R279). The footprint that the event task's record names is read in the
scratchpad of the partition's lowest core as it stands now; one that breaks R208 gives no region (DEDUCED, assumption log 84). -/
def State.openBlock (s : State) (key : Nat) (i : Image) : State :=
  let gmask := match s.partition? key with
    | some p => p.gmask
    | none => 0
  let core := (s.ctxCores key).headD 0
  let entry : DqEntry := { rcd := i.evtrec, tvec := BitVec.ofNat 64 (i.tvec0 / 8 * 8), part := key / 128, fn := key % 128, src := core
                           regions := (s.footprint core (key / 128) (recf i.evtrec 223 192)).getD [] }
  let q : QMapping := { part := key / 128, fn := key % 128, qaddr := i.pblk + 128, npre := true, any := false, want := 0, core := core
                        entry := entry }
  (s.writeVirt key i.pblk (blockBytes gmask)).updCtx key fun c => { c with evMap := some q }
/-- M3 of a context: its image header, and the text of the root task as loaded (R405). -/
def State.measureText (s : State) (key ga : Nat) (i : Image) : List Byte :=
  (s.guestBytes key ga 256).map (·.2) ++
    (s.readVirt key (16 * recf i.rootrec 111 68) (80 * recf i.rootrec 127 112)).getD []
/-- `CTX_START` (R278, R402): on a shared partition outside the context's slice the start waits for it. -/
def execCtxStart (d : Desc) (s : State) : Out :=
  command d true false [(0, 2), (8, 8)]
    (fun s => s.onCtx d fun key c =>
      let ga := operand d 8 8
      if c.phase ≠ .created then cmdWrongState s
      else if ga % 64 ≠ 0 then cmdInvalid s
      else
        match s.guestNat key ga 256 with
        | none => cmdInvalid s
        | some h =>
          if !headerOk h then cmdInvalid s
          else
            let i := imageOf h
            let s := (s.updCtx key fun c => { c with image := some i }).openBlock key i
            let s := s.updCtx key fun c => { c with measured := s.measureText key ga i, phase := .saved 0, startAs := some 0 }
            cmdOk (if s.restoreReady key then s.restore key else s)) s
/-- `CTX_STOP` (R363, R366): complete when the context is saved; one that is saved already at a slice end stops as it is. -/
def execCtxStop (d : Desc) (s : State) : Out :=
  command d true false [(0, 2)]
    (fun s => s.onCtx d fun key c =>
      if c.migrating.isSome ∧ c.migStopped then cmdWrongState s
      else
        match c.phase with
        | .running => .later ((s.updCtx key fun c => { c with stopper := some (d.fn, d.htag) }).startSave key 1)
        | .saving 0 => .later ((s.withdrawAll key true).updCtx key fun c => { c with stopper := some (d.fn, d.htag), phase := .saving 1 })
        | .saved 0 => cmdOk ((s.withdrawAll key true).updCtx key fun c => { c with phase := .saved 1 })
        | _ => cmdWrongState s) s
/-- `CTX_RESUME` (R370, R373): at once, or in the context's next slice. -/
def execCtxResume (d : Desc) (s : State) : Out :=
  command d true false [(0, 2)]
    (fun s => s.onCtx d fun key c =>
      if c.phase ≠ .saved 1 ∧ c.phase ≠ .saved 3 then cmdWrongState s
      else
        let s := s.updCtx key fun c => { c with phase := .saved 0 }
        cmdOk (if s.restoreReady key then s.restore key else s)) s

/-! ## Gates (R376, R403) -/

/-- The fields of a gate request as recorded: bytes 0 to 4 and 8 to 39. -/
def reqBody (d : Desc) : Nat := operand d 0 5 + 2 ^ 64 * operand d 8 32
/-- The access list of a request. -/
def reqAcl (body : Nat) : List Nat := (List.range 8).map fun n => fld body (64 + 32 * n + 31) (64 + 32 * n)
/-- The contexts that an access list names. -/
def aclKeys (acl : List Nat) : List Nat := ((acl.filter fun a => a.testBit 31).map fun a => ctxKey (fld a 12 7) (fld a 6 0)).eraseDups
/-- A request keeps its limits (R375): a capacity, at most 32 units of window, and no reserved bit of an entry. -/
def reqOk (body : Nat) : Bool :=
  decide (fld body 15 0 < 4096) && fld body 23 16 != 0 && decide (fld body 39 32 ≤ 32) && (reqAcl body).all fun a => fld a 26 13 == 0
/-- The shared window's frame after the others of a context, as a platform frame (R376). -/
def State.mapWindow (s : State) (key f : Nat) : State :=
  s.updCtx key fun c =>
    match (List.range c.s2len).reverse.find? fun g => (SMap.find? c.s2 g).isNone with
    | none => c
    | some g => { c with s2 := SMap.set c.s2 g { pfn := f, w := true, plat := true } }
/-- A platform frame for the shared window of a requested gate, from the granules of the context that asks, or none needed (R299, R403). -/
def State.windowFrame (s : State) (key wlen : Nat) : Option Nat :=
  if wlen = 0 then some 0
  else (granulesOf (match s.partition? key with
    | some p => p.gmask
    | none => 0)).findSome? s.platformFrame
/-- `GATE_REQ` (R403). A number whose closed record is not free yet (R376) cannot be created again: the request that would create it gets No
resource (assumption log 85). -/
def execGateReq (d : Desc) (s : State) : Out :=
  command d true false [(0, 5), (6, 34)]
    (fun s =>
      let body := reqBody d
      let gno := fld body 15 0
      let keys := aclKeys (reqAcl body)
      match s.ctxArg d 6 with
      | none => cmdInvalid s
      | some key =>
        let others := s.gateReqs.filter fun r => r.gate == gno
        if !reqOk body ∨ !keys.contains key then cmdInvalid s
        else if (SMap.find? s.gates gno).any (fun g => g.state != 2) ∨ others.any (fun r => r.body != body) then cmdWrongState s
        else
          let wlen := fld body 39 32
          let mine : GateReq := ⟨key / 128, key % 128, gno, body⟩
          let reqs := others.filter (fun r => ctxKey r.part r.fn != key) ++ [mine]
          let rest := s.gateReqs.filter fun r => r.gate != gno
          match s.windowFrame key wlen with
          | none => cmdNoResource s
          | some f =>
            if !(keys.all fun k => reqs.any fun r => ctxKey r.part r.fn == k) then cmdOk { s with gateReqs := rest ++ reqs }
            else if (SMap.find? s.gates gno).isSome then cmdNoResource s
            else
              let g : Gate := { acl := reqAcl body, cap := fld body 23 16, refill := fld body 31 24, level := fld body 23 16
                                wlen := wlen, wpfn := f }
              let s := { s with gates := SMap.set s.gates gno g, gateReqs := rest }
              let s := if wlen = 0 then s else keys.foldl (fun s k => (s.mapWindow k f).retryLeases k) (s.zeroFrame f)
              .done 0 1 s) s
/-- A task waits for a gate: parked, or about to wake with its closing. -/
def Task.waitsGate (k : Task) (g : Nat) : Bool := match k.st with
  | .parked (.gate g' _ _ _) | .parked (.gateReady g' _ _) => g' == g
  | _ => false
/-- A closed gate's listed contexts have all been notified: no task waits for it, on a core or saved, and no lease holds its window
(R309, R376; assumption log 85). -/
def State.gateToFree (s : State) : Option (Nat × Gate) :=
  List.find? (fun (p : Nat × Gate) => p.2.state == 2 &&
    !(s.cores.any fun c => c.2.slots.any fun k => k.2.waitsGate p.1) &&
    !(s.ctxs.any fun c => c.2.kept.any fun k => k.2.slots.any fun t => t.2.waitsGate p.1) &&
    (p.2.wlen == 0 || s.pins p.2.wpfn == 0)) s.gates
/-- The record of a closed gate is freed (R376): its window leaves the stage-2 arrays, and the frame is zeroed (R316). -/
def State.freeGate (s : State) (n : Nat) (g : Gate) : State :=
  let s := { s with gates := SMap.erase s.gates n }
  if g.wlen = 0 then s
  else
    State.zeroFrame { s with portTlb := [], ctxs := s.ctxs.map fun (key, c) =>
      (key, { c with s2 := c.s2.filter fun p => !(p.2.plat && p.2.pfn == g.wpfn) }) } g.wpfn
/-- `GATE_CLOSE` (R376, R403): the waiters wake with status 4, queued signals are discarded, and recorded requests for the number
lapse. The record is freed when every listed context has been told. -/
def execGateClose (d : Desc) (s : State) : Out :=
  command d true false [(0, 4)]
    (fun s =>
      let gno := operand d 0 2
      match s.ctxArg d 2 with
      | none => cmdInvalid s
      | some key =>
        let lists (acl : List Nat) : Bool := (aclKeys acl).contains key
        let lapse (s : State) : State := { s with gateReqs := s.gateReqs.filter fun r => r.gate != gno }
        match SMap.find? s.gates gno with
        | some g => if lists g.acl then cmdOk (lapse (s.setGate gno { g with state := 2, queue := [] })) else cmdInvalid s
        | none =>
          if s.gateReqs.any fun r => r.gate == gno && lists (reqAcl r.body) then cmdOk (lapse s) else cmdInvalid s) s

/-! ## Routes, groups and jobs (R317 to R319, R329, R332) -/

/-- The contexts of a job. -/
def State.jobCtxs (s : State) (job : Nat) : List Nat :=
  (s.ctxs.filter fun c => match c.2.job with
    | some j => j.job == job
    | none => false).map (·.1)
/-- The context of a job on this part (R317). -/
def State.onJob (s : State) (d : Desc) (body : Nat → Cmd) : Cmd :=
  match (s.jobCtxs (operand d 0 2)).head? with
  | none => cmdInvalid s
  | some key => body key
/-- A table of 8-byte entries in host memory: those that are not zero, by index. -/
def State.hostTable (s : State) (a n : Nat) : SMap Nat :=
  (s.hostMem.filter fun c => decide (a ≤ c.1) && decide (c.1 < a + 8 * n)).foldl
    (fun m c => SMap.upd m 0 ((c.1 - a) / 8) fun v => v + c.2.toNat * 256 ^ ((c.1 - a) % 8)) []
/-- A route entry keeps its limits (R319): its reserved bits are zero, and one that is valid has a path of 1 to 8 hops. -/
def routeOk (v : Nat) : Bool :=
  fld v 61 36 == 0 && (!v.testBit 63 || (decide (1 ≤ fld v 35 32) && decide (fld v 35 32 ≤ 8) && fld v 31 0 / 16 ^ fld v 35 32 == 0))
/-- `ROUTE_LOAD` (R319, R401): the whole route table of the job's context, an entry of 8 bytes for each (destination, route). -/
def execRouteLoad (d : Desc) (s : State) : Out :=
  command d false false [(0, 2), (8, 8)]
    (fun s => s.onJob d fun key =>
      let t := s.hostTable (operand d 8 8) 16384
      if t.all fun p => routeOk p.2 then
        cmdOk (s.updCtx key fun c => { c with routes := t.map fun p => (p.1, BitVec.ofNat 64 p.2) })
      else cmdInvalid s) s
/-- `GROUP_LOAD` (R332, R401). -/
def execGroupLoad (d : Desc) (s : State) : Out :=
  command d false false [(0, 4), (8, 8)]
    (fun s => s.onJob d fun key =>
      let n := operand d 3 1
      let ms := (List.range n).map fun i => leNat (s.hostBytes (operand d 8 8 + 2 * i) 2)
      if n = 0 ∨ 64 < n ∨ ms.any (fun m => decide (4096 ≤ m)) then cmdInvalid s
      else cmdOk (s.updCtx key fun c => { c with groups := SMap.set c.groups (operand d 2 1) ms })) s
/-- Bytes 2 to 8 of `JOB_BIND`. -/
def bindOf (d : Desc) : JobBind := ⟨operand d 2 2, operand d 4 2, operand d 6 2, operand d 8 1⟩
/-- A binding would join two contexts of the part in one job, move a context to another job, or give a port to two jobs (R317, R318). -/
def State.bindClash (s : State) (key : Nat) (j : JobBind) : Bool :=
  s.ctxs.any fun c => match c.2.job with
    | none => false
    | some o => if c.1 = key then o.job != j.job else o.job == j.job || o.ports &&& j.ports != 0
/-- A context enters a job: the counts of stores and collectives of that job begin (R328, R335), and firmware has the fabric manager's timing tree
for the ports, which no command of R401 carries, so that it is free (R331; assumption log 93). -/
def State.enterJob (s : State) (key : Nat) (j : JobBind) : State :=
  let new : Bool := match (s.ctx key).job with
    | some o => o.job != j.job
    | none => true
  let s := s.updCtx key fun c => if new then { c with job := some j, sent := [], arrived := [] } else { c with job := some j }
  { s with
    gone := SMap.erase s.gone j.job
    collCount := if new then s.collCount.filter fun c => c.1 / 256 != key else s.collCount
    fresh := s.fresh + 2
    mgmt := { s.mgmt with
      beaconRoot := s.mgmt.beaconRoot || Config.freeBool s.fresh
      beaconPorts := (s.mgmt.beaconPorts ^^^ (s.mgmt.beaconPorts &&& j.ports)) ||| ((Config.freeValue 16 (s.fresh + 1)).toNat &&& j.ports) } }
/-- `JOB_BIND` (R317, R318, R329). -/
def execJobBind (d : Desc) (s : State) : Out :=
  command d false false [(0, 9)]
    (fun s => s.onCtx d fun key _ =>
      let j := bindOf d
      if 4096 ≤ j.job ∨ 4096 ≤ j.dev ∨ j.tmoMs = 0 ∨ 64 < j.tmoMs then cmdInvalid s
      else if s.bindClash key j then cmdWrongState s
      else cmdOk (s.enterJob key j)) s

/-! ## Counters, attestation, debugger and patches (R373, R381, R384, R404, R405) -/

/-- The eight counters in the order of the block, from `SNAP` up (R381). -/
def Counters.words (c : Counters) : List Nat :=
  [c.snap, c.mbusy, c.vbusy, c.copyb, c.dramr, c.dramw, c.fabb, c.energy].map fun w => w.toNat
/-- `CNT_READ` (R384): one snapshot written to host memory. -/
def execCntRead (d : Desc) (s : State) : Out :=
  command d false false [(0, 2), (8, 8)]
    (fun s => s.onCtx d fun _ c =>
      cmdOk (s.putHost (operand d 8 8) (c.counters.words.flatMap fun w => leBytes w 8))) s
/-- What M2 covers (R405): the partition table, the gate records' firmware fields, and the route and group tables. -/
def State.config (s : State) : List Byte :=
  (s.parts.flatMap fun (n, p) => leBytes n 1 ++ leBytes p.gmask 6 ++ [p.fn0, p.fn1, p.split].flatMap (fun v => leBytes v 1) ++ leBytes p.hcap 2)
  ++ (s.gates.flatMap fun (n, g) => leBytes n 2 ++ g.acl.flatMap (fun a => leBytes a 4) ++ [g.cap, g.refill, g.wlen].flatMap (fun v => leBytes v 1)
    ++ leBytes g.wpfn 4)
  ++ s.ctxs.flatMap fun (k, c) => leBytes k 2 ++ c.routes.flatMap (fun r => leBytes r.1 2 ++ leBytes r.2.toNat 8)
    ++ c.groups.flatMap fun g => leBytes g.1 1 ++ g.2.flatMap fun m => leBytes m 2
/-- A report without its signature (R405). -/
def State.reportBody (s : State) (nonce : List Byte) (m3 : Option (List Byte)) : List Byte :=
  nonce ++ Sha384.digest Config.rom ++ Sha384.digest s.mgmt.running ++ Sha384.digest s.config ++ match m3 with
    | some t => Sha384.digest t
    | none => []
/-- A report with the signature over the digest of everything before it (R405). -/
def State.report (s : State) (nonce : List Byte) (m3 : Option (List Byte)) : List Byte :=
  let body := s.reportBody nonce m3
  body ++ leBytes (Config.signReport (Sha384.digest body)).toNat 96
/-- `ATTEST` (R405): M3 is that of the named context; bytes 0 and 1 of zero name none where context (0, 0) does not exist. -/
def execAttest (d : Desc) (s : State) : Out :=
  command d true true [(0, 2), (8, 40)]
    (fun s =>
      let key := s.ctxArg d 0
      if key.isNone ∧ (d.fn ≠ 0 ∨ operand d 0 2 ≠ 0) then cmdInvalid s
      else
        cmdOk (s.putHost (operand d 8 8) (s.report (leBytes (operand d 16 32) 32) (key.map fun k => (s.ctx k).measured)))) s
/-- `DBG_ATTACH` (R113, R373). -/
def execDbgAttach (d : Desc) (s : State) : Out :=
  command d false false [(0, 2)] (fun s => s.onCtx d fun key _ => cmdOk (s.updCtx key fun c => { c with debugger := true })) s
/-- `DBG_DETACH` (R373): a halted context stays halted until it is resumed. -/
def execDbgDetach (d : Desc) (s : State) : Out :=
  command d false false [(0, 2)] (fun s => s.onCtx d fun key _ => cmdOk (s.updCtx key fun c => { c with debugger := false })) s
/-- The area of a context is sealed again (R373). -/
def State.reseal (s : State) (key : Nat) : State := s.updCtx key fun c => { c with sealVal := s.sealNow key c.sseq }
/-- `DBG_MEM` (R373): byte 2 is 0 to read a halted context's bytes into host memory and 1 to edit them from there; bytes 8 to 15
hold the host address, 16 to 23 the guest-physical address, and 24 to 31 the length. -/
def execDbgMem (d : Desc) (s : State) : Out :=
  command d false false [(0, 3), (8, 24)]
    (fun s => s.onCtx d fun key c =>
      let ha := operand d 8 8
      let ga := operand d 16 8
      let n := operand d 24 8
      if !c.debugger ∨ c.phase ≠ .saved 3 then cmdWrongState s
      else if operand d 2 1 = 0 then
        match s.guestNat key ga n with
        | none => cmdInvalid s
        | some v => cmdOk (s.putHost ha (leBytes v n))
      else if operand d 2 1 = 1 then
        match s.guestPieces key ga (s.hostBytes ha n) with
        | none => cmdInvalid s
        | some ps => cmdOk ((s.perform key ps).reseal key)
      else cmdInvalid s) s
/-- `PATCH_LOAD` (R404): a bundle that fails its checks is not written. -/
def execPatchLoad (d : Desc) (s : State) : Out :=
  command d false true [(8, 16)]
    (fun s =>
      let b := s.hostBytes (operand d 8 8) (operand d 16 8)
      if Config.bundleValid b then cmdOk { s with mgmt := { s.mgmt with flash := b } } else .done 6 0 s) s

end Sys2Proof.Machine
end

