-- ==== Sys2Proof/Machine/Links.lean ====
section
/-!
DEFINITION. The ports of the fabric: virtual channels and credits (R321), booked shares (R255), forwarding and route failure (R318, R326),
and beacons (R331).
-/
namespace Sys2Proof.Machine

/-- The link of a port is up. -/
def State.linkUp (s : State) (port : Nat) : Bool := (SMap.get s.mgmt.links (true, 0) port).1
/-- The latency of a port's link in slots, measured at link training. -/
def State.linkLatency (s : State) (port : Nat) : Nat := (SMap.get s.mgmt.links (true, 0) port).2

/-! ## A route that has failed (R326) -/

/-- The type of a request's packet (R323). -/
def FarReq.pktType (r : FarReq) : Nat := match r.kind with
  | .load _ _ _ _ _ => 0
  | .store ord => if ord then 3 else 2
  | .atomic _ => 4
  | .third _ _ _ _ _ _ _ _ _ _ _ _ => 8
/-- The own request whose packet an LDOWN names: by originator, tag, and the type of the discarded packet in `STS` (R326). -/
def FarReq.named (r : FarReq) (c : Context) (p : Pkt) : Bool :=
  r.tag == p.tag.toNat && p.rqdev.toNat == c.devNo && p.status.toNat == r.pktType
/-- The route to a device whose ports an LDOWN names (R319, R326): the device in `OPND`, the ports in `ADDR` (assumption log 90). -/
def Context.failedRoute (c : Context) (p : Pkt) : Option Nat :=
  (List.range 4).find? fun r => (c.route (p.opnd.toNat % 4096) r).testBit 63 && fld (c.route (p.opnd.toNat % 4096) r) 31 0 == p.addr.toNat
/-- A route that has failed is used no more (R326). -/
def Context.routeDown (c : Context) (p : Pkt) : Context :=
  match c.failedRoute p with
  | none => c
  | some r =>
    let k := 4 * (p.opnd.toNat % 4096) + r
    { c with routes := SMap.set c.routes k (SMap.get c.routes 0 k ||| BitVec.ofNat 64 (2 ^ 62)) }
/-- LDOWN arrives (R326): the route that it names is down, and the request whose packet it names completes. -/
def execLdown (p : Pkt) (s : State) : Out :=
  match s.arrival p with
  | none => .next (s.unserved p)
  | some (key, _) =>
    let s := (s.received key p).updCtx key fun c => c.routeDown p
    match (s.ctx key).far.find? fun r => r.named (s.ctx key) p with
    | none => .next s
    | some r =>
      .next (if !(s.ctx key).present && !r.isStore then s.holdReply key r.tag p else match r.kind with
        | .load _ _ _ _ _ => s.failLoad key r 9
        | .atomic flight => (s.loseAtomic key r flight).statusOf key r 9 3
        | .third _ _ _ _ _ _ _ _ _ _ _ _ => s.finishThird key r
        | .store _ => s)
/-- A packet whose next link is down is discarded, and its source is told, at most once per route in 4,096 slots (R326). -/
def State.dropPacket (s : State) (p : Pkt) : State :=
  let last := SMap.get s.mgmt.ldownSent 0 p.routeKey
  if last ≠ 0 ∧ s.slot < last - 1 + 4096 then s
  else
    match s.ctxOfJob p.job.toNat with
    | none => s
    | some (key, _) =>
      State.sendOff { s with mgmt := { s.mgmt with ldownSent := SMap.set s.mgmt.ldownSent p.routeKey (s.slot + 1) } } key p.sdev.toNat
        { ty := 15, tag := p.tag, addr := BitVec.ofNat 64 p.route.toNat, opnd := BitVec.ofNat 64 p.ddev.toNat, rti := p.rti, rqdev := p.rqdev
          cls := p.cls, status := BitVec.ofNat 8 p.ty }

/-! ## Forwarding (R318, R321) -/

/-- Every packet that waits at a port. -/
def State.allWaiting (s : State) : List Pkt := s.net.queues.flatMap (·.2)
/-- Flits of packets in forwarding that still take the buffer of an incoming port's virtual channel. -/
def State.heldFlits (s : State) (port vc : Nat) : Nat :=
  (s.allWaiting.filter fun p => p.hop != 0 && p.inPort.toNat == port && p.vc == vc + 1).foldl (fun n p => n + p.flits) 0
/-- A packet for another device arrives and takes its place at the port of its next hop (R321), unless the part does not forward it (R318, R322)
or that link is down (R326). A neighbour sends only what the virtual channel has room for. -/
def execPacketForward (p : Pkt) (s : State) : Out :=
  match s.ctxOfJob p.job.toNat with
  | none => .next s.discard
  | some (_, c) =>
    let q := { p with hop := p.hop + 1 }
    match c.job with
    | none => .next s.discard
    | some j =>
      if !j.accepts p ∨ p.inside ∨ p.nhop.toNat ≤ p.hop.toNat + 1 ∨ !j.ports.testBit q.port then .next s.discard
      else if Config.vcFlits < s.heldFlits p.inPort.toNat p.vc + p.flits then .fault .noSuchStep
      else if s.linkUp q.port then .next (s.toPort q) else .next (s.dropPacket p)

/-! ## Ports (R255, R321) -/

/-- The partition for which a packet travels. -/
def State.pktPart (s : State) (p : Pkt) : Option Nat := (s.ctxOfJob p.job.toNat).map fun x => x.1 / 128
/-- The partition for which an interval holds an engine. -/
def State.intervalPart (s : State) (i : Interval) : Option Nat :=
  if i.dev = 0 then some (i.handle.toNat / 2 ^ 26) else (s.ctxOfJob i.job).map fun x => x.1 / 128
/-- The bytes of a cycle that the intervals of a partition hold on a port in the present slot (R255). -/
def State.portShare (s : State) (port : Nat) (part : Option Nat) : Nat :=
  let is := (s.cal (calNo 3 port)).filter fun i => i.at? s.slot && s.intervalPart i == part
  Config.portBytes * is.foldl (fun n i => n + i.cap) 0 / 8
/-- The packets that a port can send now: the oldest of each virtual channel for which there are credits (R321). -/
def State.sendable (s : State) (port : Nat) : List Pkt :=
  (List.range 16).filterMap fun vc => (s.waiting port vc).head?.bind fun p =>
    if SMap.get s.net.used 0 (16 * port + vc) + p.flits ≤ Config.vcFlits then some p else none
/-- The oldest packet of a virtual channel leaves, and takes room in the buffer at the other end (R321). -/
def State.sendHead (s : State) (port vc : Nat) (p : Pkt) : State :=
  { s with
    outbox := s.outbox ++ [p]
    net := { s.net with
      queues := SMap.set s.net.queues (16 * port + vc) (s.waiting port vc).tail
      used := SMap.upd s.net.used 0 (16 * port + vc) (· + p.flits) } }
/-- One of some packets; which of several is free, for the manual names no order among virtual channels (assumption log 88). -/
def State.pickPacket (s : State) (ps : List Pkt) : Option Pkt × State :=
  match ps with
  | [] => (none, s)
  | [p] => (some p, s)
  | ps => (ps[(Config.freeValue 4 s.fresh).toNat % ps.length]?, { s with fresh := s.fresh + 1 })
/-- A port sends in a cycle until `left` bytes are sent: first for each partition what it holds of the port, then any traffic (R255). What the last
packet has over counts against the next cycle. `sent` lists the bytes sent for each partition. -/
def State.portCycle (s : State) (port : Nat) : Nat → Nat → List (Option Nat × Nat) → Nat × State
  | 0, _, _ => (0, s)
  | fuel + 1, left, sent =>
    let ps := s.sendable port
    let done (part : Option Nat) : Nat := ((sent.filter fun x => x.1 == part).map (·.2)).foldl (· + ·) 0
    let booked := ps.filter fun p => decide (done (s.pktPart p) < s.portShare port (s.pktPart p))
    match s.pickPacket (if booked.isEmpty then ps else booked) with
    | (none, s) => (0, s)
    | (some p, s) =>
      let s' := s.sendHead port p.vc p
      if left ≤ p.bytes then (p.bytes - left, s') else s'.portCycle port fuel (left - p.bytes) (sent ++ [(s.pktPart p, p.bytes)])
/-- A cycle of a port: what waits for a link that is down is discarded (R326), else packets leave. -/
def State.runPort (s : State) (port : Nat) : State :=
  let mine (k : Nat) : Bool := k / 16 == port
  if s.linkUp port then
    let owed := SMap.get s.net.debt 0 port
    let (more, s) := if Config.portBytes ≤ owed then (owed - Config.portBytes, s) else s.portCycle port 4 (Config.portBytes - owed) []
    { s with net := { s.net with debt := SMap.set s.net.debt port more } }
  else
    let ps := (s.net.queues.filter fun q => mine q.1).flatMap (·.2)
    ps.foldl State.dropPacket { s with net := { s.net with
      queues := s.net.queues.filter fun q => !mine q.1, used := s.net.used.filter fun u => !mine u.1, debt := SMap.erase s.net.debt port } }
/-- The neighbours give back credits for flits that have left their buffers; how many is theirs to say, hence free (R321; assumption log 88). -/
def State.takeCredits (s : State) : State :=
  { s with
    fresh := s.fresh + s.net.used.length
    net := { s.net with used := (s.net.used.mapIdx fun i u => (u.1, u.2 - (Config.freeValue 3 (s.fresh + i)).toNat)).filter fun u => u.2 != 0 } }
/-- A cycle of the ports. -/
def State.runPorts (s : State) : State :=
  let busy := (s.net.queues.filter fun q => !q.2.isEmpty).map (·.1 / 16) ++ s.net.debt.map (·.1)
  ((List.range 16).filter busy.contains).foldl State.runPort s.takeCredits

/-! ## Beacons (R331) -/

/-- The ports of a mask, rising. -/
def portsOf (mask : Nat) : List Nat := (List.range 16).filter mask.testBit
/-- The fabric job that a port is assigned to, with the context's key and number in it (R318). -/
def State.jobOfPort (s : State) (port : Nat) : Option (Nat × JobBind) :=
  s.ctxs.findSome? fun (key, c) => c.job.bind fun j => if j.ports.testBit port then some (key, j) else none
/-- A beacon with a root slot sent on every port of the timing tree that leads away from the root (R331), in the job of the port (R318). -/
def State.passBeacon (s : State) (rootSlot : Nat) : State :=
  (portsOf s.mgmt.beaconPorts).foldl (fun s port => match s.jobOfPort port with
    | none => s
    | some (key, j) => s.toPort { ty := 14, opnd := BitVec.ofNat 64 rootSlot, job := BitVec.ofNat 12 j.job, sdev := BitVec.ofNat 12 j.dev
                                  spart := BitVec.ofNat 6 (key / 128), route := BitVec.ofNat 32 port }) s
/-- A beacon arrives (R331). -/
def execBeacon (p : Pkt) (s : State) : Out :=
  if (s.arrival p).isNone then .next s.discard
  else
    let root := p.opnd.toNat + s.linkLatency p.inPort.toNat
    .next (State.passBeacon { s with bu := { s.bu with beaconOff := (root : Int) - (s.slot : Int), lastBeacon := s.slot, synced := true } } root)
/-- The timing root sends a beacon every 4,096 slots (R331). -/
def execBeaconSend (s : State) : Out :=
  if !s.mgmt.beaconRoot ∨ s.slot % 4096 ≠ 0 ∨ s.mgmt.lastBeaconSent = s.slot + 1 then .fault .noSuchStep
  else .next { (s.passBeacon s.slot) with mgmt := { s.mgmt with lastBeaconSent := s.slot + 1 } }
/-- No beacon for 16,384 slots (R331). -/
def State.beaconsLost (s : State) : Bool := s.bu.synced && !s.mgmt.beaconRoot && decide (s.bu.lastBeacon + 16384 ≤ s.slot)
/-- R331. -/
def execBeaconLoss (s : State) : Out :=
  if s.beaconsLost then .next { s with bu := { s.bu with synced := false } } else .fault .noSuchStep
/-- A link fails (R326). -/
def execLinkFailure (port : Nat) (s : State) : Out :=
  .next { s with mgmt := { s.mgmt with links := SMap.set s.mgmt.links port (false, s.linkLatency port) } }
/-- A link comes up; training measures its latency (R331). -/
def execLinkTraining (port latency : Nat) (s : State) : Out :=
  .next { s with mgmt := { s.mgmt with links := SMap.set s.mgmt.links port (true, latency) } }

end Sys2Proof.Machine
end

