-- ==== Sys2Proof/Machine/Bar0.lean ====
section
/-!
DEFINITION. What a read of a function's BAR0 returns: the capability list with the bodies of its records (R398), the completed descriptors
and pointers of the command queue (R399), and the host event ring (R403). The manual gives the records' contents and not their offsets or
the packing of a body; both are the model's (DESIGN CHOICE, assumption log 97).
-/
namespace Sys2Proof.Machine

/-- Offsets in BAR0: the descriptors, `CQTAIL`, `CQHEAD`, `EVHEAD`, the event ring and the certificate chain. -/
def bar0Queue : Nat := 0x1000
def bar0Tail : Nat := 0x2000
def bar0Head : Nat := 0x2008
def bar0EvHead : Nat := 0x2010
def bar0Ring : Nat := 0x3000
def bar0Chain : Nat := 0x4000

/-- The records of R398: identifier, and whether a virtual function's list holds it. -/
def capRecords : List (Nat × Bool) :=
  [(1, true), (2, false), (3, true), (4, true), (5, false), (6, false), (7, false), (8, true)]
/-- The records that a function's list offers; in recovery only identity, the command queue and the events (R398, R404). -/
def State.capList (s : State) (fn : Nat) : List Nat :=
  (capRecords.filter fun r => (fn == 0 || r.2) && (!s.mgmt.recovery || (fn == 0 && r.1 ∈ [1, 3, 4]))).map (·.1)
/-- The 16-byte header of a record (R398), with `VER` 1. -/
def capHeader (id next len : Nat) : BitVec 128 := BitVec.ofNat 128 (id + 2 ^ 16 + 2 ^ 32 * next + 2 ^ 64 * len)

/-- Granules that no partition holds. -/
def State.freeGranules (s : State) : Nat :=
  ((List.range Config.nGranules).filter fun g => !s.parts.any fun p => p.2.gmask.testBit g).foldl (fun m g => m + 2 ^ g) 0
/-- Platform frames that nothing uses (R299). -/
def State.freePlatform (s : State) : Nat :=
  ((List.range (Config.nGranules * (Config.framesPerGroup - Config.firstPlatform))).filter fun i =>
    !s.frameUsed (i / 32 * Config.framesPerGroup + Config.firstPlatform + i % 32)).length
/-- What record `0x0005` says of partition `n`: granule mask, functions, whether it exists, `SPLIT` and `HCAP`. -/
def State.partBytes (s : State) (n : Nat) : List Byte :=
  match SMap.find? s.parts n with
  | some p => leBytes p.gmask 6 ++ [p.fn0, p.fn1, 1, p.split].flatMap (fun v => leBytes v 1) ++ leBytes p.hcap 2 ++ leBytes 0 4
  | none => leBytes 0 16
/-- What record `0x0006` says of a port: link state, job (0xFFFF when it has none), and what the far end names itself. -/
def State.portBytes (s : State) (port : Nat) : List Byte :=
  leBytes (s.linkUp port).toNat 2 ++ leBytes ((s.jobOfPort port).elim 0xFFFF fun j => j.2.job) 2 ++ leBytes (Config.peer port).toNat 4
/-- The body of a record (R398). -/
def State.capBody (s : State) (id : Nat) : List Byte :=
  match id with
  | 1 => leBytes Config.identity.toNat 16 ++ leBytes (Config.versions s.mgmt.running).toNat 8
  | 2 => [Config.nCores, Config.nGranules, 4096, Config.nCalendars].flatMap (fun n => leBytes n 4) ++ leBytes s.freeGranules 8 ++ leBytes s.freePlatform 4
  | 3 => [bar0Queue, bar0Tail, bar0Head, 64].flatMap fun n => leBytes n 4
  | 4 => [bar0Ring, bar0EvHead].flatMap (fun n => leBytes n 4) ++ [0, 1]
  | 5 => (List.range Config.nGranules).flatMap s.partBytes
  | 6 => (List.range 16).flatMap s.portBytes
  | 7 => (List.range 13).flatMap fun i => leBytes (SMap.get s.mgmt.sensors 0 i) 4
  | _ => [bar0Chain, Config.certificates.length].flatMap fun n => leBytes n 4
/-- Records laid out one after another from offset `off`, each header naming the next; `NEXT` 0 ends the list (R398). -/
def capChain : Nat → List (Nat × List Byte) → List Byte
  | _, [] => []
  | off, (id, body) :: rest =>
    let gap := (16 - body.length % 16) % 16
    let next := off + 16 + body.length + gap
    leBytes (capHeader id (if rest.isEmpty then 0 else next) body.length).toNat 16 ++ body ++ List.replicate gap 0 ++ capChain next rest
/-- The capability list of a function, from offset 0 of its BAR0 on. -/
def State.capBytes (s : State) (fn : Nat) : List Byte := capChain 0 ((s.capList fn).map fun id => (id, s.capBody id))

/-- What firmware has written of a completed descriptor: `RVAL`, `HTAG`, `DONE` and `STS` (R399). -/
def doneBytes (d : BitVec 32 × Nat × Nat) : List Byte := leBytes (2 ^ 16 * d.2.1 + 2 ^ 31 + 2 ^ 32 * d.1.toNat + 2 ^ 64 * d.2.2) 16
/-- A host event entry (R403). -/
def HostEvent.bytes (e : HostEvent) : List Byte :=
  leBytes (e.code + 2 ^ 16 * e.part + 2 ^ 24 * e.fn + 2 ^ 32 * e.reason + 2 ^ 40 * e.dropped + 2 ^ 64 * e.cyc) 16
/-- The byte of a ring of `n` entries at offset `i`: the last entry written there, counting entries from `first`. -/
def ringByte (entries : List (List Byte)) (first n size i : Nat) : Option Byte :=
  let at_ (k : Nat) : Bool := (first + k) % n == i / size
  (((List.range entries.length).filter at_).getLast?).bind fun k => (entries.getD k [])[i % size]?
/-- The byte that a function's BAR0 holds at an offset; none where the manual gives the offset no contents (R397, R398, R399, R403). -/
def State.bar0 (s : State) (fn off : Nat) : Option Byte :=
  let h := s.fnOf fn
  if off < bar0Queue then (s.capBytes fn)[off]?
  else if off < bar0Tail then ringByte (h.done.map doneBytes) (h.headDone - h.done.length) 64 64 (off - bar0Queue)
  else if off < bar0Head then (leBytes h.tail 8)[off - bar0Tail]?
  else if off < bar0EvHead then (leBytes h.headDone 8)[off - bar0Head]?
  else if off < bar0EvHead + 8 then (leBytes h.evhead 8)[off - bar0EvHead]?
  else if bar0Ring ≤ off ∧ off < bar0Chain then ringByte (h.ring.map HostEvent.bytes) h.evhead 256 16 (off - bar0Ring)
  else if bar0Chain ≤ off then Config.certificates[off - bar0Chain]?
  else none

end Sys2Proof.Machine
end

