-- ==== Sys2Proof/Machine/Migrate.lean ====
section
/-!
DEFINITION. The reset of a function (R374, R400), gates in transit (R377, R378), live migration (R379, R380) and D3hot (R409).
-/
namespace Sys2Proof.Machine

/-! ## Gates in transit (R377, R378) -/

/-- The bits of `TMASK` that stand for a context: its valid entries (R375). -/
def Gate.maskOf (g : Gate) (key : Nat) : Nat :=
  (List.range 8).foldl (fun m n =>
    let a := g.acl.getD n 0
    if a.testBit 31 && ctxKey (fld a 12 7) (fld a 6 0) == key then m + 2 ^ n else m) 0
/-- The bits of a mask of eight cleared. -/
def clearBits (m out : Nat) : Nat := m &&& (255 - out % 256)
/-- The gates that list a context enter transit (R377). -/
def State.enterTransit (s : State) (key : Nat) : State :=
  { s with gates := s.gates.map fun (n, g) =>
      (n, if g.state = 2 ∨ g.maskOf key = 0 then g else { g with state := 1, tmask := g.tmask ||| g.maskOf key }) }
/-- A context is no longer in transit; a gate of which it was the last leaves transit (R377). -/
def State.leaveTransit (s : State) (key : Nat) : State :=
  { s with gates := s.gates.map fun (n, g) =>
      (n, if g.state ≠ 1 ∨ g.maskOf key = 0 then g
          else { g with tmask := clearBits g.tmask (g.maskOf key), state := if clearBits g.tmask (g.maskOf key) = 0 then 0 else 1 }) }
/-- The waits of every gate are looked at. -/
def State.wakeGates (s : State) : State := (s.gates.map (·.1)).foldl (fun s g => s.wakeGate g) s
/-- The queued signals of a context are removed (R374 step 5, R377). -/
def State.dropSignals (s : State) (key : Nat) : State :=
  { s with gates := s.gates.map fun (n, g) => (n, { g with queue := g.queue.filter fun q => ctxKey q.part q.fn != key }) }
/-- The gate whose next queued signal is applied in this cycle (R378). -/
def State.gateToApply (s : State) : Option Nat :=
  (List.find? (fun (g : Nat × Gate) => g.2.state == 0 && !g.2.queue.isEmpty && g.2.appliedAt != s.cyc + 1) s.gates).map (·.1)
/-- The next queued signal of a gate is applied: it adds 1 to `SEQ`, writes its payload and charges no token (R378). -/
def State.applySignal (s : State) (n : Nat) : State :=
  match SMap.find? s.gates n with
  | none => s
  | some g =>
    match g.queue with
    | [] => s
    | q :: rest =>
      s.setGate n { g with queue := rest, seq := (g.seq + 1) % 2 ^ 64, payload := q.payload.getD g.payload, appliedAt := s.cyc + 1 }

/-! ## Reset of a function (R374, R400) -/

/-- The unstarted descriptors of a function end with status 5 (R400). -/
def State.abortQueue (s : State) (fn : Nat) : State :=
  ((s.fnOf fn).queue.foldl (fun s d => s.complete fn d.htag 5 0) s).updFn fn fun h => { h with queue := [] }
/-- A stop of the context that another function asked for ends with status 5. -/
def State.abortStopper (s : State) (key : Nat) : State :=
  match (s.ctx key).stopper with
  | none => s
  | some (fn, htag) => (s.updCtx key fun c => { c with stopper := none }).complete fn htag 5 0
/-- The context as a reset leaves it: its accounting counters, stage-2 array, job and tables are kept (R374 step 8). -/
def Context.afterReset (c : Context) : Context :=
  { c with
    phase := .created
    image := none
    sds := []
    far := []
    evMap := none
    moving := []
    migrating := none
    migStopped := false
    resuming := false
    measured := []
    kept := []
    keptFlights := []
    startAs := none
    heldReplies := []
    notes := [] }
/-- The steps of R374 for one context. -/
def State.resetCtx (s : State) (key : Nat) : State :=
  let s := (s.abortStopper key).abortPackets key
  let s := ((s.cancelAll key).withdrawAll key false).stopPackets key
  let s := ((s.discardWork key).refuseHeld key).clearHts key false
  let s := (((s.dropSignals key).leaveTransit key).lapseRequests key).zeroFrames (s.ctx key).ownFrames
  let s := { s.clearPorts key 0 (2 ^ 48) with
    digests := s.digests.filter fun h => h.1 != key
    bu := { s.bu with reqs := s.bu.reqs.filter fun r => ctxKey r.part r.fn != key } }
  s.updCtx key Context.afterReset
/-- The contexts of a function. -/
def State.keysOfFn (s : State) (fn : Nat) : List Nat := (s.ctxs.filter fun c => c.1 % 128 == fn).map (·.1)
/-- A function is reset (R400): its queue ends, then each of its contexts, and the command that asked for it completes. -/
def State.resetFn (s : State) (fn : Nat) : State :=
  let s := ((s.keysOfFn fn).foldl State.resetCtx (s.abortQueue fn)).wakeGates
  let by_ := (s.fnOf fn).resetBy
  let s := s.updFn fn fun h => { h with flr := false, resetBy := none }
  match by_ with
  | some htag => s.complete 0 htag 0 0
  | none => s
/-- A function whose reset waits and whose running command has completed (R400). -/
def State.resetReady (s : State) : Option Nat :=
  (List.find? (fun (h : Nat × HostFn) => h.2.flr && !s.fnBusy h.1) s.host).map (·.1)
/-- A reset is asked for; a running command of the function completes first (R400). -/
def State.askReset (s : State) (fn : Nat) (by_ : Option (BitVec 32)) : State :=
  let s := s.updFn fn fun h => { h with flr := true, resetBy := if by_.isSome then by_ else h.resetBy }
  if s.fnBusy fn then s else s.resetFn fn
/-- `VF_RESET` (R374). -/
def execVfReset (d : Desc) (s : State) : Out :=
  command d false false [(0, 1)]
    (fun s =>
      let fn := operand d 0 1
      if fn = 0 ∨ 96 < fn then cmdInvalid s else .later (s.askReset fn (some d.htag))) s
/-- `FUNCTION_LEVEL_RESET` (R400). -/
def execFunctionLevelReset (fn : Nat) (s : State) : Out :=
  if 96 < fn then .fault .noSuchStep
  else if s.mgmt.power ≠ .ready then .fault .notPowered
  else .next (s.askReset fn none)
/-- A function's contexts stop as by `CTX_STOP`, with no command to tell (R409). -/
def State.stopCtx (s : State) (key : Nat) : State :=
  match (s.ctx key).phase with
  | .running => s.startSave key 1
  | .saving 0 => (s.withdrawAll key true).updCtx key fun c => { c with phase := .saving 1 }
  | .saved 0 => (s.withdrawAll key true).updCtx key fun c => { c with phase := .saved 1 }
  | _ => s
/-- `D3HOT_ENTRY` (R409). -/
def execD3hotEntry (fn : Nat) (s : State) : Out :=
  if 96 < fn then .fault .noSuchStep
  else if s.mgmt.power ≠ .ready then .fault .notPowered
  else .next ((s.keysOfFn fn).foldl State.stopCtx s)

/-! ## Live migration (R379, R380) -/

/-- Where the granules of a moved context go: source and destination granules, rising. -/
structure Move where
  src : List Nat
  dst : List Nat
deriving DecidableEq, Repr

/-- The granule that takes the place of one. -/
def Move.granule (m : Move) (g : Nat) : Nat := match m.src.findIdx? (· == g) with
  | some i => m.dst.getD i g
  | none => g
/-- The core that takes the place of one. -/
def Move.core (m : Move) (c : Nat) : Nat := 16 * m.granule (c / 16) + c % 16
/-- The cluster that takes the place of one: that of the lowest of its granules. Where a move splits a cluster, what belongs to the cluster
as a whole goes there; where it joins two, what both have under one number is kept from the first (DESIGN CHOICE, assumption log 34). -/
def Move.cluster (m : Move) (cl : Nat) : Nat := match m.src.find? fun g => g / 6 == cl with
  | some g => m.granule g / 6
  | none => cl
/-- Bytes 2 to 7 of `MIG_START` name as many granules as the context has, all of them free: a move within the part. -/
def State.moveTo (s : State) (key dest : Nat) : Option Move :=
  match s.partition? key with
  | none => none
  | some p =>
    let m : Move := ⟨granulesOf p.gmask, granulesOf dest⟩
    if dest < 2 ^ Config.nGranules ∧ m.src.length = m.dst.length ∧ !(s.parts.any fun q => q.2.gmask &&& dest != 0) then some m else none
/-- Bytes of the frames of a context, copied for it (R382). -/
def State.billCopy (s : State) (key frames : Nat) : State :=
  (s.billRead key (frames * Config.frameBytes)).billWrite key (frames * Config.frameBytes)
/-- A context is at work: it runs, or a slice end is saving it or has saved it. -/
def Context.atWork (c : Context) : Bool :=
  match c.phase with
  | .running => true
  | .saving occ => occ == 0
  | .saved occ => occ == 0 && c.startAs.isNone
  | _ => false
/-- The own frames of a context that have become dirty since they were last copied (R305, R379). -/
def Context.dirtyFrames (c : Context) : Nat := c.s2.countP fun p => p.2.d && !p.2.plat
/-- The frames of a context are copied: `n` of them are counted, and none is dirty any more (R379, R382). -/
def State.copyRound (s : State) (key n : Nat) : State :=
  (s.updCtx key fun c => { c with s2 := c.s2.map fun (g, e) => (g, { e with d := false }) }).billCopy key n
/-- Pre-copy goes on at the start of each frame of 4,096 slots: what became dirty is copied again (R379; assumption log 86). -/
def State.recopyNext (s : State) : Option Nat :=
  if s.cyc % (64 * 4096) ≠ 0 then none
  else (List.find? (fun (c : Nat × Context) => c.2.migrating.isSome && !c.2.migStopped && c.2.dirtyFrames != 0) s.ctxs).map (·.1)
/-- The contexts that move when one is named: within the part all of its partition (assumption log 55). -/
def State.movers (s : State) (key dest : Nat) : List Nat := if (s.moveTo key dest).isSome then s.ctxsOf (key / 128) else [key]
/-- `MIG_START` (R379): pre-copy. -/
def execMigStart (d : Desc) (s : State) : Out :=
  command d false false [(0, 8)]
    (fun s => s.onCtx d fun key c =>
      let dest := operand d 2 6
      if !c.atWork ∨ c.migrating.isSome then cmdWrongState s
      else if (s.moveTo key dest).isNone ∧ !(decide (dest < 4096) && c.job.isSome) then cmdInvalid s
      else
        let s := (s.movers key dest).foldl (fun s k =>
          (s.updCtx k fun c => { c with migrating := some dest }).copyRound k (s.ctx k).ownFrames.length) s
        cmdOk (s.tellPhase key)) s

/-- What is left of a stage at a stop in slot `t`: all of it, or the slots after the present one when it runs (R379). -/
def Stage.rest (g : Stage) (t : Nat) : Stage :=
  if g.placed && decide (g.start ≤ t) then { g with dur := g.fin - (t + 1), begun := false, placed := false, gmax := 255 }
  else { g with placed := false }
/-- The stage has no slot left to be booked again. -/
def Stage.past (g : Stage) (t : Nat) : Bool := g.ended || (g.placed && decide (g.fin ≤ t + 1))
/-- The future slots of a booking are removed; a running stage ends now, and its remaining slots form a continuation (R379). -/
def State.liftBooking (s : State) (b : Booking) : State :=
  let s := (List.range b.stages.length).foldl (fun s n => s.returnFrom b.handle n (s.slot + 1)) s
  let s := s.markRunning b.handle 0
  s.updBooking b.handle fun b => { b with stages := b.stages.map fun g => if g.past s.slot then { g with ended := true } else g.rest s.slot }
/-- The committed and running bookings of a context in commit order. -/
def State.committedOf (s : State) (key : Nat) : List Booking :=
  (s.bu.bookings.filter fun b => ctxKey b.part b.fn == key && (b.st == .committed || b.st == .running)).mergeSort
    fun a b => decide (a.committed ≤ b.committed)
/-- One context enters the stop phase: its future bookings are removed, its gates enter transit, and it is pre-empted, unless a slice end
has done that (R377, R379). -/
def State.stopForMove (s : State) (key : Nat) : State :=
  let bs := s.committedOf key
  let s := bs.foldl State.liftBooking s
  let s := (s.updCtx key fun c => { c with migStopped := true, moving := bs }).enterTransit key
  match (s.ctx key).phase with
  | .running => s.startSave key 2
  | .saving 0 => s.updCtx key fun c => { c with phase := .saving 2 }
  | .saved 0 => s.updCtx key fun c => { c with phase := .saved 2 }
  | _ => s
/-- `MIG_STOP` (R379): the stop phase; complete when the context is saved. -/
def execMigStop (d : Desc) (s : State) : Out :=
  command d false false [(0, 8)]
    (fun s => s.onCtx d fun key c =>
      let dest := operand d 2 6
      if c.migrating ≠ some dest ∨ c.migStopped ∨ !c.atWork then cmdWrongState s
      else
        let s := (s.movers key dest).foldl State.stopForMove s
        if (s.ctx key).phase = .saved 2 then cmdOk (s.tellPhase key)
        else .later (s.updCtx key fun c => { c with stopper := some (d.fn, d.htag) })) s

/-- A region of a footprint after a move. -/
def Region.moved (r : Region) (m : Move) : Region := { r with core := r.core.map m.core }
/-- A deque entry after a move. -/
def DqEntry.moved (d : DqEntry) (m : Move) : DqEntry := { d with src := m.core d.src, regions := d.regions.map fun r => r.moved m }
/-- A kept core after a move: its caches are empty. -/
def Core.moved (c : Core) (m : Move) : Core :=
  { c with
    icache := []
    stale := []
    deque := c.deque.map fun d => d.moved m
    slots := c.slots.map fun (sl, k) => (sl, { k with src := m.core k.src, regions := k.regions.map fun r => r.moved m }) }
/-- A flight after a move. -/
def Flight.moved (f : Flight) (m : Move) : Flight :=
  { f with
    core := m.core f.core
    op := match f.op with
      | .barArrive l nw d => .barArrive { l with core := l.core.map m.core } nw d
      | op => op }
/-- A far request after a move. -/
def FarReq.moved (r : FarReq) (m : Move) : FarReq :=
  { r with
    task := (m.core r.task.1, r.task.2)
    kind := match r.kind with
      | .load c sl dst n got => .load (m.core c) sl dst n got
      | .third c sl ser ip t rcd ms a b p o l => .third (m.core c) sl ser ip t rcd ms a b p o l
      | k => k }
/-- A queue mapping after a move. -/
def QMapping.moved (q : QMapping) (m : Move) : QMapping := { q with core := m.core q.core, entry := q.entry.moved m }
/-- The queue slot that takes the place of one: the same slot of the granule that takes the place of its granule. -/
def Move.slot (m : Move) (cl i : Nat) : Nat := 10 * (m.granule (6 * cl + i / 10) % 6) + i % 10
/-- The stage of a booking after a move: an own engine that it names is named in its new place. -/
def Stage.moved (g : Stage) (m : Move) : Stage :=
  if g.rmt ∨ g.inst = 0xFFF then g
  else { g with inst :=
    if g.ecls = 0 then m.core g.inst else if g.ecls = 1 then 12 * m.cluster (g.inst / 12) + g.inst % 12
    else if g.ecls = 2 then m.granule g.inst else g.inst }
/-- A packet after a move. -/
def CopyPkt.moved (p : CopyPkt) (m : Move) : CopyPkt :=
  { p with core := m.core p.core, engine := 12 * m.cluster (p.engine / 12) + p.engine % 12 }
/-- The part of a cluster's scheduler that a context has, moved; `old` is the cluster it leaves. -/
def Hts.take (h : Hts) (key old : Nat) (m : Move) (into : Hts) : Hts :=
  { into with
    ctrs := (h.ctrs.filter fun c => c.1 / 4096 == key).foldl (fun t c =>
      if (SMap.find? t c.1).isSome then t else SMap.set t c.1 { c.2 with armed := c.2.armed.map fun d => d.moved m }) into.ctrs
    heldPush := into.heldPush ++ (h.heldPush.filter fun d => ctxKey d.2.part d.2.fn == key).map fun d => (m.core d.1, d.2.moved m)
    qslots := (h.qslots.filter fun q => ctxKey q.2.part q.2.fn == key).foldl (fun t q => SMap.set t (m.slot old q.1) (q.2.moved m)) into.qslots
    qheld := (h.qheld.filter fun q => q.1 / 256 == key).foldl (fun t q => SMap.set t q.1 (q.2.moved m)) into.qheld
    qowner := (h.qowner.filter fun q => q.2 == key).foldl (fun t q => SMap.set t (m.slot old q.1) key) into.qowner
    table := into.table ++ (h.table.filter fun u => ctxKey u.part u.fn == key).map fun u => { u with regs := u.regs.map fun r => r.moved m }
    copies := into.copies ++ (h.copies.filter fun p => p.ofKey key).map fun p => p.moved m
    serials := SMap.set into.serials key (SMap.get h.serials 0 key)
    packets := SMap.set into.packets key (SMap.get h.packets 0 key)
    weights := match SMap.find? h.weights key with
      | some w => SMap.set into.weights key w
      | none => into.weights }
/-- The schedulers after a move: what the context had in each source cluster is in the destination cluster. -/
def State.moveHts (s : State) (key : Nat) (m : Move) : State :=
  let from_ := (m.src.map (· / 6)).eraseDups
  let olds := from_.map fun cl => (cl, s.htsOf cl)
  let s' := from_.foldl (fun s cl => s.updHts cl fun h => h.clearKey key true) s
  olds.foldl (fun s (cl, h) => s.updHts (m.cluster cl) fun into => h.take key cl m into) s'
/-- The frame of a group to which a page is moved: that of the same position, or the lowest that is free (R315). -/
def State.frameIn (s : State) (group pos : Nat) : Option Nat :=
  (((pos :: List.range Config.firstPlatform).map fun i => group * Config.framesPerGroup + i)).find? fun f => !s.frameUsed f
/-- A page that a copy abandons (R380): a Memory Error event tells of it, and of no unit of it again. -/
def State.abandonPage (s : State) (key g : Nat) (e : S2Entry) : State :=
  let units := s.dramPoison.filter fun u => 64 * u / Config.frameBytes == e.pfn
  let at_ := match units with
    | u :: _ => 64 * u % Config.frameBytes
    | [] => 0
  { s with dramTold := units.foldl NSet.add s.dramTold }.memoryError key (g * Config.frameBytes + at_) false
/-- The frames of a context copied to the groups of its new granules (R379): a page with an uncorrectable error keeps its source
mapping with `PP` 1, and a Memory Error event tells of it (R380). -/
def State.moveFrames (s : State) (key : Nat) (m : Move) : State :=
  (s.ctx key).s2.foldl (fun s (g, e) =>
    if e.plat ∨ !m.src.contains (groupOf e.pfn) then s
    else
      match if s.isPoisoned ⟨none, e.pfn * Config.frameBytes⟩ Config.frameBytes then none
        else s.frameIn (m.granule (groupOf e.pfn)) (e.pfn % Config.framesPerGroup) with
      | none => (s.updCtx key fun c => { c with s2 := SMap.set c.s2 g { e with pp := true } }).abandonPage key g e
      | some to_ =>
        let s := (s.copyFrame e.pfn to_).zeroFrame e.pfn
        s.updCtx key fun c => { c with s2 := SMap.set c.s2 g { e with pfn := to_ } }) s
/-- A booking after a move. -/
def Booking.moved (b : Booking) (m : Move) : Booking :=
  { b with core := m.core b.core, cluster := m.cluster b.cluster, stages := b.stages.map fun g => g.moved m }
/-- Everything else that names a core of the context. -/
def State.moveRest (s : State) (key : Nat) (m : Move) : State :=
  let s := s.updCtx key fun c => { c with
    kept := c.kept.map fun (n, k) => (n, k.moved m)
    keptFlights := c.keptFlights.map fun f => f.moved m
    far := c.far.map fun r => r.moved m
    evMap := c.evMap.map fun q => q.moved m
    moving := c.moving.map fun b => { b with core := m.core b.core } }
  { s with
    colls := s.colls.map fun c => if c.key = key then { c with core := m.core c.core } else c
    later := s.later.map fun l => if l.key = key then { l with core := m.core l.core } else l
    bu := { s.bu with bookings := s.bu.bookings.map fun b => if ctxKey b.part b.fn = key then b.moved m else b } }
/-- The partition has its new granules; the cores that it leaves are zeroed (R316). -/
def State.movePart (s : State) (m : Move) (key : Nat) : State :=
  let old := s.ctxCores key
  { s with
    parts := SMap.upd s.parts ⟨0, 0, 0, 0, 0⟩ (key / 128) fun p => { p with gmask := m.dst.foldl (fun n g => n + 2 ^ g) 0 }
    cores := s.cores.filter fun c => !old.contains c.1 }
/-- A removed booking, from its first stage that has not ended, is booked again from slot `s + 2` on; without a fit it becomes NOFIT,
and its packets complete with status 5 (R379). -/
def State.rebook (s : State) (key : Nat) (h : BitVec 32) : State :=
  match s.bu.bookings.find? fun b => b.handle == h with
  | none => s
  | some b =>
    match b.stages.findIdx? fun g => !g.ended with
    | none => s.doneIfEnded h
    | some n =>
      match searchFrom (s.fitFree key) n (b.stages.drop n) none b.deadline (Config.horizon + 1) (s.slot + 2) with
      | some ps => s.place h n ps
      | none => s.cancelBooking h .nofit
/-- What a context has is moved to other granules of the part: the rest of its dirty frames is copied, and then everything that names a core
or cluster (R379). -/
def State.moveCtx (m : Move) (s : State) (key : Nat) : State :=
  ((((s.billCopy key (s.ctx key).dirtyFrames).moveFrames key m).clearPorts key 0 (2 ^ 48)).moveHts key m).moveRest key m
/-- A moved context reattaches: its removed bookings, and those that committed meanwhile, are booked again in commit order, and its gates leave
transit (R379). -/
def State.reattach (s : State) (key : Nat) : State :=
  let late := (s.committedOf key).filter fun b => !(s.ctx key).moving.any fun o => o.handle == b.handle
  let hs := ((s.ctx key).moving ++ late).map (·.handle)
  let s := late.foldl State.liftBooking s
  let s := hs.foldl (fun s h => s.rebook key h) s
  (s.leaveTransit key).updCtx key fun c =>
    { c with moving := [], migrating := none, migStopped := false, resuming := true, phase := if c.phase = .saved 2 then .saved 0 else c.phase }
/-- The gates whose listed contexts have all left the part go with the last of them (R377). -/
def State.takeGates (s : State) : State :=
  let gone (g : Gate) : Bool := (aclKeys g.acl).all fun k => (SMap.find? s.ctxs k).isNone
  let out := s.gates.filter fun g => gone g.2
  { (s.zeroFrames ((out.filter fun g => g.2.wlen != 0).map fun g => g.2.wpfn)) with gates := s.gates.filter fun g => !gone g.2 }
/-- The context leaves the part for another device: an event tells it of each poisoned page (R380), and nothing of it stays here (R379). What
the other device then holds is its own. -/
def State.depart (s : State) (key : Nat) : State :=
  let s := s.billCopy key (s.ctx key).dirtyFrames
  let s := (s.ctx key).s2.foldl (fun s (g, e) =>
    if !e.plat ∧ s.isPoisoned ⟨none, e.pfn * Config.frameBytes⟩ Config.frameBytes then s.abandonPage key g e else s) s
  let s := { s with bu := { s.bu with bookings := s.bu.bookings.filter fun b => ctxKey b.part b.fn != key } }
  (s.destroyCtx key).takeGates
/-- A context of a migration is saved, or never ran. -/
def Context.readyToMove (c : Context) : Bool := match c.phase with
  | .running | .saving _ => false
  | _ => true
/-- `MIG_COMMIT` (R379): final copy, reattach, then resume. -/
def execMigCommit (d : Desc) (s : State) : Out :=
  command d false false [(0, 8)]
    (fun s => s.onCtx d fun key c =>
      let dest := operand d 2 6
      if c.migrating ≠ some dest ∨ !c.migStopped ∨ c.phase ≠ .saved 2 then cmdWrongState s
      else
        match s.moveTo key dest with
        | some m =>
          let ks := s.ctxsOf (key / 128)
          if !(ks.all fun k => (s.ctx k).readyToMove) then cmdWrongState s
          else
            let s := ((ks.foldl (State.moveCtx m) s).tellPhase key).movePart m key
            let s := (ks.foldl State.reattach s).tellPhase key
            cmdOk (if s.restoreReady key then s.restore key else s)
        | none => if dest < 4096 then cmdOk (((s.tellPhase key).depart key).tellPhase key) else cmdNoResource s) s

end Sys2Proof.Machine
end

