-- ==== Sys2Proof/Machine/Manage.lean ====
section
/-!
DEFINITION. The host's accesses and queue pointers (R396 to R399, R403), the management port (R406), power and thermal behaviour
(R383, R407 to R409), machine checks (R394), and the part's power-on and reset (R404).
-/
namespace Sys2Proof.Machine

/-- A step that needs the part in the ready state (R409). -/
def ready (body : State → Out) (s : State) : Out := if s.mgmt.power = .ready then body s else .fault .notPowered
/-- A step of the Fjarlos port, which is powered from standby on (R406, R409). -/
def standby (body : State → Out) (s : State) : Out := if s.mgmt.power = .off then .fault .notPowered else body s

/-! ## BAR2 (R396, R397) -/

/-- A completion goes to the host. -/
def State.toHost (s : State) (r : HostReply) : State := { s with hostOut := s.hostOut ++ [r] }
/-- The physical addresses of `n` bytes at an offset of BAR2, with their stage-2 entries, where stage 2 maps them all (R305). -/
def State.bar2 (s : State) (key ga n : Nat) : Option (List (Nat × S2Entry)) :=
  if ga + n ≤ 2 ^ 39 then (List.range n).mapM fun i => s.walk2 key (ga + i) else none
/-- The context that a function's BAR2 reaches: a virtual function's own; the physical function has no window (R397). -/
def State.windowOf (s : State) (fn : Nat) : Option Nat := if fn = 0 then none else s.ctxOfFn fn
/-- `HOST_BAR2_READ` (R397). -/
def execHostBar2Read (fn : Nat) (ga : BitVec 64) (n : Nat) : State → Out := ready fun s =>
  match (s.windowOf fn).bind fun key => (s.bar2 key ga.toNat n).map fun ps => (key, ps) with
  | none => .next (s.toHost { fn := fn, ok := false })
  | some (key, ps) =>
    let met := (ps.filter fun p => s.isPoisoned ⟨none, p.1⟩ 1).map fun p => ({ key := key, loc := some ⟨none, p.1⟩ } : Found)
    .next (State.toHost { s.billRead key n with found := s.found ++ met }
      { fn := fn, ok := true, bytes := ps.map (fun p => Mem.get s.dram p.1), poisoned := ps.any fun p => s.isPoisoned ⟨none, p.1⟩ 1 })
/-- `HOST_BAR2_WRITE` (R397): discarded where stage 2 does not allow it. -/
def execHostBar2Write (fn : Nat) (ga : BitVec 64) (bytes : List (BitVec 8)) : State → Out := ready fun s =>
  match s.windowOf fn with
  | none => .next s
  | some key =>
    if 2 ^ 39 < ga.toNat + bytes.length then .next s
    else
      match s.guestPieces key ga.toNat bytes with
      | none => .next s
      | some ps => .next ((s.billWrite key ps.length).perform key ps)
/-- The operation of an AtomicOp: code of R172, width, operand and compare value. -/
def hostOpFields : HostOp → Nat × Nat × Nat × Nat
  | .fetchAdd w x => (0, if w then 8 else 4, x.toNat, 0)
  | .swap w x => (8, if w then 8 else 4, x.toNat, 0)
  | .cas w c x => (9, if w then 8 else 4, x.toNat, c.toNat)
/-- `HOST_ATOMIC_OP` (R396), performed at the home under R173: a poisoned location is not changed, and the old value returns with the
poisoned-data indication. -/
def execHostAtomicOp (fn : Nat) (ga : BitVec 64) (op : HostOp) : State → Out := ready fun s =>
  let (mn, n, x, cmp) := hostOpFields op
  let a := ga.toNat
  match (s.windowOf fn).bind fun key => (s.bar2 key a n).map fun ps => (key, ps) with
  | some (key, (pa, e) :: _) =>
    let l : Loc := ⟨none, pa⟩
    if a % n ≠ 0 ∨ !e.w then .next (s.toHost { fn := fn, ok := false })
    else
      let old := s.readLoc l n
      let reply : HostReply := { fn := fn, ok := true, poisoned := s.isPoisoned l n, bytes := leBytes old n }
      if reply.poisoned then .next ((s.find { key := key, loc := some l }).toHost reply)
      else
        let new := (atomicNew mn n old (x % 2 ^ (8 * n)) (cmp % 2 ^ (8 * n))).1
        let s := (s.billRead key n).toHost reply
        .next (if atomicWrites mn old (cmp % 2 ^ (8 * n)) then (s.billWrite key n).perform key [(l, n, new)] else s)
  | _ => .next (s.toHost { fn := fn, ok := false })

/-! ## BAR0 (R398, R399, R403) -/

/-- `CQTAIL` (R399): the descriptors between the old tail and the new one are submitted. A tail that the queue's 64 descriptors
cannot reach submits nothing. -/
def execCqtail (fn : Nat) (tail : BitVec 64) (ds : List Desc) : State → Out := ready fun s =>
  let h := s.fnOf fn
  if 96 < fn ∨ tail.toNat ≠ h.tail + ds.length ∨ h.headDone + 64 < tail.toNat ∨ ds.any (fun d => d.fn != fn) then .next s
  else .next (s.updFn fn fun h => { h with tail := tail.toNat, queue := h.queue ++ ds })
/-- `EVHEAD` (R403): the entries before the new head are free. -/
def execEvhead (fn : Nat) (head : BitVec 64) : State → Out := ready fun s =>
  let h := s.fnOf fn
  if 96 < fn ∨ head.toNat < h.evhead ∨ h.evtail < head.toNat then .next s
  else .next (s.updFn fn fun h => { h with evhead := head.toNat, ring := h.ring.drop (head.toNat - h.evhead) })
/-- A descriptor whose `CODE` no row of R401 has. -/
def Desc.known (d : Desc) : Bool :=
  d.code.toNat ∈ [0x1, 0x2, 0x3, 0x4, 0x10, 0x11, 0x12, 0x13, 0x14, 0x20, 0x21, 0x30, 0x31, 0x32, 0x40, 0x41, 0x42, 0x50, 0x60, 0x70, 0x71,
    0x72, 0x80]
/-- It ends with Invalid (R399). -/
def unknownCommand (d : Desc) : State → Out := command d true true [(0, 48)] cmdInvalid

/-! ## The Fjarlos port (R406) -/

/-- A reply through the port. -/
def State.fjarlos (s : State) (kind : Nat) (vs : List Nat) : State := { s with mgmt := { s.mgmt with replies := s.mgmt.replies ++ [(kind, vs)] } }
/-- The thirteen sensors of record `0x0007`: three for each die and the package power. -/
def nSensors : Nat := 13
/-- `FJARLOS_SENSOR_READ`: what the sensors show is not the model's to say, so each reading is a free value. -/
def execFjarlosSensorRead : State → Out := standby fun s =>
  let vs := (List.range nSensors).map fun i => (Config.freeValue 32 (s.fresh + i)).toNat
  .next ({ s with fresh := s.fresh + nSensors, mgmt := { s.mgmt with sensors := (List.range nSensors).zip vs } }.fjarlos 1 vs)
/-- `FJARLOS_POWER_CAP_SET` (R407): a cap from 1,200 W to 1,900 W. -/
def execFjarlosPowerCapSet (watts : Nat) : State → Out := standby fun s =>
  if 1200 ≤ watts ∧ watts ≤ 1900 then .next ({ s with mgmt := { s.mgmt with cap := watts } }.fjarlos 2 [0]) else .next (s.fjarlos 2 [1])
/-- `FJARLOS_FIRMWARE_UPDATE` (R404, R406). -/
def execFjarlosFirmwareUpdate (bundle : List (BitVec 8)) : State → Out := standby fun s =>
  if Config.bundleValid bundle then .next ({ s with mgmt := { s.mgmt with flash := bundle } }.fjarlos 3 [0]) else .next (s.fjarlos 3 [6])
/-- `FJARLOS_COUNTER_READ` (R384, R406): no values when there is no such context. -/
def execFjarlosCounterRead (part fn : Nat) : State → Out := standby fun s =>
  .next (s.fjarlos 4 (match SMap.find? s.ctxs (ctxKey part fn) with
    | some c => c.counters.words
    | none => []))

/-! ## Energy, power and heat (R383, R407, R408) -/

/-- The contexts' coefficient estimates of the millisecond (R383); the coefficients are firmware's own, so each is a free value. -/
def State.estimates (s : State) : List (Nat × Nat) := s.ctxs.mapIdx fun i (k, _) => (k, (Config.freeValue 32 (s.fresh + i)).toNat)
/-- A millisecond boundary, 13,281 slots after the last, whose energy has not been shared out yet (R383). -/
def State.energyDue (s : State) : Bool := s.cyc % (64 * Config.slotsPerMs) == 0 && s.mgmt.energySlot != s.slot + 1
/-- The package power of the millisecond that ends, `rail` microjoules, held to the cap (R407). A boundary at which no energy was measured
breaks a run of milliseconds. -/
def State.notePower (s : State) (rail : Nat) : State :=
  let m := s.mgmt
  let run (n : Nat) : Nat := if m.energySlot + Config.slotsPerMs = s.slot + 1 then n + 1 else 1
  { s with mgmt := { m with
      energySlot := s.slot + 1
      overMs := if 1000 * m.cap < rail then run m.overMs else 0
      underMs := if rail < 1000 * m.cap then run m.underMs else 0 } }
/-- `ENERGY_RECONCILE` (R383): `rail` is the measured energy `M` and `platform` the share `L`, in microjoules. What the divisions leave
over is carried to the next millisecond. -/
def execEnergyReconcile (rail platform : Nat) : State → Out := ready fun s =>
  if !s.energyDue then .fault .noSuchStep
  else
  let s := s.notePower rail
  let es := s.estimates
  let sum : Nat := es.foldl (fun n e => n + e.2) 0
  let m := rail - platform + s.mgmt.remainder
  if sum = 0 then .next { s with fresh := s.fresh + es.length }
  else
    let shares := es.map fun e => (e.1, e.2 * m / sum)
    let s := shares.foldl (fun s e => s.bill e.1 fun c => { c with energy := c.energy + BitVec.ofNat 64 e.2 }) s
    .next { s with fresh := s.fresh + es.length, mgmt := { s.mgmt with remainder := m - shares.foldl (fun n e => n + e.2) 0 } }
/-- An admission limit on matrix engines, no higher than one already set. -/
def State.setLimit (s : State) (n : Nat) : State :=
  { s with bu := { s.bu with limit := some (match s.bu.limit with
    | some m => min m n
    | none => n) } }
/-- `POWER_CAP_LIMIT` (R407), after ten milliseconds above the cap. -/
def execPowerCapLimit (limit : Nat) : State → Out := ready fun s => if s.mgmt.overMs < 10 then .fault .noSuchStep else .next (s.setLimit limit)
/-- `POWER_CAP_LIFT` (R407), after a hundred milliseconds below the cap. -/
def execPowerCapLift : State → Out := ready fun s =>
  if s.mgmt.underMs < 100 then .fault .noSuchStep else .next { s with bu := { s.bu with limit := none } }
/-- A thermal report to the host and through the Fjarlos port (R403, R406, R408); its cause code is none of R385, so it is free. -/
def State.thermalReport (s : State) (reason : Nat) : State :=
  { (s.hostEvent 0 (Config.freeValue 16 s.fresh).toNat 0 0 reason) with fresh := s.fresh + 1 }.fjarlos 5 [reason]
/-- `THERMAL_WARNING` (R408). -/
def execThermalWarning (_die : Nat) : State → Out := ready fun s => .next ((s.setLimit 384).thermalReport 1)
/-- `COOLANT_ALARM` (R408). -/
def execCoolantAlarm : State → Out := ready fun s => .next (s.thermalReport 3)
/-- A context is stopped and lost (R394, R408); one that never started has nothing to restart. -/
def State.stopLost (s : State) (reason : Nat) (restart : Bool) (key : Nat) : State :=
  let c := s.ctx key
  (s.abortStopper key).loseContext key reason c.present (restart && c.image.isSome)
/-- `THERMAL_TRIP` (R408): every context is lost with reason 4, and the part enters standby. -/
def execThermalTrip (_die : Nat) : State → Out := ready fun s =>
  let s := ((s.ctxs.map (·.1)).foldl (fun s k => s.stopLost 4 false k) s).thermalReport 2
  .next { s with mgmt := { s.mgmt with power := .standby } }

/-! ## Machine checks (R394) -/

/-- The contexts that hold a granule of a mask. -/
def State.ctxsOn (s : State) (mask : Nat) : List Nat :=
  (s.ctxs.filter fun c => match s.partition? c.1 with
    | some p => p.gmask &&& mask != 0
    | none => false).map (·.1)
/-- A machine check is recorded and contained (R394): in a context, in the contexts of some granules, or in the whole part, which then
stops, as in standby, until it is powered on or reset (DESIGN CHOICE, assumption log 87). -/
def State.containCheck (s : State) (m : McScope) : State :=
  let s := { s with mgmt := { s.mgmt with checks := s.mgmt.checks + 1 } }
  match m with
  | .context part fn => if (SMap.find? s.ctxs (ctxKey part fn)).isSome then s.stopLost 3 true (ctxKey part fn) else s
  | .granules mask => (s.ctxsOn mask).foldl (fun s k => s.stopLost 3 true k) s
  | .shared =>
    let s := (s.ctxs.map (·.1)).foldl (fun s k => s.stopLost 3 false k) s
    let s := { (s.hostEvent 0 (Config.freeValue 16 s.fresh).toNat 0 0 (Config.freeValue 8 (s.fresh + 1)).toNat) with fresh := s.fresh + 2 }
    { s with mgmt := { s.mgmt with power := .standby } }
/-- `MACHINE_CHECK` (R394). -/
def execMachineCheck (m : McScope) : State → Out := ready fun s => .next (s.containCheck m)
/-- Where an uncorrectable error in a platform frame is contained: in the context whose stage-2 array it holds, or else in its granule
(R394). -/
def State.platformScope (s : State) (frame : Nat) : McScope :=
  match s.ctxs.filter fun c => c.2.s2base / Config.frameBytes == frame with
  | [(key, _)] => .context (key / 128) (key % 128)
  | _ => .granules (2 ^ groupOf frame)
/-- The scrubber visits a unit (R314): a correctable error is corrected and counted; an uncorrectable one poisons the unit, with one
event until its mark is cleared, or is a machine check where it lies in a platform frame (R394). -/
def execScrub (u : ScrubUnit) (s : State) : Out :=
  match u with
  | .scratchWord core word bad =>
    if bad then
      .next ((s.updCore core fun c => { c with poison := NSet.add c.poison word }).tellUnit none ⟨some core, 8 * word⟩ none)
    else
      .next (match s.scratchOwner core with
        | some key => s.countError key
        | none => s)
  | .dramLine line bad =>
    let frame := 64 * line / Config.frameBytes
    if bad then
      let known := s.dramPoison.contains line
      let s := State.tellUnit { s with dramPoison := NSet.add s.dramPoison line } none ⟨none, 64 * line⟩ none
      .next (if frame % Config.framesPerGroup < Config.firstPlatform ∨ known then s else s.containCheck (s.platformScope frame))
    else
      .next (match s.frameOwner frame with
        | some (key, _) => s.countError key
        | none => s)

/-! ## Power states and reset (R404, R409) -/

/-- What outlives the power of the dies: the flash, the retired and degraded lists (R315), and host memory, which is not the part's. -/
def State.coldState (s : State) (p : Power) : State :=
  { State.reset with
    fresh := s.fresh
    hostMem := s.hostMem
    mgmt := { State.reset.mgmt with
      power := p
      flash := s.mgmt.flash
      retired := s.mgmt.retired
      degraded := s.mgmt.degraded } }
/-- The ROM checks the bundle in flash and runs it, or the part stays in recovery (R404). -/
def State.boot (s : State) : State :=
  let c := s.coldState .ready
  if Config.bundleValid s.mgmt.flash then { c with mgmt := { c.mgmt with running := s.mgmt.flash } }
  else { c with mgmt := { c.mgmt with recovery := true } }
/-- `POWER_ON` (R404), from off or standby. -/
def execPowerOn (s : State) : Out := if s.mgmt.power = .ready then .fault .noSuchStep else .next s.boot
/-- `POWER_LOSS` (R409). -/
def execPowerLoss (s : State) : Out := .next (s.coldState .off)
/-- `PACKAGE_RESET` (R404): `CYC` restarts from zero, and a newly loaded bundle takes effect. -/
def execPackageReset (s : State) : Out := if s.mgmt.power = .off then .fault .notPowered else .next s.boot

end Sys2Proof.Machine
end

