-- ==== Sys2Proof/Machine/Vector.lean ====
section
/-!
DEFINITION. Groups `0x10` to `0x14`: vector arithmetic, compares, masks, conversions, permutes and reductions (R114 to R130).
-/
namespace Sys2Proof.Machine

/-- The cycle counts in `VBUSY` when the `X` strand issued its word (R381). -/
def State.countIssue (s : State) (h : Hdr) : Out → Out
  | .next s' =>
    match s.env? h with
    | none => .next s'
    | some e =>
      match s'.task? e.core e.slot with
      | none => .next s'
      | some k =>
        if e.t = h.str ∧ (k.str e.t).wc = e.st.wc + 1 then .next (s'.bill e.task.key fun c => { c with vbusy := c.vbusy + 1 })
        else .next s'
  | o => o
/-- A word of groups `0x10` to `0x14`. -/
def vissue (h : Hdr) (lat : Nat) (p : Ports) (body : Env → State → Res) (s : State) : Out :=
  s.countIssue h (issue h lat p body s)
/-- A vector result of latency `lat`: the lanes of `f` where `ME` and `MK` select them, with their flags (R115, R116). -/
def vres (lat : Nat) (o : RRR) (e : Env) (s : State) (f : Nat → Nat × BitVec 3) : Res :=
  let lanes := s.lanes e o
  .fly s { lat := lat, op := .vector o.d.toNat (ofLanes fun i => BitVec.ofNat 32 (f i).1) lanes,
           stat := laneFlags lanes fun i => (f i).2 }
/-- `FPCTL.RM` (R30). -/
def Env.rm (e : Env) : RMode := e.task.fpctl.toNat % 4
/-- `FPCTL.FTZ` (R30). -/
def Env.ftz (e : Env) : Bool := e.task.fpctl.getLsbD 2
/-- The ports of a word with up to three vector sources. -/
def vports (o : RRR) : Ports := { pop := isPop o.a || isPop o.b || isPop o.c, push := pushTarget o.d.toNat }

/-! ## FP32 arithmetic (R84 to R86, R117) -/

/-- A lane as a number, flushed when `FTZ` is set (R86). -/
def flushed (ftz : Bool) (x : Lane) : Nat := if ftz then flush fp32 x.toNat else x.toNat
/-- The result of an operation, flushed when `FTZ` is set (R86). -/
def flushRes (ftz : Bool) (r : Nat × BitVec 3) : Nat × BitVec 3 := if ftz then (flush fp32 r.1, r.2) else r
/-- A word of group `0x10` (R117). -/
def vf32 (lat : Nat) (f : RMode → Nat → Nat → Nat → Nat × BitVec 3) (h : Hdr) (o : RRR) (s : State) : Out :=
  vissue h lat (vports o)
    (fun e s =>
      let a := s.vsrc e o.a
      let b := s.vsrc e o.b
      let c := s.vsrc e o.c
      vres lat o e s fun i =>
        flushRes e.ftz (f e.rm (flushed e.ftz (lane a i)) (flushed e.ftz (lane b i)) (flushed e.ftz (lane c i)))) s
/-- A word of group `0x10` that moves bits and never flushes (R85, R86). -/
def vbits (f : Lane → Lane) (h : Hdr) (o : RRR) (s : State) : Out :=
  vissue h 4 (vports o) (fun e s => let a := s.vsrc e o.a; vres 4 o e s fun i => ((f (lane a i)).toNat, 0)) s

/-- `vadd.f32` (R117). -/
def execVaddF32 (h : Hdr) (o : RRR) (s : State) : Out := vf32 4 (fun rm a b _ => fpSum fp32 rm a b false) h o s
/-- `vsub.f32` (R117). -/
def execVsubF32 (h : Hdr) (o : RRR) (s : State) : Out := vf32 4 (fun rm a b _ => fpSum fp32 rm a b true) h o s
/-- `vmul.f32` (R117). -/
def execVmulF32 (h : Hdr) (o : RRR) (s : State) : Out := vf32 4 (fun rm a b _ => fpMul fp32 rm a b) h o s
/-- `vfma.f32` (R117). -/
def execVfmaF32 (h : Hdr) (o : RRR) (s : State) : Out := vf32 4 (fun rm a b c => fpFma fp32 rm a b c false false) h o s
/-- `vfms.f32` (R117). -/
def execVfmsF32 (h : Hdr) (o : RRR) (s : State) : Out := vf32 4 (fun rm a b c => fpFma fp32 rm a b c false true) h o s
/-- `vfnma.f32` (R117). -/
def execVfnmaF32 (h : Hdr) (o : RRR) (s : State) : Out := vf32 4 (fun rm a b c => fpFma fp32 rm a b c true false) h o s
/-- `vmin.f32` (R117). -/
def execVminF32 (h : Hdr) (o : RRR) (s : State) : Out := vf32 4 (fun _ a b _ => fpMinMax fp32 false a b) h o s
/-- `vmax.f32` (R117). -/
def execVmaxF32 (h : Hdr) (o : RRR) (s : State) : Out := vf32 4 (fun _ a b _ => fpMinMax fp32 true a b) h o s
/-- `vabs.f32` (R85, R117). -/
def execVabsF32 (h : Hdr) (o : RRR) (s : State) : Out := vbits (fun a => a &&& 0x7FFFFFFF) h o s
/-- `vneg.f32` (R85, R117). -/
def execVnegF32 (h : Hdr) (o : RRR) (s : State) : Out := vbits (fun a => a ^^^ 0x80000000) h o s
/-- `vrcp.f32` (R118, R119). -/
def execVrcpF32 (h : Hdr) (o : RRR) (s : State) : Out := vf32 8 (fun rm a _ _ => fpApprox 10 rm a) h o s
/-- `vrsq.f32` (R118, R120). -/
def execVrsqF32 (h : Hdr) (o : RRR) (s : State) : Out := vf32 8 (fun rm a _ _ => fpApprox 11 rm a) h o s
/-- `vexp2.f32` (R118, R121). -/
def execVexp2F32 (h : Hdr) (o : RRR) (s : State) : Out := vf32 8 (fun rm a _ _ => fpApprox 12 rm a) h o s
/-- `vlog2.f32` (R118, R122). -/
def execVlog2F32 (h : Hdr) (o : RRR) (s : State) : Out := vf32 8 (fun rm a _ _ => fpApprox 13 rm a) h o s

/-! ## Packed 16-bit arithmetic (R87, R123) -/

/-- The 16-bit format that `FX` selects (R87). -/
def halfFmt (o : RRR) : Fmt := if Enc.FX o = 0 then fp16 else bf16
/-- Both elements of a lane (R87). -/
def perHalf (f : Nat → Nat → Nat → Nat × BitVec 3) (a b c : Lane) : Nat × BitVec 3 :=
  let (lo, f1) := f (a.toNat % 65536) (b.toNat % 65536) (c.toNat % 65536)
  let (hi, f2) := f (a.toNat / 65536) (b.toNat / 65536) (c.toNat / 65536)
  (lo + 65536 * hi, f1 ||| f2)
/-- A word of group `0x11` (R123). -/
def vhalf (f : Fmt → RMode → Nat → Nat → Nat → Nat × BitVec 3) (h : Hdr) (o : RRR) (s : State) : Out :=
  vissue h 4 (vports o)
    (fun e s =>
      let a := s.vsrc e o.a
      let b := s.vsrc e o.b
      let c := s.vsrc e o.c
      vres 4 o e s fun i => perHalf (f (halfFmt o) e.rm) (lane a i) (lane b i) (lane c i)) s

/-- `vadd.h` (R123). -/
def execVaddH (h : Hdr) (o : RRR) (s : State) : Out := vhalf (fun fm rm a b _ => fpSum fm rm a b false) h o s
/-- `vsub.h` (R123). -/
def execVsubH (h : Hdr) (o : RRR) (s : State) : Out := vhalf (fun fm rm a b _ => fpSum fm rm a b true) h o s
/-- `vmul.h` (R123). -/
def execVmulH (h : Hdr) (o : RRR) (s : State) : Out := vhalf (fun fm rm a b _ => fpMul fm rm a b) h o s
/-- `vfma.h` (R123). -/
def execVfmaH (h : Hdr) (o : RRR) (s : State) : Out := vhalf (fun fm rm a b c => fpFma fm rm a b c false false) h o s
/-- `vmin.h` (R123). -/
def execVminH (h : Hdr) (o : RRR) (s : State) : Out := vhalf (fun fm _ a b _ => fpMinMax fm false a b) h o s
/-- `vmax.h` (R123). -/
def execVmaxH (h : Hdr) (o : RRR) (s : State) : Out := vhalf (fun fm _ a b _ => fpMinMax fm true a b) h o s

/-! ## Integer arithmetic (R124) -/

/-- A clamped integer with `OVF` (R124). -/
def clampI (x lo hi : Int) : Lane × BitVec 3 :=
  if x < lo then (BitVec.ofInt 32 lo, 2) else if x > hi then (BitVec.ofInt 32 hi, 2) else (BitVec.ofInt 32 x, 0)
/-- A word of group `0x12` (R124). -/
def vint (f : Lane → Lane → Lane × BitVec 3) (h : Hdr) (o : RRR) (s : State) : Out :=
  vissue h 2 (vports o)
    (fun e s =>
      let a := s.vsrc e o.a
      let b := s.vsrc e o.b
      vres 2 o e s fun i => ((f (lane a i) (lane b i)).1.toNat, (f (lane a i) (lane b i)).2)) s

/-- `vadd.i32` (R124). -/
def execVaddI32 (h : Hdr) (o : RRR) (s : State) : Out := vint (fun a b => (a + b, 0)) h o s
/-- `vsub.i32` (R124). -/
def execVsubI32 (h : Hdr) (o : RRR) (s : State) : Out := vint (fun a b => (a - b, 0)) h o s
/-- `vmul.i32` (R124). -/
def execVmulI32 (h : Hdr) (o : RRR) (s : State) : Out := vint (fun a b => (a * b, 0)) h o s
/-- `vand` (R124). -/
def execVand (h : Hdr) (o : RRR) (s : State) : Out := vint (fun a b => (a &&& b, 0)) h o s
/-- `vor` (R124). -/
def execVor (h : Hdr) (o : RRR) (s : State) : Out := vint (fun a b => (a ||| b, 0)) h o s
/-- `vxor` (R124). -/
def execVxor (h : Hdr) (o : RRR) (s : State) : Out := vint (fun a b => (a ^^^ b, 0)) h o s
/-- `vshl` (R124). -/
def execVshl (h : Hdr) (o : RRR) (s : State) : Out := vint (fun a b => (a <<< (b.toNat % 32), 0)) h o s
/-- `vshr` (R124). -/
def execVshr (h : Hdr) (o : RRR) (s : State) : Out := vint (fun a b => (a >>> (b.toNat % 32), 0)) h o s
/-- `vsra` (R124). -/
def execVsra (h : Hdr) (o : RRR) (s : State) : Out := vint (fun a b => (a.sshiftRight (b.toNat % 32), 0)) h o s
/-- `vaddss` (R124). -/
def execVaddss (h : Hdr) (o : RRR) (s : State) : Out := vint (fun a b => clampI (a.toInt + b.toInt) (-2147483648) 2147483647) h o s
/-- `vsubss` (R124). -/
def execVsubss (h : Hdr) (o : RRR) (s : State) : Out := vint (fun a b => clampI (a.toInt - b.toInt) (-2147483648) 2147483647) h o s
/-- `vaddus` (R124). -/
def execVaddus (h : Hdr) (o : RRR) (s : State) : Out := vint (fun a b => clampI ((a.toNat : Int) + b.toNat) 0 4294967295) h o s
/-- `vsubus` (R124). -/
def execVsubus (h : Hdr) (o : RRR) (s : State) : Out := vint (fun a b => clampI ((a.toNat : Int) - b.toNat) 0 4294967295) h o s
/-- `vmin.i32` (R124). -/
def execVminI32 (h : Hdr) (o : RRR) (s : State) : Out := vint (fun a b => (if a.slt b then a else b, 0)) h o s
/-- `vmax.i32` (R124). -/
def execVmaxI32 (h : Hdr) (o : RRR) (s : State) : Out := vint (fun a b => (if b.slt a then a else b, 0)) h o s

/-! ## Compares and masks (R125, R126) -/

/-- A word with 64 bits, bit `i` given by `f i`. -/
def ofBits (f : Nat → Bool) : Word :=
  BitVec.ofNat 64 ((List.range 64).foldr (fun i n => (if f i then 1 else 0) + 2 * n) 0)
/-- A compare into a mask register (R125). -/
def vcmpOp (f : Nat → Lane → Lane → Bool × BitVec 3) (h : Hdr) (o : RRR) (s : State) : Out :=
  vissue h 2 (vports o)
    (fun e s =>
      let a := s.vsrc e o.a
      let b := s.vsrc e o.b
      let lanes := s.lanes e o
      .fly s { lat := 2, op := .mask o.d.toNat (ofBits fun i => (f (Enc.FX o) (lane a i) (lane b i)).1) lanes,
               stat := laneFlags lanes fun i => (f (Enc.FX o) (lane a i) (lane b i)).2 }) s
/-- `vcmp.f32` (R125). -/
def execVcmpF32 (h : Hdr) (o : RRR) (s : State) : Out := vcmpOp (fun cc a b => fpCmp cc a.toNat b.toNat) h o s
/-- `vcmp.i32` (R125). -/
def execVcmpI32 (h : Hdr) (o : RRR) (s : State) : Out := vcmpOp (fun cc a b => (icmpCond true cc a b, 0)) h o s
/-- `vcmpu.i32` (R125). -/
def execVcmpuI32 (h : Hdr) (o : RRR) (s : State) : Out := vcmpOp (fun cc a b => (icmpCond false cc a b, 0)) h o s
/-- A mask-logic word (R126). -/
def maskOp (f : Word → Word → Word) (h : Hdr) (o : RRR) (s : State) : Out :=
  vissue h 2 {} (fun e s => .fly s { lat := 2, op := .mask o.d.toNat (f (s.msrc e o.a) (s.msrc e o.b)) (BitVec.allOnes 64) }) s

/-- `mand` (R126). -/
def execMand (h : Hdr) (o : RRR) (s : State) : Out := maskOp (fun a b => a &&& b) h o s
/-- `mor` (R126). -/
def execMor (h : Hdr) (o : RRR) (s : State) : Out := maskOp (fun a b => a ||| b) h o s
/-- `mxor` (R126). -/
def execMxor (h : Hdr) (o : RRR) (s : State) : Out := maskOp (fun a b => a ^^^ b) h o s
/-- `mnot` (R126). -/
def execMnot (h : Hdr) (o : RRR) (s : State) : Out := maskOp (fun a _ => ~~~a) h o s
/-- `mandn` (R126). -/
def execMandn (h : Hdr) (o : RRR) (s : State) : Out := maskOp (fun a b => a &&& ~~~b) h o s
/-- `mpop` (R126). -/
def execMpop (h : Hdr) (o : RRR) (s : State) : Out :=
  vissue h 2 { push := pushTarget o.d.toNat }
    (fun e s => .fly s { lat := 2, op := .scalar o.d.toNat
                          (BitVec.ofNat 64 ((List.range 64).countP fun k => (s.msrc e o.a).getLsbD k)) }) s
/-- `mmov`: each of `D` and `A` is a mask register or a scalar (R126). -/
def execMmov (h : Hdr) (o : RRR) (s : State) : Out :=
  vissue h 2 { pop := isPop o.a, push := pushTarget o.d.toNat }
    (fun e s =>
      let v := if Enc.isM o.a then s.msrc e o.a else e.src o.a
      .fly s { lat := 2, op := if Enc.isM o.d then .mask o.d.toNat v (BitVec.allOnes 64) else .scalar o.d.toNat v }) s

/-! ## Conversions (R88, R127, R128) -/

/-- A format-table entry of a task; an entry never written holds three zero records (R76). -/
def Task.fmtEntry (k : Task) (n : Nat) : FmtEntry := SMap.get k.fmt ⟨0, 0, 0⟩ n
/-- An `mfmt` to entry `n` has not landed (R156). -/
def State.fmtPending (s : State) (e : Env) (n : Nat) : Bool :=
  s.flights.any fun f => f.ofTask e.core e.slot && (match f.op with
    | .fmt m _ => m == n
    | _ => false)
/-- Container `k` of a register, `w` bits wide (R71, R127). -/
def elem (v : Vec) (w k : Nat) : Nat := (v.toNat >>> (w * k)) % 2 ^ w
/-- The output record of the entry that a conversion names, if the entry is not empty and the segment fits (R127). -/
def cvtRecord (e : Env) (o : RRR) : Option Rec :=
  let r := (e.task.fmtEntry (Enc.FX o)).o
  if !recValid r then none
  else if fld (Enc.IX o) 2 0 < 2048 / (64 * (Rec.of r).cw) then some (Rec.of r) else none
/-- `vcvt.nf` on one code (R88, R127). -/
def widenCode (r : Rec) (rm : RMode) (c : Nat) : Nat × BitVec 3 :=
  let (v, f1) := (r.decode c).read
  let (w, f2) := v.mulScale r.tensorFactor
  let (x, f3) := round32 rm w
  (x, f1 ||| f2 ||| f3)
/-- `vcvt.fn` on one FP32 value (R88, R127). -/
def narrowCode (r : Rec) (rm : RMode) (c : Nat) : Nat × BitVec 3 :=
  let (w, f2) := (fp32.decode c 0).divScale r.tensorFactor
  let (x, f3) := r.f.encode rm r.sat w
  (x, f2 ||| f3)
/-- `vcvt.nf` (R127). -/
def execVcvtNf (h : Hdr) (o : RRR) (s : State) : Out :=
  vissue h 4 (vports o)
    (fun e s =>
      if s.fmtPending e (Enc.FX o) then .stall else
      match cvtRecord e o with
      | none => .fault cFormat 0
      | some r =>
        let a := s.vsrc e o.a
        vres 4 o e s fun i => widenCode r e.rm (elem a r.cw (64 * fld (Enc.IX o) 2 0 + i))) s
/-- `vcvt.fn`: only the lanes of segment `g` are written (R127). -/
def execVcvtFn (h : Hdr) (o : RRR) (s : State) : Out :=
  vissue h 4 (vports o)
    (fun e s =>
      if s.fmtPending e (Enc.FX o) then .stall else
      match cvtRecord e o with
      | none => .fault cFormat 0
      | some r =>
        let a := s.vsrc e o.a
        let g := fld (Enc.IX o) 2 0
        let code (i : Nat) : Nat × BitVec 3 := narrowCode r e.rm (lane a i).toNat
        let seg := (List.range 64).foldr (fun i n => (code i).1 + 2 ^ r.cw * n) 0
        -- a segment fills 2 * cw lanes from lane 2 * cw * g on
        .fly s { lat := 4, op := .vector o.d.toNat (BitVec.ofNat 2048 (seg <<< (64 * r.cw * g)))
                                   (BitVec.ofNat 64 ((2 ^ (2 * r.cw) - 1) <<< (2 * r.cw * g))),
                 stat := laneFlags (BitVec.allOnes 64) fun i => (code i).2 }) s
/-- A lane-wise conversion (R128). -/
def vcvt (f : RMode → Lane → Lane → Nat × BitVec 3) (h : Hdr) (o : RRR) (s : State) : Out :=
  vissue h 4 (vports o)
    (fun e s =>
      let a := s.vsrc e o.a
      let b := s.vsrc e o.b
      vres 4 o e s fun i => f e.rm (lane a i) (lane b i)) s
/-- `vcvt.f32.i32` (R128). -/
def execVcvtF32I32 (h : Hdr) (o : RRR) (s : State) : Out :=
  vcvt (fun rm a _ => round32 rm (Val.ofExact (Exact.ofInt a.toInt))) h o s
/-- `vcvt.i32.f32` (R128). -/
def execVcvtI32F32 (h : Hdr) (o : RRR) (s : State) : Out := vcvt (fun rm a _ => fpToI32 rm a.toNat) h o s
/-- An FP32 code encoded into a 16-bit format; a signalling NaN sets no flag, since R77 sets none (R88, R128). -/
def narrowHalf (f : Fmt) (rm : RMode) (c : Nat) : Nat × BitVec 3 :=
  f.encode rm false (fp32.decode c 0)
/-- `vcvt.h.f32` (R128). -/
def execVcvtHF32 (h : Hdr) (o : RRR) (s : State) : Out :=
  vcvt (fun rm a b =>
    let (x, f1) := narrowHalf (halfFmt o) rm a.toNat
    let (y, f2) := narrowHalf (halfFmt o) rm b.toNat
    (x + 65536 * y, f1 ||| f2)) h o s
/-- `vcvt.f32.h` (R128). -/
def execVcvtF32H (h : Hdr) (o : RRR) (s : State) : Out :=
  vcvt (fun rm a _ => round32 rm ((halfFmt o).decode (a.toNat / 65536 ^ (Enc.IX o % 2) % 65536) 0)) h o s

/-! ## Lane moves (R129) -/

/-- `vperm` (R129). -/
def execVperm (h : Hdr) (o : RRR) (s : State) : Out :=
  vissue h 2 (vports o)
    (fun e s =>
      let a := s.vsrc e o.a
      let b := s.vsrc e o.b
      vres 2 o e s fun i => ((lane a ((lane b i).toNat % 64)).toNat, 0)) s
/-- `vperm.rot` (R129). -/
def execVpermRot (h : Hdr) (o : RRR) (s : State) : Out :=
  vissue h 2 (vports o)
    (fun e s => let a := s.vsrc e o.a; vres 2 o e s fun i => ((lane a ((i + fld (Enc.IX o) 5 0) % 64)).toNat, 0)) s
/-- `vbcast` (R129). -/
def execVbcast (h : Hdr) (o : RRR) (s : State) : Out :=
  vissue h 2 (vports o)
    (fun e s => let a := s.vsrc e o.a; vres 2 o e s fun _ => ((lane a (fld (Enc.IX o) 5 0)).toNat, 0)) s
/-- `vsel`: every lane is written (R129). -/
def execVsel (h : Hdr) (o : RRR) (s : State) : Out :=
  vissue h 2 (vports o)
    (fun e s =>
      .fly s { lat := 2, op := .vector o.d.toNat (mixLanes (s.vsrc e o.b) (s.vsrc e o.a) (s.mread e (Enc.MK o)))
                                 (BitVec.allOnes 64) }) s
/-- `vext` (R129). -/
def execVext (h : Hdr) (o : RRR) (s : State) : Out :=
  vissue h 2 (vports o)
    (fun e s => .fly s { lat := 2, op := .scalar o.d.toNat ((lane (s.vsrc e o.a) (fld (Enc.IX o) 5 0)).zeroExtend 64) }) s
/-- `vins` (R129). -/
def execVins (h : Hdr) (o : RRR) (s : State) : Out :=
  vissue h 2 (vports o)
    (fun e s => .fly s { lat := 2, op := .vector o.d.toNat (ofLanes fun _ => (e.src o.a).setWidth 32)
                                           (1#64 <<< fld (Enc.IX o) 5 0) }) s

/-! ## Reductions (R130) -/

/-- One step of the tree: lane `i` with lane `i + w`. -/
def redStep (comb : Nat → Nat → Nat × BitVec 3) (t : List (Option Nat) × BitVec 3) (w : Nat) : List (Option Nat) × BitVec 3 :=
  (List.range w).foldr (fun i (acc : List (Option Nat) × BitVec 3) =>
    match t.1.getD i none, t.1.getD (i + w) none with
    | some x, some y => let r := comb x y; (some r.1 :: acc.1, acc.2 ||| r.2)
    | some x, none => (some x :: acc.1, acc.2)
    | none, y => (y :: acc.1, acc.2)) ([], t.2)
/-- The reduction of the lanes that take part (R130). -/
def reduce (comb : Nat → Nat → Nat × BitVec 3) (ident : Nat) (v : Vec) (lanes : BitVec 64) : Nat × BitVec 3 :=
  let t := (List.range 64).map fun i => if lanes.getLsbD i then some (lane v i).toNat else none
  let r := [32, 16, 8, 4, 2, 1].foldl (redStep comb) (t, 0)
  ((r.1.getD 0 none).getD ident, r.2)
/-- A reduction word (R130): `fc`, `ic` combine FP32 values and integers. -/
def vredOp (fc : RMode → Nat → Nat → Nat × BitVec 3) (fi : Nat) (ic : Lane → Lane → Lane) (ii : Nat)
    (h : Hdr) (o : RRR) (s : State) : Out :=
  vissue h 8 (vports o)
    (fun e s =>
      let r := if Enc.FX o = 0 then reduce (fc e.rm) fi (s.vsrc e o.a) (s.lanes e o)
        else reduce (fun x y => ((ic (BitVec.ofNat 32 x) (BitVec.ofNat 32 y)).toNat, 0)) ii (s.vsrc e o.a) (s.lanes e o)
      .fly s { lat := 8, stat := r.2,
               op := if o.d.toNat < 72 then .vector o.d.toNat (ofLanes fun _ => BitVec.ofNat 32 r.1) (BitVec.allOnes 64)
                     else .scalar o.d.toNat (BitVec.ofNat 64 r.1) }) s
/-- `vred.add` (R130). -/
def execVredAdd (h : Hdr) (o : RRR) (s : State) : Out :=
  vredOp (fun rm x y => fpSum fp32 rm x y false) 0 (fun x y => x + y) 0 h o s
/-- `vred.min` (R130). -/
def execVredMin (h : Hdr) (o : RRR) (s : State) : Out :=
  vredOp (fun _ x y => fpMinMax fp32 false x y) 0x7F800000 (fun x y => if x.slt y then x else y) 0x7FFFFFFF h o s
/-- `vred.max` (R130). -/
def execVredMax (h : Hdr) (o : RRR) (s : State) : Out :=
  vredOp (fun _ x y => fpMinMax fp32 true x y) 0xFF800000 (fun x y => if y.slt x then x else y) 0x80000000 h o s

end Sys2Proof.Machine
end

