-- ==== Sys2Proof/Machine/VectorMem.lean ====
section
/-!
DEFINITION. Groups `0x15` and `0x16`: loads and stores of vector and mask registers (R131 to R137).
-/
namespace Sys2Proof.Machine

/-- The base of a `MEM` word as a 64-bit number: `(BR + Sext(OFF)) mod 2^64` (R131). -/
def Env.baseMem (e : Env) (o : MEM) : Word := e.st.reg (o.br.toNat - 84) + o.off.signExtend 64
/-- The base of a `MEMX` word (R131). -/
def Env.baseMemx (e : Env) (o : MEMX) : Word := e.st.reg (o.br.toNat - 84) + o.off.signExtend 64
/-- Addresses of consecutive lanes (R132). -/
def unitLanes (ea : Word) : List LaneAddr := lanesAt fun i => ea + BitVec.ofNat 64 (4 * i)
/-- Addresses of strided lanes (R132). -/
def strideLanes (ea s : Word) : List LaneAddr := lanesAt fun i => ea + BitVec.ofNat 64 i * s
/-- Addresses of indexed lanes (R132, R133). -/
def indexLanes (ea : Word) (v : Vec) : List LaneAddr := lanesAt fun i => ea + laneIndex v i
/-- One address for every lane (R132). -/
def sameLanes (ea : Word) : List LaneAddr := lanesAt fun _ => ea
/-- The 8 bytes of a mask register (R132). -/
def maskBytes (ea : Word) : List LaneAddr := [⟨ea.toNat, 8, 0⟩]

/-- Two lanes need different words of one sub-array of one bank (R131, R296). -/
def conflict (ls : List LaneAddr) : Bool :=
  ls.any fun p => ls.any fun q =>
    p.a / 8 != q.a / 8 && p.a / 65536 == q.a / 65536 && p.a / 8 % 64 == q.a / 8 % 64
/-- Every lane lies in the own local window, so that the access uses its strand's paths (R296). -/
def ownLanes (ls : List LaneAddr) : Bool := ls.all fun l => localScratch l.a l.len
/-- The latency that the addresses of a scratch load require (R131). An address that maps nowhere requires 15 like every address outside
the own local window, so that a `DST` of 6 to 14 raises Illegal Distance before the Address Range check comes; R131 gives no latency
for it (DEDUCED, assumption log 12). -/
def vectorLat (ls : List LaneAddr) : Nat :=
  if ownLanes ls && !conflict ls then 6 else 15

/-- The body of a load whose lane addresses are known (R131, R135). `table` holds the bytes of the index table that it has read, if any.
Poison met at latency 6 is a precise fault, at latency 15 a late one (R135). -/
def vloadAt (glob : Bool) (spec : Nat) (cls : Nat) (table : List Piece) (ea : Word) (ls : List LaneAddr) (e : Env) (s : State) : Res :=
  let lat := if glob then 15 else vectorLat ls
  if e.h.dst.toNat < lat then .fault cDistance 0
  else
    match (if glob then globalLanes e ea ls false else s.scratchLanes e ea ls) with
    | .misaligned a => .fault cAlignment a
    | .range a => .fault cRange a
    | .violation a => .violation a
    | .control off => .fault cRange off
    | .ok ps =>
      if lat = 6 then
        if s.mustWait e cls ps then .stall
        else
          match s.firstPoison (table ++ ps) with
          | some p => .fault cPoison p.name
          | none =>
            .fly s { lat := 6, op := if spec < 72 then .vector spec (BitVec.ofNat 2048 (s.gather ps)) (BitVec.allOnes 64)
                                     else .mask spec (BitVec.ofNat 64 (s.gather ps)) (BitVec.allOnes 64) }
      else
        match s.firstPoison table with
        | some p => .fly s { lat := 15, op := .badLoad spec p.name ps, acc := true, cls := cls }
        | none => .fly s { lat := 15, op := .load spec ps 8 false, acc := true, cls := cls }

/-- The index table of a gather, checked and read before any lane (R132); the read waits for the earlier accesses of the strand that come
before it (R237, R240). Poison in it is reported with the address `t` of the table, as the checks of R132 are; R135 names the addresses of
lanes only (DEDUCED, assumption log 16). -/
def withTable (cls : Nat) (t : Word) (e : Env) (s : State) (k : Vec → List Piece → Res) : Res :=
  if t.toNat % 4 ≠ 0 then .fault cAlignment t.toNat
  else if !localScratch t.toNat 256 then .fault cRange t.toNat
  else
    let ps : List Piece := [⟨⟨some e.core, t.toNat⟩, 256, 0, t.toNat⟩]
    if s.mustWait e cls ps then .stall else k (BitVec.ofNat 2048 (s.scratchNat e.core t.toNat 256)) ps

/-- A load of format `MEM` (R132). -/
def vldOp (glob : Bool) (lanes : Word → List LaneAddr) (h : Hdr) (o : MEM) (s : State) : Out :=
  issue h (if glob then 15 else 6) {}
    (fun e s => vloadAt glob o.dr.toNat o.cls.toNat [] (e.baseMem o) (lanes (e.baseMem o)) e s) s
/-- A strided load (R132). -/
def vldsOp (glob : Bool) (h : Hdr) (o : MEMX) (s : State) : Out :=
  issue h (if glob then 15 else 6) {}
    (fun e s => vloadAt glob o.dr.toNat o.cls.toNat [] (e.baseMemx o) (strideLanes (e.baseMemx o) (e.src o.xr)) e s) s
/-- A gather through an index table (R132). -/
def vldgOp (glob : Bool) (h : Hdr) (o : MEMX) (s : State) : Out :=
  issue h (if glob then 15 else 6) {}
    (fun e s => withTable o.cls.toNat (e.src o.xr) e s fun v t =>
      vloadAt glob o.dr.toNat o.cls.toNat t (e.baseMemx o) (indexLanes (e.baseMemx o) v) e s) s

/-- `vld` (R132). -/
def execVld (h : Hdr) (o : MEM) (s : State) : Out := vldOp false unitLanes h o s
/-- `vlds` (R132). -/
def execVlds (h : Hdr) (o : MEMX) (s : State) : Out := vldsOp false h o s
/-- `vldg` (R132). -/
def execVldg (h : Hdr) (o : MEMX) (s : State) : Out := vldgOp false h o s
/-- `vldb` (R132). -/
def execVldb (h : Hdr) (o : MEM) (s : State) : Out := vldOp false sameLanes h o s
/-- `vgld` (R132). -/
def execVgld (h : Hdr) (o : MEM) (s : State) : Out := vldOp true unitLanes h o s
/-- `vglds` (R132). -/
def execVglds (h : Hdr) (o : MEMX) (s : State) : Out := vldsOp true h o s
/-- `vgldg` (R132). -/
def execVgldg (h : Hdr) (o : MEMX) (s : State) : Out := vldgOp true h o s
/-- `mld` (R132). -/
def execMld (h : Hdr) (o : MEM) (s : State) : Out := vldOp false maskBytes h o s

/-- The body of a store whose lane addresses are known (R133, R135, R137). -/
def vstoreAt (glob : Bool) (spec : Nat) (cls : Nat) (ea : Word) (ls : List LaneAddr) (e : Env) (s : State) : Res :=
  match (if glob then globalLanes e ea ls true else s.scratchLanes e ea ls) with
  | .misaligned a => .fault cAlignment a
  | .range a => .fault cRange a
  | .violation a => .violation a
  | .control off => .fault cRange off
  | .ok ps =>
    match s.hitsBarrier ps with
    | some p => .fault cBarrierWrite p.name
    | none =>
      if s.pathsBusy e ps then .stall
      else .fly (if glob then s else s.takePaths e (subWords (ls.filter fun l => localScratch l.a l.len)))
        { lat := 2, op := .storeSrc spec ps, acc := true, cls := cls, own := !glob && ownLanes ls }
/-- A store of format `MEM` (R133). -/
def vstOp (glob : Bool) (lanes : Word → List LaneAddr) (h : Hdr) (o : MEM) (s : State) : Out :=
  issue h 2 {} (fun e s => vstoreAt glob o.dr.toNat o.cls.toNat (e.baseMem o) (lanes (e.baseMem o)) e s) s
/-- A store of format `MEMX` (R133). -/
def vstxOp (glob : Bool) (lanes : Env → State → List LaneAddr) (h : Hdr) (o : MEMX) (s : State) : Out :=
  issue h 2 {} (fun e s => vstoreAt glob o.dr.toNat o.cls.toNat (e.baseMemx o) (lanes e s) e s) s

/-- `vst` (R133). -/
def execVst (h : Hdr) (o : MEM) (s : State) : Out := vstOp false unitLanes h o s
/-- `vsts` (R133). -/
def execVsts (h : Hdr) (o : MEMX) (s : State) : Out :=
  vstxOp false (fun e _ => strideLanes (e.baseMemx o) (e.src o.xr)) h o s
/-- `vsct` (R133). -/
def execVsct (h : Hdr) (o : MEMX) (s : State) : Out :=
  vstxOp false (fun e s => indexLanes (e.baseMemx o) (s.vread e o.xr.toNat)) h o s
/-- The open window of a core's scratchpad that holds bytes `off` to `off + 255` (R134). -/
def State.windowOver (s : State) (c off : Nat) : Bool :=
  (s.core c).windows.any fun p => p.2.holds off 256
/-- `vst.cnt` (R134). -/
def execVstCnt (h : Hdr) (o : MEM) (s : State) : Out :=
  issue h 2 {}
    (fun e s =>
      let ea := (e.baseMem o).toNat
      match s.scratchLanes e (e.baseMem o) (unitLanes (e.baseMem o)) with
      | .misaligned a => .fault cAlignment a
      | .range a => .fault cRange a
      | .violation a => .violation a
      | .control off => .fault cRange off
      | .ok ps =>
        match scratchMap e.core ea with
        | none => .fault cRange ea
        | some (c, off) =>
          if !s.windowOver c off then .fault cRange ea
          else
            match s.hitsBarrier ps with
            | some p => .fault cBarrierWrite p.name
            | none =>
              if s.pathsBusy e ps then .stall
              else .fly s
                { lat := 2, op := .cntSrc o.dr.toNat c off, acc := true, cls := o.cls.toNat, own := localScratch ea 256 }) s
/-- `vstm` (R133): lanes that the mask leaves out access nothing and are not checked. -/
def execVstm (h : Hdr) (o : MEMX) (s : State) : Out :=
  vstxOp false (fun e s =>
    (unitLanes (e.baseMemx o)).filter fun l => (s.msrc e o.xr).getLsbD (l.off / 4)) h o s
/-- `vgst` (R133). -/
def execVgst (h : Hdr) (o : MEM) (s : State) : Out := vstOp true unitLanes h o s
/-- `vgsts` (R133). -/
def execVgsts (h : Hdr) (o : MEMX) (s : State) : Out :=
  vstxOp true (fun e _ => strideLanes (e.baseMemx o) (e.src o.xr)) h o s
/-- `vgsct` (R133). -/
def execVgsct (h : Hdr) (o : MEMX) (s : State) : Out :=
  vstxOp true (fun e s => indexLanes (e.baseMemx o) (s.vread e o.xr.toNat)) h o s
/-- `mst` (R133). -/
def execMst (h : Hdr) (o : MEM) (s : State) : Out := vstOp false maskBytes h o s

end Sys2Proof.Machine
end

