-- ==== Sys2Proof/Machine/Dispatch.lean ====
section
/-!
DEFINITION. One arm for every operation of the opcode table, calling its meaning.
-/
namespace Sys2Proof.Machine

/-- What one operation does. -/
def exec (i : Instr) (s : State) : Host.Outcome State Fault Refusal :=
  match i with
  | .add h o => Sys2Proof.Machine.execAdd h o s
  | .sub h o => Sys2Proof.Machine.execSub h o s
  | .and h o => Sys2Proof.Machine.execAnd h o s
  | .or h o => Sys2Proof.Machine.execOr h o s
  | .xor h o => Sys2Proof.Machine.execXor h o s
  | .shl h o => Sys2Proof.Machine.execShl h o s
  | .shr h o => Sys2Proof.Machine.execShr h o s
  | .sra h o => Sys2Proof.Machine.execSra h o s
  | .mul h o => Sys2Proof.Machine.execMul h o s
  | .mulh h o => Sys2Proof.Machine.execMulh h o s
  | .mulhu h o => Sys2Proof.Machine.execMulhu h o s
  | .min h o => Sys2Proof.Machine.execMin h o s
  | .max h o => Sys2Proof.Machine.execMax h o s
  | .minu h o => Sys2Proof.Machine.execMinu h o s
  | .maxu h o => Sys2Proof.Machine.execMaxu h o s
  | .addi h o => Sys2Proof.Machine.execAddi h o s
  | .andi h o => Sys2Proof.Machine.execAndi h o s
  | .ori h o => Sys2Proof.Machine.execOri h o s
  | .xori h o => Sys2Proof.Machine.execXori h o s
  | .shli h o => Sys2Proof.Machine.execShli h o s
  | .shri h o => Sys2Proof.Machine.execShri h o s
  | .srai h o => Sys2Proof.Machine.execSrai h o s
  | .muli h o => Sys2Proof.Machine.execMuli h o s
  | .lih h o => Sys2Proof.Machine.execLih h o s
  | .extr h o => Sys2Proof.Machine.execExtr h o s
  | .extru h o => Sys2Proof.Machine.execExtru h o s
  | .ins h o => Sys2Proof.Machine.execIns h o s
  | .clz h o => Sys2Proof.Machine.execClz h o s
  | .ctz h o => Sys2Proof.Machine.execCtz h o s
  | .popc h o => Sys2Proof.Machine.execPopc h o s
  | .brev h o => Sys2Proof.Machine.execBrev h o s
  | .cmpEq h o => Sys2Proof.Machine.execCmpEq h o s
  | .cmpNe h o => Sys2Proof.Machine.execCmpNe h o s
  | .cmpLt h o => Sys2Proof.Machine.execCmpLt h o s
  | .cmpLtu h o => Sys2Proof.Machine.execCmpLtu h o s
  | .cmpGe h o => Sys2Proof.Machine.execCmpGe h o s
  | .cmpGeu h o => Sys2Proof.Machine.execCmpGeu h o s
  | .cmpiEq h o => Sys2Proof.Machine.execCmpiEq h o s
  | .cmpiNe h o => Sys2Proof.Machine.execCmpiNe h o s
  | .cmpiLt h o => Sys2Proof.Machine.execCmpiLt h o s
  | .cmpiLtu h o => Sys2Proof.Machine.execCmpiLtu h o s
  | .cmpiGe h o => Sys2Proof.Machine.execCmpiGe h o s
  | .cmpiGeu h o => Sys2Proof.Machine.execCmpiGeu h o s
  | .pand h o => Sys2Proof.Machine.execPand h o s
  | .por h o => Sys2Proof.Machine.execPor h o s
  | .pxor h o => Sys2Proof.Machine.execPxor h o s
  | .pandn h o => Sys2Proof.Machine.execPandn h o s
  | .pnot h o => Sys2Proof.Machine.execPnot h o s
  | .pmov h o => Sys2Proof.Machine.execPmov h o s
  | .br h o => Sys2Proof.Machine.execBr h o s
  | .brz h o => Sys2Proof.Machine.execBrz h o s
  | .brnz h o => Sys2Proof.Machine.execBrnz h o s
  | .call h o => Sys2Proof.Machine.execCall h o s
  | .jmpi h o => Sys2Proof.Machine.execJmpi h o s
  | .calli h o => Sys2Proof.Machine.execCalli h o s
  | .loop h o => Sys2Proof.Machine.execLoop h o s
  | .brloop h o => Sys2Proof.Machine.execBrloop h o s
  | .spl h o => Sys2Proof.Machine.execSpl h o s
  | .fil h o => Sys2Proof.Machine.execFil h o s
  | .crr h o => Sys2Proof.Machine.execCrr h o s
  | .crw h o => Sys2Proof.Machine.execCrw h o s
  | .nop h o => Sys2Proof.Machine.execNop h o s
  | .mode h o => Sys2Proof.Machine.execMode h o s
  | .ifence h o => Sys2Proof.Machine.execIfence h o s
  | .yield h o => Sys2Proof.Machine.execYield h o s
  | .exit h o => Sys2Proof.Machine.execExit h o s
  | .trap h o => Sys2Proof.Machine.execTrap h o s
  | .tret h o => Sys2Proof.Machine.execTret h o s
  | .brk h o => Sys2Proof.Machine.execBrk h o s
  | .vaddF32 h o => Sys2Proof.Machine.execVaddF32 h o s
  | .vsubF32 h o => Sys2Proof.Machine.execVsubF32 h o s
  | .vmulF32 h o => Sys2Proof.Machine.execVmulF32 h o s
  | .vfmaF32 h o => Sys2Proof.Machine.execVfmaF32 h o s
  | .vfmsF32 h o => Sys2Proof.Machine.execVfmsF32 h o s
  | .vfnmaF32 h o => Sys2Proof.Machine.execVfnmaF32 h o s
  | .vminF32 h o => Sys2Proof.Machine.execVminF32 h o s
  | .vmaxF32 h o => Sys2Proof.Machine.execVmaxF32 h o s
  | .vabsF32 h o => Sys2Proof.Machine.execVabsF32 h o s
  | .vnegF32 h o => Sys2Proof.Machine.execVnegF32 h o s
  | .vrcpF32 h o => Sys2Proof.Machine.execVrcpF32 h o s
  | .vrsqF32 h o => Sys2Proof.Machine.execVrsqF32 h o s
  | .vexp2F32 h o => Sys2Proof.Machine.execVexp2F32 h o s
  | .vlog2F32 h o => Sys2Proof.Machine.execVlog2F32 h o s
  | .vaddH h o => Sys2Proof.Machine.execVaddH h o s
  | .vsubH h o => Sys2Proof.Machine.execVsubH h o s
  | .vmulH h o => Sys2Proof.Machine.execVmulH h o s
  | .vfmaH h o => Sys2Proof.Machine.execVfmaH h o s
  | .vminH h o => Sys2Proof.Machine.execVminH h o s
  | .vmaxH h o => Sys2Proof.Machine.execVmaxH h o s
  | .vaddI32 h o => Sys2Proof.Machine.execVaddI32 h o s
  | .vsubI32 h o => Sys2Proof.Machine.execVsubI32 h o s
  | .vmulI32 h o => Sys2Proof.Machine.execVmulI32 h o s
  | .vand h o => Sys2Proof.Machine.execVand h o s
  | .vor h o => Sys2Proof.Machine.execVor h o s
  | .vxor h o => Sys2Proof.Machine.execVxor h o s
  | .vshl h o => Sys2Proof.Machine.execVshl h o s
  | .vshr h o => Sys2Proof.Machine.execVshr h o s
  | .vsra h o => Sys2Proof.Machine.execVsra h o s
  | .vaddss h o => Sys2Proof.Machine.execVaddss h o s
  | .vsubss h o => Sys2Proof.Machine.execVsubss h o s
  | .vaddus h o => Sys2Proof.Machine.execVaddus h o s
  | .vsubus h o => Sys2Proof.Machine.execVsubus h o s
  | .vminI32 h o => Sys2Proof.Machine.execVminI32 h o s
  | .vmaxI32 h o => Sys2Proof.Machine.execVmaxI32 h o s
  | .vcmpF32 h o => Sys2Proof.Machine.execVcmpF32 h o s
  | .vcmpI32 h o => Sys2Proof.Machine.execVcmpI32 h o s
  | .vcmpuI32 h o => Sys2Proof.Machine.execVcmpuI32 h o s
  | .mand h o => Sys2Proof.Machine.execMand h o s
  | .mor h o => Sys2Proof.Machine.execMor h o s
  | .mxor h o => Sys2Proof.Machine.execMxor h o s
  | .mnot h o => Sys2Proof.Machine.execMnot h o s
  | .mandn h o => Sys2Proof.Machine.execMandn h o s
  | .mpop h o => Sys2Proof.Machine.execMpop h o s
  | .mmov h o => Sys2Proof.Machine.execMmov h o s
  | .vcvtNf h o => Sys2Proof.Machine.execVcvtNf h o s
  | .vcvtFn h o => Sys2Proof.Machine.execVcvtFn h o s
  | .vcvtF32I32 h o => Sys2Proof.Machine.execVcvtF32I32 h o s
  | .vcvtI32F32 h o => Sys2Proof.Machine.execVcvtI32F32 h o s
  | .vcvtHF32 h o => Sys2Proof.Machine.execVcvtHF32 h o s
  | .vcvtF32H h o => Sys2Proof.Machine.execVcvtF32H h o s
  | .vperm h o => Sys2Proof.Machine.execVperm h o s
  | .vpermRot h o => Sys2Proof.Machine.execVpermRot h o s
  | .vbcast h o => Sys2Proof.Machine.execVbcast h o s
  | .vsel h o => Sys2Proof.Machine.execVsel h o s
  | .vext h o => Sys2Proof.Machine.execVext h o s
  | .vins h o => Sys2Proof.Machine.execVins h o s
  | .vredAdd h o => Sys2Proof.Machine.execVredAdd h o s
  | .vredMin h o => Sys2Proof.Machine.execVredMin h o s
  | .vredMax h o => Sys2Proof.Machine.execVredMax h o s
  | .vld h o => Sys2Proof.Machine.execVld h o s
  | .vlds h o => Sys2Proof.Machine.execVlds h o s
  | .vldg h o => Sys2Proof.Machine.execVldg h o s
  | .vldb h o => Sys2Proof.Machine.execVldb h o s
  | .vgld h o => Sys2Proof.Machine.execVgld h o s
  | .vglds h o => Sys2Proof.Machine.execVglds h o s
  | .vgldg h o => Sys2Proof.Machine.execVgldg h o s
  | .mld h o => Sys2Proof.Machine.execMld h o s
  | .vst h o => Sys2Proof.Machine.execVst h o s
  | .vsts h o => Sys2Proof.Machine.execVsts h o s
  | .vsct h o => Sys2Proof.Machine.execVsct h o s
  | .vstCnt h o => Sys2Proof.Machine.execVstCnt h o s
  | .vstm h o => Sys2Proof.Machine.execVstm h o s
  | .vgst h o => Sys2Proof.Machine.execVgst h o s
  | .vgsts h o => Sys2Proof.Machine.execVgsts h o s
  | .vgsct h o => Sys2Proof.Machine.execVgsct h o s
  | .mst h o => Sys2Proof.Machine.execMst h o s
  | .mma h o => Sys2Proof.Machine.execMma h o s
  | .mmas h o => Sys2Proof.Machine.execMmas h o s
  | .mzero h o => Sys2Proof.Machine.execMzero h o s
  | .mdrn h o => Sys2Proof.Machine.execMdrn h o s
  | .mldacc h o => Sys2Proof.Machine.execMldacc h o s
  | .mscale h o => Sys2Proof.Machine.execMscale h o s
  | .mxpose h o => Sys2Proof.Machine.execMxpose h o s
  | .mfmt h o => Sys2Proof.Machine.execMfmt h o s
  | .mwait h o => Sys2Proof.Machine.execMwait h o s
  | .matrixCommandStart core => Sys2Proof.Machine.execMatrixCommandStart core s
  | .matrixCommandComplete core idx => Sys2Proof.Machine.execMatrixCommandComplete core idx s
  | .ld h o => Sys2Proof.Machine.execLd h o s
  | .lds h o => Sys2Proof.Machine.execLds h o s
  | .st h o => Sys2Proof.Machine.execSt h o s
  | .ldAcq h o => Sys2Proof.Machine.execLdAcq h o s
  | .ldsAcq h o => Sys2Proof.Machine.execLdsAcq h o s
  | .stRel h o => Sys2Proof.Machine.execStRel h o s
  | .aadd h o => Sys2Proof.Machine.execAadd h o s
  | .aand h o => Sys2Proof.Machine.execAand h o s
  | .aor h o => Sys2Proof.Machine.execAor h o s
  | .axor h o => Sys2Proof.Machine.execAxor h o s
  | .amin h o => Sys2Proof.Machine.execAmin h o s
  | .amax h o => Sys2Proof.Machine.execAmax h o s
  | .aminu h o => Sys2Proof.Machine.execAminu h o s
  | .amaxu h o => Sys2Proof.Machine.execAmaxu h o s
  | .aswp h o => Sys2Proof.Machine.execAswp h o s
  | .acas h o => Sys2Proof.Machine.execAcas h o s
  | .aaddF32 h o => Sys2Proof.Machine.execAaddF32 h o s
  | .sdreq id => Sys2Proof.Machine.execSdreq id s
  | .root id => Sys2Proof.Machine.execRoot id s
  | .shootdownComplete part fn => Sys2Proof.Machine.execShootdownComplete part fn s
  | .fence h o => Sys2Proof.Machine.execFence h o s
  | .fenceAck h o => Sys2Proof.Machine.execFenceAck h o s
  | .fenceAckTimeout id => Sys2Proof.Machine.execFenceAckTimeout id s
  | .barinit h o => Sys2Proof.Machine.execBarinit h o s
  | .barwait h o => Sys2Proof.Machine.execBarwait h o s
  | .barwaitNw h o => Sys2Proof.Machine.execBarwaitNw h o s
  | .barwaitNa h o => Sys2Proof.Machine.execBarwaitNa h o s
  | .barfree h o => Sys2Proof.Machine.execBarfree h o s
  | .lwin h o => Sys2Proof.Machine.execLwin h o s
  | .lwclose h o => Sys2Proof.Machine.execLwclose h o s
  | .lwwait h o => Sys2Proof.Machine.execLwwait h o s
  | .lwwaitTimeout core slot => Sys2Proof.Machine.execLwwaitTimeout core slot s
  | .lwpoll h o => Sys2Proof.Machine.execLwpoll h o s
  | .countedWriteArrival w => Sys2Proof.Machine.execCountedWriteArrival w s
  | .fld h o => Sys2Proof.Machine.execFld h o s
  | .fldTimeout tag => Sys2Proof.Machine.execFldTimeout tag s
  | .fst h o => Sys2Proof.Machine.execFst h o s
  | .fstOrd h o => Sys2Proof.Machine.execFstOrd h o s
  | .fatom h o => Sys2Proof.Machine.execFatom h o s
  | .fatomTimeout tag => Sys2Proof.Machine.execFatomTimeout tag s
  | .fldx h o => Sys2Proof.Machine.execFldx h o s
  | .fldxT h o => Sys2Proof.Machine.execFldxT h o s
  | .fldxTimeout tag => Sys2Proof.Machine.execFldxTimeout tag s
  | .gsig h o => Sys2Proof.Machine.execGsig h o s
  | .gwait h o => Sys2Proof.Machine.execGwait h o s
  | .gpoll h o => Sys2Proof.Machine.execGpoll h o s
  | .gateRefill gate => Sys2Proof.Machine.execGateRefill gate s
  | .book h o => Sys2Proof.Machine.execBook h o s
  | .bkqry h o => Sys2Proof.Machine.execBkqry h o s
  | .bkcan h o => Sys2Proof.Machine.execBkcan h o s
  | .bkrel h o => Sys2Proof.Machine.execBkrel h o s
  | .cpost h o => Sys2Proof.Machine.execCpost h o s
  | .coll h o => Sys2Proof.Machine.execColl h o s
  | .topb h o => Sys2Proof.Machine.execTopb h o s
  | .dqpush h o => Sys2Proof.Machine.execDqpush h o s
  | .dqpop h o => Sys2Proof.Machine.execDqpop h o s
  | .dqsteal h o => Sys2Proof.Machine.execDqsteal h o s
  | .htsset h o => Sys2Proof.Machine.execHtsset h o s
  | .htsdec h o => Sys2Proof.Machine.execHtsdec h o s
  | .heldDequePush cluster => Sys2Proof.Machine.execHeldDequePush cluster s
  | .qmap h o => Sys2Proof.Machine.execQmap h o s
  | .qunmap h o => Sys2Proof.Machine.execQunmap h o s
  | .queueNotify part fn qaddr => Sys2Proof.Machine.execQueueNotify part fn qaddr s
  | .resultLanding id => Sys2Proof.Machine.execResultLanding id s
  | .storePerform id => Sys2Proof.Machine.execStorePerform id s
  | .trapEntry core => Sys2Proof.Machine.execTrapEntry core s
  | .taskEndByFault core slot => Sys2Proof.Machine.execTaskEndByFault core slot s
  | .bookingDue core slot => Sys2Proof.Machine.execBookingDue core slot s
  | .sliceEnd part fn occasion => Sys2Proof.Machine.execSliceEnd part fn occasion s
  | .forcedSave core => Sys2Proof.Machine.execForcedSave core s
  | .contextSave part fn => Sys2Proof.Machine.execContextSave part fn s
  | .contextRestore part fn => Sys2Proof.Machine.execContextRestore part fn s
  | .prefetchStart core => Sys2Proof.Machine.execPrefetchStart core s
  | .prefetchComplete core => Sys2Proof.Machine.execPrefetchComplete core s
  | .leasePendingTimeout core => Sys2Proof.Machine.execLeasePendingTimeout core s
  | .taskActivate core => Sys2Proof.Machine.execTaskActivate core s
  | .taskWake core slot => Sys2Proof.Machine.execTaskWake core slot s
  | .priorityAging core slot => Sys2Proof.Machine.execPriorityAging core slot s
  | .autoSteal core => Sys2Proof.Machine.execAutoSteal core s
  | .bookingDecide => Sys2Proof.Machine.execBookingDecide s
  | .bookingRequestAging seq => Sys2Proof.Machine.execBookingRequestAging seq s
  | .slotBoundary => Sys2Proof.Machine.execSlotBoundary s
  | .bookHold m => Sys2Proof.Machine.execBookHold m s
  | .bookHoldReply m => Sys2Proof.Machine.execBookHoldReply m s
  | .bookReplyTimeout handle => Sys2Proof.Machine.execBookReplyTimeout handle s
  | .bookCommit m => Sys2Proof.Machine.execBookCommit m s
  | .bookRelease m => Sys2Proof.Machine.execBookRelease m s
  | .bookHoldLeaseExpiry dev handle stage => Sys2Proof.Machine.execBookHoldLeaseExpiry dev handle stage s
  | .bookEndReport m => Sys2Proof.Machine.execBookEndReport m s
  | .copyPacketStart serial => Sys2Proof.Machine.execCopyPacketStart serial s
  | .copyPacketComplete serial => Sys2Proof.Machine.execCopyPacketComplete serial s
  | .collectiveStepStart tag step => Sys2Proof.Machine.execCollectiveStepStart tag step s
  | .collectiveComplete tag => Sys2Proof.Machine.execCollectiveComplete tag s
  | .collectiveTimeout tag => Sys2Proof.Machine.execCollectiveTimeout tag s
  | .collectiveFailureDetect tag member => Sys2Proof.Machine.execCollectiveFailureDetect tag member s
  | .read p => Sys2Proof.Machine.execRead p s
  | .rdata p => Sys2Proof.Machine.execRdata p s
  | .write p => Sys2Proof.Machine.execWrite p s
  | .wrord p => Sys2Proof.Machine.execWrord p s
  | .orderedStoreRelease idx => Sys2Proof.Machine.execOrderedStoreRelease idx s
  | .orderedStoreTimeout idx => Sys2Proof.Machine.execOrderedStoreTimeout idx s
  | .atom p => Sys2Proof.Machine.execAtom p s
  | .arply p => Sys2Proof.Machine.execArply p s
  | .ack p => Sys2Proof.Machine.execAck p s
  | .nack p => Sys2Proof.Machine.execNack p s
  | .xreq p => Sys2Proof.Machine.execXreq p s
  | .xdata p => Sys2Proof.Machine.execXdata p s
  | .xack p => Sys2Proof.Machine.execXack p s
  | .xflt p => Sys2Proof.Machine.execXflt p s
  | .xabt p => Sys2Proof.Machine.execXabt p s
  | .beacon p => Sys2Proof.Machine.execBeacon p s
  | .beaconSend => Sys2Proof.Machine.execBeaconSend s
  | .beaconLoss => Sys2Proof.Machine.execBeaconLoss s
  | .ldown p => Sys2Proof.Machine.execLdown p s
  | .packetForward p => Sys2Proof.Machine.execPacketForward p s
  | .cdata p => Sys2Proof.Machine.execCdata p s
  | .cack p => Sys2Proof.Machine.execCack p s
  | .cctlHeld p => Sys2Proof.Machine.execCctlHeld p s
  | .cctlWithdraw p => Sys2Proof.Machine.execCctlWithdraw p s
  | .cctlFlush p => Sys2Proof.Machine.execCctlFlush p s
  | .cctlLate p => Sys2Proof.Machine.execCctlLate p s
  | .cctlNofit p => Sys2Proof.Machine.execCctlNofit p s
  | .cctlDigestMismatch p => Sys2Proof.Machine.execCctlDigestMismatch p s
  | .cctlRedo p => Sys2Proof.Machine.execCctlRedo p s
  | .cdig p => Sys2Proof.Machine.execCdig p s
  | .scrub u => Sys2Proof.Machine.execScrub u s
  | .frameRetire frame => Sys2Proof.Machine.execFrameRetire frame s
  | .energyReconcile rail platform => Sys2Proof.Machine.execEnergyReconcile rail platform s
  | .powerCapLimit limit => Sys2Proof.Machine.execPowerCapLimit limit s
  | .powerCapLift => Sys2Proof.Machine.execPowerCapLift s
  | .thermalWarning die => Sys2Proof.Machine.execThermalWarning die s
  | .thermalTrip die => Sys2Proof.Machine.execThermalTrip die s
  | .coolantAlarm => Sys2Proof.Machine.execCoolantAlarm s
  | .machineCheck m => Sys2Proof.Machine.execMachineCheck m s
  | .powerOn => Sys2Proof.Machine.execPowerOn s
  | .d3hotEntry fn => Sys2Proof.Machine.execD3hotEntry fn s
  | .functionLevelReset fn => Sys2Proof.Machine.execFunctionLevelReset fn s
  | .hostBar2Read fn ga n => Sys2Proof.Machine.execHostBar2Read fn ga n s
  | .hostBar2Write fn ga bytes => Sys2Proof.Machine.execHostBar2Write fn ga bytes s
  | .hostAtomicOp fn ga op => Sys2Proof.Machine.execHostAtomicOp fn ga op s
  | .cqtail fn tail ds => Sys2Proof.Machine.execCqtail fn tail ds s
  | .evhead fn head => Sys2Proof.Machine.execEvhead fn head s
  | .partCreate d => Sys2Proof.Machine.execPartCreate d s
  | .partDestroy d => Sys2Proof.Machine.execPartDestroy d s
  | .granMove d => Sys2Proof.Machine.execGranMove d s
  | .arbWeight d => Sys2Proof.Machine.execArbWeight d s
  | .imageLoad d => Sys2Proof.Machine.execImageLoad d s
  | .ctxStart d => Sys2Proof.Machine.execCtxStart d s
  | .ctxStop d => Sys2Proof.Machine.execCtxStop d s
  | .ctxResume d => Sys2Proof.Machine.execCtxResume d s
  | .vfReset d => Sys2Proof.Machine.execVfReset d s
  | .gateReq d => Sys2Proof.Machine.execGateReq d s
  | .gateClose d => Sys2Proof.Machine.execGateClose d s
  | .routeLoad d => Sys2Proof.Machine.execRouteLoad d s
  | .groupLoad d => Sys2Proof.Machine.execGroupLoad d s
  | .jobBind d => Sys2Proof.Machine.execJobBind d s
  | .migStart d => Sys2Proof.Machine.execMigStart d s
  | .migStop d => Sys2Proof.Machine.execMigStop d s
  | .migCommit d => Sys2Proof.Machine.execMigCommit d s
  | .cntRead d => Sys2Proof.Machine.execCntRead d s
  | .attest d => Sys2Proof.Machine.execAttest d s
  | .dbgAttach d => Sys2Proof.Machine.execDbgAttach d s
  | .dbgMem d => Sys2Proof.Machine.execDbgMem d s
  | .dbgDetach d => Sys2Proof.Machine.execDbgDetach d s
  | .patchLoad d => Sys2Proof.Machine.execPatchLoad d s
  | .fjarlosSensorRead => Sys2Proof.Machine.execFjarlosSensorRead s
  | .fjarlosPowerCapSet watts => Sys2Proof.Machine.execFjarlosPowerCapSet watts s
  | .fjarlosFirmwareUpdate bundle => Sys2Proof.Machine.execFjarlosFirmwareUpdate bundle s
  | .fjarlosCounterRead part fn => Sys2Proof.Machine.execFjarlosCounterRead part fn s
  | .linkFailure port => Sys2Proof.Machine.execLinkFailure port s
  | .linkTraining port latency => Sys2Proof.Machine.execLinkTraining port latency s
  | .powerLoss => Sys2Proof.Machine.execPowerLoss s
  | .packageReset => Sys2Proof.Machine.execPackageReset s

end Sys2Proof.Machine
end

