-- ==== Sys2Proof/Machine/Events.lean ====
section
/-!
DEFINITION. Which step of the part's own machinery is due at the beginning of a cycle, and what it does (assumption log 3 and 35): the
results and accesses in flight, the engines, schedulers, timers, contexts and firmware. A step of the machinery is one of the
operations of the opcode table; the environment's own operations come from `State.agenda` instead.
-/
namespace Sys2Proof.Machine

/-- A due step. -/
inductive Ev where
  | loop (p : Pkt)
  | found
  | slotBoundary
  | flight (id : Nat)
  | fenceTimeout (id : Nat)
  | trapEntry (core : Nat)
  | taskEnd (core slot : Nat)
  | mxDone (core idx : Nat)
  | mxStart (core : Nat)
  | copyDone (serial : Nat)
  | copyStart (serial : Nat)
  | copyUnit (serial : Nat)
  | decide
  | reqAging (seq : Nat)
  | replyTimeout (handle : BitVec 32)
  | holdExpiry (dev : Nat) (handle : BitVec 32) (stage : Nat)
  | collStep (tag step : Nat)
  | collTimeout (tag : Nat)
  | collFail (tag member : Nat)
  | collDone (tag : Nat)
  | collMissed (key tag step stage : Nat)
  | ordRelease (idx : Nat)
  | ordTimeout (idx : Nat)
  | fldTimeout (tag : Nat)
  | fatomTimeout (tag : Nat)
  | fldxTimeout (tag : Nat)
  | shootdown (part fn : Nat)
  | gateRefill (g : Nat)
  | gateApply (g : Nat)
  | gateFree (g : Nat)
  | recopy (key : Nat)
  | bookingDue (core slot : Nat)
  | leaseTimeout (core : Nat)
  | windowTimeout (core slot : Nat)
  | wake (core slot : Nat)
  | aging (core slot : Nat)
  | leaseRoom (core slot : Nat)
  | prefetchDone (core : Nat)
  | activate (core : Nat)
  | prefetchStart (core : Nat)
  | sliceEnd (part fn : Nat)
  | forcedSave (core : Nat)
  | save (part fn : Nat)
  | restore (part fn : Nat)
  | fnReset (fn : Nat)
  | command (d : Desc)
  | beaconSend
  | beaconLoss
  /-- the three that come at the end of a cycle -/
  | htsRequest
  | heldPush (cluster : Nat)
  | steal (core : Nat)
deriving DecidableEq, Repr

/-! ## Flights -/

/-- The order of flights that are due in one cycle: control registers, registers, reads, writes, fills, spills, other stores that read their
source, which see every result of the cycle (R137), and what waits for accesses. -/
def FOp.rank : FOp → Nat
  | .creg _ _ => 0
  | .load _ _ _ _ | .badLoad _ _ _ | .ctlLoad _ _ => 5
  | .mxStore _ => 8
  | .store _ | .cntStore _ _ _ | .atomic _ _ _ _ _ | .sdreq _ _ | .root _ _ => 9
  | .fil _ _ => 9
  | .spill _ _ _ => 10
  | .storeSrc _ _ | .storeVal _ | .cntSrc _ _ _ | .fstSrc _ _ _ => 11
  | .gsig _ _ _ | .barArrive _ _ _ => 12
  | .fence _ _ _ | .barWait _ _ _ _ => 13
  | _ => 1
/-- A write to memory, which performs at the end of its cycle: a read served in the cycle returns the value from before it (R297). -/
def FOp.late : FOp → Bool
  | .store _ | .cntStore _ _ _ | .atomic _ _ _ _ _ | .mxStore _ => true
  | _ => false
/-- An `L` result in a vector or mask register comes after the `X` results of the cycle (R19); reads come before writes, and among
the writes those of `C` on its own scratch paths before those of `S`, then the matrix engine's, and those of the shared path last (R297). -/
def Flight.rank (f : Flight) : Nat :=
  match f.op with
  | .vector _ _ _ | .mask _ _ _ => if f.strand = .L then 2 else 1
  | op => if op.late && f.own then (if f.strand = .C then 6 else 7) else op.rank
/-- Flight `f` takes effect before flight `g` of the same cycle. -/
def Flight.before (f g : Flight) : Bool := decide (f.rank < g.rank) || (f.rank == g.rank && decide (f.id < g.id))
/-- Two results of one strand go to one register or queue: the earlier-issued lands first, so that the later-issued one remains (R50). -/
def Flight.beats (g f : Flight) : Bool :=
  decide (g.id < f.id) && g.ofTask f.core f.slot && decide (g.strand = f.strand) && f.op.dest.isSome && g.op.dest == f.op.dest
/-- The first of some flights in their order. -/
def firstFlight (fs : List Flight) : Option Flight :=
  fs.foldl (fun (m : Option Flight) f => match m with
    | none => some f
    | some g => if f.before g then some f else m) none
/-- The flights that are due, without those that an earlier one of the same destination comes before (R50). -/
def State.dueFlights (s : State) : List Flight :=
  let due := s.flights.filter s.flightDue
  due.filter fun f => !(due.any fun g => g.beats f)
/-- The flight that takes effect next at the beginning of a cycle: results and reads, and an atomic where a later word's result for its
register is due (R50), which has performed in the cycle before. -/
def State.dueFlight (s : State) : Option Flight :=
  firstFlight (s.dueFlights.filter fun f => !f.op.late || s.flights.any fun g => f.beats g && !g.op.late && s.flightDue g)
/-- The write that performs next at the end of a cycle (R297). -/
def State.lateFlight (s : State) : Option Flight := firstFlight (s.dueFlights.filter fun f => f.op.late)
/-- What a due flight does. -/
def runFlight (id : Nat) (s : State) : Out :=
  match s.flight? id with
  | none => .fault .noSuchStep
  | some f =>
    match f.op with
    | .store _ | .cntStore _ _ _ | .mxStore _ => execStorePerform id s
    | .sdreq _ _ => execSdreq id s
    | .root _ _ => execRoot id s
    | _ => execResultLanding id s

/-! ## Packets to the part itself (R39, R333) -/

/-- The message of a `BOOK` packet (R274 to R276). -/
def bookMsgOf (p : Pkt) : BookMsg :=
  let n (i k : Nat) : Nat := leNat ((p.payload.drop i).take k)
  { job := p.job.toNat, dev := p.sdev.toNat, handle := BitVec.ofNat 32 (n 0 4), stage := n 4 1, ecls := n 5 1, inst := n 6 2, cap := n 8 1,
    dur := n 9 2, lo := n 11 8, hi := n 19 8, inPort := p.inPort, inside := p.inside }
/-- A packet that the part has sent to itself arrives. -/
def deliver (p : Pkt) (s : State) : Out :=
  match p.ty with
  | 0 => execRead p s
  | 1 => execRdata p s
  | 2 => execWrite p s
  | 3 => execWrord p s
  | 4 => execAtom p s
  | 5 => execArply p s
  | 6 => execAck p s
  | 7 => execNack p s
  | 8 => execXreq p s
  | 9 => execXdata p s
  | 10 => execXack p s
  | 11 => execXflt p s
  | 12 => execXabt p s
  | 13 =>
    match p.sub.toNat with
    | 0 => execBookHold (bookMsgOf p) s
    | 1 => execBookHoldReply (bookMsgOf p) s
    | 2 => execBookCommit (bookMsgOf p) s
    | 3 => execBookRelease (bookMsgOf p) s
    | _ => execBookEndReport (bookMsgOf p) s
  | 15 => execLdown p s
  | 16 => execCdata p s
  | 17 => execCack p s
  | 18 =>
    match p.sub.toNat with
    | 0 => execCctlHeld p s
    | 1 => execCctlWithdraw p s
    | 2 => execCctlFlush p s
    | 3 => execCctlLate p s
    | 4 => execCctlNofit p s
    | 5 => execCctlDigestMismatch p s
    | _ => execCctlRedo p s
  | 19 => execCdig p s
  | _ => .next s.discard

/-! ## Commands (R401) -/

/-- The command that firmware has taken, by its `CODE`. -/
def runCommand (d : Desc) (s : State) : Out :=
  match d.code.toNat with
  | 0x01 => execPartCreate d s
  | 0x02 => execPartDestroy d s
  | 0x03 => execGranMove d s
  | 0x04 => execArbWeight d s
  | 0x10 => execImageLoad d s
  | 0x11 => execCtxStart d s
  | 0x12 => execCtxStop d s
  | 0x13 => execCtxResume d s
  | 0x14 => execVfReset d s
  | 0x20 => execGateReq d s
  | 0x21 => execGateClose d s
  | 0x30 => execRouteLoad d s
  | 0x31 => execGroupLoad d s
  | 0x32 => execJobBind d s
  | 0x40 => execMigStart d s
  | 0x41 => execMigStop d s
  | 0x42 => execMigCommit d s
  | 0x50 => execCntRead d s
  | 0x60 => execAttest d s
  | 0x70 => execDbgAttach d s
  | 0x71 => execDbgMem d s
  | 0x72 => execDbgDetach d s
  | 0x80 => execPatchLoad d s
  | _ => unknownCommand d s

/-! ## What is due -/

/-- The first of some cores, by number, for which `f` has an answer. -/
def State.onCores (s : State) (f : Nat → Core → Option Ev) : Option Ev := s.cores.findSome? fun (n, c) => f n c
/-- The first task slot, by core and slot, for which `f` has an answer. -/
def State.onTasks (s : State) (f : Nat → Nat → Task → Option Ev) : Option Ev :=
  s.onCores fun n c => c.slots.findSome? fun (sl, k) => f n sl k
/-- An event under a condition. -/
def evIf (b : Bool) (e : Ev) : Option Ev := if b then some e else none
/-- The refills of the gates, which come before any gate operation of their cycle (R200), then results and accesses in flight, traps, and
the ends of tasks. -/
def State.dueResults (s : State) : Option Ev :=
  (s.loop.head?.map .loop).or <|
  (evIf (!s.found.isEmpty) .found).or <|
  (evIf (s.cyc % 64 == 0 && decide (s.bu.lastSlot < s.slot)) .slotBoundary).or <|
  (evIf (s.slot % 64 == 0 && s.cyc % 64 == 0) .slotBoundary |>.bind fun _ =>
    s.gates.findSome? fun (n, g) => evIf (g.refilled != s.slot + 1) (.gateRefill n)).or <|
  (s.dueFlight.map fun f => .flight f.id).or <|
  ((s.flights.find? s.fenceTimedOut).map fun f => .fenceTimeout f.id).or <|
  (s.onCores fun n _ => evIf ((s.trapReady n).isSome || (s.heldReady n).isSome) (.trapEntry n)).or <|
  s.onTasks fun n sl k => evIf (k.ending.isSome && s.faultDrained n sl) (.taskEnd n sl)
/-- The copy packet that starts now. -/
def State.copyToStart (s : State) : Option Nat :=
  s.packets.findSome? fun p =>
    if s.bookedStart p || s.rowGoesOn p then some p.serial
    else if p.waits then
      match s.unbookedNext p.engine with
      | some (q, _) => some q.serial
      | none => none
    else none
/-- The matrix and copy engines. -/
def State.dueEngines (s : State) : Option Ev :=
  (s.onCores fun n c => (c.mxDue s.cyc).map fun i => .mxDone n i).or <|
  (s.onCores fun n c => (s.mxNext n [] c.mxe.queue).map fun _ => .mxStart n).or <|
  (s.unitDue.map fun p => .copyUnit p.serial).or <|
  ((s.packets.find? fun p => p.finished s.cyc && (s.ctx (ctxKey p.part p.fn)).present).map fun p => .copyDone p.serial).or <|
  s.copyToStart.map .copyStart
/-- The Booking Unit. -/
def State.dueBooking (s : State) : Option Ev :=
  ((s.bu.reqs.find? fun r => r.aging && decide (r.raised < r.eff s.cyc - r.prio)).map fun r => .reqAging r.seq).or <|
  (s.canDecide.map fun _ => .decide).or <|
  (s.exchanging.bind fun (_, x) => evIf (decide (x.limit ≤ s.cyc)) (.replyTimeout x.handle)).or <|
  (s.bu.holds.find? fun h => decide (h.expires ≤ s.cyc)).map fun h => .holdExpiry h.dev h.handle h.stage
/-- Collectives. -/
def State.dueColl (s : State) : Option Ev :=
  s.colls.findSome? fun c =>
    ((s.dueStep c).map fun n => .collStep c.tag n).or <|
    ((s.missedStep c).map fun x => .collMissed c.key c.tag x.1 x.2).or <|
    (evIf (s.collTimedOut c) (.collTimeout c.tag)).or <|
    (((List.range c.members.length).find? (s.lostMember c)).map fun m => .collFail c.tag m).or <|
    evIf ((s.ctx c.key).present && s.collDone c) (.collDone c.tag)
/-- The fabric's timers and held stores, shoot-downs and gates. -/
def State.dueTimers (s : State) : Option Ev :=
  ((s.heldOrd.findIdx? fun (key, _, p) => s.countsMet key p).map .ordRelease).or <|
  ((s.heldOrd.findIdx? fun (key, t, _) => s.heldTooLong key t).map .ordTimeout).or <|
  ((s.timedOut FarReq.isLoad).map fun (_, r) => .fldTimeout r.tag).or <|
  ((s.timedOut FarReq.isAtomic).map fun (_, r) => .fatomTimeout r.tag).or <|
  (s.ctxs.findSome? fun (_, c) => c.far.findSome? fun r => (s.thirdTimedOut r.tag).map fun _ => .fldxTimeout r.tag).or <|
  (s.ctxs.findSome? fun (key, _) => (s.shootReady key).map fun _ => .shootdown (key / 128) (key % 128)).or <|
  (s.gateToApply.map .gateApply).or <|
  s.gateToFree.map fun g => .gateFree g.1
/-- A parked window wait whose timeout has come. -/
def Task.windowTimedOut (k : Task) (cyc : Nat) : Bool :=
  match k.st with
  | .parked (.window _ (some t) _) => decide (t ≤ cyc)
  | _ => false
/-- Cores that may steal: those of a partition with a running context, where some deque is not empty. -/
def State.thieves (s : State) : List Nat :=
  if s.cyc % 16 = 0 ∧ (s.cores.any fun c => !c.2.deque.isEmpty) then (s.parts.map (·.1)).flatMap s.coresOf else []
/-- The task schedulers of the cores. -/
def State.dueTasks (s : State) : Option Ev :=
  (s.onTasks fun n sl _ => (s.dueNow n sl).map fun _ => .bookingDue n sl).or <|
  (s.onCores fun n _ => (s.leaseExpired n).map fun _ => .leaseTimeout n).or <|
  (s.onTasks fun n sl k => evIf (k.windowTimedOut s.cyc) (.windowTimeout n sl)).or <|
  (s.onTasks fun n sl k => evIf (s.wakeReady k && decide ((s.ctx k.key).phase = .running)) (.wake n sl)).or <|
  (s.onTasks fun n sl k => evIf (decide (k.st = .runnable) && decide (k.level k.boost < k.level (k.aged s.cyc))) (.aging n sl)).or <|
  (s.onTasks fun n sl k => evIf (s.leaseRoom n k) (.leaseRoom n sl)).or <|
  (s.onCores fun n _ => evIf (s.prefetchReady n) (.prefetchDone n)).or <|
  (s.onCores fun n _ => (s.activeNext n).map fun _ => .activate n).or <|
  s.onCores fun n _ => (s.prefetchNext n).map fun _ => .prefetchStart n
/-- Contexts and firmware. -/
def State.dueFirmware (s : State) : Option Ev :=
  (s.ctxs.findSome? fun (key, _) => evIf (s.sliceEnds key 0) (.sliceEnd (key / 128) (key % 128))).or <|
  (s.onCores fun n _ => (s.forcedNow n).map fun _ => .forcedSave n).or <|
  (s.ctxs.findSome? fun (key, _) => (s.saveReady key).map fun _ => .save (key / 128) (key % 128)).or <|
  (s.ctxs.findSome? fun (key, _) => evIf (s.restoreReady key) (.restore (key / 128) (key % 128))).or <|
  (s.resetReady.map .fnReset).or <|
  (s.recopyNext.map .recopy).or <|
  (s.nextDesc.map fun (_, d) => .command d).or <|
  (evIf (s.mgmt.beaconRoot && s.slot % 4096 == 0 && s.mgmt.lastBeaconSent != s.slot + 1) .beaconSend).or <|
  evIf s.beaconsLost .beaconLoss
/-- The step of the part's machinery that is due: before the first strand of a cycle, in the ready state. -/
def dueEvent (s : State) : Option Ev :=
  if s.turn ≠ 0 ∨ s.mgmt.power ≠ .ready then none
  else s.dueResults.or <| s.dueEngines.or <| s.dueBooking.or <| s.dueColl.or <| s.dueTimers.or <| s.dueTasks.or s.dueFirmware

/-- What happens next at the end of a cycle: the writes to memory (R297), then what the task schedulers do (R226, R285): queue slots and
pops, then pushes and then steals, each by ascending core. -/
def lateEvent (s : State) : Option Ev :=
  if s.mgmt.power ≠ .ready then none
  else (s.lateFlight.map fun f => Ev.flight f.id).or <|
    let (rank, core) := match nextReq s.htsReqs with
      | some (r, _) => (r.op.rank, r.core)
      | none => (6, 0)
    let held := s.hts.findSome? fun (cl, h) => (s.takeHeld h.heldPush).map fun x => (cl, x.1.1)
    let thief := (s.thieves.filter fun n => (s.stealNext n).isSome).min?
    if rank < 4 then some .htsRequest
    else
      match held with
      | some (cl, n) => if rank = 4 ∧ core < n then some .htsRequest else some (.heldPush cl)
      | none =>
        if rank = 4 then some .htsRequest
        else
          match thief with
          | some n => if rank = 5 ∧ core < n then some .htsRequest else some (.steal n)
          | none => if rank = 5 then some .htsRequest else none

/-- What a due step does. -/
def runEvent (e : Ev) (s : State) : Out :=
  match e with
  | .loop p => deliver p { s with loop := s.loop.tail }
  | .found => .next s.tellFound
  | .slotBoundary => execSlotBoundary s
  | .flight id => runFlight id s
  | .fenceTimeout id => execFenceAckTimeout id s
  | .trapEntry n => execTrapEntry n s
  | .taskEnd n sl => execTaskEndByFault n sl s
  | .mxDone n i => execMatrixCommandComplete n i s
  | .mxStart n => execMatrixCommandStart n s
  | .copyDone i => execCopyPacketComplete i s
  | .copyStart i => execCopyPacketStart i s
  | .copyUnit i =>
    match s.packets.find? fun p => p.serial == i with
    | none => .fault .noSuchStep
    | some p => .next (s.moveUnit p)
  | .decide => execBookingDecide s
  | .reqAging q => execBookingRequestAging q s
  | .replyTimeout h => execBookReplyTimeout h s
  | .holdExpiry d h n => execBookHoldLeaseExpiry d h n s
  | .collStep t n => execCollectiveStepStart t n s
  | .collTimeout t => execCollectiveTimeout t s
  | .collFail t m => execCollectiveFailureDetect t m s
  | .collDone t => execCollectiveComplete t s
  | .collMissed key t i n =>
    match s.coll? key t with
    | some c => .next (s.rebookStep c i n)
    | none => .fault .noSuchStep
  | .ordRelease i => execOrderedStoreRelease i s
  | .ordTimeout i => execOrderedStoreTimeout i s
  | .fldTimeout t => execFldTimeout t s
  | .fatomTimeout t => execFatomTimeout t s
  | .fldxTimeout t => execFldxTimeout t s
  | .shootdown p f => execShootdownComplete p f s
  | .gateRefill g => execGateRefill g s
  | .gateApply g => .next (s.applySignal g)
  | .gateFree _ =>
    match s.gateToFree with
    | some (g, r) => .next (s.freeGate g r)
    | none => .fault .noSuchStep
  | .recopy key => .next (s.copyRound key (s.ctx key).dirtyFrames)
  | .bookingDue n sl => execBookingDue n sl s
  | .leaseTimeout n => execLeasePendingTimeout n s
  | .windowTimeout n sl => execLwwaitTimeout n sl s
  | .wake n sl => execTaskWake n sl s
  | .aging n sl => execPriorityAging n sl s
  | .leaseRoom n sl => .next (s.remakeLease n sl)
  | .prefetchDone n => execPrefetchComplete n s
  | .activate n => execTaskActivate n s
  | .prefetchStart n => execPrefetchStart n s
  | .sliceEnd p f => execSliceEnd p f 0 s
  | .forcedSave n => execForcedSave n s
  | .save p f => execContextSave p f s
  | .restore p f => execContextRestore p f s
  | .fnReset fn => .next (s.resetFn fn)
  | .command d => runCommand d s
  | .beaconSend => execBeaconSend s
  | .beaconLoss => execBeaconLoss s
  | .htsRequest => .next s.serveNext
  | .heldPush c => execHeldDequePush c s
  | .steal n => execAutoSteal n s

/-! ## The end of a cycle -/

/-- The cycles in which a matrix engine ran are counted to the context of the command (R381). -/
def State.billMatrix (s : State) : State :=
  s.cores.foldl (fun s (n, c) => match (c.mxRunning s.cyc).bind fun sl => s.task? n sl with
    | some k => s.bill k.key fun x => { x with mbusy := x.mbusy + 1 }
    | none => s) s
/-- The next cycle. -/
def State.tick (s : State) : State :=
  let s := s.billMatrix.noteEligible.runPorts
  { s with cyc := s.cyc + 1, turn := 0 }.applyLater

end Sys2Proof.Machine
end

