-- ==== Sys2Proof/Machine/Step.lean ====
section
/-!
DEFINITION. One step of the part: the next input of the environment, else the next step of its own machinery that is due, else
the next strand's word, else the next cycle.
-/
namespace Sys2Proof.Machine

/-- The turn after that of every strand: the end of the cycle. -/
def endTurn : Nat := 4 * Config.nCores
/-- The strand of the next turn takes up its word; after the last, memory is written (R297), the schedulers act and the cycle ends. -/
def stepStrand (s : State) : Host.Outcome State Fault Refusal :=
  match nextReady s.turn s.cores with
  | none =>
    match lateEvent s with
    | some e => runEvent e { s with turn := endTurn }
    | none => .next s.tick
  | some (turn, sl, k) =>
    let s := { s with turn := turn }
    let ip := (k.str (Strand.ofCode (turn % 4))).ip
    match s.fetch (turn / 4) k ip with
    | .violation va => .next (s.violate (turn / 4) sl va ip).nextCore
    | .poison va => .next (s.fetchPoison sl va ip)
    | .word w s' =>
      match Dec.word w with
      | .ok i => exec i s'
      | .error _ => .next (s'.illegalWord w)

/-- One step. -/
def step (s : State) : Host.Outcome State Fault Refusal :=
  match s.agenda with
  | i :: rest => exec i { s with agenda := rest }
  | [] =>
    match dueEvent s with
    | some e => runEvent e s
    | none => stepStrand s

/-- The state with an instruction word where the next step fetches: partition 0 with one context whose task, active on core 0,
leases the page that holds the word at its first word index; the strand named by the word has the turn (assumption log 8). -/
def State.withFetchWord (s : State) (_nbits w : Nat) : State :=
  let word := BitVec.ofNat 80 w
  let t := Dec.hdr word |>.str
  let rdv := meets (Dec.bits word 50 6).toNat (Dec.bits word 46 4).toNat false
  let x : StrandSt := { ip := 0, wait := if rdv then .arrived else .none }
  let k : Task :=
    { part := 0, fn := 0, ser := 1, st := .active, txl := 8, sC := x, sL := x, sX := x, sS := x
      regions := [⟨none, 0, 0x10000, true, true⟩], lease := [⟨0, 0x10000, 0, true, true⟩]
      rdv := if rdv then .decide s.cyc else .gathering }
  { s with
    turn := t.code
    agenda := []
    parts := SMap.set s.parts 0 ⟨1, 0, 0, 0, 0⟩
    ctxs := SMap.set s.ctxs 0 { s.ctx 0 with phase := .running }
    dram := Mem.write s.dram 0 10 w
    cores := SMap.set s.cores 0
      { s.core 0 with active := some 0, slots := SMap.set (s.core 0).slots 0 k, icache := [], stale := [] } }

end Sys2Proof.Machine
end

