-- ==== Sys2Proof/Safety.lean ====
section
/-!
DEFINITION. The terms of the statements: memories in canonical form, the conditions on a state under which a word has its own
effect, and the state that a word leaves when it issues.
-/
namespace Sys2Proof

/-! ## Encodings -/

/-- `i` is coded by group `mj` and minor code `mn`, and its word passes the checks of R59 exactly when `fields` holds (R41, R61). -/
def Coded (i : Instr) (mj mn : Nat) (fields : Prop) : Prop :=
  (WellFormed i = true ↔ fields) ∧
    ∃ w, encode i = some w ∧ (Dec.bits w 50 6).toNat = mj ∧ (Dec.bits w 46 4).toNat = mn
/-- No word of group `mj` with minor code `mn` is an encoding (R59, R61). -/
def Unassigned (mj mn : Nat) : Prop :=
  ∀ w : BitVec 80, (Dec.bits w 50 6).toNat = mj → (Dec.bits w 46 4).toNat = mn → ∃ r, Dec.word w = .error r
/-- An `a` register of the bank of the word's strand (R16, R48). -/
def Hdr.areg (h : Hdr) (n : BitVec 7) : Prop := 84 ≤ n.toNat ∧ n.toNat < if h.str = .C then 116 else 100
/-- A scalar source: an `a` register or `qi` (R89). -/
def Hdr.source (h : Hdr) (n : BitVec 7) : Prop := h.areg n ∨ n.toNat = 116
/-- A scalar destination: an `a` register, or a queue that the strand may push into (R17, R89). -/
def Hdr.dest (h : Hdr) (n : BitVec 7) : Prop :=
  h.areg n ∨ (h.str = .C ∧ 118 ≤ n.toNat ∧ n.toNat ≤ 120) ∨ (h.str = .X ∧ n.toNat = 117)
/-- A `C` word has no `TOK` bit (R24). -/
def Hdr.tokens (h : Hdr) : Prop := h.str = .C → h.tok = 0

end Sys2Proof

namespace Sys2Proof.Machine

/-- Every memory of the part is in canonical form: no entry listed twice and none that an unlisted address reads as. -/
def State.memOk (s : State) : Bool :=
  s.dram.wf && s.hostMem.wf && s.cores.all fun c => c.2.scratch.wf

/-! ## When a word has its own effect -/

/-- A word of header `h` that is neither a control-flow nor a rendezvous word issues with its effect at the strand of `e`: the
strand has the turn and waits for nothing (R13, R103), the word is its own, `DST` reaches the latency `lat` (R51), tags and tokens
are there (R20, R53), the predicate is 1 (R42), and the queues it names have an entry or room (R25, R26). -/
structure Issues (s : State) (h : Hdr) (lat : Nat) (p : Ports) (e : Env) : Prop where
  env : s.env? h = some e
  live : e.live = true
  window : e.windowOpen = true
  own : e.t = h.str
  dist : lat ≤ h.dst.toNat
  tags : e.tagsReady = true
  tokens : e.tokensReady s.cyc = true
  pred : e.predicate = true
  pop : p.pop = true → (e.task.queue e.t.code).isEmpty = false
  push : ∀ c, p.push = some c → s.pushRoom e c = true

/-- The strand of `e` with the value that `qi` pops (R25). -/
def Env.popped (e : Env) : Env := { e with qi := (e.task.queue e.t.code).headD 0 }

/-- The state after a word whose result `y` is in flight: the strand has passed the word, and the turn is the next strand's. -/
def State.issued (s : State) (e : Env) (pop : Bool) (y : Fly) : State := ((s.addFlight e y).passWord e pop none).nextTurn

/-- The state after a vector word of the `X` strand with a result: its context's `VBUSY` counts the cycle (R381). -/
def State.vissued (s : State) (e : Env) (pop : Bool) (y : Fly) : State :=
  (s.issued e pop y).bill e.task.key fun c => { c with vbusy := c.vbusy + 1 }

/-- The state after a word without a result, whose effect has made `s'` of the state before it. -/
def State.doneAs (s' : State) (e : Env) (pop : Bool) (target : Option Nat) : State :=
  ((s'.addNop e).passWord e pop target).nextTurn

/-- The state after a word for whose flight `y` its strand waits (R175, R181). -/
def State.blockedOn (s' : State) (e : Env) (y : Fly) : State :=
  (((s'.addFlight e y).passWord e false none).updTask e.core e.slot fun k =>
    k.updStr e.t fun x => { x with wait := .flight s'.nextId }).nextTurn

/-- The state after a word that raises a precise trap, with the address and the engine status that its record holds (R386). -/
def State.trapAt (s : State) (e : Env) (cause faddr estat : Nat) : State :=
  (s.raise e.core e.slot (e.info cause faddr 0 .again estat)).nextCore

/-- The state after a rendezvous word at which the task parks (R293). -/
def State.parkAt (s' : State) (e : Env) (w : Wake) : State := ((s'.meetPass e).park e.core e.slot w).nextCore
/-- The state after a rendezvous word that puts a result in flight. -/
def State.metFly (s' : State) (e : Env) (y : Fly) : State := ((s'.addFlight e y).meetPassed e).nextCore
/-- The state after a rendezvous word that traps: all strands stand before it again (R103). -/
def State.meetTrap (s : State) (e : Env) (cause faddr estat : Nat) : State :=
  ((s.updTask e.core e.slot fun k => k.meetEnd false).raise e.core e.slot (e.info cause faddr 0 .again estat)).nextCore

/-- A record of `n` bytes can be read at scratch address `a` by the strand of `e` (R167, R169, R205): aligned, in the own local window,
with no own access to scratch outstanding, and without poison. -/
structure Readable (s : State) (e : Env) (a n align : Nat) : Prop where
  aligned : a % align = 0
  inside : a + n ≤ Config.scratchBytes
  quiet : ∀ f ∈ s.flights, f.ofTask e.core e.slot = true → f.strand = e.t → f.acc = true → ∀ p ∈ f.op.pieces, p.loc.core = none
  settled : s.mustWait e 16 [⟨⟨some e.core, a⟩, n, 0, a⟩] = false
  clean : ∀ k, k < n / 8 → s.isPoisoned ⟨some e.core, a + 8 * k⟩ 8 = false

/-- The moment of flight `f`, which has number `id`, has come (R49, R240). -/
def State.comes (s : State) (id : Nat) (f : Flight) : Prop := s.flight? id = some f ∧ s.flightDue f = true

/-- A control-flow word is evaluated by the strand of `e` with predicate 1 (R27, R96). -/
structure Evaluates (s : State) (h : Hdr) (pop : Bool) (e : Env) : Prop where
  env : s.env? h = some e
  live : e.live = true
  window : e.windowOpen = true
  own : e.t = h.str
  tags : e.tagsReady = true
  tokens : e.tokensReady s.cyc = true
  room : e.task.outRoom e.t.code = true
  pred : e.predicate = true
  pop : pop = true → (e.task.queue e.t.code).isEmpty = false

/-- A rendezvous word is decided at the strand of `e`, named in its `STR`, with predicate 1 (R103). -/
structure Decides (s : State) (h : Hdr) (e : Env) : Prop where
  env : s.env? h = some e
  running : e.task.stopped = false
  arrived : e.st.wait = .arrived
  own : e.t = h.str
  met : e.task.rdv = .draining ∨ ∃ c, e.task.rdv = .decide c ∧ c ≤ s.cyc ∧ e.predicate = true

/-- Firmware takes descriptor `d` of function `fn` and carries its command out (R399 to R401, R404): it is the next one, the part is
ready, the function may give it, recovery allows it, and no operand byte outside the ranges `used` is set. -/
structure Takes (s : State) (fn : Nat) (d : Desc) (vf recovery : Bool) (used : List (Nat × Nat)) : Prop where
  next : s.nextDesc = some (fn, d)
  ready : s.mgmt.power = .ready
  allowed : fn = 0 ∨ vf = true
  mode : s.mgmt.recovery = false ∨ (recovery = true ∧ fn = 0)
  unused : unusedZero d used = true

end Sys2Proof.Machine
end

