-- ==== Sys2Proof/Certificates/Slice0/Obligations.lean ====
section
/-!
DEFINITION. The statements for the provers: what words and the part's other steps do, what they leave alone, and the properties of
the whole machine. A word's own effect is stated under `Issues`, `Evaluates` or `Decides`: the conditions under which it issues.
-/
open Sys2Proof Sys2Proof.Machine

/-! ## Words: scalar (groups 0x00 to 0x05 and 0x07) -/

/-- Scalar arithmetic (R90): the codes and reserved fields of the fifteen words; and when one issues, the result of the two sources, `qi`
popped if one names it, is in flight with latency 1, or 3 for the multiplies, to the register or queue that `D` names, and the strand
stands at the next word. Every destination form is covered: `a0`, another `a` register and a push differ only in how the result lands
(`results_land`). -/
def Obligations.scalar_arithmetic_results : Prop :=
  (∀ (h : Hdr) (o : RRR), ∀ x ∈ [(Instr.add h o, 0), (.sub h o, 1), (.and h o, 2), (.or h o, 3), (.xor h o, 4), (.shl h o, 5), (.shr h o, 6),
      (.sra h o, 7), (.mul h o, 8), (.mulh h o, 9), (.mulhu h o, 10), (.min h o, 11), (.max h o, 12), (.minu h o, 13), (.maxu h o, 14)],
    Coded x.1 0 x.2 (h.tokens ∧ h.dest o.d ∧ h.source o.a ∧ h.source o.b ∧ o.c = 0 ∧ o.md = 0)) ∧
  Unassigned 0 15 ∧
  ∀ (h : Hdr) (o : RRR) (s : State) (e : Env),
    let p := ports o.a o.b o.d
    let a := e.popped.src o.a
    let b := e.popped.src o.b
    let r (lat : Nat) (v : Word) : Out := .next (s.issued e.popped p.pop { lat := lat, op := .scalar o.d.toNat v })
    (Issues s h 1 p e →
      exec (.add h o) s = r 1 (a + b) ∧ exec (.sub h o) s = r 1 (a - b) ∧ exec (.and h o) s = r 1 (a &&& b) ∧
      exec (.or h o) s = r 1 (a ||| b) ∧ exec (.xor h o) s = r 1 (a ^^^ b) ∧
      exec (.shl h o) s = r 1 (a <<< (b.toNat % 64)) ∧ exec (.shr h o) s = r 1 (a >>> (b.toNat % 64)) ∧
      exec (.sra h o) s = r 1 (a.sshiftRight (b.toNat % 64)) ∧
      exec (.min h o) s = r 1 (if a.toInt < b.toInt then a else b) ∧ exec (.max h o) s = r 1 (if b.toInt < a.toInt then a else b) ∧
      exec (.minu h o) s = r 1 (if a.toNat < b.toNat then a else b) ∧ exec (.maxu h o) s = r 1 (if b.toNat < a.toNat then a else b)) ∧
    (Issues s h 3 p e →
      exec (.mul h o) s = r 3 (a * b) ∧
      exec (.mulh h o) s = r 3 ((a.signExtend 128 * b.signExtend 128).extractLsb' 64 64) ∧
      exec (.mulhu h o) s = r 3 ((a.zeroExtend 128 * b.zeroExtend 128).extractLsb' 64 64))

/-- The immediate forms (R91): their codes and limits; the 32-bit immediate is sign-extended, shifts take it as the amount, 0 to 63, and
`lih` puts it above bits 31:0 of `A`. -/
def Obligations.scalar_immediate_results : Prop :=
  (∀ (h : Hdr) (o : RRI), (∀ x ∈ [(Instr.addi h o, 0), (.andi h o, 1), (.ori h o, 2), (.xori h o, 3), (.muli h o, 7), (.lih h o, 8)],
      Coded x.1 1 x.2 (h.tokens ∧ h.dest o.d ∧ h.source o.a)) ∧
    ∀ x ∈ [(Instr.shli h o, 4), (.shri h o, 5), (.srai h o, 6)], Coded x.1 1 x.2 (h.tokens ∧ h.dest o.d ∧ h.source o.a ∧ o.imm.toNat < 64)) ∧
  (∀ n, 9 ≤ n → n < 16 → Unassigned 1 n) ∧
  ∀ (h : Hdr) (o : RRI) (s : State) (e : Env),
    let p : Ports := { pop := isPop o.a, push := pushTarget o.d.toNat }
    let a := e.popped.src o.a
    let i : Word := o.imm.signExtend 64
    let r (lat : Nat) (v : Word) : Out := .next (s.issued e.popped p.pop { lat := lat, op := .scalar o.d.toNat v })
    (Issues s h 1 p e →
      exec (.addi h o) s = r 1 (a + i) ∧ exec (.andi h o) s = r 1 (a &&& i) ∧ exec (.ori h o) s = r 1 (a ||| i) ∧
      exec (.xori h o) s = r 1 (a ^^^ i) ∧ exec (.lih h o) s = r 1 (o.imm ++ a.setWidth 32) ∧
      exec (.shli h o) s = r 1 (a <<< o.imm.toNat) ∧ exec (.shri h o) s = r 1 (a >>> o.imm.toNat) ∧
      exec (.srai h o) s = r 1 (a.sshiftRight o.imm.toNat)) ∧
    (Issues s h 3 p e → exec (.muli h o) s = r 3 (a * i))

/-- The bit-field words (R92): a field extended with its sign or with zeros, a field inserted into the old value of `D`, and the
counts and the reversal given by what they mean for the bits. -/
def Obligations.bit_field_results : Prop :=
  ∀ (h : Hdr) (o : RRI) (s : State) (e : Env),
    let a := e.popped.src o.a
    let pos := Enc.pos o
    let len := Enc.len o
    (Issues s h 1 { pop := isPop o.a, push := pushTarget o.d.toNat } e →
      let r (v : Word) : Out := .next (s.issued e.popped (isPop o.a) { lat := 1, op := .scalar o.d.toNat v })
      (1 ≤ len → pos + len ≤ 64 →
        exec (.extru h o) s = r ((a.extractLsb' pos len).setWidth 64) ∧
        exec (.extr h o) s = r ((a.extractLsb' pos len).signExtend 64)) ∧
      (∃ n : Nat, exec (.clz h o) s = r (BitVec.ofNat 64 n) ∧ n ≤ 64 ∧ (∀ k, 64 - n ≤ k → k < 64 → a.getLsbD k = false) ∧
        (n < 64 → a.getLsbD (63 - n) = true)) ∧
      (∃ n : Nat, exec (.ctz h o) s = r (BitVec.ofNat 64 n) ∧ n ≤ 64 ∧ (∀ k, k < n → a.getLsbD k = false) ∧
        (n < 64 → a.getLsbD n = true)) ∧
      exec (.popc h o) s = r (BitVec.ofNat 64 ((List.range 64).countP fun k => a.getLsbD k)) ∧
      (∃ v : Word, exec (.brev h o) s = r v ∧ ∀ k, k < 64 → v.getLsbD k = a.getLsbD (63 - k))) ∧
    (Issues s h 1 { pop := isPop o.a } e → 1 ≤ len → pos + len ≤ 64 →
      ∃ v : Word, exec (.ins h o) s = .next (s.issued e.popped (isPop o.a) { lat := 1, op := .scalar o.d.toNat v }) ∧
        ∀ k, k < 64 → v.getLsbD k =
          if pos ≤ k ∧ k < pos + len then a.getLsbD (k - pos) else (e.popped.src o.d).getLsbD k)

/-- The compares write a predicate (R93): equality, and order of the sources as signed and as unsigned numbers. Predicate logic (R94): the
predicates that `PA` and `PB` name, `p0` reading as 1 wherever it is named. -/
def Obligations.compare_results : Prop :=
  ((∀ (h : Hdr) (o : RRR) (s : State) (e : Env), Issues s h 1 { pop := isPop o.a || isPop o.b } e →
     let a := e.popped.src o.a
     let b := e.popped.src o.b
     let r (v : Bool) : Out :=
       .next (s.issued e.popped (isPop o.a || isPop o.b) { lat := 1, op := .pred (fld o.md.toNat 17 15) v })
     exec (.cmpEq h o) s = r (decide (a = b)) ∧ exec (.cmpNe h o) s = r (decide (a ≠ b)) ∧
     exec (.cmpLt h o) s = r (decide (a.toInt < b.toInt)) ∧ exec (.cmpLtu h o) s = r (decide (a.toNat < b.toNat)) ∧
     exec (.cmpGe h o) s = r (decide (b.toInt ≤ a.toInt)) ∧ exec (.cmpGeu h o) s = r (decide (b.toNat ≤ a.toNat))) ∧
   (∀ (h : Hdr) (o : RRI) (s : State) (e : Env), Issues s h 1 { pop := isPop o.a } e →
     let a := e.popped.src o.a
     let b : Word := o.imm.signExtend 64
     let r (v : Bool) : Out := .next (s.issued e.popped (isPop o.a) { lat := 1, op := .pred (fld o.d.toNat 6 4) v })
     exec (.cmpiEq h o) s = r (decide (a = b)) ∧ exec (.cmpiNe h o) s = r (decide (a ≠ b)) ∧
     exec (.cmpiLt h o) s = r (decide (a.toInt < b.toInt)) ∧ exec (.cmpiLtu h o) s = r (decide (a.toNat < b.toNat)) ∧
     exec (.cmpiGe h o) s = r (decide (b.toInt ≤ a.toInt)) ∧ exec (.cmpiGeu h o) s = r (decide (b.toNat ≤ a.toNat)))) ∧
  (∀ (h : Hdr) (o : RRR) (s : State) (e : Env), Issues s h 1 {} e →
     let a := e.st.pred (fld o.md.toNat 14 12)
     let b := e.st.pred (fld o.md.toNat 11 9)
     let r (v : Bool) : Out := .next (s.issued e.popped false { lat := 1, op := .pred (fld o.md.toNat 17 15) v })
     exec (.pand h o) s = r (a && b) ∧ exec (.por h o) s = r (a || b) ∧ exec (.pxor h o) s = r (xor a b) ∧
     exec (.pandn h o) s = r (a && !b) ∧ exec (.pnot h o) s = r (!a) ∧ exec (.pmov h o) s = r a)


/-- Spill, fill and the control-register words (R105, R106): an offset that is a multiple of 8 puts the access in flight, another
one raises Alignment; a read returns the register's value of the issue cycle; a write to a writable register takes effect one
cycle later, and a write to a read-only one raises Privilege. -/
def Obligations.spill_and_control_registers : Prop :=
  ∀ (h : Hdr) (o : RRI) (s : State) (e : Env),
    let off := fld o.imm.toNat 11 0
    let n := fld o.imm.toNat 7 0
    (Issues s h 2 { pop := isPop o.a } e →
      (off % 8 = 0 → exec (.spl h o) s =
        .next (s.issued e.popped (isPop o.a) { lat := 2, op := .spill o.a.toNat e.popped.qi off })) ∧
      (off % 8 ≠ 0 → exec (.spl h o) s = .next (s.raise e.core e.slot (e.info 0x0003 off 0 .again 0)).nextCore)) ∧
    (Issues s h 1 { push := pushTarget o.d.toNat } e →
      (off % 8 = 0 → exec (.fil h o) s = .next (s.issued e.popped false { lat := 1, op := .fil o.d.toNat off })) ∧
      (off % 8 ≠ 0 → exec (.fil h o) s = .next (s.raise e.core e.slot (e.info 0x0003 off 0 .again 0)).nextCore) ∧
      exec (.crr h o) s = .next (s.issued e.popped false { lat := 1, op := .scalar o.d.toNat (s.creg e.popped n) })) ∧
    (Issues s h 0 { pop := isPop o.a } e →
      (n ∈ [0x02, 0x08, 0x09, 0x0A, 0x0B, 0x12] →
        exec (.crw h o) s = .next (s.issued e.popped (isPop o.a) { lat := 1, op := .creg n (e.popped.src o.a) })) ∧
      (n ∉ [0x02, 0x08, 0x09, 0x0A, 0x0B, 0x12] →
        exec (.crw h o) s = .next (s.raise e.core e.slot (e.info 0x0004 0 0 .again 0)).nextCore))

/-! ## Words: control flow and system (groups 0x06 and 0x08) -/

/-- Every control-flow word that its strand evaluates (R96 to R100): the outcome goes to the three other strands, `call` and `calli`
write the link, which in timed mode may be read from `DST` cycles after issue on, or for `DST` 15 once its completion has been observed
(R52), `loop` and `brloop` change the loop counter and stage predicates of the strand, and the strand stands at the target
or at the next word. An indirect target that is no multiple of 8 raises Alignment (R57). -/
def Obligations.control_flow_results : Prop :=
  ∀ (h : Hdr) (o : BRA) (s : State) (e : Env),
    let tgt := (8 * ((e.st.ip / 8 : Nat) + o.off.toInt) % 2 ^ 64).toNat
    let link : Word := BitVec.ofNat 64 (8 * (e.st.ip / 8 + 1))
    let a := e.popped.src o.a
    let call (n : Nat) (x : StrandSt) : StrandSt :=
      let from_ := if h.dst.toNat = 15 then never else s.cyc + h.dst.toNat
      if e.task.tagd = true then x.setReg n link
      else { x.setReg n link with haz := SMap.upd (x.setReg n link).haz 0 (84 + n) fun c => max c from_ }
    let go (pop taken : Bool) (target count : Nat) (own : StrandSt → StrandSt) : Out :=
      .next ((s.updTask e.core e.slot fun k =>
        (k.pushOutcome e.t.code ⟨s.cyc, taken, target, count, true⟩).updStr e.t own).doneAs e.popped pop
          (if taken then some target else none))
    (Evaluates s h false e →
      exec (.br h o) s = go false true tgt 0 id ∧
      exec (.call h o) s = go false true tgt 0 (call (o.l.toNat - 84)) ∧
      exec (.brloop h o) s = go false (e.st.loopEnd (fld o.l.toNat 6 5)).2 tgt 0 (fun x => (x.loopEnd (fld o.l.toNat 6 5)).1)) ∧
    (Evaluates s h (isPop o.a) e →
      exec (.brz h o) s = go (isPop o.a) (decide (a = 0)) tgt 0 id ∧
      exec (.brnz h o) s = go (isPop o.a) (decide (a ≠ 0)) tgt 0 id ∧
      exec (.loop h o) s = go (isPop o.a) false 0 (min a.toNat (2 ^ 32 - 1))
        (fun x => x.loopStart (fld o.l.toNat 6 5) (fld o.l.toNat 4 1) (min a.toNat (2 ^ 32 - 1))) ∧
      (a.toNat % 8 = 0 →
        exec (.jmpi h o) s = go (isPop o.a) true a.toNat 0 id ∧
        exec (.calli h o) s = go (isPop o.a) true a.toNat 0 (call (o.l.toNat - 84))) ∧
      (a.toNat % 8 ≠ 0 →
        exec (.jmpi h o) s = .next (s.raise e.core e.slot (e.info 0x0003 a.toNat 0 .again 0)).nextCore ∧
        exec (.calli h o) s = .next (s.raise e.core e.slot (e.info 0x0003 a.toNat 0 .again 0)).nextCore))

/-- The system words that a strand issues or takes alone (R107, R109, R112, R113): `nop` has no operand, and its word with
every field zero is the padding word; `nop` and `ifence` complete, the latter with an empty instruction cache and with every later fetch reading the present text; `brk` halts the context of an attached debugger; `brk` and, outside handler mode, `trap` and `tret` raise
their trap with the code of the word, and the strand resumes after it. -/
def Obligations.system_word_results : Prop :=
  (∀ (h : Hdr) (o : SYS), Coded (.nop h o) 8 0 (h.tokens ∧ o = ⟨0, 0, 0, 0⟩)) ∧
  encode (.nop ⟨.C, 0, false, 0, 0, 0, 0, 0⟩ ⟨0, 0, 0, 0⟩) = some 0x00000020000000000000 ∧
  ∀ (h : Hdr) (o : SYS) (s : State) (e : Env), Issues s h 0 {} e →
    let trap (c : Nat) : Out := .next (s.raise e.core e.slot (e.info c 0 (fld o.imm.toNat 15 0) .after 0)).nextCore
    exec (.nop h o) s = .next (s.doneAs e.popped false none) ∧
    exec (.ifence h o) s = .next ((s.updCore e.core fun c => { c with icache := [], stale := [] }).doneAs e.popped false none) ∧
    (e.task.handler = none → exec (.trap h o) s = trap 0x000D ∧ exec (.tret h o) s = trap 0x000D) ∧
    ((s.ctx e.task.key).debugger = false → exec (.brk h o) s = trap 0x000E) ∧
    ((s.ctx e.task.key).debugger = true → exec (.brk h o) s =
      .next (((s.updTask e.core e.slot fun k => k.updStr e.t fun x => { x with ip := x.ip + 1 }).updCtx e.task.key fun c =>
        { c with phase := .saving 3 }).nextCore))

/-- The rendezvous words `mode`, `yield`, `exit` and, in handler mode, `trap` and `tret` (R108, R110, R111, R389, R390): once all
strands have met and what the word waits for is over, `mode` sets `TAGD` to its bit, clears every tag and has every result observed, `yield` leaves the task
runnable behind its level, `exit` ends the task or a walker's step, and a return leaves the handler. -/
def Obligations.rendezvous_word_results : Prop :=
  ∀ (h : Hdr) (o : SYS) (s : State) (e : Env), Decides s h e →
    (s.landedAll e.core e.slot = true → ((s.core e.core).mxe.live s.cyc) = [] →
      exec (.mode h o) s = .next (((s.updTask e.core e.slot fun k =>
        { (k.updAll fun x => { x.observe true (fun _ => false) with tags := 0 }) with tagd := o.imm.getLsbD 0 }).meetPass e).nextCore)) ∧
    (State.yieldReady e s = true →
      exec (.yield h o) s = .next ((((s.meetPass e).park e.core e.slot .now).makeRunnable e.core e.slot 3).nextCore)) ∧
    (State.exitReady e s = true →
      exec (.exit h o) s = .next (
        (if e.task.walker = true ∧ e.task.handler = none ∧ e.task.step + 1 < topSteps e.task.topb
         then s.stepBoundary e.core e.slot (e.task.step + 1) else s.endTask e.core e.slot).nextCore)) ∧
    (e.task.handler ≠ none → s.drained e.core e.slot = true →
      exec (.trap h o) s = .next (s.leaveTrap e.core e.slot).nextCore ∧
      exec (.tret h o) s = .next (s.leaveTrap e.core e.slot).nextCore)

/-! ## Words: vector (groups 0x10 to 0x14) -/

/-- FP32 arithmetic (R84 to R86, R115 to R118): each lane that the mask selects gets the operation's result under `FPCTL.RM`, with
subnormal operands and results flushed when `FTZ` is set; `vabs.f32` and `vneg.f32` only change bit 31. The flags of the written
lanes are set together, after 4 or 8 cycles. -/
def Obligations.vector_fp32_results : Prop :=
  ∀ (h : Hdr) (o : RRR) (s : State) (e : Env),
    let x (n : BitVec 7) (i : Nat) : Lane := lane (s.vsrc e.popped n) i
    let z (n : BitVec 7) (i : Nat) : Nat := if e.ftz then flush fp32 (x n i).toNat else (x n i).toNat
    let w := s.lanes e.popped o
    let r (lat : Nat) (g : Nat → Nat × BitVec 3) : Out := .next (s.vissued e.popped (vports o).pop
      { lat := lat, op := .vector o.d.toNat (ofLanes fun i => BitVec.ofNat 32 (g i).1) w, stat := laneFlags w fun i => (g i).2 })
    let f (lat : Nat) (g : Nat → Nat × BitVec 3) : Out :=
      r lat fun i => if e.ftz then (flush fp32 (g i).1, (g i).2) else g i
    (Issues s h 4 (vports o) e →
      exec (.vaddF32 h o) s = f 4 (fun i => fpSum fp32 e.rm (z o.a i) (z o.b i) false) ∧
      exec (.vsubF32 h o) s = f 4 (fun i => fpSum fp32 e.rm (z o.a i) (z o.b i) true) ∧
      exec (.vmulF32 h o) s = f 4 (fun i => fpMul fp32 e.rm (z o.a i) (z o.b i)) ∧
      exec (.vfmaF32 h o) s = f 4 (fun i => fpFma fp32 e.rm (z o.a i) (z o.b i) (z o.c i) false false) ∧
      exec (.vfmsF32 h o) s = f 4 (fun i => fpFma fp32 e.rm (z o.a i) (z o.b i) (z o.c i) false true) ∧
      exec (.vfnmaF32 h o) s = f 4 (fun i => fpFma fp32 e.rm (z o.a i) (z o.b i) (z o.c i) true false) ∧
      exec (.vminF32 h o) s = f 4 (fun i => fpMinMax fp32 false (z o.a i) (z o.b i)) ∧
      exec (.vmaxF32 h o) s = f 4 (fun i => fpMinMax fp32 true (z o.a i) (z o.b i)) ∧
      exec (.vabsF32 h o) s = r 4 (fun i => ((x o.a i &&& 0x7FFFFFFF).toNat, 0)) ∧
      exec (.vnegF32 h o) s = r 4 (fun i => ((x o.a i ^^^ 0x80000000).toNat, 0))) ∧
    (Issues s h 8 (vports o) e →
      exec (.vrcpF32 h o) s = f 8 (fun i => fpApprox 10 e.rm (z o.a i)) ∧
      exec (.vrsqF32 h o) s = f 8 (fun i => fpApprox 11 e.rm (z o.a i)) ∧
      exec (.vexp2F32 h o) s = f 8 (fun i => fpApprox 12 e.rm (z o.a i)) ∧
      exec (.vlog2F32 h o) s = f 8 (fun i => fpApprox 13 e.rm (z o.a i)))

/-- Packed 16-bit arithmetic (R87, R123): both elements of every selected lane, FP16 when `FX` is 0 and BF16 otherwise; never
flushed. -/
def Obligations.vector_packed_results : Prop :=
  ∀ (h : Hdr) (o : RRR) (s : State) (e : Env), Issues s h 4 (vports o) e →
    let fm : Fmt := if Enc.FX o = 0 then fp16 else bf16
    let lo (n : BitVec 7) (i : Nat) : Nat := (lane (s.vsrc e.popped n) i).toNat % 2 ^ 16
    let hi (n : BitVec 7) (i : Nat) : Nat := (lane (s.vsrc e.popped n) i).toNat / 2 ^ 16
    let w := s.lanes e.popped o
    let r (g : (BitVec 7 → Nat → Nat) → Nat → Nat × BitVec 3) : Out := .next (s.vissued e.popped (vports o).pop
      { lat := 4, op := .vector o.d.toNat (ofLanes fun i => BitVec.ofNat 32 ((g lo i).1 + 2 ^ 16 * (g hi i).1)) w
        stat := laneFlags w fun i => (g lo i).2 ||| (g hi i).2 })
    exec (.vaddH h o) s = r (fun x i => fpSum fm e.rm (x o.a i) (x o.b i) false) ∧
    exec (.vsubH h o) s = r (fun x i => fpSum fm e.rm (x o.a i) (x o.b i) true) ∧
    exec (.vmulH h o) s = r (fun x i => fpMul fm e.rm (x o.a i) (x o.b i)) ∧
    exec (.vfmaH h o) s = r (fun x i => fpFma fm e.rm (x o.a i) (x o.b i) (x o.c i) false false) ∧
    exec (.vminH h o) s = r (fun x i => fpMinMax fm false (x o.a i) (x o.b i)) ∧
    exec (.vmaxH h o) s = r (fun x i => fpMinMax fm true (x o.a i) (x o.b i))

/-- Integer arithmetic (R124): wrapping, bitwise, shifts by the low five bits, the smaller and the larger, and the clamped forms,
which set `OVF` for a lane they clamp. -/
def Obligations.vector_integer_results : Prop :=
  ∀ (h : Hdr) (o : RRR) (s : State) (e : Env), Issues s h 2 (vports o) e →
    let a (i : Nat) : Lane := lane (s.vsrc e.popped o.a) i
    let b (i : Nat) : Lane := lane (s.vsrc e.popped o.b) i
    let w := s.lanes e.popped o
    let f (v : Nat → Lane) (g : Nat → BitVec 3) : Out := .next (s.vissued e.popped (vports o).pop
      { lat := 2, op := .vector o.d.toNat (ofLanes v) w, stat := laneFlags w g })
    let r (v : Nat → Lane) : Out := f v fun _ => 0
    let clamp (lo hi : Int) (v : Nat → Int) : Out :=
      f (fun i => BitVec.ofInt 32 (max lo (min hi (v i)))) (fun i => if v i < lo ∨ hi < v i then 2 else 0)
    exec (.vaddI32 h o) s = r (fun i => a i + b i) ∧ exec (.vsubI32 h o) s = r (fun i => a i - b i) ∧
    exec (.vmulI32 h o) s = r (fun i => a i * b i) ∧ exec (.vand h o) s = r (fun i => a i &&& b i) ∧
    exec (.vor h o) s = r (fun i => a i ||| b i) ∧ exec (.vxor h o) s = r (fun i => a i ^^^ b i) ∧
    exec (.vshl h o) s = r (fun i => a i <<< ((b i).toNat % 32)) ∧ exec (.vshr h o) s = r (fun i => a i >>> ((b i).toNat % 32)) ∧
    exec (.vsra h o) s = r (fun i => (a i).sshiftRight ((b i).toNat % 32)) ∧
    exec (.vminI32 h o) s = r (fun i => if (a i).toInt < (b i).toInt then a i else b i) ∧
    exec (.vmaxI32 h o) s = r (fun i => if (b i).toInt < (a i).toInt then a i else b i) ∧
    exec (.vaddss h o) s = clamp (-2 ^ 31) (2 ^ 31 - 1) (fun i => (a i).toInt + (b i).toInt) ∧
    exec (.vsubss h o) s = clamp (-2 ^ 31) (2 ^ 31 - 1) (fun i => (a i).toInt - (b i).toInt) ∧
    exec (.vaddus h o) s = clamp 0 (2 ^ 32 - 1) (fun i => (a i).toNat + (b i).toNat) ∧
    exec (.vsubus h o) s = clamp 0 (2 ^ 32 - 1) (fun i => (a i).toNat - (b i).toNat)

/-- Compares into a mask register (R125): bit `i` of the written bits is the condition `FX` of lane `i`; signed for `vcmp.i32`,
unsigned for `vcmpu.i32`, and for FP32 the conditions that a NaN makes true or false. Mask logic (R126): all 64 bits; `mpop` counts
into a scalar, and `mmov` moves between mask registers and scalars. -/
def Obligations.vector_compare_results : Prop :=
  (∀ (h : Hdr) (o : RRR) (s : State) (e : Env), Issues s h 2 (vports o) e →
     let a (i : Nat) : Lane := lane (s.vsrc e.popped o.a) i
     let b (i : Nat) : Lane := lane (s.vsrc e.popped o.b) i
     let w := s.lanes e.popped o
     let holds (lt eq gt : Bool) : Bool := match Enc.FX o with
       | 0 => eq
       | 1 => !eq
       | 2 => lt
       | 3 => lt || eq
       | 4 => gt
       | _ => gt || eq
     let r (out : Out) (g : Nat → Bool) (fl : Nat → BitVec 3) : Prop := ∃ m : Word, (∀ i, i < 64 → m.getLsbD i = g i) ∧
       out = .next (s.vissued e.popped (vports o).pop { lat := 2, op := .mask o.d.toNat m w, stat := laneFlags w fl })
     r (exec (.vcmpI32 h o) s)
       (fun i => holds (decide ((a i).toInt < (b i).toInt)) (decide (a i = b i)) (decide ((b i).toInt < (a i).toInt))) (fun _ => 0) ∧
     r (exec (.vcmpuI32 h o) s)
       (fun i => holds (decide ((a i).toNat < (b i).toNat)) (decide (a i = b i)) (decide ((b i).toNat < (a i).toNat))) (fun _ => 0) ∧
     r (exec (.vcmpF32 h o) s)
       (fun i => (fpCmp (Enc.FX o) (a i).toNat (b i).toNat).1) (fun i => (fpCmp (Enc.FX o) (a i).toNat (b i).toNat).2)) ∧
  (∀ (h : Hdr) (o : RRR) (s : State) (e : Env),
     let a := s.msrc e.popped o.a
     let b := s.msrc e.popped o.b
     let r (v : Word) : Out := .next (s.vissued e.popped false { lat := 2, op := .mask o.d.toNat v (BitVec.allOnes 64) })
     (Issues s h 2 {} e →
       exec (.mand h o) s = r (a &&& b) ∧ exec (.mor h o) s = r (a ||| b) ∧ exec (.mxor h o) s = r (a ^^^ b) ∧
       exec (.mnot h o) s = r (~~~a) ∧ exec (.mandn h o) s = r (a &&& ~~~b)) ∧
     (Issues s h 2 { push := pushTarget o.d.toNat } e →
       exec (.mpop h o) s = .next (s.vissued e.popped false
         { lat := 2, op := .scalar o.d.toNat (BitVec.ofNat 64 ((List.range 64).countP fun k => a.getLsbD k)) })) ∧
     (Issues s h 2 { pop := isPop o.a, push := pushTarget o.d.toNat } e →
       let v := if 76 ≤ o.a.toNat ∧ o.a.toNat ≤ 83 then a else e.popped.src o.a
       exec (.mmov h o) s = .next (s.vissued e.popped (isPop o.a)
         { lat := 2, op := if 76 ≤ o.d.toNat ∧ o.d.toNat ≤ 83 then .mask o.d.toNat v (BitVec.allOnes 64) else .scalar o.d.toNat v })))


/-- Conversions (R88, R127, R128): between FP32 and integers or 16-bit formats lane by lane, and between FP32 and the output format
of a format-table entry by segments of 64 elements. A conversion through an entry that is empty, or a segment that does not fit,
raises Format. -/
def Obligations.conversion_results : Prop :=
  ∀ (h : Hdr) (o : RRR) (s : State) (e : Env), Issues s h 4 (vports o) e →
    let a (i : Nat) : Lane := lane (s.vsrc e.popped o.a) i
    let b (i : Nat) : Lane := lane (s.vsrc e.popped o.b) i
    let w := s.lanes e.popped o
    let fm : Fmt := if Enc.FX o = 0 then fp16 else bf16
    let g := fld (Enc.IX o) 2 0
    let fly (v : Nat → Nat) (lanes : Word) (fl : BitVec 3) : Out := .next (s.vissued e.popped (vports o).pop
      { lat := 4, op := .vector o.d.toNat (ofLanes fun i => BitVec.ofNat 32 (v i)) lanes, stat := fl })
    let r (v : Nat → Nat × BitVec 3) : Out := fly (fun i => (v i).1) w (laneFlags w fun i => (v i).2)
    exec (.vcvtF32I32 h o) s = r (fun i => round32 e.rm (.num (decide ((a i).toInt < 0)) ⟨(a i).toInt, 1, 0⟩)) ∧
    exec (.vcvtI32F32 h o) s = r (fun i => fpToI32 e.rm (a i).toNat) ∧
    exec (.vcvtHF32 h o) s = r (fun i =>
      let x := fm.encode e.rm false (fp32.decode (a i).toNat 0)
      let y := fm.encode e.rm false (fp32.decode (b i).toNat 0)
      (x.1 + 2 ^ 16 * y.1, x.2 ||| y.2)) ∧
    exec (.vcvtF32H h o) s = r (fun i =>
      round32 e.rm (fm.decode (if Enc.IX o % 2 = 0 then (a i).toNat % 2 ^ 16 else (a i).toNat / 2 ^ 16) 0)) ∧
    (s.fmtPending e.popped (Enc.FX o) = false →
      (cvtRecord e.popped o = none →
        let t : Out := .next (s.raise e.core e.slot (e.info 0x000A 0 0 .again 0)).nextCore
        exec (.vcvtNf h o) s = t ∧ exec (.vcvtFn h o) s = t) ∧
      (∀ rec : Rec, cvtRecord e.popped o = some rec →
        exec (.vcvtNf h o) s = r (fun i => widenCode rec e.rm (elem (s.vsrc e.popped o.a) rec.cw (64 * g + i))) ∧
        ∃ v lanes, exec (.vcvtFn h o) s = .next (s.vissued e.popped (vports o).pop
            { lat := 4, op := .vector o.d.toNat v lanes
              stat := laneFlags (BitVec.allOnes 64) fun i => (narrowCode rec e.rm (a i).toNat).2 }) ∧
          (∀ i, i < 64 → elem v rec.cw (64 * g + i) = (narrowCode rec e.rm (a i).toNat).1) ∧
          (∀ i, i < 64 → lanes.getLsbD i = decide (2 * rec.cw * g ≤ i ∧ i < 2 * rec.cw * (g + 1)))))

/-- Lane moves (R129): permutation by index or rotation, broadcast, selection by mask, extraction and insertion of one lane. Reductions
(R130): the selected lanes combined in a tree of fixed shape, as FP32 values under `FPCTL.RM` when `FX` is 0 and as integers otherwise; the
result goes to every lane of a vector register or to a scalar. With no lane selected it is the identity. -/
def Obligations.lane_move_results : Prop :=
  (∀ (h : Hdr) (o : RRR) (s : State) (e : Env), Issues s h 2 (vports o) e →
     let a (i : Nat) : Lane := lane (s.vsrc e.popped o.a) i
     let b (i : Nat) : Lane := lane (s.vsrc e.popped o.b) i
     let ix := fld (Enc.IX o) 5 0
     let r (op : FOp) : Out := .next (s.vissued e.popped (vports o).pop { lat := 2, op := op })
     let lanes (v : Nat → Lane) : Out := r (.vector o.d.toNat (ofLanes v) (s.lanes e.popped o))
     exec (.vperm h o) s = lanes (fun i => a ((b i).toNat % 64)) ∧
     exec (.vpermRot h o) s = lanes (fun i => a ((i + ix) % 64)) ∧
     exec (.vbcast h o) s = lanes (fun _ => a ix) ∧
     (∃ v : Vec, exec (.vsel h o) s = r (.vector o.d.toNat v (BitVec.allOnes 64)) ∧
       ∀ i, i < 64 → lane v i = if (s.mread e.popped (Enc.MK o)).getLsbD i then a i else b i) ∧
     exec (.vext h o) s = r (.scalar o.d.toNat ((a ix).zeroExtend 64)) ∧
     exec (.vins h o) s = r (.vector o.d.toNat (ofLanes fun _ => (e.popped.src o.a).setWidth 32) (1#64 <<< ix))) ∧
  (∀ (h : Hdr) (o : RRR) (s : State) (e : Env), Issues s h 8 (vports o) e →
     let v := s.vsrc e.popped o.a
     let w := s.lanes e.popped o
     let r (x : Nat × BitVec 3) : Out := .next (s.vissued e.popped (vports o).pop
       { lat := 8, stat := x.2
         op := if o.d.toNat < 72 then .vector o.d.toNat (ofLanes fun _ => BitVec.ofNat 32 x.1) (BitVec.allOnes 64)
               else .scalar o.d.toNat (BitVec.ofNat 64 x.1) })
     let ints (g : Lane → Lane → Lane) (ident : Nat) : Nat × BitVec 3 :=
       reduce (fun x y => ((g (BitVec.ofNat 32 x) (BitVec.ofNat 32 y)).toNat, 0)) ident v w
     (Enc.FX o = 0 →
       exec (.vredAdd h o) s = r (reduce (fun x y => fpSum fp32 e.rm x y false) 0 v w) ∧
       exec (.vredMin h o) s = r (reduce (fpMinMax fp32 false) 0x7F800000 v w) ∧
       exec (.vredMax h o) s = r (reduce (fpMinMax fp32 true) 0xFF800000 v w)) ∧
     (Enc.FX o ≠ 0 →
       exec (.vredAdd h o) s = r (ints (· + ·) 0) ∧
       exec (.vredMin h o) s = r (ints (fun x y => if x.toInt < y.toInt then x else y) 0x7FFFFFFF) ∧
       exec (.vredMax h o) s = r (ints (fun x y => if y.toInt < x.toInt then x else y) 0x80000000)) ∧
     (w = 0 → reduce (fun x y => fpSum fp32 e.rm x y false) 0 v w = (0, 0)))


/-! ## Words: vector and mask memory (groups 0x15 and 0x16) -/

/-- Loads of vector and mask registers (R131, R132, R135): the 64 lanes lie at the base plus four times the lane number, at the base
plus the lane number times a stride, at the base plus an index from a table in the own scratchpad, or all at the base; a mask is 8
bytes. When every lane passes its checks, an access of latency 6 reads its bytes at issue and lands 6 cycles later, or raises Memory
Poison with the address of the first poisoned lane, or of the table; one of latency 15 is in flight to its destination, with the poison
of its table, if there is any, to be told late. What the model reports for a poisoned table is its choice (assumption log 16). -/
def Obligations.vector_loads_issue : Prop :=
  ∀ (h : Hdr) (s : State) (e : Env),
    let lanes (f : Nat → Word) : List LaneAddr := (List.range 64).map fun i => ⟨(f i).toNat, 4, 4 * i⟩
    let loads (glob : Bool) (out : Out) (d : BitVec 7) (cls : BitVec 4) (table : List Piece) (ea : Word) (ls : List LaneAddr) : Prop :=
      ∀ ps, (if glob then globalLanes e.popped ea ls false else s.scratchLanes e.popped ea ls) = .ok ps →
        (table ≠ [] → s.mustWait e.popped cls.toNat table = false) →
        (glob = false → vectorLat ls = 6 → s.mustWait e.popped cls.toNat ps = false →
          (s.firstPoison (table ++ ps) = none →
            out = .next (s.issued e.popped false
              { lat := 6, op := if d.toNat < 72 then .vector d.toNat (BitVec.ofNat 2048 (s.gather ps)) (BitVec.allOnes 64)
                                else .mask d.toNat (BitVec.ofNat 64 (s.gather ps)) (BitVec.allOnes 64) })) ∧
          ∀ p, s.firstPoison (table ++ ps) = some p → out = .next (s.trapAt e 0x000C p.name 0)) ∧
        ((glob = true ∨ vectorLat ls ≠ 6) → h.dst.toNat = 15 →
          (s.firstPoison table = none →
            out = .next (s.issued e.popped false
              { lat := 15, op := .load d.toNat ps 8 false, acc := true, cls := cls.toNat })) ∧
          ∀ p, s.firstPoison table = some p →
            out = .next (s.issued e.popped false
              { lat := 15, op := .badLoad d.toNat p.name ps, acc := true, cls := cls.toNat }))
    let table (glob : Bool) (out : Out) (o : MEMX) : Prop :=
      let t := e.popped.src o.xr
      t.toNat % 4 = 0 → t.toNat + 256 ≤ Config.scratchBytes →
        loads glob out o.dr o.cls [⟨⟨some e.core, t.toNat⟩, 256, 0, t.toNat⟩] (e.popped.baseMemx o)
          (lanes fun i => e.popped.baseMemx o + (lane (BitVec.ofNat 2048 (s.scratchNat e.core t.toNat 256)) i).signExtend 64)
    (Issues s h 6 {} e →
      (∀ o : MEM,
        loads false (exec (.vld h o) s) o.dr o.cls [] (e.popped.baseMem o) (lanes fun i => e.popped.baseMem o + BitVec.ofNat 64 (4 * i)) ∧
        loads false (exec (.vldb h o) s) o.dr o.cls [] (e.popped.baseMem o) (lanes fun _ => e.popped.baseMem o) ∧
        loads false (exec (.mld h o) s) o.dr o.cls [] (e.popped.baseMem o) [⟨(e.popped.baseMem o).toNat, 8, 0⟩]) ∧
      (∀ o : MEMX,
        loads false (exec (.vlds h o) s) o.dr o.cls [] (e.popped.baseMemx o)
          (lanes fun i => e.popped.baseMemx o + BitVec.ofNat 64 i * e.popped.src o.xr) ∧
        table false (exec (.vldg h o) s) o)) ∧
    (Issues s h 15 {} e →
      (∀ o : MEM, loads true (exec (.vgld h o) s) o.dr o.cls [] (e.popped.baseMem o)
        (lanes fun i => e.popped.baseMem o + BitVec.ofNat 64 (4 * i))) ∧
      (∀ o : MEMX,
        loads true (exec (.vglds h o) s) o.dr o.cls [] (e.popped.baseMemx o)
          (lanes fun i => e.popped.baseMemx o + BitVec.ofNat 64 i * e.popped.src o.xr) ∧
        table true (exec (.vgldg h o) s) o))

/-- Stores of vector and mask registers (R133, R134, R137): when every lane passes its checks and covers no registered barrier word,
the store is in flight and reads its source two cycles after issue, and one that needs several words of one sub-array of the own
scratchpad takes the scratch paths of `S` for as many cycles as the most words that it needs from one (R296). `vstm` checks and stores
only the lanes of its mask; `vst.cnt` stores 256 bytes into an open landing window that holds them all. -/
def Obligations.vector_stores_issue : Prop :=
  ∀ (h : Hdr) (s : State) (e : Env), Issues s h 2 {} e →
    let lanes (f : Nat → Word) : List LaneAddr := (List.range 64).map fun i => ⟨(f i).toNat, 4, 4 * i⟩
    let near (l : LaneAddr) : Bool := decide (l.a + l.len ≤ Config.scratchBytes)
    let stores (glob : Bool) (out : Out) (d : BitVec 7) (cls : BitVec 4) (ea : Word) (ls : List LaneAddr) : Prop :=
      ∀ ps, (if glob then globalLanes e.popped ea ls true else s.scratchLanes e.popped ea ls) = .ok ps → s.hitsBarrier ps = none →
        s.pathsBusy e.popped ps = false →
        out = .next ((if glob then s else s.takePaths e.popped (subWords (ls.filter near))).issued e.popped false
          { lat := 2, op := .storeSrc d.toNat ps, acc := true, cls := cls.toNat, own := !glob && ls.all near })
    (∀ o : MEM,
      let ea := e.popped.baseMem o
      let unit := lanes fun i => ea + BitVec.ofNat 64 (4 * i)
      stores false (exec (.vst h o) s) o.dr o.cls ea unit ∧ stores true (exec (.vgst h o) s) o.dr o.cls ea unit ∧
      stores false (exec (.mst h o) s) o.dr o.cls ea [⟨ea.toNat, 8, 0⟩] ∧
      ∀ ps c off, s.scratchLanes e.popped ea unit = .ok ps → scratchMap e.core ea.toNat = some (c, off) →
        (∃ w ∈ (s.core c).windows, w.2.base ≤ off ∧ off + 256 ≤ w.2.base + w.2.len) → s.hitsBarrier ps = none →
        s.pathsBusy e.popped ps = false →
        exec (.vstCnt h o) s =
          .next (s.issued e.popped false { lat := 2, op := .cntSrc o.dr.toNat c off, acc := true, cls := o.cls.toNat,
                                           own := decide (ea.toNat + 256 ≤ Config.scratchBytes) })) ∧
    (∀ o : MEMX,
      let ea := e.popped.baseMemx o
      let stride := lanes fun i => ea + BitVec.ofNat 64 i * e.popped.src o.xr
      let index := lanes fun i => ea + (lane (s.vread e.popped o.xr.toNat) i).signExtend 64
      stores false (exec (.vsts h o) s) o.dr o.cls ea stride ∧ stores true (exec (.vgsts h o) s) o.dr o.cls ea stride ∧
      stores false (exec (.vsct h o) s) o.dr o.cls ea index ∧ stores true (exec (.vgsct h o) s) o.dr o.cls ea index ∧
      stores false (exec (.vstm h o) s) o.dr o.cls ea
        ((lanes fun i => ea + BitVec.ofNat 64 (4 * i)).filter fun l => (s.msrc e.popped o.xr).getLsbD (l.off / 4)))

/-- The checks of a vector access and their order (R135): a misaligned lane raises Alignment, a lane outside the scratchpads or the
global space Address Range, an unleased byte ends the task, and a store over a registered barrier word raises Barrier Write; each
with the address of the lowest such lane, and only if no earlier check fails for any lane. -/
def Obligations.vector_access_checks : Prop :=
  ∀ (h : Hdr) (o : MEM) (s : State) (e : Env),
    let ls : List LaneAddr := (List.range 64).map fun i => ⟨(e.popped.baseMem o + BitVec.ofNat 64 (4 * i)).toNat, 4, 4 * i⟩
    let trap (c a : Nat) : Out := .next (s.raise e.core e.slot (e.info c a 0 .again 0)).nextCore
    let first (bad : LaneAddr → Bool) (l : LaneAddr) : Prop := ls.find? bad = some l
    let misaligned (l : LaneAddr) : Bool := decide (l.a % 4 ≠ 0)
    let unmapped (l : LaneAddr) : Bool := (s.scratchAt e.core e.task.part l.a 4).isNone
    let outside (l : LaneAddr) : Bool := decide (2 ^ 48 < l.a + 4) || decide (2 ^ 48 - 2 ^ 16 ≤ l.a)
    let unleased (wr : Bool) (l : LaneAddr) : Bool := (e.task.leased l.a 4 wr).isNone
    (Issues s h 15 {} e → ∀ l,
      (first misaligned l → exec (.vld h o) s = trap 0x0003 l.a ∧ exec (.vgld h o) s = trap 0x0003 l.a) ∧
      (ls.find? misaligned = none →
        (first unmapped l → exec (.vld h o) s = trap 0x0005 l.a) ∧
        (first outside l → exec (.vgld h o) s = trap 0x0005 l.a) ∧
        (ls.find? outside = none → first (unleased false) l →
          exec (.vgld h o) s = .next (s.violate e.core e.slot l.a e.st.ip).nextCore))) ∧
    (Issues s h 2 {} e → ∀ l,
      (first misaligned l → exec (.vst h o) s = trap 0x0003 l.a ∧ exec (.vgst h o) s = trap 0x0003 l.a) ∧
      (ls.find? misaligned = none →
        (first unmapped l → exec (.vst h o) s = trap 0x0005 l.a) ∧
        (first outside l → exec (.vgst h o) s = trap 0x0005 l.a) ∧
        (ls.find? outside = none → first (unleased true) l →
          exec (.vgst h o) s = .next (s.violate e.core e.slot l.a e.st.ip).nextCore) ∧
        (∀ ps p, s.scratchLanes e.popped (e.popped.baseMem o) ls = .ok ps → s.hitsBarrier ps = some p →
          exec (.vst h o) s = trap 0x0007 p.name)))

/-! ## Words: scalar memory and atomics (groups 0x20 and 0x21) -/

/-- Scalar loads (R170, R171, R296): a load of the own local window reads its bytes at issue and lands 6 cycles later, or raises Memory
Poison; one of another scratchpad or of global memory is in flight with latency 15; and an 8-byte load by `C` of one of the first four
words of the translation control page reads that word (R310). `lds` and `lds.acq` extend the sign, the others zeros. A load whose `DST`
is below 6, or one outside the own local window whose `DST` is below 15, raises Illegal Distance before any address check. -/
def Obligations.scalar_loads_issue : Prop :=
  ∀ (h : Hdr) (o : MEM) (s : State) (e : Env),
    let n := 2 ^ o.sz.toNat
    let ea := (e.st.reg (o.br.toNat - 84) + o.off.signExtend 64).toNat
    let near : Prop := ea / 2 ^ 63 = 1 ∧ ea % 2 ^ 63 + n ≤ Config.scratchBytes
    let before (acq : Bool) : State := if acq then s.clamp e.popped o.scp.toNat else s
    let word (ea : Nat) : Prop := ea ∈ [0xFFFFFFFF0000, 0xFFFFFFFF0008, 0xFFFFFFFF0010, 0xFFFFFFFF0018]
    let loads (sgn acq : Bool) (out : Out) : Prop :=
      (∀ ps, s.scalarAddr e.popped ea n false = .ok ps → s.pathsBusy e.popped ps = false →
        (near → s.mustWait e.popped o.cls.toNat ps = false →
          (s.firstPoison ps = none →
            out = .next ((before acq).issued e.popped false
              { lat := 6, op := .scalar o.dr.toNat (extend (s.gather ps) n sgn), acq := acq })) ∧
          ∀ p, s.firstPoison ps = some p → out = .next (s.trapAt e 0x000C p.name 0)) ∧
        (¬ near → h.dst.toNat = 15 →
          out = .next ((before acq).issued e.popped false
            { lat := 15, op := .load o.dr.toNat ps n sgn, acc := true, cls := o.cls.toNat, acq := acq }))) ∧
      (h.str = .C → n = 8 → sgn = false → word ea → h.dst.toNat = 15 →
        out = .next ((before acq).issued e.popped false
          { lat := 15, op := .ctlLoad o.dr.toNat (ea - 0xFFFFFFFF0000), acc := true, cls := o.cls.toNat, acq := acq })) ∧
      (¬ near → h.dst.toNat < 15 → out = .next (s.trapAt e 0x0002 0 0))
    (Issues s h 6 { push := pushTarget o.dr.toNat } e →
      loads false false (exec (.ld h o) s) ∧ loads true false (exec (.lds h o) s) ∧
      loads false true (exec (.ldAcq h o) s) ∧ loads true true (exec (.ldsAcq h o) s)) ∧
    (s.env? h = some e → e.live = true → e.windowOpen = true → e.t = h.str → h.dst.toNat < 6 →
      let far : Out := .next (s.trapAt e 0x0002 0 0)
      exec (.ld h o) s = far ∧ exec (.lds h o) s = far ∧ exec (.ldAcq h o) s = far ∧ exec (.ldsAcq h o) s = far)

/-- Scalar stores (R137, R170, R171): a store that passes its checks is in flight; its source is the popped value, or the register as it
stands two cycles after issue. -/
def Obligations.scalar_stores_issue : Prop :=
  ∀ (h : Hdr) (o : MEM) (s : State) (e : Env), Issues s h 2 { pop := isPop o.dr } e →
    let n := 2 ^ o.sz.toNat
    let ea := (e.st.reg (o.br.toNat - 84) + o.off.signExtend 64).toNat
    ∀ ps, s.scalarAddr e.popped ea n true = .ok ps → s.hitsBarrier ps = none → s.pathsBusy e.popped ps = false →
      let y (rel : Bool) : Fly :=
        { lat := 2, op := if o.dr.toNat = 116 then .storeVal (scatter ps e.popped.qi.toNat) else .storeSrc o.dr.toNat ps
          acc := true, cls := o.cls.toNat, rel := rel,
          own := decide (ea / 2 ^ 63 = 1 ∧ ea % 2 ^ 63 + n ≤ Config.scratchBytes) }
      exec (.st h o) s = .next (s.issued e.popped (isPop o.dr) (y false)) ∧
      exec (.stRel h o) s = .next ((s.clamp e.popped o.scp.toNat).issued e.popped (isPop o.dr) (y true))

/-- The checks of a scalar address and their order (R166, R169, R170): alignment, a mapped scratchpad or a well-formed global
address, a lease that allows the access, and for a store registered barrier words. -/
def Obligations.scalar_access_checks : Prop :=
  ∀ (h : Hdr) (o : MEM) (s : State) (e : Env),
    let n := 2 ^ o.sz.toNat
    let ea := (e.st.reg (o.br.toNat - 84) + o.off.signExtend 64).toNat
    let trap (c : Nat) : Out := .next (s.raise e.core e.slot (e.info c ea 0 .again 0)).nextCore
    let ends : Out := .next (s.violate e.core e.slot ea e.st.ip).nextCore
    let scratch : Prop := 2 ^ 63 ≤ ea
    let mapped : Prop := ea % 2 ^ 63 < 2 ^ 32 ∧ (s.scratchAt e.core e.task.part (ea % 2 ^ 63) n).isSome
    let global : Prop := ea + n ≤ 2 ^ 48
    (Issues s h 15 { push := pushTarget o.dr.toNat } e →
      (ea % n ≠ 0 → exec (.ld h o) s = trap 0x0003 ∧ exec (.lds h o) s = trap 0x0003) ∧
      (ea % n = 0 →
        (scratch → ¬ mapped → exec (.ld h o) s = trap 0x0005) ∧
        (¬ scratch → ¬ global → exec (.ld h o) s = trap 0x0005) ∧
        (¬ scratch → ea + n ≤ 2 ^ 48 - 2 ^ 16 → e.task.leased ea n false = none → exec (.ld h o) s = ends))) ∧
    (Issues s h 15 { pop := isPop o.dr } e →
      (ea % n ≠ 0 → exec (.st h o) s = trap 0x0003 ∧ exec (.stRel h o) s = trap 0x0003) ∧
      (ea % n = 0 →
        (scratch → ¬ mapped → exec (.st h o) s = trap 0x0005) ∧
        (¬ scratch → ¬ global → exec (.st h o) s = trap 0x0005) ∧
        (¬ scratch → global → 2 ^ 48 - 2 ^ 16 ≤ ea → exec (.st h o) s = trap 0x0005) ∧
        (¬ scratch → ea + n ≤ 2 ^ 48 - 2 ^ 16 → e.task.leased ea n true = none → exec (.st h o) s = ends) ∧
        (∀ ps p, s.scalarAddr e.popped ea n true = .ok ps → s.hitsBarrier ps = some p → exec (.st h o) s = trap 0x0007)))

/-- Atomics (R172): an access whose bytes may be read and written, and of which no registered barrier word is part, is in flight with
latency 15, with its operands cut to the access size. -/
def Obligations.atomics_issue : Prop :=
  ∀ (h : Hdr) (o : MEMX) (s : State) (e : Env), Issues s h 15 { pop := isPop o.xr } e →
    let n := 2 ^ o.sz.toNat
    let ea := (e.st.reg (o.br.toNat - 84) + o.off.signExtend 64).toNat
    let cut (v : Word) : Word := BitVec.ofNat 64 (v.toNat % 2 ^ (8 * n))
    ∀ p ps qs, s.scalarAddr e.popped ea n true = .ok (p :: ps) → s.scalarAddr e.popped ea n false = .ok qs →
      s.hitsBarrier (p :: ps) = none → s.pathsBusy e.popped (p :: ps) = false →
      let r (mn : Nat) : Out := .next ((s.clamp e.popped o.scp.toNat).issued e.popped (isPop o.xr)
        { lat := 15, op := .atomic mn p (cut (e.popped.src o.xr)) (cut (e.popped.src o.dr)) o.dr.toNat, acc := true, cls := o.cls.toNat,
          own := decide (ea / 2 ^ 63 = 1 ∧ ea % 2 ^ 63 + n ≤ Config.scratchBytes) })
      exec (.aadd h o) s = r 0 ∧ exec (.aand h o) s = r 1 ∧ exec (.aor h o) s = r 2 ∧ exec (.axor h o) s = r 3 ∧
      exec (.amin h o) s = r 4 ∧ exec (.amax h o) s = r 5 ∧ exec (.aminu h o) s = r 6 ∧ exec (.amaxu h o) s = r 7 ∧
      exec (.aswp h o) s = r 8 ∧ exec (.acas h o) s = r 9 ∧ exec (.aaddF32 h o) s = r 10

/-- What an atomic writes (R172): the operation on the old value and the operand, at the access size; a compare that fails writes
nothing. -/
def Obligations.atomic_new_values : Prop :=
  ∀ n ∈ [1, 2, 4, 8], ∀ old x cmp : Nat, old < 2 ^ (8 * n) → x < 2 ^ (8 * n) →
    let s (v : Nat) : Int := if v < 2 ^ (8 * n - 1) then v else (v : Int) - 2 ^ (8 * n)
    let r (mn : Nat) : Nat := (atomicNew mn n old x cmp).1
    r 0 = (old + x) % 2 ^ (8 * n) ∧ r 1 = old &&& x ∧ r 2 = old ||| x ∧ r 3 = old ^^^ x ∧
    s (r 4) = min (s old) (s x) ∧ s (r 5) = max (s old) (s x) ∧ r 6 = min old x ∧ r 7 = max old x ∧ r 8 = x ∧
    (old = cmp → r 9 = x ∧ atomicWrites 9 old cmp = true) ∧ (old ≠ cmp → atomicWrites 9 old cmp = false) ∧
    (∀ mn, mn ≤ 10 → r mn < 2 ^ (8 * n) ∨ mn = 10)

/-! ## Words and steps: matrix engine (group 0x18) -/

/-- Matrix words that pass the checks of R143 and find room enter the queue as a command that holds copies of all that the word
names, with a result of latency 15 in flight (R139, R140, R142 to R145): tiles at multiples of 64 that lie in the own scratchpad and in
one bank group each, A and B of a product and the two tiles of `mxpose` in different groups, a format entry that is written and fits,
and for `mmas` a valid metadata record whose nibbles lie in the group of A (R147, R149, R151 to R155). `mfmt` (R76, R156) writes its
entry 8 cycles after issue, from three records that are valid as A, as B and as output; other records raise Format. `mwait` (R157)
passes when at most `SHP` commands of the task are in the queue, and its strand has observed what has landed (R51). -/
def Obligations.matrix_commands_enter : Prop :=
  (∀ (h : Hdr) (o : MXC) (s : State) (e : Env), Issues s h 15 {} e → ((s.core e.core).mxe.live s.cyc).length < 16 →
     let reg (n : BitVec 7) : Nat := (e.st.reg (n.toNat - 84)).toNat
     let dim := 32 * 2 ^ fld o.shp.toNat 3 2
     let depth := 32 * 2 ^ fld o.shp.toNat 1 0
     let m := (s.core e.core).mxe
     let n := if o.fsl.toNat = 1 then (e.task.fmtb.toNat + (e.st.loopCtr 1).cnt.toNat) % 16 else o.fsi.toNat
     let f := SMap.get e.task.fmt ⟨0, 0, 0⟩ n
     let stamp := if o.sr.toNat = 84 then none else some (reg o.sr)
     let enters (op : Nat) (f : FmtEntry) (md : BitVec 128) : Out := .next (State.issued (s.updCore e.core fun k =>
       { k with mxe := { m with
           queue := m.live s.cyc ++ [{
             op := op, acc := o.acc.toNat, aa := reg o.aa, ba := reg o.ba, stamp := stamp, shp := o.shp.toNat, fmt := f, mdrec := md,
             idx := m.count.toNat, entered := s.cyc, ip := e.st.ip, flight := s.nextId, slot := e.slot,
             stage := stamp.bind fun t => s.stageOf e.core e.task.bhnd (t / 64) }]
           count := m.count + 1 } }) e.popped false { lat := 15, op := .matrix m.count.toNat })
     let tile (a n : Nat) : Prop := a % 64 = 0 ∧ a + n ≤ Config.scratchBytes ∧ (a + n ≤ Config.groupB ∨ Config.groupB ≤ a)
     let size (n : Nat) (r : BitVec 128) : Nat := n * (Rec.of r).cw / 8
     let operands (na : Nat) : Prop :=
       tile (reg o.aa) (size na f.a) ∧ tile (reg o.ba) (size (depth * dim) f.b) ∧
       bankGroup (reg o.aa) (size na f.a) ≠ bankGroup (reg o.ba) (size (depth * dim) f.b) ∧
       recOperand f.a false = true ∧ recOperand f.b true = true ∧ recPair f.a f.b = true
     exec (.mzero h o) s = enters 2 ⟨0, 0, 0⟩ 0 ∧
     (tile (reg o.aa) (dim * dim * 32 / 8) → exec (.mldacc h o) s = enters 4 ⟨0, 0, 0⟩ 0) ∧
     (tile (reg o.aa) 512 → exec (.mscale h o) s = enters 5 ⟨0, 0, 0⟩ 0) ∧
     (s.entryPending e n = false → f ≠ ⟨0, 0, 0⟩ →
       (tile (reg o.aa) (size (dim * dim) f.o) → recValid f.o = true → exec (.mdrn h o) s = enters 3 f 0) ∧
       (tile (reg o.aa) (size (dim * dim) f.a) → tile (reg o.ba) (size (dim * dim) f.a) →
         bankGroup (reg o.aa) (size (dim * dim) f.a) ≠ bankGroup (reg o.ba) (size (dim * dim) f.a) → recOperand f.a false = true →
         exec (.mxpose h o) s = enters 6 f 0) ∧
       (operands (dim * depth) → exec (.mma h o) s = enters 0 f 0) ∧
       (let r := s.scratchNat e.core (reg o.mr) 16
        operands (dim * depth / 2) → reg o.mr % 64 = 0 → reg o.mr + 16 ≤ Config.scratchBytes →
         s.isPoisoned ⟨some e.core, reg o.mr⟩ 16 = false → metaValid r dim depth = true →
         tile (fld r 31 0) (dim * depth / 8) →
         bankGroup (fld r 31 0) (dim * depth / 8) = bankGroup (reg o.aa) (size (dim * depth / 2) f.a) →
         exec (.mmas h o) s = enters 1 f (BitVec.ofNat 128 r)))) ∧
  (∀ (h : Hdr) (o : MXC) (s : State) (e : Env), Issues s h 15 {} e →
     let a := (e.st.reg (o.aa.toNat - 84)).toNat
     let n := e.fmtSel o
     let v : FmtEntry := ⟨BitVec.ofNat 128 (s.scratchNat e.core a 16), BitVec.ofNat 128 (s.scratchNat e.core (a + 16) 16),
       BitVec.ofNat 128 (s.scratchNat e.core (a + 32) 16)⟩
     let valid : Prop := recOperand v.a false = true ∧ recOperand v.b true = true ∧ recPair v.a v.b = true ∧ recValid v.o = true
     (s.entryPending e n = false →
       (a % 16 ≠ 0 → exec (.mfmt h o) s = .next (s.trapAt e 0x0003 a 0)) ∧
       (a % 16 = 0 → Config.scratchBytes < a + 48 → exec (.mfmt h o) s = .next (s.trapAt e 0x0005 a 0)) ∧
       (a % 16 = 0 → a + 48 ≤ Config.scratchBytes → (∀ k, k < 6 → s.isPoisoned ⟨some e.core, a + 8 * k⟩ 8 = false) →
         (valid → exec (.mfmt h o) s = .next (s.issued e.popped false { lat := 8, op := .fmt n v })) ∧
         (¬ valid → exec (.mfmt h o) s = .next (s.trapAt e 0x000A 0 0)))) ∧
     (((s.core e.core).mxe.live s.cyc).countP (fun c => c.slot == e.slot) ≤ o.shp.toNat →
       exec (.mwait h o) s = .next ((s.updTask e.core e.slot fun k => k.updStr e.t fun x =>
         x.observe true (s.landing e.core e.slot e.t)).doneAs e.popped false none)))


/-- The command at the head of a matrix queue (R158 to R163): one without stamp starts when it has been queued for 4 cycles, its
booking allows it, and all that it reads is there; one with a stamp starts in that cycle, inside an interval of the task's booking,
and otherwise raises Schedule Miss with the number of the reason. A command that reads poison, at its start or during its occupancy, is
discarded with every later one and raises Matrix Poison, the elements of its shape undefined. Any other running command completes at the
end of its occupancy. -/
def Obligations.matrix_commands_run : Prop :=
  ∀ (core : Nat) (s : State) (c : MxCmd) (rest : List MxCmd) (k : Task),
    (s.core core).mxe.queue = c :: rest → s.task? core c.slot = some k →
    let present : Prop := s.mxAbsent core c = false ∧ s.mxPoisoned core c = false
    let goes : Prop := exec (.matrixCommandStart core) s = .next (s.mxGo core [] c rest)
    let misses (n : Nat) : Prop := exec (.matrixCommandStart core) s =
      .next ((s.mxDiscard core [] (c :: rest)).mxTrap core c 0x0020 n)
    let poisons : Out := .next ((((s.mxFound core c).mxUndefine core c).mxDiscard core [] (c :: rest)).mxTrap core c 0x0021 0)
    let booked (t : Nat) : Prop := k.bhnd ≠ 0 ∧ ∃ i ∈ s.cal core, i.own k.bhnd = true ∧ i.at? t = true
    (c.running = none → k.ending = none → (s.core core).quiet = false → (s.core core).waits = false →
      (c.stamp = none → c.entered + 4 ≤ s.cyc → s.bookingAllows core k.bhnd c.span = true →
        (present → goes) ∧ (s.mxAbsent core c = true → misses 4) ∧
        (s.mxAbsent core c = false → s.mxPoisoned core c = true → exec (.matrixCommandStart core) s = poisons)) ∧
      (∀ t, c.stamp = some t → c.entered < s.cyc →
        (s.cyc = t → c.entered + 4 ≤ t → booked (t / 64) → present → goes) ∧
        (t < c.entered + 4 ∨ t < s.cyc → t ≤ s.cyc → misses 1) ∧
        (s.cyc = t → c.entered + 4 ≤ t → ¬ booked (t / 64) → misses 3) ∧
        (s.cyc = t → c.entered + 4 ≤ t → booked (t / 64) → s.mxAbsent core c = true → misses 4))) ∧
    (∀ t, c.running = some t → c.done = false → t ≤ s.cyc →
      (s.mxMetPoison core c = false → exec (.matrixCommandComplete core c.idx) s = .next (s.mxComplete core c)) ∧
      (s.mxMetPoison core c = true → exec (.matrixCommandComplete core c.idx) s = poisons)) ∧
    (s.mxGo core [] c rest).core core = { s.core core with mxe := { (s.core core).mxe with
      queue := { c with running := some (s.cyc + c.span - 1)
                        snap := (s.core core).scratch.filter fun b => c.reads.any fun p => p.1 ≤ b.1 && b.1 < p.1 + p.2 } :: rest } }

/-- What a completed command leaves in the accumulator that it names (R146, R148, R151, R153): a product adds to each element of its
shape, `mzero` clears, `mldacc` loads; elements outside the shape and the other accumulator keep their values. Commands that use no
accumulator, and `mdrn`, change none. -/
def Obligations.matrix_element_results : Prop :=
  ∀ (c : MxCmd) (core : Nat) (m : Mxe) (rd : Nat → Byte), c.dim ≤ 128 → c.acc ≤ 1 →
    let el (m : Mxe) (n i j : Nat) : Nat := ((m.acc n).read 32 0 (128 * i + j)).toNat
    let m' := (c.effect core m rd).1
    ∀ i j, i < 128 → j < 128 →
      (c.op ≤ 1 → i < c.dim → j < c.dim → el m' c.acc i j = (c.product m rd i j).1 % 2 ^ 32) ∧
      (c.op = 2 → el m' c.acc i j = 0) ∧
      (c.op = 4 → i < c.dim → j < c.dim →
        el m' c.acc i j = leNat ((List.range 4).map fun b => rd (c.aa + 4 * (i * c.dim + j) + b))) ∧
      (c.op ≤ 4 → c.op ≠ 2 → ¬ (i < c.dim ∧ j < c.dim) → el m' c.acc i j = el m c.acc i j) ∧
      (c.op ≤ 4 → el m' (1 - c.acc) i j = el m (1 - c.acc) i j) ∧
      (c.op = 3 ∨ 5 ≤ c.op → el m' 0 i j = el m 0 i j ∧ el m' 1 i j = el m 1 i j)

/-! ## Words and steps: fences, barriers, landing windows and gates (groups 0x22, 0x23 and 0x25) -/

/-- `fence` and `fence.ack` block strand `C` until what they wait for is over, and then the strand goes on (R175, R176); `fence.ack` sets
`FSTAT` to status 1 with the counts of open stores, leaves it zero at the end, and checks the address of its 512-byte device mask. One
whose open stores have passed the link timeout ends with status 2, the lowest such device and, if asked, the mask with one bit for each
such device. -/
def Obligations.fence_words : Prop :=
  (∀ (h : Hdr) (o : SYS) (s : State) (e : Env), Issues s h 15 {} e →
    let mask := fld o.imm.toNat 15 0
    let scope := fld o.imm.toNat 18 16
    let a := (e.st.reg (o.a.toNat - 84)).toNat
    let u := s.clamp e.popped scope
    let acks (m : Nat) : Out := .next (State.blockedOn (u.updTask e.core e.slot fun k =>
        { k with fstat := fstatWord 1 0 (u.openStores k.key e.core e.slot k.ser mask u.cyc) })
      e.popped { lat := 15, op := .fence mask (e.task.scope scope).1 (some m) })
    exec (.fence h o) s = .next (State.blockedOn u e.popped { lat := 15, op := .fence mask (e.task.scope scope).1 none }) ∧
    (o.a.toNat = 84 → exec (.fenceAck h o) s = acks 0) ∧
    (o.a.toNat ≠ 84 →
      (a % 64 ≠ 0 → exec (.fenceAck h o) s = .next (s.trapAt e 0x0003 a 0)) ∧
      (a % 64 = 0 → Config.scratchBytes < a + 512 → exec (.fenceAck h o) s = .next (s.trapAt e 0x0005 a 0)) ∧
      (a % 64 = 0 → a + 512 ≤ Config.scratchBytes → exec (.fenceAck h o) s = acks (a + 1)))) ∧
  (∀ (id : Nat) (s : State) (f : Flight) (m sc : Nat) (ack : Option Nat), s.comes id f → f.op = .fence m sc ack →
    exec (.resultLanding id) s = .next ((if ack.isSome then s.updTask f.core f.slot fun k => { k with fstat := 0 } else s).finish f)) ∧
  (∀ (id : Nat) (s : State) (f : Flight) (k : Task), s.flight? id = some f → s.task? f.core f.slot = some k →
    (k.str f.strand).wait = .flight f.id →
    ∃ k', (s.finish f).task? f.core f.slot = some k' ∧ (k'.str f.strand).wait = .none) ∧
  (∀ (id : Nat) (s : State) (f : Flight) (k : Task) (m sc a : Nat), s.flight? id = some f → f.op = .fence m sc (some a) →
    s.task? f.core f.slot = some k → s.fenceTimedOut f = true →
    let open_ := s.openStores k.key f.core f.slot k.ser m f.issued
    let u := s.updTask f.core f.slot fun k => { k with fstat := fstatWord 2 ((open_.map (·.dev)).foldl min 4095) open_ }
    (a = 0 → exec (.fenceAckTimeout id) s = .next (u.finish f)) ∧
    (a ≠ 0 → ∃ v : Nat, (∀ d, v.testBit d = true ↔ d < 4096 ∧ ∃ r ∈ open_, r.dev = d) ∧
      exec (.fenceAckTimeout id) s =
        .next ((u.engineWrite k.key (chunk8 ⟨some f.core, a - 1⟩ (leBytes v 512))).1.finish f)))

/-- Barriers (R179 to R183). The five words: a misaligned address raises Alignment, one of no scratchpad of the partition Address Range,
a poisoned word Memory Poison. `barinit` registers a word whose fields allow it, with `PEND` at its parties and `BYTES` at its expected
bytes, and answers 0, or 1 for a registered word and 2 for fields that are not allowed, with no effect; the waits are in flight, `barwait`
and `barwait.na` holding strand `C`; `barfree` of a registered word ends its registration and every wait on it, with the `ERR` bit when
there was one, and answers 1 for any other. An arrival at a registered word raises `ARRIVED`; when the last party arrives with no byte
outstanding, the phase completes: `PHASE` rises modulo 2^16, `ARRIVED` returns to 0 and `PEND` to the expected bytes. An arrival of a word
that does not wait gets the phase in which it counts; one that waits goes on waiting for the end of that phase; a wait ends with the phase
after the one it waited in, and its strand goes on; at a word that is not registered both end with bit 63 set. -/
def Obligations.barrier_words : Prop :=
  (∀ (h : Hdr) (o : SYS) (s : State) (e : Env), Issues s h 15 {} e →
     let a := (e.st.reg (o.a.toNat - 84)).toNat
     let answers (s' : State) (v : Word) : Out := .next (s'.issued e.popped false { lat := 15, op := .scalar o.b.toNat v })
     let all (out : Out) : Prop := exec (.barinit h o) s = out ∧ exec (.barwait h o) s = out ∧ exec (.barwaitNw h o) s = out ∧
       exec (.barwaitNa h o) s = out ∧ exec (.barfree h o) s = out
     (a % 16 ≠ 0 → all (.next (s.trapAt e 0x0003 a 0))) ∧
     (a % 16 = 0 → 2 ^ 32 ≤ a → all (.next (s.trapAt e 0x0005 a 0))) ∧
     (a % 16 = 0 → a < 2 ^ 32 → s.scratchAt e.core e.task.part a 16 = none → all (.next (s.trapAt e 0x0005 a 0))) ∧
     (∀ c off, a % 16 = 0 → a < 2 ^ 32 → s.scratchAt e.core e.task.part a 16 = some ⟨some c, off⟩ →
       s.mustWait e.popped 16 [⟨⟨some c, off⟩, 16, 0, a⟩] = false →
       let l : Loc := ⟨some c, off⟩
       let v := s.readLoc l 16
       let refused : Prop := fld v 126 120 ≠ 0 ∨ fld v 79 60 ≠ 0 ∨ fld v 31 28 ≠ 0 ∨ (fld v 87 80 = 0 ∧ fld v 27 0 = 0)
       let waits : Prop := ∃ f ∈ s.flights, ∃ p b d, f.op = .barWait l p b d
       let freed (v : Nat) : State := State.updCore (s.storeBytes (l, 16, v)) c fun k => { k with bars := NSet.del k.bars off }
       let ended (s : State) (v : Nat) : State := { s with flights := s.flights.map fun (f : Flight) =>
         match f.op with
         | .barWait l' _ _ d => if l' = l then { f with op := .scalar d (barFreed v) } else f
         | _ => f }
       (s.isPoisoned l 16 = true → all (.next (s.trapAt e 0x000C a 0))) ∧
       (s.isPoisoned l 16 = false →
         (s.barReg l = true → exec (.barinit h o) s = answers s 1) ∧
         (s.barReg l = false → refused → exec (.barinit h o) s = answers s 2) ∧
         (s.barReg l = false → ¬ refused → exec (.barinit h o) s = answers
           ((s.storeBytes (l, 16, fld v 27 0 + 2 ^ 32 * fld v 27 0 + 2 ^ 80 * fld v 87 80 + 2 ^ 127)).updCore c fun k =>
             { k with bars := NSet.add k.bars off }) 0) ∧
         exec (.barwait h o) s = .next (s.blockedOn e.popped { lat := 1, op := .barArrive l false o.b.toNat }) ∧
         exec (.barwaitNw h o) s = .next (s.issued e.popped false { lat := 1, op := .barArrive l true o.b.toNat }) ∧
         exec (.barwaitNa h o) s = .next (s.blockedOn e.popped
           { lat := 15, op := .barWait l ((e.st.reg (o.b.toNat - 84)).toNat % 65536) false o.b.toNat }) ∧
         (s.barReg l = false → exec (.barfree h o) s = answers s 1) ∧
         (s.barReg l = true →
           (¬ waits → exec (.barfree h o) s = answers (freed (setFld v 127 127 0)) 0) ∧
           (waits → let w := setFld (setFld v 127 127 0) 113 113 1
             exec (.barfree h o) s = answers (ended (freed w) w) 0))))) ∧
  (∀ (s : State) (c off : Nat), s.barReg ⟨some c, off⟩ = true →
     let l : Loc := ⟨some c, off⟩
     let v := s.readLoc l 16
     let w := (s.barArrival l).readLoc l 16
     fld v 95 88 < fld v 87 80 →
     (fld v 95 88 + 1 < fld v 87 80 ∨ fld v 59 32 ≠ 0 →
       fld w 95 88 = fld v 95 88 + 1 ∧ fld w 111 96 = fld v 111 96 ∧ fld w 59 32 = fld v 59 32) ∧
     (fld v 95 88 + 1 = fld v 87 80 → fld v 59 32 = 0 →
       fld w 95 88 = 0 ∧ fld w 111 96 = (fld v 111 96 + 1) % 2 ^ 16 ∧ fld w 59 32 = fld v 27 0) ∧
     fld w 87 80 = fld v 87 80 ∧ fld w 27 0 = fld v 27 0 ∧
     (∀ c' a, (c' ≠ some c ∨ a < off ∨ off + 16 ≤ a) → (s.barArrival l).byteAt ⟨c', a⟩ = s.byteAt ⟨c', a⟩)) ∧
  (∀ (id : Nat) (s : State) (f : Flight) (l : Loc) (d : Nat), s.comes id f →
     let v := s.readLoc l 16
     let goesOn (t : State) (op : FOp) : Out := .next { t with
       fresh := t.fresh + 1
       flights := t.flights.map fun (g : Flight) =>
         if g.id = f.id then { g with op := op, due := max s.cyc (f.issued + 15 + Config.extraLatency s.fresh) } else g }
     (∀ nw, f.op = .barArrive l nw d →
       (s.barReg l = false → exec (.resultLanding id) s = goesOn s (.scalar d (barFreed v))) ∧
       (s.barReg l = true → exec (.resultLanding id) s =
         goesOn (s.barArrival l) (if nw then .scalar d (barResult v false) else .barWait l (s.barPhase l) true d))) ∧
     (∀ ph arrived, f.op = .barWait l ph arrived d →
       let r := if s.barReg l = false then barFreed v else barResult (if arrived then setFld v 111 96 (ph + 1) else v) false
       exec (.resultLanding id) s = .next ((s.updTask f.core f.slot fun k => k.landScalar .C d r).finish f)))


/-- Landing windows (R184 to R189, R420): `lwin` checks the address of its descriptor, opens a window from one that is valid, already ready
when it expects no bytes, raises Window for any other and Memory Poison for a poisoned word; `lwclose` closes one and wakes its waiters with
`ERR` 4 unless it was ready; `lwpoll` answers its status word; `lwwait` answers at once when the
window is ready or not open, and else parks the task, whose wait a timeout ends. A counted write is stored but for registered barrier
words, and the window that holds some of its bytes counts them; its count stops at 268,435,455, it becomes ready with the expected count,
and it keeps its first error. A write that is only admitted through a window changes nothing when that window is closed or does not admit
it. -/
def Obligations.window_words : Prop :=
  ((∀ (h : Hdr) (o : SYS) (s : State) (e : Env), Issues s h 15 {} e →
     let a := (e.st.reg (o.a.toNat - 84)).toNat
     let w := fld o.imm.toNat 5 0
     let d := s.scratchNat e.core a 32
     (a % 32 ≠ 0 → exec (.lwin h o) s = .next (s.trapAt e 0x0003 a 0)) ∧
     (a % 32 = 0 → Config.scratchBytes < a + 32 → exec (.lwin h o) s = .next (s.trapAt e 0x0005 a 0)) ∧
     (a % 32 = 0 → a + 32 ≤ Config.scratchBytes → s.mustWait e.popped 16 [⟨⟨some e.core, a⟩, 32, 0, a⟩] = false →
       ((s.core e.core).windowOk w d = false → exec (.lwin h o) s = .next (s.trapAt e 0x0009 0 0)) ∧
       ((s.core e.core).windowOk w d = true →
         (∀ k, k < 4 → s.isPoisoned ⟨some e.core, a + 8 * k⟩ 8 = true → (∀ j, j < k → s.isPoisoned ⟨some e.core, a + 8 * j⟩ 8 = false) →
           exec (.lwin h o) s = .next (s.trapAt e 0x000C (a + 8 * k) 0)) ∧
         ((∀ k, k < 4 → s.isPoisoned ⟨some e.core, a + 8 * k⟩ 8 = false) →
           exec (.lwin h o) s = .next (State.doneAs (s.updCore e.core fun c =>
             { c with windows := SMap.set c.windows w ⟨BitVec.ofNat 256 d, fld d 91 64 == 0, 0, 0⟩ }) e.popped false none)))) ∧
     (SMap.find? (s.core e.core).windows w = none → exec (.lwclose h o) s = .next (s.doneAs e.popped false none) ∧
       exec (.lwpoll h o) s = .next (s.issued e.popped false { lat := 15, op := .scalar o.b.toNat (BitVec.ofNat 64 (7 * 2 ^ 59)) })) ∧
     (∀ x, SMap.find? (s.core e.core).windows w = some x →
       let closed := s.updCore e.core fun k => { k with windows := SMap.erase k.windows w }
       (x.rdy = true → exec (.lwclose h o) s = .next (closed.doneAs e.popped false none)) ∧
       (x.rdy = false → exec (.lwclose h o) s = .next
         ((closed.wakeWindow e.core w (BitVec.ofNat 64 (2 ^ 63 + 4 * 2 ^ 59 + x.cnt))).doneAs e.popped false none)) ∧
       exec (.lwpoll h o) s = .next (s.issued e.popped false
         { lat := 15, op := .scalar o.b.toNat (BitVec.ofNat 64 ((if x.rdy then 2 ^ 63 else 0) + x.err * 2 ^ 59 + 2 ^ 58 + x.cnt)) }))) ∧
   (∀ (h : Hdr) (o : SYS) (s : State) (e : Env), Decides s h e → State.yieldReady e s = true →
     let w := fld o.imm.toNat 5 0
     let t := fld o.imm.toNat 23 8
     let answers (v : Word) : Out := .next ((s.scramble e.core).metFly e { lat := 15, op := .scalar o.b.toNat v })
     (SMap.find? (s.core e.core).windows w = none → exec (.lwwait h o) s = answers (BitVec.ofNat 64 (7 * 2 ^ 59))) ∧
     (∀ x, SMap.find? (s.core e.core).windows w = some x →
       (x.rdy = true → exec (.lwwait h o) s = answers (BitVec.ofNat 64 (2 ^ 63 + x.err * 2 ^ 59 + 2 ^ 58 + x.cnt))) ∧
       (x.rdy = false → exec (.lwwait h o) s =
         .next (s.parkAt e (.window w (if t = 0 then none else some (s.cyc + 1 + 4096 * t)) (o.b.toNat - 84)))))) ∧
   (∀ (core slot w t dst : Nat) (s : State) (k : Task) (x : Window), s.task? core slot = some k →
     k.st = .parked (.window w (some t) dst) → t ≤ s.cyc → SMap.find? (s.core core).windows w = some x →
     exec (.lwwaitTimeout core slot) s = .next (State.setTask { s with nextId := s.nextId + 1 } core slot
       { k with st := .parked (.windowDone w (BitVec.ofNat 64 (6 * 2 ^ 59 + 2 ^ 58 + x.cnt)) dst), entered := s.cyc, orderSeq := s.nextId }))) ∧
  ((∀ (w : CWrite) (s : State) (p : Nat), s.partOf w.core = some p →
     let key := s.keyOfCore p w.core
     let arrives (s' : State) : Prop := exec (.countedWriteArrival w) s = .next s'
     (w.direct = false →
       let ps := chunk8 ⟨some w.core, w.off⟩ w.bytes
       let bad := markedPieces ps w.off w.marks
       let r := s.engineWrite key ps bad
       let found := List.find? (fun p => decide (0 < p.2.part w.off w.bytes.length)) (r.1.core w.core).windows
       (found = none → arrives r.1) ∧
       (∀ n x, found = some (n, x) →
         arrives (r.1.setWindow w.core n (x.count (x.part w.off w.bytes.length) r.2 (!bad.isEmpty))))) ∧
     (w.direct = true →
       (SMap.find? (s.core w.core).windows w.win = none → arrives s) ∧
       (∀ x, SMap.find? (s.core w.core).windows w.win = some x →
         let ps := chunk8 ⟨some w.core, x.base + w.off⟩ w.bytes
         let bad := markedPieces ps (x.base + w.off) w.marks
         let r := s.engineWrite key ps bad
         (x.admits w.rq w.owner = false ∨ x.len < w.off + w.bytes.length → arrives s) ∧
         (x.admits w.rq w.owner = true → w.off + w.bytes.length ≤ x.len →
           arrives (r.1.setWindow w.core w.win (x.count w.bytes.length r.2 (!bad.isEmpty))))))) ∧
   (∀ (s : State) (key : Nat) (ps : List WPiece),
     (s.engineWrite key ps).2 = ps.any s.inBarrier ∧
     ((∀ p ∈ ps, s.inBarrier p = false) → (s.engineWrite key ps).1 = s.perform key ps) ∧
     (s.engineWrite key ps).1 = (s.flagSkipped ps).perform key (ps.filter fun p => !s.inBarrier p)) ∧
   (∀ (x : Window) (n : Nat) (sk po : Bool),
     (x.count n sk po).cnt = min (x.cnt + n) 268435455 ∧
     (x.count n sk po).rdy = (x.rdy || decide (x.exp ≤ min (x.cnt + n) 268435455)) ∧
     (x.count n sk po).err = (if x.err ≠ 0 then x.err else if sk then 5 else if po then 2 else 0) ∧ (x.count n sk po).desc = x.desc))


/-- Gates (R199 to R203): a caller without the right that the word needs raises Gate Access; `gsig` is in flight; `gwait` answers
at once when the gate has reached the sequence number, in transit too, or is closed, with the payload copied, and else parks, as it does
while queued signals are being applied; `gpoll` answers the
gate's state; at slots that are multiples of 64 the bucket of an active gate is refilled up to its capacity. At the update point of a
`gsig` an active gate with a token left takes the payload and the next sequence number; without a token it answers 1, a closed gate 4,
and a gate in transit queues the signal, up to 16, as does one whose queued signals are still being applied (the model's choice, log 75). -/
def Obligations.gate_words : Prop :=
  ((∀ (h : Hdr) (o : SYS) (s : State) (e : Env),
     let x := e.st.reg (o.a.toNat - 84)
     let g := fld x.toNat 11 0
     let copies := x.getLsbD 63
     let paddr := if copies then some (fld x.toNat 52 32) else none
     let place : List Piece := if copies then [⟨⟨some e.core, fld x.toNat 52 32⟩, 32, 0, fld x.toNat 52 32⟩] else []
     (Issues s h 15 {} e →
       (s.gateOk e.task x [27] (if copies then [30] else []) = none → exec (.gsig h o) s = .next (s.trapAt e 0x0008 g 0)) ∧
       (∀ r, s.gateOk e.task x [27] (if copies then [30] else []) = some r →
         exec (.gsig h o) s = .next (s.issued e.popped false { lat := 15, op := .gsig g paddr o.b.toNat, acc := copies, cls := 17 })) ∧
       (s.gateOk e.task x (if copies then [29] else [28, 29]) [] = none → exec (.gpoll h o) s = .next (s.trapAt e 0x0008 g 0)) ∧
       (∀ r, s.gateOk e.task x (if copies then [29] else [28, 29]) [] = some r → s.mustWait e.popped 17 place = false →
         exec (.gpoll h o) s = .next ((s.putPayload e.task.key e.core paddr r.payload).issued e.popped false
           { lat := 15, op := .scalar o.b.toNat (gateWord (if r.state = 2 then 4 else 0) r r.seq) }))) ∧
     (Decides s h e → State.yieldReady e s = true → s.mustWait e 17 place = false →
       let v := (e.st.reg (o.b.toNat - 84)).toNat
       (s.gateOk e.task x [28] (if copies then [29] else []) = none → exec (.gwait h o) s = .next (s.meetTrap e 0x0008 g 0)) ∧
       (∀ r, s.gateOk e.task x [28] (if copies then [29] else []) = some r →
         (v ≤ r.seq → r.state = 1 ∨ (r.state ≠ 2 ∧ r.queue = []) → exec (.gwait h o) s =
           .next (((s.putPayload e.task.key e.core paddr r.payload).scramble e.core).metFly e
             { lat := 15, op := .scalar o.b.toNat (gateWord 0 r r.seq) })) ∧
         (r.state = 2 → exec (.gwait h o) s =
           .next ((s.scramble e.core).metFly e { lat := 15, op := .scalar o.b.toNat (gateWord 4 r r.seq) })) ∧
         (r.state ≠ 2 → r.seq < v ∨ (r.state ≠ 1 ∧ r.queue ≠ []) → exec (.gwait h o) s = .next (s.parkAt e (.gate g v (o.b.toNat - 84) paddr)))))) ∧
   (∀ (g : Nat) (s : State) (r : Gate), SMap.find? s.gates g = some r → s.slot % 64 = 0 → s.cyc % 64 = 0 → r.refilled ≠ s.slot + 1 →
     exec (.gateRefill g) s = .next { s with gates := SMap.set s.gates g { r with
       level := if r.state = 0 ∧ r.queue = [] then min r.cap (r.level + r.refill) else r.level, refilled := s.slot + 1 } })) ∧
  (∀ (s : State) (f : Flight) (g : Nat) (p : Option Nat) (dst : Nat) (r : Gate) (k : Task),
     SMap.find? s.gates g = some r → s.task? f.core f.slot = some k → s.comes f.id f → f.op = .gsig g p dst →
     let pay := p.map fun a => s.scratchNat f.core a 32
     let ends (s' : State) (v : Word) : Out := .next ((s'.updTask f.core f.slot fun k => k.landScalar .C dst v).finish f)
     let out := exec (.resultLanding f.id) s
     let new : Gate := { r with level := r.level - 1, payload := pay.getD r.payload, seq := (r.seq + 1) % 2 ^ 64 }
     let waits : Gate := { r with queue := r.queue ++ [⟨k.part, k.fn, pay⟩] }
     (r.state = 2 → out = ends s (gateWord 4 r r.seq)) ∧
     (r.state = 0 → r.queue = [] → r.level = 0 → out = ends s (gateWord 1 r r.seq)) ∧
     (r.state = 0 → r.queue = [] → r.level ≠ 0 → out = ends (s.setGate g new) (gateWord 0 new new.seq)) ∧
     (r.state = 1 ∨ (r.state = 0 ∧ r.queue ≠ []) → r.queue.length < 16 → out = ends (s.setGate g waits) (gateWord 2 waits (r.seq + r.queue.length + 1))) ∧
     (r.state = 1 ∨ (r.state = 0 ∧ r.queue ≠ []) → 16 ≤ r.queue.length → out = ends s (gateWord 3 r r.seq)))


/-! ## Words and steps: translation and the fabric (groups 0x21 and 0x24) -/

/-- The translation control page and shoot-downs (R309 to R312): a valid request to `SDREQ` gets the next ticket and a limit of
4,096 cycles, or 131,072 for the whole space; an invalid one gets all ones and changes no context; a valid value becomes the `ROOT` of
stage 1 and submits a shoot-down of the whole space. The oldest request completes by raising `SDDONE` to its ticket plus 1, when the accesses
that use an old translation of its range have performed; the leases and the ports' caches lose what they held of the range, and what waits
for a lease there walks again. -/
def Obligations.translation_control : Prop :=
  (∀ (id spec : Nat) (x : Word) (s : State) (f : Flight) (c : Context), s.comes id f →
    SMap.find? s.ctxs (s.flightKey f) = some c →
    let key := s.flightKey f
    let result (s' : State) (v : Word) : State := (s'.updTask f.core f.slot fun k => k.landScalar .C spec v).finish f
    let submitted (c : Context) (v : Word) (lim : Nat) (out : Out) : Prop := ∃ due, s.cyc < due ∧ due ≤ s.cyc + lim / 2 ∧
      out = .next (result { s with
        ctxs := SMap.set s.ctxs key { c with sdNext := c.sdNext + 1, sds := c.sds ++ [⟨c.sdNext, v, due⟩] }, fresh := s.fresh + 1 }
        (BitVec.ofNat 64 c.sdNext))
    (f.op = .sdreq x spec →
      (shootOk x.toNat = true → submitted c x (if x.getLsbD 2 then 131072 else 4096) (exec (.sdreq id) s)) ∧
      (shootOk x.toNat = false → exec (.sdreq id) s = .next (result s (BitVec.allOnes 64)))) ∧
    (f.op = .root x spec →
      (x.toNat % 4096 = 0 → x.toNat < 2 ^ 48 → submitted (c.setRoot x.toNat) 4 131072 (exec (.root id) s)) ∧
      (x.toNat % 4096 ≠ 0 ∨ 2 ^ 48 ≤ x.toNat → exec (.root id) s = .next (result s (BitVec.allOnes 64))))) ∧
  (∀ (part fn lo n : Nat) (s : State) (c : Context) (d : Shootdown) (rest : List Shootdown),
    SMap.find? s.ctxs (128 * part + fn) = some c → c.sds = d :: rest → d.due ≤ s.cyc → shootRange d.value.toNat = (lo, n) →
    s.accessPending (128 * part + fn) lo n = false →
    let key := 128 * part + fn
    exec (.shootdownComplete part fn) s = .next ((((State.rewalkAll
      { s with ctxs := SMap.set s.ctxs key { c with sdDone := d.ticket + 1, sds := rest } } key lo n).clearPorts key lo n).retryLeases key
        (leaseHit lo n))))

/-- Far accesses at issue (R190 to R193): alignment of the destination and of the address, then their ranges, then the job and its
routes, each with its trap; `fld` sends a READ and parks the task, `fst` and `fst.ord` read their source two cycles later, and with a window
operand name a core, a window and an offset instead of an address, `fatom` sends its ATOM and is in flight until the reply. -/
def Obligations.far_words : Prop :=
  ∀ (h : Hdr) (o : MEMX) (s : State) (e : Env),
    let c := s.ctx e.task.key
    let base := e.st.reg (o.br.toNat - 84)
    let me := (e.core, e.slot, e.task.ser)
    (Decides s h e → State.yieldReady e s = true → c.farRoom false = true → s.mustWait e 16 [] = false →
      let ea := (base + o.off.signExtend 64).toNat
      let d := (e.st.reg (o.dr.toNat - 84)).toNat
      let n := [64, 256, 1024, 4096].getD o.sz.toNat 64
      let out := exec (.fld h o) s
      (d % 64 ≠ 0 → out = .next (s.meetTrap e 0x0003 d 0)) ∧
      (d % 64 = 0 → ea % 64 ≠ 0 → out = .next (s.meetTrap e 0x0003 ea 0)) ∧
      (d % 64 = 0 → ea % 64 = 0 → Config.scratchBytes < d + n → out = .next (s.meetTrap e 0x0005 d 0)) ∧
      (d % 64 = 0 → ea % 64 = 0 → d + n ≤ Config.scratchBytes →
        (farOk ea n = false → out = .next (s.meetTrap e 0x0005 ea 0)) ∧
        (farOk ea n = true →
          (∀ r, c.farRefusal (fld ea 59 48) = some r → out = .next (s.meetTrap e 0x000B ea (r * 256))) ∧
          (c.farRefusal (fld ea 59 48) = none → out = .next (State.parkAt
            (s.request e.task.key (fld ea 59 48) o.cls.toNat s.cyc me (.load e.core e.slot d n [])
              { ty := 0, addr := BitVec.ofNat 64 (ea % 2 ^ 48), sub := o.sz.setWidth 4 }) e (.far c.nextTag)))))) ∧
    (Issues s h 15 {} e →
      let ea := (base + o.off.signExtend 64).toNat
      let n := if o.dr.toNat < 72 then 256 else 2 ^ o.sz.toNat
      let w := e.st.reg (o.xr.toNat - 84)
      let aligned : Prop := ea % (if o.dr.toNat < 72 then 4 else n) = 0
      let win : Prop := o.xr.toNat ≠ 84
      let inRange : Prop := farOk ea n = true ∧ (win → ea % 2 ^ 48 = 0 ∧ w.toNat < 2 ^ 37)
      let y (p : Pkt) : Fly := { lat := 2, cls := o.cls.toNat, op := .fstSrc o.dr.toNat n p }
      let stores (ty : Nat) (out : Out) : Prop :=
        (¬ aligned → out = .next (s.trapAt e 0x0003 ea 0)) ∧
        (aligned → ¬ inRange → out = .next (s.trapAt e 0x0005 ea 0)) ∧
        (aligned → inRange →
          (∀ r, c.farRefusal (fld ea 59 48) = some r → out = .next (s.trapAt e 0x000B ea (r * 256))) ∧
          (c.farRefusal (fld ea 59 48) = none → s.storeRoom e.task.key = true → s.mustWait e.popped 16 [] = false →
            (¬ win → out = .next (s.issued e.popped false (y {
              ty := ty, addr := BitVec.ofNat 64 (ea % 2 ^ 48), ddev := BitVec.ofNat 12 (fld ea 59 48), cls := o.cls }))) ∧
            (win → out = .next (s.issued e.popped false (y {
              ty := ty, addr := w, ddev := BitVec.ofNat 12 (fld ea 59 48), sub := 1, cls := o.cls })))))
      o.xr.toNat ≠ 116 → stores 2 (exec (.fst h o) s) ∧ stores 3 (exec (.fstOrd h o) s)) ∧
    (Issues s h 15 { pop := isPop o.xr } e →
      let ea := (base + (o.off.extractLsb' 0 12).signExtend 64).toNat
      let n := 2 ^ o.sz.toNat
      let op := fld o.off.toNat 15 12
      let out := exec (.fatom h o) s
      (ea % n ≠ 0 → out = .next (s.trapAt e 0x0003 ea 0)) ∧
      (ea % n = 0 → farOk ea n = false → out = .next (s.trapAt e 0x0005 ea 0)) ∧
      (ea % n = 0 → farOk ea n = true →
        (∀ r, c.farRefusal (fld ea 59 48) = some r → out = .next (s.trapAt e 0x000B ea (r * 256))) ∧
        (c.farRefusal (fld ea 59 48) = none → c.farRoom false = true → s.mustWait e.popped 16 [] = false →
          out = .next (State.issued
            (s.request e.task.key (fld ea 59 48) o.cls.toNat s.cyc me (.atomic s.nextId)
              { ty := 4, addr := BitVec.ofNat 64 (ea % 2 ^ 48), opnd := e.popped.src o.xr, sub := BitVec.ofNat 4 op, status := o.sz.setWidth 8
                payload := if op = 9 then leBytes (e.st.reg (o.dr.toNat - 84)).toNat 8 else [] }) e.popped (isPop o.xr)
            { lat := 15, op := .fatom o.dr.toNat ea c.nextTag, cls := o.cls.toNat }))))

/-- Third-party reads (R194 to R197, R319, R332 to R334): the record's address is checked, its members found, the XREQ sent to the owner,
and strand `C` goes on; a record that the checks of R195 or R319 refuse raises Far Access, a poisoned one Memory Poison. An owner that may
not serve sends XFLT to the requester and XABT to every member, and otherwise the data; a member stores what its window admits, counts what
it gets and reports when it is whole; XABT makes its window ready with the error, and is reported unless the delivery was; the requester
collects the reports and writes its record when all are there or `TMO` has passed: the status, the number of members, and the masks of those
that have acknowledged, rejected and not answered. -/
def Obligations.third_party_words : Prop :=
  (∀ (h : Hdr) (o : SYS) (s : State) (e : Env), Issues s h 15 {} e →
     let a := (e.st.reg (o.a.toNat - 84)).toNat
     let r := s.scratchNat e.core a 32
     let key := e.task.key
     let c := s.ctx key
     let limit := s.cyc + (if fld r 255 244 = 0 then c.linkTimeout else 4096 * fld r 255 244)
     let bad (k : Nat) : Bool := s.isPoisoned ⟨some e.core, a + 8 * k⟩ 8
     let goes (trap : Bool) (out : Out) : Prop :=
       (a % 32 ≠ 0 → out = .next (s.trapAt e 0x0003 a 0)) ∧
       (a % 32 = 0 → Config.scratchBytes < a + 32 → out = .next (s.trapAt e 0x0005 a 0)) ∧
       (a % 32 = 0 → a + 32 ≤ Config.scratchBytes → s.mustWait e.popped 16 [⟨⟨some e.core, a⟩, 32, 0, a⟩] = false →
         (∀ n, c.thirdMembers r = .error n → out = .next (s.trapAt e 0x000B a (n * 256))) ∧
         (∀ ms, c.thirdMembers r = .ok ms →
           (∀ k, k < 4 → bad k = true → (∀ j, j < k → bad j = false) → out = .next (s.trapAt e 0x000C (a + 8 * k) 0)) ∧
           ((∀ k, k < 4 → bad k = false) → c.farRoom true = true → out = .next (State.doneAs
             (s.request key (xOwner c.devNo r) (fld r 243 240) s.cyc (e.core, e.slot, e.task.ser)
               (.third e.core e.slot e.task.ser e.st.ip trap (BitVec.ofNat 256 r) ms 0 0 0 none limit)
               { ty := 8, addr := BitVec.ofNat 64 (xTarget r), opnd := BitVec.ofNat 64 (fld r 63 0 % 2 ^ 48), payload := xPayload r ms })
             e.popped false none))))
     goes false (exec (.fldx h o) s) ∧ goes true (exec (.fldxT h o) s)) ∧
  ((∀ (p : Pkt) (s : State) (key : Nat) (c : Context), s.arrival p = some (key, c) →
     let t := s.served key p
     let n := fld p.xRecord 80 64
     let ms := (List.range p.xMembers.length).zip p.xMembers
     let base (ty k : Nat) : Pkt :=
       { ty := ty, tag := p.tag, rqdev := p.rqdev, cls := p.cls, addr := p.addr, opnd := BitVec.ofNat 64 (k + 256 * n) }
     let refuses (r : Nat) : Prop := exec (.xreq p) s = .next (ms.foldl (fun u m => u.sendOff key m.2 { base 12 m.1 with status := 1 })
       (t.reply key p { ty := 11, reason := BitVec.ofNat 8 r }))
     (c.serves = false → refuses 7) ∧
     (c.serves = true → ∀ r, t.farPlaces key p.opnd.toNat n (fun _ _ fr => fr) = .error r → refuses r) ∧
     (c.serves = true → ∀ ps, t.farPlaces key p.opnd.toNat n (fun _ _ fr => fr) = .ok ps →
       let st := farStep p.opnd.toNat n
       let u := t.portFill key p.opnd.toNat n
       exec (.xreq p) s = .next (ms.foldl (fun v m => (List.range ((n + 255) / 256)).foldl (fun v i =>
         v.sendOff key m.2 (dataPacket (base 9 m.1) (u.readPlaces st ps) i)) v) ((u.billRead key n).findPlaces key p.opnd.toNat st ps))) ∧
     (let t := s.received key p
      let d := c.delivery p
      let here : Prop := c.present = true ∧ t.partOf d.core = some (key / 128)
      let off := fld p.addr.toNat 36 16 + 64 * p.poff.toNat
      let arrives (st : Option State) : Prop :=
        let u := st.getD t
        let d' : Delivery := { d with got := d.got + p.payload.length, rejected := d.rejected || st.isNone
                                      poisoned := d.poisoned || (st.isSome && p.marks != 0) }
        (d'.len ≤ d'.got → exec (.xdata p) s = .next ((u.setDelivery key p { d' with endedAt := some u.cyc }).sendXack key p
          (if d'.rejected then 1 else if d'.poisoned then 2 else 0))) ∧
        (d'.got < d'.len → exec (.xdata p) s = .next (u.setDelivery key p d'))
      (d.endedAt.isSome = true → exec (.xdata p) s = .next t) ∧
      (d.endedAt = none →
        (¬ here → arrives none) ∧
        (here → SMap.find? (t.core d.core).windows d.win = none → arrives none) ∧
        (∀ x, here → SMap.find? (t.core d.core).windows d.win = some x →
          let ps := chunk8 ⟨some d.core, x.base + off⟩ p.payload
          let bad := markedPieces ps (x.base + off) p.marks
          let r := t.engineWrite key ps bad
          let admitted : Prop := x.admits p.rqdev.toNat p.sdev.toNat = true ∧ off + p.payload.length ≤ x.len
          (¬ admitted → arrives none) ∧
          (admitted → arrives (some (r.1.setWindow d.core d.win (x.count p.payload.length r.2 (!bad.isEmpty))))))) ∧
      (d.aborted = true → exec (.xabt p) s = .next t) ∧
      (d.aborted = false →
        let u := t.setDelivery key p { d with
          aborted := true, endedAt := some (d.endedAt.getD t.cyc), owed := if c.present then 0 else p.status.toNat }
        let reports (v : State) : Prop := exec (.xabt p) s = .next (if d.endedAt.isSome then v else v.sendXack key p 3)
        (¬ here → reports u) ∧
        (here → SMap.find? (u.core d.core).windows d.win = none → reports u) ∧
        (here → ∀ x, SMap.find? (u.core d.core).windows d.win = some x →
          (x.rdy = false → reports (u.setWindow d.core d.win { x with rdy := true, err := p.status.toNat })) ∧
          (x.rdy = true → reports u))))) ∧
   (∀ (p : Pkt) (s : State) (key : Nat) (r : FarReq) (c sl ser ip : Nat) (tr : Bool) (rcd : BitVec 256) (ms : List Nat)
       (ack rej poi : Nat) (ofc : Option Nat) (lim : Nat),
     s.farOf p = some (key, r) → (s.ctx key).present = true → r.kind = .third c sl ser ip tr rcd ms ack rej poi ofc lim →
     let b := 2 ^ p.opnd.toNat
     let all := 2 ^ ms.length - 1
     let t := s.received key p
     let kept (q : FarReq) : State := t.setFar key fun l => l.map fun x => if x.tag = q.tag then q else x
     let q : FarReq := { r with
       aborted := r.aborted || p.status == 3
       kind := .third c sl ser ip tr rcd ms (ack ||| b) (if p.status = 1 then rej ||| b else rej)
         (if p.status = 2 then poi ||| b else poi) ofc lim }
     let f : FarReq := { r with kind := .third c sl ser ip tr rcd ms ack rej poi (some p.reason.toNat) lim }
     ((ack ||| b) % 2 ^ ms.length = all → (ofc.isSome ∨ q.aborted = false) →
       exec (.xack p) s = .next ((kept q).finishThird key q)) ∧
     ((ack ||| b) % 2 ^ ms.length ≠ all ∨ (ofc = none ∧ q.aborted = true) → exec (.xack p) s = .next (kept q)) ∧
     (ack % 2 ^ ms.length = all → exec (.xflt p) s = .next ((kept f).finishThird key f)) ∧
     (ack % 2 ^ ms.length ≠ all → exec (.xflt p) s = .next (kept f))) ∧
   (∀ (tag key : Nat) (s : State) (r : FarReq), s.thirdTimedOut tag = some (key, r) →
     exec (.fldxTimeout tag) s = .next (s.finishThird key r)) ∧
   (∀ (s : State) (key : Nat) (r : FarReq) (c sl ser ip : Nat) (tr : Bool) (rcd : BitVec 256) (ms : List Nat)
       (ack rej poi : Nat) (ofc : Option Nat) (lim : Nat),
     r.kind = .third c sl ser ip tr rcd ms ack rej poi ofc lim → s.memOk = true → (s.core c).bars = [] →
     ms.length ≤ 64 → ack < 2 ^ 64 → rej < 2 ^ 64 → (∀ x, ofc = some x → x < 256) →
     let t := s.finishThird key r
     let a := fld rcd.toNat 223 192
     let tom := (2 ^ ms.length - 1) &&& (2 ^ 64 - 1 - ack)
     let st := if ofc.isSome ∨ r.aborted = true then 1 else if tom ≠ 0 then 4 else if rej ≠ 0 then 3 else if poi ≠ 0 then 2 else 0
     (st ≠ 1 → t.readLoc ⟨some c, a⟩ 8 = st + 2 ^ 16 * ms.length + 2 ^ 23) ∧
     (∀ x, ofc = some x → t.readLoc ⟨some c, a⟩ 8 = 1 + 2 ^ 8 * x + 2 ^ 16 * ms.length + 2 ^ 23) ∧
     t.readLoc ⟨some c, a + 8⟩ 8 = ack ∧ t.readLoc ⟨some c, a + 16⟩ 8 = rej ∧ t.readLoc ⟨some c, a + 24⟩ 8 = tom))

/-- Requests that arrive at their target (R247, R325, R327, R328): a READ of pages that the fabric may read is answered with its bytes in
packets of at most 256; a WRITE counts its arrival, performs and is acknowledged; a WRORD is held until the stores that it follows
have arrived, and dropped after the link timeout; an ATOM that may read and write answers the old value, and one that meets poison says so.
What a context that is not served or a page forbids is refused with the reason, a request for a destroyed context with 7; any other packet
that reaches no context, and one on a port of another job, is discarded and counted (R318). -/
def Obligations.far_target : Prop :=
  (∀ (p : Pkt) (s : State), s.arrival p = none →
    (∀ i ∈ [Instr.read p, .write p, .wrord p, .atom p, .rdata p, .arply p, .ack p, .nack p, .xreq p, .xdata p, .xabt p, .xack p, .xflt p, .ldown p],
      exec i s = .next (s.unserved p)) ∧
    (SMap.find? s.gone p.job.toNat = none → s.unserved p = { s with mgmt := { s.mgmt with discards := s.mgmt.discards + 1 } }) ∧
    (∀ c j, SMap.find? s.gone p.job.toNat = some c → c.job = some j →
      let refused (ty : Nat) (rti : BitVec 2) : State := (s.launchPkt c 0 p.sdev.toNat
        { ty := ty, rti := rti, tag := p.tag, rqdev := p.rqdev, cls := p.cls, reason := 7 }).2
      (j.accepts p = false → s.unserved p = { s with mgmt := { s.mgmt with discards := s.mgmt.discards + 1 } }) ∧
      (j.accepts p = true →
        (p.ty = 0 ∨ p.ty = 2 ∨ p.ty = 3 → s.unserved p = refused 7 p.rti) ∧ (p.ty = 4 → s.unserved p = refused 5 0)))) ∧
  (∀ (p : Pkt) (s : State) (key : Nat) (c : Context), s.arrival p = some (key, c) →
    let t := s.served key p
    let va := p.addr.toNat
    let n := [64, 256, 1024, 4096].getD p.sub.toNat 64
    (c.serves = false →
      exec (.read p) s = .next (t.reply key p { ty := 7, rti := p.rti, reason := 7 }) ∧
      exec (.write p) s = .next ((t.countArrival key p).reply key p { ty := 7, rti := p.rti, reason := 7 }) ∧
      exec (.atom p) s = .next (t.reply key p { ty := 5, reason := 7 })) ∧
    (c.serves = true →
      (∀ ps, t.farPlaces key va n (fun _ _ fr => fr) = .ok ps →
        let st := farStep va n
        let u := t.portFill key va n
        exec (.read p) s = .next ((List.range ((n + 255) / 256)).foldl
          (fun v i => v.reply key p (dataPacket { ty := 1 } (u.readPlaces st ps) i)) ((u.billRead key n).findPlaces key va st ps))) ∧
      (∀ r, t.farPlaces key va n (fun _ _ fr => fr) = .error r →
        exec (.read p) s = .next (t.reply key p { ty := 7, rti := p.rti, reason := BitVec.ofNat 8 r })) ∧
      (let t := t.countArrival key p
       let n := p.payload.length
       let refused (r : Nat) : Prop := exec (.write p) s = .next (t.reply key p { ty := 7, rti := p.rti, reason := BitVec.ofNat 8 r })
       (p.sub ≠ 1 →
         (∀ r, t.farPlaces key va n (fun _ wr _ => wr) = .error r → r ≠ 0 → refused r) ∧
         (∀ ps, t.farPlaces key va n (fun _ wr _ => wr) = .ok ps →
           let ws : List WPiece := ps.map fun q => (q.2, farStep va n, leNat ((p.payload.drop q.1).take (farStep va n)))
           exec (.write p) s = .next (((((t.portFill key va n).billWrite key n).perform key ws).spoil key ws).reply key p { ty := 6, rti := p.rti }))) ∧
       (p.sub = 1 →
         let core := fld va 9 0
         let w := fld va 15 10
         let off := fld va 36 16
         (c.present = false ∨ t.partOf core ≠ some (key / 128) → refused 10) ∧
         (c.present = true → t.partOf core = some (key / 128) →
           (SMap.find? (t.core core).windows w = none → refused 10) ∧
           (∀ x, SMap.find? (t.core core).windows w = some x →
             let ps := chunk8 ⟨some core, x.base + off⟩ p.payload
             let r := t.engineWrite key ps []
             let u := (r.1.setWindow core w (x.count n r.2 false)).spoil key ps
             let admitted : Prop := x.admits p.sdev.toNat p.sdev.toNat = true ∧ off + n ≤ x.len
             (¬ admitted → refused 10) ∧
             (admitted → ps.any t.inBarrier = false → exec (.write p) s = .next (u.reply key p { ty := 6, rti := p.rti })) ∧
             (admitted → ps.any t.inBarrier = true →
               exec (.write p) s = .next (u.reply key p { ty := 7, rti := p.rti, reason := 6 })))))) ∧
      (let n := 2 ^ (p.status.toNat % 4)
       let cmp := leNat p.payload % 2 ^ (8 * n)
       (∀ r, t.farPlaces key va n (fun rd wr _ => rd && wr) = .error r →
         exec (.atom p) s = .next (t.reply key p { ty := 5, reason := BitVec.ofNat 8 r })) ∧
       ∀ q l qs, t.farPlaces key va n (fun rd wr _ => rd && wr) = .ok ((q, l) :: qs) →
        let u := t.portFill key va n
        let old := u.readLoc l n
        let new := atomicNew p.sub.toNat n old (p.opnd.toNat % 2 ^ (8 * n)) cmp
        (u.isPoisoned l n = true → exec (.atom p) s =
          .next ((u.find { key := key, name := some va, loc := some l }).reply key p { ty := 5, status := 1 })) ∧
        (u.isPoisoned l n = false → exec (.atom p) s =
          .next ((if atomicWrites p.sub.toNat old cmp then
              ((u.billWrite key n).perform key [(l, n, new.1)]).spoil key [(l, n, new.1)] else u).reply key p
            { ty := 5, status := BitVec.ofNat 8 (2 * new.2.toNat), payload := leBytes old 8 })))) ∧
    exec (.wrord p) s = .next { t with heldOrd := t.heldOrd ++ [(key, s.cyc, p)] }) ∧
  (∀ (idx key at_ : Nat) (p : Pkt) (s : State), s.heldOrd[idx]? = some (key, at_, p) →
    let t := { s with heldOrd := s.heldOrd.eraseIdx idx }
    (s.countsMet key p = true →
      exec (.orderedStoreRelease idx) s = .next ((t.answerStore key (s.ctx key) p).countArrival key p)) ∧
    (at_ + (s.ctx key).linkTimeout < s.cyc → exec (.orderedStoreTimeout idx) s = .next t))

/-- Replies at the requester (R191, R193, R328, R329): RDATA adds its bytes to the far load, which ends when all are there, its bytes written
and its task awake; ARPLY with a value puts it in flight to the destination with the flags of its status, one that met poison raises Memory
Poison, and a refusal or a link timeout makes the destination free
and reports Fabric Status; ACK and NACK end a remote store, the latter with an event; a refused or late far load resumes into its
fault. A reply that comes after the link timeout changes nothing; one for a context that is not present waits for its restore. -/
def Obligations.far_requester : Prop :=
  (∀ (p : Pkt) (s : State) (key n sl ser : Nat) (r : FarReq), s.farOf p = some (key, r) → r.task = (n, sl, ser) →
    let t := s.received key p
    let here : Prop := (s.ctx key).present = true
    (s.late key r = true →
      exec (.rdata p) s = .next t ∧ exec (.ack p) s = .next t ∧ exec (.nack p) s = .next t ∧
      (r.isAtomic = true → exec (.arply p) s = .next t)) ∧
    (s.late key r = false →
      (∀ core slot dst len got, r.kind = .load core slot dst len got →
        let all := got ++ [(64 * p.poff.toNat, p.payload, p.marks)]
        let q : FarReq := { r with kind := .load core slot dst len all }
        let u := t.setFar key fun l => l.map fun x => if x.tag = r.tag then q else x
        let words := all.flatMap fun (o, bs, marks) => (List.range (bs.length / 8)).map fun i =>
          (((⟨some core, dst + o + 8 * i⟩, 8, leNat ((bs.drop (8 * i)).take 8)) : WPiece), marks.testBit i)
        (all.foldl (fun m g => m + g.2.1.length) 0 < len ∨ (u.ctx key).present = false → exec (.rdata p) s = .next u) ∧
        (len ≤ all.foldl (fun m g => m + g.2.1.length) 0 → (u.ctx key).present = true → exec (.rdata p) s = .next
          (((u.engineWrite key (words.map (·.1)) ((words.filter (·.2)).map (·.1))).1.closeFar key r.tag).wakeFar key core slot r.tag .now)) ∧
        (here → exec (.nack p) s = .next (t.failLoad key r p.reason.toNat)) ∧
        (¬ here → exec (.nack p) s = .next (t.holdReply key r.tag p))) ∧
      (∀ ord, r.kind = .store ord →
        exec (.ack p) s = .next ((t.closeFar key r.tag).refreshFstat n sl) ∧
        exec (.nack p) s = .next (((t.closeFar key r.tag).refreshFstat n sl).statusOf key r p.reason.toNat 1)) ∧
      (∀ flight, r.kind = .atomic flight → here →
        (p.reason ≠ 0 → exec (.arply p) s = .next ((t.loseAtomic key r flight).statusOf key r p.reason.toNat 2)) ∧
        (∀ f d ea tag, p.reason = 0 → ((t.closeFar key r.tag).refreshFstat n sl).flights.find? (fun f => f.id == flight) = some f →
          f.op = .fatom d ea tag →
          let u := (t.closeFar key r.tag).refreshFstat n sl
          (p.status.getLsbD 0 = true → exec (.arply p) s = .next (u.latePoison f ea)) ∧
          (p.status.getLsbD 0 = false → exec (.arply p) s = .next { u with flights := u.flights.map fun g => if g.id = flight then
            { g with op := .scalar d (BitVec.ofNat 64 (leNat p.payload)), due := max u.cyc (g.issued + 15)
                     stat := BitVec.ofNat 3 (p.status.toNat / 2) } else g }))) ∧
      (¬ here → exec (.arply p) s = .next (s.holdReply key r.tag p)))) ∧
  (∀ (tag key : Nat) (s : State) (r : FarReq),
    (s.timedOut (fun r => r.tag == tag && r.isLoad) = some (key, r) → exec (.fldTimeout tag) s = .next (s.failLoad key r 8)) ∧
    (∀ flight, s.timedOut (fun r => r.tag == tag && r.isAtomic) = some (key, r) → r.kind = .atomic flight →
      exec (.fatomTimeout tag) s = .next ((s.loseAtomic key r flight).statusOf key r 8 3))) ∧
  (∀ (s : State) (key core slot dst len reason : Nat) (got : List (Nat × List Byte × Nat)) (r : FarReq), r.kind = .load core slot dst len got →
    s.failLoad key r reason =
      (s.closeFar key r.tag).wakeFar key core slot r.tag (.farFault reason (2 ^ 60 + r.dev * 2 ^ 48 + r.va)))


/-- Links, routes and beacons (R318, R320, R321, R326, R331): a packet leaves on the usable route whose first hop has the fewest flits of its
class waiting, the lowest of those that tie; a port sends of each virtual channel only the oldest packet, and only when there are credits for
it. LDOWN marks the route that it names down and ends the request that it names; a packet for another device
waits at the port of its next hop, and where that link is down an LDOWN goes to its source, at most once in 4,096 slots for a route; one
that the part may not forward is discarded and counted. A
beacon sets the offset of fabric time and is passed on; the root sends one every 4,096 slots, and 16,384 slots without one end the
synchrony. A link goes down when it fails and up when it is trained. -/
def Obligations.links_and_beacons : Prop :=
  (∀ (s : State) (c : Context) (dev r : Nat) (reply : Bool), s.chooseRoute c dev reply = some r →
    r ∈ c.usableRoutes dev ∧ ∀ q ∈ c.usableRoutes dev, s.hopFlits c dev reply r ≤ s.hopFlits c dev reply q ∧
      (s.hopFlits c dev reply q = s.hopFlits c dev reply r → r ≤ q)) ∧
  (∀ (s : State) (port : Nat) (p : Pkt), p ∈ s.sendable port → ∃ vc, vc < 16 ∧ (s.waiting port vc).head? = some p ∧
    SMap.get s.net.used 0 (16 * port + vc) + p.flits ≤ Config.vcFlits) ∧
  (∀ (p : Pkt) (s : State) (key : Nat) (c : Context), s.arrival p = some (key, c) →
    let t := (s.received key p).updCtx key fun c => c.routeDown p
    let named := (t.ctx key).far.find? fun r => r.named (t.ctx key) p
    let here : Prop := (t.ctx key).present = true
    (named = none → exec (.ldown p) s = .next t) ∧
    (∀ r, named = some r →
      (r.isStore = true → exec (.ldown p) s = .next t) ∧
      (r.isStore = false → ¬ here → exec (.ldown p) s = .next (t.holdReply key r.tag p)) ∧
      (here →
        (r.isLoad = true → exec (.ldown p) s = .next (t.failLoad key r 9)) ∧
        (∀ flight, r.kind = .atomic flight → exec (.ldown p) s = .next ((t.loseAtomic key r flight).statusOf key r 9 3)) ∧
        (r.isThird = true → exec (.ldown p) s = .next (t.finishThird key r))))) ∧
  (∀ (p : Pkt) (c : Context) (r : Nat), c.failedRoute p = some r →
    ((c.routeDown p).route (p.opnd.toNat % 4096) r).testBit 62 = true ∧ (c.routeDown p).usable (p.opnd.toNat % 4096) r = false) ∧
  (∀ (p : Pkt) (s : State) (key : Nat) (c : Context) (j : JobBind), s.ctxOfJob p.job.toNat = some (key, c) → c.job = some j →
    let q := { p with hop := p.hop + 1 }
    let allowed : Prop := j.accepts p = true ∧ p.inside = false ∧ p.hop.toNat + 1 < p.nhop.toNat ∧ j.ports.testBit q.port = true
    let last := SMap.get s.mgmt.ldownSent 0 p.routeKey
    (¬ allowed → exec (.packetForward p) s = .next { s with mgmt := { s.mgmt with discards := s.mgmt.discards + 1 } }) ∧
    (allowed → s.heldFlits p.inPort.toNat p.vc + p.flits ≤ Config.vcFlits →
      (s.linkUp q.port = true → exec (.packetForward p) s = .next (s.toPort q)) ∧
      (s.linkUp q.port = false →
        (last ≠ 0 → s.slot < last - 1 + 4096 → exec (.packetForward p) s = .next s) ∧
        (last = 0 ∨ last - 1 + 4096 ≤ s.slot → exec (.packetForward p) s = .next (State.sendOff
          { s with mgmt := { s.mgmt with ldownSent := SMap.set s.mgmt.ldownSent p.routeKey (s.slot + 1) } } key p.sdev.toNat
          { ty := 15, tag := p.tag, addr := BitVec.ofNat 64 p.route.toNat, opnd := BitVec.ofNat 64 p.ddev.toNat, rti := p.rti, rqdev := p.rqdev
            cls := p.cls, status := BitVec.ofNat 8 p.ty }))))) ∧
  ((∀ (p : Pkt) (s : State),
    (s.arrival p = none → exec (.beacon p) s = .next { s with mgmt := { s.mgmt with discards := s.mgmt.discards + 1 } }) ∧
    ((s.arrival p).isSome = true →
      let root := p.opnd.toNat + s.linkLatency p.inPort.toNat
      exec (.beacon p) s = .next (State.passBeacon
        { s with bu := { s.bu with beaconOff := (root : Int) - (s.slot : Int), lastBeacon := s.slot, synced := true } } root))) ∧
   (∀ (s : State),
    (s.mgmt.beaconRoot = true → s.slot % 4096 = 0 → s.mgmt.lastBeaconSent ≠ s.slot + 1 →
      exec .beaconSend s = .next { (s.passBeacon s.slot) with mgmt := { s.mgmt with lastBeaconSent := s.slot + 1 } }) ∧
    (s.bu.synced = true → s.mgmt.beaconRoot = false → s.bu.lastBeacon + 16384 ≤ s.slot →
      exec .beaconLoss s = .next { s with bu := { s.bu with synced := false } })) ∧
   (∀ (s : State) (port latency : Nat),
    exec (.linkFailure port) s = .next { s with mgmt := { s.mgmt with links := SMap.set s.mgmt.links port (false, s.linkLatency port) } } ∧
    exec (.linkTraining port latency) s = .next { s with mgmt := { s.mgmt with links := SMap.set s.mgmt.links port (true, latency) } }))

/-! ## Words and steps: tasks (group 0x29) -/

/-- The scheduler (R205, R225, R226, R228, R230 to R234, R283, R285, R286, R361): a record out of place raises Alignment or Address Range;
a poisoned word of it or of what it names Memory Poison, a pop onto a registered barrier word Barrier Write;
an invalid one is answered so; a valid push, a pop, a steal, `qmap` and `qunmap` issue with a request, which the scheduler serves at the
end of the cycle with the answer as the word's result. The request served next is the first by kind: `qunmap`, notifies by address,
`qmap`, `dqpop`, pushes, steals; within a kind by core. A push appends to the bottom of the target deque, a pop takes the bottom, a steal
moves the first entry that may be stolen; a counter that reaches zero by a decrement fires and releases its armed record; a queue is
mapped to the lowest free slot or held, and a held one takes a slot that frees. By itself the scheduler pushes a released record when the
deque has room, that of the lowest issuing core first; a notify of a descheduled context is noted, that of a mapped queue releases its record, and that of a held request takes a
slot or, with none to take, sets its `PNB` bit and raises Queue Starved. -/
def Obligations.scheduler_words : Prop :=
  (∀ (h : Hdr) (o : SYS) (s : State) (e : Env), Issues s h 15 { pop := isPop o.a } e →
     let a := (e.popped.src o.a).toNat
     let cl := e.core / 96
     let key := e.task.key
     let r (s' : State) (st v : Nat) : Out := .next (s'.issued e.popped (isPop o.a)
       { lat := 15, op := .scalar o.b.toNat (BitVec.ofNat 64 (st * 2 ^ 60 + v)) })
     let checked (out : Out) (n align : Nat) : Prop :=
       (a % align ≠ 0 → out = .next (s.trapAt e 0x0003 a 0)) ∧
       (a % align = 0 → Config.scratchBytes < a + n → out = .next (s.trapAt e 0x0005 a 0))
     let ready (n align : Nat) : Prop := Readable s e.popped a n align
     let asks (out : Out) (s' : State) (op : HtsOp) : Prop := out = r { s' with
       htsReqs := s'.htsReqs ++ [{ core := e.core, part := e.task.part, fn := e.task.fn, flight := s'.nextId, op := op }] } 0 0
     let pushes (out : Out) (d : DqEntry) : Prop :=
       s.entryRoom d = true → asks out (s.submitEntry e.core d).2 (.push (s.submitEntry e.core d).1)
     let bad (b k : Nat) : Bool := s.isPoisoned ⟨some e.core, b + 8 * k⟩ 8
     let whole (b n : Nat) : Prop := ∀ k, k < n / 8 → bad b k = false
     let foot (b : Nat) : Prop := whole b (s.footBytes e.core b)
     let poisons (out : Out) (b n : Nat) : Prop :=
       ∀ k, k < n / 8 → bad b k = true → (∀ j, j < k → bad b j = false) → out = .next (s.trapAt e 0x000C (b + 8 * k) 0)
     let rcd := s.scratchNat e.core a 32
     let fpr := fld rcd 223 192
     checked (exec (.dqpush h o) s) 32 32 ∧ checked (exec (.dqpop h o) s) 32 32 ∧ checked (exec (.qmap h o) s) 32 32 ∧
     checked (exec (.topb h o) s) 128 64 ∧ (o.a.toNat ≠ 84 → checked (exec (.htsset h o) s) 32 32) ∧
     (ready 32 32 →
       poisons (exec (.dqpush h o) s) fpr (s.footBytes e.core fpr) ∧
       (foot fpr →
         (s.entryAt e.task e.core a = none → exec (.dqpush h o) s = r s 2 0) ∧
         (∀ d, s.entryAt e.task e.core a = some d → pushes (exec (.dqpush h o) s) d))) ∧
     (a % 32 = 0 → a + 32 ≤ Config.scratchBytes →
       (s.hitsBarrier [⟨⟨some e.core, a⟩, 32, 0, a⟩] ≠ none → exec (.dqpop h o) s = .next (s.trapAt e 0x0007 a 0)) ∧
       (s.hitsBarrier [⟨⟨some e.core, a⟩, 32, 0, a⟩] = none → s.mustWait e.popped 0 [⟨⟨some e.core, a⟩, 32, 0, a⟩] = false →
         asks (exec (.dqpop h o) s) s (.pop a))) ∧
     (let k := fld o.imm.toNat 9 0
      (k = e.core ∨ s.partOf k ≠ some e.task.part → exec (.dqsteal h o) s = r s 2 0) ∧
      (k ≠ e.core → s.partOf k = some e.task.part → asks (exec (.dqsteal h o) s) s (.steal k))) ∧
     (let n := fld o.imm.toNat 11 0
      let c := SMap.get (s.htsOf cl).ctrs {} (4096 * key + n)
      let put (x : Counter) : State := s.updHts cl fun h => { h with ctrs := SMap.set h.ctrs (4096 * key + n) x }
      let v := (e.st.reg (o.b.toNat - 84)).toNat % 2 ^ 32
      let st := if c.armed.isSome = true ∧ c.val ≠ 0 then 1 else 0
      let sets (out : Out) (armed : Option DqEntry) : Prop :=
        (s.counterOk key cl n = false → out = r s 2 0) ∧
        (s.counterOk key cl n = true →
          (v = 0 → armed = none → out = r (put { val := 0, armed := none }) st 0) ∧
          (∀ d, v = 0 → armed = some d → out = r ((put { val := 0, armed := none }).holdPush cl e.core d).2 st 0) ∧
          (v ≠ 0 → out = r (put { val := v, armed := armed }) st 0))
      (o.a.toNat = 84 → sets (exec (.htsset h o) s) none) ∧
      (o.a.toNat ≠ 84 → ready 32 32 →
        poisons (exec (.htsset h o) s) fpr (s.footBytes e.core fpr) ∧
        (foot fpr →
          (s.entryAt e.task e.core a = none → exec (.htsset h o) s = r s 2 0) ∧
          ∀ d, s.entryAt e.task e.core a = some d → sets (exec (.htsset h o) s) (some d))) ∧
      (s.released e.core e.slot s.nextId s.cyc = true →
       let m := fld o.imm.toNat 23 12
       (s.counterOk key cl n = false → exec (.htsdec h o) s = r s 3 0) ∧
       (s.counterOk key cl n = true →
         (c.val = 0 ∨ m < c.val → exec (.htsdec h o) s =
           r (put { c with val := c.val - m }) (if c.val < m then 2 else 0) (c.val - m)) ∧
         (c.val ≠ 0 → c.val ≤ m → c.armed = none → exec (.htsdec h o) s =
           r (put { val := 0, armed := none }) (if c.val < m then 2 else 1) 0) ∧
         (∀ d, c.val ≠ 0 → c.val ≤ m → c.armed = some d → exec (.htsdec h o) s =
           r ((put { val := 0, armed := none }).holdPush cl e.core d).2 (if c.val < m then 2 else 1) 0)))) ∧
     (ready 32 32 →
       let x := s.scratchNat e.core a 32
       let qaddr := fld x 63 0
       let any := x.testBit 102
       let want := fld x 101 96
       let trec := fld x 95 64
       let wrong : Prop := fld x 255 104 ≠ 0 ∨ (any = true ∧ want ≠ 0) ∨ qaddr % 64 ≠ 0 ∨ globalOk qaddr 8 = false ∨ trec % 32 ≠ 0 ∨
         localScratch trec 32 = false ∨ (any = false ∧ s.ownsSlot key cl want = false)
       let fpr := fld (s.scratchNat e.core trec 32) 223 192
       let named : Prop := trec % 32 = 0 ∧ localScratch trec 32 = true
       (named → poisons (exec (.qmap h o) s) trec 32) ∧
       (named → whole trec 32 → poisons (exec (.qmap h o) s) fpr (s.footBytes e.core fpr)) ∧
       ((named → whole trec 32 ∧ foot fpr) → wrong ∨ s.entryAt e.task e.core trec = none → exec (.qmap h o) s = r s 2 0) ∧
       (∀ d, ¬ wrong → whole trec 32 → foot fpr → s.entryAt e.task e.core trec = some d →
         let q : QMapping := { part := e.task.part, fn := e.task.fn, qaddr := qaddr, npre := x.testBit 103, any := any, want := want
                               core := e.core, entry := d }
         asks (exec (.qmap h o) s) s (.map q))) ∧
     asks (exec (.qunmap h o) s) s (.unmap a) ∧
     (ready 128 64 →
       let b := BitVec.ofNat 1024 (s.scratchNat e.core a 128)
       let w := walkerRecord b a e.task
       let valid := topOk b && s.recordOk key w true
       let fpr := topf b 895 864
       let regs := s.footprint e.core e.task.part fpr
       poisons (exec (.topb h o) s) fpr (s.footBytes e.core fpr) ∧
       (foot fpr →
         (valid = false ∨ regs = none → exec (.topb h o) s = r s 2 0) ∧
         (∀ g, valid = true → regs = some g → pushes (exec (.topb h o) s)
           { rcd := w, topb := b, tvec := e.task.tvec, part := e.task.part, fn := e.task.fn, src := e.core, regions := g })))) ∧
  (∀ (l rs : List HtsReq) (r : HtsReq), nextReq l = some (r, rs) →
     (∃ before after, l = before ++ r :: after ∧ rs = before ++ after ∧
       (∀ q ∈ before, r.op.rank < q.op.rank ∨ (r.op.rank = q.op.rank ∧ r.place < q.place)) ∧
       ∀ q ∈ after, r.op.rank < q.op.rank ∨ (r.op.rank = q.op.rank ∧ r.place ≤ q.place))) ∧
  (∀ (s u : State) (r : HtsReq) (rs : List HtsReq) (f : Flight) (spec : Nat) (x : Word), nextReq s.htsReqs = some (r, rs) →
     u = { s with htsReqs := rs } → s.flights = [f] → f.id = r.flight → f.op = .scalar spec x →
     let key := ctxKey r.part r.fn
     let cl := r.core / 96
     let answers (t : State) (st v : Nat) : Prop := runEvent .htsRequest s =
       .next { t with flights := t.flights.map fun g =>
         if g.id = f.id then { g with op := .scalar spec (BitVec.ofNat 64 (st * 2 ^ 60 + v)) } else g }
     let deque (n : Nat) : List DqEntry := (u.core n).deque
     (∀ qaddr, r.op = .unmap qaddr →
       (u.findQueue key qaddr = none → answers u 1 0) ∧
       (∀ c k q, u.findQueue key qaddr = some (c, true, k, q) →
         ∃ t, answers t 0 0 ∧ t = (u.updHts c fun h => { h with qslots := SMap.erase h.qslots k }).grantSlot c k) ∧
       (∀ c k q, u.findQueue key qaddr = some (c, false, k, q) →
         let t := if q.pnb.isSome then u.setPnb key (k % 256) false else u
         answers (t.updHts c fun h => { h with qheld := SMap.erase h.qheld k }) 0 0)) ∧
     (∀ q, r.op = .map q →
       let mapped : Prop := u.findQueue key q.qaddr ≠ none ∨ ∃ m, (u.ctx key).evMap = some m ∧ m.qaddr = q.qaddr
       (mapped → answers u 3 0) ∧
       (¬ mapped →
         (∀ slot, u.freeSlot cl key q.any q.want = some slot →
           answers (u.updHts cl fun h => { h with qslots := SMap.set h.qslots slot q }) 0 slot) ∧
         (∀ k, u.freeSlot cl key q.any q.want = none → u.freeHeld key = some k →
           answers (u.updHts cl fun h => { h with qheld := SMap.set h.qheld (256 * key + k) q }) 1 0) ∧
         (u.freeSlot cl key q.any q.want = none → u.freeHeld key = none → answers u 2 0))) ∧
     (∀ a, r.op = .pop a →
       (deque r.core = [] → answers u 1 0) ∧
       (∀ q d, deque r.core = q ++ [d] →
         (recf d.rcd 230 230 = 1 → answers u 2 0) ∧
         (recf d.rcd 230 230 ≠ 1 → answers ((((u.updCore r.core fun c => { c with deque := q }).unitDone d.uid).repend d.uid none).engineWrite key
           (chunk8 ⟨some r.core, a⟩ (leBytes d.rcd.toNat 32))).1 0 d.ser))) ∧
     (∀ d, r.op = .push d →
       (64 ≤ (deque d.target).length → answers (u.unitDone d.uid) 1 0) ∧
       ((deque d.target).length < 64 →
         ∃ t ser, answers t 0 ser ∧ (t.core d.target).deque = deque d.target ++ [{ d with ser := ser, entered := s.cyc }] ∧
           ser = (SMap.get (u.htsOf (d.target / 96)).serials 0 (ctxKey d.part d.fn) + 1) % 2 ^ 20)) ∧
     (∀ v, r.op = .steal v →
       (firstStealable r.fn (deque v) = none → answers u 1 0) ∧
       (∀ d rest, firstStealable r.fn (deque v) = some (d, rest) →
         (64 ≤ (deque r.core).length → answers u 3 0) ∧
         ((deque r.core).length < 64 → v ≠ r.core →
           ∃ t, answers t 0 d.ser ∧ (t.core v).deque = rest ∧
             (t.core r.core).deque = deque r.core ++ [{ d with stolen := true, entered := s.cyc, eligibleAt := none }])))) ∧
  ((∀ (cluster n : Nat) (s : State) (d : DqEntry) (rest : List (Nat × DqEntry)),
     s.takeHeld (s.htsOf cluster).heldPush = some ((n, d), rest) →
     let p := (s.updHts cluster fun h => { h with heldPush := rest }).submitEntry n d
     exec (.heldDequePush cluster) s = .next ((p.2.push p.1).2.repend d.uid (some p.1.uid)) ∧
     s.canPush d = true ∧ ∀ x ∈ rest, s.canPush x.2 = true → n ≤ x.1) ∧
   (∀ (part fn : Nat) (qaddr : BitVec 64) (s : State),
     let key := ctxKey part fn
     let out := exec (.queueNotify part fn qaddr) s
     ((s.ctx key).phase ≠ .running → out = .next (s.updCtx key fun c => { c with notes := c.notes ++ [qaddr.toNat] })) ∧
     ((s.ctx key).phase = .running →
       (∀ m, (s.ctx key).evMap = some m → m.qaddr = qaddr.toNat →
         (m.pending ≠ none → out = .next s) ∧
         (m.pending = none → let p := s.holdPush (m.core / 96) m.core m.entry
           out = .next (p.2.updCtx key fun c => { c with evMap := some { m with pending := some p.1, lastNotify := p.2.cyc } }))) ∧
       ((∀ m, (s.ctx key).evMap = some m → m.qaddr ≠ qaddr.toNat) →
         (s.findQueue key qaddr.toNat = none → out = .next s) ∧
         (∀ c k q, s.findQueue key qaddr.toNat = some (c, true, k, q) → out = .next (s.notifySlot c k q)) ∧
         (∀ c k q, s.findQueue key qaddr.toNat = some (c, false, k, q) → out = .next (s.notifyHeld c k q))))) ∧
   (∀ (s : State) (c slot k : Nat) (q : QMapping),
     let mapped (s : State) (pend : Nat) : State := s.updHts c fun h =>
       { h with qslots := SMap.set h.qslots slot { q with pending := some pend, lastNotify := s.cyc, pnb := none } }
     (q.pending = none → let p := s.holdPush c q.core q.entry
       s.notifySlot c slot q = mapped p.2 p.1) ∧
     (∀ u, q.pending = some u → s.notifySlot c slot q = mapped s u) ∧
     (s.freeSlot c (k / 256) q.any q.want = some slot → q.pnb = none →
       s.notifyHeld c k q = (s.updHts c fun h => { h with qheld := SMap.erase h.qheld k }).notifySlot c slot { q with pnb := none }) ∧
     (s.freeSlot c (k / 256) q.any q.want = none → s.victim c (k / 256) = none →
       (q.pnb ≠ none → s.notifyHeld c k q = s) ∧
       (q.pnb = none → s.notifyHeld c k q =
         (State.setPnb (s.updHts c fun h => { h with qheld := SMap.set h.qheld k { q with pnb := some s.cyc } }) (k / 256) (k % 256) true).event
           (k / 256) cQueueStarved (detailAt 128 q.qaddr + detailAt 192 (k % 256))))))


/-! ## Words and steps: bookings (group 0x28) -/

/-- Words that ask the central unit (R211, R214 to R216, R218, R219, R258): with the front end free, `bkqry`, `bkcan`, `bkrel`, a valid
`book` and a valid booked `cpost` enter its queue with the word's priority, the front end is taken, and the result waits for the
decision; a record out of place raises Alignment or Address Range, and a poisoned word of the footprint record of `book` Memory Poison;
a record of `book` that is not valid answers 3 at once, a packet that is not valid 2, and an unbooked packet enters its virtual queue
with the word, which answers what the queue says. -/
def Obligations.booking_words : Prop :=
  ∀ (h : Hdr) (o : SYS) (s : State) (e : Env), Issues s h 15 { pop := isPop o.a } e →
    let x := e.popped.src o.a
    let a := x.toNat
    let key := e.task.key
    let cl := e.core / 96
    let asks (s' : State) (prio : Nat) (aging : Bool) (k : ReqKind) : Out := .next (State.issued { s' with bu := { s'.bu with
        front := SMap.set s'.bu.front cl (s'.cyc + 1)
        reqs := s'.bu.reqs ++ [{ seq := s'.nextId, prio := prio, aging := aging, accepted := s'.cyc, cluster := cl, flight := s'.nextId
                                 part := e.task.part, fn := e.task.fn, kind := k }] } } e.popped (isPop o.a)
      { lat := 15, op := .engine o.b.toNat })
    let answers (s' : State) (v : Word) : Out := .next (s'.issued e.popped (isPop o.a) { lat := 15, op := .scalar o.b.toNat v })
    let checked (out : Out) (n : Nat) : Prop :=
      (a % 64 ≠ 0 → out = .next (s.trapAt e 0x0003 a 0)) ∧
      (a % 64 = 0 → Config.scratchBytes < a + n → out = .next (s.trapAt e 0x0005 a 0))
    let bad (b k : Nat) : Bool := s.isPoisoned ⟨some e.core, b + 8 * k⟩ 8
    let free (t : State) : Prop := SMap.get t.bu.front 0 cl = 0 ∨ SMap.get t.bu.front 0 cl + 3 ≤ t.cyc
    (free s →
      exec (.bkqry h o) s = asks s 31 false (.query (x.setWidth 32) (fld o.imm.toNat 2 0)) ∧
      exec (.bkcan h o) s = asks s 31 false (.cancel (x.setWidth 32)) ∧
      exec (.bkrel h o) s = asks s 31 false (.release (x.setWidth 32) (fld o.imm.toNat 2 0))) ∧
    checked (exec (.book h o) s) 128 ∧ checked (exec (.cpost h o) s) 64 ∧
    (Readable s e.popped a 128 64 →
      let r := s.scratchNat e.core a 128
      let fpr := fld r 223 192
      let n := s.footBytes e.core fpr
      let regs := s.footprint e.core e.task.part fpr
      (∀ k, k < n / 8 → bad fpr k = true → (∀ j, j < k → bad fpr j = false) →
        exec (.book h o) s = .next (s.trapAt e 0x000C (fpr + 8 * k) 0)) ∧
      ((∀ k, k < n / 8 → bad fpr k = false) →
        (s.bookingOf e.task e.core a r = none ∨ regs = none → exec (.book h o) s = answers s (BitVec.ofNat 64 (3 * 2 ^ 60))) ∧
        (∀ b defer g, s.bookingOf e.task e.core a r = some (b, defer) → regs = some g → s.tableRoom cl key g = true → free s →
          let u := s.submit cl key e.core g
          exec (.book h o) s = asks u.2 b.prio true (.book { b with uid := u.1 } defer)))) ∧
    (Readable s e.popped a 64 64 →
      let r := s.scratchNat e.core a 64
      let p : CopyPkt := { serial := s.nextId, part := e.task.part, fn := e.task.fn, core := e.core, slot := e.slot, ser := e.task.ser
                           ip := e.st.ip, rcd := BitVec.ofNat 512 r, engine := 0, uid := 0, posted := 0 }
      (s.packetOk key e.core r = false → exec (.cpost h o) s = answers s (BitVec.ofNat 64 (2 * 2 ^ 60))) ∧
      (s.packetOk key e.core r = true → s.tableRoom cl key p.regions = true →
        let u := (s.clamp e.popped (p.f 298 296)).submit cl key e.core p.regions
        let q : CopyPkt := { p with serial := u.1, uid := u.1 }
        (p.handle = 0 → exec (.cpost h o) s = answers (u.2.postPacket q).2 (u.2.postPacket q).1) ∧
        (p.handle ≠ 0 → free s → exec (.cpost h o) s = asks u.2 31 false (.post q))))

/-- The central unit (R214 to R216, R258 to R263, R269, R271): no request is decided while an exchange holds the head, twice in a cycle, or,
if it is a word's, before 7 cycles have passed since its acceptance (the model's choice, assumption log 26). The head is the request
whose search is in progress, else the first by effective priority, acceptance and cluster; a word's result lands at the latest 8 cycles
after its decision. A query, cancel, release or posting is decided at once, a booking after its search: a placement is committed, and
without one the request is deferred or answered NOFIT with its handle given back; a booking with remote stages, or stages that
slipped, begin an exchange. A request's priority rises with its age; and the first cycle of a slot reclaims ended entries, applies what
falls due, tests overruns, searches for deferred bookings, lets restored cores go on, and commits the counters. -/
def Obligations.booking_decisions : Prop :=
  (∀ (s : State) (r : Req), s.headReq = some r →
    r ∈ s.bu.reqs ∧
    ((∃ q ∈ s.bu.reqs, q.search.isSome = true) → r.search.isSome = true) ∧
    ((∀ q ∈ s.bu.reqs, q.search = none) →
      ∀ q ∈ s.bu.reqs, q.flight ≠ 0 ∨ q.accepted < s.cyc → q.before s.cyc r = false) ∧
    ((s.exchanging.isSome = true ∨ s.bu.decidedAt = s.cyc + 1 → s.canDecide = none) ∧
     (s.exchanging = none → s.bu.decidedAt ≠ s.cyc + 1 →
       (r.search = none → (s.canDecide = some r ↔ r.flight = 0 ∨ r.accepted + 7 ≤ s.cyc)) ∧
       (∀ t, r.search = some t → (s.canDecide = some r ↔ t ≤ s.cyc))))) ∧
  (∀ (s : State) (r : Req), s.canDecide = some r →
    let key := ctxKey r.part r.fn
    let now (v : Word) (s' : State) : Out := .next ((s'.answer r.flight v).dropReq r.seq)
    let out := exec .bookingDecide s
    let searched (k : ReqKind) : Out := .next { (s.updReq r.seq fun q =>
      { q with kind := k, search := some (s.cyc + Config.searchDelay s.fresh) }) with fresh := s.fresh + 1 }
    (∀ hd n, r.kind = .query hd n → out = now (s.queryAsked key hd n) s) ∧
    (∀ hd, r.kind = .cancel hd → out = now (s.cancelAsked key hd).1 (s.cancelAsked key hd).2) ∧
    (∀ hd n, r.kind = .release hd n → out = now (s.releaseStage key hd n).1 (s.releaseStage key hd n).2) ∧
    (∀ p, r.kind = .post p → out = now (s.postPacket p).1 (s.postPacket p).2) ∧
    (∀ hd first lo last, r.kind = .replace hd first lo last →
      out = .next ((s.updReq r.seq fun q => { q with search := some s.cyc }).startExchange r hd first (max lo (s.slot + 2)) (some last))) ∧
    (∀ tag c, r.kind = .coll tag → s.coll? key tag = some c → out = searched (.book (c.booking r c.alg) false)) ∧
    (∀ b defer, r.kind = .book b defer →
      (r.search = none → out = .next { (s.updReq r.seq fun q =>
        { q with search := some (s.cyc + Config.searchDelay s.fresh) }) with fresh := s.fresh + 1 }) ∧
      (∀ t, r.search = some t → t ≤ s.cyc → b.handle = 0 →
        let b' : Booking := { b with handle := (s.takeHandle b.part).1 }
        let u := (s.takeHandle b.part).2.updReq r.seq fun q => { q with kind := .book b' defer }
        (b.remote = true → (∃ g ∈ b.stages, g.rmt = true) → (u.lowerBound b').2 = true →
          out = .next (u.startExchange { r with kind := .book b' defer } b'.handle 0 (u.lowerBound b').1 none)) ∧
        (b.remote = false → b.coll = none →
          (∀ ps, u.search b' = some ps → out =
            .next (State.dropReq (State.answer ((u.putBooking b').commit b' ps) r.flight (BitVec.ofNat 64 b'.handle.toNat)) r.seq)) ∧
          (u.search b' = none → (u.bu.bookings.any fun c => c.handle == b'.handle) = false →
            (defer = true → u.deferRoom (ctxKey b.part b.fn) = true → out = .next (State.dropReq (State.answer
              (u.putBooking { b' with st := .deferred }) r.flight (BitVec.ofNat 64 (2 * 2 ^ 60 + b'.handle.toNat))) r.seq)) ∧
            (defer = false ∨ u.deferRoom (ctxKey b.part b.fn) = false → out = .next (State.dropReq (State.answer
              ((u.returnHandle b').unitDone b'.uid) r.flight (BitVec.ofNat 64 (2 ^ 60))) r.seq))))))) ∧
  (∀ (s : State) (flight : Nat) (v : Word) (f : Flight) (d : Nat), f ∈ s.flights → f.id = flight → f.op = .engine d →
    ∃ g ∈ (s.answer flight v).flights, g.id = flight ∧ g.op = .scalar d v ∧ f.issued + 15 ≤ g.due ∧
      (f.issued + 7 ≤ s.cyc → g.due ≤ s.cyc + 8)) ∧
  (∀ (seq : Nat) (s : State) (r : Req), s.bu.reqs.find? (fun r =>
      r.seq == seq && r.aging && decide (r.raised < min 31 (r.prio + (s.cyc - r.accepted) / 262144) - r.prio)) = some r →
    exec (.bookingRequestAging seq) s = .next { s with bu := { s.bu with
      reqs := s.bu.reqs.map fun r => if r.seq = seq then { r with raised := r.raised + 1 } else r } }) ∧
  (∀ s : State, s.cyc % 64 = 0 → s.bu.lastSlot < s.slot →
    let u := (State.reclaim { s with bu := { s.bu with lastSlot := s.slot } }).applyReturns.overruns.searchDeferred.releaseCores
    exec .slotBoundary s = .next { u with ctxs := u.ctxs.map fun (k, c) => (k, { c with
      pending := {}
      counters := { snap := BitVec.ofNat 64 u.slot, mbusy := c.counters.mbusy + c.pending.mbusy, vbusy := c.counters.vbusy + c.pending.vbusy
                    copyb := c.counters.copyb + c.pending.copyb, dramr := c.counters.dramr + c.pending.dramr
                    dramw := c.counters.dramw + c.pending.dramw, fabb := c.counters.fabb + c.pending.fabb
                    energy := c.counters.energy + c.pending.energy } }) })

/-- The exchange between Booking Units (R274 to R276, R317, R318, R331): a message of a job that is not bound here, or on a port that is not the
job's, is discarded and counted. HOLD drops the stage's older hold and entry, places a tentative hold in the earliest run of feasible
starts and reports it, or reports none, as a device without beacons does; COMMIT turns a hold that lives into an entry of the calendar,
and without beacons frees it and reports so; RELEASE and the end of its lease free a hold, and RELEASE returns an entry's slots; the
asking unit collects the replies, decides when all are there, and goes to its next round when one is missing after 850 slots; a remote
end that grew makes later stages slip, and one that ends without a continuation ends the booking. What a re-placed stage's HOLD and a
COMMIT without beacons do, and how the end report says so, are the model's choices (assumption log 83, 92). -/
def Obligations.booking_exchange : Prop :=
  (∀ (m : BookMsg) (s : State), s.bookArrival m = none →
    ∀ i ∈ [Instr.bookHold m, .bookHoldReply m, .bookCommit m, .bookRelease m, .bookEndReport m],
      exec i s = .next { s with mgmt := { s.mgmt with discards := s.mgmt.discards + 1 } }) ∧
  (∀ (m : BookMsg) (s : State) (key : Nat) (c : Context), s.ctxOfJob m.job = some (key, c) →
    ∀ j : JobBind, c.job = some j → s.bookArrival m = if m.inside || j.ports.testBit m.inPort.toNat then some (key, c) else none) ∧
  (∀ (m : BookMsg) (s : State) (key : Nat) (c : Context), s.bookArrival m = some (key, c) →
    let here (n : Nat) : Nat := ((n : Int) - s.bu.beaconOff).toNat
    let t := s.heard key m
    let own (h : Hold) : Bool := h.job == m.job && h.dev == m.dev && h.handle == m.handle && h.stage == m.stage
    let ownIn (i : Interval) : Bool := i.dev == m.dev + 1 && i.job == m.job && i.handle == m.handle && i.stage == m.stage
    let without (t : State) : State :=
      { t with bu := { t.bu with cals := t.bu.cals.map fun (p : Nat × List Interval) => (p.1, p.2.filter fun i => !ownIn i) } }
    let report (t : State) (sub inst lo hi ecls : Nat) : Out := .next (t.sendBook key m.dev sub
      { dev := c.devNo, handle := m.handle, stage := m.stage, ecls := ecls, inst := inst, lo := lo, hi := hi })
    let dropped := { t with bu := { t.bu with holds := t.bu.holds.filter fun h => !own h } }
    (let u := without dropped
     let g : Stage := { ecls := m.ecls, inst := m.inst, cap := m.cap, dur := m.dur }
     let fit := u.earliestFit key [] g (max (here m.lo) (u.slot + 64))
     (u.bu.synced = false ∨ fit = none → exec (.bookHold m) s = report u 1 m.inst 1 0 m.ecls) ∧
     (∀ inst f, u.bu.synced = true → fit = some (inst, f) →
       let run := u.runEnd key g inst (max (here m.hi) (f + (m.hi - m.lo))) 512 f
       let l := if f ≤ here m.hi then min run (here m.hi) else run
       exec (.bookHold m) s = report { u with bu := { u.bu with holds := u.bu.holds ++
         [{ job := m.job, dev := m.dev, handle := m.handle, stage := m.stage, cal := calNo m.ecls inst, cap := m.cap, dur := m.dur
            first := f, last := l, expires := u.cyc + 850 * 64 }] } } 1 inst f l m.ecls)) ∧
    (let live := t.bu.holds.find? fun h => own h && decide (t.cyc < h.expires)
     (live = none → exec (.bookCommit m) s = .next t) ∧
     (∀ h, live = some h →
       let u := { t with bu := { t.bu with holds := t.bu.holds.filter fun k => k != h } }
       (t.bu.synced = false → exec (.bookCommit m) s = report u 4 0 0 0 15) ∧
       (t.bu.synced = true → exec (.bookCommit m) s = .next ((without u).setCal h.cal ((without u).cal h.cal ++
         [{ start := here m.lo, len := h.dur, cap := h.cap, handle := h.handle, dev := m.dev + 1, job := m.job, stage := h.stage }]))))) ∧
    exec (.bookRelease m) s = .next { dropped with bu := { dropped.bu with returns := dropped.bu.returns ++
      [{ dev := m.dev + 1, job := m.job, handle := m.handle, stage := m.stage, first := dropped.slot + 1 }] } } ∧
    (∀ (r : Req) (x : Exchange) (b : Booking), t.exchanging = some (r, x) → t.underExchange r = some b → b.handle = m.handle →
      ctxKey b.part b.fn = key → (x.replies.any fun q => q.1 == m.stage) = false →
      let y : Exchange := { x with replies := x.replies ++ [(m.stage, m.inst, here m.lo, here m.hi)] }
      let u := { t with bu := { t.bu with exchange := some y } }
      exec (.bookHoldReply m) s =
        .next (if x.replies.length + 1 = (remoteStages b x.first).length then u.decideRound r y else u)) ∧
    (∀ (b : Booking) (g : Stage), (t.bu.bookings.find? fun b => b.handle == m.handle && ctxKey b.part b.fn == key) = some b →
      b.stage? m.stage = some g → b.live = true → g.rmt = true → g.dev = m.dev →
      let fin := here m.hi
      let u := t.updStage m.handle m.stage fun g => { g with fin := fin, ended := g.ended || decide (fin ≤ t.slot + 1) }
      (m.ecls = 15 → exec (.bookEndReport m) s = .next (t.cancelBooking m.handle .nofit)) ∧
      (m.ecls ≠ 15 → exec (.bookEndReport m) s = .next (State.doneIfEnded
        (if g.fin < fin then u.slip (u.bu.bookings.length + 1) m.handle m.stage else u) m.handle)))) ∧
  (∀ (dev stage : Nat) (handle : BitVec 32) (s : State) (h : Hold), h ∈ s.bu.holds → h.dev = dev → h.handle = handle → h.stage = stage →
    h.expires ≤ s.cyc → exec (.bookHoldLeaseExpiry dev handle stage) s = .next { s with bu := { s.bu with holds := s.bu.holds.filter fun h =>
      !(h.dev == dev && h.handle == handle && h.stage == stage && decide (h.expires ≤ s.cyc)) } }) ∧
  (∀ (handle : BitVec 32) (s : State) (r : Req) (x : Exchange), s.exchanging = some (r, x) → x.handle = handle → x.limit ≤ s.cyc →
    exec (.bookReplyTimeout handle) s = .next (s.nextRound r x ((x.place.headD (0, 0)).2 + 1)))

/-! ## Steps: copy engines and collectives -/

/-- Copy packets (R219, R220, R257, R269, R362): a packet's next unit starts, if it is booked, in an interval of its stage that it ends
within; if it is a cancelled one whose row is in progress, outside held slots; else when it is the unbooked one that its engine moves
on, or that the arbiter chooses, whose deficits and last choice are then kept. When the unit ends its bytes are read and written, or
the status of its failure noted. A packet with no unit left, whose writes have performed, leaves its queue: its stage may have ended
early, its completion word is written with the status where it has an address, its counter is decremented, its unit completes, and with
`T` set a status of 2, 3, 5 or 6 raises Copy Engine. -/
def Obligations.copy_packets : Prop :=
  (∀ (serial : Nat) (s : State) (p : CopyPkt), s.packets.find? (fun p => p.serial == serial) = some p →
    let key := ctxKey p.part p.fn
    let starts (engine : Nat) : State := s.updPackets (fun q => q.serial == p.serial) fun q =>
      { q with engine := engine, running := some (s.cyc + copyCycles (p.unit p.nextUnit).2) }
    (p.withdrawn = 0 → s.bookedStart p = true → exec (.copyPacketStart serial) s = .next (starts (s.engineOf p))) ∧
    (p.withdrawn ≠ 0 → s.rowGoesOn p = true →
      let u := starts p.engine
      exec (.copyPacketStart serial) s = .next { u with bu := { u.bu with
        marks := u.bu.marks ++ [(768 + p.engine, s.slot, (s.cyc + p.cyclesLeft - 1) / 64)] } }) ∧
    (p.withdrawn = 0 → s.bookedStart p = false → ∀ q, q.serial = serial →
      (s.unbookedNext p.engine = some (q, none) → exec (.copyPacketStart serial) s = .next (starts p.engine)) ∧
      (∀ k d, s.unbookedNext p.engine = some (q, some (k, d)) →
        let u := (starts p.engine).updPackets (fun q => q.serial == serial) fun q => { q with chosen := true }
        let d' := if (u.queueHead k p.engine).isNone then SMap.set d (16384 * p.engine + k) 0 else d
        exec (.copyPacketStart serial) s =
          .next (u.updHts (p.engine / 12) fun h => { h with deficit := d', lastServed := SMap.set h.lastServed p.engine k }))) ∧
    (s.bookedStart p = true → ∃ i ∈ s.cal (768 + s.engineOf p), i.own p.handle = true ∧ i.stage = p.stage ∧ i.at? s.slot = true ∧
      s.cyc + copyCycles (p.unit p.nextUnit).2 ≤ 64 * (i.start + i.len)) ∧
    (p.finished s.cyc = true → (s.ctx key).present = true →
      let st := p.status
      let u := (s.copyStageDone p).updHts (p.core / 96) fun h => { h with copies := h.copies.filter fun x => x.serial != serial }
      let u := if p.f 415 384 = 0 then u
        else (u.engineWrite key [(⟨some p.core, p.f 415 384⟩, 8, st * 2 ^ 60 + 2 ^ 59 + p.f 447 416)]).1
      let u := (if p.f 299 299 = 1 then u.engineDecrement p.core key (p.f 311 300) else u).unitDone p.uid
      (p.f 291 291 = 0 ∨ st ∉ [2, 3, 5, 6] → exec (.copyPacketComplete serial) s = .next u) ∧
      (p.f 291 291 = 1 → st ∈ [2, 3, 5, 6] → exec (.copyPacketComplete serial) s = .next (u.commandFault p.core p.slot p.ser key
        { cause := 0x0022, ip := p.ip, ecmd := p.posted, estat := st, eid := 4096 + p.engine }
        (detailAt 128 (p.f 447 416) + detailAt 160 st + detailAt 168 (4096 + p.engine)))))) ∧
  (∀ (s : State) (p : CopyPkt) (e engine : Nat) (pick : Option (Nat × SMap Nat)), s.unbookedNext engine = some (p, pick) →
    e = s.cyc + copyCycles (p.unit p.nextUnit).2 →
    s.startable p = true ∧ s.engineBusy engine = false ∧ s.engineHeld engine s.slot = false ∧
      (e ≤ 64 * (s.slot + 1) ∨ s.engineHeld engine (s.slot + 1) = false)) ∧
  (∀ (s : State) (p : CopyPkt), s.unitDue = some p → s.packets.find? (fun q => q.serial == p.serial) = some p →
    let noted (t : State) (q : CopyPkt) : Out :=
      let u := if q.withdrawn ≠ 0 ∧ q.over = true then { t with bu := { t.bu with marks := t.bu.marks.map fun m =>
        if m.1 = 768 + q.engine then (m.1, m.2.1, min m.2.2 t.slot) else m } } else t
      .next { (u.updPackets (fun x => x.serial == q.serial) fun _ =>
        if q.over = true then { q with doneAt := t.cyc + Config.performDelay t.fresh } else q) with fresh := t.fresh + 1 }
    (∀ st, s.copyUnit p p.nextUnit = .error st → runEvent (.copyUnit p.serial) s = noted s { p with failed := st, running := none }) ∧
    (∀ t n skipped poisoned, s.copyUnit p p.nextUnit = .ok (t, n, skipped, poisoned) → runEvent (.copyUnit p.serial) s = noted t { p with
      nextUnit := p.nextUnit + 1, running := none, skipped := p.skipped || skipped, poisoned := p.poisoned || poisoned }))

/-- Collectives at a member (R209, R213, R222, R335 to R337, R341 to R344, R349, R351, R354): a block out of place raises Alignment or Address
Range; `coll` answers 2 for a format entry or a block that is not valid and 3 outside a job; a valid one takes the next number of its
group, the coordinator's request goes to the Booking Unit, and another member gets a local handle at once, whose booking stays deferred,
and hears again the notices that came before its `coll`. A step begins in its booked time, after the local copy, and sends its tiles; a
member lost and an instance out of time are noted; and a member that is done writes its record, decrements its counter and leaves the
instance. -/
def Obligations.collective_steps : Prop :=
  (∀ (h : Hdr) (o : SYS) (s : State) (e : Env), Issues s h 15 { pop := isPop o.a } e →
    let a := (e.popped.src o.a).toNat
    let key := e.task.key
    let cl := e.core / 96
    (a % 64 ≠ 0 → exec (.coll h o) s = .next (s.trapAt e 0x0003 a 0)) ∧
    (a % 64 = 0 → Config.scratchBytes < a + 128 → exec (.coll h o) s = .next (s.trapAt e 0x0005 a 0)) ∧
    (Readable s e.popped a 128 64 →
    let r := s.scratchNat e.core a 128
    let c := s.ctx key
    let grp := fld r 215 208
    let ms := SMap.get c.groups [] grp
    let answers (s' : State) (v : Nat) : Out := .next (s'.issued e.popped (isPop o.a)
      { lat := 15, op := .scalar o.b.toNat (BitVec.ofNat 64 v) })
    (SMap.find? e.task.fmt (fld r 227 224) = none → exec (.coll h o) s = answers s (2 * 2 ^ 60)) ∧
    (∀ f, SMap.find? e.task.fmt (fld r 227 224) = some f →
      let n := SMap.get s.collCount 0 (256 * key + grp)
      let me := (ms.findIdx? (· == c.devNo)).getD 0
      let k : Coll := { tag := grp * 2 ^ 24 + n % 2 ^ 24, members := ms, me := me, block := BitVec.ofNat 1024 r, rcd := f.o
                        part := e.task.part, fn := e.task.fn, core := e.core, uid := 0, handle := 0
                        alg := algUsed (fld r 195 192) (fld r 201 200) }
      let outside : Prop := c.job = none ∨ ms = [] ∨ c.devNo ∉ ms ∨ (∃ d ∈ ms, c.inJob d = false) ∨ (∃ d ∈ ms, ms.count d ≠ 1)
      (outside → exec (.coll h o) s = answers s (3 * 2 ^ 60)) ∧
      (¬ outside → s.blockOk e.task k = false → exec (.coll h o) s = answers s (2 * 2 ^ 60)) ∧
      (¬ outside → s.blockOk e.task k = true → s.tableRoom cl key k.regions = true →
        SMap.get s.bu.front 0 cl = 0 ∨ SMap.get s.bu.front 0 cl + 3 ≤ s.cyc →
        let u := s.submit cl key e.core k.regions
        let v := { u.2 with collCount := SMap.set u.2.collCount (256 * key + grp) (n + 1) }
        (me = 0 →
          let w := { v with colls := v.colls ++ [{ k with uid := u.1 }] }
          exec (.coll h o) s = .next (State.issued { w with bu := { w.bu with
            front := SMap.set w.bu.front cl (w.cyc + 1)
            reqs := w.bu.reqs ++ [{ seq := w.nextId, prio := fld r 232 228, aging := true, accepted := w.cyc, cluster := cl
                                    flight := w.nextId, part := e.task.part, fn := e.task.fn, kind := .coll k.tag }] } }
            e.popped (isPop o.a) { lat := 15, op := .engine o.b.toNat })) ∧
        (me ≠ 0 →
          let hd := (v.takeHandle e.task.part).1
          let w := (v.takeHandle e.task.part).2
          let b : Booking := { handle := hd, part := e.task.part, fn := e.task.fn, core := e.core, st := .deferred, stages := []
                               accepted := w.cyc, prio := fld r 232 228, cluster := cl, remote := true, coll := some k.tag }
          let heard (d : Nat × Pkt) : Bool := d.1 == key && d.2.tag.toNat == k.tag
          exec (.coll h o) s = answers { w with
            colls := w.colls ++ [{ k with uid := u.1, handle := hd }], bu := { w.bu with bookings := w.bu.bookings ++ [b] }
            digests := w.digests.filter fun d => !heard d, loop := w.loop ++ (w.digests.filter heard).map (·.2) }
            (2 ^ 58 * fld r 201 200 + hd.toNat)))))) ∧
  (∀ (tag : Nat) (s : State) (c : Coll),
    (∀ step, s.colls.find? (fun c => c.tag == tag && s.dueStep c == some step) = some c →
      let u := (s.localCopy c.key c.tag).updBooking c.handle fun b =>
        if b.st = .committed ∧ b.stages.isEmpty then { b with st := .running } else b
      exec (.collectiveStepStart tag step) s = .next (((u.updColl c.key tag fun c => { c with
        plan := c.plan.mapIdx fun i st => if i = step then { st with begun := true } else st
        queue := c.queue ++ (((c.plan[step]?.map (·.sends)).getD []).flatMap tilesOf).map fun x => (step, x)
        flushed := c.flushed.map fun n => max n step }).pump c.key tag).endSteps c.key tag)) ∧
    (∀ step, s.dueStep c = some step → c.started = true ∧ (s.ctx c.key).phase = .running ∧ s.edgesDone c.uid = true ∧
      (∀ i, i < step → ∀ st, c.plan[i]? = some st → (st.stage = none ∧ st.rctx = none) ∨ st.begun = true) ∧
      ∃ st, c.plan[step]? = some st ∧ st.begun = false ∧ s.stepHeld c st = true) ∧
    (∀ m, s.colls.find? (fun c => c.tag == tag && s.lostMember c m) = some c →
      exec (.collectiveFailureDetect tag m) s = .next (s.failMembers c (2 ^ m))) ∧
    (s.colls.find? (fun c => c.tag == tag && s.collTimedOut c) = some c →
      exec (.collectiveTimeout tag) s = .next ((s.cctlAll c 2 0 0).flushColl c)) ∧
    (s.colls.find? (fun c => c.tag == tag && (s.ctx c.key).present && s.collDone c) = some c → s.coll? c.key tag = some c →
      c.copied = true →
      let key := c.key
      let own := chunkRun c.members.length c.bytes c.me
      let moved := if c.op = 1 ∧ c.started = true ∧ c.withdrawn = none then
          s.putRbuf c ((runWords 0 own.2).map fun x => (x, s.workWord c (own.1 + x))) fun _ => true
        else s
      let t := moved.spoilResult c
      let late := c.late + SMap.get t.collLate 0 (256 * key + c.tag / 2 ^ 24)
      let told := if c.cancelled = false then t
        else if c.me ≠ c.coordinator then t.cctl c c.coordinator 1 (2 ^ c.me) 0 else t.cctlAll c 1 (2 ^ c.me) 0
      let wrote := (told.engineWrite key (chunk8 ⟨some c.core, c.f 415 384⟩ (leBytes (t.cmask c + 2 ^ 64 * c.fmask +
        2 ^ 128 * (late % 2 ^ 32) + 2 ^ 192 * c.status + 2 ^ 200 * c.alg + 2 ^ 255) 32))).1
      let u := (if c.f 236 236 = 1 then wrote.engineDecrement c.core key (c.f 248 237) else wrote).unitDone c.uid
      let ended := match u.bu.bookings.find? fun b => b.handle == c.handle with
        | some b => if b.live then u.finalize c.handle .done else u
        | none => u
      exec (.collectiveComplete tag) s = .next { ended with
        fresh := ended.fresh + c.members.length * (c.sends.length + 1)
        colls := ended.colls.filter fun d => !(d.key == key && d.tag == tag)
        collLate := SMap.erase ended.collLate (256 * key + c.tag / 2 ^ 24) }))

/-- Packets of an instance (R336, R340, R342, R345, R347 to R353): a contribution is applied, counted and passed on, or answered Late, or Held; an
acknowledgement drops the tile that was kept; the notices withdraw members, flush the instance, tell of lateness and of NOFIT, begin a
redo under the booking that they name, or hold what a descheduled receiver cannot take, whose steps get a later place; a digest begins
the instance or withdraws the member; and a notice that comes before the member's `coll` is kept until then. The fields that carry a
redo's booking and a Held's slot are the model's choices (assumption log 95). -/
def Obligations.collective_packets : Prop :=
  (∀ (p : Pkt) (s : State) (key : Nat) (x : Context), s.arrival p = some (key, x) →
    let u := (s.received key p).localCopy key p.tag.toNat
    let step := fld p.opnd.toNat 15 0
    let m := fld p.opnd.toNat 23 16
    let out := exec (.cdata p) s
    let grp := p.tag.toNat / 2 ^ 24
    let before : Prop := p.tag.toNat % 2 ^ 24 < SMap.get s.collCount 0 (256 * key + grp)
    (u.coll? key p.tag.toNat = none →
      (p.tag.toNat % 2 ^ 24 < SMap.get u.collCount 0 (256 * key + grp) → out = .next (u.lateTile key p)) ∧
      (SMap.get u.collCount 0 (256 * key + grp) ≤ p.tag.toNat % 2 ^ 24 → out = .next (u.holdTile key p))) ∧
    (∀ c, u.coll? key p.tag.toNat = some c →
      let lost : Prop := c.flushed ≠ none ∧ c.absent step c.members.length = true
      (lost → out = .next (u.lateTile key p)) ∧
      (¬ lost → x.phase ≠ .running ∨ c.copied = false → out = .next (u.holdTile key p)) ∧
      (¬ lost → x.phase = .running → c.copied = true →
        (c.expected step (p.addr.toNat / 4096) m = 0 → out = .next u) ∧
        (c.expected step (p.addr.toNat / 4096) m ≠ 0 →
          out = .next ((((u.applyTile c p step m).countTile c p step m).pump key c.tag).endSteps key c.tag)))) ∧
    (s.coll? key p.tag.toNat = none →
      ∀ i ∈ [Instr.cctlWithdraw p, .cctlFlush p, .cctlNofit p, .cctlDigestMismatch p, .cctlRedo p],
        (before → exec i s = .next s) ∧
        (¬ before → exec i s = .next { (s.received key p) with
          digests := (s.received key p).digests ++ [(key, { p with inside := true })] })) ∧
    (let v := s.received key p
     (s.coll? key p.tag.toNat = none →
       (before → exec (.cdig p) s = .next s) ∧
       (¬ before → exec (.cdig p) s = .next { v with digests := v.digests ++ [(key, { p with inside := true })] })) ∧
     (∀ c, s.coll? key p.tag.toNat = some c →
       (c.started = true → exec (.cdig p) s = .next v) ∧
       (c.started = false →
         (p.payload = c.digest → exec (.cdig p) s = .next (v.beginColl c (BitVec.ofNat 32 (fld p.opnd.toNat 31 0)) (fld p.opnd.toNat 33 32))) ∧
         (p.payload ≠ c.digest → exec (.cdig p) s = .next ((v.cctl c 0 1 (2 ^ c.me) 0).updColl c.key c.tag fun _ =>
           { c with withdrawn := some 2, fmask := c.fmask ||| 2 ^ c.me })))))) ∧
  (∀ (p : Pkt) (s : State) (c : Coll), s.collOf p = some c →
    let t := s.received c.key p
    let m := c.memberOf p.sdev.toNat
    exec (.cack p) s = .next ((t.updColl c.key c.tag fun c => { c with unacked := c.unacked.filter fun u =>
      !(u.1 == fld p.opnd.toNat 15 0 && u.2.1 == fld p.opnd.toNat 47 16 && u.2.2.1 == m) }).endSteps c.key c.tag) ∧
    exec (.cctlWithdraw p) s = .next (t.failMembers c (if p.opnd = 0 then 2 ^ m else p.opnd.toNat)) ∧
    (c.flushed = none → exec (.cctlFlush p) s = .next (t.flushColl c)) ∧
    (c.flushed ≠ none → exec (.cctlFlush p) s = .next s) ∧
    exec (.cctlLate p) s = .next (t.updColl c.key c.tag fun c =>
      { c with toldLate := true, unacked := c.unacked.filter fun u => u.2.2.1 != m }) ∧
    (c.started = false → exec (.cctlNofit p) s = .next (t.updColl c.key c.tag fun c => { c with withdrawn := some 3 })) ∧
    (c.started = true → exec (.cctlNofit p) s = .next s) ∧
    exec (.cctlDigestMismatch p) s = .next (t.failMembers c (2 ^ m)) ∧
    (let c' : Coll := { c with fmask := c.fmask ||| p.opnd.toNat, booker := m, booked := BitVec.ofNat 32 (fld p.ocnt.toNat 95 64)
                               nst := if m = c.booker then c.nst else 0 }
     exec (.cctlRedo p) s = .next ((t.updColl c.key c.tag fun _ => c').redo c' (p.ocnt.toNat % 2 ^ 64))) ∧
    (let lo := t.ownSlot p.addr.toNat
     let held := c.unacked.filter fun u => u.2.2.1 == m
     (p.opnd ≠ 0 → exec (.cctlHeld p) s = .next (if c.ownBooking then t.replaceFrom c.booked (p.ocnt.toNat % 2 ^ 32) lo else t)) ∧
     (p.opnd = 0 → held = [] → exec (.cctlHeld p) s = .next t) ∧
     (p.opnd = 0 → ∀ first, (∀ u ∈ held, first ≤ u.1) → (∃ u ∈ held, u.1 = first) →
       let w := t.updColl c.key c.tag fun c => { c with
         unacked := c.unacked.filter fun u => u.2.2.1 != m
         queue := c.queue.filter fun q => decide (q.1 < first)
         plan := c.plan.mapIdx fun i st => if first ≤ i then
             { st with begun := false, ended := false, quiet := t.slot + 1024
                       sends := if i = first then (st.sends.flatMap tilesOf).filter fun x =>
                           held.any fun v => v.1 == i && v.2.1 == x.dst / 4096 && v.2.2.1 == x.peer
                         else st.sends }
           else st }
       ((c.plan.drop first).findSome? (·.stage) = none → exec (.cctlHeld p) s = .next w) ∧
       (∀ n, (c.plan.drop first).findSome? (·.stage) = some n → exec (.cctlHeld p) s = .next ((w.stopStage c n).askTime c n lo)))))

/-! ## Results, accesses and traps -/

/-- A result lands in the cycle of its latency (R16, R18, R19, R22, R25, R49, R105, R115): a scalar in its register, with a write of `a0`
discarded, or at the tail of the queue it is pushed into; a predicate, of which `p0` stays 1; the written lanes of a vector register,
an `X` result also in `r0` while `r0` to `r2` move to `r1` to `r3`; the written bits of a mask register; a spill in its strand's spill
store; a fill what its strand's spill store holds, where no spill to its place is on the way. An `L` result for a vector or mask register in which an `X` result has landed in the same cycle is discarded (R19). Nothing
else of the registers changes, no memory does, and the flight is over. -/
def Obligations.results_land : Prop :=
  ∀ (id : Nat) (s : State) (f : Flight) (k : Task), s.comes id f → s.task? f.core f.slot = some k →
    let lands (k' : Task) (t : State) : Prop := exec (.resultLanding id) s = .next t ∧ t.task? f.core f.slot = some k' ∧
      t.flights = s.flights.filter (fun g => g.id != id) ∧ t.dram = s.dram ∧ t.hostMem = s.hostMem ∧
      (∀ n, (t.core n).scratch = (s.core n).scratch) ∧ (∀ n, n ≠ f.core → t.core n = s.core n)
    let sameRegs (k' : Task) (u : Strand) : Prop := ∀ n, (k'.str u).reg n = (k.str u).reg n
    let samePreds (k' : Task) (u : Strand) : Prop := ∀ n, (k'.str u).pred n = (k.str u).pred n
    let sameCore (t : State) : Prop := (∀ n, (t.core f.core).vreg n = (s.core f.core).vreg n) ∧
      (∀ n, (t.core f.core).mreg n = (s.core f.core).mreg n)
    (∀ spec v, f.op = .scalar spec v →
      ∃ k' t, lands k' t ∧ sameCore t ∧ (∀ u, samePreds k' u) ∧ (∀ u, u ≠ f.strand → sameRegs k' u) ∧
        (spec = 84 → sameRegs k' f.strand ∧ ∀ c, k'.queue c = k.queue c) ∧
        (84 < spec → spec < 116 → (k'.str f.strand).reg (spec - 84) = v ∧ (∀ c, k'.queue c = k.queue c) ∧
          ∀ n, n ≠ spec - 84 → (k'.str f.strand).reg n = (k.str f.strand).reg n) ∧
        (117 ≤ spec → spec ≤ 120 → sameRegs k' f.strand ∧ k'.queue (spec - 117) = k.queue (spec - 117) ++ [v] ∧
          ∀ c, c ≠ spec - 117 → k'.queue c = k.queue c)) ∧
    (∀ n v, f.op = .pred n v → n < 8 →
      ∃ k' t, lands k' t ∧ sameCore t ∧ (∀ u, sameRegs k' u) ∧ (∀ u, u ≠ f.strand → samePreds k' u) ∧
        (k'.str f.strand).pred n = (n == 0 || v) ∧ ∀ m, m < 8 → m ≠ n → (k'.str f.strand).pred m = (k.str f.strand).pred m) ∧
    (∀ src v off, f.op = .spill src v off → src = 116 → (k.str f.strand).spill.wf = true →
      ∃ k' t, lands k' t ∧ sameCore t ∧ (∀ u, sameRegs k' u ∧ samePreds k' u) ∧ Mem.read (k'.str f.strand).spill off 8 = v.toNat ∧
        ∀ a, a < off ∨ off + 8 ≤ a → Mem.get (k'.str f.strand).spill a = Mem.get (k.str f.strand).spill a) ∧
    (∀ spec off, f.op = .fil spec off → 84 < spec → spec < 116 →
      (∀ g ∈ s.flights, g.id < id → g.ofTask f.core f.slot = true → g.strand = f.strand → ∀ src v, g.op ≠ .spill src v off) →
      ∃ k' t, lands k' t ∧ sameCore t ∧ (∀ u, samePreds k' u) ∧
        (k'.str f.strand).reg (spec - 84) = BitVec.ofNat 64 (Mem.read (k.str f.strand).spill off 8) ∧
        ∀ u n, u ≠ f.strand ∨ n ≠ spec - 84 → (k'.str u).reg n = (k.str u).reg n) ∧
    ((s.core f.core).active = some f.slot →
      let beaten (spec : Nat) : Prop := f.strand = .L ∧ SMap.find? (s.core f.core).xLanded spec = some s.cyc
      (∀ spec, (∃ v lanes, f.op = .vector spec v lanes ∧ spec < 72) ∨ (∃ v bits, f.op = .mask spec v bits ∧ 76 ≤ spec ∧ spec < 84) →
        (beaten spec → ∃ k' t, lands k' t ∧ sameCore t ∧ ∀ u, sameRegs k' u ∧ samePreds k' u) ∧
        (f.strand = .X → ∃ t, exec (.resultLanding id) s = .next t ∧ SMap.find? (t.core f.core).xLanded spec = some s.cyc)) ∧
      (∀ spec v lanes, f.op = .vector spec v lanes → spec < 72 → ¬ beaten spec →
        ∃ k' t, lands k' t ∧ (∀ u, sameRegs k' u ∧ samePreds k' u) ∧ (∀ n, (t.core f.core).mreg n = (s.core f.core).mreg n) ∧
          (∀ i, i < 64 → lane ((t.core f.core).vreg spec) i =
            if lanes.getLsbD i then lane v i else lane ((s.core f.core).vreg spec) i) ∧
          (∀ n, n < 72 → n ≠ spec → (t.core f.core).vreg n = (s.core f.core).vreg n) ∧
          (f.strand ≠ .X → ∀ n, 72 ≤ n → n < 76 → (t.core f.core).vreg n = (s.core f.core).vreg n) ∧
          (f.strand = .X → (t.core f.core).vreg 72 = (t.core f.core).vreg spec ∧
            (t.core f.core).vreg 73 = (s.core f.core).vreg 72 ∧ (t.core f.core).vreg 74 = (s.core f.core).vreg 73 ∧
            (t.core f.core).vreg 75 = (s.core f.core).vreg 74)) ∧
      (∀ spec v bits, f.op = .mask spec v bits → 76 ≤ spec → spec < 84 → ¬ beaten spec →
        ∃ k' t, lands k' t ∧ (∀ u, sameRegs k' u ∧ samePreds k' u) ∧ (∀ n, (t.core f.core).vreg n = (s.core f.core).vreg n) ∧
          (t.core f.core).mreg (spec - 76) = (v &&& bits) ||| ((s.core f.core).mreg (spec - 76) &&& ~~~bits) ∧
          ∀ n, n ≠ spec - 76 → (t.core f.core).mreg n = (s.core f.core).mreg n))

/-- Accesses at their memory (R22, R49, R137, R165, R170, R173, R180, R187, R239, R313): a store whose moment has come reads its source, which
it then carries, and a later step writes the carried bytes at its pieces and no other byte of any memory; a load of one piece extends
the bytes it finds into its register and changes no memory; an atomic stores the new value of its operation, if that writes, and its
register gets the old one; a counted store is given to its window, and a matrix engine's write performs as an engine's does. A load or
atomic that meets poison lands nothing and raises Memory Poison late; a store or an atomic whose bytes have become part of a registered
barrier word is not performed and raises Barrier Write (late, the model's choice, assumption log 74). -/
def Obligations.accesses_perform : Prop :=
  ∀ (id : Nat) (s : State) (f : Flight) (k : Task), s.comes id f → s.task? f.core f.slot = some k → s.memOk = true →
    let quiet (t : State) : Prop := ∀ c a, Mem.get (t.memOf c) a = Mem.get (s.memOf c) a
    let regs (k' : Task) : Prop := ∀ u n, (k'.str u).reg n = (k.str u).reg n
    let barred (t : State) (name : Nat) : Prop := ∃ u : State, t = u.lateBarrier f name ∧ u.flights = s.flights ∧ quiet u ∧ quiet t
    (∀ src ps, f.op = .storeSrc src ps →
      ∃ t k', exec (.resultLanding id) s = .next t ∧ quiet t ∧ t.task? f.core f.slot = some k' ∧ regs k' ∧
        t.flight? id = some { f with
          op := .store (scatter ps (s.sourceValue f src)), due := s.cyc + 1 + Config.performDelay s.fresh, sig := 0, tal := 0 }) ∧
    (∀ ps, f.op = .store ps →
      ((∀ p ∈ ps, s.inBarrier p = false) →
        ∃ t k', exec (.storePerform id) s = .next t ∧ t.task? f.core f.slot = some k' ∧ regs k' ∧ t.flight? id = none ∧
          (∀ c a, covers ps c a = false → Mem.get (t.memOf c) a = Mem.get (s.memOf c) a) ∧
          (∀ l n v, ps = [(l, n, v)] → t.readLoc l n = v % 256 ^ n) ∧
          (∀ before l n v after, ps = before ++ (l, n, v) :: after →
            (∀ q ∈ after, q.1.core = l.core → q.1.off + q.2.1 ≤ l.off ∨ l.off + n ≤ q.1.off) → t.readLoc l n = v % 256 ^ n)) ∧
      (∀ before p after, ps = before ++ p :: after → (∀ q ∈ before, s.inBarrier q = false) → s.inBarrier p = true →
        ∃ t, exec (.storePerform id) s = .next t ∧ barred t p.1.off)) ∧
    (∀ spec p n sgn, f.op = .load spec [p] n sgn → p.off = 0 → 84 < spec → spec < 116 →
      (s.isPoisoned p.loc p.len = false →
        ∃ t k', exec (.resultLanding id) s = .next t ∧ quiet t ∧ t.task? f.core f.slot = some k' ∧ t.flight? id = none ∧
          (k'.str f.strand).reg (spec - 84) = extend (s.readLoc p.loc p.len) n sgn ∧
          ∀ u m, u ≠ f.strand ∨ m ≠ spec - 84 → (k'.str u).reg m = (k.str u).reg m) ∧
      (s.isPoisoned p.loc p.len = true →
        ∃ t, exec (.resultLanding id) s = .next t ∧ t = s.latePoison f p.name ∧ quiet t)) ∧
    (∀ mn p x cmp spec, f.op = .atomic mn p x cmp spec → 84 < spec → spec < 116 →
      let old := s.readLoc p.loc p.len
      let barrier : Prop := s.inBarrier (p.loc, p.len, 0) = true
      (barrier → ∃ t, exec (.resultLanding id) s = .next t ∧ barred t p.name) ∧
      (¬ barrier → s.isPoisoned p.loc p.len = true →
        ∃ t u : State, exec (.resultLanding id) s = .next t ∧ t = u.latePoison f p.name ∧ u.flights = s.flights ∧ quiet u ∧ quiet t) ∧
      (¬ barrier → s.isPoisoned p.loc p.len = false →
        ∃ t k', exec (.resultLanding id) s = .next t ∧ t.task? f.core f.slot = some k' ∧ t.flight? id = none ∧
          (k'.str f.strand).reg (spec - 84) = BitVec.ofNat 64 old ∧
          (∀ u m, u ≠ f.strand ∨ m ≠ spec - 84 → (k'.str u).reg m = (k.str u).reg m) ∧
          (atomicWrites mn old cmp.toNat = true →
            t.readLoc p.loc p.len = (atomicNew mn p.len old x.toNat cmp.toNat).1 % 256 ^ p.len ∧
            ∀ c a, c ≠ p.loc.core ∨ a < p.loc.off ∨ p.loc.off + p.len ≤ a → Mem.get (t.memOf c) a = Mem.get (s.memOf c) a) ∧
          (atomicWrites mn old cmp.toNat = false → quiet t))) ∧
    (let key := k.key
     (∀ src c off, f.op = .cntSrc src c off → ∃ t, exec (.resultLanding id) s = .next t ∧ quiet t ∧
       t.flight? id = some { f with op := .cntStore c off (s.sourceValue f src), due := s.cyc + 1 + Config.performDelay s.fresh, sig := 0, tal := 0 }) ∧
     (∀ c off v, f.op = .cntStore c off v →
       let ps := chunk8 ⟨some c, off⟩ (leBytes v 256)
       exec (.storePerform id) s = .next (((s.countedWrite key c off 256 ps []).spoil key ps).finish f)) ∧
     (∀ ps, f.op = .mxStore ps → exec (.storePerform id) s = .next ((s.engineWrite key ps).1.finish f)))

/-- What a word that issues leaves alone, in the states that the statements of the words' results name (R13, R22): a word with a result in
flight and one without change no register, predicate, mask, loop counter, stage predicate or spill store of any strand, no
control register and no format entry, no vector or mask register, no window, no byte of any memory and nothing on another core; the strand
stands at the next word, or at the word's target, with one word more counted, and every other strand where it stood. -/
def Obligations.issue_frame : Prop :=
  ∀ (s : State) (e : Env) (pop : Bool), s.task? e.core e.slot = some e.task →
    let frame (t : State) (ip : Nat → Nat) : Prop :=
      t.dram = s.dram ∧ t.hostMem = s.hostMem ∧ (∀ n, n ≠ e.core → t.core n = s.core n) ∧
      (let c := s.core e.core
       let c' := t.core e.core
       c'.scratch = c.scratch ∧ c'.vec = c.vec ∧ c'.msk = c.msk ∧ c'.mxe = c.mxe ∧ c'.windows = c.windows ∧ c'.bars = c.bars ∧
         c'.deque = c.deque ∧ c'.active = c.active) ∧
      ∃ k', t.task? e.core e.slot = some k' ∧ k'.fmt = e.task.fmt ∧ k'.fstat = e.task.fstat ∧ k'.tvec = e.task.tvec ∧
        k'.bst = e.task.bst ∧ k'.win = e.task.win ∧ k'.tagd = e.task.tagd ∧ k'.trap = e.task.trap ∧ k'.handler = e.task.handler ∧
        (∀ u, (k'.str u).a = (e.task.str u).a ∧ (k'.str u).p = (e.task.str u).p ∧ (k'.str u).q = (e.task.str u).q ∧
          (k'.str u).lc = (e.task.str u).lc ∧ (k'.str u).spill = (e.task.str u).spill) ∧
        (∀ u, u ≠ e.t → (k'.str u).ip = (e.task.str u).ip ∧ (k'.str u).wc = (e.task.str u).wc) ∧
        (k'.str e.t).ip = ip (e.task.str e.t).ip ∧ (k'.str e.t).wc = (e.task.str e.t).wc + 1 ∧
        (∀ c, c ≠ e.t.code ∨ pop = false → k'.queue c = e.task.queue c) ∧
        (pop = true → k'.queue e.t.code = (e.task.queue e.t.code).tail)
    (∀ y, frame (s.issued e pop y) (· + 1)) ∧
    (∀ y, frame (s.vissued e pop y) (· + 1)) ∧
    (∀ target, frame (State.doneAs s e pop target) fun ip => target.getD (ip + 1))

/-- The conditions of issue that every word of the groups without control flow or rendezvous shares (R13, R20, R25, R26, R42, R51,
R53): a strand skips a word tagged for another; a `DST` below the word's latency raises Illegal Distance, before anything else that
the word would wait for; a missing tag or token, an empty queue that it would pop and a full one that it would push into make it
wait with nothing changed; and with predicate 0 it has no effect but its tokens and tag. -/
def Obligations.issue_conditions : Prop :=
  ∀ (h : Hdr) (lat : Nat) (p : Ports) (body : Env → State → Res) (s : State) (e : Env),
    s.env? h = some e → e.live = true → e.windowOpen = true →
    let out := issue h lat p body s
    (e.t ≠ h.str → ∃ t k', out = .next t ∧ t.turn = s.turn ∧ t.flights = s.flights ∧ t.task? e.core e.slot = some k' ∧
      (k'.str e.t).ip = (e.task.str e.t).ip + 1 ∧ (k'.str e.t).wc = (e.task.str e.t).wc + 1 ∧
      (k'.str e.t).a = (e.task.str e.t).a ∧ ∀ u, u ≠ e.t → k'.str u = e.task.str u) ∧
    (e.t = h.str →
      (h.dst.toNat < lat → out = .next (s.trapAt e 0x0002 0 0)) ∧
      (lat ≤ h.dst.toNat →
        (e.tagsReady = false ∨ e.tokensReady s.cyc = false → out = .next { s with turn := s.turn + 1 }) ∧
        (e.tagsReady = true → e.tokensReady s.cyc = true →
          (e.predicate = false → out = .next (State.doneAs s e false none)) ∧
          (e.predicate = true →
            (p.pop = true → e.task.queue e.t.code = [] → out = .next { s with turn := s.turn + 1 }) ∧
            ((p.pop = false ∨ e.task.queue e.t.code ≠ []) → ∀ c, p.push = some c → s.pushRoom e c = false →
              out = .next { s with turn := s.turn + 1 })))))

/-- Taking a trap and returning from it (R386, R388, R390, R391): at the entry the record is in strand `C`'s spill store from byte
4032 on, with the cause, the faulting strand's word, the resume words, the booking handle, the address and the cycle; the queues are
set aside empty, tags are free, every strand stands at `TVEC`, and no register changes but those of barrier waits that end; memory is
as it was. A poisoned place that a Memory Poison fault names is noted as found. A precise condition at a word is entered at once when nothing is in flight that it waits for, is a Double Fault in handler mode,
and otherwise waits. A command-precise fault is held for the rest of its cycle and delivered in the next. The return puts back what was set aside, and every strand at its resume word. -/
def Obligations.trap_entry_and_return : Prop :=
  (∀ (core sl : Nat) (i : TrapInfo) (s : State) (k : Task), s.trapReady core = some (sl, i) → s.task? core sl = some k →
    k.sC.spill.wf = true → i.prec < 4 →
    ∃ t k', exec (.trapEntry core) s = .next t ∧ t.task? core sl = some k' ∧ k'.trap = none ∧
      t.dram = s.dram ∧ t.hostMem = s.hostMem ∧ (∀ n, (t.core n).scratch = (s.core n).scratch) ∧
      (∀ u, (k'.str u).ip = k.tvec.toNat % 2 ^ 32 / 8 * 8 ∧ (k'.str u).wc = 0 ∧ (k'.str u).tags = 0 ∧ (k'.str u).wait = .none) ∧
      k'.toks = [] ∧ k'.sq = [] ∧ k'.bq = [] ∧
      (∃ a, k'.handler = some a ∧ a.sq = k.sq ∧ a.bq = k.bq ∧ a.wcs = [k.sC.wc, k.sL.wc, k.sX.wc, k.sS.wc]) ∧
      (let r (off n : Nat) : Nat := Mem.read k'.sC.spill (4032 + off) n
       r 0 2 = i.cause % 2 ^ 16 ∧ r 2 2 = 2 ^ 10 * i.strand.code + 2 ^ 12 * i.prec + 2 ^ 15 * (if i.late = true ∧ i.cause = 0x000C then 1 else 0) ∧
       r 4 4 = 0 ∧
       r 8 4 = i.info % 2 ^ 32 ∧ r 12 2 = 0 ∧ r 14 2 = i.eid % 2 ^ 16 ∧ r 16 4 = i.estat % 2 ^ 32 ∧ r 20 4 = i.ecmd % 2 ^ 32 ∧
       r 24 4 = k.bhnd.toNat ∧ r 28 4 = i.ip % 2 ^ 32 ∧ r 48 8 = i.faddr % 2 ^ 64 ∧ r 56 8 = i.cyc % 2 ^ 64 ∧
       r 44 4 = s.resumeWord core sl k i .C % 2 ^ 32 ∧ r 40 4 = s.resumeWord core sl k i .L % 2 ^ 32 ∧
       r 36 4 = s.resumeWord core sl k i .X % 2 ^ 32 ∧ r 32 4 = s.resumeWord core sl k i .S % 2 ^ 32) ∧
      ((s.flights.any fun f => f.ofTask core sl && (match f.op with
          | .barWait _ _ _ _ | .barArrive _ _ _ => true
          | _ => false)) = false →
        ∀ u n, (k'.str u).reg n = (k.str u).reg n ∧ (k'.str u).pred n = (k.str u).pred n)) ∧
  (∀ (s : State) (e : Env) (cause faddr estat : Nat), s.task? e.core e.slot = some e.task → e.task.ending = none → e.task.trap = none →
    (s.core e.core).active = some e.slot →
    let i : TrapInfo := { cause := cause, faddr := faddr, ip := e.st.ip, strand := e.t, estat := estat, resume := .again, cyc := s.cyc }
    let out := s.trapAt e cause faddr estat
    (e.task.handler.isSome = true → ∃ k', out.task? e.core e.slot = some k' ∧
      k'.ending = some { cause := 0x0031, faddr := faddr, ip := e.st.ip, sub := cause }) ∧
    (e.task.handler = none → s.drained e.core e.slot = true →
      out = ((s.foundBy e.core e.slot i).enterTrap e.core e.slot i).nextCore) ∧
    (e.task.handler = none → s.drained e.core e.slot = false → ∃ k', out.task? e.core e.slot = some k' ∧
      k'.trap = some i ∧ k'.stopped = true ∧ ∀ u, k'.str u = e.task.str u)) ∧
  (∀ (n sl : Nat) (i : TrapInfo) (s : State) (k : Task), s.task? n sl = some k → k.ending = none → k.trap = none → k.handler = none →
    i.prec = 1 → s.raise n sl i = (s.foundBy n sl i).setTask n sl { k with held := k.held ++ [{ i with cyc := s.cyc }] }) ∧
  (∀ (s : State) (n sl : Nat) (i : TrapInfo), i.cause ≠ 0x000C → s.foundBy n sl i = s) ∧
  (∀ (core sl : Nat) (i : TrapInfo) (rest : List TrapInfo) (s : State), s.trapReady core = none → s.heldReady core = some (sl, i, rest) →
    exec (.trapEntry core) s =
      .next ((s.updTask core sl fun k => { k with held := rest }).deliver core sl { i with resume := .asIs })) ∧
  (∀ (n sl : Nat) (s : State) (k : Task) (a : SetAside), s.task? n sl = some k → k.handler = some a → k.held = [] →
    ∃ k', (s.leaveTrap n sl).task? n sl = some k' ∧ k'.handler = none ∧ k'.toks = a.toks ∧ k'.sq = a.sq ∧ k'.bq = a.bq ∧
      k'.sC.ip = Mem.read k.sC.spill 4076 4 ∧ k'.sL.ip = Mem.read k.sC.spill 4072 4 ∧ k'.sX.ip = Mem.read k.sC.spill 4068 4 ∧
      k'.sS.ip = Mem.read k.sC.spill 4064 4 ∧
      ∀ u m, (k'.str u).reg m = (k.str u).reg m ∧ (k'.str u).pred m = (k.str u).pred m ∧ (k'.str u).tags = 0 ∧ (k'.str u).wait = .none)

/-! ## The step -/

/-- What one step does: the next input of the environment; else the machinery's step that is due; else the word of the next strand
that may take one up. The bytes at its place, fetched from its text, are run as the instruction that they decode to, from the state with
that strand's turn; bytes of no instruction, a place outside the text or the lease, and a poisoned place have the effects of R59, R308 and
R313. When no strand may go on, the writes to memory perform (R297) and the schedulers act, and then the cycle ends (assumption log 3). -/
def Obligations.step_runs_the_decoded_word : Prop :=
  ∀ s : State,
    (∀ i rest, s.agenda = i :: rest → step s = exec i { s with agenda := rest }) ∧
    (s.agenda = [] → ∀ e, dueEvent s = some e → step s = runEvent e s) ∧
    (s.agenda = [] → dueEvent s = none →
      (nextReady s.turn s.cores = none →
        (∀ e, lateEvent s = some e → step s = runEvent e { s with turn := 4 * 768 }) ∧ (lateEvent s = none → step s = .next s.tick)) ∧
      (∀ turn sl k, nextReady s.turn s.cores = some (turn, sl, k) →
        let u : State := { s with turn := turn }
        let ip := (k.str (Strand.ofCode (turn % 4))).ip
        (∀ w u' i, u.fetch (turn / 4) k ip = .word w u' → Dec.word w = .ok i → step s = exec i u') ∧
        (∀ w u' r, u.fetch (turn / 4) k ip = .word w u' → Dec.word w = .error r →
          step s = .next (u'.illegalWord w) ∧
          (∀ e, u'.env? (Dec.hdr w) = some e → e.live = true → e.windowOpen = true → e.t = (Dec.hdr w).str →
            step s = .next (u'.trapAt e 0x0001 0 0))) ∧
        (∀ ps, k.wordPlaces (wordAddr k.textb.toNat ip) = some ps →
          SMap.find? (s.core (turn / 4)).icache (ps.headD 0) = none → (ps.any fun a => s.isPoisoned ⟨none, a⟩ 1) = false →
          ∃ u', u.fetch (turn / 4) k ip = .word (Dec.wordOf (ps.map (s.textAt (turn / 4)))) u' ∧ u'.dram = s.dram ∧ u'.turn = turn ∧
            u'.task? (turn / 4) sl = s.task? (turn / 4) sl) ∧
        (∀ ps, k.wordPlaces (wordAddr k.textb.toNat ip) = some ps →
          SMap.find? (s.core (turn / 4)).icache (ps.headD 0) = none → (ps.any fun a => s.isPoisoned ⟨none, a⟩ 1) = true →
          step s = .next (u.raise (turn / 4) sl { cause := 0x000C, faddr := wordAddr k.textb.toNat ip, ip := ip
                                                  strand := Strand.ofCode (turn % 4) }).nextCore) ∧
        (k.wordPlaces (wordAddr k.textb.toNat ip) = none →
          step s = .next (u.violate (turn / 4) sl (wordAddr k.textb.toNat ip) ip).nextCore)))

/-- Text (R5, R56, R58): word `w` of a task's text lies at `TEXTB` + 80 times its block + 10 times its place in the block, the byte of bits
7:0 lowest; it is read from memory through the lease, unless the instruction cache holds it or a store has changed it since the last
`ifence`; a store into the text of a core's task changes nothing of what that core fetches until `ifence`, after which it is fetched as
memory holds it; and a byte of it outside the lease ends the task with Lease Violation. -/
def Obligations.text_is_fetched_in_blocks : Prop :=
  (∀ (bs : List Byte) (i : Nat), bs.length = 10 → i < 10 → some ((Dec.wordOf bs).extractLsb' (8 * i) 8) = bs[i]?) ∧
  (∀ (s : State) (n ip : Nat) (k : Task),
    let va := k.textb.toNat + 80 * (ip / 8) + 10 * (ip % 8)
    (∀ ps : List Nat, ps.length = 10 → (∀ i, i < 10 → leaseAddr k.lease (va + i) false = ps[i]?) → va + 10 ≤ k.textb.toNat + 80 * k.txl →
      (∀ a ∈ ps, s.isPoisoned ⟨none, a⟩ 1 = false) → SMap.find? (s.core n).icache (ps.headD 0) = none →
      ∃ u, s.fetch n k ip = .word (Dec.wordOf (ps.map (s.textAt n))) u ∧ u.dram = s.dram ∧ u.flights = s.flights ∧
        ∀ sl, u.task? n sl = s.task? n sl) ∧
    ((∃ i, i < 10 ∧ leaseAddr k.lease (va + i) false = none) → s.fetch n k ip = .violation va ∧
      ∀ sl, s.task? n sl = some k → k.ending = none → k.handler = none →
        ∃ k', (s.violate n sl va ip).task? n sl = some k' ∧ k'.ending = some { cause := 0x0030, faddr := va, ip := ip } ∧
          ∀ u, k'.str u = k.str u)) ∧
  (∀ (s : State) (n a : Nat), SMap.find? (s.core n).stale a = none → s.textAt n a = Mem.get s.dram a) ∧
  (∀ (s : State) (n a : Nat) (ps bad : List WPiece), s.memOk = true → ((s.core n).slots.any fun k => k.2.textByte a) = true →
    (s.writePieces ps bad).textAt n a = s.textAt n a ∧
    ((s.writePieces ps bad).core n).icache = (s.core n).icache) ∧
  (∀ (h : Hdr) (o : SYS) (s : State) (e : Env), Issues s h 0 {} e → ∃ t, exec (.ifence h o) s = .next t ∧ t.dram = s.dram ∧
    (t.core e.core).icache = [] ∧ ∀ a, t.textAt e.core a = Mem.get t.dram a)

/-! ## Tasks and contexts -/

/-- The life of a task (R34, R35, R111, R201, R228, R229, R266, R278, R288 to R290, R292 to R294, R306, R307, R392): the prefetcher moves an
eligible entry into a free task slot with the state that a task starts with; a prefetch whose lease is resident completes and its task
is runnable, and one that waited for lease entries walks again; a task that waited too long for pages ends with Lease Violation; a core
makes the chosen task active, a fresh one with vector registers of zero and mask registers of ones, and a fresh walker at the boundary
before its first step; a waiting task's level rises; an idle core moves the first entry that may be stolen to the bottom of its own
deque, where its waiting counts afresh. A parked task whose condition holds is runnable, with the result of its wait in strand `C`'s
register, or with the fault it owes, or with its step begun; Booking Due is entered in the active task with code `0x0038`; a Lease
Violation or Double Fault frees the task's slot, and with it the active slot. -/
def Obligations.task_scheduler_steps : Prop :=
  (∀ (core : Nat) (s : State),
     (∀ i d, s.prefetchNext core = some (i, d) → recf d.rcd 230 230 = 0 →
       ∃ sl t k, exec (.prefetchStart core) s = .next t ∧ sl < 4 ∧ s.task? core sl = none ∧ t.task? core sl = some k ∧
         (t.core core).prefetch = some sl ∧ (t.core core).deque = (s.core core).deque.eraseIdx i ∧
         k.rcd = d.rcd ∧ k.ser = d.ser ∧ k.part = d.part ∧ k.fn = d.fn ∧ k.regions = d.regions ∧ k.bhnd = d.bh ∧ k.tvec = d.tvec ∧
         k.fresh = true ∧ k.trap = none ∧ k.handler = none ∧ k.sq = [] ∧ k.toks = [] ∧
         (∀ u, (k.str u).ip = recf d.rcd 159 128 ∧ (k.str u).wc = 0 ∧ (k.str u).wait = .none ∧ (k.str u).spill = [] ∧
           (∀ n, n ≠ 1 ∨ u ≠ .C → (k.str u).reg n = 0) ∧ ∀ n, (k.str u).pred n = (n == 0)) ∧
         k.sC.reg 1 = BitVec.ofNat 64 (recf d.rcd 63 0)) ∧
     (∀ i d, s.prefetchNext core = some (i, d) → recf d.rcd 230 230 = 1 →
       ∃ sl t k, exec (.prefetchStart core) s = .next t ∧ sl < 4 ∧ s.task? core sl = none ∧ t.task? core sl = some k ∧
         (t.core core).deque = (s.core core).deque.eraseIdx i ∧ k.fresh = true ∧ k.step = topf d.topb 863 832 ∧
         (∀ u, (k.str u).ip = topf d.topb 31 0 ∧ (k.str u).reg 10 = BitVec.ofNat 64 k.step) ∧
         k.sC.reg 1 = BitVec.ofNat 64 (topf d.topb 127 64)) ∧
     (∀ sl k done start p, s.prefetchReady core = true → s.prefetching? core = some (sl, k, done, start, p) →
       (done = 0 → exec (.prefetchComplete core) s = .next (s.tryLease core sl start)) ∧
       (done ≠ 0 → ∃ t k', exec (.prefetchComplete core) s = .next t ∧ t.task? core sl = some k' ∧ k'.st = .runnable ∧
         k'.lease = k.lease ∧ (∀ u, k'.str u = k.str u) ∧ (t.core core).prefetch = none ∧ t.dram = s.dram)) ∧
     (∀ sl k, s.leaseExpired core = some (sl, k) →
       ∃ t k' e, exec (.leasePendingTimeout core) s = .next t ∧ t.task? core sl = some k' ∧ k'.ending = some e ∧ e.cause = 0x0030 ∧
         e.ip = recf k.rcd 159 128 ∧ ∀ va r, (s.walkLease k).bad = some (va, r) → e.faddr = va) ∧
     (∀ sl k, s.activeNext core = some (sl, k) →
       (k.fresh = false ∨ recf k.rcd 230 230 = 0 → k.owed = none → k.held = [] →
         ∃ t k', exec (.taskActivate core) s = .next t ∧ (t.core core).active = some sl ∧ t.task? core sl = some k' ∧ k'.st = .active ∧
           (∀ u, k'.str u = k.str u) ∧ (t.core core).scratch = (s.core core).scratch ∧
           (k.fresh = true → ∀ n, (t.core core).vreg n = 0 ∧ (t.core core).mreg n = BitVec.allOnes 64)) ∧
       (k.fresh = true → recf k.rcd 230 230 = 1 → exec (.taskActivate core) s = .next (State.stepBoundary (State.updCore
         (State.setTask (s.updCore core fun c => { c with vec := {}, msk := {}, mxe := {} }) core sl
           { k with st := .active, fresh := false, boost := 0 }) core fun c => { c with active := some sl }) core sl k.step))) ∧
     (∀ sl k, s.task? core sl = some k → k.st = .runnable →
       min 31 (recf k.rcd 228 224 + k.boost) < min 31 (recf k.rcd 228 224 + (s.cyc - k.agedFrom) / 262144) →
       ∃ t k', exec (.priorityAging core sl) s = .next t ∧ t.task? core sl = some k' ∧ k'.boost = (s.cyc - k.agedFrom) / 262144 ∧
         k'.st = .runnable ∧ k'.entered = s.cyc ∧ ∀ u, k'.str u = k.str u) ∧
     (∀ v d rest, s.stealNext core = some (v, d, rest) → v ≠ core →
       ∃ t, exec (.autoSteal core) s = .next t ∧ (t.core v).deque = rest ∧
         (t.core core).deque = (s.core core).deque ++ [{ d with stolen := true, entered := s.cyc, eligibleAt := none }] ∧
         ∀ n, n ≠ v → n ≠ core → t.core n = s.core n)) ∧
  (∀ (core sl x : Nat) (s : State) (k : Task), s.task? core sl = some k →
     (k.cancelled = true → s.stepBoundary core sl x = (s.writeFirst k x).endTask core sl) ∧
     (∀ t, k.cancelled = false → k.stepHold = some t → s.cyc < t → s.stepBoundary core sl x =
       (s.setTask core sl { (k.beginStep x) with stepBegun := false, stepHold := some t }).park core sl (.stage t)) ∧
     (k.cancelled = false → (∀ t, k.stepHold = some t → t ≤ s.cyc) → s.stepBoundary core sl x =
       (s.setTask core sl (k.beginStep x)).dueAtBoundary core sl)) ∧
  (∀ (core sl : Nat) (s : State) (k : Task), s.task? core sl = some k →
     (s.wakeReady k = true → (s.ctx k.key).phase = .running →
       let wakes (k' : Task) : Prop := ∃ t, exec (.taskWake core sl) s = .next t ∧ t.task? core sl = some k' ∧ k'.st = .runnable ∧
         k'.entered = s.cyc
       (k.st = .parked .now → ∃ k', wakes k' ∧ ∀ u, k'.str u = k.str u) ∧
       (∀ w v d, k.st = .parked (.windowDone w v d) → 0 < d → ∃ k', wakes k' ∧ k'.sC.reg d = v ∧
         (∀ n, n ≠ d → k'.sC.reg n = k.sC.reg n) ∧ ∀ u, u ≠ .C → k'.str u = k.str u) ∧
       (∀ g d p, k.st = .parked (.gateReady g d p) → exec (.taskWake core sl) s = .next (State.makeRunnable
         ((s.gateSnapshot k.key core g p).1.updTask core sl fun k => k.updStr .C fun x => x.setReg d (s.gateSnapshot k.key core g p).2)
         core sl 0)) ∧
       (∀ t, k.st = .parked (.stage t) →
         (k.cancelled = true → exec (.taskWake core sl) s = .next ((s.writeFirst k k.step).endTask core sl)) ∧
         (k.cancelled = false → ∃ k', wakes k' ∧ k'.stepBegun = true ∧ k'.stepHold = none ∧ ∀ u, k'.str u = k.str u)) ∧
       (∀ r a, k.st = .parked (.farFault r a) → ∃ k' i, wakes k' ∧ k'.owed = some i ∧ i.cause = 0x000B ∧ i.faddr = a ∧
         i.estat = r * 2 ^ 8 ∧ i.strand = .L ∧ ∀ u, (k'.str u).ip = k.sL.ip - 1)) ∧
     (∀ a ka, s.dueNow core sl = some a → a ≠ sl → s.task? core a = some ka → ka.trap = none → ka.handler = none →
       s.drained core a = true → ka.sC.spill.wf = true →
       ∃ t k' ka', exec (.bookingDue core sl) s = .next t ∧ t.task? core sl = some k' ∧ k'.dueRaised = true ∧
         t.task? core a = some ka' ∧ ka'.handler.isSome = true ∧ Mem.read ka'.sC.spill 4032 2 = 0x0038 ∧
         ka'.sC.ip = ka.tvec.toNat % 2 ^ 32 / 8 * 8) ∧
     (∀ e, k.ending = some e → s.faultDrained core sl = true →
       ∃ t, exec (.taskEndByFault core sl) s = .next t ∧ t.task? core sl = none ∧
         ((s.core core).active = some sl → (t.core core).active = none)))


/-- Contexts (R363 to R366, R370 to R372, R374, R400, R409): the end of a slice raises Slice End in every active task of the context and
begins its save; a task whose budget is spent stands still, with its registers as they are; the save writes the area under the next
sequence number and leaves the cores; the restore brings the context back, or, when its area is poisoned or its seal does not match,
keeps the reason and starts the program again at `RFENT` with the walkers of the restart area in `a2` and the reason in `a3`; D3hot stops
a function's context; and a reset of a function ends its queue and leaves its context as created. -/
def Obligations.context_steps : Prop :=
  (∀ (part fn occ : Nat) (s : State), s.sliceEnds (ctxKey part fn) occ = true →
    let key := ctxKey part fn
    ∃ t, exec (.sliceEnd part fn occ) s = .next t ∧ (t.ctx key).phase = .saving occ ∧
      ∀ n sl k, n ∈ s.ctxCores key → s.activeOf key n = some (sl, k) → k.handler = none → k.trap = none → k.ending = none →
        s.drained n sl = true → k.sC.spill.wf = true →
        ∃ k', t.task? n sl = some k' ∧ k'.handler.isSome = true ∧ Mem.read k'.sC.spill 4032 2 = 0x0039 ∧
          k'.sC.ip = k.tvec.toNat % 2 ^ 32 / 8 * 8) ∧
  (∀ (core : Nat) (s : State) (sl : Nat) (k : Task), s.forcedNow core = some (sl, k) →
    (s.flights.any fun f => f.ofTask core sl) = false →
    ∃ t k', exec (.forcedSave core) s = .next t ∧ (t.core core).quiet = true ∧ t.task? core sl = some k' ∧
      ∀ u, (k'.str u).ip = (k.str u).ip ∧ (k'.str u).a = (k.str u).a ∧ (k'.str u).wait = .none) ∧
  (∀ (part fn occ : Nat) (s : State), s.saveReady (ctxKey part fn) = some occ →
    let key := ctxKey part fn
    ∃ t, exec (.contextSave part fn) s = .next t ∧ (t.ctx key).phase = .saved occ ∧ (t.ctx key).sseq = (s.ctx key).sseq + 1 ∧
      ((s.ctx key).image.isSome = true → (t.ctx key).restarts = (s.walkerCopies key).length) ∧
      ∀ n ∈ s.ctxCores key, t.core n = {}) ∧
  (∀ (part fn : Nat) (s : State), s.restoreReady (ctxKey part fn) = true →
    let key := ctxKey part fn
    let len := 65536 + (s.ctxCores key).length * 2097152
    let u := s.billRead key len
    let area := s.guestBytes key (s.saveBase key) len
    let launched (t : State) (why a2 ent : Nat) : Prop := ∀ i n, (s.ctx key).image = some i → (s.ctxCores key).head? = some n →
      (s.core n).slots = [] → recf i.rootrec 230 230 = 0 → ∃ k, t.task? n 0 = some k ∧ k.root = true ∧
        (∀ x, (k.str x).ip = ent) ∧ k.sC.reg 1 = BitVec.ofNat 64 i.pblk ∧
        (why ≠ 0 → k.sC.reg 2 = BitVec.ofNat 64 a2 ∧ k.sC.reg 3 = BitVec.ofNat 64 why)
    let ent (why : Nat) : Nat := match (s.ctx key).image with
      | some i => if why = 0 then recf i.rootrec 159 128 else i.rfent % 2 ^ 32
      | none => 0
    (∀ why, (s.ctx key).startAs = some why → ∃ t, exec (.contextRestore part fn) s = .next t ∧ (t.ctx key).phase = .running ∧
      launched t why (s.ctx key).restarts (ent why)) ∧
    ((s.ctx key).startAs = none →
      (u.areaFault key area = none → ∃ t, exec (.contextRestore part fn) s = .next t ∧ (t.ctx key).phase = .running ∧
        (t.ctx key).restarts = (s.ctx key).restarts ∧ (t.ctx key).kept = []) ∧
      (∀ r, u.areaFault key area = some r → ∃ t, exec (.contextRestore part fn) s = .next t ∧ (t.ctx key).phase = .running ∧
        (t.ctx key).lostReason = r ∧ launched t r (s.ctx key).restarts (ent r)))) ∧
  (∀ (fn : Nat) (s : State), fn ≤ 96 → s.mgmt.power = .ready →
    (s.keysOfFn fn = [] → exec (.d3hotEntry fn) s = .next s) ∧
    (∀ key, s.keysOfFn fn = [key] →
      ((s.ctx key).phase = .running → exec (.d3hotEntry fn) s = .next (s.startSave key 1)) ∧
      ((s.ctx key).phase = .saved 0 → ∃ t, exec (.d3hotEntry fn) s = .next t ∧ (t.ctx key).phase = .saved 1) ∧
      ((s.ctx key).phase = .saving 0 → ∃ t, exec (.d3hotEntry fn) s = .next t ∧ (t.ctx key).phase = .saving 1) ∧
      ((s.ctx key).phase = .created ∨ (s.ctx key).phase = .lost → exec (.d3hotEntry fn) s = .next s)) ∧
    let busy : Prop := s.stopping fn = true ∨ (fn = 0 ∧ ∃ h ∈ s.host, h.2.resetBy ≠ none)
    (busy → exec (.functionLevelReset fn) s = .next (s.updFn fn fun h => { h with flr := true })) ∧
    (¬ busy → ∃ t, exec (.functionLevelReset fn) s = .next t ∧ (t.fnOf fn).queue = [] ∧ (t.fnOf fn).flr = false ∧
      ∀ key, s.keysOfFn fn = [key] → (t.ctx key).phase = .created ∧ (t.ctx key).image = none ∧ (t.ctx key).s2len = (s.ctx key).s2len ∧
        (t.ctx key).job = (s.ctx key).job ∧ (t.ctx key).counters = (s.ctx key).counters))

/-! ## The host, power and errors -/

/-- The host's accesses (R396 to R399, R403, R404): a read of a virtual function's BAR2 completes with the bytes that stage 2 maps, with the
poisoned-data indication when one of them is poisoned, and as unsupported where it maps none; a write stores its bytes where it may, and
nothing else; an AtomicOp returns the old value and stores the new one, but returns a poisoned value with its indication and stores
nothing; the physical function has no BAR2. A function's list of capabilities starts at offset 0 of its BAR0, each record after a header of
identifier, version 1, offset of the next and length, and a list of recovery holds three. A new tail submits its descriptors and a new head
frees entries. The treatment of pointers out of range and of misaligned AtomicOps and the packing of the records are the model's (assumption
logs 57, 58 and 97). -/
def Obligations.host_accesses : Prop :=
  ∀ (fn : Nat) (s : State), s.mgmt.power = .ready →
    (fn = 0 ∨ s.ctxOfFn fn = none →
      (∀ (ga : BitVec 64) (n : Nat), exec (.hostBar2Read fn ga n) s = .next { s with hostOut := s.hostOut ++ [{ fn := fn, ok := false }] }) ∧
      (∀ (ga : BitVec 64) (bytes : List (BitVec 8)), exec (.hostBar2Write fn ga bytes) s = .next s) ∧
      (∀ (ga : BitVec 64) (op : HostOp),
        exec (.hostAtomicOp fn ga op) s = .next { s with hostOut := s.hostOut ++ [{ fn := fn, ok := false }] })) ∧
    (∀ key, fn ≠ 0 → s.ctxOfFn fn = some key →
      (∀ (ga : BitVec 64) (n : Nat), ga.toNat + n ≤ 2 ^ 39 → (∀ i, i < n → s.walk2 key (ga.toNat + i) ≠ none) →
        ∃ t r, exec (.hostBar2Read fn ga n) s = .next t ∧ t.dram = s.dram ∧ t.cores = s.cores ∧ t.hostOut = s.hostOut ++ [r] ∧
          r.fn = fn ∧ r.ok = true ∧ r.bytes.length = n ∧
          (∀ i pa e, i < n → s.walk2 key (ga.toNat + i) = some (pa, e) → r.bytes[i]? = some (Mem.get s.dram pa)) ∧
          (r.poisoned = true ↔ ∃ i pa e, i < n ∧ s.walk2 key (ga.toNat + i) = some (pa, e) ∧ s.isPoisoned ⟨none, pa⟩ 1 = true)) ∧
      (∀ (ga : BitVec 64) (n : Nat), 2 ^ 39 < ga.toNat + n ∨ (∃ i, i < n ∧ s.walk2 key (ga.toNat + i) = none) →
        exec (.hostBar2Read fn ga n) s = .next { s with hostOut := s.hostOut ++ [{ fn := fn, ok := false }] }) ∧
      (∀ (ga : BitVec 64) (bytes : List (BitVec 8)), s.dram.wf = true → ga.toNat + bytes.length ≤ 2 ^ 39 →
        ((∀ i, i < bytes.length → ∃ pa e, s.walk2 key (ga.toNat + i) = some (pa, e) ∧ e.w = true) →
          ∃ t, exec (.hostBar2Write fn ga bytes) s = .next t ∧
            (∀ c, (t.core c).scratch = (s.core c).scratch ∧ (t.core c).slots = (s.core c).slots) ∧
            (∀ a, (∀ i pa e, i < bytes.length → s.walk2 key (ga.toNat + i) = some (pa, e) → a ≠ pa) → Mem.get t.dram a = Mem.get s.dram a) ∧
            (∀ i b pa e, bytes[i]? = some b → s.walk2 key (ga.toNat + i) = some (pa, e) →
              (∀ j pa' e', i < j → j < bytes.length → s.walk2 key (ga.toNat + j) = some (pa', e') → pa' ≠ pa) → Mem.get t.dram pa = b)) ∧
        ((∃ i, i < bytes.length ∧ ∀ pa e, s.walk2 key (ga.toNat + i) = some (pa, e) → e.w = false) →
          exec (.hostBar2Write fn ga bytes) s = .next s)) ∧
      (∀ (ga : BitVec 64) (op : HostOp) (mn n x cmp pa : Nat) (e : S2Entry), hostOpFields op = (mn, n, x, cmp) → s.dram.wf = true →
        ga.toNat + n ≤ 2 ^ 39 → (∀ i, i < n → s.walk2 key (ga.toNat + i) ≠ none) → s.walk2 key ga.toNat = some (pa, e) →
        let old := Mem.read s.dram pa n
        (e.w = false ∨ ga.toNat % n ≠ 0 →
          exec (.hostAtomicOp fn ga op) s = .next { s with hostOut := s.hostOut ++ [{ fn := fn, ok := false }] }) ∧
        (ga.toNat % n = 0 → e.w = true → s.isPoisoned ⟨none, pa⟩ n = true → ∃ t, exec (.hostAtomicOp fn ga op) s = .next t ∧ t.dram = s.dram ∧
          t.hostOut = s.hostOut ++ [{ fn := fn, ok := true, poisoned := true, bytes := leBytes old n }]) ∧
        (ga.toNat % n = 0 → e.w = true → s.isPoisoned ⟨none, pa⟩ n = false → ∃ t, exec (.hostAtomicOp fn ga op) s = .next t ∧
          t.hostOut = s.hostOut ++ [{ fn := fn, ok := true, bytes := leBytes old n }] ∧
          (∀ a, a < pa ∨ pa + n ≤ a → Mem.get t.dram a = Mem.get s.dram a) ∧
          (mn = 0 → Mem.read t.dram pa n = (old + x) % 2 ^ (8 * n)) ∧
          (mn = 8 → Mem.read t.dram pa n = x % 2 ^ (8 * n)) ∧
          (mn = 9 → Mem.read t.dram pa n = if old = cmp % 2 ^ (8 * n) then x % 2 ^ (8 * n) else old)))) ∧
    (∀ (tail : BitVec 64) (ds : List Desc),
      let h := s.fnOf fn
      let fits : Prop := fn ≤ 96 ∧ tail.toNat = h.tail + ds.length ∧ tail.toNat ≤ h.headDone + 64 ∧ ∀ d ∈ ds, d.fn = fn
      (fits → ∃ t, exec (.cqtail fn tail ds) s = .next t ∧ (t.fnOf fn).queue = h.queue ++ ds ∧ (t.fnOf fn).tail = tail.toNat ∧
        ∀ f, f ≠ fn → t.fnOf f = s.fnOf f) ∧
      (¬ fits → exec (.cqtail fn tail ds) s = .next s)) ∧
    (∀ head : BitVec 64,
      let h := s.fnOf fn
      let fits : Prop := fn ≤ 96 ∧ h.evhead ≤ head.toNat ∧ head.toNat ≤ h.evtail
      (fits → ∃ t, exec (.evhead fn head) s = .next t ∧ (t.fnOf fn).evhead = head.toNat ∧
        (t.fnOf fn).ring = h.ring.drop (head.toNat - h.evhead) ∧ ∀ f, f ≠ fn → t.fnOf f = s.fnOf f) ∧
      (¬ fits → exec (.evhead fn head) s = .next s)) ∧
    s.capList fn = (if s.mgmt.recovery then (if fn = 0 then [1, 3, 4] else []) else if fn = 0 then [1, 2, 3, 4, 5, 6, 7, 8] else [1, 3, 4, 8]) ∧
    (∀ (off id : Nat) (body : List Byte) (rest : List (Nat × List Byte)), off < 2 ^ 32 → id < 2 ^ 16 → body.length < 2 ^ 32 →
      let next := (off + 16 + body.length + 15) / 16 * 16
      let list := capChain off ((id, body) :: rest)
      off % 16 = 0 → next < 2 ^ 32 →
      leNat (list.take 2) = id ∧ leNat ((list.drop 2).take 2) = 1 ∧
        leNat ((list.drop 4).take 4) = (if rest = [] then 0 else next) ∧ leNat ((list.drop 8).take 4) = body.length ∧
        leNat ((list.drop 12).take 4) = 0 ∧ (list.drop 16).take body.length = body ∧ list.drop (next - off) = capChain next rest) ∧
    (∀ off, off < 0x1000 → s.bar0 fn off = (capChain 0 ((s.capList fn).map fun id => (id, s.capBody id)))[off]?) ∧
    leNat ((List.range 8).filterMap fun i => s.bar0 fn (0x2000 + i)) = (s.fnOf fn).tail % 2 ^ 64 ∧
    leNat ((List.range 8).filterMap fun i => s.bar0 fn (0x2008 + i)) = (s.fnOf fn).headDone % 2 ^ 64

/-- Power, heat, errors and the management port (R314 to R316, R383, R394, R404, R406 to R409): limits on admission are set after ten
milliseconds above the cap and lifted after a hundred below it; a warning sets a limit of at most 384 and is reported; a trip loses every
context and leaves the part in standby; a machine check loses the contexts in its extent; a scrub marks an uncorrectable unit, and one in a
platform frame is a machine check; a frame without pins is retired, what it mapped is mapped elsewhere with its bytes, and it is zeroed; at a
millisecond's end each context is billed its share of the measured energy, and what the divisions leave over is carried; power-on and a
package reset start from cycle 0 with the flash kept, and run its bundle or stay in recovery; the management port answers each request. What
the part reports to the host beside the reason, the energy coefficients, and the standby after a machine check of the whole part are the
model's (assumption logs 59 and 87). -/
def Obligations.power_and_errors : Prop :=
  (∀ s : State, s.mgmt.power = .ready →
    (∀ n, (10 ≤ s.mgmt.overMs →
        exec (.powerCapLimit n) s = .next { s with bu := { s.bu with limit := some ((s.bu.limit.map fun m => min m n).getD n) } }) ∧
      (s.mgmt.overMs < 10 → exec (.powerCapLimit n) s = .fault .noSuchStep)) ∧
    (100 ≤ s.mgmt.underMs → exec .powerCapLift s = .next { s with bu := { s.bu with limit := none } }) ∧
    (s.mgmt.underMs < 100 → exec .powerCapLift s = .fault .noSuchStep) ∧
    (let h := s.fnOf 0
     h.evtail - h.evhead < 256 →
       (∀ die, ∃ t l e, exec (.thermalWarning die) s = .next t ∧ t.bu.limit = some l ∧ l ≤ 384 ∧ (t.fnOf 0).ring = h.ring ++ [e] ∧
         e.reason = 1 ∧ t.cores = s.cores ∧ t.dram = s.dram) ∧
       (∃ t e, exec .coolantAlarm s = .next t ∧ (t.fnOf 0).ring = h.ring ++ [e] ∧ e.reason = 3 ∧ t.bu = s.bu ∧ t.cores = s.cores)) ∧
    (∀ die, ∃ t, exec (.thermalTrip die) s = .next t ∧ t.mgmt.power = .standby ∧
      ∀ key, (SMap.find? s.ctxs key).isSome = true → (t.ctx key).phase = .lost ∧ (t.ctx key).lostReason = 4) ∧
    (∀ part fn, SMap.find? s.ctxs (ctxKey part fn) = none →
      exec (.machineCheck (.context part fn)) s = .next { s with mgmt := { s.mgmt with checks := s.mgmt.checks + 1 } }) ∧
    (∀ part fn c, SMap.find? s.ctxs (ctxKey part fn) = some c → c.phase = .running → c.image.isSome = true →
      ∃ t, exec (.machineCheck (.context part fn)) s = .next t ∧ t.mgmt.checks = s.mgmt.checks + 1 ∧
        (t.ctx (ctxKey part fn)).phase = .running ∧ (t.ctx (ctxKey part fn)).lostReason = 3) ∧
    (∀ mask, (∀ key, (SMap.find? s.ctxs key).isSome = true → s.partition? key = none) →
      exec (.machineCheck (.granules mask)) s = .next { s with mgmt := { s.mgmt with checks := s.mgmt.checks + 1 } }) ∧
    (∃ t, exec (.machineCheck .shared) s = .next t ∧ t.mgmt.power = .standby ∧
      ∀ key, (SMap.find? s.ctxs key).isSome = true → (t.ctx key).phase = .lost) ∧
    (∀ rail platform,
      let due : Prop := s.cyc % (64 * 13281) = 0 ∧ s.mgmt.energySlot ≠ s.cyc / 64 + 1
      let e (i : Nat) : Nat := (Config.freeValue 32 (s.fresh + i)).toNat
      let sum : Nat := ((List.range s.ctxs.length).map e).sum
      let m := rail - platform + s.mgmt.remainder
      let next (n : Nat) : Nat := if s.mgmt.energySlot + 13281 = s.cyc / 64 + 1 then n + 1 else 1
      (¬ due → exec (.energyReconcile rail platform) s = .fault .noSuchStep) ∧
      (due → ∃ t, exec (.energyReconcile rail platform) s = .next t ∧ t.cores = s.cores ∧ t.dram = s.dram ∧
        t.mgmt.overMs = (if 1000 * s.mgmt.cap < rail then next s.mgmt.overMs else 0) ∧
        t.mgmt.underMs = (if rail < 1000 * s.mgmt.cap then next s.mgmt.underMs else 0) ∧
        (s.ctxs.Pairwise (fun a b => a.1 < b.1) → sum ≠ 0 →
          t.mgmt.remainder = m - ((List.range s.ctxs.length).map fun i => e i * m / sum).sum ∧
          ∀ i key c, s.ctxs[i]? = some (key, c) → (t.ctx key).pending.energy = c.pending.energy + BitVec.ofNat 64 (e i * m / sum))))) ∧
  (∀ (core word line : Nat) (s : State),
    (∃ t, exec (.scrub (.scratchWord core word true)) s = .next t ∧ word ∈ (t.core core).poison) ∧
    (s.partOf core = none → exec (.scrub (.scratchWord core word false)) s = .next s ∧
      ∃ t, exec (.scrub (.scratchWord core word true)) s = .next t ∧ word ∈ (t.core core).poison ∧ t.dram = s.dram ∧
        (t.core core).scratch = (s.core core).scratch) ∧
    (∀ p c, s.partOf core = some p → SMap.find? s.ctxs (s.keyOfCore p core) = some c → c.cecnt < 2 ^ 64 - 1 →
      ∃ t, exec (.scrub (.scratchWord core word false)) s = .next t ∧ (t.ctx (s.keyOfCore p core)).cecnt = c.cecnt + 1 ∧
        t.cores = s.cores ∧ t.dram = s.dram) ∧
    (let frame := 64 * line / 2097152
     s.frameOwner frame = none → line ∉ s.dramPoison → line ∉ s.dramTold →
      (frame % 5120 < 5088 → exec (.scrub (.dramLine line true)) s =
        .next { s with dramPoison := NSet.add s.dramPoison line, dramTold := NSet.add s.dramTold line }) ∧
      (5088 ≤ frame % 5120 → ∃ t, exec (.scrub (.dramLine line true)) s = .next t ∧ t.mgmt.checks = s.mgmt.checks + 1 ∧
        ∀ key c, (s.ctxs.filter fun x => x.2.s2base / 2097152 == frame) = [(key, c)] → (t.ctx key).lostReason = 3)) ∧
    (∀ frame, s.pins frame = 0 → frame ∉ s.mgmt.retired →
      (s.frameHeld frame = false →
        exec (.frameRetire frame) s = .next { s with mgmt := { s.mgmt with retired := NSet.add s.mgmt.retired frame } }) ∧
      (s.frameHeld frame = true → s.platformFrame (groupOf frame) = none →
        exec (.frameRetire frame) s = .next { s with mgmt := { s.mgmt with degraded := NSet.add s.mgmt.degraded (groupOf frame) } }) ∧
      (∀ b, s.frameHeld frame = true → s.platformFrame (groupOf frame) = some b →
        ∃ t, exec (.frameRetire frame) s = .next t ∧ frame ∈ t.mgmt.retired ∧
          (∀ key c g e, SMap.find? s.ctxs key = some c → SMap.find? c.s2 g = some e → e.pfn = frame →
            ∃ e', SMap.find? (t.ctx key).s2 g = some e' ∧ e'.pfn = b ∧ e'.w = e.w) ∧
          (s.cores = [] → s.dram.wf = true → ∀ i, i < 2097152 →
            Mem.get t.dram (2097152 * b + i) = Mem.get s.dram (2097152 * frame + i) ∧ Mem.get t.dram (2097152 * frame + i) = 0)))) ∧
  (∀ s : State,
    let fresh (t : State) : Prop := t.mgmt.power = .ready ∧ t.cyc = 0 ∧ t.ctxs = [] ∧ t.parts = [] ∧ t.cores = [] ∧ t.flights = [] ∧
      t.dram = [] ∧ t.hostMem = s.hostMem ∧ t.mgmt.flash = s.mgmt.flash ∧ t.mgmt.retired = s.mgmt.retired ∧
      (Config.bundleValid s.mgmt.flash = true → t.mgmt.recovery = false ∧ t.mgmt.running = s.mgmt.flash) ∧
      (Config.bundleValid s.mgmt.flash = false → t.mgmt.recovery = true)
    (s.mgmt.power ≠ .ready → ∃ t, exec .powerOn s = .next t ∧ fresh t) ∧
    (s.mgmt.power ≠ .off → ∃ t, exec .packageReset s = .next t ∧ fresh t) ∧
    (∃ t, exec .powerLoss s = .next t ∧ t.mgmt.power = .off ∧ t.ctxs = [] ∧ t.cores = [] ∧ t.dram = [] ∧ t.mgmt.flash = s.mgmt.flash) ∧
    (s.mgmt.power ≠ .off →
      let replied (t : State) (kind : Nat) (vs : List Nat) : Prop := t.mgmt.replies = s.mgmt.replies ++ [(kind, vs)]
      (∃ t vs, exec .fjarlosSensorRead s = .next t ∧ replied t 1 vs ∧ vs.length = 13 ∧ t.cores = s.cores) ∧
      (∀ w, 1200 ≤ w → w ≤ 1900 → ∃ t, exec (.fjarlosPowerCapSet w) s = .next t ∧ t.mgmt.cap = w ∧ replied t 2 [0]) ∧
      (∀ w, w < 1200 ∨ 1900 < w → ∃ t, exec (.fjarlosPowerCapSet w) s = .next t ∧ t.mgmt.cap = s.mgmt.cap ∧ replied t 2 [1]) ∧
      (∀ b, Config.bundleValid b = true → ∃ t, exec (.fjarlosFirmwareUpdate b) s = .next t ∧ t.mgmt.flash = b ∧ replied t 3 [0] ∧
        t.mgmt.running = s.mgmt.running) ∧
      (∀ b, Config.bundleValid b = false → ∃ t, exec (.fjarlosFirmwareUpdate b) s = .next t ∧ t.mgmt.flash = s.mgmt.flash ∧ replied t 3 [6]) ∧
      (∀ part fn c, SMap.find? s.ctxs (ctxKey part fn) = some c → ∃ t, exec (.fjarlosCounterRead part fn) s = .next t ∧
        replied t 4 ([c.counters.snap, c.counters.mbusy, c.counters.vbusy, c.counters.copyb, c.counters.dramr, c.counters.dramw,
          c.counters.fabb, c.counters.energy].map BitVec.toNat)) ∧
      (∀ part fn, SMap.find? s.ctxs (ctxKey part fn) = none → ∃ t, exec (.fjarlosCounterRead part fn) s = .next t ∧ replied t 4 [])))

/-! ## Firmware commands -/

/-- Commands that firmware refuses (R399 to R401, R404): one that a virtual function may not give ends with Denied, one that recovery does
not allow with Wrong state, one with an unused operand byte that is set with Invalid, and one whose code no row has with Invalid; each
leaves its queue, with nothing else changed. -/
def Obligations.command_refusals : Prop :=
  ∀ (d : Desc) (vf recovery : Bool) (used : List (Nat × Nat)) (body : State → Cmd) (s : State) (fn : Nat),
    s.nextDesc = some (fn, d) → s.mgmt.power = .ready →
    let ends (sts : Nat) : Out := .next ((s.takeDesc fn).complete fn d.htag sts 0)
    let out := command d vf recovery used body s
    (fn ≠ 0 → vf = false → out = ends 2) ∧
    (fn = 0 ∨ vf = true → s.mgmt.recovery = true → (recovery = false ∨ fn ≠ 0) → out = ends 4) ∧
    (fn = 0 ∨ vf = true → s.mgmt.recovery = false ∨ (recovery = true ∧ fn = 0) → unusedZero d used = false → out = ends 1) ∧
    (fn ≠ 0 → exec (.partCreate d) s = ends 2 ∧ exec (.partDestroy d) s = ends 2 ∧ exec (.granMove d) s = ends 2 ∧
      exec (.arbWeight d) s = ends 2 ∧ exec (.vfReset d) s = ends 2 ∧ exec (.routeLoad d) s = ends 2 ∧ exec (.groupLoad d) s = ends 2 ∧
      exec (.jobBind d) s = ends 2 ∧ exec (.migStart d) s = ends 2 ∧ exec (.migStop d) s = ends 2 ∧ exec (.migCommit d) s = ends 2 ∧
      exec (.cntRead d) s = ends 2 ∧ exec (.dbgAttach d) s = ends 2 ∧ exec (.dbgMem d) s = ends 2 ∧ exec (.dbgDetach d) s = ends 2 ∧
      exec (.patchLoad d) s = ends 2) ∧
    ((s.takeDesc fn).fnOf fn).queue = (s.fnOf fn).queue.tail ∧
    (∀ t : State, ∀ sts v, ((t.complete fn d.htag sts v).fnOf fn).done = (t.fnOf fn).done ++ [(d.htag, sts, v)] ∧
      ((t.complete fn d.htag sts v).fnOf fn).headDone = (t.fnOf fn).headDone + 1 ∧ (t.complete fn d.htag sts v).ctxs = t.ctxs ∧
      (t.complete fn d.htag sts v).dram = t.dram ∧ (t.complete fn d.htag sts v).cores = t.cores)

/-- Partitions, images, gates, routes, groups and jobs (R213, R317 to R319, R329, R332, R355 to R359, R362, R376, R401, R403): what each
command refuses, and what it makes of the part when it ends with OK. Which frames a context gets, and which pages firmware unmaps of itself
before a granule moves, are the model's (assumption log 32). -/
def Obligations.partition_commands : Prop :=
  ∀ (d : Desc) (s : State) (fn : Nat),
    let u := s.takeDesc fn
    let op := operand d
    let ends (out : Out) (sts v : Nat) (t : State) : Prop := out = .next (t.complete fn d.htag sts v)
    (Takes s fn d false false [(0, 9), (10, 2)] →
      let out := exec (.partCreate d) s
      let mask := op 0 6
      let f := op 6 1
      let g := op 7 1
      let split := op 8 1
      let window := 704 + (op 10 2 + 63) / 64
      let slices : Prop := 1 ≤ split ∧ split ≤ 63 ∧ window ≤ 64 * split ∧ window ≤ 4096 - 64 * split
      let made (t : State) (i h : Nat) : Prop := (t.ctx (ctxKey i h)).phase = .created ∧
        (t.ctx (ctxKey i h)).s2len = 5120 * (granulesOf mask).length ∧
        ∀ x ∈ (t.ctx (ctxKey i h)).s2, x.2.pfn ∉ s.mgmt.retired ∧ mask.testBit (x.2.pfn / 5120) = true ∧ x.2.pfn % 5120 < 5088
      (mask = 0 ∨ 96 < f ∨ 96 < g ∨ (f ≠ 0 ∧ f = g) ∨ (f ≠ 0 ∧ g ≠ 0 ∧ ¬ slices) → ends out 1 0 u) ∧
      (mask ≠ 0 → f ≤ 96 → g ≤ 96 → f ≠ 0 → (g ≠ 0 → f ≠ g ∧ slices) →
        ((∃ q ∈ s.parts, q.2.gmask &&& mask ≠ 0) ∨ s.ctxOfFn f ≠ none ∨ (g ≠ 0 ∧ s.ctxOfFn g ≠ none) → ends out 4 0 u) ∧
        ((∀ q ∈ s.parts, q.2.gmask &&& mask = 0) → s.ctxOfFn f = none → (g ≠ 0 → s.ctxOfFn g = none) →
          ((∀ i, i < 48 → SMap.find? s.parts i ≠ none) → ends out 3 0 u) ∧
          (∀ i, i < 48 → SMap.find? s.parts i = none → (∀ j, j < i → SMap.find? s.parts j ≠ none) →
            ∃ t, ends out 0 i t ∧
              SMap.find? t.parts i = some (if g = 0 then ⟨mask, f, f, 0, op 10 2⟩ else ⟨mask, f, g, split, op 10 2⟩) ∧
              (∀ j, j ≠ i → SMap.find? t.parts j = SMap.find? s.parts j) ∧ SMap.find? t.bu.serials i = none ∧
              made t i f ∧ (g ≠ 0 → made t i g) ∧ t.dram = s.dram)))) ∧
    (Takes s fn d false false [(0, 1)] →
      let out := exec (.partDestroy d) s
      let part := op 0 1
      (SMap.find? s.parts part = none → ends out 1 0 u) ∧
      (SMap.find? s.parts part ≠ none → (∃ c ∈ s.ctxs, c.1 / 128 = part ∧ (s.ctx c.1).stopped = false) → ends out 4 0 u) ∧
      (∀ p, SMap.find? s.parts part = some p → (∀ c ∈ s.ctxs, c.1 / 128 = part → (s.ctx c.1).stopped = true) →
        ∃ t, ends out 0 0 t ∧ SMap.find? t.parts part = none ∧ (∀ c ∈ s.ctxs, c.1 / 128 = part → SMap.find? t.ctxs c.1 = none) ∧
          ∀ n, n < 768 → p.gmask.testBit (n / 16) = true → t.core n = {})) ∧
    (Takes s fn d false false [(0, 3)] →
      let out := exec (.granMove d) s
      let g := op 0 1
      let a := op 1 1
      let b := op 2 1
      let leaves (c : Context) (x : Nat × S2Entry) : Prop := x.2.pfn / 5120 = g ∨ c.s2len - 5120 ≤ x.1
      (SMap.find? s.parts a = none ∨ SMap.find? s.parts b = none → ends out 1 0 u) ∧
      ∀ p q, SMap.find? s.parts a = some p → SMap.find? s.parts b = some q →
        (48 ≤ g ∨ p.gmask.testBit g = false ∨ a = b → ends out 1 0 u) ∧
        (g < 48 → p.gmask.testBit g = true → a ≠ b → s.ctxs.Pairwise (fun x y => x.1 < y.1) →
          (p.gmask = 2 ^ g ∨ s.drainedOn a g = false ∨ s.drainedOn b g = false ∨
              (∃ k c, SMap.find? s.ctxs k = some c ∧ k / 128 = a ∧ ∃ x ∈ c.s2, leaves c x ∧ s.untouched x.2 = false) →
            ends out 4 0 u) ∧
          (p.gmask ≠ 2 ^ g → s.drainedOn a g = true → s.drainedOn b g = true →
              (∀ k c, SMap.find? s.ctxs k = some c → k / 128 = a → ∀ x ∈ c.s2, leaves c x → s.untouched x.2 = true) →
            ∃ t, ends out 0 0 t ∧ SMap.find? t.parts a = some { p with gmask := p.gmask - 2 ^ g } ∧
              SMap.find? t.parts b = some { q with gmask := q.gmask + 2 ^ g } ∧
              (∀ k c, SMap.find? s.ctxs k = some c → k / 128 = a → (t.ctx k).s2len = c.s2len - 5120 ∧
                ∀ x ∈ (t.ctx k).s2, x.2.pfn / 5120 ≠ g) ∧
              (∀ k c, SMap.find? s.ctxs k = some c → k / 128 = b → (t.ctx k).s2len = c.s2len + 5120)))) ∧
    (Takes s fn d false false [(0, 4)] →
      let out := exec (.arbWeight d) s
      (s.ctxArg d 0 = none → ends out 1 0 u) ∧
      (∀ key, s.ctxArg d 0 = some key →
        (8 ≤ op 2 1 ∨ op 3 1 = 0 → ends out 1 0 u) ∧
        (op 2 1 < 8 → op 3 1 ≠ 0 →
          ends out 0 0 (u.updHts (op 2 1) fun h => { h with weights := SMap.set h.weights key (op 3 1) })))) ∧
    (Takes s fn d true false [(0, 2), (8, 24)] →
      let out := exec (.imageLoad d) s
      let n := op 24 8
      (s.ctxArg d 0 = none → ends out 1 0 u) ∧
      ∀ key, s.ctxArg d 0 = some key → s.dram.wf = true →
        ((∃ i, i < n ∧ ∀ pa e, s.walk2 key (op 16 8 + i) = some (pa, e) → e.w = false) → ends out 1 0 u) ∧
        ((∀ i, i < n → ∃ pa e, s.walk2 key (op 16 8 + i) = some (pa, e) ∧ e.w = true) →
          ∃ t, ends out 0 0 t ∧ (∀ c, (t.core c).scratch = (s.core c).scratch) ∧
            ∀ i pa e, i < n → s.walk2 key (op 16 8 + i) = some (pa, e) →
              (∀ j pa' e', i < j → j < n → s.walk2 key (op 16 8 + j) = some (pa', e') → pa' ≠ pa) →
              Mem.get t.dram pa = Mem.get s.hostMem (op 8 8 + i))) ∧
    (Takes s fn d true false [(0, 5), (6, 34)] →
      let out := exec (.gateReq d) s
      let body := reqBody d
      let gno := op 0 2
      let keys := aclKeys (reqAcl body)
      (s.ctxArg d 6 = none → ends out 1 0 u) ∧
      ∀ key, s.ctxArg d 6 = some key →
        let open_ : Prop := ∃ g, SMap.find? s.gates gno = some g ∧ g.state ≠ 2
        let differs : Prop := ∃ r ∈ s.gateReqs, r.gate = gno ∧ r.body ≠ body
        let asked (k : Nat) : Prop := k = key ∨ ∃ r ∈ s.gateReqs, r.gate = gno ∧ ctxKey r.part r.fn = k
        (reqOk body = false ∨ keys.contains key = false → ends out 1 0 u) ∧
        (reqOk body = true → keys.contains key = true →
          (open_ ∨ differs → ends out 4 0 u) ∧
          (¬ open_ → ¬ differs →
            (s.windowFrame key (op 4 1) = none → ends out 3 0 u) ∧
            (∀ f, s.windowFrame key (op 4 1) = some f →
              ((∃ k ∈ keys, ¬ asked k) → ∃ t, ends out 0 0 t ∧ t.gates = s.gates ∧
                (∀ k, asked k ↔ ∃ r ∈ t.gateReqs, r.gate = gno ∧ r.body = body ∧ ctxKey r.part r.fn = k) ∧
                ∀ r, r.gate ≠ gno → (r ∈ t.gateReqs ↔ r ∈ s.gateReqs)) ∧
              ((∀ k ∈ keys, asked k) → SMap.find? s.gates gno ≠ none → ends out 3 0 u) ∧
              ((∀ k ∈ keys, asked k) → SMap.find? s.gates gno = none →
                ∃ t g, ends out 0 1 t ∧ SMap.find? t.gates gno = some g ∧ g.acl = reqAcl body ∧ g.cap = op 2 1 ∧ g.refill = op 3 1 ∧
                  g.level = op 2 1 ∧ g.state = 0 ∧ g.seq = 0 ∧ g.wlen = op 4 1 ∧ (∀ r ∈ t.gateReqs, r.gate ≠ gno) ∧
                  (op 4 1 ≠ 0 → g.wpfn = f ∧ ∀ k c i, k ∈ keys → SMap.find? s.ctxs k = some c → i < c.s2len → SMap.find? c.s2 i = none →
                    ∃ j e, SMap.find? (t.ctx k).s2 j = some e ∧ e.pfn = f ∧ e.plat = true)))))) ∧
    (Takes s fn d true false [(0, 4)] →
      let out := exec (.gateClose d) s
      let gno := op 0 2
      (s.ctxArg d 2 = none → ends out 1 0 u) ∧
      ∀ key, s.ctxArg d 2 = some key →
        (∀ g, SMap.find? s.gates gno = some g →
          ((aclKeys g.acl).contains key = false → ends out 1 0 u) ∧
          ((aclKeys g.acl).contains key = true → ∃ t g', ends out 0 0 t ∧ SMap.find? t.gates gno = some g' ∧ g'.state = 2 ∧ g'.queue = [] ∧
            ∀ r ∈ t.gateReqs, r.gate ≠ gno)) ∧
        (SMap.find? s.gates gno = none →
          ((∃ r ∈ s.gateReqs, r.gate = gno ∧ (aclKeys (reqAcl r.body)).contains key = true) →
            ends out 0 0 { u with gateReqs := s.gateReqs.filter fun r => r.gate != gno }) ∧
          ((∀ r ∈ s.gateReqs, r.gate = gno → (aclKeys (reqAcl r.body)).contains key = false) → ends out 1 0 u))) ∧
    (Takes s fn d false false [(0, 2), (8, 8)] →
      let out := exec (.routeLoad d) s
      let fits (v : Nat) : Prop := fld v 61 36 = 0 ∧
        (v.testBit 63 = true → 1 ≤ fld v 35 32 ∧ fld v 35 32 ≤ 8 ∧ fld v 31 0 < 16 ^ fld v 35 32)
      (s.jobCtxs (op 0 2) = [] → ends out 1 0 u) ∧
      (∀ key rest, s.jobCtxs (op 0 2) = key :: rest →
        let t := s.hostTable (op 8 8) 16384
        ((∃ p ∈ t, ¬ fits p.2) → ends out 1 0 u) ∧
        ((∀ p ∈ t, fits p.2) → ∃ v, ends out 0 0 v ∧
          ∀ i, (SMap.get (v.ctx key).routes 0 i).toNat = SMap.get t 0 i % 2 ^ 64))) ∧
    (Takes s fn d false false [(0, 4), (8, 8)] →
      let out := exec (.groupLoad d) s
      let n := op 3 1
      let m (i : Nat) : Nat := Mem.read s.hostMem (op 8 8 + 2 * i) 2
      (s.jobCtxs (op 0 2) = [] → ends out 1 0 u) ∧
      (∀ key rest, s.jobCtxs (op 0 2) = key :: rest →
        (n = 0 ∨ 64 < n ∨ (∃ i, i < n ∧ 4096 ≤ m i) → ends out 1 0 u) ∧
        (1 ≤ n → n ≤ 64 → (∀ i, i < n → m i < 4096) → ∃ t, ends out 0 0 t ∧
          SMap.find? (t.ctx key).groups (op 2 1) = some ((List.range n).map m)))) ∧
    (Takes s fn d false false [(0, 9)] →
      let out := exec (.jobBind d) s
      let j : JobBind := ⟨op 2 2, op 4 2, op 6 2, op 8 1⟩
      (s.ctxArg d 0 = none → ends out 1 0 u) ∧
      ∀ key, s.ctxArg d 0 = some key →
        let clash : Prop := ∃ c ∈ s.ctxs, ∃ o, c.2.job = some o ∧
          ((c.1 = key ∧ o.job ≠ j.job) ∨ (c.1 ≠ key ∧ (o.job = j.job ∨ o.ports &&& j.ports ≠ 0)))
        (4096 ≤ j.job ∨ 4096 ≤ j.dev ∨ j.tmoMs = 0 ∨ 64 < j.tmoMs → ends out 1 0 u) ∧
        (j.job < 4096 → j.dev < 4096 → 1 ≤ j.tmoMs → j.tmoMs ≤ 64 →
          (clash → ends out 4 0 u) ∧
          (¬ clash → ∃ t, ends out 0 0 t ∧ (t.ctx key).job = some j ∧ (∀ k, k ≠ key → t.ctx k = s.ctx k) ∧
            ((s.ctx key).job = none → (t.ctx key).sent = [] ∧ (t.ctx key).arrived = [] ∧ ∀ x ∈ t.collCount, x.1 / 256 ≠ key))))

/-- Contexts, their moves, and what is read of them (R278, R363, R370, R373, R374, R379, R384, R401, R402, R404, R405): what each command
refuses by its state, and what it does. A stop completes later, when the context is saved. A report is the nonce, the measurements and the
signature over their digest. The operands of a migration, that the contexts of one partition move together within the part, and the
operands of the debugger's access are the model's (assumption logs 55 and 60). -/
def Obligations.context_commands : Prop :=
  ∀ (d : Desc) (s : State) (fn : Nat),
    let u := s.takeDesc fn
    let op := operand d
    let ends (out : Out) (sts v : Nat) (t : State) : Prop := out = .next (t.complete fn d.htag sts v)
    (Takes s fn d true false [(0, 2), (8, 8)] →
      let out := exec (.ctxStart d) s
      (s.ctxArg d 0 = none → ends out 1 0 u) ∧
      ∀ key, s.ctxArg d 0 = some key →
        ((s.ctx key).phase ≠ .created → ends out 4 0 u) ∧
        ((s.ctx key).phase = .created →
          (op 8 8 % 64 ≠ 0 ∨ s.guestNat key (op 8 8) 256 = none → ends out 1 0 u) ∧
          (∀ h, op 8 8 % 64 = 0 → s.guestNat key (op 8 8) 256 = some h →
            (headerOk h = false → ends out 1 0 u) ∧
            (headerOk h = true → ∃ t i, ends out 0 0 t ∧ (t.ctx key).image = some i ∧ i.pblk = fld h 127 64 ∧ i.saveb = fld h 191 128 ∧
              i.s1root = fld h 383 320 ∧ (t.ctx key).evMap ≠ none ∧ ((t.ctx key).phase = .saved 0 ∨ (t.ctx key).phase = .running))))) ∧
    (Takes s fn d true false [(0, 2)] → (s.ctxArg d 0 = none → ends (exec (.ctxStop d) s) 1 0 u ∧ ends (exec (.ctxResume d) s) 1 0 u) ∧
      ∀ key, s.ctxArg d 0 = some key →
      ((s.ctx key).migrating ≠ none → (s.ctx key).migStopped = true → ends (exec (.ctxStop d) s) 4 0 u) ∧
      ((s.ctx key).migrating = none ∨ (s.ctx key).migStopped = false →
        ((s.ctx key).phase = .running ∨ (s.ctx key).phase = .saving 0 → ∃ t, exec (.ctxStop d) s = .next t ∧ (t.ctx key).phase = .saving 1 ∧
          (t.ctx key).stopper = some (d.fn, d.htag)) ∧
        ((s.ctx key).phase = .saved 0 → ∃ t, ends (exec (.ctxStop d) s) 0 0 t ∧ (t.ctx key).phase = .saved 1) ∧
        ((s.ctx key).phase = .created ∨ (s.ctx key).phase = .saved 1 ∨ (s.ctx key).phase = .lost → ends (exec (.ctxStop d) s) 4 0 u)) ∧
      ((s.ctx key).phase = .saved 1 ∨ (s.ctx key).phase = .saved 3 →
        let v := u.updCtx key fun c => { c with phase := .saved 0 }
        (v.restoreReady key = false → ends (exec (.ctxResume d) s) 0 0 v) ∧
        (v.restoreReady key = true → ends (exec (.ctxResume d) s) 0 0 (v.restore key))) ∧
      ((s.ctx key).phase ≠ .saved 1 → (s.ctx key).phase ≠ .saved 3 → ends (exec (.ctxResume d) s) 4 0 u)) ∧
    (Takes s fn d false false [(0, 1)] →
      let f := op 0 1
      (f = 0 ∨ 96 < f → ends (exec (.vfReset d) s) 1 0 u) ∧
      (1 ≤ f → f ≤ 96 → ∃ t, exec (.vfReset d) s = .next t ∧ (t.fnOf f).queue = [] ∧ (t.fnOf f).flr = false ∧
        (t.fnOf 0).done.getLast? = some (d.htag, 0, 0) ∧ ∀ key, s.keysOfFn f = [key] → (t.ctx key).phase = .created)) ∧
    (Takes s fn d false false [(0, 8)] →
      let dest := op 2 6
      (s.ctxArg d 0 = none → ends (exec (.migStart d) s) 1 0 u ∧ ends (exec (.migStop d) s) 1 0 u ∧ ends (exec (.migCommit d) s) 1 0 u) ∧
      ∀ key p, s.ctxArg d 0 = some key → s.partition? key = some p →
      (let out := exec (.migStart d) s
       ((s.ctx key).phase ≠ .running ∧ (∀ o, (s.ctx key).phase ≠ .saving o ∧ (s.ctx key).phase ≠ .saved o) ∨ (s.ctx key).migrating ≠ none →
         ends out 4 0 u) ∧
       ((s.ctx key).phase = .running → (s.ctx key).migrating = none →
         (s.moveTo key dest = none → (4096 ≤ dest ∨ (s.ctx key).job = none) → ends out 1 0 u) ∧
         (s.moveTo key dest ≠ none ∨ (dest < 4096 ∧ (s.ctx key).job ≠ none) → ∃ t, ends out 0 0 t ∧
           (t.ctx key).migrating = some dest ∧ (t.ctx key).phase = .running ∧ t.dram = s.dram ∧ t.cores = s.cores ∧
           (s.moveTo key dest ≠ none → ∀ k c, SMap.find? s.ctxs k = some c → k / 128 = key / 128 → (t.ctx k).migrating = some dest)))) ∧
      (let out := exec (.migStop d) s
       ((s.ctx key).migrating ≠ some dest ∨ (s.ctx key).migStopped = true → ends out 4 0 u) ∧
       ((s.ctx key).migrating = some dest → (s.ctx key).migStopped = false → (s.ctx key).phase = .running →
         (∀ k, s.moveTo key dest ≠ none → SMap.find? s.ctxs k ≠ none → k / 128 = key / 128 → k = key) →
         ∃ t, exec (.migStop d) s = .next t ∧ (t.ctx key).phase = .saving 2 ∧ (t.ctx key).migStopped = true ∧
           (t.ctx key).stopper = some (d.fn, d.htag))) ∧
      (let out := exec (.migCommit d) s
       ((s.ctx key).migrating ≠ some dest ∨ (s.ctx key).migStopped = false ∨ (s.ctx key).phase ≠ .saved 2 → ends out 4 0 u) ∧
       ((s.ctx key).migrating = some dest → (s.ctx key).migStopped = true → (s.ctx key).phase = .saved 2 →
         (s.moveTo key dest ≠ none →
           ((∃ c ∈ s.ctxs, c.1 / 128 = key / 128 ∧ (s.ctx c.1).readyToMove = false) → ends out 4 0 u) ∧
           ((∀ c ∈ s.ctxs, c.1 / 128 = key / 128 → (s.ctx c.1).readyToMove = true) → ∃ t q, ends out 0 0 t ∧
             SMap.find? t.parts (key / 128) = some q ∧ q.gmask = dest ∧ q.fn0 = p.fn0 ∧ q.fn1 = p.fn1 ∧ (t.ctx key).migrating = none ∧
             (t.ctx key).migStopped = false ∧ ((t.ctx key).phase = .saved 0 ∨ (t.ctx key).phase = .running))) ∧
         (s.moveTo key dest = none → 4096 ≤ dest → ends out 3 0 u) ∧
         (s.moveTo key dest = none → dest < 4096 → ∃ t, ends out 0 0 t ∧ SMap.find? t.ctxs key = none)))) ∧
    (Takes s fn d false false [(0, 2), (8, 8)] →
      (s.ctxArg d 0 = none → ends (exec (.cntRead d) s) 1 0 u) ∧
      ∀ key, s.ctxArg d 0 = some key → s.hostMem.wf = true →
        ∃ t, ends (exec (.cntRead d) s) 0 0 t ∧ t.ctxs = s.ctxs ∧
          ∀ i v, (s.ctx key).counters.words[i]? = some v → Mem.read t.hostMem (op 8 8 + 8 * i) 8 = v) ∧
    (Takes s fn d true true [(0, 2), (8, 40)] → s.hostMem.wf = true →
      let out := exec (.attest d) s
      let measured (m3 : List Byte) (t : State) : Prop :=
        let body := leBytes (op 16 32) 32 ++ Sha384.digest Config.rom ++ Sha384.digest s.mgmt.running ++ Sha384.digest s.config ++ m3
        let report := body ++ leBytes (Config.signReport (Sha384.digest body)).toNat 96
        ends out 0 0 t ∧ t.ctxs = s.ctxs ∧ t.dram = s.dram ∧ Mem.readBytes t.hostMem (op 8 8) report.length = report
      (∀ key, s.ctxArg d 0 = some key → ∃ t, measured (Sha384.digest (s.ctx key).measured) t) ∧
      (s.ctxArg d 0 = none → d.fn = 0 → op 0 2 = 0 → ∃ t, measured [] t) ∧
      (s.ctxArg d 0 = none → d.fn ≠ 0 ∨ op 0 2 ≠ 0 → ends out 1 0 u)) ∧
    (Takes s fn d false false [(0, 2)] →
      (s.ctxArg d 0 = none → ends (exec (.dbgAttach d) s) 1 0 u ∧ ends (exec (.dbgDetach d) s) 1 0 u) ∧
      ∀ key, s.ctxArg d 0 = some key →
        ends (exec (.dbgAttach d) s) 0 0 (u.updCtx key fun c => { c with debugger := true }) ∧
        ends (exec (.dbgDetach d) s) 0 0 (u.updCtx key fun c => { c with debugger := false })) ∧
    (Takes s fn d false false [(0, 3), (8, 24)] →
      let out := exec (.dbgMem d) s
      (s.ctxArg d 0 = none → ends out 1 0 u) ∧
      ∀ key, s.ctxArg d 0 = some key →
        ((s.ctx key).debugger = false ∨ (s.ctx key).phase ≠ .saved 3 → ends out 4 0 u) ∧
        ((s.ctx key).debugger = true → (s.ctx key).phase = .saved 3 →
          (1 < op 2 1 → ends out 1 0 u) ∧
          (op 2 1 = 0 → s.guestNat key (op 16 8) (op 24 8) = none → ends out 1 0 u) ∧
          (∀ v, op 2 1 = 0 → s.guestNat key (op 16 8) (op 24 8) = some v → s.hostMem.wf = true →
            ∃ t, ends out 0 0 t ∧ t.dram = s.dram ∧ Mem.read t.hostMem (op 8 8) (op 24 8) = v) ∧
          (op 2 1 = 1 → (∃ i, i < op 24 8 ∧ ∀ pa e, s.walk2 key (op 16 8 + i) = some (pa, e) → e.w = false) → ends out 1 0 u) ∧
          (op 2 1 = 1 → s.dram.wf = true → (∀ i, i < op 24 8 → ∃ pa e, s.walk2 key (op 16 8 + i) = some (pa, e) ∧ e.w = true) →
            ∃ t, ends out 0 0 t ∧ t.hostMem = s.hostMem ∧ (t.ctx key).sealVal = t.sealNow key (t.ctx key).sseq ∧
              ∀ i pa e, i < op 24 8 → s.walk2 key (op 16 8 + i) = some (pa, e) →
                (∀ j pa' e', i < j → j < op 24 8 → s.walk2 key (op 16 8 + j) = some (pa', e') → pa' ≠ pa) →
                Mem.get t.dram pa = Mem.get s.hostMem (op 8 8 + i)))) ∧
    (Takes s fn d false true [(8, 16)] →
      let b := s.hostBytes (op 8 8) (op 16 8)
      (Config.bundleValid b = true → ends (exec (.patchLoad d) s) 0 0 { u with mgmt := { u.mgmt with flash := b } }) ∧
      (Config.bundleValid b = false → ends (exec (.patchLoad d) s) 6 0 u))

/-! ## The whole machine -/

/-- The part after reset (R404, R409): the Common Time Base at 0, ready, with no task, context, partition, packet or booking, and every
byte of memory zero (R316). -/
def Obligations.reset_values : Prop :=
  let s := State.reset
  s.cyc = 0 ∧ s.mgmt.power = .ready ∧ s.cores = [] ∧ s.ctxs = [] ∧ s.parts = [] ∧ s.flights = [] ∧ s.bu.bookings = [] ∧ s.gates = [] ∧
    s.colls = [] ∧ s.outbox = [] ∧ s.agenda = [] ∧ (∀ c a, Mem.get (s.memOf c) a = 0) ∧ s.memOk = true

/-- DRAM, host memory and every scratchpad keep their canonical form in every step. -/
def Obligations.memory_stays_canonical : Prop :=
  ∀ s t : State, s.memOk = true → step s = .next t → t.memOk = true

/-- Decode and encode agree (R41, R43 to R48, R59, R61): the bytes of every well-formed instruction word decode to that instruction, with
whatever bytes follow left over; and a word that decodes is the word of its instruction, which is well-formed. -/
def Obligations.decode_and_encode_agree : Prop :=
  (∀ (i : Instr) (rest : List Byte), i.isWord = true → WellFormed i = true →
    ∃ w, encode i = some w ∧ Dec.bytes (Dec.bytesOf w ++ rest) = .ok (i, rest)) ∧
  (∀ (w : BitVec 80) (i : Instr), Dec.word w = .ok i → i.isWord = true ∧ WellFormed i = true ∧ encode i = some w)

/-- The manual's encoding examples (R41, R59, R61, R64), and words of other formats written out from R41, R43 and R48: a masked vector FMA with
every common field set, a branch two blocks back, the padding word, a scalar add of `a2` and `qi`, a scratch load, a matrix product
and a booking; a word of zeros and one of ones are no encodings. -/
def Obligations.example_words_decode : Prop :=
  decodeTableWord 80 0xA528C840C20104100000 = some (.vfmaF32 ⟨.X, 9, false, 9, 4, 3, 1, 0⟩ ⟨4, 1, 2, 4, 0⟩) ∧
  decodeTableWord 80 0x000000180000FFFFFFFE = some (.br ⟨.C, 0, false, 0, 0, 0, 0, 0⟩ ⟨0, 0, 0xFFFFFFFE⟩) ∧
  decodeTableWord 80 0x00000020000000000000 = some (.nop ⟨.C, 0, false, 0, 0, 0, 0, 0⟩ ⟨0, 0, 0, 0⟩) ∧
  decodeTableWord 80 0x400600002AD6E8000000 = some (.add ⟨.L, 0, false, 0, 3, 0, 0, 0⟩ ⟨85, 86, 116, 0, 0⟩) ∧
  decodeTableWord 80 0x401E005423D5F0400000 = some (.vld ⟨.L, 0, false, 0, 15, 0, 0, 0⟩ ⟨71, 85, 15, 0, 0, 4194304⟩) ∧
  decodeTableWord 80 0x801E0060356B57980000 = some (.mma ⟨.X, 0, false, 0, 15, 0, 0, 0⟩ ⟨1, 85, 86, 87, 9, 1, 0, 0, 0⟩) ∧
  decodeTableWord 80 0x001E00A03A5600000000 = some (.book ⟨.C, 0, false, 0, 15, 0, 0, 0⟩ ⟨116, 86, 0, 0⟩) ∧
  decodeTableWord 80 0 = none ∧ decodeTableWord 80 0xFFFFFFFFFFFFFFFFFFFF = none
end

