-- ==== Sys2Proof/Laws/Dispatch.lean ====
section
/-!
SUPPORT. Which meaning `exec` gives each constructor, one equation an arm, so that no proof unfolds `exec` itself.
-/
namespace Sys2Proof.Machine

@[simp] theorem exec_add (h : Hdr) (o : RRR) (s : State) : exec (.add h o) s = execAdd h o s := rfl
@[simp] theorem exec_sub (h : Hdr) (o : RRR) (s : State) : exec (.sub h o) s = execSub h o s := rfl
@[simp] theorem exec_and (h : Hdr) (o : RRR) (s : State) : exec (.and h o) s = execAnd h o s := rfl
@[simp] theorem exec_or (h : Hdr) (o : RRR) (s : State) : exec (.or h o) s = execOr h o s := rfl
@[simp] theorem exec_xor (h : Hdr) (o : RRR) (s : State) : exec (.xor h o) s = execXor h o s := rfl
@[simp] theorem exec_shl (h : Hdr) (o : RRR) (s : State) : exec (.shl h o) s = execShl h o s := rfl
@[simp] theorem exec_shr (h : Hdr) (o : RRR) (s : State) : exec (.shr h o) s = execShr h o s := rfl
@[simp] theorem exec_sra (h : Hdr) (o : RRR) (s : State) : exec (.sra h o) s = execSra h o s := rfl
@[simp] theorem exec_mul (h : Hdr) (o : RRR) (s : State) : exec (.mul h o) s = execMul h o s := rfl
@[simp] theorem exec_mulh (h : Hdr) (o : RRR) (s : State) : exec (.mulh h o) s = execMulh h o s := rfl
@[simp] theorem exec_mulhu (h : Hdr) (o : RRR) (s : State) : exec (.mulhu h o) s = execMulhu h o s := rfl
@[simp] theorem exec_min (h : Hdr) (o : RRR) (s : State) : exec (.min h o) s = execMin h o s := rfl
@[simp] theorem exec_max (h : Hdr) (o : RRR) (s : State) : exec (.max h o) s = execMax h o s := rfl
@[simp] theorem exec_minu (h : Hdr) (o : RRR) (s : State) : exec (.minu h o) s = execMinu h o s := rfl
@[simp] theorem exec_maxu (h : Hdr) (o : RRR) (s : State) : exec (.maxu h o) s = execMaxu h o s := rfl
@[simp] theorem exec_addi (h : Hdr) (o : RRI) (s : State) : exec (.addi h o) s = execAddi h o s := rfl
@[simp] theorem exec_andi (h : Hdr) (o : RRI) (s : State) : exec (.andi h o) s = execAndi h o s := rfl
@[simp] theorem exec_ori (h : Hdr) (o : RRI) (s : State) : exec (.ori h o) s = execOri h o s := rfl
@[simp] theorem exec_xori (h : Hdr) (o : RRI) (s : State) : exec (.xori h o) s = execXori h o s := rfl
@[simp] theorem exec_shli (h : Hdr) (o : RRI) (s : State) : exec (.shli h o) s = execShli h o s := rfl
@[simp] theorem exec_shri (h : Hdr) (o : RRI) (s : State) : exec (.shri h o) s = execShri h o s := rfl
@[simp] theorem exec_srai (h : Hdr) (o : RRI) (s : State) : exec (.srai h o) s = execSrai h o s := rfl
@[simp] theorem exec_muli (h : Hdr) (o : RRI) (s : State) : exec (.muli h o) s = execMuli h o s := rfl
@[simp] theorem exec_lih (h : Hdr) (o : RRI) (s : State) : exec (.lih h o) s = execLih h o s := rfl
@[simp] theorem exec_extr (h : Hdr) (o : RRI) (s : State) : exec (.extr h o) s = execExtr h o s := rfl
@[simp] theorem exec_extru (h : Hdr) (o : RRI) (s : State) : exec (.extru h o) s = execExtru h o s := rfl
@[simp] theorem exec_ins (h : Hdr) (o : RRI) (s : State) : exec (.ins h o) s = execIns h o s := rfl
@[simp] theorem exec_clz (h : Hdr) (o : RRI) (s : State) : exec (.clz h o) s = execClz h o s := rfl
@[simp] theorem exec_ctz (h : Hdr) (o : RRI) (s : State) : exec (.ctz h o) s = execCtz h o s := rfl
@[simp] theorem exec_popc (h : Hdr) (o : RRI) (s : State) : exec (.popc h o) s = execPopc h o s := rfl
@[simp] theorem exec_brev (h : Hdr) (o : RRI) (s : State) : exec (.brev h o) s = execBrev h o s := rfl
@[simp] theorem exec_cmpEq (h : Hdr) (o : RRR) (s : State) : exec (.cmpEq h o) s = execCmpEq h o s := rfl
@[simp] theorem exec_cmpNe (h : Hdr) (o : RRR) (s : State) : exec (.cmpNe h o) s = execCmpNe h o s := rfl
@[simp] theorem exec_cmpLt (h : Hdr) (o : RRR) (s : State) : exec (.cmpLt h o) s = execCmpLt h o s := rfl
@[simp] theorem exec_cmpLtu (h : Hdr) (o : RRR) (s : State) : exec (.cmpLtu h o) s = execCmpLtu h o s := rfl
@[simp] theorem exec_cmpGe (h : Hdr) (o : RRR) (s : State) : exec (.cmpGe h o) s = execCmpGe h o s := rfl
@[simp] theorem exec_cmpGeu (h : Hdr) (o : RRR) (s : State) : exec (.cmpGeu h o) s = execCmpGeu h o s := rfl
@[simp] theorem exec_cmpiEq (h : Hdr) (o : RRI) (s : State) : exec (.cmpiEq h o) s = execCmpiEq h o s := rfl
@[simp] theorem exec_cmpiNe (h : Hdr) (o : RRI) (s : State) : exec (.cmpiNe h o) s = execCmpiNe h o s := rfl
@[simp] theorem exec_cmpiLt (h : Hdr) (o : RRI) (s : State) : exec (.cmpiLt h o) s = execCmpiLt h o s := rfl
@[simp] theorem exec_cmpiLtu (h : Hdr) (o : RRI) (s : State) : exec (.cmpiLtu h o) s = execCmpiLtu h o s := rfl
@[simp] theorem exec_cmpiGe (h : Hdr) (o : RRI) (s : State) : exec (.cmpiGe h o) s = execCmpiGe h o s := rfl
@[simp] theorem exec_cmpiGeu (h : Hdr) (o : RRI) (s : State) : exec (.cmpiGeu h o) s = execCmpiGeu h o s := rfl
@[simp] theorem exec_pand (h : Hdr) (o : RRR) (s : State) : exec (.pand h o) s = execPand h o s := rfl
@[simp] theorem exec_por (h : Hdr) (o : RRR) (s : State) : exec (.por h o) s = execPor h o s := rfl
@[simp] theorem exec_pxor (h : Hdr) (o : RRR) (s : State) : exec (.pxor h o) s = execPxor h o s := rfl
@[simp] theorem exec_pandn (h : Hdr) (o : RRR) (s : State) : exec (.pandn h o) s = execPandn h o s := rfl
@[simp] theorem exec_pnot (h : Hdr) (o : RRR) (s : State) : exec (.pnot h o) s = execPnot h o s := rfl
@[simp] theorem exec_pmov (h : Hdr) (o : RRR) (s : State) : exec (.pmov h o) s = execPmov h o s := rfl
@[simp] theorem exec_br (h : Hdr) (o : BRA) (s : State) : exec (.br h o) s = execBr h o s := rfl
@[simp] theorem exec_brz (h : Hdr) (o : BRA) (s : State) : exec (.brz h o) s = execBrz h o s := rfl
@[simp] theorem exec_brnz (h : Hdr) (o : BRA) (s : State) : exec (.brnz h o) s = execBrnz h o s := rfl
@[simp] theorem exec_call (h : Hdr) (o : BRA) (s : State) : exec (.call h o) s = execCall h o s := rfl
@[simp] theorem exec_jmpi (h : Hdr) (o : BRA) (s : State) : exec (.jmpi h o) s = execJmpi h o s := rfl
@[simp] theorem exec_calli (h : Hdr) (o : BRA) (s : State) : exec (.calli h o) s = execCalli h o s := rfl
@[simp] theorem exec_loop (h : Hdr) (o : BRA) (s : State) : exec (.loop h o) s = execLoop h o s := rfl
@[simp] theorem exec_brloop (h : Hdr) (o : BRA) (s : State) : exec (.brloop h o) s = execBrloop h o s := rfl
@[simp] theorem exec_spl (h : Hdr) (o : RRI) (s : State) : exec (.spl h o) s = execSpl h o s := rfl
@[simp] theorem exec_fil (h : Hdr) (o : RRI) (s : State) : exec (.fil h o) s = execFil h o s := rfl
@[simp] theorem exec_crr (h : Hdr) (o : RRI) (s : State) : exec (.crr h o) s = execCrr h o s := rfl
@[simp] theorem exec_crw (h : Hdr) (o : RRI) (s : State) : exec (.crw h o) s = execCrw h o s := rfl
@[simp] theorem exec_nop (h : Hdr) (o : SYS) (s : State) : exec (.nop h o) s = execNop h o s := rfl
@[simp] theorem exec_mode (h : Hdr) (o : SYS) (s : State) : exec (.mode h o) s = execMode h o s := rfl
@[simp] theorem exec_ifence (h : Hdr) (o : SYS) (s : State) : exec (.ifence h o) s = execIfence h o s := rfl
@[simp] theorem exec_yield (h : Hdr) (o : SYS) (s : State) : exec (.yield h o) s = execYield h o s := rfl
@[simp] theorem exec_exit (h : Hdr) (o : SYS) (s : State) : exec (.exit h o) s = execExit h o s := rfl
@[simp] theorem exec_trap (h : Hdr) (o : SYS) (s : State) : exec (.trap h o) s = execTrap h o s := rfl
@[simp] theorem exec_tret (h : Hdr) (o : SYS) (s : State) : exec (.tret h o) s = execTret h o s := rfl
@[simp] theorem exec_brk (h : Hdr) (o : SYS) (s : State) : exec (.brk h o) s = execBrk h o s := rfl
@[simp] theorem exec_vaddF32 (h : Hdr) (o : RRR) (s : State) : exec (.vaddF32 h o) s = execVaddF32 h o s := rfl
@[simp] theorem exec_vsubF32 (h : Hdr) (o : RRR) (s : State) : exec (.vsubF32 h o) s = execVsubF32 h o s := rfl
@[simp] theorem exec_vmulF32 (h : Hdr) (o : RRR) (s : State) : exec (.vmulF32 h o) s = execVmulF32 h o s := rfl
@[simp] theorem exec_vfmaF32 (h : Hdr) (o : RRR) (s : State) : exec (.vfmaF32 h o) s = execVfmaF32 h o s := rfl
@[simp] theorem exec_vfmsF32 (h : Hdr) (o : RRR) (s : State) : exec (.vfmsF32 h o) s = execVfmsF32 h o s := rfl
@[simp] theorem exec_vfnmaF32 (h : Hdr) (o : RRR) (s : State) : exec (.vfnmaF32 h o) s = execVfnmaF32 h o s := rfl
@[simp] theorem exec_vminF32 (h : Hdr) (o : RRR) (s : State) : exec (.vminF32 h o) s = execVminF32 h o s := rfl
@[simp] theorem exec_vmaxF32 (h : Hdr) (o : RRR) (s : State) : exec (.vmaxF32 h o) s = execVmaxF32 h o s := rfl
@[simp] theorem exec_vabsF32 (h : Hdr) (o : RRR) (s : State) : exec (.vabsF32 h o) s = execVabsF32 h o s := rfl
@[simp] theorem exec_vnegF32 (h : Hdr) (o : RRR) (s : State) : exec (.vnegF32 h o) s = execVnegF32 h o s := rfl
@[simp] theorem exec_vrcpF32 (h : Hdr) (o : RRR) (s : State) : exec (.vrcpF32 h o) s = execVrcpF32 h o s := rfl
@[simp] theorem exec_vrsqF32 (h : Hdr) (o : RRR) (s : State) : exec (.vrsqF32 h o) s = execVrsqF32 h o s := rfl
@[simp] theorem exec_vexp2F32 (h : Hdr) (o : RRR) (s : State) : exec (.vexp2F32 h o) s = execVexp2F32 h o s := rfl
@[simp] theorem exec_vlog2F32 (h : Hdr) (o : RRR) (s : State) : exec (.vlog2F32 h o) s = execVlog2F32 h o s := rfl
@[simp] theorem exec_vaddH (h : Hdr) (o : RRR) (s : State) : exec (.vaddH h o) s = execVaddH h o s := rfl
@[simp] theorem exec_vsubH (h : Hdr) (o : RRR) (s : State) : exec (.vsubH h o) s = execVsubH h o s := rfl
@[simp] theorem exec_vmulH (h : Hdr) (o : RRR) (s : State) : exec (.vmulH h o) s = execVmulH h o s := rfl
@[simp] theorem exec_vfmaH (h : Hdr) (o : RRR) (s : State) : exec (.vfmaH h o) s = execVfmaH h o s := rfl
@[simp] theorem exec_vminH (h : Hdr) (o : RRR) (s : State) : exec (.vminH h o) s = execVminH h o s := rfl
@[simp] theorem exec_vmaxH (h : Hdr) (o : RRR) (s : State) : exec (.vmaxH h o) s = execVmaxH h o s := rfl
@[simp] theorem exec_vaddI32 (h : Hdr) (o : RRR) (s : State) : exec (.vaddI32 h o) s = execVaddI32 h o s := rfl
@[simp] theorem exec_vsubI32 (h : Hdr) (o : RRR) (s : State) : exec (.vsubI32 h o) s = execVsubI32 h o s := rfl
@[simp] theorem exec_vmulI32 (h : Hdr) (o : RRR) (s : State) : exec (.vmulI32 h o) s = execVmulI32 h o s := rfl
@[simp] theorem exec_vand (h : Hdr) (o : RRR) (s : State) : exec (.vand h o) s = execVand h o s := rfl
@[simp] theorem exec_vor (h : Hdr) (o : RRR) (s : State) : exec (.vor h o) s = execVor h o s := rfl
@[simp] theorem exec_vxor (h : Hdr) (o : RRR) (s : State) : exec (.vxor h o) s = execVxor h o s := rfl
@[simp] theorem exec_vshl (h : Hdr) (o : RRR) (s : State) : exec (.vshl h o) s = execVshl h o s := rfl
@[simp] theorem exec_vshr (h : Hdr) (o : RRR) (s : State) : exec (.vshr h o) s = execVshr h o s := rfl
@[simp] theorem exec_vsra (h : Hdr) (o : RRR) (s : State) : exec (.vsra h o) s = execVsra h o s := rfl
@[simp] theorem exec_vaddss (h : Hdr) (o : RRR) (s : State) : exec (.vaddss h o) s = execVaddss h o s := rfl
@[simp] theorem exec_vsubss (h : Hdr) (o : RRR) (s : State) : exec (.vsubss h o) s = execVsubss h o s := rfl
@[simp] theorem exec_vaddus (h : Hdr) (o : RRR) (s : State) : exec (.vaddus h o) s = execVaddus h o s := rfl
@[simp] theorem exec_vsubus (h : Hdr) (o : RRR) (s : State) : exec (.vsubus h o) s = execVsubus h o s := rfl
@[simp] theorem exec_vminI32 (h : Hdr) (o : RRR) (s : State) : exec (.vminI32 h o) s = execVminI32 h o s := rfl
@[simp] theorem exec_vmaxI32 (h : Hdr) (o : RRR) (s : State) : exec (.vmaxI32 h o) s = execVmaxI32 h o s := rfl
@[simp] theorem exec_vcmpF32 (h : Hdr) (o : RRR) (s : State) : exec (.vcmpF32 h o) s = execVcmpF32 h o s := rfl
@[simp] theorem exec_vcmpI32 (h : Hdr) (o : RRR) (s : State) : exec (.vcmpI32 h o) s = execVcmpI32 h o s := rfl
@[simp] theorem exec_vcmpuI32 (h : Hdr) (o : RRR) (s : State) : exec (.vcmpuI32 h o) s = execVcmpuI32 h o s := rfl
@[simp] theorem exec_mand (h : Hdr) (o : RRR) (s : State) : exec (.mand h o) s = execMand h o s := rfl
@[simp] theorem exec_mor (h : Hdr) (o : RRR) (s : State) : exec (.mor h o) s = execMor h o s := rfl
@[simp] theorem exec_mxor (h : Hdr) (o : RRR) (s : State) : exec (.mxor h o) s = execMxor h o s := rfl
@[simp] theorem exec_mnot (h : Hdr) (o : RRR) (s : State) : exec (.mnot h o) s = execMnot h o s := rfl
@[simp] theorem exec_mandn (h : Hdr) (o : RRR) (s : State) : exec (.mandn h o) s = execMandn h o s := rfl
@[simp] theorem exec_mpop (h : Hdr) (o : RRR) (s : State) : exec (.mpop h o) s = execMpop h o s := rfl
@[simp] theorem exec_mmov (h : Hdr) (o : RRR) (s : State) : exec (.mmov h o) s = execMmov h o s := rfl
@[simp] theorem exec_vcvtNf (h : Hdr) (o : RRR) (s : State) : exec (.vcvtNf h o) s = execVcvtNf h o s := rfl
@[simp] theorem exec_vcvtFn (h : Hdr) (o : RRR) (s : State) : exec (.vcvtFn h o) s = execVcvtFn h o s := rfl
@[simp] theorem exec_vcvtF32I32 (h : Hdr) (o : RRR) (s : State) : exec (.vcvtF32I32 h o) s = execVcvtF32I32 h o s := rfl
@[simp] theorem exec_vcvtI32F32 (h : Hdr) (o : RRR) (s : State) : exec (.vcvtI32F32 h o) s = execVcvtI32F32 h o s := rfl
@[simp] theorem exec_vcvtHF32 (h : Hdr) (o : RRR) (s : State) : exec (.vcvtHF32 h o) s = execVcvtHF32 h o s := rfl
@[simp] theorem exec_vcvtF32H (h : Hdr) (o : RRR) (s : State) : exec (.vcvtF32H h o) s = execVcvtF32H h o s := rfl
@[simp] theorem exec_vperm (h : Hdr) (o : RRR) (s : State) : exec (.vperm h o) s = execVperm h o s := rfl
@[simp] theorem exec_vpermRot (h : Hdr) (o : RRR) (s : State) : exec (.vpermRot h o) s = execVpermRot h o s := rfl
@[simp] theorem exec_vbcast (h : Hdr) (o : RRR) (s : State) : exec (.vbcast h o) s = execVbcast h o s := rfl
@[simp] theorem exec_vsel (h : Hdr) (o : RRR) (s : State) : exec (.vsel h o) s = execVsel h o s := rfl
@[simp] theorem exec_vext (h : Hdr) (o : RRR) (s : State) : exec (.vext h o) s = execVext h o s := rfl
@[simp] theorem exec_vins (h : Hdr) (o : RRR) (s : State) : exec (.vins h o) s = execVins h o s := rfl
@[simp] theorem exec_vredAdd (h : Hdr) (o : RRR) (s : State) : exec (.vredAdd h o) s = execVredAdd h o s := rfl
@[simp] theorem exec_vredMin (h : Hdr) (o : RRR) (s : State) : exec (.vredMin h o) s = execVredMin h o s := rfl
@[simp] theorem exec_vredMax (h : Hdr) (o : RRR) (s : State) : exec (.vredMax h o) s = execVredMax h o s := rfl
@[simp] theorem exec_vld (h : Hdr) (o : MEM) (s : State) : exec (.vld h o) s = execVld h o s := rfl
@[simp] theorem exec_vlds (h : Hdr) (o : MEMX) (s : State) : exec (.vlds h o) s = execVlds h o s := rfl
@[simp] theorem exec_vldg (h : Hdr) (o : MEMX) (s : State) : exec (.vldg h o) s = execVldg h o s := rfl
@[simp] theorem exec_vldb (h : Hdr) (o : MEM) (s : State) : exec (.vldb h o) s = execVldb h o s := rfl
@[simp] theorem exec_vgld (h : Hdr) (o : MEM) (s : State) : exec (.vgld h o) s = execVgld h o s := rfl
@[simp] theorem exec_vglds (h : Hdr) (o : MEMX) (s : State) : exec (.vglds h o) s = execVglds h o s := rfl
@[simp] theorem exec_vgldg (h : Hdr) (o : MEMX) (s : State) : exec (.vgldg h o) s = execVgldg h o s := rfl
@[simp] theorem exec_mld (h : Hdr) (o : MEM) (s : State) : exec (.mld h o) s = execMld h o s := rfl
@[simp] theorem exec_vst (h : Hdr) (o : MEM) (s : State) : exec (.vst h o) s = execVst h o s := rfl
@[simp] theorem exec_vsts (h : Hdr) (o : MEMX) (s : State) : exec (.vsts h o) s = execVsts h o s := rfl
@[simp] theorem exec_vsct (h : Hdr) (o : MEMX) (s : State) : exec (.vsct h o) s = execVsct h o s := rfl
@[simp] theorem exec_vstCnt (h : Hdr) (o : MEM) (s : State) : exec (.vstCnt h o) s = execVstCnt h o s := rfl
@[simp] theorem exec_vstm (h : Hdr) (o : MEMX) (s : State) : exec (.vstm h o) s = execVstm h o s := rfl
@[simp] theorem exec_vgst (h : Hdr) (o : MEM) (s : State) : exec (.vgst h o) s = execVgst h o s := rfl
@[simp] theorem exec_vgsts (h : Hdr) (o : MEMX) (s : State) : exec (.vgsts h o) s = execVgsts h o s := rfl
@[simp] theorem exec_vgsct (h : Hdr) (o : MEMX) (s : State) : exec (.vgsct h o) s = execVgsct h o s := rfl
@[simp] theorem exec_mst (h : Hdr) (o : MEM) (s : State) : exec (.mst h o) s = execMst h o s := rfl
@[simp] theorem exec_mma (h : Hdr) (o : MXC) (s : State) : exec (.mma h o) s = execMma h o s := rfl
@[simp] theorem exec_mmas (h : Hdr) (o : MXC) (s : State) : exec (.mmas h o) s = execMmas h o s := rfl
@[simp] theorem exec_mzero (h : Hdr) (o : MXC) (s : State) : exec (.mzero h o) s = execMzero h o s := rfl
@[simp] theorem exec_mdrn (h : Hdr) (o : MXC) (s : State) : exec (.mdrn h o) s = execMdrn h o s := rfl
@[simp] theorem exec_mldacc (h : Hdr) (o : MXC) (s : State) : exec (.mldacc h o) s = execMldacc h o s := rfl
@[simp] theorem exec_mscale (h : Hdr) (o : MXC) (s : State) : exec (.mscale h o) s = execMscale h o s := rfl
@[simp] theorem exec_mxpose (h : Hdr) (o : MXC) (s : State) : exec (.mxpose h o) s = execMxpose h o s := rfl
@[simp] theorem exec_mfmt (h : Hdr) (o : MXC) (s : State) : exec (.mfmt h o) s = execMfmt h o s := rfl
@[simp] theorem exec_mwait (h : Hdr) (o : MXC) (s : State) : exec (.mwait h o) s = execMwait h o s := rfl
@[simp] theorem exec_matrixCommandStart (core : Nat) (s : State) : exec (.matrixCommandStart core) s = execMatrixCommandStart core s := rfl
@[simp] theorem exec_matrixCommandComplete (core idx : Nat) (s : State) : exec (.matrixCommandComplete core idx) s = execMatrixCommandComplete core idx s := rfl
@[simp] theorem exec_ld (h : Hdr) (o : MEM) (s : State) : exec (.ld h o) s = execLd h o s := rfl
@[simp] theorem exec_lds (h : Hdr) (o : MEM) (s : State) : exec (.lds h o) s = execLds h o s := rfl
@[simp] theorem exec_st (h : Hdr) (o : MEM) (s : State) : exec (.st h o) s = execSt h o s := rfl
@[simp] theorem exec_ldAcq (h : Hdr) (o : MEM) (s : State) : exec (.ldAcq h o) s = execLdAcq h o s := rfl
@[simp] theorem exec_ldsAcq (h : Hdr) (o : MEM) (s : State) : exec (.ldsAcq h o) s = execLdsAcq h o s := rfl
@[simp] theorem exec_stRel (h : Hdr) (o : MEM) (s : State) : exec (.stRel h o) s = execStRel h o s := rfl
@[simp] theorem exec_aadd (h : Hdr) (o : MEMX) (s : State) : exec (.aadd h o) s = execAadd h o s := rfl
@[simp] theorem exec_aand (h : Hdr) (o : MEMX) (s : State) : exec (.aand h o) s = execAand h o s := rfl
@[simp] theorem exec_aor (h : Hdr) (o : MEMX) (s : State) : exec (.aor h o) s = execAor h o s := rfl
@[simp] theorem exec_axor (h : Hdr) (o : MEMX) (s : State) : exec (.axor h o) s = execAxor h o s := rfl
@[simp] theorem exec_amin (h : Hdr) (o : MEMX) (s : State) : exec (.amin h o) s = execAmin h o s := rfl
@[simp] theorem exec_amax (h : Hdr) (o : MEMX) (s : State) : exec (.amax h o) s = execAmax h o s := rfl
@[simp] theorem exec_aminu (h : Hdr) (o : MEMX) (s : State) : exec (.aminu h o) s = execAminu h o s := rfl
@[simp] theorem exec_amaxu (h : Hdr) (o : MEMX) (s : State) : exec (.amaxu h o) s = execAmaxu h o s := rfl
@[simp] theorem exec_aswp (h : Hdr) (o : MEMX) (s : State) : exec (.aswp h o) s = execAswp h o s := rfl
@[simp] theorem exec_acas (h : Hdr) (o : MEMX) (s : State) : exec (.acas h o) s = execAcas h o s := rfl
@[simp] theorem exec_aaddF32 (h : Hdr) (o : MEMX) (s : State) : exec (.aaddF32 h o) s = execAaddF32 h o s := rfl
@[simp] theorem exec_sdreq (id : Nat) (s : State) : exec (.sdreq id) s = execSdreq id s := rfl
@[simp] theorem exec_root (id : Nat) (s : State) : exec (.root id) s = execRoot id s := rfl
@[simp] theorem exec_shootdownComplete (part fn : Nat) (s : State) : exec (.shootdownComplete part fn) s = execShootdownComplete part fn s := rfl
@[simp] theorem exec_fence (h : Hdr) (o : SYS) (s : State) : exec (.fence h o) s = execFence h o s := rfl
@[simp] theorem exec_fenceAck (h : Hdr) (o : SYS) (s : State) : exec (.fenceAck h o) s = execFenceAck h o s := rfl
@[simp] theorem exec_fenceAckTimeout (id : Nat) (s : State) : exec (.fenceAckTimeout id) s = execFenceAckTimeout id s := rfl
@[simp] theorem exec_barinit (h : Hdr) (o : SYS) (s : State) : exec (.barinit h o) s = execBarinit h o s := rfl
@[simp] theorem exec_barwait (h : Hdr) (o : SYS) (s : State) : exec (.barwait h o) s = execBarwait h o s := rfl
@[simp] theorem exec_barwaitNw (h : Hdr) (o : SYS) (s : State) : exec (.barwaitNw h o) s = execBarwaitNw h o s := rfl
@[simp] theorem exec_barwaitNa (h : Hdr) (o : SYS) (s : State) : exec (.barwaitNa h o) s = execBarwaitNa h o s := rfl
@[simp] theorem exec_barfree (h : Hdr) (o : SYS) (s : State) : exec (.barfree h o) s = execBarfree h o s := rfl
@[simp] theorem exec_lwin (h : Hdr) (o : SYS) (s : State) : exec (.lwin h o) s = execLwin h o s := rfl
@[simp] theorem exec_lwclose (h : Hdr) (o : SYS) (s : State) : exec (.lwclose h o) s = execLwclose h o s := rfl
@[simp] theorem exec_lwwait (h : Hdr) (o : SYS) (s : State) : exec (.lwwait h o) s = execLwwait h o s := rfl
@[simp] theorem exec_lwwaitTimeout (core slot : Nat) (s : State) : exec (.lwwaitTimeout core slot) s = execLwwaitTimeout core slot s := rfl
@[simp] theorem exec_lwpoll (h : Hdr) (o : SYS) (s : State) : exec (.lwpoll h o) s = execLwpoll h o s := rfl
@[simp] theorem exec_countedWriteArrival (w : CWrite) (s : State) : exec (.countedWriteArrival w) s = execCountedWriteArrival w s := rfl
@[simp] theorem exec_fld (h : Hdr) (o : MEMX) (s : State) : exec (.fld h o) s = execFld h o s := rfl
@[simp] theorem exec_fldTimeout (tag : Nat) (s : State) : exec (.fldTimeout tag) s = execFldTimeout tag s := rfl
@[simp] theorem exec_fst (h : Hdr) (o : MEMX) (s : State) : exec (.fst h o) s = execFst h o s := rfl
@[simp] theorem exec_fstOrd (h : Hdr) (o : MEMX) (s : State) : exec (.fstOrd h o) s = execFstOrd h o s := rfl
@[simp] theorem exec_fatom (h : Hdr) (o : MEMX) (s : State) : exec (.fatom h o) s = execFatom h o s := rfl
@[simp] theorem exec_fatomTimeout (tag : Nat) (s : State) : exec (.fatomTimeout tag) s = execFatomTimeout tag s := rfl
@[simp] theorem exec_fldx (h : Hdr) (o : SYS) (s : State) : exec (.fldx h o) s = execFldx h o s := rfl
@[simp] theorem exec_fldxT (h : Hdr) (o : SYS) (s : State) : exec (.fldxT h o) s = execFldxT h o s := rfl
@[simp] theorem exec_fldxTimeout (tag : Nat) (s : State) : exec (.fldxTimeout tag) s = execFldxTimeout tag s := rfl
@[simp] theorem exec_gsig (h : Hdr) (o : SYS) (s : State) : exec (.gsig h o) s = execGsig h o s := rfl
@[simp] theorem exec_gwait (h : Hdr) (o : SYS) (s : State) : exec (.gwait h o) s = execGwait h o s := rfl
@[simp] theorem exec_gpoll (h : Hdr) (o : SYS) (s : State) : exec (.gpoll h o) s = execGpoll h o s := rfl
@[simp] theorem exec_gateRefill (gate : Nat) (s : State) : exec (.gateRefill gate) s = execGateRefill gate s := rfl
@[simp] theorem exec_book (h : Hdr) (o : SYS) (s : State) : exec (.book h o) s = execBook h o s := rfl
@[simp] theorem exec_bkqry (h : Hdr) (o : SYS) (s : State) : exec (.bkqry h o) s = execBkqry h o s := rfl
@[simp] theorem exec_bkcan (h : Hdr) (o : SYS) (s : State) : exec (.bkcan h o) s = execBkcan h o s := rfl
@[simp] theorem exec_bkrel (h : Hdr) (o : SYS) (s : State) : exec (.bkrel h o) s = execBkrel h o s := rfl
@[simp] theorem exec_cpost (h : Hdr) (o : SYS) (s : State) : exec (.cpost h o) s = execCpost h o s := rfl
@[simp] theorem exec_coll (h : Hdr) (o : SYS) (s : State) : exec (.coll h o) s = execColl h o s := rfl
@[simp] theorem exec_topb (h : Hdr) (o : SYS) (s : State) : exec (.topb h o) s = execTopb h o s := rfl
@[simp] theorem exec_dqpush (h : Hdr) (o : SYS) (s : State) : exec (.dqpush h o) s = execDqpush h o s := rfl
@[simp] theorem exec_dqpop (h : Hdr) (o : SYS) (s : State) : exec (.dqpop h o) s = execDqpop h o s := rfl
@[simp] theorem exec_dqsteal (h : Hdr) (o : SYS) (s : State) : exec (.dqsteal h o) s = execDqsteal h o s := rfl
@[simp] theorem exec_htsset (h : Hdr) (o : SYS) (s : State) : exec (.htsset h o) s = execHtsset h o s := rfl
@[simp] theorem exec_htsdec (h : Hdr) (o : SYS) (s : State) : exec (.htsdec h o) s = execHtsdec h o s := rfl
@[simp] theorem exec_heldDequePush (cluster : Nat) (s : State) : exec (.heldDequePush cluster) s = execHeldDequePush cluster s := rfl
@[simp] theorem exec_qmap (h : Hdr) (o : SYS) (s : State) : exec (.qmap h o) s = execQmap h o s := rfl
@[simp] theorem exec_qunmap (h : Hdr) (o : SYS) (s : State) : exec (.qunmap h o) s = execQunmap h o s := rfl
@[simp] theorem exec_queueNotify (part fn : Nat) (qaddr : BitVec 64) (s : State) : exec (.queueNotify part fn qaddr) s = execQueueNotify part fn qaddr s := rfl
@[simp] theorem exec_resultLanding (id : Nat) (s : State) : exec (.resultLanding id) s = execResultLanding id s := rfl
@[simp] theorem exec_storePerform (id : Nat) (s : State) : exec (.storePerform id) s = execStorePerform id s := rfl
@[simp] theorem exec_trapEntry (core : Nat) (s : State) : exec (.trapEntry core) s = execTrapEntry core s := rfl
@[simp] theorem exec_taskEndByFault (core slot : Nat) (s : State) : exec (.taskEndByFault core slot) s = execTaskEndByFault core slot s := rfl
@[simp] theorem exec_bookingDue (core slot : Nat) (s : State) : exec (.bookingDue core slot) s = execBookingDue core slot s := rfl
@[simp] theorem exec_sliceEnd (part fn occasion : Nat) (s : State) : exec (.sliceEnd part fn occasion) s = execSliceEnd part fn occasion s := rfl
@[simp] theorem exec_forcedSave (core : Nat) (s : State) : exec (.forcedSave core) s = execForcedSave core s := rfl
@[simp] theorem exec_contextSave (part fn : Nat) (s : State) : exec (.contextSave part fn) s = execContextSave part fn s := rfl
@[simp] theorem exec_contextRestore (part fn : Nat) (s : State) : exec (.contextRestore part fn) s = execContextRestore part fn s := rfl
@[simp] theorem exec_prefetchStart (core : Nat) (s : State) : exec (.prefetchStart core) s = execPrefetchStart core s := rfl
@[simp] theorem exec_prefetchComplete (core : Nat) (s : State) : exec (.prefetchComplete core) s = execPrefetchComplete core s := rfl
@[simp] theorem exec_leasePendingTimeout (core : Nat) (s : State) : exec (.leasePendingTimeout core) s = execLeasePendingTimeout core s := rfl
@[simp] theorem exec_taskActivate (core : Nat) (s : State) : exec (.taskActivate core) s = execTaskActivate core s := rfl
@[simp] theorem exec_taskWake (core slot : Nat) (s : State) : exec (.taskWake core slot) s = execTaskWake core slot s := rfl
@[simp] theorem exec_priorityAging (core slot : Nat) (s : State) : exec (.priorityAging core slot) s = execPriorityAging core slot s := rfl
@[simp] theorem exec_autoSteal (core : Nat) (s : State) : exec (.autoSteal core) s = execAutoSteal core s := rfl
@[simp] theorem exec_bookingDecide (s : State) : exec (.bookingDecide) s = execBookingDecide s := rfl
@[simp] theorem exec_bookingRequestAging (seq : Nat) (s : State) : exec (.bookingRequestAging seq) s = execBookingRequestAging seq s := rfl
@[simp] theorem exec_slotBoundary (s : State) : exec (.slotBoundary) s = execSlotBoundary s := rfl
@[simp] theorem exec_bookHold (m : BookMsg) (s : State) : exec (.bookHold m) s = execBookHold m s := rfl
@[simp] theorem exec_bookHoldReply (m : BookMsg) (s : State) : exec (.bookHoldReply m) s = execBookHoldReply m s := rfl
@[simp] theorem exec_bookReplyTimeout (handle : BitVec 32) (s : State) : exec (.bookReplyTimeout handle) s = execBookReplyTimeout handle s := rfl
@[simp] theorem exec_bookCommit (m : BookMsg) (s : State) : exec (.bookCommit m) s = execBookCommit m s := rfl
@[simp] theorem exec_bookRelease (m : BookMsg) (s : State) : exec (.bookRelease m) s = execBookRelease m s := rfl
@[simp] theorem exec_bookHoldLeaseExpiry (dev : Nat) (handle : BitVec 32) (stage : Nat) (s : State) : exec (.bookHoldLeaseExpiry dev handle stage) s = execBookHoldLeaseExpiry dev handle stage s := rfl
@[simp] theorem exec_bookEndReport (m : BookMsg) (s : State) : exec (.bookEndReport m) s = execBookEndReport m s := rfl
@[simp] theorem exec_copyPacketStart (serial : Nat) (s : State) : exec (.copyPacketStart serial) s = execCopyPacketStart serial s := rfl
@[simp] theorem exec_copyPacketComplete (serial : Nat) (s : State) : exec (.copyPacketComplete serial) s = execCopyPacketComplete serial s := rfl
@[simp] theorem exec_collectiveStepStart (tag step : Nat) (s : State) : exec (.collectiveStepStart tag step) s = execCollectiveStepStart tag step s := rfl
@[simp] theorem exec_collectiveComplete (tag : Nat) (s : State) : exec (.collectiveComplete tag) s = execCollectiveComplete tag s := rfl
@[simp] theorem exec_collectiveTimeout (tag : Nat) (s : State) : exec (.collectiveTimeout tag) s = execCollectiveTimeout tag s := rfl
@[simp] theorem exec_collectiveFailureDetect (tag member : Nat) (s : State) : exec (.collectiveFailureDetect tag member) s = execCollectiveFailureDetect tag member s := rfl
@[simp] theorem exec_read (p : Pkt) (s : State) : exec (.read p) s = execRead p s := rfl
@[simp] theorem exec_rdata (p : Pkt) (s : State) : exec (.rdata p) s = execRdata p s := rfl
@[simp] theorem exec_write (p : Pkt) (s : State) : exec (.write p) s = execWrite p s := rfl
@[simp] theorem exec_wrord (p : Pkt) (s : State) : exec (.wrord p) s = execWrord p s := rfl
@[simp] theorem exec_orderedStoreRelease (idx : Nat) (s : State) : exec (.orderedStoreRelease idx) s = execOrderedStoreRelease idx s := rfl
@[simp] theorem exec_orderedStoreTimeout (idx : Nat) (s : State) : exec (.orderedStoreTimeout idx) s = execOrderedStoreTimeout idx s := rfl
@[simp] theorem exec_atom (p : Pkt) (s : State) : exec (.atom p) s = execAtom p s := rfl
@[simp] theorem exec_arply (p : Pkt) (s : State) : exec (.arply p) s = execArply p s := rfl
@[simp] theorem exec_ack (p : Pkt) (s : State) : exec (.ack p) s = execAck p s := rfl
@[simp] theorem exec_nack (p : Pkt) (s : State) : exec (.nack p) s = execNack p s := rfl
@[simp] theorem exec_xreq (p : Pkt) (s : State) : exec (.xreq p) s = execXreq p s := rfl
@[simp] theorem exec_xdata (p : Pkt) (s : State) : exec (.xdata p) s = execXdata p s := rfl
@[simp] theorem exec_xack (p : Pkt) (s : State) : exec (.xack p) s = execXack p s := rfl
@[simp] theorem exec_xflt (p : Pkt) (s : State) : exec (.xflt p) s = execXflt p s := rfl
@[simp] theorem exec_xabt (p : Pkt) (s : State) : exec (.xabt p) s = execXabt p s := rfl
@[simp] theorem exec_beacon (p : Pkt) (s : State) : exec (.beacon p) s = execBeacon p s := rfl
@[simp] theorem exec_beaconSend (s : State) : exec (.beaconSend) s = execBeaconSend s := rfl
@[simp] theorem exec_beaconLoss (s : State) : exec (.beaconLoss) s = execBeaconLoss s := rfl
@[simp] theorem exec_ldown (p : Pkt) (s : State) : exec (.ldown p) s = execLdown p s := rfl
@[simp] theorem exec_packetForward (p : Pkt) (s : State) : exec (.packetForward p) s = execPacketForward p s := rfl
@[simp] theorem exec_cdata (p : Pkt) (s : State) : exec (.cdata p) s = execCdata p s := rfl
@[simp] theorem exec_cack (p : Pkt) (s : State) : exec (.cack p) s = execCack p s := rfl
@[simp] theorem exec_cctlHeld (p : Pkt) (s : State) : exec (.cctlHeld p) s = execCctlHeld p s := rfl
@[simp] theorem exec_cctlWithdraw (p : Pkt) (s : State) : exec (.cctlWithdraw p) s = execCctlWithdraw p s := rfl
@[simp] theorem exec_cctlFlush (p : Pkt) (s : State) : exec (.cctlFlush p) s = execCctlFlush p s := rfl
@[simp] theorem exec_cctlLate (p : Pkt) (s : State) : exec (.cctlLate p) s = execCctlLate p s := rfl
@[simp] theorem exec_cctlNofit (p : Pkt) (s : State) : exec (.cctlNofit p) s = execCctlNofit p s := rfl
@[simp] theorem exec_cctlDigestMismatch (p : Pkt) (s : State) : exec (.cctlDigestMismatch p) s = execCctlDigestMismatch p s := rfl
@[simp] theorem exec_cctlRedo (p : Pkt) (s : State) : exec (.cctlRedo p) s = execCctlRedo p s := rfl
@[simp] theorem exec_cdig (p : Pkt) (s : State) : exec (.cdig p) s = execCdig p s := rfl
@[simp] theorem exec_scrub (u : ScrubUnit) (s : State) : exec (.scrub u) s = execScrub u s := rfl
@[simp] theorem exec_frameRetire (frame : Nat) (s : State) : exec (.frameRetire frame) s = execFrameRetire frame s := rfl
@[simp] theorem exec_energyReconcile (rail platform : Nat) (s : State) : exec (.energyReconcile rail platform) s = execEnergyReconcile rail platform s := rfl
@[simp] theorem exec_powerCapLimit (limit : Nat) (s : State) : exec (.powerCapLimit limit) s = execPowerCapLimit limit s := rfl
@[simp] theorem exec_powerCapLift (s : State) : exec (.powerCapLift) s = execPowerCapLift s := rfl
@[simp] theorem exec_thermalWarning (die : Nat) (s : State) : exec (.thermalWarning die) s = execThermalWarning die s := rfl
@[simp] theorem exec_thermalTrip (die : Nat) (s : State) : exec (.thermalTrip die) s = execThermalTrip die s := rfl
@[simp] theorem exec_coolantAlarm (s : State) : exec (.coolantAlarm) s = execCoolantAlarm s := rfl
@[simp] theorem exec_machineCheck (m : McScope) (s : State) : exec (.machineCheck m) s = execMachineCheck m s := rfl
@[simp] theorem exec_powerOn (s : State) : exec (.powerOn) s = execPowerOn s := rfl
@[simp] theorem exec_d3hotEntry (fn : Nat) (s : State) : exec (.d3hotEntry fn) s = execD3hotEntry fn s := rfl
@[simp] theorem exec_functionLevelReset (fn : Nat) (s : State) : exec (.functionLevelReset fn) s = execFunctionLevelReset fn s := rfl
@[simp] theorem exec_hostBar2Read (fn : Nat) (ga : BitVec 64) (n : Nat) (s : State) : exec (.hostBar2Read fn ga n) s = execHostBar2Read fn ga n s := rfl
@[simp] theorem exec_hostBar2Write (fn : Nat) (ga : BitVec 64) (bytes : List (BitVec 8)) (s : State) : exec (.hostBar2Write fn ga bytes) s = execHostBar2Write fn ga bytes s := rfl
@[simp] theorem exec_hostAtomicOp (fn : Nat) (ga : BitVec 64) (op : HostOp) (s : State) : exec (.hostAtomicOp fn ga op) s = execHostAtomicOp fn ga op s := rfl
@[simp] theorem exec_cqtail (fn : Nat) (tail : BitVec 64) (ds : List Desc) (s : State) : exec (.cqtail fn tail ds) s = execCqtail fn tail ds s := rfl
@[simp] theorem exec_evhead (fn : Nat) (head : BitVec 64) (s : State) : exec (.evhead fn head) s = execEvhead fn head s := rfl
@[simp] theorem exec_partCreate (d : Desc) (s : State) : exec (.partCreate d) s = execPartCreate d s := rfl
@[simp] theorem exec_partDestroy (d : Desc) (s : State) : exec (.partDestroy d) s = execPartDestroy d s := rfl
@[simp] theorem exec_granMove (d : Desc) (s : State) : exec (.granMove d) s = execGranMove d s := rfl
@[simp] theorem exec_arbWeight (d : Desc) (s : State) : exec (.arbWeight d) s = execArbWeight d s := rfl
@[simp] theorem exec_imageLoad (d : Desc) (s : State) : exec (.imageLoad d) s = execImageLoad d s := rfl
@[simp] theorem exec_ctxStart (d : Desc) (s : State) : exec (.ctxStart d) s = execCtxStart d s := rfl
@[simp] theorem exec_ctxStop (d : Desc) (s : State) : exec (.ctxStop d) s = execCtxStop d s := rfl
@[simp] theorem exec_ctxResume (d : Desc) (s : State) : exec (.ctxResume d) s = execCtxResume d s := rfl
@[simp] theorem exec_vfReset (d : Desc) (s : State) : exec (.vfReset d) s = execVfReset d s := rfl
@[simp] theorem exec_gateReq (d : Desc) (s : State) : exec (.gateReq d) s = execGateReq d s := rfl
@[simp] theorem exec_gateClose (d : Desc) (s : State) : exec (.gateClose d) s = execGateClose d s := rfl
@[simp] theorem exec_routeLoad (d : Desc) (s : State) : exec (.routeLoad d) s = execRouteLoad d s := rfl
@[simp] theorem exec_groupLoad (d : Desc) (s : State) : exec (.groupLoad d) s = execGroupLoad d s := rfl
@[simp] theorem exec_jobBind (d : Desc) (s : State) : exec (.jobBind d) s = execJobBind d s := rfl
@[simp] theorem exec_migStart (d : Desc) (s : State) : exec (.migStart d) s = execMigStart d s := rfl
@[simp] theorem exec_migStop (d : Desc) (s : State) : exec (.migStop d) s = execMigStop d s := rfl
@[simp] theorem exec_migCommit (d : Desc) (s : State) : exec (.migCommit d) s = execMigCommit d s := rfl
@[simp] theorem exec_cntRead (d : Desc) (s : State) : exec (.cntRead d) s = execCntRead d s := rfl
@[simp] theorem exec_attest (d : Desc) (s : State) : exec (.attest d) s = execAttest d s := rfl
@[simp] theorem exec_dbgAttach (d : Desc) (s : State) : exec (.dbgAttach d) s = execDbgAttach d s := rfl
@[simp] theorem exec_dbgMem (d : Desc) (s : State) : exec (.dbgMem d) s = execDbgMem d s := rfl
@[simp] theorem exec_dbgDetach (d : Desc) (s : State) : exec (.dbgDetach d) s = execDbgDetach d s := rfl
@[simp] theorem exec_patchLoad (d : Desc) (s : State) : exec (.patchLoad d) s = execPatchLoad d s := rfl
@[simp] theorem exec_fjarlosSensorRead (s : State) : exec (.fjarlosSensorRead) s = execFjarlosSensorRead s := rfl
@[simp] theorem exec_fjarlosPowerCapSet (watts : Nat) (s : State) : exec (.fjarlosPowerCapSet watts) s = execFjarlosPowerCapSet watts s := rfl
@[simp] theorem exec_fjarlosFirmwareUpdate (bundle : List (BitVec 8)) (s : State) : exec (.fjarlosFirmwareUpdate bundle) s = execFjarlosFirmwareUpdate bundle s := rfl
@[simp] theorem exec_fjarlosCounterRead (part fn : Nat) (s : State) : exec (.fjarlosCounterRead part fn) s = execFjarlosCounterRead part fn s := rfl
@[simp] theorem exec_linkFailure (port : Nat) (s : State) : exec (.linkFailure port) s = execLinkFailure port s := rfl
@[simp] theorem exec_linkTraining (port latency : Nat) (s : State) : exec (.linkTraining port latency) s = execLinkTraining port latency s := rfl
@[simp] theorem exec_powerLoss (s : State) : exec (.powerLoss) s = execPowerLoss s := rfl
@[simp] theorem exec_packageReset (s : State) : exec (.packageReset) s = execPackageReset s := rfl

end Sys2Proof.Machine
end

