-- ==== Sys2Proof/Laws/Encode.lean ====
section
/-!
SUPPORT. Packing and unpacking of instruction words: every field of R41 and R43 read back from a packed word, a word rebuilt from
its fields, and the ten stored bytes of a word.
-/
namespace Sys2Proof
open Dec

/-- Reading above the low part of an append. -/
theorem extract_append_hi {m n : Nat} (x : BitVec m) (y : BitVec n) (s l : Nat) (h : n ≤ s) :
    (x ++ y).extractLsb' s l = x.extractLsb' (s - n) l := by
  apply BitVec.eq_of_getLsbD_eq
  intro i hi
  have h1 : ¬ s + i < n := by omega
  have h2 : s - n + i = s + i - n := by omega
  simp [BitVec.getLsbD_extractLsb', BitVec.getLsbD_append, h1, h2]

/-- Reading inside the low part of an append. -/
theorem extract_append_lo {m n : Nat} (x : BitVec m) (y : BitVec n) (s l : Nat) (h : s + l ≤ n) :
    (x ++ y).extractLsb' s l = y.extractLsb' s l := by
  apply BitVec.eq_of_getLsbD_eq
  intro i hi
  simp only [BitVec.getLsbD_extractLsb', BitVec.getLsbD_append]
  rw [if_pos (by omega)]

/-- A vector read whole. -/
theorem extract_all {n : Nat} (x : BitVec n) : x.extractLsb' 0 n = x := by simp

/-- Two neighbouring fields side by side. -/
theorem extract_join {n : Nat} (x : BitVec n) (s a b : Nat) :
    x.extractLsb' (s + b) a ++ x.extractLsb' s b = x.extractLsb' s (a + b) := by
  apply BitVec.eq_of_getLsbD_eq
  intro i hi
  simp only [BitVec.getLsbD_append, BitVec.getLsbD_extractLsb']
  by_cases h : i < b
  · simp [h, hi]
  · have h2 : i - b < a := by omega
    have h3 : s + b + (i - b) = s + i := by omega
    simp [h, hi, h2, h3]

theorem ofRRR_pack (h mj mn o) : ofRRR (pack h mj mn (bitsRRR o)) = o := by
  simp (disch := omega) only [ofRRR, bits, pack, bitsRRR, extract_append_lo, extract_append_hi, Nat.sub_self, extract_all]
theorem ofRRI_pack (h mj mn o) : ofRRI (pack h mj mn (bitsRRI o)) = o := by
  simp (disch := omega) only [ofRRI, bits, pack, bitsRRI, extract_append_lo, extract_append_hi, Nat.sub_self, extract_all]
theorem ofMEM_pack (h mj mn o) : ofMEM (pack h mj mn (bitsMEM o)) = o := by
  simp (disch := omega) only [ofMEM, bits, pack, bitsMEM, extract_append_lo, extract_append_hi, Nat.sub_self, extract_all]
theorem ofMEMX_pack (h mj mn o) : ofMEMX (pack h mj mn (bitsMEMX o)) = o := by
  simp (disch := omega) only [ofMEMX, bits, pack, bitsMEMX, extract_append_lo, extract_append_hi, Nat.sub_self, extract_all]
theorem ofBRA_pack (h mj mn o) : ofBRA (pack h mj mn (bitsBRA o)) = o := by
  simp (disch := omega) only [ofBRA, bits, pack, bitsBRA, extract_append_lo, extract_append_hi, Nat.sub_self, extract_all]
theorem ofMXC_pack (h mj mn o) : ofMXC (pack h mj mn (bitsMXC o)) = o := by
  simp (disch := omega) only [ofMXC, bits, pack, bitsMXC, extract_append_lo, extract_append_hi, Nat.sub_self, extract_all]
theorem ofSYS_pack (h mj mn o) : ofSYS (pack h mj mn (bitsSYS o)) = o := by
  simp (disch := omega) only [ofSYS, bits, pack, bitsSYS, extract_append_lo, extract_append_hi, Nat.sub_self, extract_all]

/-- Group, minor code and operand field of a packed word. -/
theorem major_pack (h mj mn ops) : bits (pack h mj mn ops) 50 6 = BitVec.ofNat 6 mj := by
  simp (disch := omega) only [bits, pack, extract_append_lo, extract_append_hi, Nat.sub_self, extract_all]
theorem minor_pack (h mj mn ops) : bits (pack h mj mn ops) 46 4 = BitVec.ofNat 4 mn := by
  simp (disch := omega) only [bits, pack, extract_append_lo, extract_append_hi, Nat.sub_self, extract_all]

theorem ofCode_code (t : Strand) : Strand.ofCode (BitVec.ofNat 2 t.code).toNat = t := by cases t <;> rfl
theorem code_ofCode (c : BitVec 2) : BitVec.ofNat 2 (Strand.ofCode c.toNat).code = c := by
  revert c; decide

/-- The header of a packed word. -/
theorem hdr_pack (h mj mn ops) : hdr (pack h mj mn ops) = h := by
  have hs : bits (pack h mj mn ops) 78 2 = BitVec.ofNat 2 h.str.code := by
    simp (disch := omega) only [bits, pack, extract_append_hi, Nat.sub_self, extract_all]
  have hp : (pack h mj mn ops).getLsbD 73 = h.pn := by
    have : (pack h mj mn ops).extractLsb' 73 1 = BitVec.ofBool h.pn := by
      simp (disch := omega) only [pack, extract_append_lo, extract_append_hi, Nat.sub_self, extract_all]
    have h0 := congrArg (fun x => BitVec.getLsbD x 0) this
    simpa [BitVec.getLsbD_extractLsb'] using h0
  unfold hdr
  rw [hs, hp, ofCode_code]
  simp (disch := omega) only [bits, pack, extract_append_lo, extract_append_hi, Nat.sub_self, extract_all]

/-- A word is its header, group, minor code and operand field side by side. -/
theorem pack_unpack (w : BitVec 80) :
    pack (hdr w) (bits w 50 6).toNat (bits w 46 4).toNat (w.extractLsb' 0 46) = w := by
  have hp : BitVec.ofBool (w.getLsbD 73) = w.extractLsb' 73 1 := by
    apply BitVec.eq_of_getLsbD_eq
    intro i hi
    have : i = 0 := by omega
    subst this
    simp
  simp only [pack, hdr, bits, code_ofCode, hp, BitVec.ofNat_toNat, BitVec.setWidth_eq]
  rw [extract_join w 0 4 46, extract_join w 0 6 50, extract_join w 0 3 56, extract_join w 0 3 59, extract_join w 0 3 62,
    extract_join w 0 4 65, extract_join w 0 4 69, extract_join w 0 1 73, extract_join w 0 4 74, extract_join w 0 2 78]
  exact extract_all w

theorem bitsRRR_of (w : BitVec 80) : bitsRRR (ofRRR w) = w.extractLsb' 0 46 := by
  simp only [bitsRRR, ofRRR, bits]
  rw [extract_join w 0 7 18, extract_join w 0 7 25, extract_join w 0 7 32, extract_join w 0 7 39]
theorem bitsRRI_of (w : BitVec 80) : bitsRRI (ofRRI w) = w.extractLsb' 0 46 := by
  simp only [bitsRRI, ofRRI, bits]
  rw [extract_join w 0 7 32, extract_join w 0 7 39]
theorem bitsMEM_of (w : BitVec 80) : bitsMEM (ofMEM w) = w.extractLsb' 0 46 := by
  simp only [bitsMEM, ofMEM, bits]
  rw [extract_join w 0 2 23, extract_join w 0 3 25, extract_join w 0 4 28, extract_join w 0 7 32, extract_join w 0 7 39]
theorem bitsMEMX_of (w : BitVec 80) : bitsMEMX (ofMEMX w) = w.extractLsb' 0 46 := by
  simp only [bitsMEMX, ofMEMX, bits]
  rw [extract_join w 0 7 16, extract_join w 0 2 23, extract_join w 0 3 25, extract_join w 0 4 28, extract_join w 0 7 32,
    extract_join w 0 7 39]
theorem bitsBRA_of (w : BitVec 80) : bitsBRA (ofBRA w) = w.extractLsb' 0 46 := by
  simp only [bitsBRA, ofBRA, bits]
  rw [extract_join w 0 7 32, extract_join w 0 7 39]
theorem bitsMXC_of (w : BitVec 80) : bitsMXC (ofMXC w) = w.extractLsb' 0 46 := by
  simp only [bitsMXC, ofMXC, bits]
  rw [extract_join w 0 7 8, extract_join w 0 4 15, extract_join w 0 1 19, extract_join w 0 4 20, extract_join w 0 7 24,
    extract_join w 0 7 31, extract_join w 0 7 38, extract_join w 0 1 45]
theorem bitsSYS_of (w : BitVec 80) : bitsSYS (ofSYS w) = w.extractLsb' 0 46 := by
  simp only [bitsSYS, ofSYS, bits]
  rw [extract_join w 0 8 24, extract_join w 0 7 32, extract_join w 0 7 39]

/-- A well-formed instruction whose row is found is what the decoder answers. -/
theorem word_pack {h : Hdr} {mj mn : Nat} {ops : BitVec 46} {i : Instr} (hj : mj < 64) (hn : mn < 16)
    (hr : rowOf mj mn h (pack h mj mn ops) = .ok i) (hw : WellFormed i = true) : word (pack h mj mn ops) = .ok i := by
  have e1 : (BitVec.ofNat 6 mj).toNat = mj := by simp; omega
  have e2 : (BitVec.ofNat 4 mn).toNat = mn := by simp; omega
  unfold word
  rw [major_pack, minor_pack, hdr_pack, e1, e2, hr]
  have hi : illegal i = none := by simpa [WellFormed] using hw
  simp [hi]

/-- What the decoder answers is well-formed and stands in the row of the word's group and minor code. -/
theorem word_ok {w : BitVec 80} {i : Instr} (hw : word w = .ok i) :
    rowOf (bits w 50 6).toNat (bits w 46 4).toNat (hdr w) w = .ok i ∧ WellFormed i = true := by
  unfold word at hw
  split at hw
  · cases hw
  · split at hw
    · cases hw
    · rename_i h1 _ h2
      cases hw
      exact ⟨h1, by simp [WellFormed, h2]⟩

/-- The bytes of a word, read as a number again (R5). -/
theorem wordOf_bytesOf (w : BitVec 80) : wordOf (bytesOf w) = w := by
  have h : ∀ k : Nat, (w.extractLsb' (8 * k) 8).toNat = w.toNat / 256 ^ k % 256 := by
    intro k
    rw [BitVec.extractLsb'_toNat, Nat.shiftRight_eq_div_pow, Nat.pow_mul]
  have hl := w.isLt
  apply BitVec.eq_of_toNat_eq
  simp only [wordOf, bytesOf, BitVec.toNat_ofNat, List.foldr_map, h]
  have hr : List.range 10 = [0, 1, 2, 3, 4, 5, 6, 7, 8, 9] := by decide
  rw [hr]
  simp only [List.foldr]
  omega

/-- A word stored before other bytes is read from them. -/
theorem bytes_of_word {w : BitVec 80} {i : Instr} (hw : word w = .ok i) (rest : List Byte) :
    bytes (bytesOf w ++ rest) = .ok (i, rest) := by
  have hl : (bytesOf w).length = 10 := by simp [bytesOf]
  unfold bytes
  rw [if_neg (by simp [hl]), List.take_left' hl, wordOf_bytesOf, hw, List.drop_left' hl]

end Sys2Proof
end

