-- ==== Sys2Proof/Laws/SMap.lean ====
section
/-!
SUPPORT. Tables and byte memories: reading after writing, and the canonical form that every memory operation keeps.
-/
namespace Sys2Proof.Machine

/-! ## Tables -/

@[simp] theorem SMap.find?_nil {α : Type} (k : Nat) : SMap.find? ([] : SMap α) k = none := rfl

@[simp] theorem SMap.find?_set_self {α : Type} (m : SMap α) (k : Nat) (v : α) : SMap.find? (SMap.set m k v) k = some v := by
  induction m with
  | nil => simp [SMap.set, SMap.find?]
  | cons p t ih =>
    obtain ⟨j, w⟩ := p
    simp only [SMap.set]
    split
    · simp [SMap.find?]
    · split
      · simp [SMap.find?]
      · have : j ≠ k := by omega
        simp [SMap.find?, this, ih]

theorem SMap.find?_set_ne {α : Type} (m : SMap α) (k j : Nat) (v : α) (h : j ≠ k) :
    SMap.find? (SMap.set m k v) j = SMap.find? m j := by
  induction m with
  | nil => simp [SMap.set, SMap.find?, Ne.symm h]
  | cons p t ih =>
    obtain ⟨i, w⟩ := p
    simp only [SMap.set]
    split
    · simp [SMap.find?, Ne.symm h]
    · split
      · rename_i _ h2
        subst h2
        simp [SMap.find?, Ne.symm h]
      · simp only [SMap.find?, ih]

@[simp] theorem SMap.get_set_self {α : Type} (m : SMap α) (d : α) (k : Nat) (v : α) : SMap.get (SMap.set m k v) d k = v := by
  simp [SMap.get]
theorem SMap.get_set_ne {α : Type} (m : SMap α) (d : α) (k j : Nat) (v : α) (h : j ≠ k) :
    SMap.get (SMap.set m k v) d j = SMap.get m d j := by
  simp [SMap.get, SMap.find?_set_ne m k j v h]
@[simp] theorem SMap.get_nil {α : Type} (d : α) (k : Nat) : SMap.get ([] : SMap α) d k = d := rfl
theorem SMap.get_of_find? {α : Type} {m : SMap α} {d v : α} {k : Nat} (h : SMap.find? m k = some v) : SMap.get m d k = v := by
  simp [SMap.get, h]

/-! ## Bytes -/

@[simp] theorem Mem.get_nil (a : Nat) : Mem.get [] a = 0 := rfl

/-- An address below every listed one reads as zero. -/
theorem Mem.get_of_wfFrom {m : Mem} {lo a : Nat} (h : Mem.wfFrom lo m = true) (ha : a < lo) : Mem.get m a = 0 := by
  induction m generalizing lo with
  | nil => rfl
  | cons p t ih =>
    obtain ⟨j, w⟩ := p
    simp only [Mem.wfFrom, Bool.and_eq_true, decide_eq_true_eq] at h
    have : j ≠ a := by omega
    simp only [Mem.get, this, if_false]
    exact ih h.2 (by omega)

/-- A byte written reads back. -/
theorem Mem.get_set_self {m : Mem} {lo : Nat} (h : Mem.wfFrom lo m = true) (a : Nat) (v : Byte) : Mem.get (Mem.set m a v) a = v := by
  induction m generalizing lo with
  | nil =>
    simp only [Mem.set]
    split
    · simp [Mem.get, *]
    · simp [Mem.get]
  | cons p t ih =>
    obtain ⟨j, w⟩ := p
    have ht := h
    simp only [Mem.wfFrom, Bool.and_eq_true, decide_eq_true_eq] at ht
    simp only [Mem.set]
    by_cases h1 : a < j
    · rw [if_pos h1]
      split
      · rename_i hv
        have hj : j ≠ a := by omega
        simp only [Mem.get, hj, if_false]
        rw [Mem.get_of_wfFrom ht.2 (by omega), hv]
      · simp [Mem.get]
    · rw [if_neg h1]
      by_cases h2 : a = j
      · subst h2
        rw [if_pos rfl]
        split
        · rename_i hv
          rw [Mem.get_of_wfFrom ht.2 (by omega), hv]
        · simp [Mem.get]
      · rw [if_neg h2]
        have hj : j ≠ a := fun e => h2 e.symm
        simp only [Mem.get, hj, if_false]
        exact ih ht.2

/-- A write leaves every other byte alone. -/
theorem Mem.get_set_ne {m : Mem} {lo : Nat} (h : Mem.wfFrom lo m = true) (a b : Nat) (v : Byte) (hb : b ≠ a) :
    Mem.get (Mem.set m a v) b = Mem.get m b := by
  induction m generalizing lo with
  | nil =>
    simp only [Mem.set]
    split
    · rfl
    · simp [Mem.get, Ne.symm hb]
  | cons p t ih =>
    obtain ⟨j, w⟩ := p
    have ht := h
    simp only [Mem.wfFrom, Bool.and_eq_true, decide_eq_true_eq] at ht
    simp only [Mem.set]
    by_cases h1 : a < j
    · rw [if_pos h1]
      split
      · rfl
      · simp [Mem.get, Ne.symm hb]
    · rw [if_neg h1]
      by_cases h2 : a = j
      · subst h2
        rw [if_pos rfl]
        split
        · simp [Mem.get, Ne.symm hb]
        · simp [Mem.get, Ne.symm hb]
      · rw [if_neg h2]
        simp only [Mem.get]
        split
        · rfl
        · exact ih ht.2

theorem Mem.wfFrom_mono {m : Mem} {lo lo' : Nat} (h : Mem.wfFrom lo m = true) (hl : lo' ≤ lo) : Mem.wfFrom lo' m = true := by
  cases m with
  | nil => rfl
  | cons p t =>
    obtain ⟨j, w⟩ := p
    simp only [Mem.wfFrom, Bool.and_eq_true, decide_eq_true_eq] at h ⊢
    exact ⟨⟨by omega, h.1.2⟩, h.2⟩

theorem Mem.wfFrom_set {m : Mem} {lo : Nat} (h : Mem.wfFrom lo m = true) (a : Nat) (v : Byte) (ha : lo ≤ a) :
    Mem.wfFrom lo (Mem.set m a v) = true := by
  induction m generalizing lo with
  | nil =>
    simp only [Mem.set]
    split
    · rfl
    · rename_i hv
      simp only [Mem.wfFrom, Bool.and_eq_true, decide_eq_true_eq]
      exact ⟨⟨ha, hv⟩, trivial⟩
  | cons p t ih =>
    obtain ⟨j, w⟩ := p
    have ht := h
    simp only [Mem.wfFrom, Bool.and_eq_true, decide_eq_true_eq] at ht
    simp only [Mem.set]
    by_cases h1 : a < j
    · rw [if_pos h1]
      split
      · exact h
      · rename_i hv
        simp only [Mem.wfFrom, Bool.and_eq_true, decide_eq_true_eq]
        exact ⟨⟨ha, hv⟩, ⟨by omega, ht.1.2⟩, ht.2⟩
    · rw [if_neg h1]
      by_cases h2 : a = j
      · subst h2
        rw [if_pos rfl]
        split
        · exact Mem.wfFrom_mono ht.2 (by omega)
        · rename_i hv
          simp only [Mem.wfFrom, Bool.and_eq_true, decide_eq_true_eq]
          exact ⟨⟨ha, hv⟩, ht.2⟩
      · rw [if_neg h2]
        simp only [Mem.wfFrom, Bool.and_eq_true, decide_eq_true_eq]
        exact ⟨ht.1, ih ht.2 (by omega)⟩

/-- The canonical form is kept by a write of one byte. -/
theorem Mem.wf_set {m : Mem} (h : m.wf = true) (a : Nat) (v : Byte) : (Mem.set m a v).wf = true :=
  Mem.wfFrom_set h a v (Nat.zero_le _)
/-- By a write of a number. -/
theorem Mem.wf_write {m : Mem} (h : m.wf = true) (a n v : Nat) : (Mem.write m a n v).wf = true := by
  induction n generalizing m a v with
  | zero => exact h
  | succ n ih => exact ih (Mem.wf_set h _ _) _ _
/-- By a write of bytes. -/
theorem Mem.wf_writeBytes {m : Mem} (h : m.wf = true) (a : Nat) (bs : List Byte) : (Mem.writeBytes m a bs).wf = true := by
  induction bs generalizing m a with
  | nil => exact h
  | cons b bs ih => exact ih (Mem.wf_set h _ _) _
theorem Mem.wfFrom_filter {m : Mem} {lo : Nat} (h : Mem.wfFrom lo m = true) (f : Host.Cell → Bool) :
    Mem.wfFrom lo (m.filter f) = true := by
  induction m generalizing lo with
  | nil => rfl
  | cons p t ih =>
    obtain ⟨j, w⟩ := p
    simp only [Mem.wfFrom, Bool.and_eq_true, decide_eq_true_eq] at h
    simp only [List.filter_cons]
    split
    · simp only [Mem.wfFrom, Bool.and_eq_true, decide_eq_true_eq]
      exact ⟨h.1, ih h.2⟩
    · exact Mem.wfFrom_mono (ih h.2) (by omega)
/-- By clearing a range. -/
theorem Mem.wf_clear {m : Mem} (h : m.wf = true) (lo n : Nat) : (Mem.clear m lo n).wf = true := Mem.wfFrom_filter h _

/-- A write of a number leaves every byte outside its range alone. -/
theorem Mem.get_write_ne {m : Mem} (h : m.wf = true) (a n v b : Nat) (hb : b < a ∨ a + n ≤ b) :
    Mem.get (Mem.write m a n v) b = Mem.get m b := by
  induction n generalizing m a v with
  | zero => rfl
  | succ n ih =>
    have h1 := ih (Mem.wf_set h a (BitVec.ofNat 8 v)) (a + 1) (v / 256) (by omega)
    exact h1.trans (Mem.get_set_ne h a b _ (by omega))
/-- A byte of a number written. -/
theorem Mem.get_write_of {m : Mem} (h : m.wf = true) (a n v k : Nat) (hk : k < n) :
    Mem.get (Mem.write m a n v) (a + k) = BitVec.ofNat 8 (v / 256 ^ k) := by
  induction n generalizing m a v k with
  | zero => omega
  | succ n ih =>
    cases k with
    | zero =>
      have h1 := Mem.get_write_ne (Mem.wf_set h a (BitVec.ofNat 8 v)) (a + 1) n (v / 256) a (by omega)
      have h2 := h1.trans (Mem.get_set_self h a (BitVec.ofNat 8 v))
      rw [Nat.pow_zero, Nat.div_one]
      exact h2
    | succ k =>
      have h1 := ih (Mem.wf_set h a (BitVec.ofNat 8 v)) (a + 1) (v / 256) k (by omega)
      rw [show a + (k + 1) = a + 1 + k by omega]
      refine h1.trans ?_
      rw [Nat.pow_succ, Nat.mul_comm, Nat.div_div_eq_div_mul]
/-- A number written reads back. -/
theorem Mem.read_write {m : Mem} (h : m.wf = true) (a n v : Nat) : Mem.read (Mem.write m a n v) a n = v % 256 ^ n := by
  induction n generalizing m a v with
  | zero => simp [Mem.read, Nat.mod_one]
  | succ n ih =>
    have h0 : Mem.get (Mem.write (Mem.set m a (BitVec.ofNat 8 v)) (a + 1) n (v / 256)) a = BitVec.ofNat 8 v :=
      (Mem.get_write_ne (Mem.wf_set h a _) (a + 1) n (v / 256) a (by omega)).trans (Mem.get_set_self h a _)
    simp only [Mem.read, Mem.write, h0, ih (Mem.wf_set h a _), BitVec.toNat_ofNat]
    rw [show 256 ^ (n + 1) = 256 * 256 ^ n from Nat.pow_succ'.trans rfl, Nat.mod_mul]

end Sys2Proof.Machine
end

