-- ==== Sys2Proof/Laws/State.lean ====
section
/-!
SUPPORT. What the updates of the state leave alone, one lemma for each field and update, so that no later proof unfolds a record
update; and what an update of a core, a task, a strand or a context stores.
-/
namespace Sys2Proof.Machine

@[simp] theorem State.nextTurn_cyc (s : State) : (s.nextTurn).cyc = s.cyc := rfl
@[simp] theorem State.nextTurn_agenda (s : State) : (s.nextTurn).agenda = s.agenda := rfl
@[simp] theorem State.nextTurn_fresh (s : State) : (s.nextTurn).fresh = s.fresh := rfl
@[simp] theorem State.nextTurn_nextId (s : State) : (s.nextTurn).nextId = s.nextId := rfl
@[simp] theorem State.nextTurn_flights (s : State) : (s.nextTurn).flights = s.flights := rfl
@[simp] theorem State.nextTurn_cores (s : State) : (s.nextTurn).cores = s.cores := rfl
@[simp] theorem State.nextTurn_dram (s : State) : (s.nextTurn).dram = s.dram := rfl
@[simp] theorem State.nextTurn_dramPoison (s : State) : (s.nextTurn).dramPoison = s.dramPoison := rfl
@[simp] theorem State.nextTurn_hts (s : State) : (s.nextTurn).hts = s.hts := rfl
@[simp] theorem State.nextTurn_bu (s : State) : (s.nextTurn).bu = s.bu := rfl
@[simp] theorem State.nextTurn_parts (s : State) : (s.nextTurn).parts = s.parts := rfl
@[simp] theorem State.nextTurn_ctxs (s : State) : (s.nextTurn).ctxs = s.ctxs := rfl
@[simp] theorem State.nextTurn_gates (s : State) : (s.nextTurn).gates = s.gates := rfl
@[simp] theorem State.nextTurn_gateReqs (s : State) : (s.nextTurn).gateReqs = s.gateReqs := rfl
@[simp] theorem State.nextTurn_colls (s : State) : (s.nextTurn).colls = s.colls := rfl
@[simp] theorem State.nextTurn_collCount (s : State) : (s.nextTurn).collCount = s.collCount := rfl
@[simp] theorem State.nextTurn_collLate (s : State) : (s.nextTurn).collLate = s.collLate := rfl
@[simp] theorem State.nextTurn_digests (s : State) : (s.nextTurn).digests = s.digests := rfl
@[simp] theorem State.nextTurn_outbox (s : State) : (s.nextTurn).outbox = s.outbox := rfl
@[simp] theorem State.nextTurn_loop (s : State) : (s.nextTurn).loop = s.loop := rfl
@[simp] theorem State.nextTurn_heldOrd (s : State) : (s.nextTurn).heldOrd = s.heldOrd := rfl
@[simp] theorem State.nextTurn_later (s : State) : (s.nextTurn).later = s.later := rfl
@[simp] theorem State.nextTurn_hostMem (s : State) : (s.nextTurn).hostMem = s.hostMem := rfl
@[simp] theorem State.nextTurn_host (s : State) : (s.nextTurn).host = s.host := rfl
@[simp] theorem State.nextTurn_hostOut (s : State) : (s.nextTurn).hostOut = s.hostOut := rfl
@[simp] theorem State.nextTurn_lastFn (s : State) : (s.nextTurn).lastFn = s.lastFn := rfl
@[simp] theorem State.nextTurn_dramTold (s : State) : (s.nextTurn).dramTold = s.dramTold := rfl
@[simp] theorem State.nextTurn_found (s : State) : (s.nextTurn).found = s.found := rfl
@[simp] theorem State.nextTurn_htsReqs (s : State) : (s.nextTurn).htsReqs = s.htsReqs := rfl
@[simp] theorem State.nextTurn_net (s : State) : (s.nextTurn).net = s.net := rfl
@[simp] theorem State.nextTurn_gone (s : State) : (s.nextTurn).gone = s.gone := rfl
@[simp] theorem State.nextTurn_portTlb (s : State) : (s.nextTurn).portTlb = s.portTlb := rfl
@[simp] theorem State.nextTurn_mgmt (s : State) : (s.nextTurn).mgmt = s.mgmt := rfl

@[simp] theorem State.nextCore_cyc (s : State) : (s.nextCore).cyc = s.cyc := rfl
@[simp] theorem State.nextCore_agenda (s : State) : (s.nextCore).agenda = s.agenda := rfl
@[simp] theorem State.nextCore_fresh (s : State) : (s.nextCore).fresh = s.fresh := rfl
@[simp] theorem State.nextCore_nextId (s : State) : (s.nextCore).nextId = s.nextId := rfl
@[simp] theorem State.nextCore_flights (s : State) : (s.nextCore).flights = s.flights := rfl
@[simp] theorem State.nextCore_cores (s : State) : (s.nextCore).cores = s.cores := rfl
@[simp] theorem State.nextCore_dram (s : State) : (s.nextCore).dram = s.dram := rfl
@[simp] theorem State.nextCore_dramPoison (s : State) : (s.nextCore).dramPoison = s.dramPoison := rfl
@[simp] theorem State.nextCore_hts (s : State) : (s.nextCore).hts = s.hts := rfl
@[simp] theorem State.nextCore_bu (s : State) : (s.nextCore).bu = s.bu := rfl
@[simp] theorem State.nextCore_parts (s : State) : (s.nextCore).parts = s.parts := rfl
@[simp] theorem State.nextCore_ctxs (s : State) : (s.nextCore).ctxs = s.ctxs := rfl
@[simp] theorem State.nextCore_gates (s : State) : (s.nextCore).gates = s.gates := rfl
@[simp] theorem State.nextCore_gateReqs (s : State) : (s.nextCore).gateReqs = s.gateReqs := rfl
@[simp] theorem State.nextCore_colls (s : State) : (s.nextCore).colls = s.colls := rfl
@[simp] theorem State.nextCore_collCount (s : State) : (s.nextCore).collCount = s.collCount := rfl
@[simp] theorem State.nextCore_collLate (s : State) : (s.nextCore).collLate = s.collLate := rfl
@[simp] theorem State.nextCore_digests (s : State) : (s.nextCore).digests = s.digests := rfl
@[simp] theorem State.nextCore_outbox (s : State) : (s.nextCore).outbox = s.outbox := rfl
@[simp] theorem State.nextCore_loop (s : State) : (s.nextCore).loop = s.loop := rfl
@[simp] theorem State.nextCore_heldOrd (s : State) : (s.nextCore).heldOrd = s.heldOrd := rfl
@[simp] theorem State.nextCore_later (s : State) : (s.nextCore).later = s.later := rfl
@[simp] theorem State.nextCore_hostMem (s : State) : (s.nextCore).hostMem = s.hostMem := rfl
@[simp] theorem State.nextCore_host (s : State) : (s.nextCore).host = s.host := rfl
@[simp] theorem State.nextCore_hostOut (s : State) : (s.nextCore).hostOut = s.hostOut := rfl
@[simp] theorem State.nextCore_lastFn (s : State) : (s.nextCore).lastFn = s.lastFn := rfl
@[simp] theorem State.nextCore_dramTold (s : State) : (s.nextCore).dramTold = s.dramTold := rfl
@[simp] theorem State.nextCore_found (s : State) : (s.nextCore).found = s.found := rfl
@[simp] theorem State.nextCore_htsReqs (s : State) : (s.nextCore).htsReqs = s.htsReqs := rfl
@[simp] theorem State.nextCore_net (s : State) : (s.nextCore).net = s.net := rfl
@[simp] theorem State.nextCore_gone (s : State) : (s.nextCore).gone = s.gone := rfl
@[simp] theorem State.nextCore_portTlb (s : State) : (s.nextCore).portTlb = s.portTlb := rfl
@[simp] theorem State.nextCore_mgmt (s : State) : (s.nextCore).mgmt = s.mgmt := rfl

@[simp] theorem State.setCore_cyc (s : State) (n : Nat) (c : Core) : (s.setCore n c).cyc = s.cyc := rfl
@[simp] theorem State.setCore_turn (s : State) (n : Nat) (c : Core) : (s.setCore n c).turn = s.turn := rfl
@[simp] theorem State.setCore_agenda (s : State) (n : Nat) (c : Core) : (s.setCore n c).agenda = s.agenda := rfl
@[simp] theorem State.setCore_fresh (s : State) (n : Nat) (c : Core) : (s.setCore n c).fresh = s.fresh := rfl
@[simp] theorem State.setCore_nextId (s : State) (n : Nat) (c : Core) : (s.setCore n c).nextId = s.nextId := rfl
@[simp] theorem State.setCore_flights (s : State) (n : Nat) (c : Core) : (s.setCore n c).flights = s.flights := rfl
@[simp] theorem State.setCore_dram (s : State) (n : Nat) (c : Core) : (s.setCore n c).dram = s.dram := rfl
@[simp] theorem State.setCore_dramPoison (s : State) (n : Nat) (c : Core) : (s.setCore n c).dramPoison = s.dramPoison := rfl
@[simp] theorem State.setCore_hts (s : State) (n : Nat) (c : Core) : (s.setCore n c).hts = s.hts := rfl
@[simp] theorem State.setCore_bu (s : State) (n : Nat) (c : Core) : (s.setCore n c).bu = s.bu := rfl
@[simp] theorem State.setCore_parts (s : State) (n : Nat) (c : Core) : (s.setCore n c).parts = s.parts := rfl
@[simp] theorem State.setCore_ctxs (s : State) (n : Nat) (c : Core) : (s.setCore n c).ctxs = s.ctxs := rfl
@[simp] theorem State.setCore_gates (s : State) (n : Nat) (c : Core) : (s.setCore n c).gates = s.gates := rfl
@[simp] theorem State.setCore_gateReqs (s : State) (n : Nat) (c : Core) : (s.setCore n c).gateReqs = s.gateReqs := rfl
@[simp] theorem State.setCore_colls (s : State) (n : Nat) (c : Core) : (s.setCore n c).colls = s.colls := rfl
@[simp] theorem State.setCore_collCount (s : State) (n : Nat) (c : Core) : (s.setCore n c).collCount = s.collCount := rfl
@[simp] theorem State.setCore_collLate (s : State) (n : Nat) (c : Core) : (s.setCore n c).collLate = s.collLate := rfl
@[simp] theorem State.setCore_digests (s : State) (n : Nat) (c : Core) : (s.setCore n c).digests = s.digests := rfl
@[simp] theorem State.setCore_outbox (s : State) (n : Nat) (c : Core) : (s.setCore n c).outbox = s.outbox := rfl
@[simp] theorem State.setCore_loop (s : State) (n : Nat) (c : Core) : (s.setCore n c).loop = s.loop := rfl
@[simp] theorem State.setCore_heldOrd (s : State) (n : Nat) (c : Core) : (s.setCore n c).heldOrd = s.heldOrd := rfl
@[simp] theorem State.setCore_later (s : State) (n : Nat) (c : Core) : (s.setCore n c).later = s.later := rfl
@[simp] theorem State.setCore_hostMem (s : State) (n : Nat) (c : Core) : (s.setCore n c).hostMem = s.hostMem := rfl
@[simp] theorem State.setCore_host (s : State) (n : Nat) (c : Core) : (s.setCore n c).host = s.host := rfl
@[simp] theorem State.setCore_hostOut (s : State) (n : Nat) (c : Core) : (s.setCore n c).hostOut = s.hostOut := rfl
@[simp] theorem State.setCore_lastFn (s : State) (n : Nat) (c : Core) : (s.setCore n c).lastFn = s.lastFn := rfl
@[simp] theorem State.setCore_dramTold (s : State) (n : Nat) (c : Core) : (s.setCore n c).dramTold = s.dramTold := rfl
@[simp] theorem State.setCore_found (s : State) (n : Nat) (c : Core) : (s.setCore n c).found = s.found := rfl
@[simp] theorem State.setCore_htsReqs (s : State) (n : Nat) (c : Core) : (s.setCore n c).htsReqs = s.htsReqs := rfl
@[simp] theorem State.setCore_net (s : State) (n : Nat) (c : Core) : (s.setCore n c).net = s.net := rfl
@[simp] theorem State.setCore_gone (s : State) (n : Nat) (c : Core) : (s.setCore n c).gone = s.gone := rfl
@[simp] theorem State.setCore_portTlb (s : State) (n : Nat) (c : Core) : (s.setCore n c).portTlb = s.portTlb := rfl
@[simp] theorem State.setCore_mgmt (s : State) (n : Nat) (c : Core) : (s.setCore n c).mgmt = s.mgmt := rfl

@[simp] theorem State.updCore_cyc (s : State) (n : Nat) (f : Core → Core) : (s.updCore n f).cyc = s.cyc := rfl
@[simp] theorem State.updCore_turn (s : State) (n : Nat) (f : Core → Core) : (s.updCore n f).turn = s.turn := rfl
@[simp] theorem State.updCore_agenda (s : State) (n : Nat) (f : Core → Core) : (s.updCore n f).agenda = s.agenda := rfl
@[simp] theorem State.updCore_fresh (s : State) (n : Nat) (f : Core → Core) : (s.updCore n f).fresh = s.fresh := rfl
@[simp] theorem State.updCore_nextId (s : State) (n : Nat) (f : Core → Core) : (s.updCore n f).nextId = s.nextId := rfl
@[simp] theorem State.updCore_flights (s : State) (n : Nat) (f : Core → Core) : (s.updCore n f).flights = s.flights := rfl
@[simp] theorem State.updCore_dram (s : State) (n : Nat) (f : Core → Core) : (s.updCore n f).dram = s.dram := rfl
@[simp] theorem State.updCore_dramPoison (s : State) (n : Nat) (f : Core → Core) : (s.updCore n f).dramPoison = s.dramPoison := rfl
@[simp] theorem State.updCore_hts (s : State) (n : Nat) (f : Core → Core) : (s.updCore n f).hts = s.hts := rfl
@[simp] theorem State.updCore_bu (s : State) (n : Nat) (f : Core → Core) : (s.updCore n f).bu = s.bu := rfl
@[simp] theorem State.updCore_parts (s : State) (n : Nat) (f : Core → Core) : (s.updCore n f).parts = s.parts := rfl
@[simp] theorem State.updCore_ctxs (s : State) (n : Nat) (f : Core → Core) : (s.updCore n f).ctxs = s.ctxs := rfl
@[simp] theorem State.updCore_gates (s : State) (n : Nat) (f : Core → Core) : (s.updCore n f).gates = s.gates := rfl
@[simp] theorem State.updCore_gateReqs (s : State) (n : Nat) (f : Core → Core) : (s.updCore n f).gateReqs = s.gateReqs := rfl
@[simp] theorem State.updCore_colls (s : State) (n : Nat) (f : Core → Core) : (s.updCore n f).colls = s.colls := rfl
@[simp] theorem State.updCore_collCount (s : State) (n : Nat) (f : Core → Core) : (s.updCore n f).collCount = s.collCount := rfl
@[simp] theorem State.updCore_collLate (s : State) (n : Nat) (f : Core → Core) : (s.updCore n f).collLate = s.collLate := rfl
@[simp] theorem State.updCore_digests (s : State) (n : Nat) (f : Core → Core) : (s.updCore n f).digests = s.digests := rfl
@[simp] theorem State.updCore_outbox (s : State) (n : Nat) (f : Core → Core) : (s.updCore n f).outbox = s.outbox := rfl
@[simp] theorem State.updCore_loop (s : State) (n : Nat) (f : Core → Core) : (s.updCore n f).loop = s.loop := rfl
@[simp] theorem State.updCore_heldOrd (s : State) (n : Nat) (f : Core → Core) : (s.updCore n f).heldOrd = s.heldOrd := rfl
@[simp] theorem State.updCore_later (s : State) (n : Nat) (f : Core → Core) : (s.updCore n f).later = s.later := rfl
@[simp] theorem State.updCore_hostMem (s : State) (n : Nat) (f : Core → Core) : (s.updCore n f).hostMem = s.hostMem := rfl
@[simp] theorem State.updCore_host (s : State) (n : Nat) (f : Core → Core) : (s.updCore n f).host = s.host := rfl
@[simp] theorem State.updCore_hostOut (s : State) (n : Nat) (f : Core → Core) : (s.updCore n f).hostOut = s.hostOut := rfl
@[simp] theorem State.updCore_lastFn (s : State) (n : Nat) (f : Core → Core) : (s.updCore n f).lastFn = s.lastFn := rfl
@[simp] theorem State.updCore_dramTold (s : State) (n : Nat) (f : Core → Core) : (s.updCore n f).dramTold = s.dramTold := rfl
@[simp] theorem State.updCore_found (s : State) (n : Nat) (f : Core → Core) : (s.updCore n f).found = s.found := rfl
@[simp] theorem State.updCore_htsReqs (s : State) (n : Nat) (f : Core → Core) : (s.updCore n f).htsReqs = s.htsReqs := rfl
@[simp] theorem State.updCore_net (s : State) (n : Nat) (f : Core → Core) : (s.updCore n f).net = s.net := rfl
@[simp] theorem State.updCore_gone (s : State) (n : Nat) (f : Core → Core) : (s.updCore n f).gone = s.gone := rfl
@[simp] theorem State.updCore_portTlb (s : State) (n : Nat) (f : Core → Core) : (s.updCore n f).portTlb = s.portTlb := rfl
@[simp] theorem State.updCore_mgmt (s : State) (n : Nat) (f : Core → Core) : (s.updCore n f).mgmt = s.mgmt := rfl

@[simp] theorem State.setTask_cyc (s : State) (n sl : Nat) (k : Task) : (s.setTask n sl k).cyc = s.cyc := rfl
@[simp] theorem State.setTask_turn (s : State) (n sl : Nat) (k : Task) : (s.setTask n sl k).turn = s.turn := rfl
@[simp] theorem State.setTask_agenda (s : State) (n sl : Nat) (k : Task) : (s.setTask n sl k).agenda = s.agenda := rfl
@[simp] theorem State.setTask_fresh (s : State) (n sl : Nat) (k : Task) : (s.setTask n sl k).fresh = s.fresh := rfl
@[simp] theorem State.setTask_nextId (s : State) (n sl : Nat) (k : Task) : (s.setTask n sl k).nextId = s.nextId := rfl
@[simp] theorem State.setTask_flights (s : State) (n sl : Nat) (k : Task) : (s.setTask n sl k).flights = s.flights := rfl
@[simp] theorem State.setTask_dram (s : State) (n sl : Nat) (k : Task) : (s.setTask n sl k).dram = s.dram := rfl
@[simp] theorem State.setTask_dramPoison (s : State) (n sl : Nat) (k : Task) : (s.setTask n sl k).dramPoison = s.dramPoison := rfl
@[simp] theorem State.setTask_hts (s : State) (n sl : Nat) (k : Task) : (s.setTask n sl k).hts = s.hts := rfl
@[simp] theorem State.setTask_bu (s : State) (n sl : Nat) (k : Task) : (s.setTask n sl k).bu = s.bu := rfl
@[simp] theorem State.setTask_parts (s : State) (n sl : Nat) (k : Task) : (s.setTask n sl k).parts = s.parts := rfl
@[simp] theorem State.setTask_ctxs (s : State) (n sl : Nat) (k : Task) : (s.setTask n sl k).ctxs = s.ctxs := rfl
@[simp] theorem State.setTask_gates (s : State) (n sl : Nat) (k : Task) : (s.setTask n sl k).gates = s.gates := rfl
@[simp] theorem State.setTask_gateReqs (s : State) (n sl : Nat) (k : Task) : (s.setTask n sl k).gateReqs = s.gateReqs := rfl
@[simp] theorem State.setTask_colls (s : State) (n sl : Nat) (k : Task) : (s.setTask n sl k).colls = s.colls := rfl
@[simp] theorem State.setTask_collCount (s : State) (n sl : Nat) (k : Task) : (s.setTask n sl k).collCount = s.collCount := rfl
@[simp] theorem State.setTask_collLate (s : State) (n sl : Nat) (k : Task) : (s.setTask n sl k).collLate = s.collLate := rfl
@[simp] theorem State.setTask_digests (s : State) (n sl : Nat) (k : Task) : (s.setTask n sl k).digests = s.digests := rfl
@[simp] theorem State.setTask_outbox (s : State) (n sl : Nat) (k : Task) : (s.setTask n sl k).outbox = s.outbox := rfl
@[simp] theorem State.setTask_loop (s : State) (n sl : Nat) (k : Task) : (s.setTask n sl k).loop = s.loop := rfl
@[simp] theorem State.setTask_heldOrd (s : State) (n sl : Nat) (k : Task) : (s.setTask n sl k).heldOrd = s.heldOrd := rfl
@[simp] theorem State.setTask_later (s : State) (n sl : Nat) (k : Task) : (s.setTask n sl k).later = s.later := rfl
@[simp] theorem State.setTask_hostMem (s : State) (n sl : Nat) (k : Task) : (s.setTask n sl k).hostMem = s.hostMem := rfl
@[simp] theorem State.setTask_host (s : State) (n sl : Nat) (k : Task) : (s.setTask n sl k).host = s.host := rfl
@[simp] theorem State.setTask_hostOut (s : State) (n sl : Nat) (k : Task) : (s.setTask n sl k).hostOut = s.hostOut := rfl
@[simp] theorem State.setTask_lastFn (s : State) (n sl : Nat) (k : Task) : (s.setTask n sl k).lastFn = s.lastFn := rfl
@[simp] theorem State.setTask_dramTold (s : State) (n sl : Nat) (k : Task) : (s.setTask n sl k).dramTold = s.dramTold := rfl
@[simp] theorem State.setTask_found (s : State) (n sl : Nat) (k : Task) : (s.setTask n sl k).found = s.found := rfl
@[simp] theorem State.setTask_htsReqs (s : State) (n sl : Nat) (k : Task) : (s.setTask n sl k).htsReqs = s.htsReqs := rfl
@[simp] theorem State.setTask_net (s : State) (n sl : Nat) (k : Task) : (s.setTask n sl k).net = s.net := rfl
@[simp] theorem State.setTask_gone (s : State) (n sl : Nat) (k : Task) : (s.setTask n sl k).gone = s.gone := rfl
@[simp] theorem State.setTask_portTlb (s : State) (n sl : Nat) (k : Task) : (s.setTask n sl k).portTlb = s.portTlb := rfl
@[simp] theorem State.setTask_mgmt (s : State) (n sl : Nat) (k : Task) : (s.setTask n sl k).mgmt = s.mgmt := rfl

@[simp] theorem State.updTask_cyc (s : State) (n sl : Nat) (f : Task → Task) : (s.updTask n sl f).cyc = s.cyc := by
  unfold State.updTask; split <;> rfl
@[simp] theorem State.updTask_turn (s : State) (n sl : Nat) (f : Task → Task) : (s.updTask n sl f).turn = s.turn := by
  unfold State.updTask; split <;> rfl
@[simp] theorem State.updTask_agenda (s : State) (n sl : Nat) (f : Task → Task) : (s.updTask n sl f).agenda = s.agenda := by
  unfold State.updTask; split <;> rfl
@[simp] theorem State.updTask_fresh (s : State) (n sl : Nat) (f : Task → Task) : (s.updTask n sl f).fresh = s.fresh := by
  unfold State.updTask; split <;> rfl
@[simp] theorem State.updTask_nextId (s : State) (n sl : Nat) (f : Task → Task) : (s.updTask n sl f).nextId = s.nextId := by
  unfold State.updTask; split <;> rfl
@[simp] theorem State.updTask_flights (s : State) (n sl : Nat) (f : Task → Task) : (s.updTask n sl f).flights = s.flights := by
  unfold State.updTask; split <;> rfl
@[simp] theorem State.updTask_dram (s : State) (n sl : Nat) (f : Task → Task) : (s.updTask n sl f).dram = s.dram := by
  unfold State.updTask; split <;> rfl
@[simp] theorem State.updTask_dramPoison (s : State) (n sl : Nat) (f : Task → Task) : (s.updTask n sl f).dramPoison = s.dramPoison := by
  unfold State.updTask; split <;> rfl
@[simp] theorem State.updTask_hts (s : State) (n sl : Nat) (f : Task → Task) : (s.updTask n sl f).hts = s.hts := by
  unfold State.updTask; split <;> rfl
@[simp] theorem State.updTask_bu (s : State) (n sl : Nat) (f : Task → Task) : (s.updTask n sl f).bu = s.bu := by
  unfold State.updTask; split <;> rfl
@[simp] theorem State.updTask_parts (s : State) (n sl : Nat) (f : Task → Task) : (s.updTask n sl f).parts = s.parts := by
  unfold State.updTask; split <;> rfl
@[simp] theorem State.updTask_ctxs (s : State) (n sl : Nat) (f : Task → Task) : (s.updTask n sl f).ctxs = s.ctxs := by
  unfold State.updTask; split <;> rfl
@[simp] theorem State.updTask_gates (s : State) (n sl : Nat) (f : Task → Task) : (s.updTask n sl f).gates = s.gates := by
  unfold State.updTask; split <;> rfl
@[simp] theorem State.updTask_gateReqs (s : State) (n sl : Nat) (f : Task → Task) : (s.updTask n sl f).gateReqs = s.gateReqs := by
  unfold State.updTask; split <;> rfl
@[simp] theorem State.updTask_colls (s : State) (n sl : Nat) (f : Task → Task) : (s.updTask n sl f).colls = s.colls := by
  unfold State.updTask; split <;> rfl
@[simp] theorem State.updTask_collCount (s : State) (n sl : Nat) (f : Task → Task) : (s.updTask n sl f).collCount = s.collCount := by
  unfold State.updTask; split <;> rfl
@[simp] theorem State.updTask_collLate (s : State) (n sl : Nat) (f : Task → Task) : (s.updTask n sl f).collLate = s.collLate := by
  unfold State.updTask; split <;> rfl
@[simp] theorem State.updTask_digests (s : State) (n sl : Nat) (f : Task → Task) : (s.updTask n sl f).digests = s.digests := by
  unfold State.updTask; split <;> rfl
@[simp] theorem State.updTask_outbox (s : State) (n sl : Nat) (f : Task → Task) : (s.updTask n sl f).outbox = s.outbox := by
  unfold State.updTask; split <;> rfl
@[simp] theorem State.updTask_loop (s : State) (n sl : Nat) (f : Task → Task) : (s.updTask n sl f).loop = s.loop := by
  unfold State.updTask; split <;> rfl
@[simp] theorem State.updTask_heldOrd (s : State) (n sl : Nat) (f : Task → Task) : (s.updTask n sl f).heldOrd = s.heldOrd := by
  unfold State.updTask; split <;> rfl
@[simp] theorem State.updTask_later (s : State) (n sl : Nat) (f : Task → Task) : (s.updTask n sl f).later = s.later := by
  unfold State.updTask; split <;> rfl
@[simp] theorem State.updTask_hostMem (s : State) (n sl : Nat) (f : Task → Task) : (s.updTask n sl f).hostMem = s.hostMem := by
  unfold State.updTask; split <;> rfl
@[simp] theorem State.updTask_host (s : State) (n sl : Nat) (f : Task → Task) : (s.updTask n sl f).host = s.host := by
  unfold State.updTask; split <;> rfl
@[simp] theorem State.updTask_hostOut (s : State) (n sl : Nat) (f : Task → Task) : (s.updTask n sl f).hostOut = s.hostOut := by
  unfold State.updTask; split <;> rfl
@[simp] theorem State.updTask_lastFn (s : State) (n sl : Nat) (f : Task → Task) : (s.updTask n sl f).lastFn = s.lastFn := by
  unfold State.updTask; split <;> rfl
@[simp] theorem State.updTask_dramTold (s : State) (n sl : Nat) (f : Task → Task) : (s.updTask n sl f).dramTold = s.dramTold := by
  unfold State.updTask; split <;> rfl
@[simp] theorem State.updTask_found (s : State) (n sl : Nat) (f : Task → Task) : (s.updTask n sl f).found = s.found := by
  unfold State.updTask; split <;> rfl
@[simp] theorem State.updTask_htsReqs (s : State) (n sl : Nat) (f : Task → Task) : (s.updTask n sl f).htsReqs = s.htsReqs := by
  unfold State.updTask; split <;> rfl
@[simp] theorem State.updTask_net (s : State) (n sl : Nat) (f : Task → Task) : (s.updTask n sl f).net = s.net := by
  unfold State.updTask; split <;> rfl
@[simp] theorem State.updTask_gone (s : State) (n sl : Nat) (f : Task → Task) : (s.updTask n sl f).gone = s.gone := by
  unfold State.updTask; split <;> rfl
@[simp] theorem State.updTask_portTlb (s : State) (n sl : Nat) (f : Task → Task) : (s.updTask n sl f).portTlb = s.portTlb := by
  unfold State.updTask; split <;> rfl
@[simp] theorem State.updTask_mgmt (s : State) (n sl : Nat) (f : Task → Task) : (s.updTask n sl f).mgmt = s.mgmt := by
  unfold State.updTask; split <;> rfl

@[simp] theorem State.updCtx_cyc (s : State) (k : Nat) (f : Context → Context) : (s.updCtx k f).cyc = s.cyc := by
  unfold State.updCtx; split <;> rfl
@[simp] theorem State.updCtx_turn (s : State) (k : Nat) (f : Context → Context) : (s.updCtx k f).turn = s.turn := by
  unfold State.updCtx; split <;> rfl
@[simp] theorem State.updCtx_agenda (s : State) (k : Nat) (f : Context → Context) : (s.updCtx k f).agenda = s.agenda := by
  unfold State.updCtx; split <;> rfl
@[simp] theorem State.updCtx_fresh (s : State) (k : Nat) (f : Context → Context) : (s.updCtx k f).fresh = s.fresh := by
  unfold State.updCtx; split <;> rfl
@[simp] theorem State.updCtx_nextId (s : State) (k : Nat) (f : Context → Context) : (s.updCtx k f).nextId = s.nextId := by
  unfold State.updCtx; split <;> rfl
@[simp] theorem State.updCtx_flights (s : State) (k : Nat) (f : Context → Context) : (s.updCtx k f).flights = s.flights := by
  unfold State.updCtx; split <;> rfl
@[simp] theorem State.updCtx_cores (s : State) (k : Nat) (f : Context → Context) : (s.updCtx k f).cores = s.cores := by
  unfold State.updCtx; split <;> rfl
@[simp] theorem State.updCtx_dram (s : State) (k : Nat) (f : Context → Context) : (s.updCtx k f).dram = s.dram := by
  unfold State.updCtx; split <;> rfl
@[simp] theorem State.updCtx_dramPoison (s : State) (k : Nat) (f : Context → Context) : (s.updCtx k f).dramPoison = s.dramPoison := by
  unfold State.updCtx; split <;> rfl
@[simp] theorem State.updCtx_hts (s : State) (k : Nat) (f : Context → Context) : (s.updCtx k f).hts = s.hts := by
  unfold State.updCtx; split <;> rfl
@[simp] theorem State.updCtx_bu (s : State) (k : Nat) (f : Context → Context) : (s.updCtx k f).bu = s.bu := by
  unfold State.updCtx; split <;> rfl
@[simp] theorem State.updCtx_parts (s : State) (k : Nat) (f : Context → Context) : (s.updCtx k f).parts = s.parts := by
  unfold State.updCtx; split <;> rfl
@[simp] theorem State.updCtx_gates (s : State) (k : Nat) (f : Context → Context) : (s.updCtx k f).gates = s.gates := by
  unfold State.updCtx; split <;> rfl
@[simp] theorem State.updCtx_gateReqs (s : State) (k : Nat) (f : Context → Context) : (s.updCtx k f).gateReqs = s.gateReqs := by
  unfold State.updCtx; split <;> rfl
@[simp] theorem State.updCtx_colls (s : State) (k : Nat) (f : Context → Context) : (s.updCtx k f).colls = s.colls := by
  unfold State.updCtx; split <;> rfl
@[simp] theorem State.updCtx_collCount (s : State) (k : Nat) (f : Context → Context) : (s.updCtx k f).collCount = s.collCount := by
  unfold State.updCtx; split <;> rfl
@[simp] theorem State.updCtx_collLate (s : State) (k : Nat) (f : Context → Context) : (s.updCtx k f).collLate = s.collLate := by
  unfold State.updCtx; split <;> rfl
@[simp] theorem State.updCtx_digests (s : State) (k : Nat) (f : Context → Context) : (s.updCtx k f).digests = s.digests := by
  unfold State.updCtx; split <;> rfl
@[simp] theorem State.updCtx_outbox (s : State) (k : Nat) (f : Context → Context) : (s.updCtx k f).outbox = s.outbox := by
  unfold State.updCtx; split <;> rfl
@[simp] theorem State.updCtx_loop (s : State) (k : Nat) (f : Context → Context) : (s.updCtx k f).loop = s.loop := by
  unfold State.updCtx; split <;> rfl
@[simp] theorem State.updCtx_heldOrd (s : State) (k : Nat) (f : Context → Context) : (s.updCtx k f).heldOrd = s.heldOrd := by
  unfold State.updCtx; split <;> rfl
@[simp] theorem State.updCtx_later (s : State) (k : Nat) (f : Context → Context) : (s.updCtx k f).later = s.later := by
  unfold State.updCtx; split <;> rfl
@[simp] theorem State.updCtx_hostMem (s : State) (k : Nat) (f : Context → Context) : (s.updCtx k f).hostMem = s.hostMem := by
  unfold State.updCtx; split <;> rfl
@[simp] theorem State.updCtx_host (s : State) (k : Nat) (f : Context → Context) : (s.updCtx k f).host = s.host := by
  unfold State.updCtx; split <;> rfl
@[simp] theorem State.updCtx_hostOut (s : State) (k : Nat) (f : Context → Context) : (s.updCtx k f).hostOut = s.hostOut := by
  unfold State.updCtx; split <;> rfl
@[simp] theorem State.updCtx_lastFn (s : State) (k : Nat) (f : Context → Context) : (s.updCtx k f).lastFn = s.lastFn := by
  unfold State.updCtx; split <;> rfl
@[simp] theorem State.updCtx_dramTold (s : State) (k : Nat) (f : Context → Context) : (s.updCtx k f).dramTold = s.dramTold := by
  unfold State.updCtx; split <;> rfl
@[simp] theorem State.updCtx_found (s : State) (k : Nat) (f : Context → Context) : (s.updCtx k f).found = s.found := by
  unfold State.updCtx; split <;> rfl
@[simp] theorem State.updCtx_htsReqs (s : State) (k : Nat) (f : Context → Context) : (s.updCtx k f).htsReqs = s.htsReqs := by
  unfold State.updCtx; split <;> rfl
@[simp] theorem State.updCtx_net (s : State) (k : Nat) (f : Context → Context) : (s.updCtx k f).net = s.net := by
  unfold State.updCtx; split <;> rfl
@[simp] theorem State.updCtx_gone (s : State) (k : Nat) (f : Context → Context) : (s.updCtx k f).gone = s.gone := by
  unfold State.updCtx; split <;> rfl
@[simp] theorem State.updCtx_portTlb (s : State) (k : Nat) (f : Context → Context) : (s.updCtx k f).portTlb = s.portTlb := by
  unfold State.updCtx; split <;> rfl
@[simp] theorem State.updCtx_mgmt (s : State) (k : Nat) (f : Context → Context) : (s.updCtx k f).mgmt = s.mgmt := by
  unfold State.updCtx; split <;> rfl

@[simp] theorem State.bill_cyc (s : State) (k : Nat) (f : Counters → Counters) : (s.bill k f).cyc = s.cyc := by
  simp [State.bill]
@[simp] theorem State.bill_turn (s : State) (k : Nat) (f : Counters → Counters) : (s.bill k f).turn = s.turn := by
  simp [State.bill]
@[simp] theorem State.bill_agenda (s : State) (k : Nat) (f : Counters → Counters) : (s.bill k f).agenda = s.agenda := by
  simp [State.bill]
@[simp] theorem State.bill_fresh (s : State) (k : Nat) (f : Counters → Counters) : (s.bill k f).fresh = s.fresh := by
  simp [State.bill]
@[simp] theorem State.bill_nextId (s : State) (k : Nat) (f : Counters → Counters) : (s.bill k f).nextId = s.nextId := by
  simp [State.bill]
@[simp] theorem State.bill_flights (s : State) (k : Nat) (f : Counters → Counters) : (s.bill k f).flights = s.flights := by
  simp [State.bill]
@[simp] theorem State.bill_cores (s : State) (k : Nat) (f : Counters → Counters) : (s.bill k f).cores = s.cores := by
  simp [State.bill]
@[simp] theorem State.bill_dram (s : State) (k : Nat) (f : Counters → Counters) : (s.bill k f).dram = s.dram := by
  simp [State.bill]
@[simp] theorem State.bill_dramPoison (s : State) (k : Nat) (f : Counters → Counters) : (s.bill k f).dramPoison = s.dramPoison := by
  simp [State.bill]
@[simp] theorem State.bill_hts (s : State) (k : Nat) (f : Counters → Counters) : (s.bill k f).hts = s.hts := by
  simp [State.bill]
@[simp] theorem State.bill_bu (s : State) (k : Nat) (f : Counters → Counters) : (s.bill k f).bu = s.bu := by
  simp [State.bill]
@[simp] theorem State.bill_parts (s : State) (k : Nat) (f : Counters → Counters) : (s.bill k f).parts = s.parts := by
  simp [State.bill]
@[simp] theorem State.bill_gates (s : State) (k : Nat) (f : Counters → Counters) : (s.bill k f).gates = s.gates := by
  simp [State.bill]
@[simp] theorem State.bill_gateReqs (s : State) (k : Nat) (f : Counters → Counters) : (s.bill k f).gateReqs = s.gateReqs := by
  simp [State.bill]
@[simp] theorem State.bill_colls (s : State) (k : Nat) (f : Counters → Counters) : (s.bill k f).colls = s.colls := by
  simp [State.bill]
@[simp] theorem State.bill_collCount (s : State) (k : Nat) (f : Counters → Counters) : (s.bill k f).collCount = s.collCount := by
  simp [State.bill]
@[simp] theorem State.bill_collLate (s : State) (k : Nat) (f : Counters → Counters) : (s.bill k f).collLate = s.collLate := by
  simp [State.bill]
@[simp] theorem State.bill_digests (s : State) (k : Nat) (f : Counters → Counters) : (s.bill k f).digests = s.digests := by
  simp [State.bill]
@[simp] theorem State.bill_outbox (s : State) (k : Nat) (f : Counters → Counters) : (s.bill k f).outbox = s.outbox := by
  simp [State.bill]
@[simp] theorem State.bill_loop (s : State) (k : Nat) (f : Counters → Counters) : (s.bill k f).loop = s.loop := by
  simp [State.bill]
@[simp] theorem State.bill_heldOrd (s : State) (k : Nat) (f : Counters → Counters) : (s.bill k f).heldOrd = s.heldOrd := by
  simp [State.bill]
@[simp] theorem State.bill_later (s : State) (k : Nat) (f : Counters → Counters) : (s.bill k f).later = s.later := by
  simp [State.bill]
@[simp] theorem State.bill_hostMem (s : State) (k : Nat) (f : Counters → Counters) : (s.bill k f).hostMem = s.hostMem := by
  simp [State.bill]
@[simp] theorem State.bill_host (s : State) (k : Nat) (f : Counters → Counters) : (s.bill k f).host = s.host := by
  simp [State.bill]
@[simp] theorem State.bill_hostOut (s : State) (k : Nat) (f : Counters → Counters) : (s.bill k f).hostOut = s.hostOut := by
  simp [State.bill]
@[simp] theorem State.bill_lastFn (s : State) (k : Nat) (f : Counters → Counters) : (s.bill k f).lastFn = s.lastFn := by
  simp [State.bill]
@[simp] theorem State.bill_dramTold (s : State) (k : Nat) (f : Counters → Counters) : (s.bill k f).dramTold = s.dramTold := by
  simp [State.bill]
@[simp] theorem State.bill_found (s : State) (k : Nat) (f : Counters → Counters) : (s.bill k f).found = s.found := by
  simp [State.bill]
@[simp] theorem State.bill_htsReqs (s : State) (k : Nat) (f : Counters → Counters) : (s.bill k f).htsReqs = s.htsReqs := by
  simp [State.bill]
@[simp] theorem State.bill_net (s : State) (k : Nat) (f : Counters → Counters) : (s.bill k f).net = s.net := by
  simp [State.bill]
@[simp] theorem State.bill_gone (s : State) (k : Nat) (f : Counters → Counters) : (s.bill k f).gone = s.gone := by
  simp [State.bill]
@[simp] theorem State.bill_portTlb (s : State) (k : Nat) (f : Counters → Counters) : (s.bill k f).portTlb = s.portTlb := by
  simp [State.bill]
@[simp] theorem State.bill_mgmt (s : State) (k : Nat) (f : Counters → Counters) : (s.bill k f).mgmt = s.mgmt := by
  simp [State.bill]

@[simp] theorem State.updHts_cyc (s : State) (c : Nat) (f : Hts → Hts) : (s.updHts c f).cyc = s.cyc := rfl
@[simp] theorem State.updHts_turn (s : State) (c : Nat) (f : Hts → Hts) : (s.updHts c f).turn = s.turn := rfl
@[simp] theorem State.updHts_agenda (s : State) (c : Nat) (f : Hts → Hts) : (s.updHts c f).agenda = s.agenda := rfl
@[simp] theorem State.updHts_fresh (s : State) (c : Nat) (f : Hts → Hts) : (s.updHts c f).fresh = s.fresh := rfl
@[simp] theorem State.updHts_nextId (s : State) (c : Nat) (f : Hts → Hts) : (s.updHts c f).nextId = s.nextId := rfl
@[simp] theorem State.updHts_flights (s : State) (c : Nat) (f : Hts → Hts) : (s.updHts c f).flights = s.flights := rfl
@[simp] theorem State.updHts_cores (s : State) (c : Nat) (f : Hts → Hts) : (s.updHts c f).cores = s.cores := rfl
@[simp] theorem State.updHts_dram (s : State) (c : Nat) (f : Hts → Hts) : (s.updHts c f).dram = s.dram := rfl
@[simp] theorem State.updHts_dramPoison (s : State) (c : Nat) (f : Hts → Hts) : (s.updHts c f).dramPoison = s.dramPoison := rfl
@[simp] theorem State.updHts_bu (s : State) (c : Nat) (f : Hts → Hts) : (s.updHts c f).bu = s.bu := rfl
@[simp] theorem State.updHts_parts (s : State) (c : Nat) (f : Hts → Hts) : (s.updHts c f).parts = s.parts := rfl
@[simp] theorem State.updHts_ctxs (s : State) (c : Nat) (f : Hts → Hts) : (s.updHts c f).ctxs = s.ctxs := rfl
@[simp] theorem State.updHts_gates (s : State) (c : Nat) (f : Hts → Hts) : (s.updHts c f).gates = s.gates := rfl
@[simp] theorem State.updHts_gateReqs (s : State) (c : Nat) (f : Hts → Hts) : (s.updHts c f).gateReqs = s.gateReqs := rfl
@[simp] theorem State.updHts_colls (s : State) (c : Nat) (f : Hts → Hts) : (s.updHts c f).colls = s.colls := rfl
@[simp] theorem State.updHts_collCount (s : State) (c : Nat) (f : Hts → Hts) : (s.updHts c f).collCount = s.collCount := rfl
@[simp] theorem State.updHts_collLate (s : State) (c : Nat) (f : Hts → Hts) : (s.updHts c f).collLate = s.collLate := rfl
@[simp] theorem State.updHts_digests (s : State) (c : Nat) (f : Hts → Hts) : (s.updHts c f).digests = s.digests := rfl
@[simp] theorem State.updHts_outbox (s : State) (c : Nat) (f : Hts → Hts) : (s.updHts c f).outbox = s.outbox := rfl
@[simp] theorem State.updHts_loop (s : State) (c : Nat) (f : Hts → Hts) : (s.updHts c f).loop = s.loop := rfl
@[simp] theorem State.updHts_heldOrd (s : State) (c : Nat) (f : Hts → Hts) : (s.updHts c f).heldOrd = s.heldOrd := rfl
@[simp] theorem State.updHts_later (s : State) (c : Nat) (f : Hts → Hts) : (s.updHts c f).later = s.later := rfl
@[simp] theorem State.updHts_hostMem (s : State) (c : Nat) (f : Hts → Hts) : (s.updHts c f).hostMem = s.hostMem := rfl
@[simp] theorem State.updHts_host (s : State) (c : Nat) (f : Hts → Hts) : (s.updHts c f).host = s.host := rfl
@[simp] theorem State.updHts_hostOut (s : State) (c : Nat) (f : Hts → Hts) : (s.updHts c f).hostOut = s.hostOut := rfl
@[simp] theorem State.updHts_lastFn (s : State) (c : Nat) (f : Hts → Hts) : (s.updHts c f).lastFn = s.lastFn := rfl
@[simp] theorem State.updHts_dramTold (s : State) (c : Nat) (f : Hts → Hts) : (s.updHts c f).dramTold = s.dramTold := rfl
@[simp] theorem State.updHts_found (s : State) (c : Nat) (f : Hts → Hts) : (s.updHts c f).found = s.found := rfl
@[simp] theorem State.updHts_htsReqs (s : State) (c : Nat) (f : Hts → Hts) : (s.updHts c f).htsReqs = s.htsReqs := rfl
@[simp] theorem State.updHts_net (s : State) (c : Nat) (f : Hts → Hts) : (s.updHts c f).net = s.net := rfl
@[simp] theorem State.updHts_gone (s : State) (c : Nat) (f : Hts → Hts) : (s.updHts c f).gone = s.gone := rfl
@[simp] theorem State.updHts_portTlb (s : State) (c : Nat) (f : Hts → Hts) : (s.updHts c f).portTlb = s.portTlb := rfl
@[simp] theorem State.updHts_mgmt (s : State) (c : Nat) (f : Hts → Hts) : (s.updHts c f).mgmt = s.mgmt := rfl

@[simp] theorem State.passWord_cyc (s : State) (e : Env) (pop : Bool) (tgt : Option Nat) : (s.passWord e pop tgt).cyc = s.cyc := by
  simp [State.passWord]
@[simp] theorem State.passWord_turn (s : State) (e : Env) (pop : Bool) (tgt : Option Nat) : (s.passWord e pop tgt).turn = s.turn := by
  simp [State.passWord]
@[simp] theorem State.passWord_agenda (s : State) (e : Env) (pop : Bool) (tgt : Option Nat) : (s.passWord e pop tgt).agenda = s.agenda := by
  simp [State.passWord]
@[simp] theorem State.passWord_fresh (s : State) (e : Env) (pop : Bool) (tgt : Option Nat) : (s.passWord e pop tgt).fresh = s.fresh := by
  simp [State.passWord]
@[simp] theorem State.passWord_nextId (s : State) (e : Env) (pop : Bool) (tgt : Option Nat) : (s.passWord e pop tgt).nextId = s.nextId := by
  simp [State.passWord]
@[simp] theorem State.passWord_flights (s : State) (e : Env) (pop : Bool) (tgt : Option Nat) : (s.passWord e pop tgt).flights = s.flights := by
  simp [State.passWord]
@[simp] theorem State.passWord_dram (s : State) (e : Env) (pop : Bool) (tgt : Option Nat) : (s.passWord e pop tgt).dram = s.dram := by
  simp [State.passWord]
@[simp] theorem State.passWord_dramPoison (s : State) (e : Env) (pop : Bool) (tgt : Option Nat) : (s.passWord e pop tgt).dramPoison = s.dramPoison := by
  simp [State.passWord]
@[simp] theorem State.passWord_hts (s : State) (e : Env) (pop : Bool) (tgt : Option Nat) : (s.passWord e pop tgt).hts = s.hts := by
  simp [State.passWord]
@[simp] theorem State.passWord_bu (s : State) (e : Env) (pop : Bool) (tgt : Option Nat) : (s.passWord e pop tgt).bu = s.bu := by
  simp [State.passWord]
@[simp] theorem State.passWord_parts (s : State) (e : Env) (pop : Bool) (tgt : Option Nat) : (s.passWord e pop tgt).parts = s.parts := by
  simp [State.passWord]
@[simp] theorem State.passWord_ctxs (s : State) (e : Env) (pop : Bool) (tgt : Option Nat) : (s.passWord e pop tgt).ctxs = s.ctxs := by
  simp [State.passWord]
@[simp] theorem State.passWord_gates (s : State) (e : Env) (pop : Bool) (tgt : Option Nat) : (s.passWord e pop tgt).gates = s.gates := by
  simp [State.passWord]
@[simp] theorem State.passWord_gateReqs (s : State) (e : Env) (pop : Bool) (tgt : Option Nat) : (s.passWord e pop tgt).gateReqs = s.gateReqs := by
  simp [State.passWord]
@[simp] theorem State.passWord_colls (s : State) (e : Env) (pop : Bool) (tgt : Option Nat) : (s.passWord e pop tgt).colls = s.colls := by
  simp [State.passWord]
@[simp] theorem State.passWord_collCount (s : State) (e : Env) (pop : Bool) (tgt : Option Nat) : (s.passWord e pop tgt).collCount = s.collCount := by
  simp [State.passWord]
@[simp] theorem State.passWord_collLate (s : State) (e : Env) (pop : Bool) (tgt : Option Nat) : (s.passWord e pop tgt).collLate = s.collLate := by
  simp [State.passWord]
@[simp] theorem State.passWord_digests (s : State) (e : Env) (pop : Bool) (tgt : Option Nat) : (s.passWord e pop tgt).digests = s.digests := by
  simp [State.passWord]
@[simp] theorem State.passWord_outbox (s : State) (e : Env) (pop : Bool) (tgt : Option Nat) : (s.passWord e pop tgt).outbox = s.outbox := by
  simp [State.passWord]
@[simp] theorem State.passWord_loop (s : State) (e : Env) (pop : Bool) (tgt : Option Nat) : (s.passWord e pop tgt).loop = s.loop := by
  simp [State.passWord]
@[simp] theorem State.passWord_heldOrd (s : State) (e : Env) (pop : Bool) (tgt : Option Nat) : (s.passWord e pop tgt).heldOrd = s.heldOrd := by
  simp [State.passWord]
@[simp] theorem State.passWord_later (s : State) (e : Env) (pop : Bool) (tgt : Option Nat) : (s.passWord e pop tgt).later = s.later := by
  simp [State.passWord]
@[simp] theorem State.passWord_hostMem (s : State) (e : Env) (pop : Bool) (tgt : Option Nat) : (s.passWord e pop tgt).hostMem = s.hostMem := by
  simp [State.passWord]
@[simp] theorem State.passWord_host (s : State) (e : Env) (pop : Bool) (tgt : Option Nat) : (s.passWord e pop tgt).host = s.host := by
  simp [State.passWord]
@[simp] theorem State.passWord_hostOut (s : State) (e : Env) (pop : Bool) (tgt : Option Nat) : (s.passWord e pop tgt).hostOut = s.hostOut := by
  simp [State.passWord]
@[simp] theorem State.passWord_lastFn (s : State) (e : Env) (pop : Bool) (tgt : Option Nat) : (s.passWord e pop tgt).lastFn = s.lastFn := by
  simp [State.passWord]
@[simp] theorem State.passWord_dramTold (s : State) (e : Env) (pop : Bool) (tgt : Option Nat) : (s.passWord e pop tgt).dramTold = s.dramTold := by
  simp [State.passWord]
@[simp] theorem State.passWord_found (s : State) (e : Env) (pop : Bool) (tgt : Option Nat) : (s.passWord e pop tgt).found = s.found := by
  simp [State.passWord]
@[simp] theorem State.passWord_htsReqs (s : State) (e : Env) (pop : Bool) (tgt : Option Nat) : (s.passWord e pop tgt).htsReqs = s.htsReqs := by
  simp [State.passWord]
@[simp] theorem State.passWord_net (s : State) (e : Env) (pop : Bool) (tgt : Option Nat) : (s.passWord e pop tgt).net = s.net := by
  simp [State.passWord]
@[simp] theorem State.passWord_gone (s : State) (e : Env) (pop : Bool) (tgt : Option Nat) : (s.passWord e pop tgt).gone = s.gone := by
  simp [State.passWord]
@[simp] theorem State.passWord_portTlb (s : State) (e : Env) (pop : Bool) (tgt : Option Nat) : (s.passWord e pop tgt).portTlb = s.portTlb := by
  simp [State.passWord]
@[simp] theorem State.passWord_mgmt (s : State) (e : Env) (pop : Bool) (tgt : Option Nat) : (s.passWord e pop tgt).mgmt = s.mgmt := by
  simp [State.passWord]

@[simp] theorem State.noteEarly_cyc (s : State) (e : Env) (y : Fly) : (s.noteEarly e y).cyc = s.cyc := by
  unfold State.noteEarly; split
  · rfl
  · split <;> simp
@[simp] theorem State.noteEarly_turn (s : State) (e : Env) (y : Fly) : (s.noteEarly e y).turn = s.turn := by
  unfold State.noteEarly; split
  · rfl
  · split <;> simp
@[simp] theorem State.noteEarly_agenda (s : State) (e : Env) (y : Fly) : (s.noteEarly e y).agenda = s.agenda := by
  unfold State.noteEarly; split
  · rfl
  · split <;> simp
@[simp] theorem State.noteEarly_fresh (s : State) (e : Env) (y : Fly) : (s.noteEarly e y).fresh = s.fresh := by
  unfold State.noteEarly; split
  · rfl
  · split <;> simp
@[simp] theorem State.noteEarly_nextId (s : State) (e : Env) (y : Fly) : (s.noteEarly e y).nextId = s.nextId := by
  unfold State.noteEarly; split
  · rfl
  · split <;> simp
@[simp] theorem State.noteEarly_flights (s : State) (e : Env) (y : Fly) : (s.noteEarly e y).flights = s.flights := by
  unfold State.noteEarly; split
  · rfl
  · split <;> simp
@[simp] theorem State.noteEarly_dram (s : State) (e : Env) (y : Fly) : (s.noteEarly e y).dram = s.dram := by
  unfold State.noteEarly; split
  · rfl
  · split <;> simp
@[simp] theorem State.noteEarly_dramPoison (s : State) (e : Env) (y : Fly) : (s.noteEarly e y).dramPoison = s.dramPoison := by
  unfold State.noteEarly; split
  · rfl
  · split <;> simp
@[simp] theorem State.noteEarly_hts (s : State) (e : Env) (y : Fly) : (s.noteEarly e y).hts = s.hts := by
  unfold State.noteEarly; split
  · rfl
  · split <;> simp
@[simp] theorem State.noteEarly_bu (s : State) (e : Env) (y : Fly) : (s.noteEarly e y).bu = s.bu := by
  unfold State.noteEarly; split
  · rfl
  · split <;> simp
@[simp] theorem State.noteEarly_parts (s : State) (e : Env) (y : Fly) : (s.noteEarly e y).parts = s.parts := by
  unfold State.noteEarly; split
  · rfl
  · split <;> simp
@[simp] theorem State.noteEarly_ctxs (s : State) (e : Env) (y : Fly) : (s.noteEarly e y).ctxs = s.ctxs := by
  unfold State.noteEarly; split
  · rfl
  · split <;> simp
@[simp] theorem State.noteEarly_gates (s : State) (e : Env) (y : Fly) : (s.noteEarly e y).gates = s.gates := by
  unfold State.noteEarly; split
  · rfl
  · split <;> simp
@[simp] theorem State.noteEarly_gateReqs (s : State) (e : Env) (y : Fly) : (s.noteEarly e y).gateReqs = s.gateReqs := by
  unfold State.noteEarly; split
  · rfl
  · split <;> simp
@[simp] theorem State.noteEarly_colls (s : State) (e : Env) (y : Fly) : (s.noteEarly e y).colls = s.colls := by
  unfold State.noteEarly; split
  · rfl
  · split <;> simp
@[simp] theorem State.noteEarly_collCount (s : State) (e : Env) (y : Fly) : (s.noteEarly e y).collCount = s.collCount := by
  unfold State.noteEarly; split
  · rfl
  · split <;> simp
@[simp] theorem State.noteEarly_collLate (s : State) (e : Env) (y : Fly) : (s.noteEarly e y).collLate = s.collLate := by
  unfold State.noteEarly; split
  · rfl
  · split <;> simp
@[simp] theorem State.noteEarly_digests (s : State) (e : Env) (y : Fly) : (s.noteEarly e y).digests = s.digests := by
  unfold State.noteEarly; split
  · rfl
  · split <;> simp
@[simp] theorem State.noteEarly_outbox (s : State) (e : Env) (y : Fly) : (s.noteEarly e y).outbox = s.outbox := by
  unfold State.noteEarly; split
  · rfl
  · split <;> simp
@[simp] theorem State.noteEarly_loop (s : State) (e : Env) (y : Fly) : (s.noteEarly e y).loop = s.loop := by
  unfold State.noteEarly; split
  · rfl
  · split <;> simp
@[simp] theorem State.noteEarly_heldOrd (s : State) (e : Env) (y : Fly) : (s.noteEarly e y).heldOrd = s.heldOrd := by
  unfold State.noteEarly; split
  · rfl
  · split <;> simp
@[simp] theorem State.noteEarly_later (s : State) (e : Env) (y : Fly) : (s.noteEarly e y).later = s.later := by
  unfold State.noteEarly; split
  · rfl
  · split <;> simp
@[simp] theorem State.noteEarly_hostMem (s : State) (e : Env) (y : Fly) : (s.noteEarly e y).hostMem = s.hostMem := by
  unfold State.noteEarly; split
  · rfl
  · split <;> simp
@[simp] theorem State.noteEarly_host (s : State) (e : Env) (y : Fly) : (s.noteEarly e y).host = s.host := by
  unfold State.noteEarly; split
  · rfl
  · split <;> simp
@[simp] theorem State.noteEarly_hostOut (s : State) (e : Env) (y : Fly) : (s.noteEarly e y).hostOut = s.hostOut := by
  unfold State.noteEarly; split
  · rfl
  · split <;> simp
@[simp] theorem State.noteEarly_lastFn (s : State) (e : Env) (y : Fly) : (s.noteEarly e y).lastFn = s.lastFn := by
  unfold State.noteEarly; split
  · rfl
  · split <;> simp
@[simp] theorem State.noteEarly_dramTold (s : State) (e : Env) (y : Fly) : (s.noteEarly e y).dramTold = s.dramTold := by
  unfold State.noteEarly; split
  · rfl
  · split <;> simp
@[simp] theorem State.noteEarly_found (s : State) (e : Env) (y : Fly) : (s.noteEarly e y).found = s.found := by
  unfold State.noteEarly; split
  · rfl
  · split <;> simp
@[simp] theorem State.noteEarly_htsReqs (s : State) (e : Env) (y : Fly) : (s.noteEarly e y).htsReqs = s.htsReqs := by
  unfold State.noteEarly; split
  · rfl
  · split <;> simp
@[simp] theorem State.noteEarly_net (s : State) (e : Env) (y : Fly) : (s.noteEarly e y).net = s.net := by
  unfold State.noteEarly; split
  · rfl
  · split <;> simp
@[simp] theorem State.noteEarly_gone (s : State) (e : Env) (y : Fly) : (s.noteEarly e y).gone = s.gone := by
  unfold State.noteEarly; split
  · rfl
  · split <;> simp
@[simp] theorem State.noteEarly_portTlb (s : State) (e : Env) (y : Fly) : (s.noteEarly e y).portTlb = s.portTlb := by
  unfold State.noteEarly; split
  · rfl
  · split <;> simp
@[simp] theorem State.noteEarly_mgmt (s : State) (e : Env) (y : Fly) : (s.noteEarly e y).mgmt = s.mgmt := by
  unfold State.noteEarly; split
  · rfl
  · split <;> simp

@[simp] theorem State.addFlight_cyc (s : State) (e : Env) (y : Fly) : (s.addFlight e y).cyc = s.cyc := by
  simp [State.addFlight]
@[simp] theorem State.addFlight_turn (s : State) (e : Env) (y : Fly) : (s.addFlight e y).turn = s.turn := by
  simp [State.addFlight]
@[simp] theorem State.addFlight_agenda (s : State) (e : Env) (y : Fly) : (s.addFlight e y).agenda = s.agenda := by
  simp [State.addFlight]
@[simp] theorem State.addFlight_dram (s : State) (e : Env) (y : Fly) : (s.addFlight e y).dram = s.dram := by
  simp [State.addFlight]
@[simp] theorem State.addFlight_dramPoison (s : State) (e : Env) (y : Fly) : (s.addFlight e y).dramPoison = s.dramPoison := by
  simp [State.addFlight]
@[simp] theorem State.addFlight_hts (s : State) (e : Env) (y : Fly) : (s.addFlight e y).hts = s.hts := by
  simp [State.addFlight]
@[simp] theorem State.addFlight_bu (s : State) (e : Env) (y : Fly) : (s.addFlight e y).bu = s.bu := by
  simp [State.addFlight]
@[simp] theorem State.addFlight_parts (s : State) (e : Env) (y : Fly) : (s.addFlight e y).parts = s.parts := by
  simp [State.addFlight]
@[simp] theorem State.addFlight_ctxs (s : State) (e : Env) (y : Fly) : (s.addFlight e y).ctxs = s.ctxs := by
  simp [State.addFlight]
@[simp] theorem State.addFlight_gates (s : State) (e : Env) (y : Fly) : (s.addFlight e y).gates = s.gates := by
  simp [State.addFlight]
@[simp] theorem State.addFlight_gateReqs (s : State) (e : Env) (y : Fly) : (s.addFlight e y).gateReqs = s.gateReqs := by
  simp [State.addFlight]
@[simp] theorem State.addFlight_colls (s : State) (e : Env) (y : Fly) : (s.addFlight e y).colls = s.colls := by
  simp [State.addFlight]
@[simp] theorem State.addFlight_collCount (s : State) (e : Env) (y : Fly) : (s.addFlight e y).collCount = s.collCount := by
  simp [State.addFlight]
@[simp] theorem State.addFlight_collLate (s : State) (e : Env) (y : Fly) : (s.addFlight e y).collLate = s.collLate := by
  simp [State.addFlight]
@[simp] theorem State.addFlight_digests (s : State) (e : Env) (y : Fly) : (s.addFlight e y).digests = s.digests := by
  simp [State.addFlight]
@[simp] theorem State.addFlight_outbox (s : State) (e : Env) (y : Fly) : (s.addFlight e y).outbox = s.outbox := by
  simp [State.addFlight]
@[simp] theorem State.addFlight_loop (s : State) (e : Env) (y : Fly) : (s.addFlight e y).loop = s.loop := by
  simp [State.addFlight]
@[simp] theorem State.addFlight_heldOrd (s : State) (e : Env) (y : Fly) : (s.addFlight e y).heldOrd = s.heldOrd := by
  simp [State.addFlight]
@[simp] theorem State.addFlight_later (s : State) (e : Env) (y : Fly) : (s.addFlight e y).later = s.later := by
  simp [State.addFlight]
@[simp] theorem State.addFlight_hostMem (s : State) (e : Env) (y : Fly) : (s.addFlight e y).hostMem = s.hostMem := by
  simp [State.addFlight]
@[simp] theorem State.addFlight_host (s : State) (e : Env) (y : Fly) : (s.addFlight e y).host = s.host := by
  simp [State.addFlight]
@[simp] theorem State.addFlight_hostOut (s : State) (e : Env) (y : Fly) : (s.addFlight e y).hostOut = s.hostOut := by
  simp [State.addFlight]
@[simp] theorem State.addFlight_lastFn (s : State) (e : Env) (y : Fly) : (s.addFlight e y).lastFn = s.lastFn := by
  simp [State.addFlight]
@[simp] theorem State.addFlight_dramTold (s : State) (e : Env) (y : Fly) : (s.addFlight e y).dramTold = s.dramTold := by
  simp [State.addFlight]
@[simp] theorem State.addFlight_found (s : State) (e : Env) (y : Fly) : (s.addFlight e y).found = s.found := by
  simp [State.addFlight]
@[simp] theorem State.addFlight_htsReqs (s : State) (e : Env) (y : Fly) : (s.addFlight e y).htsReqs = s.htsReqs := by
  simp [State.addFlight]
@[simp] theorem State.addFlight_net (s : State) (e : Env) (y : Fly) : (s.addFlight e y).net = s.net := by
  simp [State.addFlight]
@[simp] theorem State.addFlight_gone (s : State) (e : Env) (y : Fly) : (s.addFlight e y).gone = s.gone := by
  simp [State.addFlight]
@[simp] theorem State.addFlight_portTlb (s : State) (e : Env) (y : Fly) : (s.addFlight e y).portTlb = s.portTlb := by
  simp [State.addFlight]
@[simp] theorem State.addFlight_mgmt (s : State) (e : Env) (y : Fly) : (s.addFlight e y).mgmt = s.mgmt := by
  simp [State.addFlight]


/-! ## What is stored -/

@[simp] theorem State.nextTurn_turn (s : State) : s.nextTurn.turn = s.turn + 1 := rfl
@[simp] theorem State.nextCore_turn (s : State) : s.nextCore.turn = 4 * (s.turn / 4 + 1) := rfl
@[simp] theorem State.nextTurn_core (s : State) (n : Nat) : s.nextTurn.core n = s.core n := rfl
@[simp] theorem State.nextCore_core (s : State) (n : Nat) : s.nextCore.core n = s.core n := rfl
@[simp] theorem State.nextTurn_task? (s : State) (n sl : Nat) : s.nextTurn.task? n sl = s.task? n sl := rfl
@[simp] theorem State.nextCore_task? (s : State) (n sl : Nat) : s.nextCore.task? n sl = s.task? n sl := rfl

@[simp] theorem State.core_setCore_self (s : State) (n : Nat) (c : Core) : (s.setCore n c).core n = c := by
  simp [State.core, State.setCore]
theorem State.core_setCore_ne (s : State) (n m : Nat) (c : Core) (h : m ≠ n) : (s.setCore n c).core m = s.core m := by
  simp [State.core, State.setCore, SMap.get_set_ne _ _ _ _ _ h]
@[simp] theorem State.core_updCore_self (s : State) (n : Nat) (f : Core → Core) : (s.updCore n f).core n = f (s.core n) := by
  simp [State.updCore]
theorem State.core_updCore_ne (s : State) (n m : Nat) (f : Core → Core) (h : m ≠ n) : (s.updCore n f).core m = s.core m :=
  State.core_setCore_ne s n m _ h
@[simp] theorem State.task?_setTask_self (s : State) (n sl : Nat) (k : Task) : (s.setTask n sl k).task? n sl = some k := by
  simp [State.task?, State.setTask]
theorem State.task?_setTask_ne (s : State) (n sl m sm : Nat) (k : Task) (h : m ≠ n ∨ sm ≠ sl) :
    (s.setTask n sl k).task? m sm = s.task? m sm := by
  unfold State.task? State.setTask
  by_cases hm : m = n
  · subst hm
    rw [State.core_updCore_self]
    exact SMap.find?_set_ne _ _ _ _ (by simpa using h)
  · rw [State.core_updCore_ne _ _ _ _ hm]
/-- The task of a slot after it has been changed. -/
theorem State.task?_updTask_self {s : State} {n sl : Nat} {k : Task} (h : s.task? n sl = some k) (f : Task → Task) :
    (s.updTask n sl f).task? n sl = some (f k) := by
  simp [State.updTask, h]
theorem State.task?_updTask_ne (s : State) (n sl m sm : Nat) (f : Task → Task) (h : m ≠ n ∨ sm ≠ sl) :
    (s.updTask n sl f).task? m sm = s.task? m sm := by
  unfold State.updTask
  split
  · rfl
  · exact State.task?_setTask_ne s n sl m sm _ h
/-- A slot without a task stays so. -/
theorem State.task?_updTask_none {s : State} {n sl : Nat} (h : s.task? n sl = none) (f : Task → Task) :
    s.updTask n sl f = s := by
  simp [State.updTask, h]
/-- Two changes of one task are one. -/
theorem State.updTask_updTask (s : State) (n sl : Nat) (f g : Task → Task) :
    ((s.updTask n sl f).updTask n sl g).task? n sl = (s.updTask n sl fun k => g (f k)).task? n sl := by
  cases h : s.task? n sl with
  | none => simp [State.task?_updTask_none h, h]
  | some k => rw [State.task?_updTask_self (State.task?_updTask_self h f), State.task?_updTask_self h]
/-- What a change of a task leaves alone in every core. -/
theorem State.core_setTask (s : State) (n sl m : Nat) (k : Task) :
    (s.setTask n sl k).core m = { s.core m with slots := ((s.setTask n sl k).core m).slots } := by
  unfold State.setTask
  by_cases h : m = n
  · subst h; simp
  · rw [State.core_updCore_ne _ _ _ _ h]
theorem State.core_updTask (s : State) (n sl m : Nat) (f : Task → Task) :
    (s.updTask n sl f).core m = { s.core m with slots := ((s.updTask n sl f).core m).slots } := by
  unfold State.updTask
  split
  · rfl
  · exact State.core_setTask s n sl m _
/-- The scratchpads are not touched by a change of a task. -/
@[simp] theorem State.scratch_updTask (s : State) (n sl m : Nat) (f : Task → Task) :
    ((s.updTask n sl f).core m).scratch = (s.core m).scratch := by rw [State.core_updTask]
@[simp] theorem State.vec_updTask (s : State) (n sl m : Nat) (f : Task → Task) :
    ((s.updTask n sl f).core m).vec = (s.core m).vec := by rw [State.core_updTask]
@[simp] theorem State.msk_updTask (s : State) (n sl m : Nat) (f : Task → Task) :
    ((s.updTask n sl f).core m).msk = (s.core m).msk := by rw [State.core_updTask]
@[simp] theorem State.mxe_updTask (s : State) (n sl m : Nat) (f : Task → Task) :
    ((s.updTask n sl f).core m).mxe = (s.core m).mxe := by rw [State.core_updTask]
@[simp] theorem State.active_updTask (s : State) (n sl m : Nat) (f : Task → Task) :
    ((s.updTask n sl f).core m).active = (s.core m).active := by rw [State.core_updTask]
@[simp] theorem State.windows_updTask (s : State) (n sl m : Nat) (f : Task → Task) :
    ((s.updTask n sl f).core m).windows = (s.core m).windows := by rw [State.core_updTask]
@[simp] theorem State.bars_updTask (s : State) (n sl m : Nat) (f : Task → Task) :
    ((s.updTask n sl f).core m).bars = (s.core m).bars := by rw [State.core_updTask]

/-! ## Strands -/

@[simp] theorem Task.str_setStr_self (k : Task) (t : Strand) (x : StrandSt) : (k.setStr t x).str t = x := by cases t <;> rfl
theorem Task.str_setStr_ne (k : Task) (t u : Strand) (x : StrandSt) (h : u ≠ t) : (k.setStr t x).str u = k.str u := by
  cases t <;> cases u <;> first | rfl | exact absurd rfl h
@[simp] theorem Task.str_updStr_self (k : Task) (t : Strand) (f : StrandSt → StrandSt) : (k.updStr t f).str t = f (k.str t) :=
  Task.str_setStr_self k t _
theorem Task.str_updStr_ne (k : Task) (t u : Strand) (f : StrandSt → StrandSt) (h : u ≠ t) : (k.updStr t f).str u = k.str u :=
  Task.str_setStr_ne k t u _ h
@[simp] theorem Task.str_updAll (k : Task) (t : Strand) (f : StrandSt → StrandSt) : (k.updAll f).str t = f (k.str t) := by
  cases t <;> rfl

/-! ## Registers -/

@[simp] theorem StrandSt.reg_zero (x : StrandSt) : x.reg 0 = 0 := rfl
@[simp] theorem StrandSt.setReg_zero (x : StrandSt) (v : Word) : x.setReg 0 v = x := rfl
@[simp] theorem StrandSt.pred_zero (x : StrandSt) : x.pred 0 = true := rfl
@[simp] theorem StrandSt.setPred_zero (x : StrandSt) (v : Bool) : x.setPred 0 v = x := rfl
theorem StrandSt.reg_setReg_self (x : StrandSt) (n : Nat) (v : Word) (h : n ≠ 0) : (x.setReg n v).reg n = v := by
  simp [StrandSt.reg, StrandSt.setReg, h]
theorem StrandSt.reg_setReg_ne (x : StrandSt) (n m : Nat) (v : Word) (h : m ≠ n) : (x.setReg n v).reg m = x.reg m := by
  by_cases hn : n = 0
  · subst hn; rfl
  · by_cases hm : m = 0
    · subst hm; rfl
    · simp [StrandSt.reg, StrandSt.setReg, hn, hm, SMap.get_set_ne _ _ _ _ _ h]

/-! ## Contexts and schedulers -/

theorem State.ctx_updCtx_self {s : State} {k : Nat} {c : Context} (h : SMap.find? s.ctxs k = some c) (f : Context → Context) :
    (s.updCtx k f).ctx k = f c := by
  simp [State.updCtx, h, State.ctx]
theorem State.ctx_updCtx_ne (s : State) (k j : Nat) (f : Context → Context) (h : j ≠ k) : (s.updCtx k f).ctx j = s.ctx j := by
  unfold State.updCtx
  split
  · rfl
  · simp [State.ctx, SMap.get_set_ne _ _ _ _ _ h]
@[simp] theorem State.htsOf_updHts_self (s : State) (c : Nat) (f : Hts → Hts) : (s.updHts c f).htsOf c = f (s.htsOf c) := by
  simp [State.htsOf, State.updHts]
theorem State.htsOf_updHts_ne (s : State) (c d : Nat) (f : Hts → Hts) (h : d ≠ c) : (s.updHts c f).htsOf d = s.htsOf d := by
  simp [State.htsOf, State.updHts, SMap.get_set_ne _ _ _ _ _ h]

end Sys2Proof.Machine
end

