-- ==== Sys2Proof/Laws/Issue.lean ====
section
/-!
SUPPORT. What the shared operations of issue answer when a word has its effect: one lemma for ordinary words, for vector words, for
control-flow words and for rendezvous words, and what the state that follows holds.
-/
namespace Sys2Proof.Machine

/-! ## Answers -/

/-- A word that issues gives its body's answer to `settle`. -/
theorem issue_of {s : State} {h : Hdr} {lat : Nat} {p : Ports} {e : Env} {body : Env → State → Res} (H : Issues s h lat p e) :
    issue h lat p body s = .next (s.settle e.popped p.pop (body e.popped s)) := by
  have hd : ¬ h.dst.toNat < lat := by have := H.dist; omega
  have hq : (p.pop && (e.task.queue e.t.code).isEmpty) = false := by
    cases hp : p.pop
    · rfl
    · rw [H.pop hp]; rfl
  unfold issue
  rw [H.env]
  simp only []
  rw [if_neg (by simp [H.live, H.window]), if_neg (by simp [H.own]), if_neg hd, if_neg (by simp [H.tags, H.tokens]),
    if_neg (by simp [H.pred]), if_neg (by simp [hq])]
  rw [if_neg]
  · rfl
  · cases hp : p.push with
    | none => simp
    | some c => simp [H.push c hp]
/-- A word with a result in flight. -/
theorem issued_of {s : State} {h : Hdr} {lat : Nat} {p : Ports} {e : Env} {body : Env → State → Res} {s' : State} {y : Fly}
    (H : Issues s h lat p e) (hb : body e.popped s = .fly s' y) :
    issue h lat p body s = .next (s'.issued e.popped p.pop y) := by
  rw [issue_of H, hb]; rfl
/-- A word without a result. -/
theorem doneAs_of {s : State} {h : Hdr} {lat : Nat} {p : Ports} {e : Env} {body : Env → State → Res} {s' : State} {tgt : Option Nat}
    (H : Issues s h lat p e) (hb : body e.popped s = .done s' tgt) :
    issue h lat p body s = .next (s'.doneAs e.popped p.pop tgt) := by
  rw [issue_of H, hb]; rfl
/-- A word that raises a precise trap. -/
theorem trapped_of {s : State} {h : Hdr} {lat : Nat} {p : Ports} {e : Env} {body : Env → State → Res} {c f i es : Nat} {r : Resume}
    (H : Issues s h lat p e) (hb : body e.popped s = .trap c f i r es) :
    issue h lat p body s = .next ((s.raise e.core e.slot (e.info c f i r es)).nextCore) := by
  rw [issue_of H, hb]; rfl

/-! ## The executing strand -/

/-- The strand of `e` is one of the active task of its core. -/
theorem State.task_of_env {s : State} {h : Hdr} {e : Env} (H : s.env? h = some e) : s.task? e.core e.slot = some e.task := by
  unfold State.env? at H
  simp only [] at H
  split at H
  · cases H
  · split at H
    · cases H
    · rename_i hk
      cases H
      exact hk
theorem State.active_of_env {s : State} {h : Hdr} {e : Env} (H : s.env? h = some e) : (s.core e.core).active = some e.slot := by
  unfold State.env? at H
  simp only [] at H
  split at H
  · cases H
  · rename_i ha
    split at H
    · cases H
    · cases H
      exact ha
/-- The header that an environment holds. -/
theorem State.hdr_of_env {s : State} {h : Hdr} {e : Env} (H : s.env? h = some e) : e.h = h := by
  unfold State.env? at H
  simp only [] at H
  split at H
  · cases H
  · split at H
    · cases H
    · cases H; rfl

/-! ## What reading early leaves alone -/

theorem StrandSt.setReg_wc (x : StrandSt) (n : Nat) (v : Word) : (x.setReg n v).wc = x.wc := by
  unfold StrandSt.setReg; split <;> rfl
theorem StrandSt.setPred_wc (x : StrandSt) (n : Nat) (v : Bool) : (x.setPred n v).wc = x.wc := by
  unfold StrandSt.setPred; split <;> rfl
theorem StrandSt.setReg_ip (x : StrandSt) (n : Nat) (v : Word) : (x.setReg n v).ip = x.ip := by
  unfold StrandSt.setReg; split <;> rfl
theorem StrandSt.setPred_ip (x : StrandSt) (n : Nat) (v : Bool) : (x.setPred n v).ip = x.ip := by
  unfold StrandSt.setPred; split <;> rfl

/-- A fold that keeps a property of the strand at each step keeps it. -/
theorem foldl_keeps {α β γ : Type} (g : α → γ) (f : α → β → α) (hf : ∀ a b, g (f a b) = g a) (l : List β) (a : α) :
    g (l.foldl f a) = g a := by
  induction l generalizing a with
  | nil => rfl
  | cons b t ih => rw [List.foldl_cons, ih, hf]

theorem State.readable_wc (s : State) (n : Nat) (t : Strand) (k : Task) : (s.readable n t k).wc = (k.str t).wc := by
  unfold State.readable
  split
  · rfl
  · simp only []
    refine (foldl_keeps StrandSt.wc _ ?_ _ _).trans ((foldl_keeps StrandSt.wc _ ?_ _ _).trans rfl)
    · intro a b; split <;> simp [StrandSt.setPred_wc]
    · intro a b; split <;> simp [StrandSt.setReg_wc]
theorem State.readable_ip (s : State) (n : Nat) (t : Strand) (k : Task) : (s.readable n t k).ip = (k.str t).ip := by
  unfold State.readable
  split
  · rfl
  · simp only []
    refine (foldl_keeps StrandSt.ip _ ?_ _ _).trans ((foldl_keeps StrandSt.ip _ ?_ _ _).trans rfl)
    · intro a b; split <;> simp [StrandSt.setPred_ip]
    · intro a b; split <;> simp [StrandSt.setReg_ip]
theorem State.env_wc {s : State} {h : Hdr} {e : Env} (H : s.env? h = some e) : e.st.wc = (e.task.str e.t).wc := by
  unfold State.env? at H
  simp only [] at H
  split at H
  · cases H
  · split at H
    · cases H
    · cases H; exact State.readable_wc ..
theorem State.env_ip {s : State} {h : Hdr} {e : Env} (H : s.env? h = some e) : e.st.ip = (e.task.str e.t).ip := by
  unfold State.env? at H
  simp only [] at H
  split at H
  · cases H
  · split at H
    · cases H
    · cases H; exact State.readable_ip ..

/-! ## The state after issue -/

/-- The start of a handler's budget leaves the strands alone. -/
theorem Task.startBudget_str (k : Task) (cyc : Nat) (t : Strand) : (k.startBudget cyc).str t = k.str t := by
  unfold Task.startBudget
  split
  · split <;> cases t <;> rfl
  · rfl
/-- What the `TOK` and `TAL` bits do leaves the strands' registers, pointers and counts alone. -/
theorem Task.claim_str (k : Task) (h : Hdr) (cyc : Nat) (t : Strand) :
    (k.claim h cyc).str t = { k.str t with tags := ((k.claim h cyc).str t).tags } := by
  unfold Task.claim
  simp only []
  have h1 : ∀ (k : Task) on key, (k.consume on key cyc).str t = k.str t := by
    intro k on key; unfold Task.consume; split <;> cases t <;> rfl
  have h2 : ∀ (k : Task) on key, (k.reserve on key).str t = k.str t := by
    intro k on key; unfold Task.reserve; split <;> cases t <;> rfl
  split
  · by_cases ht : t = h.str
    · subst ht
      simp only [Task.str_updStr_self, h1, h2, Task.startBudget_str]
    · rw [Task.str_updStr_ne _ _ _ _ ht]
      simp only [h1, h2, Task.startBudget_str]
  · simp only [h1, h2, Task.startBudget_str]

/-- The task of the strand after its word: the strand stands at the next word, with one word more counted, and no register of
any strand has changed. -/
theorem State.task_passWord {s : State} {e : Env} {k : Task} (hk : s.task? e.core e.slot = some k) (pop : Bool) (tgt : Option Nat) :
    ∃ k', (s.passWord e pop tgt).task? e.core e.slot = some k' ∧
      (k'.str e.t).ip = tgt.getD ((k.str e.t).ip + 1) ∧ (k'.str e.t).wc = (k.str e.t).wc + 1 ∧
      ∀ t, (k'.str t).a = (k.str t).a ∧ (k'.str t).p = (k.str t).p ∧ (k'.str t).q = (k.str t).q ∧
        (k'.str t).lc = (k.str t).lc ∧ (k'.str t).spill = (k.str t).spill := by
  refine ⟨_, State.task?_updTask_self hk _, ?_⟩
  have hc := Task.claim_str k e.h s.cyc
  have hq : ∀ t, ((if pop = true then { k.claim e.h s.cyc with sq := SMap.upd (k.claim e.h s.cyc).sq [] e.t.code List.tail }
      else k.claim e.h s.cyc) : Task).str t = (k.claim e.h s.cyc).str t := by
    intro t; split <;> cases t <;> rfl
  refine ⟨?_, ?_, ?_⟩
  · rw [Task.str_updStr_self, hq, hc]; rfl
  · rw [Task.str_updStr_self, hq, hc]; rfl
  · intro t
    by_cases ht : t = e.t
    · subst ht
      rw [Task.str_updStr_self, hq, hc]
      exact ⟨rfl, rfl, rfl, rfl, rfl⟩
    · rw [Task.str_updStr_ne _ _ _ _ ht, hq, hc]
      exact ⟨rfl, rfl, rfl, rfl, rfl⟩

/-- The hazard note of a result in flight leaves registers, pointers and counts alone (R52). -/
theorem State.task_noteEarly {s : State} {e : Env} {k : Task} (hk : s.task? e.core e.slot = some k) (y : Fly) :
    ∃ k', (s.noteEarly e y).task? e.core e.slot = some k' ∧
      ∀ t, (k'.str t) = { k.str t with haz := (k'.str t).haz } := by
  unfold State.noteEarly
  split
  · exact ⟨k, hk, fun _ => rfl⟩
  · split
    · exact ⟨k, hk, fun _ => rfl⟩
    · refine ⟨_, State.task?_updTask_self hk _, fun t => ?_⟩
      by_cases ht : t = e.t
      · subst ht; rw [Task.str_updStr_self]
      · rw [Task.str_updStr_ne _ _ _ _ ht]

theorem State.task_addFlight {s : State} {e : Env} {k : Task} (hk : s.task? e.core e.slot = some k) (y : Fly) :
    ∃ k', (s.addFlight e y).task? e.core e.slot = some k' ∧
      ∀ t, (k'.str t) = { k.str t with haz := (k'.str t).haz } := State.task_noteEarly hk y

/-- The task of the strand after a word whose result is in flight. -/
theorem State.task_issued {s : State} {e : Env} {k : Task} (hk : s.task? e.core e.slot = some k) (pop : Bool) (y : Fly) :
    ∃ k', (s.issued e pop y).task? e.core e.slot = some k' ∧
      (k'.str e.t).ip = (k.str e.t).ip + 1 ∧ (k'.str e.t).wc = (k.str e.t).wc + 1 ∧
      ∀ t, (k'.str t).a = (k.str t).a ∧ (k'.str t).p = (k.str t).p ∧ (k'.str t).q = (k.str t).q ∧
        (k'.str t).lc = (k.str t).lc ∧ (k'.str t).spill = (k.str t).spill := by
  obtain ⟨k1, h1, h2⟩ := State.task_addFlight hk y
  obtain ⟨k2, h3, h4, h5, h6⟩ := State.task_passWord (e := e) h1 pop none
  refine ⟨k2, h3, ?_, ?_, fun t => ?_⟩
  · rw [h4, h2]; rfl
  · rw [h5, h2]
  · have := h6 t
    rw [h2 t] at this
    exact this

@[simp] theorem State.issued_flights (s : State) (e : Env) (pop : Bool) (y : Fly) :
    (s.issued e pop y).flights = (s.addFlight e y).flights := by simp [State.issued]

/-! ## Vector words -/

/-- A vector word of the `X` strand with a result also counts its cycle in `VBUSY` (R381). -/
theorem vissued_of {s : State} {h : Hdr} {lat : Nat} {p : Ports} {e : Env} {body : Env → State → Res} {y : Fly}
    (H : Issues s h lat p e) (hb : body e.popped s = .fly s y) :
    vissue h lat p body s = .next (s.vissued e.popped p.pop y) := by
  obtain ⟨k', h1, _, h3, _⟩ := State.task_issued (e := e.popped) (k := e.task)
    (show s.task? e.core e.slot = some e.task from State.task_of_env H.env) p.pop y
  have h4 : (k'.str e.t).wc = e.st.wc + 1 := by rw [State.env_wc H.env]; exact h3
  have h1' : (s.issued e.popped p.pop y).task? e.core e.slot = some k' := h1
  unfold vissue State.countIssue State.vissued
  rw [issued_of H hb]
  simp only [H.env, h1']
  rw [if_pos ⟨H.own, by omega⟩]
  rfl

/-- A vector word that raises a precise trap counts nothing. -/
theorem vtrapped_of {s : State} {h : Hdr} {lat : Nat} {p : Ports} {e : Env} {body : Env → State → Res} {c f i es : Nat} {r : Resume}
    (H : Issues s h lat p e) (hb : body e.popped s = .trap c f i r es)
    (hn : ∀ k', (s.raise e.core e.slot (e.info c f i r es)).nextCore.task? e.core e.slot = some k' → (k'.str e.t).wc ≠ e.st.wc + 1) :
    vissue h lat p body s = .next ((s.raise e.core e.slot (e.info c f i r es)).nextCore) := by
  unfold vissue State.countIssue
  rw [trapped_of H hb]
  simp only [H.env]
  split
  · rfl
  · rename_i k' hk
    rw [if_neg (fun hc => hn k' hk hc.2)]

/-! ## Control flow -/

/-- A control-flow word that is evaluated with predicate 1 and writes no link. -/
theorem control_of {s : State} {h : Hdr} {pop : Bool} {eval : Env → Bool → Eval} {every : StrandSt → Nat → StrandSt} {e : Env}
    {taken : Bool} {target count : Nat} (H : Evaluates s h pop e) (hb : eval e.popped true = .go taken target count none) :
    control h pop eval every s =
      .next ((s.updTask e.core e.slot fun k =>
        (k.pushOutcome e.t.code ⟨s.cyc, taken, target, count, true⟩).updStr e.t fun x => every x count).doneAs e.popped pop
          (if taken then some target else none)) := by
  have hq : (pop && (e.task.queue e.t.code).isEmpty) = false := by
    cases hp : pop
    · rfl
    · rw [H.pop hp]; rfl
  unfold control
  rw [H.env]
  simp only []
  rw [if_neg (by simp [H.live, H.window]), if_neg (by simp [H.own]), if_neg (by simp [H.tags, H.tokens]),
    if_neg (by simp [H.room])]
  have hb' : eval { e with qi := (e.task.queue e.t.code).headD 0 } true = .go taken target count none := hb
  simp only [H.pred, Bool.true_and, Bool.and_true, hq, Bool.false_eq_true, if_false, hb', if_true]
  rfl
/-- A call that is evaluated with predicate 1. -/
theorem control_link_of {s : State} {h : Hdr} {pop : Bool} {eval : Env → Bool → Eval} {every : StrandSt → Nat → StrandSt} {e : Env}
    {taken : Bool} {target count n : Nat} {v : Word} (H : Evaluates s h pop e)
    (hb : eval e.popped true = .go taken target count (some (n, v))) :
    control h pop eval every s =
      .next ((s.updTask e.core e.slot fun k =>
        (k.pushOutcome e.t.code ⟨s.cyc, taken, target, count, true⟩).updStr e.t fun x => (every x count).setLink e s.cyc n v).doneAs e.popped pop
          (if taken then some target else none)) := by
  have hq : (pop && (e.task.queue e.t.code).isEmpty) = false := by
    cases hp : pop
    · rfl
    · rw [H.pop hp]; rfl
  unfold control
  rw [H.env]
  simp only []
  rw [if_neg (by simp [H.live, H.window]), if_neg (by simp [H.own]), if_neg (by simp [H.tags, H.tokens]),
    if_neg (by simp [H.room])]
  have hb' : eval { e with qi := (e.task.queue e.t.code).headD 0 } true = .go taken target count (some (n, v)) := hb
  simp only [H.pred, Bool.true_and, Bool.and_true, hq, Bool.false_eq_true, if_false, hb', if_true]
  rfl
/-- An indirect form whose target is no multiple of 8 (R57). -/
theorem control_misaligned_of {s : State} {h : Hdr} {pop : Bool} {eval : Env → Bool → Eval} {every : StrandSt → Nat → StrandSt} {e : Env}
    {tgt : Nat} (H : Evaluates s h pop e) (hb : eval e.popped true = .misaligned tgt) :
    control h pop eval every s = .next (s.raise e.core e.slot (e.info cAlignment tgt 0 .again 0)).nextCore := by
  have hq : (pop && (e.task.queue e.t.code).isEmpty) = false := by
    cases hp : pop
    · rfl
    · rw [H.pop hp]; rfl
  unfold control
  rw [H.env]
  simp only []
  rw [if_neg (by simp [H.live, H.window]), if_neg (by simp [H.own]), if_neg (by simp [H.tags, H.tokens]),
    if_neg (by simp [H.room])]
  have hb' : eval { e with qi := (e.task.queue e.t.code).headD 0 } true = .misaligned tgt := hb
  simp only [H.pred, Bool.true_and, hq, Bool.false_eq_true, if_false, hb']
  rfl

/-! ## Rendezvous -/

/-- A rendezvous word that is decided with predicate 1 and whose own waits are over. -/
theorem rendezvous_of {s : State} {h : Hdr} {lat : Nat} {ready : Env → State → Bool} {body : Env → State → Meet} {e : Env}
    (H : Decides s h e) (hr : ready e s = true) :
    rendezvous h lat ready body s = .next (match body e s with
      | .trap c f es => ((s.updTask e.core e.slot fun k => k.meetEnd false).raise e.core e.slot (e.info c f 0 .again es)).nextCore
      | .violation va => (s.violate e.core e.slot va e.st.ip).nextCore
      | .pass s' => (s'.meetPass e).nextCore
      | .passFly s' y => ((s'.addFlight e y).meetPassed e).nextCore
      | .park s' w => ((s'.meetPass e).park e.core e.slot w).nextCore
      | .leave s' => s'.nextCore) := by
  unfold rendezvous
  rw [H.env]
  simp only []
  rw [if_neg (by simp [H.running]), if_pos H.arrived, if_neg (by simp [H.own])]
  rcases H.met with hm | ⟨c, hc, hle, hp⟩
  · simp only [hm, hr, decide_true, Bool.true_or, Bool.not_true, Bool.false_eq_true, if_false]
    all_goals (cases body e s <;> rfl)
  · simp only [hc, hle, hp, hr, decide_true, Bool.and_true, Bool.or_true, Bool.not_true, Bool.and_false, Bool.false_eq_true, if_false]
    all_goals (cases body e s <;> rfl)

end Sys2Proof.Machine
end

