-- ==== Sys2Proof/Laws/Lanes.lean ====
section
/-!
SUPPORT. What the lanes of a vector and the bits of a mask are that a word has built from functions of the lane number.
-/
namespace Sys2Proof.Machine

/-- Digits of base `2 ^ w` put together: below the bound, and each digit where it was put. -/
theorem digits_spec (w : Nat) (f : Nat → Nat) (hf : ∀ i, f i < 2 ^ w) (n b : Nat) :
    (List.map (· + b) (List.range n)).foldr (fun i m => f i + 2 ^ w * m) 0 < 2 ^ (w * n) ∧
    ∀ i, i < n → (List.map (· + b) (List.range n)).foldr (fun i m => f i + 2 ^ w * m) 0 / 2 ^ (w * i) % 2 ^ w = f (i + b) := by
  induction n generalizing b with
  | zero => simp
  | succ n ih =>
    obtain ⟨h1, h2⟩ := ih (b + 1)
    rw [List.range_succ_eq_map, List.map_cons, List.foldr_cons, List.map_map,
      show ((fun x => x + b) ∘ Nat.succ) = fun x => x + (b + 1) by funext x; simp only [Function.comp]; omega]
    simp only [Nat.zero_add]
    generalize (List.map (· + (b + 1)) (List.range n)).foldr (fun i m => f i + 2 ^ w * m) 0 = m at h1 h2 ⊢
    have hb := hf b
    have hw : 0 < 2 ^ w := Nat.two_pow_pos w
    refine ⟨?_, fun i hi => ?_⟩
    · rw [Nat.mul_succ, Nat.pow_add]
      have : 2 ^ w * m + 2 ^ w ≤ 2 ^ w * 2 ^ (w * n) := by
        rw [← Nat.mul_succ]; exact Nat.mul_le_mul_left _ h1
      rw [Nat.mul_comm (2 ^ (w * n))]; omega
    · cases i with
      | zero =>
        simp only [Nat.mul_zero, Nat.pow_zero, Nat.div_one, Nat.zero_add, Nat.add_mul_mod_self_left]
        exact Nat.mod_eq_of_lt hb
      | succ i =>
        rw [Nat.mul_succ, Nat.add_comm (w * i), Nat.pow_add, ← Nat.div_div_eq_div_mul, Nat.add_mul_div_left _ _ hw, Nat.div_eq_of_lt hb,
          Nat.zero_add, h2 i (by omega)]
        congr 1; omega

/-- The lanes of a vector built from a function. -/
@[simp] theorem lane_ofLanes (f : Nat → Lane) (i : Nat) (hi : i < 64) : lane (ofLanes f) i = f i := by
  obtain ⟨h1, h2⟩ := digits_spec 32 (fun i => (f i).toNat) (fun i => (f i).isLt) 64 0
  rw [show List.map (· + 0) (List.range 64) = List.range 64 by simp] at h1 h2
  apply BitVec.eq_of_toNat_eq
  have := h2 i hi
  simp only [Nat.add_zero] at this
  rw [lane, ofLanes, BitVec.extractLsb'_toNat, BitVec.toNat_ofNat, Nat.mod_eq_of_lt h1, Nat.shiftRight_eq_div_pow, this]

/-- The bits of a word built from a function. -/
@[simp] theorem ofBits_getLsbD (f : Nat → Bool) (i : Nat) (hi : i < 64) : (ofBits f).getLsbD i = f i := by
  obtain ⟨h1, h2⟩ := digits_spec 1 (fun i => if f i then 1 else 0) (fun i => by split <;> omega) 64 0
  rw [show List.map (· + 0) (List.range 64) = List.range 64 by simp] at h1 h2
  have := h2 i hi
  simp only [Nat.add_zero, Nat.one_mul, Nat.pow_one] at this
  rw [ofBits, BitVec.getLsbD_ofNat, Nat.testBit_eq_decide_div_mod_eq, this]
  simp only [hi, decide_true, Bool.true_and]
  cases f i <;> simp

end Sys2Proof.Machine
end

