-- ==== Sys2Proof/Laws/PerInstr.lean ====
section
/-!
SUPPORT. Statements made for every constructor of `Instr`, one lemma each. Family `Codec`: the word that `encode` writes for a
well-formed instruction word is read back by the decoder as that instruction. An operation that is no word has no encoding.
-/
namespace Sys2Proof.Laws.Codec
open Dec

/-- `i` is no word and has no encoding, or every well-formed form of it is read back from its word. -/
def Statement (i : Instr) : Prop :=
  (i.isWord = false ∧ encode i = none) ∨ (i.isWord = true ∧ (WellFormed i = true → ∃ w, encode i = some w ∧ word w = .ok i))

theorem of_row {h : Hdr} {mj mn : Nat} {ops : BitVec 46} {i : Instr} (he : encode i = some (pack h mj mn ops)) (hi : i.isWord = true)
    (hj : mj < 64) (hn : mn < 16) (hr : WellFormed i = true → rowOf mj mn h (pack h mj mn ops) = .ok i) : Statement i :=
  Or.inr ⟨hi, fun hw => ⟨_, he, word_pack hj hn (hr hw) hw⟩⟩

theorem checked {i : Instr} {h : Hdr} (hh : Enc.header i = some h) (hw : WellFormed i = true) (c : Enc.Chk) (hc : c ∈ Enc.checks i) :
    c.1 = true := by
  unfold WellFormed illegal at hw
  rw [hh] at hw
  by_cases ht : Enc.tokOk h = true
  · simp only [ht, if_true] at hw
    rw [Option.isNone_iff_eq_none, Option.map_eq_none_iff, List.find?_eq_none] at hw
    simpa using hw c hc
  · simp [ht] at hw

theorem add (h : Hdr) (o : RRR) : Statement (.add h o) :=
  of_row rfl rfl (by decide) (by decide) fun _ => congrArg (fun x => Except.ok (Instr.add h x)) (ofRRR_pack h 0x00 0 o)
theorem sub (h : Hdr) (o : RRR) : Statement (.sub h o) :=
  of_row rfl rfl (by decide) (by decide) fun _ => congrArg (fun x => Except.ok (Instr.sub h x)) (ofRRR_pack h 0x00 1 o)
theorem and (h : Hdr) (o : RRR) : Statement (.and h o) :=
  of_row rfl rfl (by decide) (by decide) fun _ => congrArg (fun x => Except.ok (Instr.and h x)) (ofRRR_pack h 0x00 2 o)
theorem or (h : Hdr) (o : RRR) : Statement (.or h o) :=
  of_row rfl rfl (by decide) (by decide) fun _ => congrArg (fun x => Except.ok (Instr.or h x)) (ofRRR_pack h 0x00 3 o)
theorem xor (h : Hdr) (o : RRR) : Statement (.xor h o) :=
  of_row rfl rfl (by decide) (by decide) fun _ => congrArg (fun x => Except.ok (Instr.xor h x)) (ofRRR_pack h 0x00 4 o)
theorem shl (h : Hdr) (o : RRR) : Statement (.shl h o) :=
  of_row rfl rfl (by decide) (by decide) fun _ => congrArg (fun x => Except.ok (Instr.shl h x)) (ofRRR_pack h 0x00 5 o)
theorem shr (h : Hdr) (o : RRR) : Statement (.shr h o) :=
  of_row rfl rfl (by decide) (by decide) fun _ => congrArg (fun x => Except.ok (Instr.shr h x)) (ofRRR_pack h 0x00 6 o)
theorem sra (h : Hdr) (o : RRR) : Statement (.sra h o) :=
  of_row rfl rfl (by decide) (by decide) fun _ => congrArg (fun x => Except.ok (Instr.sra h x)) (ofRRR_pack h 0x00 7 o)
theorem mul (h : Hdr) (o : RRR) : Statement (.mul h o) :=
  of_row rfl rfl (by decide) (by decide) fun _ => congrArg (fun x => Except.ok (Instr.mul h x)) (ofRRR_pack h 0x00 8 o)
theorem mulh (h : Hdr) (o : RRR) : Statement (.mulh h o) :=
  of_row rfl rfl (by decide) (by decide) fun _ => congrArg (fun x => Except.ok (Instr.mulh h x)) (ofRRR_pack h 0x00 9 o)
theorem mulhu (h : Hdr) (o : RRR) : Statement (.mulhu h o) :=
  of_row rfl rfl (by decide) (by decide) fun _ => congrArg (fun x => Except.ok (Instr.mulhu h x)) (ofRRR_pack h 0x00 10 o)
theorem min (h : Hdr) (o : RRR) : Statement (.min h o) :=
  of_row rfl rfl (by decide) (by decide) fun _ => congrArg (fun x => Except.ok (Instr.min h x)) (ofRRR_pack h 0x00 11 o)
theorem max (h : Hdr) (o : RRR) : Statement (.max h o) :=
  of_row rfl rfl (by decide) (by decide) fun _ => congrArg (fun x => Except.ok (Instr.max h x)) (ofRRR_pack h 0x00 12 o)
theorem minu (h : Hdr) (o : RRR) : Statement (.minu h o) :=
  of_row rfl rfl (by decide) (by decide) fun _ => congrArg (fun x => Except.ok (Instr.minu h x)) (ofRRR_pack h 0x00 13 o)
theorem maxu (h : Hdr) (o : RRR) : Statement (.maxu h o) :=
  of_row rfl rfl (by decide) (by decide) fun _ => congrArg (fun x => Except.ok (Instr.maxu h x)) (ofRRR_pack h 0x00 14 o)
theorem addi (h : Hdr) (o : RRI) : Statement (.addi h o) :=
  of_row rfl rfl (by decide) (by decide) fun _ => congrArg (fun x => Except.ok (Instr.addi h x)) (ofRRI_pack h 0x01 0 o)
theorem andi (h : Hdr) (o : RRI) : Statement (.andi h o) :=
  of_row rfl rfl (by decide) (by decide) fun _ => congrArg (fun x => Except.ok (Instr.andi h x)) (ofRRI_pack h 0x01 1 o)
theorem ori (h : Hdr) (o : RRI) : Statement (.ori h o) :=
  of_row rfl rfl (by decide) (by decide) fun _ => congrArg (fun x => Except.ok (Instr.ori h x)) (ofRRI_pack h 0x01 2 o)
theorem xori (h : Hdr) (o : RRI) : Statement (.xori h o) :=
  of_row rfl rfl (by decide) (by decide) fun _ => congrArg (fun x => Except.ok (Instr.xori h x)) (ofRRI_pack h 0x01 3 o)
theorem shli (h : Hdr) (o : RRI) : Statement (.shli h o) :=
  of_row rfl rfl (by decide) (by decide) fun _ => congrArg (fun x => Except.ok (Instr.shli h x)) (ofRRI_pack h 0x01 4 o)
theorem shri (h : Hdr) (o : RRI) : Statement (.shri h o) :=
  of_row rfl rfl (by decide) (by decide) fun _ => congrArg (fun x => Except.ok (Instr.shri h x)) (ofRRI_pack h 0x01 5 o)
theorem srai (h : Hdr) (o : RRI) : Statement (.srai h o) :=
  of_row rfl rfl (by decide) (by decide) fun _ => congrArg (fun x => Except.ok (Instr.srai h x)) (ofRRI_pack h 0x01 6 o)
theorem muli (h : Hdr) (o : RRI) : Statement (.muli h o) :=
  of_row rfl rfl (by decide) (by decide) fun _ => congrArg (fun x => Except.ok (Instr.muli h x)) (ofRRI_pack h 0x01 7 o)
theorem lih (h : Hdr) (o : RRI) : Statement (.lih h o) :=
  of_row rfl rfl (by decide) (by decide) fun _ => congrArg (fun x => Except.ok (Instr.lih h x)) (ofRRI_pack h 0x01 8 o)
theorem extr (h : Hdr) (o : RRI) : Statement (.extr h o) :=
  of_row rfl rfl (by decide) (by decide) fun _ => congrArg (fun x => Except.ok (Instr.extr h x)) (ofRRI_pack h 0x02 0 o)
theorem extru (h : Hdr) (o : RRI) : Statement (.extru h o) :=
  of_row rfl rfl (by decide) (by decide) fun _ => congrArg (fun x => Except.ok (Instr.extru h x)) (ofRRI_pack h 0x02 1 o)
theorem ins (h : Hdr) (o : RRI) : Statement (.ins h o) :=
  of_row rfl rfl (by decide) (by decide) fun _ => congrArg (fun x => Except.ok (Instr.ins h x)) (ofRRI_pack h 0x02 2 o)
theorem clz (h : Hdr) (o : RRI) : Statement (.clz h o) :=
  of_row rfl rfl (by decide) (by decide) fun _ => congrArg (fun x => Except.ok (Instr.clz h x)) (ofRRI_pack h 0x02 3 o)
theorem ctz (h : Hdr) (o : RRI) : Statement (.ctz h o) :=
  of_row rfl rfl (by decide) (by decide) fun _ => congrArg (fun x => Except.ok (Instr.ctz h x)) (ofRRI_pack h 0x02 4 o)
theorem popc (h : Hdr) (o : RRI) : Statement (.popc h o) :=
  of_row rfl rfl (by decide) (by decide) fun _ => congrArg (fun x => Except.ok (Instr.popc h x)) (ofRRI_pack h 0x02 5 o)
theorem brev (h : Hdr) (o : RRI) : Statement (.brev h o) :=
  of_row rfl rfl (by decide) (by decide) fun _ => congrArg (fun x => Except.ok (Instr.brev h x)) (ofRRI_pack h 0x02 6 o)
theorem cmpEq (h : Hdr) (o : RRR) : Statement (.cmpEq h o) :=
  of_row rfl rfl (by decide) (by decide) fun _ => congrArg (fun x => Except.ok (Instr.cmpEq h x)) (ofRRR_pack h 0x03 0 o)
theorem cmpNe (h : Hdr) (o : RRR) : Statement (.cmpNe h o) :=
  of_row rfl rfl (by decide) (by decide) fun _ => congrArg (fun x => Except.ok (Instr.cmpNe h x)) (ofRRR_pack h 0x03 1 o)
theorem cmpLt (h : Hdr) (o : RRR) : Statement (.cmpLt h o) :=
  of_row rfl rfl (by decide) (by decide) fun _ => congrArg (fun x => Except.ok (Instr.cmpLt h x)) (ofRRR_pack h 0x03 2 o)
theorem cmpLtu (h : Hdr) (o : RRR) : Statement (.cmpLtu h o) :=
  of_row rfl rfl (by decide) (by decide) fun _ => congrArg (fun x => Except.ok (Instr.cmpLtu h x)) (ofRRR_pack h 0x03 3 o)
theorem cmpGe (h : Hdr) (o : RRR) : Statement (.cmpGe h o) :=
  of_row rfl rfl (by decide) (by decide) fun _ => congrArg (fun x => Except.ok (Instr.cmpGe h x)) (ofRRR_pack h 0x03 4 o)
theorem cmpGeu (h : Hdr) (o : RRR) : Statement (.cmpGeu h o) :=
  of_row rfl rfl (by decide) (by decide) fun _ => congrArg (fun x => Except.ok (Instr.cmpGeu h x)) (ofRRR_pack h 0x03 5 o)
theorem cmpiEq (h : Hdr) (o : RRI) : Statement (.cmpiEq h o) :=
  of_row rfl rfl (by decide) (by decide) fun _ => congrArg (fun x => Except.ok (Instr.cmpiEq h x)) (ofRRI_pack h 0x04 0 o)
theorem cmpiNe (h : Hdr) (o : RRI) : Statement (.cmpiNe h o) :=
  of_row rfl rfl (by decide) (by decide) fun _ => congrArg (fun x => Except.ok (Instr.cmpiNe h x)) (ofRRI_pack h 0x04 1 o)
theorem cmpiLt (h : Hdr) (o : RRI) : Statement (.cmpiLt h o) :=
  of_row rfl rfl (by decide) (by decide) fun _ => congrArg (fun x => Except.ok (Instr.cmpiLt h x)) (ofRRI_pack h 0x04 2 o)
theorem cmpiLtu (h : Hdr) (o : RRI) : Statement (.cmpiLtu h o) :=
  of_row rfl rfl (by decide) (by decide) fun _ => congrArg (fun x => Except.ok (Instr.cmpiLtu h x)) (ofRRI_pack h 0x04 3 o)
theorem cmpiGe (h : Hdr) (o : RRI) : Statement (.cmpiGe h o) :=
  of_row rfl rfl (by decide) (by decide) fun _ => congrArg (fun x => Except.ok (Instr.cmpiGe h x)) (ofRRI_pack h 0x04 4 o)
theorem cmpiGeu (h : Hdr) (o : RRI) : Statement (.cmpiGeu h o) :=
  of_row rfl rfl (by decide) (by decide) fun _ => congrArg (fun x => Except.ok (Instr.cmpiGeu h x)) (ofRRI_pack h 0x04 5 o)
theorem pand (h : Hdr) (o : RRR) : Statement (.pand h o) :=
  of_row rfl rfl (by decide) (by decide) fun _ => congrArg (fun x => Except.ok (Instr.pand h x)) (ofRRR_pack h 0x05 0 o)
theorem por (h : Hdr) (o : RRR) : Statement (.por h o) :=
  of_row rfl rfl (by decide) (by decide) fun _ => congrArg (fun x => Except.ok (Instr.por h x)) (ofRRR_pack h 0x05 1 o)
theorem pxor (h : Hdr) (o : RRR) : Statement (.pxor h o) :=
  of_row rfl rfl (by decide) (by decide) fun _ => congrArg (fun x => Except.ok (Instr.pxor h x)) (ofRRR_pack h 0x05 2 o)
theorem pandn (h : Hdr) (o : RRR) : Statement (.pandn h o) :=
  of_row rfl rfl (by decide) (by decide) fun _ => congrArg (fun x => Except.ok (Instr.pandn h x)) (ofRRR_pack h 0x05 3 o)
theorem pnot (h : Hdr) (o : RRR) : Statement (.pnot h o) :=
  of_row rfl rfl (by decide) (by decide) fun _ => congrArg (fun x => Except.ok (Instr.pnot h x)) (ofRRR_pack h 0x05 4 o)
theorem pmov (h : Hdr) (o : RRR) : Statement (.pmov h o) :=
  of_row rfl rfl (by decide) (by decide) fun _ => congrArg (fun x => Except.ok (Instr.pmov h x)) (ofRRR_pack h 0x05 5 o)
theorem br (h : Hdr) (o : BRA) : Statement (.br h o) :=
  of_row rfl rfl (by decide) (by decide) fun _ => congrArg (fun x => Except.ok (Instr.br h x)) (ofBRA_pack h 0x06 0 o)
theorem brz (h : Hdr) (o : BRA) : Statement (.brz h o) :=
  of_row rfl rfl (by decide) (by decide) fun _ => congrArg (fun x => Except.ok (Instr.brz h x)) (ofBRA_pack h 0x06 1 o)
theorem brnz (h : Hdr) (o : BRA) : Statement (.brnz h o) :=
  of_row rfl rfl (by decide) (by decide) fun _ => congrArg (fun x => Except.ok (Instr.brnz h x)) (ofBRA_pack h 0x06 2 o)
theorem call (h : Hdr) (o : BRA) : Statement (.call h o) :=
  of_row rfl rfl (by decide) (by decide) fun _ => congrArg (fun x => Except.ok (Instr.call h x)) (ofBRA_pack h 0x06 3 o)
theorem jmpi (h : Hdr) (o : BRA) : Statement (.jmpi h o) :=
  of_row rfl rfl (by decide) (by decide) fun _ => congrArg (fun x => Except.ok (Instr.jmpi h x)) (ofBRA_pack h 0x06 4 o)
theorem calli (h : Hdr) (o : BRA) : Statement (.calli h o) :=
  of_row rfl rfl (by decide) (by decide) fun _ => congrArg (fun x => Except.ok (Instr.calli h x)) (ofBRA_pack h 0x06 5 o)
theorem loop (h : Hdr) (o : BRA) : Statement (.loop h o) :=
  of_row rfl rfl (by decide) (by decide) fun _ => congrArg (fun x => Except.ok (Instr.loop h x)) (ofBRA_pack h 0x06 6 o)
theorem brloop (h : Hdr) (o : BRA) : Statement (.brloop h o) :=
  of_row rfl rfl (by decide) (by decide) fun _ => congrArg (fun x => Except.ok (Instr.brloop h x)) (ofBRA_pack h 0x06 7 o)
theorem spl (h : Hdr) (o : RRI) : Statement (.spl h o) :=
  of_row rfl rfl (by decide) (by decide) fun _ => congrArg (fun x => Except.ok (Instr.spl h x)) (ofRRI_pack h 0x07 0 o)
theorem fil (h : Hdr) (o : RRI) : Statement (.fil h o) :=
  of_row rfl rfl (by decide) (by decide) fun _ => congrArg (fun x => Except.ok (Instr.fil h x)) (ofRRI_pack h 0x07 1 o)
theorem crr (h : Hdr) (o : RRI) : Statement (.crr h o) :=
  of_row rfl rfl (by decide) (by decide) fun _ => congrArg (fun x => Except.ok (Instr.crr h x)) (ofRRI_pack h 0x07 2 o)
theorem crw (h : Hdr) (o : RRI) : Statement (.crw h o) :=
  of_row rfl rfl (by decide) (by decide) fun _ => congrArg (fun x => Except.ok (Instr.crw h x)) (ofRRI_pack h 0x07 3 o)
theorem nop (h : Hdr) (o : SYS) : Statement (.nop h o) :=
  of_row rfl rfl (by decide) (by decide) fun _ => congrArg (fun x => Except.ok (Instr.nop h x)) (ofSYS_pack h 0x08 0 o)
theorem mode (h : Hdr) (o : SYS) : Statement (.mode h o) :=
  of_row rfl rfl (by decide) (by decide) fun _ => congrArg (fun x => Except.ok (Instr.mode h x)) (ofSYS_pack h 0x08 1 o)
theorem ifence (h : Hdr) (o : SYS) : Statement (.ifence h o) :=
  of_row rfl rfl (by decide) (by decide) fun _ => congrArg (fun x => Except.ok (Instr.ifence h x)) (ofSYS_pack h 0x08 2 o)
theorem yield (h : Hdr) (o : SYS) : Statement (.yield h o) :=
  of_row rfl rfl (by decide) (by decide) fun _ => congrArg (fun x => Except.ok (Instr.yield h x)) (ofSYS_pack h 0x08 3 o)
theorem exit (h : Hdr) (o : SYS) : Statement (.exit h o) :=
  of_row rfl rfl (by decide) (by decide) fun _ => congrArg (fun x => Except.ok (Instr.exit h x)) (ofSYS_pack h 0x08 4 o)
theorem trap (h : Hdr) (o : SYS) : Statement (.trap h o) :=
  of_row rfl rfl (by decide) (by decide) fun hw => by
    have h0 := checked rfl hw (Enc.code (o.imm.toNat != 0)) (List.mem_cons_of_mem _ (List.mem_cons_self ..))
    show (if (ofSYS _).imm.toNat = 0 then _ else _) = _
    rw [ofSYS_pack, if_neg (by simpa [Enc.code] using h0)]
theorem tret (h : Hdr) (o : SYS) : Statement (.tret h o) :=
  of_row rfl rfl (by decide) (by decide) fun hw => by
    have h0 := checked rfl hw (Enc.code (o.imm.toNat == 0)) (List.mem_cons_of_mem _ (List.mem_cons_self ..))
    show (if (ofSYS _).imm.toNat = 0 then _ else _) = _
    rw [ofSYS_pack, if_pos (by simpa [Enc.code] using h0)]
theorem brk (h : Hdr) (o : SYS) : Statement (.brk h o) :=
  of_row rfl rfl (by decide) (by decide) fun _ => congrArg (fun x => Except.ok (Instr.brk h x)) (ofSYS_pack h 0x08 6 o)
theorem vaddF32 (h : Hdr) (o : RRR) : Statement (.vaddF32 h o) :=
  of_row rfl rfl (by decide) (by decide) fun _ => congrArg (fun x => Except.ok (Instr.vaddF32 h x)) (ofRRR_pack h 0x10 0 o)
theorem vsubF32 (h : Hdr) (o : RRR) : Statement (.vsubF32 h o) :=
  of_row rfl rfl (by decide) (by decide) fun _ => congrArg (fun x => Except.ok (Instr.vsubF32 h x)) (ofRRR_pack h 0x10 1 o)
theorem vmulF32 (h : Hdr) (o : RRR) : Statement (.vmulF32 h o) :=
  of_row rfl rfl (by decide) (by decide) fun _ => congrArg (fun x => Except.ok (Instr.vmulF32 h x)) (ofRRR_pack h 0x10 2 o)
theorem vfmaF32 (h : Hdr) (o : RRR) : Statement (.vfmaF32 h o) :=
  of_row rfl rfl (by decide) (by decide) fun _ => congrArg (fun x => Except.ok (Instr.vfmaF32 h x)) (ofRRR_pack h 0x10 3 o)
theorem vfmsF32 (h : Hdr) (o : RRR) : Statement (.vfmsF32 h o) :=
  of_row rfl rfl (by decide) (by decide) fun _ => congrArg (fun x => Except.ok (Instr.vfmsF32 h x)) (ofRRR_pack h 0x10 4 o)
theorem vfnmaF32 (h : Hdr) (o : RRR) : Statement (.vfnmaF32 h o) :=
  of_row rfl rfl (by decide) (by decide) fun _ => congrArg (fun x => Except.ok (Instr.vfnmaF32 h x)) (ofRRR_pack h 0x10 5 o)
theorem vminF32 (h : Hdr) (o : RRR) : Statement (.vminF32 h o) :=
  of_row rfl rfl (by decide) (by decide) fun _ => congrArg (fun x => Except.ok (Instr.vminF32 h x)) (ofRRR_pack h 0x10 6 o)
theorem vmaxF32 (h : Hdr) (o : RRR) : Statement (.vmaxF32 h o) :=
  of_row rfl rfl (by decide) (by decide) fun _ => congrArg (fun x => Except.ok (Instr.vmaxF32 h x)) (ofRRR_pack h 0x10 7 o)
theorem vabsF32 (h : Hdr) (o : RRR) : Statement (.vabsF32 h o) :=
  of_row rfl rfl (by decide) (by decide) fun _ => congrArg (fun x => Except.ok (Instr.vabsF32 h x)) (ofRRR_pack h 0x10 8 o)
theorem vnegF32 (h : Hdr) (o : RRR) : Statement (.vnegF32 h o) :=
  of_row rfl rfl (by decide) (by decide) fun _ => congrArg (fun x => Except.ok (Instr.vnegF32 h x)) (ofRRR_pack h 0x10 9 o)
theorem vrcpF32 (h : Hdr) (o : RRR) : Statement (.vrcpF32 h o) :=
  of_row rfl rfl (by decide) (by decide) fun _ => congrArg (fun x => Except.ok (Instr.vrcpF32 h x)) (ofRRR_pack h 0x10 10 o)
theorem vrsqF32 (h : Hdr) (o : RRR) : Statement (.vrsqF32 h o) :=
  of_row rfl rfl (by decide) (by decide) fun _ => congrArg (fun x => Except.ok (Instr.vrsqF32 h x)) (ofRRR_pack h 0x10 11 o)
theorem vexp2F32 (h : Hdr) (o : RRR) : Statement (.vexp2F32 h o) :=
  of_row rfl rfl (by decide) (by decide) fun _ => congrArg (fun x => Except.ok (Instr.vexp2F32 h x)) (ofRRR_pack h 0x10 12 o)
theorem vlog2F32 (h : Hdr) (o : RRR) : Statement (.vlog2F32 h o) :=
  of_row rfl rfl (by decide) (by decide) fun _ => congrArg (fun x => Except.ok (Instr.vlog2F32 h x)) (ofRRR_pack h 0x10 13 o)
theorem vaddH (h : Hdr) (o : RRR) : Statement (.vaddH h o) :=
  of_row rfl rfl (by decide) (by decide) fun _ => congrArg (fun x => Except.ok (Instr.vaddH h x)) (ofRRR_pack h 0x11 0 o)
theorem vsubH (h : Hdr) (o : RRR) : Statement (.vsubH h o) :=
  of_row rfl rfl (by decide) (by decide) fun _ => congrArg (fun x => Except.ok (Instr.vsubH h x)) (ofRRR_pack h 0x11 1 o)
theorem vmulH (h : Hdr) (o : RRR) : Statement (.vmulH h o) :=
  of_row rfl rfl (by decide) (by decide) fun _ => congrArg (fun x => Except.ok (Instr.vmulH h x)) (ofRRR_pack h 0x11 2 o)
theorem vfmaH (h : Hdr) (o : RRR) : Statement (.vfmaH h o) :=
  of_row rfl rfl (by decide) (by decide) fun _ => congrArg (fun x => Except.ok (Instr.vfmaH h x)) (ofRRR_pack h 0x11 3 o)
theorem vminH (h : Hdr) (o : RRR) : Statement (.vminH h o) :=
  of_row rfl rfl (by decide) (by decide) fun _ => congrArg (fun x => Except.ok (Instr.vminH h x)) (ofRRR_pack h 0x11 4 o)
theorem vmaxH (h : Hdr) (o : RRR) : Statement (.vmaxH h o) :=
  of_row rfl rfl (by decide) (by decide) fun _ => congrArg (fun x => Except.ok (Instr.vmaxH h x)) (ofRRR_pack h 0x11 5 o)
theorem vaddI32 (h : Hdr) (o : RRR) : Statement (.vaddI32 h o) :=
  of_row rfl rfl (by decide) (by decide) fun _ => congrArg (fun x => Except.ok (Instr.vaddI32 h x)) (ofRRR_pack h 0x12 0 o)
theorem vsubI32 (h : Hdr) (o : RRR) : Statement (.vsubI32 h o) :=
  of_row rfl rfl (by decide) (by decide) fun _ => congrArg (fun x => Except.ok (Instr.vsubI32 h x)) (ofRRR_pack h 0x12 1 o)
theorem vmulI32 (h : Hdr) (o : RRR) : Statement (.vmulI32 h o) :=
  of_row rfl rfl (by decide) (by decide) fun _ => congrArg (fun x => Except.ok (Instr.vmulI32 h x)) (ofRRR_pack h 0x12 2 o)
theorem vand (h : Hdr) (o : RRR) : Statement (.vand h o) :=
  of_row rfl rfl (by decide) (by decide) fun _ => congrArg (fun x => Except.ok (Instr.vand h x)) (ofRRR_pack h 0x12 3 o)
theorem vor (h : Hdr) (o : RRR) : Statement (.vor h o) :=
  of_row rfl rfl (by decide) (by decide) fun _ => congrArg (fun x => Except.ok (Instr.vor h x)) (ofRRR_pack h 0x12 4 o)
theorem vxor (h : Hdr) (o : RRR) : Statement (.vxor h o) :=
  of_row rfl rfl (by decide) (by decide) fun _ => congrArg (fun x => Except.ok (Instr.vxor h x)) (ofRRR_pack h 0x12 5 o)
theorem vshl (h : Hdr) (o : RRR) : Statement (.vshl h o) :=
  of_row rfl rfl (by decide) (by decide) fun _ => congrArg (fun x => Except.ok (Instr.vshl h x)) (ofRRR_pack h 0x12 6 o)
theorem vshr (h : Hdr) (o : RRR) : Statement (.vshr h o) :=
  of_row rfl rfl (by decide) (by decide) fun _ => congrArg (fun x => Except.ok (Instr.vshr h x)) (ofRRR_pack h 0x12 7 o)
theorem vsra (h : Hdr) (o : RRR) : Statement (.vsra h o) :=
  of_row rfl rfl (by decide) (by decide) fun _ => congrArg (fun x => Except.ok (Instr.vsra h x)) (ofRRR_pack h 0x12 8 o)
theorem vaddss (h : Hdr) (o : RRR) : Statement (.vaddss h o) :=
  of_row rfl rfl (by decide) (by decide) fun _ => congrArg (fun x => Except.ok (Instr.vaddss h x)) (ofRRR_pack h 0x12 9 o)
theorem vsubss (h : Hdr) (o : RRR) : Statement (.vsubss h o) :=
  of_row rfl rfl (by decide) (by decide) fun _ => congrArg (fun x => Except.ok (Instr.vsubss h x)) (ofRRR_pack h 0x12 10 o)
theorem vaddus (h : Hdr) (o : RRR) : Statement (.vaddus h o) :=
  of_row rfl rfl (by decide) (by decide) fun _ => congrArg (fun x => Except.ok (Instr.vaddus h x)) (ofRRR_pack h 0x12 11 o)
theorem vsubus (h : Hdr) (o : RRR) : Statement (.vsubus h o) :=
  of_row rfl rfl (by decide) (by decide) fun _ => congrArg (fun x => Except.ok (Instr.vsubus h x)) (ofRRR_pack h 0x12 12 o)
theorem vminI32 (h : Hdr) (o : RRR) : Statement (.vminI32 h o) :=
  of_row rfl rfl (by decide) (by decide) fun _ => congrArg (fun x => Except.ok (Instr.vminI32 h x)) (ofRRR_pack h 0x12 13 o)
theorem vmaxI32 (h : Hdr) (o : RRR) : Statement (.vmaxI32 h o) :=
  of_row rfl rfl (by decide) (by decide) fun _ => congrArg (fun x => Except.ok (Instr.vmaxI32 h x)) (ofRRR_pack h 0x12 14 o)
theorem vcmpF32 (h : Hdr) (o : RRR) : Statement (.vcmpF32 h o) :=
  of_row rfl rfl (by decide) (by decide) fun _ => congrArg (fun x => Except.ok (Instr.vcmpF32 h x)) (ofRRR_pack h 0x13 0 o)
theorem vcmpI32 (h : Hdr) (o : RRR) : Statement (.vcmpI32 h o) :=
  of_row rfl rfl (by decide) (by decide) fun _ => congrArg (fun x => Except.ok (Instr.vcmpI32 h x)) (ofRRR_pack h 0x13 1 o)
theorem vcmpuI32 (h : Hdr) (o : RRR) : Statement (.vcmpuI32 h o) :=
  of_row rfl rfl (by decide) (by decide) fun _ => congrArg (fun x => Except.ok (Instr.vcmpuI32 h x)) (ofRRR_pack h 0x13 2 o)
theorem mand (h : Hdr) (o : RRR) : Statement (.mand h o) :=
  of_row rfl rfl (by decide) (by decide) fun _ => congrArg (fun x => Except.ok (Instr.mand h x)) (ofRRR_pack h 0x13 3 o)
theorem mor (h : Hdr) (o : RRR) : Statement (.mor h o) :=
  of_row rfl rfl (by decide) (by decide) fun _ => congrArg (fun x => Except.ok (Instr.mor h x)) (ofRRR_pack h 0x13 4 o)
theorem mxor (h : Hdr) (o : RRR) : Statement (.mxor h o) :=
  of_row rfl rfl (by decide) (by decide) fun _ => congrArg (fun x => Except.ok (Instr.mxor h x)) (ofRRR_pack h 0x13 5 o)
theorem mnot (h : Hdr) (o : RRR) : Statement (.mnot h o) :=
  of_row rfl rfl (by decide) (by decide) fun _ => congrArg (fun x => Except.ok (Instr.mnot h x)) (ofRRR_pack h 0x13 6 o)
theorem mandn (h : Hdr) (o : RRR) : Statement (.mandn h o) :=
  of_row rfl rfl (by decide) (by decide) fun _ => congrArg (fun x => Except.ok (Instr.mandn h x)) (ofRRR_pack h 0x13 7 o)
theorem mpop (h : Hdr) (o : RRR) : Statement (.mpop h o) :=
  of_row rfl rfl (by decide) (by decide) fun _ => congrArg (fun x => Except.ok (Instr.mpop h x)) (ofRRR_pack h 0x13 8 o)
theorem mmov (h : Hdr) (o : RRR) : Statement (.mmov h o) :=
  of_row rfl rfl (by decide) (by decide) fun _ => congrArg (fun x => Except.ok (Instr.mmov h x)) (ofRRR_pack h 0x13 9 o)
theorem vcvtNf (h : Hdr) (o : RRR) : Statement (.vcvtNf h o) :=
  of_row rfl rfl (by decide) (by decide) fun _ => congrArg (fun x => Except.ok (Instr.vcvtNf h x)) (ofRRR_pack h 0x14 0 o)
theorem vcvtFn (h : Hdr) (o : RRR) : Statement (.vcvtFn h o) :=
  of_row rfl rfl (by decide) (by decide) fun _ => congrArg (fun x => Except.ok (Instr.vcvtFn h x)) (ofRRR_pack h 0x14 1 o)
theorem vcvtF32I32 (h : Hdr) (o : RRR) : Statement (.vcvtF32I32 h o) :=
  of_row rfl rfl (by decide) (by decide) fun _ => congrArg (fun x => Except.ok (Instr.vcvtF32I32 h x)) (ofRRR_pack h 0x14 2 o)
theorem vcvtI32F32 (h : Hdr) (o : RRR) : Statement (.vcvtI32F32 h o) :=
  of_row rfl rfl (by decide) (by decide) fun _ => congrArg (fun x => Except.ok (Instr.vcvtI32F32 h x)) (ofRRR_pack h 0x14 3 o)
theorem vcvtHF32 (h : Hdr) (o : RRR) : Statement (.vcvtHF32 h o) :=
  of_row rfl rfl (by decide) (by decide) fun _ => congrArg (fun x => Except.ok (Instr.vcvtHF32 h x)) (ofRRR_pack h 0x14 4 o)
theorem vcvtF32H (h : Hdr) (o : RRR) : Statement (.vcvtF32H h o) :=
  of_row rfl rfl (by decide) (by decide) fun _ => congrArg (fun x => Except.ok (Instr.vcvtF32H h x)) (ofRRR_pack h 0x14 5 o)
theorem vperm (h : Hdr) (o : RRR) : Statement (.vperm h o) :=
  of_row rfl rfl (by decide) (by decide) fun hw => by
    have h0 := checked rfl hw (Enc.zero (Enc.IX o)) (by simp [Enc.checks, Enc.vec])
    have h1 : o.md.getLsbD 9 = false := by
      have h2 : fld o.md.toNat 9 0 = 0 := by simpa [Enc.zero, Enc.IX] using h0
      simp only [fld] at h2
      rw [BitVec.getLsbD, Nat.testBit_eq_decide_div_mod_eq]
      simp
      omega
    show (if (ofRRR _).md.getLsbD 9 then _ else _) = _
    rw [ofRRR_pack, h1]; rfl
theorem vpermRot (h : Hdr) (o : RRR) : Statement (.vpermRot h o) :=
  of_row rfl rfl (by decide) (by decide) fun hw => by
    have h0 := checked rfl hw (Enc.code (o.md.getLsbD 9)) (List.mem_append_right _ (List.mem_singleton.2 rfl))
    show (if (ofRRR _).md.getLsbD 9 then _ else _) = _
    rw [ofRRR_pack]; exact if_pos h0
theorem vbcast (h : Hdr) (o : RRR) : Statement (.vbcast h o) :=
  of_row rfl rfl (by decide) (by decide) fun _ => congrArg (fun x => Except.ok (Instr.vbcast h x)) (ofRRR_pack h 0x14 7 o)
theorem vsel (h : Hdr) (o : RRR) : Statement (.vsel h o) :=
  of_row rfl rfl (by decide) (by decide) fun _ => congrArg (fun x => Except.ok (Instr.vsel h x)) (ofRRR_pack h 0x14 8 o)
theorem vext (h : Hdr) (o : RRR) : Statement (.vext h o) :=
  of_row rfl rfl (by decide) (by decide) fun _ => congrArg (fun x => Except.ok (Instr.vext h x)) (ofRRR_pack h 0x14 9 o)
theorem vins (h : Hdr) (o : RRR) : Statement (.vins h o) :=
  of_row rfl rfl (by decide) (by decide) fun _ => congrArg (fun x => Except.ok (Instr.vins h x)) (ofRRR_pack h 0x14 10 o)
theorem vredAdd (h : Hdr) (o : RRR) : Statement (.vredAdd h o) :=
  of_row rfl rfl (by decide) (by decide) fun _ => congrArg (fun x => Except.ok (Instr.vredAdd h x)) (ofRRR_pack h 0x14 11 o)
theorem vredMin (h : Hdr) (o : RRR) : Statement (.vredMin h o) :=
  of_row rfl rfl (by decide) (by decide) fun _ => congrArg (fun x => Except.ok (Instr.vredMin h x)) (ofRRR_pack h 0x14 12 o)
theorem vredMax (h : Hdr) (o : RRR) : Statement (.vredMax h o) :=
  of_row rfl rfl (by decide) (by decide) fun _ => congrArg (fun x => Except.ok (Instr.vredMax h x)) (ofRRR_pack h 0x14 13 o)
theorem vld (h : Hdr) (o : MEM) : Statement (.vld h o) :=
  of_row rfl rfl (by decide) (by decide) fun _ => congrArg (fun x => Except.ok (Instr.vld h x)) (ofMEM_pack h 0x15 0 o)
theorem vlds (h : Hdr) (o : MEMX) : Statement (.vlds h o) :=
  of_row rfl rfl (by decide) (by decide) fun _ => congrArg (fun x => Except.ok (Instr.vlds h x)) (ofMEMX_pack h 0x15 1 o)
theorem vldg (h : Hdr) (o : MEMX) : Statement (.vldg h o) :=
  of_row rfl rfl (by decide) (by decide) fun _ => congrArg (fun x => Except.ok (Instr.vldg h x)) (ofMEMX_pack h 0x15 2 o)
theorem vldb (h : Hdr) (o : MEM) : Statement (.vldb h o) :=
  of_row rfl rfl (by decide) (by decide) fun _ => congrArg (fun x => Except.ok (Instr.vldb h x)) (ofMEM_pack h 0x15 3 o)
theorem vgld (h : Hdr) (o : MEM) : Statement (.vgld h o) :=
  of_row rfl rfl (by decide) (by decide) fun _ => congrArg (fun x => Except.ok (Instr.vgld h x)) (ofMEM_pack h 0x15 4 o)
theorem vglds (h : Hdr) (o : MEMX) : Statement (.vglds h o) :=
  of_row rfl rfl (by decide) (by decide) fun _ => congrArg (fun x => Except.ok (Instr.vglds h x)) (ofMEMX_pack h 0x15 5 o)
theorem vgldg (h : Hdr) (o : MEMX) : Statement (.vgldg h o) :=
  of_row rfl rfl (by decide) (by decide) fun _ => congrArg (fun x => Except.ok (Instr.vgldg h x)) (ofMEMX_pack h 0x15 6 o)
theorem mld (h : Hdr) (o : MEM) : Statement (.mld h o) :=
  of_row rfl rfl (by decide) (by decide) fun _ => congrArg (fun x => Except.ok (Instr.mld h x)) (ofMEM_pack h 0x15 7 o)
theorem vst (h : Hdr) (o : MEM) : Statement (.vst h o) :=
  of_row rfl rfl (by decide) (by decide) fun _ => congrArg (fun x => Except.ok (Instr.vst h x)) (ofMEM_pack h 0x16 0 o)
theorem vsts (h : Hdr) (o : MEMX) : Statement (.vsts h o) :=
  of_row rfl rfl (by decide) (by decide) fun _ => congrArg (fun x => Except.ok (Instr.vsts h x)) (ofMEMX_pack h 0x16 1 o)
theorem vsct (h : Hdr) (o : MEMX) : Statement (.vsct h o) :=
  of_row rfl rfl (by decide) (by decide) fun _ => congrArg (fun x => Except.ok (Instr.vsct h x)) (ofMEMX_pack h 0x16 2 o)
theorem vstCnt (h : Hdr) (o : MEM) : Statement (.vstCnt h o) :=
  of_row rfl rfl (by decide) (by decide) fun _ => congrArg (fun x => Except.ok (Instr.vstCnt h x)) (ofMEM_pack h 0x16 3 o)
theorem vstm (h : Hdr) (o : MEMX) : Statement (.vstm h o) :=
  of_row rfl rfl (by decide) (by decide) fun _ => congrArg (fun x => Except.ok (Instr.vstm h x)) (ofMEMX_pack h 0x16 4 o)
theorem vgst (h : Hdr) (o : MEM) : Statement (.vgst h o) :=
  of_row rfl rfl (by decide) (by decide) fun _ => congrArg (fun x => Except.ok (Instr.vgst h x)) (ofMEM_pack h 0x16 5 o)
theorem vgsts (h : Hdr) (o : MEMX) : Statement (.vgsts h o) :=
  of_row rfl rfl (by decide) (by decide) fun _ => congrArg (fun x => Except.ok (Instr.vgsts h x)) (ofMEMX_pack h 0x16 6 o)
theorem vgsct (h : Hdr) (o : MEMX) : Statement (.vgsct h o) :=
  of_row rfl rfl (by decide) (by decide) fun _ => congrArg (fun x => Except.ok (Instr.vgsct h x)) (ofMEMX_pack h 0x16 7 o)
theorem mst (h : Hdr) (o : MEM) : Statement (.mst h o) :=
  of_row rfl rfl (by decide) (by decide) fun _ => congrArg (fun x => Except.ok (Instr.mst h x)) (ofMEM_pack h 0x16 8 o)
theorem mma (h : Hdr) (o : MXC) : Statement (.mma h o) :=
  of_row rfl rfl (by decide) (by decide) fun _ => congrArg (fun x => Except.ok (Instr.mma h x)) (ofMXC_pack h 0x18 0 o)
theorem mmas (h : Hdr) (o : MXC) : Statement (.mmas h o) :=
  of_row rfl rfl (by decide) (by decide) fun _ => congrArg (fun x => Except.ok (Instr.mmas h x)) (ofMXC_pack h 0x18 1 o)
theorem mzero (h : Hdr) (o : MXC) : Statement (.mzero h o) :=
  of_row rfl rfl (by decide) (by decide) fun _ => congrArg (fun x => Except.ok (Instr.mzero h x)) (ofMXC_pack h 0x18 2 o)
theorem mdrn (h : Hdr) (o : MXC) : Statement (.mdrn h o) :=
  of_row rfl rfl (by decide) (by decide) fun _ => congrArg (fun x => Except.ok (Instr.mdrn h x)) (ofMXC_pack h 0x18 3 o)
theorem mldacc (h : Hdr) (o : MXC) : Statement (.mldacc h o) :=
  of_row rfl rfl (by decide) (by decide) fun _ => congrArg (fun x => Except.ok (Instr.mldacc h x)) (ofMXC_pack h 0x18 4 o)
theorem mscale (h : Hdr) (o : MXC) : Statement (.mscale h o) :=
  of_row rfl rfl (by decide) (by decide) fun _ => congrArg (fun x => Except.ok (Instr.mscale h x)) (ofMXC_pack h 0x18 5 o)
theorem mxpose (h : Hdr) (o : MXC) : Statement (.mxpose h o) :=
  of_row rfl rfl (by decide) (by decide) fun _ => congrArg (fun x => Except.ok (Instr.mxpose h x)) (ofMXC_pack h 0x18 6 o)
theorem mfmt (h : Hdr) (o : MXC) : Statement (.mfmt h o) :=
  of_row rfl rfl (by decide) (by decide) fun _ => congrArg (fun x => Except.ok (Instr.mfmt h x)) (ofMXC_pack h 0x18 7 o)
theorem mwait (h : Hdr) (o : MXC) : Statement (.mwait h o) :=
  of_row rfl rfl (by decide) (by decide) fun _ => congrArg (fun x => Except.ok (Instr.mwait h x)) (ofMXC_pack h 0x18 8 o)
theorem matrixCommandStart (core : Nat) : Statement (.matrixCommandStart core) := Or.inl ⟨rfl, rfl⟩
theorem matrixCommandComplete (core idx : Nat) : Statement (.matrixCommandComplete core idx) := Or.inl ⟨rfl, rfl⟩
theorem ld (h : Hdr) (o : MEM) : Statement (.ld h o) :=
  of_row rfl rfl (by decide) (by decide) fun _ => congrArg (fun x => Except.ok (Instr.ld h x)) (ofMEM_pack h 0x20 0 o)
theorem lds (h : Hdr) (o : MEM) : Statement (.lds h o) :=
  of_row rfl rfl (by decide) (by decide) fun _ => congrArg (fun x => Except.ok (Instr.lds h x)) (ofMEM_pack h 0x20 1 o)
theorem st (h : Hdr) (o : MEM) : Statement (.st h o) :=
  of_row rfl rfl (by decide) (by decide) fun _ => congrArg (fun x => Except.ok (Instr.st h x)) (ofMEM_pack h 0x20 2 o)
theorem ldAcq (h : Hdr) (o : MEM) : Statement (.ldAcq h o) :=
  of_row rfl rfl (by decide) (by decide) fun _ => congrArg (fun x => Except.ok (Instr.ldAcq h x)) (ofMEM_pack h 0x20 3 o)
theorem ldsAcq (h : Hdr) (o : MEM) : Statement (.ldsAcq h o) :=
  of_row rfl rfl (by decide) (by decide) fun _ => congrArg (fun x => Except.ok (Instr.ldsAcq h x)) (ofMEM_pack h 0x20 4 o)
theorem stRel (h : Hdr) (o : MEM) : Statement (.stRel h o) :=
  of_row rfl rfl (by decide) (by decide) fun _ => congrArg (fun x => Except.ok (Instr.stRel h x)) (ofMEM_pack h 0x20 5 o)
theorem aadd (h : Hdr) (o : MEMX) : Statement (.aadd h o) :=
  of_row rfl rfl (by decide) (by decide) fun _ => congrArg (fun x => Except.ok (Instr.aadd h x)) (ofMEMX_pack h 0x21 0 o)
theorem aand (h : Hdr) (o : MEMX) : Statement (.aand h o) :=
  of_row rfl rfl (by decide) (by decide) fun _ => congrArg (fun x => Except.ok (Instr.aand h x)) (ofMEMX_pack h 0x21 1 o)
theorem aor (h : Hdr) (o : MEMX) : Statement (.aor h o) :=
  of_row rfl rfl (by decide) (by decide) fun _ => congrArg (fun x => Except.ok (Instr.aor h x)) (ofMEMX_pack h 0x21 2 o)
theorem axor (h : Hdr) (o : MEMX) : Statement (.axor h o) :=
  of_row rfl rfl (by decide) (by decide) fun _ => congrArg (fun x => Except.ok (Instr.axor h x)) (ofMEMX_pack h 0x21 3 o)
theorem amin (h : Hdr) (o : MEMX) : Statement (.amin h o) :=
  of_row rfl rfl (by decide) (by decide) fun _ => congrArg (fun x => Except.ok (Instr.amin h x)) (ofMEMX_pack h 0x21 4 o)
theorem amax (h : Hdr) (o : MEMX) : Statement (.amax h o) :=
  of_row rfl rfl (by decide) (by decide) fun _ => congrArg (fun x => Except.ok (Instr.amax h x)) (ofMEMX_pack h 0x21 5 o)
theorem aminu (h : Hdr) (o : MEMX) : Statement (.aminu h o) :=
  of_row rfl rfl (by decide) (by decide) fun _ => congrArg (fun x => Except.ok (Instr.aminu h x)) (ofMEMX_pack h 0x21 6 o)
theorem amaxu (h : Hdr) (o : MEMX) : Statement (.amaxu h o) :=
  of_row rfl rfl (by decide) (by decide) fun _ => congrArg (fun x => Except.ok (Instr.amaxu h x)) (ofMEMX_pack h 0x21 7 o)
theorem aswp (h : Hdr) (o : MEMX) : Statement (.aswp h o) :=
  of_row rfl rfl (by decide) (by decide) fun _ => congrArg (fun x => Except.ok (Instr.aswp h x)) (ofMEMX_pack h 0x21 8 o)
theorem acas (h : Hdr) (o : MEMX) : Statement (.acas h o) :=
  of_row rfl rfl (by decide) (by decide) fun _ => congrArg (fun x => Except.ok (Instr.acas h x)) (ofMEMX_pack h 0x21 9 o)
theorem aaddF32 (h : Hdr) (o : MEMX) : Statement (.aaddF32 h o) :=
  of_row rfl rfl (by decide) (by decide) fun _ => congrArg (fun x => Except.ok (Instr.aaddF32 h x)) (ofMEMX_pack h 0x21 10 o)
theorem sdreq (id : Nat) : Statement (.sdreq id) := Or.inl ⟨rfl, rfl⟩
theorem root (id : Nat) : Statement (.root id) := Or.inl ⟨rfl, rfl⟩
theorem shootdownComplete (part fn : Nat) : Statement (.shootdownComplete part fn) := Or.inl ⟨rfl, rfl⟩
theorem fence (h : Hdr) (o : SYS) : Statement (.fence h o) :=
  of_row rfl rfl (by decide) (by decide) fun _ => congrArg (fun x => Except.ok (Instr.fence h x)) (ofSYS_pack h 0x22 0 o)
theorem fenceAck (h : Hdr) (o : SYS) : Statement (.fenceAck h o) :=
  of_row rfl rfl (by decide) (by decide) fun _ => congrArg (fun x => Except.ok (Instr.fenceAck h x)) (ofSYS_pack h 0x22 1 o)
theorem fenceAckTimeout (id : Nat) : Statement (.fenceAckTimeout id) := Or.inl ⟨rfl, rfl⟩
theorem barinit (h : Hdr) (o : SYS) : Statement (.barinit h o) :=
  of_row rfl rfl (by decide) (by decide) fun _ => congrArg (fun x => Except.ok (Instr.barinit h x)) (ofSYS_pack h 0x22 2 o)
theorem barwait (h : Hdr) (o : SYS) : Statement (.barwait h o) :=
  of_row rfl rfl (by decide) (by decide) fun hw => by
    have h0 := checked rfl hw (Enc.zero o.imm.toNat) (by simp [Enc.checks, Enc.sysAB])
    have h1 : fld o.imm.toNat 1 0 = 0 := by
      have h2 : o.imm.toNat = 0 := by simpa [Enc.zero] using h0
      simp [fld, h2]
    show (if fld (ofSYS _).imm.toNat 1 0 = 1 then _ else if fld (ofSYS _).imm.toNat 1 0 = 2 then _ else _) = _
    rw [ofSYS_pack, if_neg (by omega), if_neg (by omega)]
theorem barwaitNw (h : Hdr) (o : SYS) : Statement (.barwaitNw h o) :=
  of_row rfl rfl (by decide) (by decide) fun hw => by
    have h0 := checked rfl hw (Enc.code (fld o.imm.toNat 1 0 == 1)) (List.mem_append_right _ (List.mem_singleton.2 rfl))
    show (if fld (ofSYS _).imm.toNat 1 0 = 1 then _ else _) = _
    rw [ofSYS_pack, if_pos (by simpa [Enc.code] using h0)]
theorem barwaitNa (h : Hdr) (o : SYS) : Statement (.barwaitNa h o) :=
  of_row rfl rfl (by decide) (by decide) fun hw => by
    have h0 := checked rfl hw (Enc.code (fld o.imm.toNat 1 0 == 2)) (List.mem_append_right _ (List.mem_singleton.2 rfl))
    have h1 : fld o.imm.toNat 1 0 = 2 := by simpa [Enc.code] using h0
    show (if fld (ofSYS _).imm.toNat 1 0 = 1 then _ else if fld (ofSYS _).imm.toNat 1 0 = 2 then _ else _) = _
    rw [ofSYS_pack, if_neg (by omega), if_pos h1]
theorem barfree (h : Hdr) (o : SYS) : Statement (.barfree h o) :=
  of_row rfl rfl (by decide) (by decide) fun _ => congrArg (fun x => Except.ok (Instr.barfree h x)) (ofSYS_pack h 0x22 4 o)
theorem lwin (h : Hdr) (o : SYS) : Statement (.lwin h o) :=
  of_row rfl rfl (by decide) (by decide) fun _ => congrArg (fun x => Except.ok (Instr.lwin h x)) (ofSYS_pack h 0x23 0 o)
theorem lwclose (h : Hdr) (o : SYS) : Statement (.lwclose h o) :=
  of_row rfl rfl (by decide) (by decide) fun _ => congrArg (fun x => Except.ok (Instr.lwclose h x)) (ofSYS_pack h 0x23 1 o)
theorem lwwait (h : Hdr) (o : SYS) : Statement (.lwwait h o) :=
  of_row rfl rfl (by decide) (by decide) fun _ => congrArg (fun x => Except.ok (Instr.lwwait h x)) (ofSYS_pack h 0x23 2 o)
theorem lwwaitTimeout (core slot : Nat) : Statement (.lwwaitTimeout core slot) := Or.inl ⟨rfl, rfl⟩
theorem lwpoll (h : Hdr) (o : SYS) : Statement (.lwpoll h o) :=
  of_row rfl rfl (by decide) (by decide) fun _ => congrArg (fun x => Except.ok (Instr.lwpoll h x)) (ofSYS_pack h 0x23 3 o)
theorem countedWriteArrival (w : CWrite) : Statement (.countedWriteArrival w) := Or.inl ⟨rfl, rfl⟩
theorem fld (h : Hdr) (o : MEMX) : Statement (.fld h o) :=
  of_row rfl rfl (by decide) (by decide) fun _ => congrArg (fun x => Except.ok (Instr.fld h x)) (ofMEMX_pack h 0x24 0 o)
theorem fldTimeout (tag : Nat) : Statement (.fldTimeout tag) := Or.inl ⟨rfl, rfl⟩
theorem fst (h : Hdr) (o : MEMX) : Statement (.fst h o) :=
  of_row rfl rfl (by decide) (by decide) fun _ => congrArg (fun x => Except.ok (Instr.fst h x)) (ofMEMX_pack h 0x24 1 o)
theorem fstOrd (h : Hdr) (o : MEMX) : Statement (.fstOrd h o) :=
  of_row rfl rfl (by decide) (by decide) fun _ => congrArg (fun x => Except.ok (Instr.fstOrd h x)) (ofMEMX_pack h 0x24 2 o)
theorem fatom (h : Hdr) (o : MEMX) : Statement (.fatom h o) :=
  of_row rfl rfl (by decide) (by decide) fun _ => congrArg (fun x => Except.ok (Instr.fatom h x)) (ofMEMX_pack h 0x24 3 o)
theorem fatomTimeout (tag : Nat) : Statement (.fatomTimeout tag) := Or.inl ⟨rfl, rfl⟩
theorem fldx (h : Hdr) (o : SYS) : Statement (.fldx h o) :=
  of_row rfl rfl (by decide) (by decide) fun _ => congrArg (fun x => Except.ok (Instr.fldx h x)) (ofSYS_pack h 0x24 4 o)
theorem fldxT (h : Hdr) (o : SYS) : Statement (.fldxT h o) :=
  of_row rfl rfl (by decide) (by decide) fun _ => congrArg (fun x => Except.ok (Instr.fldxT h x)) (ofSYS_pack h 0x24 5 o)
theorem fldxTimeout (tag : Nat) : Statement (.fldxTimeout tag) := Or.inl ⟨rfl, rfl⟩
theorem gsig (h : Hdr) (o : SYS) : Statement (.gsig h o) :=
  of_row rfl rfl (by decide) (by decide) fun _ => congrArg (fun x => Except.ok (Instr.gsig h x)) (ofSYS_pack h 0x25 0 o)
theorem gwait (h : Hdr) (o : SYS) : Statement (.gwait h o) :=
  of_row rfl rfl (by decide) (by decide) fun _ => congrArg (fun x => Except.ok (Instr.gwait h x)) (ofSYS_pack h 0x25 1 o)
theorem gpoll (h : Hdr) (o : SYS) : Statement (.gpoll h o) :=
  of_row rfl rfl (by decide) (by decide) fun _ => congrArg (fun x => Except.ok (Instr.gpoll h x)) (ofSYS_pack h 0x25 2 o)
theorem gateRefill (gate : Nat) : Statement (.gateRefill gate) := Or.inl ⟨rfl, rfl⟩
theorem book (h : Hdr) (o : SYS) : Statement (.book h o) :=
  of_row rfl rfl (by decide) (by decide) fun _ => congrArg (fun x => Except.ok (Instr.book h x)) (ofSYS_pack h 0x28 0 o)
theorem bkqry (h : Hdr) (o : SYS) : Statement (.bkqry h o) :=
  of_row rfl rfl (by decide) (by decide) fun _ => congrArg (fun x => Except.ok (Instr.bkqry h x)) (ofSYS_pack h 0x28 1 o)
theorem bkcan (h : Hdr) (o : SYS) : Statement (.bkcan h o) :=
  of_row rfl rfl (by decide) (by decide) fun _ => congrArg (fun x => Except.ok (Instr.bkcan h x)) (ofSYS_pack h 0x28 2 o)
theorem bkrel (h : Hdr) (o : SYS) : Statement (.bkrel h o) :=
  of_row rfl rfl (by decide) (by decide) fun _ => congrArg (fun x => Except.ok (Instr.bkrel h x)) (ofSYS_pack h 0x28 3 o)
theorem cpost (h : Hdr) (o : SYS) : Statement (.cpost h o) :=
  of_row rfl rfl (by decide) (by decide) fun _ => congrArg (fun x => Except.ok (Instr.cpost h x)) (ofSYS_pack h 0x29 0 o)
theorem coll (h : Hdr) (o : SYS) : Statement (.coll h o) :=
  of_row rfl rfl (by decide) (by decide) fun _ => congrArg (fun x => Except.ok (Instr.coll h x)) (ofSYS_pack h 0x29 1 o)
theorem topb (h : Hdr) (o : SYS) : Statement (.topb h o) :=
  of_row rfl rfl (by decide) (by decide) fun _ => congrArg (fun x => Except.ok (Instr.topb h x)) (ofSYS_pack h 0x29 2 o)
theorem dqpush (h : Hdr) (o : SYS) : Statement (.dqpush h o) :=
  of_row rfl rfl (by decide) (by decide) fun _ => congrArg (fun x => Except.ok (Instr.dqpush h x)) (ofSYS_pack h 0x29 3 o)
theorem dqpop (h : Hdr) (o : SYS) : Statement (.dqpop h o) :=
  of_row rfl rfl (by decide) (by decide) fun _ => congrArg (fun x => Except.ok (Instr.dqpop h x)) (ofSYS_pack h 0x29 4 o)
theorem dqsteal (h : Hdr) (o : SYS) : Statement (.dqsteal h o) :=
  of_row rfl rfl (by decide) (by decide) fun _ => congrArg (fun x => Except.ok (Instr.dqsteal h x)) (ofSYS_pack h 0x29 5 o)
theorem htsset (h : Hdr) (o : SYS) : Statement (.htsset h o) :=
  of_row rfl rfl (by decide) (by decide) fun _ => congrArg (fun x => Except.ok (Instr.htsset h x)) (ofSYS_pack h 0x29 6 o)
theorem htsdec (h : Hdr) (o : SYS) : Statement (.htsdec h o) :=
  of_row rfl rfl (by decide) (by decide) fun _ => congrArg (fun x => Except.ok (Instr.htsdec h x)) (ofSYS_pack h 0x29 7 o)
theorem heldDequePush (cluster : Nat) : Statement (.heldDequePush cluster) := Or.inl ⟨rfl, rfl⟩
theorem qmap (h : Hdr) (o : SYS) : Statement (.qmap h o) :=
  of_row rfl rfl (by decide) (by decide) fun _ => congrArg (fun x => Except.ok (Instr.qmap h x)) (ofSYS_pack h 0x29 8 o)
theorem qunmap (h : Hdr) (o : SYS) : Statement (.qunmap h o) :=
  of_row rfl rfl (by decide) (by decide) fun _ => congrArg (fun x => Except.ok (Instr.qunmap h x)) (ofSYS_pack h 0x29 9 o)
theorem queueNotify (part fn : Nat) (qaddr : BitVec 64) : Statement (.queueNotify part fn qaddr) := Or.inl ⟨rfl, rfl⟩
theorem resultLanding (id : Nat) : Statement (.resultLanding id) := Or.inl ⟨rfl, rfl⟩
theorem storePerform (id : Nat) : Statement (.storePerform id) := Or.inl ⟨rfl, rfl⟩
theorem trapEntry (core : Nat) : Statement (.trapEntry core) := Or.inl ⟨rfl, rfl⟩
theorem taskEndByFault (core slot : Nat) : Statement (.taskEndByFault core slot) := Or.inl ⟨rfl, rfl⟩
theorem bookingDue (core slot : Nat) : Statement (.bookingDue core slot) := Or.inl ⟨rfl, rfl⟩
theorem sliceEnd (part fn occasion : Nat) : Statement (.sliceEnd part fn occasion) := Or.inl ⟨rfl, rfl⟩
theorem forcedSave (core : Nat) : Statement (.forcedSave core) := Or.inl ⟨rfl, rfl⟩
theorem contextSave (part fn : Nat) : Statement (.contextSave part fn) := Or.inl ⟨rfl, rfl⟩
theorem contextRestore (part fn : Nat) : Statement (.contextRestore part fn) := Or.inl ⟨rfl, rfl⟩
theorem prefetchStart (core : Nat) : Statement (.prefetchStart core) := Or.inl ⟨rfl, rfl⟩
theorem prefetchComplete (core : Nat) : Statement (.prefetchComplete core) := Or.inl ⟨rfl, rfl⟩
theorem leasePendingTimeout (core : Nat) : Statement (.leasePendingTimeout core) := Or.inl ⟨rfl, rfl⟩
theorem taskActivate (core : Nat) : Statement (.taskActivate core) := Or.inl ⟨rfl, rfl⟩
theorem taskWake (core slot : Nat) : Statement (.taskWake core slot) := Or.inl ⟨rfl, rfl⟩
theorem priorityAging (core slot : Nat) : Statement (.priorityAging core slot) := Or.inl ⟨rfl, rfl⟩
theorem autoSteal (core : Nat) : Statement (.autoSteal core) := Or.inl ⟨rfl, rfl⟩
theorem bookingDecide : Statement (.bookingDecide) := Or.inl ⟨rfl, rfl⟩
theorem bookingRequestAging (seq : Nat) : Statement (.bookingRequestAging seq) := Or.inl ⟨rfl, rfl⟩
theorem slotBoundary : Statement (.slotBoundary) := Or.inl ⟨rfl, rfl⟩
theorem bookHold (m : BookMsg) : Statement (.bookHold m) := Or.inl ⟨rfl, rfl⟩
theorem bookHoldReply (m : BookMsg) : Statement (.bookHoldReply m) := Or.inl ⟨rfl, rfl⟩
theorem bookReplyTimeout (handle : BitVec 32) : Statement (.bookReplyTimeout handle) := Or.inl ⟨rfl, rfl⟩
theorem bookCommit (m : BookMsg) : Statement (.bookCommit m) := Or.inl ⟨rfl, rfl⟩
theorem bookRelease (m : BookMsg) : Statement (.bookRelease m) := Or.inl ⟨rfl, rfl⟩
theorem bookHoldLeaseExpiry (dev : Nat) (handle : BitVec 32) (stage : Nat) : Statement (.bookHoldLeaseExpiry dev handle stage) := Or.inl ⟨rfl, rfl⟩
theorem bookEndReport (m : BookMsg) : Statement (.bookEndReport m) := Or.inl ⟨rfl, rfl⟩
theorem copyPacketStart (serial : Nat) : Statement (.copyPacketStart serial) := Or.inl ⟨rfl, rfl⟩
theorem copyPacketComplete (serial : Nat) : Statement (.copyPacketComplete serial) := Or.inl ⟨rfl, rfl⟩
theorem collectiveStepStart (tag step : Nat) : Statement (.collectiveStepStart tag step) := Or.inl ⟨rfl, rfl⟩
theorem collectiveComplete (tag : Nat) : Statement (.collectiveComplete tag) := Or.inl ⟨rfl, rfl⟩
theorem collectiveTimeout (tag : Nat) : Statement (.collectiveTimeout tag) := Or.inl ⟨rfl, rfl⟩
theorem collectiveFailureDetect (tag member : Nat) : Statement (.collectiveFailureDetect tag member) := Or.inl ⟨rfl, rfl⟩
theorem read (p : Pkt) : Statement (.read p) := Or.inl ⟨rfl, rfl⟩
theorem rdata (p : Pkt) : Statement (.rdata p) := Or.inl ⟨rfl, rfl⟩
theorem write (p : Pkt) : Statement (.write p) := Or.inl ⟨rfl, rfl⟩
theorem wrord (p : Pkt) : Statement (.wrord p) := Or.inl ⟨rfl, rfl⟩
theorem orderedStoreRelease (idx : Nat) : Statement (.orderedStoreRelease idx) := Or.inl ⟨rfl, rfl⟩
theorem orderedStoreTimeout (idx : Nat) : Statement (.orderedStoreTimeout idx) := Or.inl ⟨rfl, rfl⟩
theorem atom (p : Pkt) : Statement (.atom p) := Or.inl ⟨rfl, rfl⟩
theorem arply (p : Pkt) : Statement (.arply p) := Or.inl ⟨rfl, rfl⟩
theorem ack (p : Pkt) : Statement (.ack p) := Or.inl ⟨rfl, rfl⟩
theorem nack (p : Pkt) : Statement (.nack p) := Or.inl ⟨rfl, rfl⟩
theorem xreq (p : Pkt) : Statement (.xreq p) := Or.inl ⟨rfl, rfl⟩
theorem xdata (p : Pkt) : Statement (.xdata p) := Or.inl ⟨rfl, rfl⟩
theorem xack (p : Pkt) : Statement (.xack p) := Or.inl ⟨rfl, rfl⟩
theorem xflt (p : Pkt) : Statement (.xflt p) := Or.inl ⟨rfl, rfl⟩
theorem xabt (p : Pkt) : Statement (.xabt p) := Or.inl ⟨rfl, rfl⟩
theorem beacon (p : Pkt) : Statement (.beacon p) := Or.inl ⟨rfl, rfl⟩
theorem beaconSend : Statement (.beaconSend) := Or.inl ⟨rfl, rfl⟩
theorem beaconLoss : Statement (.beaconLoss) := Or.inl ⟨rfl, rfl⟩
theorem ldown (p : Pkt) : Statement (.ldown p) := Or.inl ⟨rfl, rfl⟩
theorem packetForward (p : Pkt) : Statement (.packetForward p) := Or.inl ⟨rfl, rfl⟩
theorem cdata (p : Pkt) : Statement (.cdata p) := Or.inl ⟨rfl, rfl⟩
theorem cack (p : Pkt) : Statement (.cack p) := Or.inl ⟨rfl, rfl⟩
theorem cctlHeld (p : Pkt) : Statement (.cctlHeld p) := Or.inl ⟨rfl, rfl⟩
theorem cctlWithdraw (p : Pkt) : Statement (.cctlWithdraw p) := Or.inl ⟨rfl, rfl⟩
theorem cctlFlush (p : Pkt) : Statement (.cctlFlush p) := Or.inl ⟨rfl, rfl⟩
theorem cctlLate (p : Pkt) : Statement (.cctlLate p) := Or.inl ⟨rfl, rfl⟩
theorem cctlNofit (p : Pkt) : Statement (.cctlNofit p) := Or.inl ⟨rfl, rfl⟩
theorem cctlDigestMismatch (p : Pkt) : Statement (.cctlDigestMismatch p) := Or.inl ⟨rfl, rfl⟩
theorem cctlRedo (p : Pkt) : Statement (.cctlRedo p) := Or.inl ⟨rfl, rfl⟩
theorem cdig (p : Pkt) : Statement (.cdig p) := Or.inl ⟨rfl, rfl⟩
theorem scrub (u : ScrubUnit) : Statement (.scrub u) := Or.inl ⟨rfl, rfl⟩
theorem frameRetire (frame : Nat) : Statement (.frameRetire frame) := Or.inl ⟨rfl, rfl⟩
theorem energyReconcile (rail platform : Nat) : Statement (.energyReconcile rail platform) := Or.inl ⟨rfl, rfl⟩
theorem powerCapLimit (limit : Nat) : Statement (.powerCapLimit limit) := Or.inl ⟨rfl, rfl⟩
theorem powerCapLift : Statement (.powerCapLift) := Or.inl ⟨rfl, rfl⟩
theorem thermalWarning (die : Nat) : Statement (.thermalWarning die) := Or.inl ⟨rfl, rfl⟩
theorem thermalTrip (die : Nat) : Statement (.thermalTrip die) := Or.inl ⟨rfl, rfl⟩
theorem coolantAlarm : Statement (.coolantAlarm) := Or.inl ⟨rfl, rfl⟩
theorem machineCheck (m : McScope) : Statement (.machineCheck m) := Or.inl ⟨rfl, rfl⟩
theorem powerOn : Statement (.powerOn) := Or.inl ⟨rfl, rfl⟩
theorem d3hotEntry (fn : Nat) : Statement (.d3hotEntry fn) := Or.inl ⟨rfl, rfl⟩
theorem functionLevelReset (fn : Nat) : Statement (.functionLevelReset fn) := Or.inl ⟨rfl, rfl⟩
theorem hostBar2Read (fn : Nat) (ga : BitVec 64) (n : Nat) : Statement (.hostBar2Read fn ga n) := Or.inl ⟨rfl, rfl⟩
theorem hostBar2Write (fn : Nat) (ga : BitVec 64) (bytes : List (BitVec 8)) : Statement (.hostBar2Write fn ga bytes) := Or.inl ⟨rfl, rfl⟩
theorem hostAtomicOp (fn : Nat) (ga : BitVec 64) (op : HostOp) : Statement (.hostAtomicOp fn ga op) := Or.inl ⟨rfl, rfl⟩
theorem cqtail (fn : Nat) (tail : BitVec 64) (ds : List Desc) : Statement (.cqtail fn tail ds) := Or.inl ⟨rfl, rfl⟩
theorem evhead (fn : Nat) (head : BitVec 64) : Statement (.evhead fn head) := Or.inl ⟨rfl, rfl⟩
theorem partCreate (d : Desc) : Statement (.partCreate d) := Or.inl ⟨rfl, rfl⟩
theorem partDestroy (d : Desc) : Statement (.partDestroy d) := Or.inl ⟨rfl, rfl⟩
theorem granMove (d : Desc) : Statement (.granMove d) := Or.inl ⟨rfl, rfl⟩
theorem arbWeight (d : Desc) : Statement (.arbWeight d) := Or.inl ⟨rfl, rfl⟩
theorem imageLoad (d : Desc) : Statement (.imageLoad d) := Or.inl ⟨rfl, rfl⟩
theorem ctxStart (d : Desc) : Statement (.ctxStart d) := Or.inl ⟨rfl, rfl⟩
theorem ctxStop (d : Desc) : Statement (.ctxStop d) := Or.inl ⟨rfl, rfl⟩
theorem ctxResume (d : Desc) : Statement (.ctxResume d) := Or.inl ⟨rfl, rfl⟩
theorem vfReset (d : Desc) : Statement (.vfReset d) := Or.inl ⟨rfl, rfl⟩
theorem gateReq (d : Desc) : Statement (.gateReq d) := Or.inl ⟨rfl, rfl⟩
theorem gateClose (d : Desc) : Statement (.gateClose d) := Or.inl ⟨rfl, rfl⟩
theorem routeLoad (d : Desc) : Statement (.routeLoad d) := Or.inl ⟨rfl, rfl⟩
theorem groupLoad (d : Desc) : Statement (.groupLoad d) := Or.inl ⟨rfl, rfl⟩
theorem jobBind (d : Desc) : Statement (.jobBind d) := Or.inl ⟨rfl, rfl⟩
theorem migStart (d : Desc) : Statement (.migStart d) := Or.inl ⟨rfl, rfl⟩
theorem migStop (d : Desc) : Statement (.migStop d) := Or.inl ⟨rfl, rfl⟩
theorem migCommit (d : Desc) : Statement (.migCommit d) := Or.inl ⟨rfl, rfl⟩
theorem cntRead (d : Desc) : Statement (.cntRead d) := Or.inl ⟨rfl, rfl⟩
theorem attest (d : Desc) : Statement (.attest d) := Or.inl ⟨rfl, rfl⟩
theorem dbgAttach (d : Desc) : Statement (.dbgAttach d) := Or.inl ⟨rfl, rfl⟩
theorem dbgMem (d : Desc) : Statement (.dbgMem d) := Or.inl ⟨rfl, rfl⟩
theorem dbgDetach (d : Desc) : Statement (.dbgDetach d) := Or.inl ⟨rfl, rfl⟩
theorem patchLoad (d : Desc) : Statement (.patchLoad d) := Or.inl ⟨rfl, rfl⟩
theorem fjarlosSensorRead : Statement (.fjarlosSensorRead) := Or.inl ⟨rfl, rfl⟩
theorem fjarlosPowerCapSet (watts : Nat) : Statement (.fjarlosPowerCapSet watts) := Or.inl ⟨rfl, rfl⟩
theorem fjarlosFirmwareUpdate (bundle : List (BitVec 8)) : Statement (.fjarlosFirmwareUpdate bundle) := Or.inl ⟨rfl, rfl⟩
theorem fjarlosCounterRead (part fn : Nat) : Statement (.fjarlosCounterRead part fn) := Or.inl ⟨rfl, rfl⟩
theorem linkFailure (port : Nat) : Statement (.linkFailure port) := Or.inl ⟨rfl, rfl⟩
theorem linkTraining (port latency : Nat) : Statement (.linkTraining port latency) := Or.inl ⟨rfl, rfl⟩
theorem powerLoss : Statement (.powerLoss) := Or.inl ⟨rfl, rfl⟩
theorem packageReset : Statement (.packageReset) := Or.inl ⟨rfl, rfl⟩

end Sys2Proof.Laws.Codec
end

