-- ==== Sys2Proof/Laws/Trap.lean ====
section
/-!
SUPPORT. What a trap condition can do to the state (R388 to R391): nothing, enter the handler, or be noted in the task; and the word
counts of the strands after it.
-/
namespace Sys2Proof.Machine

/-- Everything that the delivery of a trap condition can do. -/
theorem State.deliver_cases {s : State} {n sl : Nat} {k : Task} (hk : s.task? n sl = some k) (i : TrapInfo) :
    s.deliver n sl i = s ∨ s.deliver n sl i = s.enterTrap n sl i ∨
    ∃ k', s.deliver n sl i = s.setTask n sl k' ∧ ∀ t, k'.str t = k.str t := by
  unfold State.deliver
  rw [hk]
  simp only []
  have note : ∀ k', (∀ t, k'.str t = k.str t) → s.setTask n sl k' = s ∨ s.setTask n sl k' = s.enterTrap n sl i ∨
      ∃ k'', s.setTask n sl k' = s.setTask n sl k'' ∧ ∀ t, k''.str t = k.str t := fun k' h => .inr (.inr ⟨k', rfl, h⟩)
  split
  · exact .inl rfl
  · split
    · split
      · exact .inl rfl
      · exact note _ fun t => by cases t <;> rfl
    · split
      · split
        · exact note _ fun t => by cases t <;> rfl
        · exact note _ fun t => by cases t <;> rfl
      · split
        · exact note _ fun t => by cases t <;> rfl
        · split
          · exact .inr (.inl rfl)
          · exact note _ fun t => by cases t <;> rfl

/-- What a trap condition has found is noted beside the tasks (R314). -/
@[simp] theorem State.task?_foundBy (s : State) (n sl : Nat) (i : TrapInfo) (m sm : Nat) : (s.foundBy n sl i).task? m sm = s.task? m sm := by
  unfold State.foundBy
  split
  · rfl
  · split <;> rfl
/-- After a trap condition every strand's word count is what it was, or 0 at the handler's first word. -/
theorem State.raise_wc {s : State} {n sl : Nat} {k k' : Task} (hk : s.task? n sl = some k) (i : TrapInfo)
    (hk' : (s.raise n sl i).task? n sl = some k') (t : Strand) : (k'.str t).wc = (k.str t).wc ∨ (k'.str t).wc = 0 := by
  unfold State.raise at hk'
  have hk := (State.task?_foundBy s n sl i n sl).trans hk
  rcases State.deliver_cases hk { i with cyc := s.cyc } with h | h | ⟨k2, h, h2⟩
  · rw [h, hk] at hk'; cases hk'; exact .inl rfl
  · rw [h] at hk'
    unfold State.enterTrap at hk'
    rw [hk] at hk'
    simp only [] at hk'
    rw [show ∀ (s : State) f, ({ s with flights := f } : State).task? n sl = s.task? n sl from fun _ _ => rfl] at hk'
    rw [State.task?_setTask_self] at hk'
    cases hk'
    right
    cases t <;> rfl
  · rw [h, State.task?_setTask_self] at hk'
    cases hk'
    rw [h2]; exact .inl rfl

end Sys2Proof.Machine
end

