-- ==== Sys2Proof/Tests/Slice0.lean ====
section
/-!
SUPPORT. The author's own tests: words written out from the encodings of the manual (R41 to R48, R59 to R61), terms that are not well-formed,
for every statement that has hypotheses a state that meets them, and single steps on small states.
-/
section
open Sys2Proof Sys2Proof.Machine
-- one theorem after the other, so that the checks of many small theorems do not run side by side
set_option Elab.async false

/-- Group `0x00` (R41, R43, R48, R61). -/
theorem test_words_scalar :
    [0x400600002AD6E8000000, 0x400600006AD6E8000000, 0x40060000AAD6E8000000, 0x40060000EAD6E8000000, 0x400600012AD6E8000000,
     0x400600016AD6E8000000, 0x40060001AAD6E8000000, 0x40060001EAD6E8000000, 0x400600022AD6E8000000, 0x400600026AD6E8000000,
     0x40060002AAD6E8000000, 0x40060002EAD6E8000000, 0x400600032AD6E8000000, 0x400600036AD6E8000000, 0x40060003AAD6E8000000].map (decodeTableWord 80) =
    [some (.add ⟨.L, 0, false, 0, 3, 0, 0, 0⟩ ⟨85, 86, 116, 0, 0⟩),
     some (.sub ⟨.L, 0, false, 0, 3, 0, 0, 0⟩ ⟨85, 86, 116, 0, 0⟩),
     some (.and ⟨.L, 0, false, 0, 3, 0, 0, 0⟩ ⟨85, 86, 116, 0, 0⟩),
     some (.or ⟨.L, 0, false, 0, 3, 0, 0, 0⟩ ⟨85, 86, 116, 0, 0⟩),
     some (.xor ⟨.L, 0, false, 0, 3, 0, 0, 0⟩ ⟨85, 86, 116, 0, 0⟩),
     some (.shl ⟨.L, 0, false, 0, 3, 0, 0, 0⟩ ⟨85, 86, 116, 0, 0⟩),
     some (.shr ⟨.L, 0, false, 0, 3, 0, 0, 0⟩ ⟨85, 86, 116, 0, 0⟩),
     some (.sra ⟨.L, 0, false, 0, 3, 0, 0, 0⟩ ⟨85, 86, 116, 0, 0⟩),
     some (.mul ⟨.L, 0, false, 0, 3, 0, 0, 0⟩ ⟨85, 86, 116, 0, 0⟩),
     some (.mulh ⟨.L, 0, false, 0, 3, 0, 0, 0⟩ ⟨85, 86, 116, 0, 0⟩),
     some (.mulhu ⟨.L, 0, false, 0, 3, 0, 0, 0⟩ ⟨85, 86, 116, 0, 0⟩),
     some (.min ⟨.L, 0, false, 0, 3, 0, 0, 0⟩ ⟨85, 86, 116, 0, 0⟩),
     some (.max ⟨.L, 0, false, 0, 3, 0, 0, 0⟩ ⟨85, 86, 116, 0, 0⟩),
     some (.minu ⟨.L, 0, false, 0, 3, 0, 0, 0⟩ ⟨85, 86, 116, 0, 0⟩),
     some (.maxu ⟨.L, 0, false, 0, 3, 0, 0, 0⟩ ⟨85, 86, 116, 0, 0⟩)] := by decide
/-- Group `0x01` (R41, R43, R48, R61). -/
theorem test_words_immediate :
    [0x0006000439D5FFFFFFFE, 0x0006000479D5FFFFFFFE, 0x00060004B9D5FFFFFFFE, 0x00060004F9D5FFFFFFFE, 0x000600053B730000002A,
     0x000600057B730000002A, 0x00060005BB730000002A, 0x00060005F9D5FFFFFFFE, 0x0006000639D5FFFFFFFE].map (decodeTableWord 80) =
    [some (.addi ⟨.C, 0, false, 0, 3, 0, 0, 0⟩ ⟨115, 85, 4294967294⟩),
     some (.andi ⟨.C, 0, false, 0, 3, 0, 0, 0⟩ ⟨115, 85, 4294967294⟩),
     some (.ori ⟨.C, 0, false, 0, 3, 0, 0, 0⟩ ⟨115, 85, 4294967294⟩),
     some (.xori ⟨.C, 0, false, 0, 3, 0, 0, 0⟩ ⟨115, 85, 4294967294⟩),
     some (.shli ⟨.C, 0, false, 0, 3, 0, 0, 0⟩ ⟨118, 115, 42⟩),
     some (.shri ⟨.C, 0, false, 0, 3, 0, 0, 0⟩ ⟨118, 115, 42⟩),
     some (.srai ⟨.C, 0, false, 0, 3, 0, 0, 0⟩ ⟨118, 115, 42⟩),
     some (.muli ⟨.C, 0, false, 0, 3, 0, 0, 0⟩ ⟨115, 85, 4294967294⟩),
     some (.lih ⟨.C, 0, false, 0, 3, 0, 0, 0⟩ ⟨115, 85, 4294967294⟩)] := by decide
/-- Group `0x02` (R41, R43, R48, R61). -/
theorem test_words_bit_field :
    [0x800200082BD800000805, 0x800200086BD800000805, 0x80020008ABD800000805, 0x80020008EBD800000000, 0x800200092BD800000000,
     0x800200096BD800000000, 0x80020009ABD800000000].map (decodeTableWord 80) =
    [some (.extr ⟨.X, 0, false, 0, 1, 0, 0, 0⟩ ⟨87, 88, 2053⟩),
     some (.extru ⟨.X, 0, false, 0, 1, 0, 0, 0⟩ ⟨87, 88, 2053⟩),
     some (.ins ⟨.X, 0, false, 0, 1, 0, 0, 0⟩ ⟨87, 88, 2053⟩),
     some (.clz ⟨.X, 0, false, 0, 1, 0, 0, 0⟩ ⟨87, 88, 0⟩),
     some (.ctz ⟨.X, 0, false, 0, 1, 0, 0, 0⟩ ⟨87, 88, 0⟩),
     some (.popc ⟨.X, 0, false, 0, 1, 0, 0, 0⟩ ⟨87, 88, 0⟩),
     some (.brev ⟨.X, 0, false, 0, 1, 0, 0, 0⟩ ⟨87, 88, 0⟩)] := by decide
/-- Group `0x03` (R41, R43, R48, R61). -/
theorem test_words_compare :
    [0xC002000C0059B4018000, 0xC002000C4059B4018000, 0xC002000C8059B4018000, 0xC002000CC059B4018000, 0xC002000D0059B4018000,
     0xC002000D4059B4018000].map (decodeTableWord 80) =
    [some (.cmpEq ⟨.S, 0, false, 0, 1, 0, 0, 0⟩ ⟨0, 89, 90, 0, 98304⟩),
     some (.cmpNe ⟨.S, 0, false, 0, 1, 0, 0, 0⟩ ⟨0, 89, 90, 0, 98304⟩),
     some (.cmpLt ⟨.S, 0, false, 0, 1, 0, 0, 0⟩ ⟨0, 89, 90, 0, 98304⟩),
     some (.cmpLtu ⟨.S, 0, false, 0, 1, 0, 0, 0⟩ ⟨0, 89, 90, 0, 98304⟩),
     some (.cmpGe ⟨.S, 0, false, 0, 1, 0, 0, 0⟩ ⟨0, 89, 90, 0, 98304⟩),
     some (.cmpGeu ⟨.S, 0, false, 0, 1, 0, 0, 0⟩ ⟨0, 89, 90, 0, 98304⟩)] := by decide
/-- Group `0x04` (R41, R43, R48, R61). -/
theorem test_words_compare_immediate :
    [0xC0020010185980000000, 0xC0020010585980000000, 0xC0020010985980000000, 0xC0020010D85980000000, 0xC0020011185980000000,
     0xC0020011585980000000].map (decodeTableWord 80) =
    [some (.cmpiEq ⟨.S, 0, false, 0, 1, 0, 0, 0⟩ ⟨48, 89, 2147483648⟩),
     some (.cmpiNe ⟨.S, 0, false, 0, 1, 0, 0, 0⟩ ⟨48, 89, 2147483648⟩),
     some (.cmpiLt ⟨.S, 0, false, 0, 1, 0, 0, 0⟩ ⟨48, 89, 2147483648⟩),
     some (.cmpiLtu ⟨.S, 0, false, 0, 1, 0, 0, 0⟩ ⟨48, 89, 2147483648⟩),
     some (.cmpiGe ⟨.S, 0, false, 0, 1, 0, 0, 0⟩ ⟨48, 89, 2147483648⟩),
     some (.cmpiGeu ⟨.S, 0, false, 0, 1, 0, 0, 0⟩ ⟨48, 89, 2147483648⟩)] := by decide
/-- Group `0x05` (R41, R43, R48, R61). -/
theorem test_words_predicate :
    [0x8002001400000003AA00, 0x8002001440000003AA00, 0x8002001480000003AA00, 0x80020014C0000003AA00, 0x8002001500000003A000,
     0x8002001540000003A000].map (decodeTableWord 80) =
    [some (.pand ⟨.X, 0, false, 0, 1, 0, 0, 0⟩ ⟨0, 0, 0, 0, 240128⟩),
     some (.por ⟨.X, 0, false, 0, 1, 0, 0, 0⟩ ⟨0, 0, 0, 0, 240128⟩),
     some (.pxor ⟨.X, 0, false, 0, 1, 0, 0, 0⟩ ⟨0, 0, 0, 0, 240128⟩),
     some (.pandn ⟨.X, 0, false, 0, 1, 0, 0, 0⟩ ⟨0, 0, 0, 0, 240128⟩),
     some (.pnot ⟨.X, 0, false, 0, 1, 0, 0, 0⟩ ⟨0, 0, 0, 0, 237568⟩),
     some (.pmov ⟨.X, 0, false, 0, 1, 0, 0, 0⟩ ⟨0, 0, 0, 0, 237568⟩)] := by decide
/-- Group `0x06` (R41, R43, R48, R61). -/
theorem test_words_control_flow :
    [0x000000180000FFFFFFFE, 0x000000186A8000000004, 0x00000018BA0000000004, 0x00000018C07300000007, 0x000000192B0000000000,
     0x000000196B5700000000, 0x00000019AC5200000000, 0x00000019C060FFFFFFFF].map (decodeTableWord 80) =
    [some (.br ⟨.C, 0, false, 0, 0, 0, 0, 0⟩ ⟨0, 0, 4294967294⟩),
     some (.brz ⟨.C, 0, false, 0, 0, 0, 0, 0⟩ ⟨85, 0, 4⟩),
     some (.brnz ⟨.C, 0, false, 0, 0, 0, 0, 0⟩ ⟨116, 0, 4⟩),
     some (.call ⟨.C, 0, false, 0, 0, 0, 0, 0⟩ ⟨0, 115, 7⟩),
     some (.jmpi ⟨.C, 0, false, 0, 0, 0, 0, 0⟩ ⟨86, 0, 0⟩),
     some (.calli ⟨.C, 0, false, 0, 0, 0, 0, 0⟩ ⟨86, 87, 0⟩),
     some (.loop ⟨.C, 0, false, 0, 0, 0, 0, 0⟩ ⟨88, 82, 0⟩),
     some (.brloop ⟨.C, 0, false, 0, 0, 0, 0, 0⟩ ⟨0, 96, 4294967295⟩)] := by decide
/-- Group `0x07` (R41, R43, R48, R61). -/
theorem test_words_spill :
    [0x4004001C005B00000FF8, 0x4002001C6D8000000FF8, 0x0002001CAD8000000012, 0x0002001CC05B0000000A].map (decodeTableWord 80) =
    [some (.spl ⟨.L, 0, false, 0, 2, 0, 0, 0⟩ ⟨0, 91, 4088⟩),
     some (.fil ⟨.L, 0, false, 0, 1, 0, 0, 0⟩ ⟨91, 0, 4088⟩),
     some (.crr ⟨.C, 0, false, 0, 1, 0, 0, 0⟩ ⟨91, 0, 18⟩),
     some (.crw ⟨.C, 0, false, 0, 1, 0, 0, 0⟩ ⟨0, 91, 10⟩)] := by decide
/-- Group `0x08` (R41, R43, R48, R61). -/
theorem test_words_system :
    [0xC0000020000000000000, 0x00000020400000000001, 0x00000020800000000000, 0x40000020C00000000000, 0x80000021000000000000,
     0x0000002140000000ABCD, 0x00000021400000000000, 0xC0000021800000001234].map (decodeTableWord 80) =
    [some (.nop ⟨.S, 0, false, 0, 0, 0, 0, 0⟩ ⟨0, 0, 0, 0⟩),
     some (.mode ⟨.C, 0, false, 0, 0, 0, 0, 0⟩ ⟨0, 0, 0, 1⟩),
     some (.ifence ⟨.C, 0, false, 0, 0, 0, 0, 0⟩ ⟨0, 0, 0, 0⟩),
     some (.yield ⟨.L, 0, false, 0, 0, 0, 0, 0⟩ ⟨0, 0, 0, 0⟩),
     some (.exit ⟨.X, 0, false, 0, 0, 0, 0, 0⟩ ⟨0, 0, 0, 0⟩),
     some (.trap ⟨.C, 0, false, 0, 0, 0, 0, 0⟩ ⟨0, 0, 0, 43981⟩),
     some (.tret ⟨.C, 0, false, 0, 0, 0, 0, 0⟩ ⟨0, 0, 0, 0⟩),
     some (.brk ⟨.S, 0, false, 0, 0, 0, 0, 0⟩ ⟨0, 0, 0, 4660⟩)] := by decide
/-- Group `0x10` (R41, R43, R48, R61). -/
theorem test_words_vector_fp32 :
    [0x80100040020104034000, 0x80100040420104034000, 0x80100040820104034000, 0x80100040C20105234000, 0x80100041020105234000,
     0x80100041420105234000, 0x80100041820104034000, 0x80100041C20104034000, 0x80100042020100034000, 0x80100042420100034000,
     0x80100042820100034000, 0x80100042C20100034000, 0x80100043020100034000, 0x80100043420100034000].map (decodeTableWord 80) =
    [some (.vaddF32 ⟨.X, 0, false, 0, 8, 0, 0, 0⟩ ⟨4, 1, 2, 0, 212992⟩),
     some (.vsubF32 ⟨.X, 0, false, 0, 8, 0, 0, 0⟩ ⟨4, 1, 2, 0, 212992⟩),
     some (.vmulF32 ⟨.X, 0, false, 0, 8, 0, 0, 0⟩ ⟨4, 1, 2, 0, 212992⟩),
     some (.vfmaF32 ⟨.X, 0, false, 0, 8, 0, 0, 0⟩ ⟨4, 1, 2, 72, 212992⟩),
     some (.vfmsF32 ⟨.X, 0, false, 0, 8, 0, 0, 0⟩ ⟨4, 1, 2, 72, 212992⟩),
     some (.vfnmaF32 ⟨.X, 0, false, 0, 8, 0, 0, 0⟩ ⟨4, 1, 2, 72, 212992⟩),
     some (.vminF32 ⟨.X, 0, false, 0, 8, 0, 0, 0⟩ ⟨4, 1, 2, 0, 212992⟩),
     some (.vmaxF32 ⟨.X, 0, false, 0, 8, 0, 0, 0⟩ ⟨4, 1, 2, 0, 212992⟩),
     some (.vabsF32 ⟨.X, 0, false, 0, 8, 0, 0, 0⟩ ⟨4, 1, 0, 0, 212992⟩),
     some (.vnegF32 ⟨.X, 0, false, 0, 8, 0, 0, 0⟩ ⟨4, 1, 0, 0, 212992⟩),
     some (.vrcpF32 ⟨.X, 0, false, 0, 8, 0, 0, 0⟩ ⟨4, 1, 0, 0, 212992⟩),
     some (.vrsqF32 ⟨.X, 0, false, 0, 8, 0, 0, 0⟩ ⟨4, 1, 0, 0, 212992⟩),
     some (.vexp2F32 ⟨.X, 0, false, 0, 8, 0, 0, 0⟩ ⟨4, 1, 0, 0, 212992⟩),
     some (.vlog2F32 ⟨.X, 0, false, 0, 8, 0, 0, 0⟩ ⟨4, 1, 0, 0, 212992⟩)] := by decide
/-- Group `0x11` (R41, R43, R48, R61). -/
theorem test_words_packed :
    [0x800800442001AC000400, 0x800800446001AC000400, 0x80080044A001AC000400, 0x80080044E001AC0C0400, 0x800800452001AC000400,
     0x800800456001AC000400].map (decodeTableWord 80) =
    [some (.vaddH ⟨.X, 0, false, 0, 4, 0, 0, 0⟩ ⟨64, 1, 86, 0, 1024⟩),
     some (.vsubH ⟨.X, 0, false, 0, 4, 0, 0, 0⟩ ⟨64, 1, 86, 0, 1024⟩),
     some (.vmulH ⟨.X, 0, false, 0, 4, 0, 0, 0⟩ ⟨64, 1, 86, 0, 1024⟩),
     some (.vfmaH ⟨.X, 0, false, 0, 4, 0, 0, 0⟩ ⟨64, 1, 86, 3, 1024⟩),
     some (.vminH ⟨.X, 0, false, 0, 4, 0, 0, 0⟩ ⟨64, 1, 86, 0, 1024⟩),
     some (.vmaxH ⟨.X, 0, false, 0, 4, 0, 0, 0⟩ ⟨64, 1, 86, 0, 1024⟩)] := by decide
/-- Group `0x12` (R41, R43, R48, R61). -/
theorem test_words_vector_integer :
    [0x800400481FC9E8000000, 0x800400485FC9E8000000, 0x800400489FC9E8000000, 0x80040048DFC9E8000000, 0x800400491FC9E8000000,
     0x800400495FC9E8000000, 0x800400499FC9E8000000, 0x80040049DFC9E8000000, 0x8004004A1FC9E8000000, 0x8004004A5FC9E8000000,
     0x8004004A9FC9E8000000, 0x8004004ADFC9E8000000, 0x8004004B1FC9E8000000, 0x8004004B5FC9E8000000, 0x8004004B9FC9E8000000].map (decodeTableWord 80) =
    [some (.vaddI32 ⟨.X, 0, false, 0, 2, 0, 0, 0⟩ ⟨63, 73, 116, 0, 0⟩),
     some (.vsubI32 ⟨.X, 0, false, 0, 2, 0, 0, 0⟩ ⟨63, 73, 116, 0, 0⟩),
     some (.vmulI32 ⟨.X, 0, false, 0, 2, 0, 0, 0⟩ ⟨63, 73, 116, 0, 0⟩),
     some (.vand ⟨.X, 0, false, 0, 2, 0, 0, 0⟩ ⟨63, 73, 116, 0, 0⟩),
     some (.vor ⟨.X, 0, false, 0, 2, 0, 0, 0⟩ ⟨63, 73, 116, 0, 0⟩),
     some (.vxor ⟨.X, 0, false, 0, 2, 0, 0, 0⟩ ⟨63, 73, 116, 0, 0⟩),
     some (.vshl ⟨.X, 0, false, 0, 2, 0, 0, 0⟩ ⟨63, 73, 116, 0, 0⟩),
     some (.vshr ⟨.X, 0, false, 0, 2, 0, 0, 0⟩ ⟨63, 73, 116, 0, 0⟩),
     some (.vsra ⟨.X, 0, false, 0, 2, 0, 0, 0⟩ ⟨63, 73, 116, 0, 0⟩),
     some (.vaddss ⟨.X, 0, false, 0, 2, 0, 0, 0⟩ ⟨63, 73, 116, 0, 0⟩),
     some (.vsubss ⟨.X, 0, false, 0, 2, 0, 0, 0⟩ ⟨63, 73, 116, 0, 0⟩),
     some (.vaddus ⟨.X, 0, false, 0, 2, 0, 0, 0⟩ ⟨63, 73, 116, 0, 0⟩),
     some (.vsubus ⟨.X, 0, false, 0, 2, 0, 0, 0⟩ ⟨63, 73, 116, 0, 0⟩),
     some (.vminI32 ⟨.X, 0, false, 0, 2, 0, 0, 0⟩ ⟨63, 73, 116, 0, 0⟩),
     some (.vmaxI32 ⟨.X, 0, false, 0, 2, 0, 0, 0⟩ ⟨63, 73, 116, 0, 0⟩)] := by decide
/-- Group `0x13` (R41, R43, R48, R61). -/
theorem test_words_mask :
    [0x8004004C270104001400, 0x8004004C670104001400, 0x8004004CA70104001400, 0x8004004CE64DA6000000, 0x8004004D264DA6000000,
     0x8004004D664DA6000000, 0x8004004DA65300000000, 0x8004004DE64DA6000000, 0x8004004E2AD300000000, 0x8004004E69D500000000].map (decodeTableWord 80) =
    [some (.vcmpF32 ⟨.X, 0, false, 0, 2, 0, 0, 0⟩ ⟨78, 1, 2, 0, 5120⟩),
     some (.vcmpI32 ⟨.X, 0, false, 0, 2, 0, 0, 0⟩ ⟨78, 1, 2, 0, 5120⟩),
     some (.vcmpuI32 ⟨.X, 0, false, 0, 2, 0, 0, 0⟩ ⟨78, 1, 2, 0, 5120⟩),
     some (.mand ⟨.X, 0, false, 0, 2, 0, 0, 0⟩ ⟨76, 77, 83, 0, 0⟩),
     some (.mor ⟨.X, 0, false, 0, 2, 0, 0, 0⟩ ⟨76, 77, 83, 0, 0⟩),
     some (.mxor ⟨.X, 0, false, 0, 2, 0, 0, 0⟩ ⟨76, 77, 83, 0, 0⟩),
     some (.mnot ⟨.X, 0, false, 0, 2, 0, 0, 0⟩ ⟨76, 83, 0, 0, 0⟩),
     some (.mandn ⟨.X, 0, false, 0, 2, 0, 0, 0⟩ ⟨76, 77, 83, 0, 0⟩),
     some (.mpop ⟨.X, 0, false, 0, 2, 0, 0, 0⟩ ⟨85, 83, 0, 0, 0⟩),
     some (.mmov ⟨.X, 0, false, 0, 2, 0, 0, 0⟩ ⟨83, 85, 0, 0, 0⟩)] := by decide
/-- Group `0x14` (R41, R43, R48, R61). -/
theorem test_words_conversion :
    [0x80080050008200001C03, 0x80080050408200001C03, 0x80080050808200024000, 0x80080050C08200000000, 0x80080051008206000400,
     0x80080051408200000401, 0x80040051808206000000, 0x80040051808200000221, 0x80040051C08200000021, 0x80040052008206038000,
     0x800400527A820000003F, 0x8004005280DD0000003F, 0x80100052C08200000400, 0x801000532E8200000000, 0x801000537A8200000400].map (decodeTableWord 80) =
    [some (.vcvtNf ⟨.X, 0, false, 0, 4, 0, 0, 0⟩ ⟨1, 2, 0, 0, 7171⟩),
     some (.vcvtFn ⟨.X, 0, false, 0, 4, 0, 0, 0⟩ ⟨1, 2, 0, 0, 7171⟩),
     some (.vcvtF32I32 ⟨.X, 0, false, 0, 4, 0, 0, 0⟩ ⟨1, 2, 0, 0, 147456⟩),
     some (.vcvtI32F32 ⟨.X, 0, false, 0, 4, 0, 0, 0⟩ ⟨1, 2, 0, 0, 0⟩),
     some (.vcvtHF32 ⟨.X, 0, false, 0, 4, 0, 0, 0⟩ ⟨1, 2, 3, 0, 1024⟩),
     some (.vcvtF32H ⟨.X, 0, false, 0, 4, 0, 0, 0⟩ ⟨1, 2, 0, 0, 1025⟩),
     some (.vperm ⟨.X, 0, false, 0, 2, 0, 0, 0⟩ ⟨1, 2, 3, 0, 0⟩),
     some (.vpermRot ⟨.X, 0, false, 0, 2, 0, 0, 0⟩ ⟨1, 2, 0, 0, 545⟩),
     some (.vbcast ⟨.X, 0, false, 0, 2, 0, 0, 0⟩ ⟨1, 2, 0, 0, 33⟩),
     some (.vsel ⟨.X, 0, false, 0, 2, 0, 0, 0⟩ ⟨1, 2, 3, 0, 229376⟩),
     some (.vext ⟨.X, 0, false, 0, 2, 0, 0, 0⟩ ⟨117, 2, 0, 0, 63⟩),
     some (.vins ⟨.X, 0, false, 0, 2, 0, 0, 0⟩ ⟨1, 93, 0, 0, 63⟩),
     some (.vredAdd ⟨.X, 0, false, 0, 8, 0, 0, 0⟩ ⟨1, 2, 0, 0, 1024⟩),
     some (.vredMin ⟨.X, 0, false, 0, 8, 0, 0, 0⟩ ⟨93, 2, 0, 0, 0⟩),
     some (.vredMax ⟨.X, 0, false, 0, 8, 0, 0, 0⟩ ⟨117, 2, 0, 0, 1024⟩)] := by decide
/-- Group `0x15` (R41, R43, R48, R61). -/
theorem test_words_vector_load :
    [0x401E005423D5F0400000, 0x401E005442D530568000, 0x401E005482D530568000, 0x401E0054E3D5F0400000, 0x401E005523D5F0400000,
     0x401E005542D530568000, 0x401E005582D530568000, 0x401E0055E9D5F0400000].map (decodeTableWord 80) =
    [some (.vld ⟨.L, 0, false, 0, 15, 0, 0, 0⟩ ⟨71, 85, 15, 0, 0, 4194304⟩),
     some (.vlds ⟨.L, 0, false, 0, 15, 0, 0, 0⟩ ⟨5, 85, 3, 0, 0, 86, 32768⟩),
     some (.vldg ⟨.L, 0, false, 0, 15, 0, 0, 0⟩ ⟨5, 85, 3, 0, 0, 86, 32768⟩),
     some (.vldb ⟨.L, 0, false, 0, 15, 0, 0, 0⟩ ⟨71, 85, 15, 0, 0, 4194304⟩),
     some (.vgld ⟨.L, 0, false, 0, 15, 0, 0, 0⟩ ⟨71, 85, 15, 0, 0, 4194304⟩),
     some (.vglds ⟨.L, 0, false, 0, 15, 0, 0, 0⟩ ⟨5, 85, 3, 0, 0, 86, 32768⟩),
     some (.vgldg ⟨.L, 0, false, 0, 15, 0, 0, 0⟩ ⟨5, 85, 3, 0, 0, 86, 32768⟩),
     some (.mld ⟨.L, 0, false, 0, 15, 0, 0, 0⟩ ⟨83, 85, 15, 0, 0, 4194304⟩)] := by decide
/-- Group `0x16` (R41, R43, R48, R61). -/
theorem test_words_vector_store :
    [0xC004005802D5F0400000, 0xC004005842D530568000, 0xC004005882D530098000, 0xC0040058C2D5F0400000, 0xC004005902D5304D8000,
     0xC004005942D5F0400000, 0xC004005982D530568000, 0xC0040059C2D530098000, 0xC004005A2655F0400000].map (decodeTableWord 80) =
    [some (.vst ⟨.S, 0, false, 0, 2, 0, 0, 0⟩ ⟨5, 85, 15, 0, 0, 4194304⟩),
     some (.vsts ⟨.S, 0, false, 0, 2, 0, 0, 0⟩ ⟨5, 85, 3, 0, 0, 86, 32768⟩),
     some (.vsct ⟨.S, 0, false, 0, 2, 0, 0, 0⟩ ⟨5, 85, 3, 0, 0, 9, 32768⟩),
     some (.vstCnt ⟨.S, 0, false, 0, 2, 0, 0, 0⟩ ⟨5, 85, 15, 0, 0, 4194304⟩),
     some (.vstm ⟨.S, 0, false, 0, 2, 0, 0, 0⟩ ⟨5, 85, 3, 0, 0, 77, 32768⟩),
     some (.vgst ⟨.S, 0, false, 0, 2, 0, 0, 0⟩ ⟨5, 85, 15, 0, 0, 4194304⟩),
     some (.vgsts ⟨.S, 0, false, 0, 2, 0, 0, 0⟩ ⟨5, 85, 3, 0, 0, 86, 32768⟩),
     some (.vgsct ⟨.S, 0, false, 0, 2, 0, 0, 0⟩ ⟨5, 85, 3, 0, 0, 9, 32768⟩),
     some (.mst ⟨.S, 0, false, 0, 2, 0, 0, 0⟩ ⟨76, 85, 15, 0, 0, 4194304⟩)] := by decide
/-- Group `0x18` (R41, R43, R48, R61). -/
theorem test_words_matrix :
    [0x801E0060356B57980000, 0x801E0060556B5767D800, 0x801E0060A00055000000, 0x801E0060D54057828000, 0x801E0061354057400000,
     0x801E0061554057300000, 0x801E0061956B57480000, 0x801E0061D54000038000, 0x801E0062000000F00000].map (decodeTableWord 80) =
    [some (.mma ⟨.X, 0, false, 0, 15, 0, 0, 0⟩ ⟨1, 85, 86, 87, 9, 1, 0, 0, 0⟩),
     some (.mmas ⟨.X, 0, false, 0, 15, 0, 0, 0⟩ ⟨0, 85, 86, 87, 6, 0, 15, 88, 0⟩),
     some (.mzero ⟨.X, 0, false, 0, 15, 0, 0, 0⟩ ⟨1, 0, 0, 85, 0, 0, 0, 0, 0⟩),
     some (.mdrn ⟨.X, 0, false, 0, 15, 0, 0, 0⟩ ⟨0, 85, 0, 87, 8, 0, 5, 0, 0⟩),
     some (.mldacc ⟨.X, 0, false, 0, 15, 0, 0, 0⟩ ⟨1, 85, 0, 87, 4, 0, 0, 0, 0⟩),
     some (.mscale ⟨.X, 0, false, 0, 15, 0, 0, 0⟩ ⟨0, 85, 0, 87, 3, 0, 0, 0, 0⟩),
     some (.mxpose ⟨.X, 0, false, 0, 15, 0, 0, 0⟩ ⟨0, 85, 86, 87, 4, 1, 0, 0, 0⟩),
     some (.mfmt ⟨.X, 0, false, 0, 15, 0, 0, 0⟩ ⟨0, 85, 0, 0, 0, 0, 7, 0, 0⟩),
     some (.mwait ⟨.X, 0, false, 0, 15, 0, 0, 0⟩ ⟨0, 0, 0, 0, 15, 0, 0, 0, 0⟩)] := by decide
/-- Group `0x20` (R41, R43, R48, R61). -/
theorem test_words_scalar_memory :
    [0x001E00802AD6917FFFFF, 0x001E00806AD6917FFFFF, 0xC01E0080BA56917FFFFF, 0x001E0080EAD6977FFFFF, 0x001E00812AD6977FFFFF,
     0x001E00817A56977FFFFF].map (decodeTableWord 80) =
    [some (.ld ⟨.C, 0, false, 0, 15, 0, 0, 0⟩ ⟨85, 86, 9, 0, 2, 8388607⟩),
     some (.lds ⟨.C, 0, false, 0, 15, 0, 0, 0⟩ ⟨85, 86, 9, 0, 2, 8388607⟩),
     some (.st ⟨.S, 0, false, 0, 15, 0, 0, 0⟩ ⟨116, 86, 9, 0, 2, 8388607⟩),
     some (.ldAcq ⟨.C, 0, false, 0, 15, 0, 0, 0⟩ ⟨85, 86, 9, 3, 2, 8388607⟩),
     some (.ldsAcq ⟨.C, 0, false, 0, 15, 0, 0, 0⟩ ⟨85, 86, 9, 3, 2, 8388607⟩),
     some (.stRel ⟨.C, 0, false, 0, 15, 0, 0, 0⟩ ⟨116, 86, 9, 3, 2, 8388607⟩)] := by decide
/-- Group `0x21` (R41, R43, R48, R61). -/
theorem test_words_atomic :
    [0x001E00842AD645D7FFF8, 0x001E00846AD645D7FFF8, 0x001E0084AAD645D7FFF8, 0x001E0084EAD645D7FFF8, 0x001E00852AD645D7FFF8,
     0x001E00856AD645D7FFF8, 0x001E0085AAD645D7FFF8, 0x001E0085EAD645D7FFF8, 0x001E00862AD645D7FFF8, 0x001E00866AD645D7FFF8,
     0x001E0086AAD64557FFF8].map (decodeTableWord 80) =
    [some (.aadd ⟨.C, 0, false, 0, 15, 0, 0, 0⟩ ⟨85, 86, 4, 2, 3, 87, 65528⟩),
     some (.aand ⟨.C, 0, false, 0, 15, 0, 0, 0⟩ ⟨85, 86, 4, 2, 3, 87, 65528⟩),
     some (.aor ⟨.C, 0, false, 0, 15, 0, 0, 0⟩ ⟨85, 86, 4, 2, 3, 87, 65528⟩),
     some (.axor ⟨.C, 0, false, 0, 15, 0, 0, 0⟩ ⟨85, 86, 4, 2, 3, 87, 65528⟩),
     some (.amin ⟨.C, 0, false, 0, 15, 0, 0, 0⟩ ⟨85, 86, 4, 2, 3, 87, 65528⟩),
     some (.amax ⟨.C, 0, false, 0, 15, 0, 0, 0⟩ ⟨85, 86, 4, 2, 3, 87, 65528⟩),
     some (.aminu ⟨.C, 0, false, 0, 15, 0, 0, 0⟩ ⟨85, 86, 4, 2, 3, 87, 65528⟩),
     some (.amaxu ⟨.C, 0, false, 0, 15, 0, 0, 0⟩ ⟨85, 86, 4, 2, 3, 87, 65528⟩),
     some (.aswp ⟨.C, 0, false, 0, 15, 0, 0, 0⟩ ⟨85, 86, 4, 2, 3, 87, 65528⟩),
     some (.acas ⟨.C, 0, false, 0, 15, 0, 0, 0⟩ ⟨85, 86, 4, 2, 3, 87, 65528⟩),
     some (.aaddF32 ⟨.C, 0, false, 0, 15, 0, 0, 0⟩ ⟨85, 86, 4, 2, 2, 87, 65528⟩)] := by decide
/-- Group `0x22` (R41, R43, R48, R61). -/
theorem test_words_fence_barrier :
    [0x001E0088000000048001, 0x001E00886A800000FFFF, 0x001E0088AAD600000000, 0x001E0088EAD600000000, 0x001E0088EAD600000001,
     0x001E0088EAD600000002, 0x001E00892AD600000000].map (decodeTableWord 80) =
    [some (.fence ⟨.C, 0, false, 0, 15, 0, 0, 0⟩ ⟨0, 0, 0, 294913⟩),
     some (.fenceAck ⟨.C, 0, false, 0, 15, 0, 0, 0⟩ ⟨85, 0, 0, 65535⟩),
     some (.barinit ⟨.C, 0, false, 0, 15, 0, 0, 0⟩ ⟨85, 86, 0, 0⟩),
     some (.barwait ⟨.C, 0, false, 0, 15, 0, 0, 0⟩ ⟨85, 86, 0, 0⟩),
     some (.barwaitNw ⟨.C, 0, false, 0, 15, 0, 0, 0⟩ ⟨85, 86, 0, 1⟩),
     some (.barwaitNa ⟨.C, 0, false, 0, 15, 0, 0, 0⟩ ⟨85, 86, 0, 2⟩),
     some (.barfree ⟨.C, 0, false, 0, 15, 0, 0, 0⟩ ⟨85, 86, 0, 0⟩)] := by decide
/-- Group `0x23` (R41, R43, R48, R61). -/
theorem test_words_window :
    [0x001E008C2A800000003F, 0x001E008C40000000003F, 0x001E008C805500012305, 0x001E008CC05500000011].map (decodeTableWord 80) =
    [some (.lwin ⟨.C, 0, false, 0, 15, 0, 0, 0⟩ ⟨85, 0, 0, 63⟩),
     some (.lwclose ⟨.C, 0, false, 0, 15, 0, 0, 0⟩ ⟨0, 0, 0, 63⟩),
     some (.lwwait ⟨.C, 0, false, 0, 15, 0, 0, 0⟩ ⟨0, 85, 0, 74501⟩),
     some (.lwpoll ⟨.C, 0, false, 0, 15, 0, 0, 0⟩ ⟨0, 85, 0, 17⟩)] := by decide
/-- Group `0x24` (R41, R43, R48, R61). -/
theorem test_words_far :
    [0x401E00902AD671800040, 0xC01E009044D670578000, 0xC01E0090AAD671D40008, 0x001E0090EAD67157A004, 0x001E00912A8000000000,
     0x001E00916A8000000000].map (decodeTableWord 80) =
    [some (.fld ⟨.L, 0, false, 0, 15, 0, 0, 0⟩ ⟨85, 86, 7, 0, 3, 0, 64⟩),
     some (.fst ⟨.S, 0, false, 0, 15, 0, 0, 0⟩ ⟨9, 86, 7, 0, 0, 87, 32768⟩),
     some (.fstOrd ⟨.S, 0, false, 0, 15, 0, 0, 0⟩ ⟨85, 86, 7, 0, 3, 84, 8⟩),
     some (.fatom ⟨.C, 0, false, 0, 15, 0, 0, 0⟩ ⟨85, 86, 7, 0, 2, 87, 40964⟩),
     some (.fldx ⟨.C, 0, false, 0, 15, 0, 0, 0⟩ ⟨85, 0, 0, 0⟩),
     some (.fldxT ⟨.C, 0, false, 0, 15, 0, 0, 0⟩ ⟨85, 0, 0, 0⟩)] := by decide
/-- Group `0x25` (R41, R43, R48, R61). -/
theorem test_words_gate :
    [0x001E00942AD600000000, 0x001E00946AD600000000, 0x001E0094AAD600000000].map (decodeTableWord 80) =
    [some (.gsig ⟨.C, 0, false, 0, 15, 0, 0, 0⟩ ⟨85, 86, 0, 0⟩),
     some (.gwait ⟨.C, 0, false, 0, 15, 0, 0, 0⟩ ⟨85, 86, 0, 0⟩),
     some (.gpoll ⟨.C, 0, false, 0, 15, 0, 0, 0⟩ ⟨85, 86, 0, 0⟩)] := by decide
/-- Group `0x28` (R41, R43, R48, R61). -/
theorem test_words_booking :
    [0x001E00A03A5600000000, 0x001E00A07A5600000007, 0x001E00A0BA5600000000, 0x001E00A0FA5600000007].map (decodeTableWord 80) =
    [some (.book ⟨.C, 0, false, 0, 15, 0, 0, 0⟩ ⟨116, 86, 0, 0⟩),
     some (.bkqry ⟨.C, 0, false, 0, 15, 0, 0, 0⟩ ⟨116, 86, 0, 7⟩),
     some (.bkcan ⟨.C, 0, false, 0, 15, 0, 0, 0⟩ ⟨116, 86, 0, 0⟩),
     some (.bkrel ⟨.C, 0, false, 0, 15, 0, 0, 0⟩ ⟨116, 86, 0, 7⟩)] := by decide
/-- Group `0x29` (R41, R43, R48, R61). -/
theorem test_words_task :
    [0x001E00A42AD600000000, 0x001E00A46AD600000000, 0x001E00A4AAD600000000, 0x001E00A4EAD600000000, 0x001E00A52AD600000000,
     0x001E00A54056000002FF, 0x001E00A5AA5600000FFF, 0x001E00A5C05600003FFF, 0x001E00A62AD600000000, 0x001E00A66AD600000000].map (decodeTableWord 80) =
    [some (.cpost ⟨.C, 0, false, 0, 15, 0, 0, 0⟩ ⟨85, 86, 0, 0⟩),
     some (.coll ⟨.C, 0, false, 0, 15, 0, 0, 0⟩ ⟨85, 86, 0, 0⟩),
     some (.topb ⟨.C, 0, false, 0, 15, 0, 0, 0⟩ ⟨85, 86, 0, 0⟩),
     some (.dqpush ⟨.C, 0, false, 0, 15, 0, 0, 0⟩ ⟨85, 86, 0, 0⟩),
     some (.dqpop ⟨.C, 0, false, 0, 15, 0, 0, 0⟩ ⟨85, 86, 0, 0⟩),
     some (.dqsteal ⟨.C, 0, false, 0, 15, 0, 0, 0⟩ ⟨0, 86, 0, 767⟩),
     some (.htsset ⟨.C, 0, false, 0, 15, 0, 0, 0⟩ ⟨84, 86, 0, 4095⟩),
     some (.htsdec ⟨.C, 0, false, 0, 15, 0, 0, 0⟩ ⟨0, 86, 0, 16383⟩),
     some (.qmap ⟨.C, 0, false, 0, 15, 0, 0, 0⟩ ⟨85, 86, 0, 0⟩),
     some (.qunmap ⟨.C, 0, false, 0, 15, 0, 0, 0⟩ ⟨85, 86, 0, 0⟩)] := by decide
/-! ## Words that are refused (R59) -/

/-- A header of strand `t` with nothing but the distance set. -/
def hd (t : Strand) : Hdr := ⟨t, 0, false, 0, 15, 0, 0, 0⟩
/-- The reason for which each instruction is refused. -/
def refusals (is : List Instr) : List (Option DecodeErr) := is.map illegal

/-- The reason for which no instruction is read. -/
def reason {α : Type} : Except DecodeErr α → Option DecodeErr
  | .ok _ => none
  | .error r => some r

/-- Fewer than ten bytes, a reserved group and a reserved minor code (R5, R59, R61). -/
theorem test_refused_rows :
    reason (Dec.bytes [0, 0, 0, 0, 0, 0, 0, 0, 0]) = some .truncated ∧ reason (Dec.word 0xFFFFFFFFFFFFFFFFFFFF) = some .reservedGroup ∧
    reason (Dec.word 0x40060003EAD6E8000000) = some .reservedMinor ∧ reason (Dec.word 0x400600002AD6E8000000) = none := by decide

/-- A `C` word with a `TOK` bit (R24); the same word of another strand is accepted. -/
theorem test_refused_token :
    refusals [.add ⟨.C, 1, false, 0, 1, 0, 0, 0⟩ ⟨85, 85, 85, 0, 0⟩, .add ⟨.L, 1, false, 0, 1, 0, 0, 0⟩ ⟨85, 85, 85, 0, 0⟩] =
      [some .tokenOnC, none] := by decide

/-- Words that another strand may not carry (R14, R61). -/
theorem test_refused_strands :
    refusals [.vaddF32 (hd .L) ⟨0, 1, 2, 0, 0⟩, .mand (hd .S) ⟨76, 77, 78, 0, 0⟩, .vld (hd .S) ⟨0, 85, 0, 0, 0, 0⟩, .vst (hd .L) ⟨0, 85, 0, 0, 0, 0⟩,
        .mwait (hd .C) ⟨0, 0, 0, 0, 0, 0, 0, 0, 0⟩, .ld (hd .X) ⟨85, 85, 0, 0, 3, 0⟩, .st (hd .X) ⟨85, 85, 0, 0, 3, 0⟩,
        .aadd (hd .S) ⟨85, 85, 0, 0, 3, 86, 0⟩, .fence (hd .L) ⟨0, 0, 0, 1⟩, .lwin (hd .X) ⟨85, 0, 0, 0⟩, .fld (hd .C) ⟨85, 85, 0, 0, 0, 0, 0⟩,
        .fst (hd .C) ⟨85, 85, 0, 0, 3, 84, 0⟩, .fldx (hd .L) ⟨85, 0, 0, 0⟩, .gsig (hd .S) ⟨85, 86, 0, 0⟩, .book (hd .X) ⟨85, 86, 0, 0⟩,
        .mode (hd .L) ⟨0, 0, 0, 0⟩, .ifence (hd .X) ⟨0, 0, 0, 0⟩, .trap (hd .S) ⟨0, 0, 0, 1⟩] =
      List.replicate 18 (some .strandNotPermitted) := by decide

/-- Register specifiers that are reserved or stand where their kind may not (R16, R17, R48, R89, R114). -/
theorem test_refused_specifiers :
    refusals [.add (hd .C) ⟨0, 85, 85, 0, 0⟩, .add (hd .C) ⟨85, 121, 85, 0, 0⟩, .add (hd .L) ⟨100, 85, 85, 0, 0⟩, .add (hd .L) ⟨118, 85, 85, 0, 0⟩,
        .add (hd .C) ⟨117, 85, 85, 0, 0⟩, .addi (hd .X) ⟨118, 85, 0⟩, .ins (hd .C) ⟨118, 85, 0x100⟩, .cmpEq (hd .C) ⟨0, 76, 85, 0, 0⟩,
        .call (hd .C) ⟨0, 116, 0⟩, .jmpi (hd .C) ⟨0, 0, 0⟩, .spl (hd .C) ⟨0, 0, 0⟩, .fil (hd .L) ⟨116, 0, 0⟩, .vaddF32 (hd .X) ⟨72, 1, 2, 0, 0⟩,
        .vaddF32 (hd .X) ⟨0, 76, 2, 0, 0⟩, .vcmpI32 (hd .X) ⟨0, 1, 2, 0, 0⟩, .mand (hd .X) ⟨76, 1, 77, 0, 0⟩, .vext (hd .X) ⟨0, 1, 0, 0, 0⟩,
        .vld (hd .L) ⟨76, 85, 0, 0, 0, 0⟩, .vst (hd .S) ⟨64, 85, 0, 0, 0, 0⟩, .vsct (hd .S) ⟨0, 85, 0, 0, 0, 85, 0⟩, .mzero (hd .X) ⟨0, 0, 0, 0, 0, 0, 0, 0, 0⟩,
        .ld (hd .L) ⟨85, 100, 0, 0, 3, 0⟩, .st (hd .S) ⟨117, 85, 0, 0, 3, 0⟩, .acas (hd .C) ⟨116, 85, 0, 0, 3, 85, 0⟩, .fence (hd .C) ⟨84, 0, 0, 1⟩,
        .barwait (hd .C) ⟨116, 85, 0, 0⟩, .fstOrd (hd .S) ⟨85, 85, 0, 0, 3, 116, 0⟩, .dqpop (hd .C) ⟨85, 0, 0, 0⟩] =
      List.replicate 28 (some .badSpecifier) := by decide

/-- Reserved fields that are not zero (R44 to R47, R59 and the entries of the words). -/
theorem test_refused_fields :
    refusals [.add (hd .C) ⟨85, 85, 85, 1, 0⟩, .add (hd .C) ⟨85, 85, 85, 0, 1⟩, .shli (hd .C) ⟨85, 85, 64⟩, .extr (hd .C) ⟨85, 85, 0x8100⟩,
        .clz (hd .C) ⟨85, 85, 1⟩, .cmpLt (hd .C) ⟨85, 85, 85, 0, 0⟩, .cmpiLt (hd .C) ⟨1, 85, 0⟩, .pand (hd .C) ⟨0, 0, 0, 0, 1⟩, .pnot (hd .C) ⟨0, 0, 0, 0, 0x200⟩,
        .br (hd .C) ⟨84, 0, 0⟩, .brz (hd .C) ⟨85, 84, 0⟩, .calli (hd .C) ⟨85, 86, 1⟩, .loop (hd .C) ⟨85, 1, 0⟩, .brloop (hd .C) ⟨0, 2, 0⟩,
        .spl (hd .C) ⟨0, 85, 0x1000⟩, .crr (hd .C) ⟨85, 0, 0x100⟩, .nop (hd .C) ⟨0, 0, 1, 0⟩, .mode (hd .C) ⟨0, 0, 0, 2⟩, .trap (hd .C) ⟨0, 0, 0, 0x10001⟩,
        .brk (hd .C) ⟨0, 0, 0, 0x10000⟩, .vabsF32 (hd .X) ⟨0, 1, 2, 0, 0⟩, .vaddI32 (hd .X) ⟨0, 1, 2, 0, 0x4000⟩, .vbcast (hd .X) ⟨0, 1, 0, 0, 64⟩,
        .mnot (hd .X) ⟨76, 77, 0, 1, 0⟩, .vcvtNf (hd .X) ⟨0, 1, 0, 0, 8⟩, .vldb (hd .L) ⟨0, 85, 0, 1, 0, 0⟩, .mzero (hd .X) ⟨0, 85, 0, 84, 0, 0, 0, 0, 0⟩,
        .mma (hd .X) ⟨0, 85, 86, 84, 0, 1, 1, 0, 0⟩, .ld (hd .C) ⟨85, 85, 0, 1, 3, 0⟩, .fenceAck (hd .C) ⟨85, 0, 0, 0x80001⟩, .barinit (hd .C) ⟨85, 86, 0, 1⟩,
        .lwwait (hd .C) ⟨0, 85, 0, 0x40⟩, .fld (hd .L) ⟨85, 85, 0, 0, 0, 85, 0⟩, .gpoll (hd .C) ⟨85, 86, 1, 0⟩, .bkqry (hd .C) ⟨85, 86, 0, 8⟩,
        .dqsteal (hd .C) ⟨0, 86, 0, 0x400⟩, .htsset (hd .C) ⟨84, 86, 0, 0x1000⟩, .qunmap (hd .C) ⟨85, 86, 0, 1⟩] =
      List.replicate 38 (some .reservedField) := by decide

/-- Reserved scopes, and sizes that a form does not have (R131, R170, R172, R174, R192, R193). -/
theorem test_refused_sizes :
    refusals [.vld (hd .L) ⟨0, 85, 0, 0, 1, 0⟩, .lds (hd .L) ⟨85, 85, 0, 0, 3, 0⟩, .ldAcq (hd .L) ⟨85, 85, 0, 5, 3, 0⟩, .stRel (hd .C) ⟨85, 85, 0, 5, 3, 0⟩,
        .aadd (hd .C) ⟨85, 85, 0, 0, 1, 86, 0⟩, .aaddF32 (hd .C) ⟨85, 85, 0, 0, 3, 86, 0⟩, .acas (hd .C) ⟨85, 85, 0, 5, 3, 86, 0⟩,
        .fence (hd .C) ⟨0, 0, 0, 0x50001⟩, .fst (hd .S) ⟨0, 85, 0, 0, 1, 84, 0⟩, .fatom (hd .C) ⟨85, 85, 0, 0, 1, 86, 0⟩] =
      List.replicate 10 (some .badScopeOrSize) := by decide

/-- Reserved codes in fields (R29, R44, R92, R125, R142, R174, R193), and codes beside them that are accepted. -/
theorem test_refused_codes :
    refusals [.extr (hd .C) ⟨85, 85, 0⟩, .extru (hd .C) ⟨85, 85, 0x4001⟩, .crr (hd .C) ⟨85, 0, 0x14⟩, .crr (hd .X) ⟨85, 0, 2⟩, .crw (hd .L) ⟨0, 85, 2⟩,
        .trap (hd .C) ⟨0, 0, 0, 0⟩, .tret (hd .C) ⟨0, 0, 0, 1⟩, .vaddH (hd .X) ⟨0, 1, 2, 0, 0x800⟩, .vcmpF32 (hd .X) ⟨76, 1, 2, 0, 0x2000⟩,
        .vcmpI32 (hd .X) ⟨76, 1, 2, 0, 0x1800⟩, .vpermRot (hd .X) ⟨0, 1, 0, 0, 0⟩, .vsel (hd .X) ⟨0, 1, 2, 0, 0⟩, .vredAdd (hd .X) ⟨0, 1, 0, 0, 0x800⟩,
        .mma (hd .X) ⟨0, 85, 86, 84, 12, 0, 0, 0, 0⟩, .mdrn (hd .X) ⟨0, 85, 0, 84, 1, 0, 0, 0, 0⟩, .mscale (hd .X) ⟨0, 85, 0, 84, 4, 0, 0, 0, 0⟩,
        .fence (hd .C) ⟨0, 0, 0, 0⟩, .barwaitNw (hd .C) ⟨85, 86, 0, 0⟩, .fatom (hd .C) ⟨85, 85, 0, 0, 3, 86, 0xA000⟩] =
      List.replicate 19 (some .reservedCode) ∧
    refusals [.extr (hd .C) ⟨85, 85, 0x4000⟩, .crr (hd .C) ⟨85, 0, 0x13⟩, .crr (hd .X) ⟨85, 0, 0x1F⟩, .vcmpF32 (hd .X) ⟨76, 1, 2, 0, 0x1C00⟩,
        .vcmpI32 (hd .X) ⟨76, 1, 2, 0, 0x1400⟩, .mma (hd .X) ⟨0, 85, 86, 84, 11, 0, 0, 0, 0⟩, .fatom (hd .C) ⟨85, 85, 0, 0, 2, 86, 0xA000⟩,
        .stRel (hd .C) ⟨116, 85, 0, 4, 3, 0⟩] = List.replicate 8 none := by decide
/-! ## Small states -/

/-- A context task with a lease of the first 64 KiB; `c`, `l`, `x`, `s` are the `a` registers of its strands. -/
def tk (c l x s : SMap Word) : Task :=
  { part := 0, fn := 0, ser := 1, st := .active, txl := 8, regions := [⟨none, 0, 0x10000, true, true⟩]
    lease := [⟨0, 0x10000, 0, true, true⟩], sC := { ip := 3, a := c }, sL := { ip := 3, a := l }, sX := { ip := 3, a := x }, sS := { ip := 3, a := s } }
/-- The part with task `k` active on core 0 and the turn of strand `t` there. -/
def on (k : Task) (t : Strand) : State :=
  { turn := t.code, cyc := 100, parts := [(0, ⟨1, 0, 0, 0, 0⟩)], ctxs := [(0, { phase := .running })]
    cores := [(0, { active := some 0, slots := [(0, k)] })] }
/-- The strand `t` of task `k` with a word of header `h`. -/
def ev (k : Task) (t : Strand) (h : Hdr) : Env := ⟨0, 0, t, k, k.str t, h, 0⟩
/-- The state after a step that goes on; reset otherwise. -/
def after : Out → State
  | .next t => t
  | _ => State.reset
/-- The newest result in flight after a step. -/
def fly (o : Out) : Option FOp := ((after o).flights.getLast?).map (·.op)
/-- The task of core 0 after a step. -/
def tsk (o : Out) : Task := ((after o).task? 0 0).getD (tk [] [] [] [])
/-- The cause in the trap record of core 0's task after a step, when it is in the handler (R386). -/
def trapped (o : Out) : Option Nat := (tsk o).handler.map fun _ => Mem.read (tsk o).sC.spill 4032 2
/-- The traps that core 0's task holds after a step: cause and engine status (R391). -/
def heldIn (o : Out) : List (Nat × Nat) := (tsk o).held.map fun i => (i.cause, i.estat)
/-- The conditions of issue together. -/
theorem issues_of {s : State} {h : Hdr} {lat : Nat} {p : Ports} {e : Env}
    (w : s.env? h = some e ∧ e.live = true ∧ e.windowOpen = true ∧ e.t = h.str ∧ lat ≤ h.dst.toNat ∧ e.tagsReady = true ∧
      e.tokensReady s.cyc = true ∧ e.predicate = true ∧ (p.pop = true → (e.task.queue e.t.code).isEmpty = false) ∧
      (match p.push with | some c => s.pushRoom e c | none => true) = true) : Issues s h lat p e :=
  ⟨w.1, w.2.1, w.2.2.1, w.2.2.2.1, w.2.2.2.2.1, w.2.2.2.2.2.1, w.2.2.2.2.2.2.1, w.2.2.2.2.2.2.2.1, w.2.2.2.2.2.2.2.2.1,
    fun c hc => by have := w.2.2.2.2.2.2.2.2.2; rw [hc] at this; exact this⟩
/-- The conditions of evaluation together. -/
theorem evaluates_of {s : State} {h : Hdr} {pop : Bool} {e : Env}
    (w : s.env? h = some e ∧ e.live = true ∧ e.windowOpen = true ∧ e.t = h.str ∧ e.tagsReady = true ∧ e.tokensReady s.cyc = true ∧
      e.task.outRoom e.t.code = true ∧ e.predicate = true ∧ (pop = true → (e.task.queue e.t.code).isEmpty = false)) :
    Evaluates s h pop e :=
  ⟨w.1, w.2.1, w.2.2.1, w.2.2.2.1, w.2.2.2.2.1, w.2.2.2.2.2.1, w.2.2.2.2.2.2.1, w.2.2.2.2.2.2.2.1, w.2.2.2.2.2.2.2.2⟩

/-! ## Scalar words: the hypotheses of the statements are met, and one step each -/

/-- A task whose strand `C` holds 7 in `a1`, -3 in `a2`, 64 in `a3`, and 5 in its queue. -/
def kS : Task := { tk [(1, 7), (2, -3), (3, 64)] [] [] [] with sq := [(0, [5, 6])] }
/-- `scalar_arithmetic_results`: a register, `a0` and a push as destination; the pop of `qi`. -/
theorem witness_scalar_arithmetic :
    Issues (on kS .C) (hd .C) 1 (ports (85 : BitVec 7) 86 87) (ev kS .C (hd .C)) ∧ Issues (on kS .C) (hd .C) 3 (ports (85 : BitVec 7) 86 84) (ev kS .C (hd .C)) ∧
    Issues (on kS .C) (hd .C) 3 (ports (116 : BitVec 7) 85 118) (ev kS .C (hd .C)) :=
  ⟨issues_of (by decide +kernel), issues_of (by decide +kernel), issues_of (by decide +kernel)⟩
/-- R90: results by hand: 7 + (-3), 7 - (-3), shifts by 64 mod 64, the high half of 5 * -3, unsigned and signed order. -/
theorem test_scalar_arithmetic :
    [Instr.add (hd .C) ⟨87, 85, 86, 0, 0⟩, .sub (hd .C) ⟨87, 85, 86, 0, 0⟩, .and (hd .C) ⟨87, 85, 86, 0, 0⟩, .or (hd .C) ⟨87, 85, 86, 0, 0⟩,
      .xor (hd .C) ⟨87, 85, 86, 0, 0⟩, .shl (hd .C) ⟨87, 85, 87, 0, 0⟩, .shr (hd .C) ⟨87, 86, 85, 0, 0⟩, .sra (hd .C) ⟨87, 86, 85, 0, 0⟩,
      .mul (hd .C) ⟨87, 116, 86, 0, 0⟩, .mulh (hd .C) ⟨87, 116, 86, 0, 0⟩, .mulhu (hd .C) ⟨87, 116, 86, 0, 0⟩, .min (hd .C) ⟨87, 85, 86, 0, 0⟩,
      .max (hd .C) ⟨87, 85, 86, 0, 0⟩, .minu (hd .C) ⟨87, 85, 86, 0, 0⟩, .maxu (hd .C) ⟨118, 85, 86, 0, 0⟩].map (fun i => fly (exec i (on kS .C))) =
    [some (.scalar 87 4), some (.scalar 87 10), some (.scalar 87 5), some (.scalar 87 0xFFFFFFFFFFFFFFFF), some (.scalar 87 0xFFFFFFFFFFFFFFFA),
      some (.scalar 87 7), some (.scalar 87 0x01FFFFFFFFFFFFFF), some (.scalar 87 (-1)), some (.scalar 87 (-15)), some (.scalar 87 (-1)),
      some (.scalar 87 4), some (.scalar 87 (-3)), some (.scalar 87 7), some (.scalar 87 7), some (.scalar 118 (-3))] := by decide +kernel
/-- `scalar_immediate_results`, `bit_field_results`, `compare_results`: with and without a pop. -/
theorem witness_scalar_forms :
    Issues (on kS .C) (hd .C) 1 { pop := isPop (85 : BitVec 7), push := pushTarget 118 } (ev kS .C (hd .C)) ∧
    Issues (on kS .C) (hd .C) 3 { pop := isPop (116 : BitVec 7), push := pushTarget 86 } (ev kS .C (hd .C)) ∧
    Issues (on kS .C) (hd .C) 1 { pop := isPop (85 : BitVec 7) || isPop (116 : BitVec 7) } (ev kS .C (hd .C)) ∧
    Issues (on kS .C) (hd .C) 1 {} (ev kS .C (hd .C)) :=
  ⟨issues_of (by decide +kernel), issues_of (by decide +kernel), issues_of (by decide +kernel), issues_of (by decide +kernel)⟩
/-- R91: a negative immediate, a shift by 63, the upper half. -/
theorem test_scalar_immediate :
    [Instr.addi (hd .C) ⟨87, 85, 0xFFFFFFF8⟩, .andi (hd .C) ⟨87, 86, 0x80000000⟩, .ori (hd .C) ⟨87, 85, 8⟩, .xori (hd .C) ⟨87, 85, 0xFFFFFFFF⟩,
      .lih (hd .C) ⟨87, 86, 0x12345678⟩, .shli (hd .C) ⟨87, 85, 63⟩, .shri (hd .C) ⟨87, 86, 63⟩, .srai (hd .C) ⟨87, 86, 63⟩,
      .muli (hd .C) ⟨87, 85, 0xFFFFFFFE⟩].map (fun i => fly (exec i (on kS .C))) =
    [some (.scalar 87 (-1)), some (.scalar 87 0xFFFFFFFF80000000), some (.scalar 87 15), some (.scalar 87 (-8)),
      some (.scalar 87 0x12345678FFFFFFFD), some (.scalar 87 0x8000000000000000), some (.scalar 87 1), some (.scalar 87 (-1)),
      some (.scalar 87 (-14))] := by decide +kernel
/-- The bounds of `bit_field_results`: position 0 with length 64, position 63 with length 1; one past the end is refused by R59. -/
theorem witness_bit_field_bounds :
    (1 ≤ Enc.len ⟨85, 85, 0x4000⟩ ∧ Enc.pos ⟨85, 85, 0x4000⟩ + Enc.len ⟨85, 85, 0x4000⟩ ≤ 64) ∧
    (1 ≤ Enc.len ⟨85, 85, 0x13F⟩ ∧ Enc.pos ⟨85, 85, 0x13F⟩ + Enc.len ⟨85, 85, 0x13F⟩ ≤ 64) ∧
    illegal (.extr (hd .C) ⟨85, 85, 0x23F⟩) = some .reservedCode := by decide +kernel
/-- R92: bits 3:1 of 7 with and without sign, bit 63 of -3, 7 inserted at bit 4 of -3, and the counts. -/
theorem test_bit_field :
    [Instr.extr (hd .C) ⟨87, 85, 0x201⟩, .extru (hd .C) ⟨87, 85, 0x201⟩, .extru (hd .C) ⟨87, 86, 0x13F⟩, .ins (hd .C) ⟨86, 87, 0x401⟩,
      .clz (hd .C) ⟨87, 85, 0⟩, .ctz (hd .C) ⟨118, 87, 0⟩, .popc (hd .C) ⟨87, 86, 0⟩, .brev (hd .C) ⟨87, 85, 0⟩, .clz (hd .C) ⟨87, 84, 0⟩].map
      (fun i => fly (exec i (on kS .C))) =
    [some (.scalar 87 (-1)), some (.scalar 87 3), some (.scalar 87 1), some (.scalar 86 0xFFFFFFFFFFFFFFE1), some (.scalar 87 61),
      some (.scalar 118 6), some (.scalar 87 63), some (.scalar 87 0xE000000000000000), some (.scalar 87 64)] := by decide +kernel
/-- R93, R94: 7 against -3 signed and unsigned; `p0` in `PA` reads 1 and `p1` 0. -/
theorem test_compares :
    [Instr.cmpEq (hd .C) ⟨0, 85, 86, 0, 0x8000⟩, .cmpNe (hd .C) ⟨0, 85, 86, 0, 0x8000⟩, .cmpLt (hd .C) ⟨0, 85, 86, 0, 0x8000⟩,
      .cmpLtu (hd .C) ⟨0, 85, 86, 0, 0x8000⟩, .cmpGe (hd .C) ⟨0, 85, 86, 0, 0x8000⟩, .cmpGeu (hd .C) ⟨0, 85, 86, 0, 0x38000⟩,
      .cmpiEq (hd .C) ⟨0x10, 86, 0xFFFFFFFD⟩, .cmpiNe (hd .C) ⟨0x10, 86, 0xFFFFFFFD⟩, .cmpiLt (hd .C) ⟨0x10, 85, 0xFFFFFFFD⟩,
      .cmpiLtu (hd .C) ⟨0x10, 85, 0xFFFFFFFD⟩, .cmpiGe (hd .C) ⟨0x10, 85, 7⟩, .cmpiGeu (hd .C) ⟨0x70, 85, 8⟩].map
      (fun i => fly (exec i (on kS .C))) =
    [some (.pred 1 false), some (.pred 1 true), some (.pred 1 false), some (.pred 1 true), some (.pred 1 true), some (.pred 7 false),
      some (.pred 1 true), some (.pred 1 false), some (.pred 1 false), some (.pred 1 true), some (.pred 1 true), some (.pred 7 false)] ∧
    [Instr.pand (hd .C) ⟨0, 0, 0, 0, 0x10200⟩, .por (hd .C) ⟨0, 0, 0, 0, 0x10200⟩, .pxor (hd .C) ⟨0, 0, 0, 0, 0x10000⟩,
      .pandn (hd .C) ⟨0, 0, 0, 0, 0x10200⟩, .pnot (hd .C) ⟨0, 0, 0, 0, 0x11000⟩, .pmov (hd .C) ⟨0, 0, 0, 0, 0x11000⟩].map
      (fun i => fly (exec i (on kS .C))) =
    [some (.pred 2 false), some (.pred 2 true), some (.pred 2 false), some (.pred 2 true), some (.pred 2 true), some (.pred 2 false)] := by decide +kernel
/-- `spill_and_control_registers`: the last aligned offset, one that is not, and a writable and a read-only register. -/
theorem witness_spill_and_control :
    Issues (on kS .C) (hd .C) 2 { pop := isPop (116 : BitVec 7) } (ev kS .C (hd .C)) ∧
    Issues (on kS .C) (hd .C) 1 { push := pushTarget 118 } (ev kS .C (hd .C)) ∧
    Issues (on kS .C) (hd .C) 0 { pop := isPop (85 : BitVec 7) } (ev kS .C (hd .C)) ∧
    fld (0xFF8 : BitVec 32).toNat 11 0 % 8 = 0 ∧ fld (0xFFF : BitVec 32).toNat 11 0 % 8 ≠ 0 ∧
    fld (0x12 : BitVec 32).toNat 7 0 ∈ [0x02, 0x08, 0x09, 0x0A, 0x0B, 0x12] ∧ fld (0x13 : BitVec 32).toNat 7 0 ∉ [0x02, 0x08, 0x09, 0x0A, 0x0B, 0x12] :=
  ⟨issues_of (by decide +kernel), issues_of (by decide +kernel), issues_of (by decide +kernel), by decide +kernel⟩
/-- R105, R106, R385: spill of `qi`, Alignment, `CYC` read, a write of `WIN`, and Privilege. -/
theorem test_spill_and_control :
    [Instr.spl (hd .C) ⟨0, 116, 0xFF8⟩, .fil (hd .C) ⟨118, 0, 8⟩, .crr (hd .C) ⟨85, 0, 0⟩, .crw (hd .C) ⟨0, 85, 2⟩].map
      (fun i => fly (exec i (on kS .C))) =
    [some (.spill 116 5 0xFF8), some (.fil 118 8), some (.scalar 85 100), some (.creg 2 7)] ∧
    [Instr.spl (hd .C) ⟨0, 85, 4⟩, .fil (hd .C) ⟨85, 0, 0xFFF⟩, .crw (hd .C) ⟨0, 85, 0x13⟩].map (fun i => trapped (exec i (on kS .C))) =
    [some 0x0003, some 0x0003, some 0x0004] := by decide +kernel

/-! ## Control flow and system words -/

/-- `control_flow_results`: with and without a pop; an indirect target that is a multiple of 8 and one that is not. -/
theorem witness_control_flow :
    Evaluates (on kS .C) (hd .C) false (ev kS .C (hd .C)) ∧ Evaluates (on kS .C) (hd .C) (isPop (116 : BitVec 7)) (ev kS .C (hd .C)) ∧
    ((ev kS .C (hd .C)).popped.src (87 : BitVec 7)).toNat % 8 = 0 ∧ ((ev kS .C (hd .C)).popped.src (116 : BitVec 7)).toNat % 8 ≠ 0 :=
  ⟨evaluates_of (by decide +kernel), evaluates_of (by decide +kernel), by decide +kernel⟩
/-- R57, R97 to R100: where strand `C` stands after each word from word 3: two blocks on, a taken and an untaken branch, links, loop
of 64, and a misaligned target. -/
theorem test_control_flow :
    [Instr.br (hd .C) ⟨0, 0, 2⟩, .brz (hd .C) ⟨84, 0, 2⟩, .brnz (hd .C) ⟨84, 0, 2⟩, .call (hd .C) ⟨0, 86, 1⟩, .jmpi (hd .C) ⟨87, 0, 0⟩,
      .calli (hd .C) ⟨87, 86, 0⟩, .loop (hd .C) ⟨87, 0, 0⟩, .brloop (hd .C) ⟨0, 0, 1⟩].map
      (fun i => ((tsk (exec i (on kS .C))).sC.ip, (tsk (exec i (on kS .C))).sC.reg 2, ((tsk (exec i (on kS .C))).sC.loopCtr 0).cnt)) =
    [(16, -3, 0), (16, -3, 0), (4, -3, 0), (8, 8, 0), (64, -3, 0), (64, 8, 0), (4, -3, 63), (4, -3, 0)] ∧
    trapped (exec (.jmpi (hd .C) ⟨116, 0, 0⟩) (on kS .C)) = some 0x0003 ∧
    ((tsk (exec (.br (hd .C) ⟨0, 0, 2⟩) (on kS .C))).outcomes 0 3).length = 1 ∧
    (SMap.get (tsk (exec (.call { hd .C with dst := 3 } ⟨0, 86, 1⟩) (on { kS with tagd := false } .C))).sC.haz 0 86) = 103 := by decide +kernel
/-- A header at which everything is as in `hd`, for rendezvous words decided by strand `C`. -/
def meetHd : Hdr := hd .C
/-- `k` with every strand standing at a rendezvous word whose decision is due. -/
def met (k : Task) : Task :=
  { k with rdv := .decide 100, sC := { k.sC with wait := .arrived }, sL := { k.sL with wait := .arrived }
           sX := { k.sX with wait := .arrived }, sS := { k.sS with wait := .arrived } }
/-- `k` in a handler, entered from word counts of 2. -/
def handling (k : Task) : Task := { k with handler := some { toks := [], sq := [(0, [9])], bq := [], wcs := [2, 2, 2, 2] } }
/-- The conditions of a decision together. -/
theorem decides_of {s : State} {h : Hdr} {e : Env}
    (w : s.env? h = some e ∧ e.task.stopped = false ∧ e.st.wait = .arrived ∧ e.t = h.str ∧ (match e.task.rdv with
      | .decide c => decide (c ≤ s.cyc) && e.predicate
      | _ => false) = true) : Decides s h e := by
  refine ⟨w.1, w.2.1, w.2.2.1, w.2.2.2.1, .inr ?_⟩
  have h5 := w.2.2.2.2
  split at h5
  · simp only [Bool.and_eq_true, decide_eq_true_eq] at h5; exact ⟨_, ‹_›, h5.1, h5.2⟩
  · exact absurd h5 (by decide)

/-- `system_word_results`: outside handler mode, with and without a debugger. -/
theorem witness_system_words :
    Issues (on kS .C) (hd .C) 0 {} (ev kS .C (hd .C)) ∧ (ev kS .C (hd .C)).task.handler = none ∧
    ((on kS .C).ctx (ev kS .C (hd .C)).task.key).debugger = false ∧
    Issues { on kS .C with ctxs := [(0, { phase := .running, debugger := true })] } (hd .C) 0 {} (ev kS .C (hd .C)) ∧
    (({ on kS .C with ctxs := [(0, { phase := .running, debugger := true })] } : State).ctx (ev kS .C (hd .C)).task.key).debugger = true :=
  ⟨issues_of (by decide +kernel), by decide +kernel, by decide +kernel, issues_of (by decide +kernel), by decide +kernel⟩
/-- R107, R112, R113, R389: the next word, and the traps with their codes. -/
theorem test_system_words :
    (tsk (exec (.nop (hd .C) ⟨0, 0, 0, 0⟩) (on kS .C))).sC.ip = 4 ∧ (tsk (exec (.ifence (hd .C) ⟨0, 0, 0, 0⟩) (on kS .C))).sC.ip = 4 ∧
    trapped (exec (.trap (hd .C) ⟨0, 0, 0, 7⟩) (on kS .C)) = some 0x000D ∧ trapped (exec (.tret (hd .C) ⟨0, 0, 0, 0⟩) (on kS .C)) = some 0x000D ∧
    trapped (exec (.brk (hd .C) ⟨0, 0, 0, 7⟩) (on kS .C)) = some 0x000E ∧
    Mem.read (tsk (exec (.trap (hd .C) ⟨0, 0, 0, 7⟩) (on kS .C))).sC.spill 4040 4 = 7 ∧
    Mem.read (tsk (exec (.trap (hd .C) ⟨0, 0, 0, 7⟩) (on kS .C))).sC.spill 4076 4 = 4 ∧
    ((after (exec (.brk (hd .C) ⟨0, 0, 0, 7⟩) { on kS .C with ctxs := [(0, { phase := .running, debugger := true })] })).ctx 0).phase = .saving 3 := by
  decide +kernel
/-- `rendezvous_word_results`: every wait over; a task outside and one inside the handler; a walker between two steps. -/
theorem witness_rendezvous_words :
    Decides (on (met kS) .C) (hd .C) (ev (met kS) .C (hd .C)) ∧ (on (met kS) .C).landedAll 0 0 = true ∧
    (((on (met kS) .C).core 0).mxe.live 100) = [] ∧ State.yieldReady (ev (met kS) .C (hd .C)) (on (met kS) .C) = true ∧
    State.exitReady (ev (met kS) .C (hd .C)) (on (met kS) .C) = true ∧
    Decides (on (met (handling kS)) .C) (hd .C) (ev (met (handling kS)) .C (hd .C)) ∧ (met (handling kS)).handler ≠ none ∧
    (on (met (handling kS)) .C).drained 0 0 = true :=
  ⟨decides_of (by decide +kernel), by decide +kernel, by decide +kernel, by decide +kernel, by decide +kernel, decides_of (by decide +kernel),
    by decide +kernel⟩
/-- R108, R110, R111, R390: `mode` sets `TAGD` to 0, `yield` and `exit` free the active slot, `exit` the task slot, and `tret` puts the
queues back. -/
theorem test_rendezvous_words :
    (tsk (exec (.mode (hd .C) ⟨0, 0, 0, 0⟩) (on (met kS) .C))).tagd = false ∧ (tsk (exec (.mode (hd .C) ⟨0, 0, 0, 1⟩) (on (met kS) .C))).sS.ip = 4 ∧
    (tsk (exec (.yield (hd .C) ⟨0, 0, 0, 0⟩) (on (met kS) .C))).st = .runnable ∧
    ((after (exec (.yield (hd .C) ⟨0, 0, 0, 0⟩) (on (met kS) .C))).core 0).active = none ∧
    (after (exec (.exit (hd .C) ⟨0, 0, 0, 0⟩) (on (met kS) .C))).task? 0 0 = none ∧
    ((tsk (exec (.tret (hd .C) ⟨0, 0, 0, 0⟩) (on (met (handling kS)) .C))).handler = none ∧
      (tsk (exec (.tret (hd .C) ⟨0, 0, 0, 0⟩) (on (met (handling kS)) .C))).queue 0 = [9] ∧
      (tsk (exec (.tret (hd .C) ⟨0, 0, 0, 0⟩) (on (met (handling kS)) .C))).sL.wc = 2) := by decide +kernel

/-! ## Vector words -/

/-- Core 0 with values in `v1`, `v2` and a mask of lane 0 in `m1`; lanes 0 and 1 hold the numbers given. -/
def onV (a b : Nat) : State :=
  { on kS .X with cores := [(0, { active := some 0, slots := [(0, kS)], vec := { m := [(1, a), (2, b)] }, msk := { m := [(1, 1)] } })] }
/-- The first two lanes and the flags of the newest result of a vector word. -/
def lanes2 (o : Out) : Option (Nat × Nat × Nat) := match (after o).flights.getLast? with
  | some f => match f.op with
    | .vector _ v _ => some ((lane v 0).toNat, (lane v 1).toNat, f.stat.toNat)
    | _ => none
  | none => none
/-- 1.5 and -1.0 in `v1`, 2.0 and infinity in `v2`; the other lanes 0. -/
def onF : State := onV 0xBF8000003FC00000 0x7F80000040000000
/-- `vector_fp32_results`, `vector_packed_results`, `vector_integer_results`, `vector_compare_results`, `lane_move_results`: strand `X` issues, with
and without a pop. -/
theorem witness_vector_words :
    Issues onF (hd .X) 2 (vports ⟨3, 1, 2, 0, 0⟩) (ev kS .X (hd .X)) ∧ Issues onF (hd .X) 4 (vports ⟨3, 1, 2, 1, 0x24000⟩) (ev kS .X (hd .X)) ∧
    Issues onF (hd .X) 8 (vports ⟨3, 1, 0, 0, 0⟩) (ev kS .X (hd .X)) ∧ Issues onF (hd .X) 2 { push := pushTarget 117 } (ev kS .X (hd .X)) ∧
    Enc.FX ⟨3, 1, 0, 0, 0⟩ = 0 ∧ Enc.FX ⟨3, 1, 0, 0, 0x400⟩ ≠ 0 ∧ onF.lanes (ev kS .X (hd .X)) ⟨3, 1, 0, 0, 0x20000⟩ = BitVec.allOnes 64 :=
  ⟨issues_of (by decide +kernel), issues_of (by decide +kernel), issues_of (by decide +kernel), issues_of (by decide +kernel), by decide +kernel⟩
/-- R117, R118: by hand, on 1.5 and 2.0 in lane 0 and on -1.0 and infinity in lane 1. -/
theorem test_vector_fp32 :
    [Instr.vaddF32 (hd .X) ⟨3, 1, 2, 0, 0⟩, .vsubF32 (hd .X) ⟨3, 1, 2, 0, 0⟩, .vmulF32 (hd .X) ⟨3, 1, 2, 0, 0⟩, .vfmaF32 (hd .X) ⟨3, 1, 2, 1, 0⟩,
      .vfmsF32 (hd .X) ⟨3, 1, 2, 1, 0⟩, .vfnmaF32 (hd .X) ⟨3, 1, 2, 1, 0⟩, .vminF32 (hd .X) ⟨3, 1, 2, 0, 0⟩, .vmaxF32 (hd .X) ⟨3, 1, 2, 0, 0⟩,
      .vabsF32 (hd .X) ⟨3, 1, 0, 0, 0⟩, .vnegF32 (hd .X) ⟨3, 1, 0, 0, 0⟩, .vexp2F32 (hd .X) ⟨3, 2, 0, 0, 0⟩,
      .vlog2F32 (hd .X) ⟨3, 2, 0, 0, 0x24000⟩].map (fun i => lanes2 (exec i onF)) =
    [some (0x40600000, 0x7F800000, 0), some (0xBF000000, 0xFF800000, 0), some (0x40400000, 0xFF800000, 0), some (0x40900000, 0xFF800000, 0),
      some (0x3FC00000, 0xFF800000, 0), some (0xBFC00000, 0x7F800000, 0), some (0x3FC00000, 0xBF800000, 0), some (0x40000000, 0x7F800000, 0),
      some (0x3FC00000, 0x3F800000, 0), some (0xBFC00000, 0x3F800000, 0), some (0x40800000, 0x7F800000, 0), some (0x3F800000, 0x7F800000, 0)] ∧
    (lanes2 (exec (.vrcpF32 (hd .X) ⟨3, 2, 0, 0, 0⟩) onF)).map (·.2.1) = some 0 ∧
    (lanes2 (exec (.vrsqF32 (hd .X) ⟨3, 1, 0, 0, 0⟩) onF)).map (·.2) = some (0x7FC00000, 1) := by decide +kernel
/-- R123: lane 0 holds FP16 1.0 and -2.0 against 0.5 and 2.0; BF16 1.0 and -2.0 against 0.5 and 2.0. -/
theorem test_vector_packed :
    [Instr.vaddH (hd .X) ⟨3, 1, 2, 0, 0⟩, .vsubH (hd .X) ⟨3, 1, 2, 0, 0⟩, .vmulH (hd .X) ⟨3, 1, 2, 0, 0⟩, .vfmaH (hd .X) ⟨3, 1, 2, 1, 0⟩,
      .vminH (hd .X) ⟨3, 1, 2, 0, 0⟩, .vmaxH (hd .X) ⟨3, 1, 2, 0, 0⟩].map (fun i => (lanes2 (exec i (onV 0xC0003C00 0x40003800))).map (·.1)) =
    [some 0x00003E00, some 0xC4003800, some 0xC4003800, some 0xC6003E00, some 0xC0003800, some 0x40003C00] ∧
    (lanes2 (exec (.vaddH (hd .X) ⟨3, 1, 2, 0, 0x400⟩) (onV 0xC0003F80 0x40003F00))).map (·.1) = some 0x00003FC0 := by decide +kernel
/-- R124: lane 0 holds 2^31 - 1 and -1 (or 33 for the shifts). -/
theorem test_vector_integer :
    [Instr.vaddI32 (hd .X) ⟨3, 1, 2, 0, 0⟩, .vsubI32 (hd .X) ⟨3, 1, 2, 0, 0⟩, .vmulI32 (hd .X) ⟨3, 1, 2, 0, 0⟩, .vand (hd .X) ⟨3, 1, 2, 0, 0⟩,
      .vor (hd .X) ⟨3, 1, 2, 0, 0⟩, .vxor (hd .X) ⟨3, 1, 2, 0, 0⟩, .vaddss (hd .X) ⟨3, 1, 2, 0, 0⟩, .vsubss (hd .X) ⟨3, 1, 2, 0, 0⟩,
      .vaddus (hd .X) ⟨3, 1, 2, 0, 0⟩, .vsubus (hd .X) ⟨3, 1, 2, 0, 0⟩, .vminI32 (hd .X) ⟨3, 1, 2, 0, 0⟩, .vmaxI32 (hd .X) ⟨3, 1, 2, 0, 0⟩].map
      (fun i => (lanes2 (exec i (onV 0x7FFFFFFF 0xFFFFFFFF))).map fun x => (x.1, x.2.2)) =
    [some (0x7FFFFFFE, 0), some (0x80000000, 0), some (0x80000001, 0), some (0x7FFFFFFF, 0), some (0xFFFFFFFF, 0), some (0x80000000, 0),
      some (0x7FFFFFFE, 0), some (0x7FFFFFFF, 2), some (0xFFFFFFFF, 2), some (0, 2), some (0xFFFFFFFF, 0), some (0x7FFFFFFF, 0)] ∧
    [Instr.vshl (hd .X) ⟨3, 1, 2, 0, 0⟩, .vshr (hd .X) ⟨3, 1, 2, 0, 0⟩, .vsra (hd .X) ⟨3, 1, 2, 0, 0⟩].map
      (fun i => (lanes2 (exec i (onV 0x80000001 33))).map (·.1)) = [some 2, some 0x40000000, some 0xC0000000] := by decide +kernel
/-- The low two bits of the newest mask result. -/
def mask2 (o : Out) : Option Nat := match fly o with
  | some (.mask _ m _) => some (m.toNat % 4)
  | _ => none
/-- R125: lanes 0 and 1 hold 1 against 2 and -1 against 0; FP32 compares with a NaN hold only for "not equal". -/
theorem test_vector_compares :
    [0, 0x400, 0x800, 0xC00, 0x1000, 0x1400].map (fun f => mask2 (exec (.vcmpI32 (hd .X) ⟨77, 1, 2, 0, f⟩) (onV 0xFFFFFFFF00000001 2))) =
      [some 0, some 3, some 3, some 3, some 0, some 0] ∧
    mask2 (exec (.vcmpuI32 (hd .X) ⟨77, 1, 2, 0, 0x800⟩) (onV 0xFFFFFFFF00000001 2)) = some 1 ∧
    [0, 0x400, 0x800].map (fun f => mask2 (exec (.vcmpF32 (hd .X) ⟨77, 1, 2, 0, f⟩) (onV 0x7FC000003F800000 0x3F80000040000000))) =
      [some 0, some 3, some 1] := by decide +kernel
/-- R126, on `m1` = 1 and the other masks all ones. -/
theorem test_mask_words :
    [Instr.mand (hd .X) ⟨78, 77, 77, 0, 0⟩, .mor (hd .X) ⟨78, 77, 79, 0, 0⟩, .mxor (hd .X) ⟨78, 77, 77, 0, 0⟩, .mnot (hd .X) ⟨78, 77, 0, 0, 0⟩,
      .mandn (hd .X) ⟨78, 77, 79, 0, 0⟩].map (fun i => mask2 (exec i onF)) = [some 1, some 3, some 0, some 2, some 0] ∧
    fly (exec (.mpop (hd .X) ⟨117, 77, 0, 0, 0⟩) onF) = some (.scalar 117 1) ∧ fly (exec (.mmov (hd .X) ⟨85, 77, 0, 0, 0⟩) onF) = some (.scalar 85 1) ∧
    fly (exec (.mmov (hd .X) ⟨78, 84, 0, 0, 0⟩) onF) = some (.mask 78 0 (BitVec.allOnes 64)) := by decide +kernel
/-- `conversion_results`: entry 0 without a record, with no write of it in flight; a record for 16-bit codes would be `some`. -/
theorem witness_conversion :
    Issues onF (hd .X) 4 (vports ⟨3, 1, 0, 0, 0⟩) (ev kS .X (hd .X)) ∧ onF.fmtPending (ev kS .X (hd .X)).popped 0 = false ∧
    cvtRecord (ev kS .X (hd .X)).popped ⟨3, 1, 0, 0, 0⟩ = none :=
  ⟨issues_of (by decide +kernel), by decide +kernel⟩
/-- R127, R128: 1.5 and -1.0 to integers and back, to FP16 and from it; Format for an empty entry. -/
theorem test_conversions :
    lanes2 (exec (.vcvtI32F32 (hd .X) ⟨3, 1, 0, 0, 0⟩) onF) = some (2, 0xFFFFFFFF, 0) ∧
    lanes2 (exec (.vcvtF32I32 (hd .X) ⟨3, 1, 0, 0, 0⟩) (onV 0xFFFFFFFF00000003 0)) = some (0x40400000, 0xBF800000, 0) ∧
    (lanes2 (exec (.vcvtHF32 (hd .X) ⟨3, 1, 2, 0, 0⟩) onF)).map (·.1) = some 0x40003E00 ∧
    (lanes2 (exec (.vcvtF32H (hd .X) ⟨3, 1, 0, 0, 1⟩) (onV 0xC0003C00 0))).map (·.1) = some 0xC0000000 ∧
    trapped (exec (.vcvtNf (hd .X) ⟨3, 1, 0, 0, 0⟩) onF) = some 0x000A ∧ trapped (exec (.vcvtFn (hd .X) ⟨3, 1, 0, 0, 0⟩) onF) = some 0x000A := by
  decide +kernel
/-- R129: lane 0 takes lane 1 by index 1, lane 1 takes lane 9, and both rotate by 1; broadcast of lane 1; selection by `m1`; lane 1 read and written. -/
theorem test_lane_moves :
    [Instr.vperm (hd .X) ⟨3, 1, 2, 0, 0⟩, .vpermRot (hd .X) ⟨3, 1, 0, 0, 0x201⟩, .vbcast (hd .X) ⟨3, 1, 0, 0, 1⟩,
      .vsel (hd .X) ⟨3, 1, 2, 0, 0x24000⟩].map (fun i => (lanes2 (exec i (onV 0x0000000700000005 0x0000000900000001))).map fun x => (x.1, x.2.1)) =
    [some (7, 0), some (7, 0), some (7, 7), some (5, 9)] ∧
    fly (exec (.vext (hd .X) ⟨85, 1, 0, 0, 1⟩) (onV 0x0000000700000005 0)) = some (.scalar 85 7) ∧
    (lanes2 (exec (.vins (hd .X) ⟨3, 84, 0, 0, 1⟩) onF)).map (·.2.1) = some 0 := by decide +kernel
/-- R130: the sum, least and greatest of 1.5, -1.0 and 62 zeros; of 5 and -1 as integers in the lanes that `m1` selects. -/
theorem test_reductions :
    [Instr.vredAdd (hd .X) ⟨85, 1, 0, 0, 0⟩, .vredMin (hd .X) ⟨85, 1, 0, 0, 0⟩, .vredMax (hd .X) ⟨85, 1, 0, 0, 0⟩].map (fun i => fly (exec i onF)) =
      [some (.scalar 85 0x3F000000), some (.scalar 85 0xBF800000), some (.scalar 85 0x3FC00000)] ∧
    [Instr.vredAdd (hd .X) ⟨85, 1, 0, 0, 0x400⟩, .vredMin (hd .X) ⟨85, 1, 0, 0, 0x24400⟩, .vredMax (hd .X) ⟨85, 1, 0, 0, 0x24400⟩].map
      (fun i => fly (exec i (onV 0xFFFFFFFF00000005 0))) = [some (.scalar 85 4), some (.scalar 85 5), some (.scalar 85 5)] := by decide +kernel
/-! ## Vector memory -/

/-- A place was found. -/
def okAddr : Addr → Bool
  | .ok _ => true
  | _ => false
/-- A place was found, and the pieces are as `f` asks. -/
def okWith (a : Addr) (f : List Piece → Bool) : Bool := match a with
  | .ok ps => f ps
  | _ => false
/-- A task whose strands hold 256 in `a1`, 2 in `a2`, the last table address in `a3`, 4 in `a4`. -/
def kM : Task :=
  let r : SMap Word := [(1, 256), (2, 2), (3, BitVec.ofNat 64 (Config.scratchBytes - 256)), (4, 4), (5, 0x8000000000000100), (6, 0x10000)]
  tk r r r r
/-- `kM` active, with bytes 1, 2, 3, 4 at scratch address 256 and 5, 6 at DRAM address 256. -/
def onM (t : Strand) : State :=
  { on kM t with cores := [(0, { active := some 0, slots := [(0, kM)], scratch := [(256, 1), (257, 2), (258, 3), (259, 0x84)] })]
                 dram := [(256, 5), (257, 6)] }
/-- Unit-stride lanes from address `a`. -/
def unit (a : Nat) : List LaneAddr := (List.range 64).map fun i => ⟨a + 4 * i, 4, 4 * i⟩
/-- `vector_loads_issue`: near lanes (latency 6), lanes in the cluster window (latency 15), a leased global access, and the last table. -/
theorem witness_vector_loads :
    Issues (onM .L) (hd .L) 6 {} (ev kM .L (hd .L)) ∧ Issues (onM .L) (hd .L) 15 {} (ev kM .L (hd .L)) ∧
    okAddr ((onM .L).scratchLanes (ev kM .L (hd .L)).popped 256 (unit 256)) = true ∧ vectorLat (unit 256) = 6 ∧
    okAddr ((onM .L).scratchLanes (ev kM .L (hd .L)).popped 0x10000100 (unit 0x10000100)) = true ∧ vectorLat (unit 0x10000100) ≠ 6 ∧
    okAddr (globalLanes (ev kM .L (hd .L)).popped 256 (unit 256) false) = true ∧ (onM .L).mustWait (ev kM .L (hd .L)).popped 0 [] = false ∧
    (onM .L).firstPoison [] = none ∧ ((ev kM .L (hd .L)).popped.src (87 : BitVec 7)).toNat % 4 = 0 ∧
    ((ev kM .L (hd .L)).popped.src (87 : BitVec 7)).toNat + 256 = Config.scratchBytes :=
  ⟨issues_of (by decide +kernel), issues_of (by decide +kernel), by decide +kernel⟩
/-- R131, R132: the first lane of each local load of the bytes 01 02 03 84, at the unit, stride, broadcast and index address. -/
theorem test_vector_loads :
    [Instr.vld (hd .L) ⟨3, 85, 0, 0, 0, 0⟩, .vldb (hd .L) ⟨3, 85, 0, 0, 0, 0⟩, .vlds (hd .L) ⟨3, 85, 0, 0, 0, 88, 0⟩, .vldg (hd .L) ⟨3, 85, 0, 0, 0, 87, 0⟩].map
      (fun i => (lanes2 (exec i (onM .L))).map fun x => (x.1, x.2.1)) =
    [some (0x84030201, 0), some (0x84030201, 0x84030201), some (0x84030201, 0), some (0x84030201, 0x84030201)] ∧
    fly (exec (.mld (hd .L) ⟨77, 85, 0, 0, 0, 0⟩) (onM .L)) = some (.mask 77 0x84030201 (BitVec.allOnes 64)) ∧
    [Instr.vgld (hd .L) ⟨3, 85, 0, 0, 0, 0⟩, .vglds (hd .L) ⟨3, 85, 0, 0, 0, 88, 0⟩, .vgldg (hd .L) ⟨3, 85, 0, 0, 0, 87, 0⟩].map
      (fun i => match fly (exec i (onM .L)) with
        | some (.load d ps n _) => some (d, ps.head?.map (·.loc), ps.getLast?.map (·.loc), n)
        | _ => none) =
    [some (3, some ⟨none, 256⟩, some ⟨none, 508⟩, 8), some (3, some ⟨none, 256⟩, some ⟨none, 508⟩, 8),
      some (3, some ⟨none, 256⟩, some ⟨none, 256⟩, 8)] := by decide +kernel
/-- R296: lanes 256 apart need 32 words of each of two sub-arrays, so that `S` holds its paths for 32 cycles; in the last of them its next
scratch access waits, in the one after it goes. -/
theorem test_store_paths :
    ((tsk (exec (.vsts (hd .S) ⟨3, 85, 0, 0, 0, 85, 0⟩) (onM .S))).sS.paths, (onM .S).cyc) = ((onM .S).cyc + 32, (onM .S).cyc) ∧
    [((onM .S).cyc + 1, false), ((onM .S).cyc, true)].map (fun x =>
      let k := { kM with sS := { kM.sS with paths := x.1 } }
      (fly (exec (.mst (hd .S) ⟨77, 85, 0, 0, 0, 0⟩) ((onM .S).setTask 0 0 k))).isSome == x.2) = [true, true] := by decide +kernel
/-- A window open on core 0 over scratch bytes 0 to 511. -/
def onW (t : Strand) : State :=
  { onM t with cores := [(0, { active := some 0, slots := [(0, kM)], msk := { m := [(1, 1)] },
                               windows := [(2, ⟨BitVec.ofNat 256 (512 * 2 ^ 32 + 512 * 2 ^ 64), false, 0, 0⟩)] })] }
/-- `vector_stores_issue`: stores into scratch and global space that touch no barrier word, and one into an open window. -/
theorem witness_vector_stores :
    Issues (onW .S) (hd .S) 2 {} (ev kM .S (hd .S)) ∧ okAddr ((onW .S).scratchLanes (ev kM .S (hd .S)).popped 256 (unit 256)) = true ∧
    okAddr (globalLanes (ev kM .S (hd .S)).popped 256 (unit 256) true) = true ∧
    okWith ((onW .S).scratchLanes (ev kM .S (hd .S)).popped 256 (unit 256)) (fun ps => (onW .S).hitsBarrier ps == none && !(onW .S).pathsBusy (ev kM .S (hd .S)).popped ps) = true ∧
    scratchMap 0 ((ev kM .S (hd .S)).popped.baseMem ⟨1, 85, 0, 0, 0, 0⟩).toNat = some (0, 256) ∧
    (∃ w ∈ ((onW .S).core 0).windows, w.2.base ≤ 256 ∧ 256 + 256 ≤ w.2.base + w.2.len) :=
  ⟨issues_of (by decide +kernel), by decide +kernel⟩
/-- What a store in flight will write from: its register, and how many pieces from where. -/
def storeOf (o : Out) : Option (Nat × Nat × Option Loc) := match fly o with
  | some (.storeSrc d ps) => some (d, ps.length, ps.head?.map (·.loc))
  | some (.cntSrc d c off) => some (d, 256, some ⟨some c, off⟩)
  | _ => none
/-- R133, R134: 64 lanes at 256, the stride 4, the indices of `v0`, a mask of lane 0, and the counted store into the window. -/
theorem test_vector_stores :
    [Instr.vst (hd .S) ⟨3, 85, 0, 0, 0, 0⟩, .vsts (hd .S) ⟨3, 85, 0, 0, 0, 88, 0⟩, .vsct (hd .S) ⟨3, 85, 0, 0, 0, 0, 0⟩,
      .vstm (hd .S) ⟨3, 85, 0, 0, 0, 77, 0⟩, .vgst (hd .S) ⟨3, 85, 0, 0, 0, 0⟩, .vgsts (hd .S) ⟨3, 85, 0, 0, 0, 88, 0⟩,
      .vgsct (hd .S) ⟨3, 85, 0, 0, 0, 0, 0⟩, .mst (hd .S) ⟨77, 85, 0, 0, 0, 0⟩, .vstCnt (hd .S) ⟨3, 85, 0, 0, 0, 0⟩].map
      (fun i => storeOf (exec i (onW .S))) =
    [some (3, 64, some ⟨some 0, 256⟩), some (3, 64, some ⟨some 0, 256⟩), some (3, 64, some ⟨some 0, 256⟩), some (3, 1, some ⟨some 0, 256⟩),
      some (3, 64, some ⟨none, 256⟩), some (3, 64, some ⟨none, 256⟩), some (3, 64, some ⟨none, 256⟩), some (77, 1, some ⟨some 0, 256⟩),
      some (3, 256, some ⟨some 0, 256⟩)] := by decide +kernel
/-- `kM` with a registered barrier word at scratch address 256 of core 0. -/
def onB (t : Strand) : State :=
  { onM t with cores := [(0, { active := some 0, slots := [(0, kM)], bars := [256], scratch := [(267, 4), (271, 128)] })] }
/-- `vector_access_checks`: each clause's lane, at the first address that fails: misaligned, past the own scratchpad, past 2^48 - 2^16,
past the lease, over a barrier word. -/
theorem witness_vector_checks :
    Issues (onB .L) (hd .L) 15 {} (ev kM .L (hd .L)) ∧ Issues (onB .S) (hd .S) 2 {} (ev kM .S (hd .S)) ∧
    (unit 2).find? (fun l => decide (l.a % 4 ≠ 0)) = some ⟨2, 4, 0⟩ ∧
    (unit (Config.scratchBytes - 252)).find? (fun l => ((onB .L).scratchAt 0 0 l.a 4).isNone) = some ⟨Config.scratchBytes, 4, 252⟩ ∧
    (unit (2 ^ 48 - 2 ^ 16 - 4)).find? (fun l => decide (2 ^ 48 < l.a + 4) || decide (2 ^ 48 - 2 ^ 16 ≤ l.a)) = some ⟨2 ^ 48 - 2 ^ 16, 4, 4⟩ ∧
    (unit 0xFFFC).find? (fun l => (kM.leased l.a 4 false).isNone) = some ⟨0x10000, 4, 4⟩ ∧
    okWith ((onB .S).scratchLanes (ev kM .S (hd .S)).popped 256 (unit 256)) (fun ps => (onB .S).hitsBarrier ps == some ⟨⟨some 0, 256⟩, 4, 0, 256⟩) = true :=
  ⟨issues_of (by decide +kernel), issues_of (by decide +kernel), by decide +kernel⟩
/-- The address in the trap record (R386). -/
def faddr (o : Out) : Nat := Mem.read (tsk o).sC.spill 4080 8
/-- R135, R210, R385: the cause and address of each check, and the end of the task for an unleased lane. -/
theorem test_vector_checks :
    [(exec (.vld (hd .L) ⟨3, 84, 0, 0, 0, 2⟩) (onB .L)), exec (.vld (hd .L) ⟨3, 87, 0, 0, 0, 4⟩) (onB .L), exec (.vst (hd .S) ⟨3, 85, 0, 0, 0, 0⟩) (onB .S)].map
      (fun o => (trapped o, faddr o)) = [(some 3, 2), (some 5, Config.scratchBytes), (some 7, 256)] ∧
    (tsk (exec (.vgld (hd .L) ⟨3, 90, 0, 0, 0, 0⟩) (onB .L))).ending = some { cause := 0x0030, faddr := 0x10000, ip := 3 } := by decide +kernel
/-! ## Scalar memory and atomics -/

/-- `hd` with distance `n`. -/
def hdD (t : Strand) (n : BitVec 4) : Hdr := { hd t with dst := n }
/-- `kM` with 7 in the input queue of every strand. -/
def kQ : Task := { kM with sq := [(0, [7]), (1, [7]), (2, [7]), (3, [7])] }
/-- `onM` with that task; poisoned DRAM line 4 when `po`. -/
def onQ (t : Strand) : State :=
  { onM t with cores := [(0, { active := some 0, slots := [(0, kQ)], scratch := [(256, 1), (257, 2), (258, 3), (259, 0x84)] })] }
/-- `scalar_loads_issue`: a near address at the least distance 6, and a far one at 14 and 15. -/
theorem witness_scalar_loads :
    Issues (onQ .L) (hdD .L 6) 6 { push := pushTarget 118 } (ev kQ .L (hdD .L 6)) ∧ Issues (onQ .L) (hdD .L 14) 6 {} (ev kQ .L (hdD .L 14)) ∧
    Issues (onQ .L) (hd .L) 6 {} (ev kQ .L (hd .L)) ∧
    (0x8000000000000100 / 2 ^ 63 = 1 ∧ 0x8000000000000100 % 2 ^ 63 + 8 ≤ Config.scratchBytes) ∧ ¬ (256 / 2 ^ 63 = 1) ∧
    okWith ((onQ .L).scalarAddr (ev kQ .L (hdD .L 6)).popped 0x8000000000000100 4 false)
      (fun ps => (onQ .L).firstPoison ps == none && !(onQ .L).mustWait (ev kQ .L (hdD .L 6)).popped 0 ps &&
        !(onQ .L).pathsBusy (ev kQ .L (hdD .L 6)).popped ps) = true ∧
    okAddr ((onQ .L).scalarAddr (ev kQ .L (hd .L)).popped 256 8 false) = true :=
  ⟨issues_of (by decide +kernel), issues_of (by decide +kernel), issues_of (by decide +kernel), by decide +kernel⟩
/-- R170: the four bytes 01 02 03 84 zero- and sign-extended; a global load in flight; Illegal Distance at 14. -/
theorem test_scalar_loads :
    [Instr.ld (hd .L) ⟨86, 89, 0, 0, 2, 0⟩, .lds (hd .L) ⟨86, 89, 0, 0, 2, 0⟩, .ldAcq (hd .L) ⟨118, 89, 0, 0, 0, 3⟩, .ldsAcq (hd .L) ⟨86, 89, 0, 0, 0, 3⟩,
      .ld (hd .L) ⟨86, 85, 0, 0, 3, 8⟩].map (fun i => fly (exec i (onQ .L))) =
    [some (.scalar 86 0x84030201), some (.scalar 86 0xFFFFFFFF84030201), some (.scalar 118 0x84), some (.scalar 86 0xFFFFFFFFFFFFFF84),
      some (.load 86 [⟨⟨none, 264⟩, 8, 0, 264⟩] 8 false)] ∧
    trapped (exec (.ld (hdD .L 14) ⟨86, 85, 0, 0, 3, 8⟩) (onQ .L)) = some 0x0002 := by decide +kernel
/-- `scalar_stores_issue`: a register and the popped value as source. -/
theorem witness_scalar_stores :
    Issues (onQ .S) (hd .S) 2 { pop := isPop (86 : BitVec 7) } (ev kQ .S (hd .S)) ∧ Issues (onQ .S) (hd .S) 2 { pop := isPop (116 : BitVec 7) } (ev kQ .S (hd .S)) ∧
    okWith ((onQ .S).scalarAddr (ev kQ .S (hd .S)).popped 256 8 true) (fun ps => (onQ .S).hitsBarrier ps == none && !(onQ .S).pathsBusy (ev kQ .S (hd .S)).popped ps) = true :=
  ⟨issues_of (by decide +kernel), issues_of (by decide +kernel), by decide +kernel⟩
/-- R170, R171: what is in flight. -/
theorem test_scalar_stores :
    [Instr.st (hd .S) ⟨86, 85, 0, 0, 3, 0⟩, .stRel (hd .S) ⟨86, 85, 0, 4, 3, 0⟩, .st (hd .S) ⟨116, 85, 0, 0, 0, 1⟩].map (fun i => fly (exec i (onQ .S))) =
    [some (.storeSrc 86 [⟨⟨none, 256⟩, 8, 0, 256⟩]), some (.storeSrc 86 [⟨⟨none, 256⟩, 8, 0, 256⟩]), some (.storeVal [(⟨none, 257⟩, 1, 7)])] := by
  decide +kernel
/-- `scalar_access_checks`: a misaligned address, an unmapped scratch address, the first address outside the global space, the first of the
control page for a store, the first outside the lease, and a barrier word. -/
theorem witness_scalar_checks :
    Issues (onQ .L) (hd .L) 15 { push := pushTarget 86 } (ev kQ .L (hd .L)) ∧ Issues (onQ .S) (hd .S) 15 { pop := isPop (86 : BitVec 7) } (ev kQ .S (hd .S)) ∧
    257 % 8 ≠ 0 ∧ (onQ .L).scratchAt 0 0 Config.scratchBytes 8 = none ∧ ¬ (2 ^ 48 - 7 + 8 ≤ 2 ^ 48) ∧ 2 ^ 48 - 2 ^ 16 + 8 ≤ 2 ^ 48 ∧
    0x10000 + 8 ≤ 2 ^ 48 - 2 ^ 16 ∧ kQ.leased 0x10000 8 false = none ∧ kQ.leased 0x10000 8 true = none ∧
    okWith ((onB .S).scalarAddr (ev kM .S (hd .S)).popped 0x8000000000000108 8 true) (fun ps => ((onB .S).hitsBarrier ps).isSome) = true :=
  ⟨issues_of (by decide +kernel), issues_of (by decide +kernel), by decide +kernel⟩
/-- R169, R170, R180, R210: cause and address; the task that leaves its lease ends. -/
theorem test_scalar_checks :
    [exec (.ld (hd .L) ⟨86, 85, 0, 0, 3, 1⟩) (onQ .L), exec (.lds (hd .L) ⟨86, 85, 0, 0, 2, 1⟩) (onQ .L), exec (.st (hd .S) ⟨86, 85, 0, 0, 3, 1⟩) (onQ .S),
      exec (.ld (hd .L) ⟨86, 84, 0, 0, 3, 0x7FFFF8⟩) (onQ .L), exec (.st (hd .S) ⟨86, 89, 0, 0, 3, 8⟩) (onB .S)].map (fun o => (trapped o, faddr o)) =
    [(some 3, 257), (some 3, 257), (some 3, 257), (some 5, 0xFFFFFFFFFFFFFFF8), (some 7, 0x8000000000000108)] ∧
    [exec (.ld (hd .L) ⟨86, 90, 0, 0, 3, 0⟩) (onQ .L), exec (.st (hd .S) ⟨86, 90, 0, 0, 3, 0⟩) (onQ .S)].map (fun o => (tsk o).ending.map (·.faddr)) =
    [some 0x10000, some 0x10000] := by decide +kernel
/-- `atomics_issue`: an address that may be read and written. -/
theorem witness_atomics :
    Issues (onQ .C) (hd .C) 15 { pop := isPop (116 : BitVec 7) } (ev kQ .C (hd .C)) ∧
    okWith ((onQ .C).scalarAddr (ev kQ .C (hd .C)).popped 256 8 true) (fun ps => (onQ .C).hitsBarrier ps == none && ps.length == 1 && !(onQ .C).pathsBusy (ev kQ .C (hd .C)).popped ps) = true ∧
    okAddr ((onQ .C).scalarAddr (ev kQ .C (hd .C)).popped 256 8 false) = true :=
  ⟨issues_of (by decide +kernel), by decide +kernel⟩
/-- R172: the number, operand and compare value of each atomic on 32 or 64 bits. -/
theorem test_atomics :
    [Instr.aadd (hd .C) ⟨89, 85, 0, 0, 2, 116, 0⟩, .aand (hd .C) ⟨89, 85, 0, 0, 2, 86, 0⟩, .aor (hd .C) ⟨89, 85, 0, 0, 2, 86, 0⟩, .axor (hd .C) ⟨89, 85, 0, 0, 2, 86, 0⟩,
      .amin (hd .C) ⟨89, 85, 0, 0, 2, 86, 0⟩, .amax (hd .C) ⟨89, 85, 0, 0, 2, 86, 0⟩, .aminu (hd .C) ⟨89, 85, 0, 0, 2, 86, 0⟩, .amaxu (hd .C) ⟨89, 85, 0, 0, 2, 86, 0⟩,
      .aswp (hd .C) ⟨89, 85, 0, 0, 2, 86, 0⟩, .acas (hd .C) ⟨89, 85, 0, 0, 3, 86, 0⟩, .aaddF32 (hd .C) ⟨89, 85, 0, 0, 2, 86, 0⟩].map
      (fun i => match fly (exec i (onQ .C)) with
        | some (.atomic n p x c d) => (n, p.loc.off, p.len, x.toNat, c.toNat, d)
        | _ => (99, 0, 0, 0, 0, 0)) =
    [(0, 256, 4, 7, 0x100, 89), (1, 256, 4, 2, 0x100, 89), (2, 256, 4, 2, 0x100, 89), (3, 256, 4, 2, 0x100, 89), (4, 256, 4, 2, 0x100, 89),
      (5, 256, 4, 2, 0x100, 89), (6, 256, 4, 2, 0x100, 89), (7, 256, 4, 2, 0x100, 89), (8, 256, 4, 2, 0x100, 89),
      (9, 256, 8, 2, 0x8000000000000100, 89), (10, 256, 4, 2, 0x100, 89)] := by decide +kernel
/-- R172: 0xFF against 1 on one byte: sum, logic, signed and unsigned order, exchange; a compare that holds and one that fails. -/
theorem test_atomic_values :
    (List.range 9).map (fun n => (atomicNew n 1 0xFF 1 0).1) = [0, 1, 0xFF, 0xFE, 0xFF, 1, 1, 0xFF, 1] ∧
    atomicWrites 9 5 5 = true ∧ (atomicNew 9 8 5 6 5).1 = 6 ∧ atomicWrites 9 5 4 = false := by decide +kernel
/-! ## Matrix words -/

/-- The record of a signed 8-bit integer format (R72, R73). -/
def rI8 : BitVec 128 := 0x08000E10
/-- A task whose strand `X` names tiles: `a1` at 0, `a2` at the start of the second bank group, `a3` a metadata record, `a4` misaligned, `a5` the
last record address, `a6` a stamp; entry 0 of the format table is that format. -/
def kX : Task :=
  { tk [] [] [(1, 0), (2, BitVec.ofNat 64 Config.groupB), (3, 0x1000), (4, 8), (5, BitVec.ofNat 64 (Config.scratchBytes - 48)), (6, 6400)] [] with
    fmt := [(0, ⟨rI8, rI8, rI8⟩)] }
/-- `kX` active, with one command queued per entry of `q`; the metadata record names nibbles at `0x2000` for 32 by 32 (R155). -/
def onX (q : List MxCmd) : State :=
  let md : Mem := [(0x1001, 0x20), (0x1004, 32), (0x1005, 8), (0x1007, 1)]
  { on kX .X with cores := [(0, { active := some 0, slots := [(0, kX)], mxe := { queue := q }, scratch := md })] }
/-- A tile as R143 wants it. -/
def tileOk (a n : Nat) : Bool := a % 64 == 0 && a + n ≤ Config.scratchBytes && (a + n ≤ Config.groupB || Config.groupB ≤ a)
/-- `matrix_commands_enter`: the least shape, tiles up to the end of the first bank group and from the start of the second, a valid record pair
and a valid metadata record. -/
theorem witness_matrix_enter :
    Issues (onX []) (hd .X) 15 {} (ev kX .X (hd .X)) ∧ (((onX []).core 0).mxe.live 100).length < 16 ∧
    tileOk (Config.groupB - 4096) 4096 = true ∧ tileOk Config.groupB 1024 = true ∧ tileOk 0 512 = true ∧ tileOk 0x2000 128 = true ∧
    bankGroup 0 1024 ≠ bankGroup Config.groupB 1024 ∧ bankGroup 0x2000 128 = bankGroup 0 512 ∧
    (onX []).entryPending (ev kX .X (hd .X)) 0 = false ∧ SMap.get kX.fmt ⟨0, 0, 0⟩ 0 ≠ ⟨0, 0, 0⟩ ∧
    recOperand rI8 false = true ∧ recOperand rI8 true = true ∧ recPair rI8 rI8 = true ∧ recValid rI8 = true ∧
    metaValid ((onX []).scratchNat 0 0x1000 16) 32 32 = true ∧ fld ((onX []).scratchNat 0 0x1000 16) 31 0 = 0x2000 ∧
    (onX []).isPoisoned ⟨some 0, 0x1000⟩ 16 = false :=
  ⟨issues_of (by decide +kernel), by decide +kernel⟩
/-- `matrix_commands_enter`, `mfmt` and `mwait`: a record address at the last place, one that is misaligned and one past the end; valid and
invalid records; no command of the task in the queue. -/
theorem witness_matrix_formats :
    (Config.scratchBytes - 48) % 16 = 0 ∧ Config.scratchBytes - 48 + 48 ≤ Config.scratchBytes ∧ 8 % 16 ≠ 0 ∧
    Config.scratchBytes < Config.scratchBytes - 32 + 48 ∧ recValid 0 = false ∧
    (((onX []).core 0).mxe.live 100).countP (fun c => c.slot == 0) ≤ 0 := by decide +kernel
/-- The queue of core 0 after a step: operation, addresses and number of each command. -/
def mxq (o : Out) : List (Nat × Nat × Nat × Nat) := ((after o).core 0).mxe.queue.map fun c => (c.op, c.aa, c.ba, c.idx)
/-- R143 to R156: each word enters with its operation and addresses. -/
theorem test_matrix_words :
    [Instr.mma (hd .X) ⟨0, 85, 86, 84, 0, 0, 0, 0, 0⟩, .mmas (hd .X) ⟨1, 85, 86, 84, 0, 0, 0, 87, 0⟩, .mzero (hd .X) ⟨1, 0, 0, 84, 0, 0, 0, 0, 0⟩,
      .mdrn (hd .X) ⟨0, 85, 0, 84, 0, 0, 0, 0, 0⟩, .mldacc (hd .X) ⟨0, 86, 0, 84, 0, 0, 0, 0, 0⟩, .mscale (hd .X) ⟨0, 85, 0, 84, 2, 0, 0, 0, 0⟩,
      .mxpose (hd .X) ⟨0, 85, 86, 84, 0, 0, 0, 0, 0⟩].map (fun i => mxq (exec i (onX []))) =
    [[(0, 0, Config.groupB, 0)], [(1, 0, Config.groupB, 0)], [(2, 0, 0, 0)], [(3, 0, 0, 0)], [(4, Config.groupB, 0, 0)], [(5, 0, 0, 0)],
      [(6, 0, Config.groupB, 0)]] := by decide +kernel
/-- R143, R156, R157: Alignment for a tile at 8, Format for the zero records at 0, Alignment for their address 8, and `mwait` passing. -/
theorem test_matrix_refusals :
    [Instr.mldacc (hd .X) ⟨0, 88, 0, 84, 0, 0, 0, 0, 0⟩, .mfmt (hd .X) ⟨0, 85, 0, 0, 0, 0, 1, 0, 0⟩, .mfmt (hd .X) ⟨0, 88, 0, 0, 0, 0, 1, 0, 0⟩].map
      (fun i => trapped (exec i (onX []))) = [some 3, some 0x000A, some 3] ∧
    (tsk (exec (.mwait (hd .X) ⟨0, 0, 0, 0, 0, 0, 0, 0, 0⟩) (onX []))).sX.ip = 4 := by decide +kernel
/-- An `mzero` of accumulator `n` entered in cycle `t`, with a stamp. -/
def cz (n t : Nat) (st : Option Nat) (run : Option Nat) : MxCmd :=
  { op := 2, acc := n, aa := 0, ba := 0, stamp := st, shp := 0, fmt := ⟨0, 0, 0⟩, mdrec := 0, idx := 7, entered := t, ip := 3, stage := none,
    slot := 0, running := run }
/-- The same part with the task booked: handle 0x00010001 holds slots 1 and 2 of the engine. -/
def onXb (q : List MxCmd) (cyc : Nat) (h : BitVec 32) : State :=
  { onX q with cyc := cyc, cores := [(0, { active := some 0, slots := [(0, { kX with bhnd := h })], mxe := { queue := q } })]
               bu := { cals := [(0, [{ start := 1, len := 2, cap := 1, handle := 0x00010001, stage := 0 }])] } }
/-- `matrix_commands_run`: without a stamp at the 4th cycle; with one in its cycle inside the booking; too early, late, and outside it; and a
running command at its last cycle. -/
theorem witness_matrix_run :
    ((onX [cz 0 96 none none]).core 0).mxe.queue = [cz 0 96 none none] ∧ (onX [cz 0 96 none none]).task? 0 0 = some kX ∧ kX.ending = none ∧
    (onX [cz 0 96 none none]).bookingAllows 0 kX.bhnd (cz 0 96 none none).span = true ∧
    (onX [cz 0 96 none none]).mxAbsent 0 (cz 0 96 none none) = false ∧ (onX [cz 0 96 none none]).mxPoisoned 0 (cz 0 96 none none) = false ∧
    (96 + 4 ≤ 100) ∧ (∃ i ∈ (onXb [cz 0 60 (some 64) none] 64 0x00010001).cal 0, i.own 0x00010001 = true ∧ i.at? (64 / 64) = true) ∧
    (∃ i ∈ (onXb [] 191 0x00010001).cal 0, i.own 0x00010001 = true ∧ i.at? (191 / 64) = true) ∧
    ¬ (∃ i ∈ (onXb [] 192 0x00010001).cal 0, i.own 0x00010001 = true ∧ i.at? (192 / 64) = true) := by decide +kernel
/-- R160 to R163: the command runs for 4 cycles; a stamp too early (1), outside the booking (3), and in its place; completion. -/
theorem test_matrix_run :
    (((after (exec (.matrixCommandStart 0) (onX [cz 0 96 none none]))).core 0).mxe.queue.map (·.running)) = [some 103] ∧
    (((after (exec (.matrixCommandStart 0) (onXb [cz 0 60 (some 64) none] 64 0x00010001))).core 0).mxe.queue.map (·.running)) = [some 67] ∧
    [onXb [cz 0 61 (some 64) none] 64 0x00010001, onXb [cz 0 60 (some 192) none] 192 0x00010001, onXb [cz 0 60 (some 64) none] 65 0x00010001].map
      (fun s => heldIn (exec (.matrixCommandStart 0) s)) = [[(0x20, 1)], [(0x20, 3)], [(0x20, 1)]] ∧
    (((after (exec (.matrixCommandComplete 0 7) (onX [cz 0 96 none (some 100)]))).core 0).mxe.queue.map (·.done)) = [true] := by decide +kernel
/-- `matrix_element_results`: an integer product of one element by hand, 3 * -2 added to 10, and elements outside the shape. -/
theorem witness_matrix_elements : (cz 1 0 none none).dim ≤ 128 ∧ (cz 1 0 none none).acc ≤ 1 ∧ (cz 0 0 none none).acc ≤ 1 := by decide
/-- R81, R146: A has 3 in row 0 of column 0, B has -2 in row 0 of column 0 (sign and magnitude), the accumulator 10. -/
theorem test_matrix_element :
    (MxCmd.product { cz 0 0 none none with op := 0, fmt := ⟨rI8, rI8, rI8⟩, ba := 4096 } { acc0 := { m := [(0, 10)] } }
      (fun a => if a = 0 then 3 else if a = 4096 then 0x82 else 0) 0 0).1 = 4 := by decide +kernel
/-! ## Fences, barriers, windows and gates -/

/-- The operands of this section in strand `C`: `a1` 256, `a2` 264, `a3` the end of the scratchpad, `a4` the last record address of 512, `a5` 512. -/
def kY : Task := tk [(1, 256), (2, 264), (3, 0x180000), (4, 0x17FE00), (5, 512), (6, 0x8000010000000001), (7, 1), (8, 2)] [] [] []
/-- `kY` active on core 0; `m` its scratchpad and `bars` its registered words. -/
def onY (m : Mem) (bars : NSet) : State :=
  { on kY .C with cores := [(0, { active := some 0, slots := [(0, kY)], scratch := m, bars := bars })] }
/-- A remote store to device 5 that no one has acknowledged since cycle 10. -/
def openStore : FarReq := { tag := 1, dev := 5, cls := 0, route := 0, issued := 10, sent := 10, task := (0, 0, 1), kind := .store false }
/-- The `fence.ack` of all classes issued in cycle 20, in a context with that store, a link timeout of 1 ms and cycle `cyc`. -/
def onAck (cyc : Nat) (ack : Nat) : State :=
  { onY [] [] with
    cyc := cyc
    ctxs := [(0, { phase := .running, job := some ⟨1, 2, 1, 1⟩, far := [openStore] })]
    flights := [{ id := 1, core := 0, slot := 0, strand := .C, ip := 2, issued := 20, due := 35, dst := 15, tagd := true, tal := 0, sig := 0,
                  op := .fence 0xFFFF 0 (some ack) }] }
/-- `fence_words`: `a0`, an address at the last place, a misaligned one and one past the end; a fence whose store is out of time. -/
theorem witness_fences :
    Issues (onY [] []) (hd .C) 15 {} (ev kY .C (hd .C)) ∧ ((86 : BitVec 7).toNat ≠ 84) ∧ 0x17FE00 % 64 = 0 ∧ 0x17FE00 + 512 ≤ Config.scratchBytes ∧
    264 % 64 ≠ 0 ∧ 0x180000 % 64 = 0 ∧ Config.scratchBytes < 0x180000 + 512 ∧
    ((onAck 4000000 0).flight? 1).map (fun f => (onAck 4000000 0).fenceTimedOut f) = some true ∧ (onAck 4000000 0).task? 0 0 = some kY :=
  ⟨issues_of (by decide +kernel), by decide +kernel⟩
/-- R175, R176: `FSTAT` at issue counts one open store on path 0 (status 1); at the timeout status 2 and device 5. -/
theorem test_fences :
    fly (exec (.fence (hd .C) ⟨0, 0, 0, 0x2FFFF⟩) (onY [] [])) = some (.fence 0xFFFF 2 none) ∧
    (tsk (exec (.fenceAck (hd .C) ⟨84, 0, 0, 0xFFFF⟩) { onAck 100 0 with flights := [] })).fstat = 0x1000000000000001 ∧
    (tsk (exec (.fenceAckTimeout 1) (onAck 4000000 0))).fstat = 0x2005000000000001 ∧
    [Instr.fenceAck (hd .C) ⟨86, 0, 0, 1⟩, .fenceAck (hd .C) ⟨87, 0, 0, 1⟩].map (fun i => trapped (exec i (onY [] []))) = [some 3, some 5] := by
  decide +kernel

/-- A barrier word of 2 parties that expects no bytes, at scratch address 256, with `arr` arrivals in phase 65535. -/
def barAt (arr : Nat) : Mem := Mem.write [] 256 16 (2 * 2 ^ 80 + arr * 2 ^ 88 + 65535 * 2 ^ 96 + 2 ^ 127)
/-- `barrier_words`: a registered word, a free word with 1 party, words that are refused, misaligned and unmapped addresses; an arrival that
is not the last and one that is, in the last phase number. -/
theorem witness_barriers :
    Issues (onY (barAt 0) [256]) (hd .C) 15 {} (ev kY .C (hd .C)) ∧ 264 % 16 ≠ 0 ∧ (onY [] []).scratchAt 0 0 0x180000 16 = none ∧
    (onY [] []).scratchAt 0 0 256 16 = some ⟨some 0, 256⟩ ∧ (onY (barAt 0) [256]).barReg ⟨some 0, 256⟩ = true ∧ (onY [] []).barReg ⟨some 0, 256⟩ = false ∧
    (onY [] []).mustWait (ev kY .C (hd .C)).popped 16 [⟨⟨some 0, 256⟩, 16, 0, 256⟩] = false ∧ (onY [] []).isPoisoned ⟨some 0, 256⟩ 16 = false ∧
    (onY (barAt 0) [256]).flights = [] ∧
    (let v := (onY (barAt 0) [256]).readLoc ⟨some 0, 256⟩ 16
     fld v 95 88 + 1 < fld v 87 80 ∧ fld v 59 32 = 0) ∧
    (let v := (onY (barAt 1) [256]).readLoc ⟨some 0, 256⟩ 16
     fld v 95 88 < fld v 87 80 ∧ fld v 95 88 + 1 = fld v 87 80 ∧ fld v 111 96 = 65535) :=
  ⟨issues_of (by decide +kernel), by decide +kernel⟩
/-- R179 to R183: registered 0, already registered 1, invalid 2 (no party and no bytes); the waits; the last arrival ends phase 65535. -/
theorem test_barriers :
    [onY (Mem.write [] 256 16 (2 ^ 80)) [], onY (barAt 0) [256], onY [] []].map (fun s => fly (exec (.barinit (hd .C) ⟨85, 88, 0, 0⟩) s)) =
      [some (.scalar 88 0), some (.scalar 88 1), some (.scalar 88 2)] ∧
    ((after (exec (.barinit (hd .C) ⟨85, 88, 0, 0⟩) (onY (Mem.write [] 256 16 (2 ^ 80)) []))).core 0).bars = [256] ∧
    [Instr.barwait (hd .C) ⟨85, 88, 0, 0⟩, .barwaitNw (hd .C) ⟨85, 88, 0, 1⟩, .barwaitNa (hd .C) ⟨85, 91, 0, 2⟩].map
      (fun i => fly (exec i (onY (barAt 0) [256]))) =
      [some (.barArrive ⟨some 0, 256⟩ false 88), some (.barArrive ⟨some 0, 256⟩ true 88), some (.barWait ⟨some 0, 256⟩ 1 false 91)] ∧
    ((after (exec (.barfree (hd .C) ⟨85, 88, 0, 0⟩) (onY (barAt 0) [256]))).core 0).bars = [] ∧
    trapped (exec (.barinit (hd .C) ⟨86, 88, 0, 0⟩) (onY [] [])) = some 3 ∧ trapped (exec (.barwait (hd .C) ⟨87, 88, 0, 0⟩) (onY [] [])) = some 5 ∧
    fld (((onY (barAt 1) [256]).barArrival ⟨some 0, 256⟩).readLoc ⟨some 0, 256⟩ 16) 111 88 = 0 := by decide +kernel

/-- A window descriptor over bytes 512 to 575 with `n` expected bytes that admits everyone (R184). -/
def wdesc (n : Nat) : BitVec 256 := BitVec.ofNat 256 (512 + 64 * 2 ^ 32 + n * 2 ^ 64 + 2 ^ 112)
/-- `k` active on core 0 of `s` with window 5 open. -/
def onWin (k : Task) (n : Nat) (rdy : Bool) (cnt : Nat) : State :=
  { on k .C with cores := [(0, { active := some 0, slots := [(0, k)], windows := [(5, ⟨wdesc n, rdy, 0, cnt⟩)],
                                 scratch := Mem.write [] 256 32 (wdesc 64).toNat })] }
/-- `window_words`: a descriptor that can be opened and one that overlaps window 5; a ready window, one that is not, and one that is not
open; a wait of 1 unit that is over; counted writes to a window that admits them and past its end. -/
theorem witness_windows :
    Issues (onWin kY 64 true 0) (hd .C) 15 {} (ev kY .C (hd .C)) ∧
    ((onY (Mem.write [] 256 32 (wdesc 64).toNat) []).core 0).windowOk 5 ((onY (Mem.write [] 256 32 (wdesc 64).toNat) []).scratchNat 0 256 32) = true ∧
    ((onWin kY 64 true 0).core 0).windowOk 6 ((onWin kY 64 true 0).scratchNat 0 256 32) = false ∧
    (onWin kY 64 true 0).mustWait (ev kY .C (hd .C)).popped 16 [⟨⟨some 0, 256⟩, 32, 0, 256⟩] = false ∧
    SMap.find? ((onWin kY 64 true 0).core 0).windows 5 = some ⟨wdesc 64, true, 0, 0⟩ ∧ SMap.find? ((onWin kY 64 true 0).core 0).windows 63 = none ∧
    Decides (onWin (met kY) 64 false 0) (hd .C) (ev (met kY) .C (hd .C)) ∧ State.yieldReady (ev (met kY) .C (hd .C)) (onWin (met kY) 64 false 0) = true ∧
    ({ kY with st := .parked (.window 5 (some 100) 3) } : Task).st = .parked (.window 5 (some 100) 3) ∧
    (onWin kY 64 false 0).partOf 0 = some 0 ∧ (⟨wdesc 64, false, 0, 0⟩ : Window).admits 4095 0 = true ∧ 0 + 64 ≤ (⟨wdesc 64, false, 0, 0⟩ : Window).len ∧
    (⟨wdesc 64, false, 0, 0⟩ : Window).len < 1 + 64 ∧ (⟨(wdesc 64) &&& (2 ^ 112 - 1), false, 0, 0⟩ : Window).admits 4095 0 = false :=
  ⟨issues_of (by decide +kernel), by decide +kernel, by decide +kernel, by decide +kernel, by decide +kernel, by decide +kernel, decides_of (by decide +kernel),
    by decide +kernel, rfl, by decide +kernel⟩
/-- R185 to R189: opening, closing, status words, parking, the timeout's status, and 60 bytes counted to the ready mark. -/
theorem test_windows :
    SMap.find? ((after (exec (.lwin (hd .C) ⟨85, 0, 0, 5⟩) (onY (Mem.write [] 256 32 (wdesc 0).toNat) []))).core 0).windows 5 = some ⟨wdesc 0, true, 0, 0⟩ ∧
    trapped (exec (.lwin (hd .C) ⟨85, 0, 0, 6⟩) (onWin kY 64 true 0)) = some 9 ∧
    ((after (exec (.lwclose (hd .C) ⟨0, 0, 0, 5⟩) (onWin kY 64 true 0))).core 0).windows = [] ∧
    fly (exec (.lwpoll (hd .C) ⟨0, 88, 0, 5⟩) (onWin kY 64 true 9)) = some (.scalar 88 0x8400000000000009) ∧
    fly (exec (.lwpoll (hd .C) ⟨0, 88, 0, 4⟩) (onWin kY 64 true 9)) = some (.scalar 88 0x3800000000000000) ∧
    fly (exec (.lwwait (hd .C) ⟨0, 88, 0, 5⟩) (onWin (met kY) 64 true 9)) = some (.scalar 88 0x8400000000000009) ∧
    (tsk (exec (.lwwait (hd .C) ⟨0, 88, 0, 0x105⟩) (onWin (met kY) 64 false 9))).st = .parked (.window 5 (some 4197) 4) ∧
    (tsk (exec (.lwwaitTimeout 0 0) (onWin { kY with st := .parked (.window 5 (some 100) 3) } 64 false 9))).st =
      .parked (.windowDone 5 0x3400000000000009 3) ∧
    (let t := after (exec (.countedWriteArrival ⟨0, 4, List.replicate 60 7, 0, true, 5, 1, 2, 0⟩) (onWin kY 64 false 4))
     SMap.find? (t.core 0).windows 5 = some ⟨wdesc 64, true, 0, 64⟩ ∧ Mem.get (t.core 0).scratch 516 = 7 ∧ Mem.get (t.core 0).scratch 575 = 7 ∧
       Mem.get (t.core 0).scratch 515 = 0) := by decide +kernel
/-- A flight of strand `C` in cycle 90, alone in the state `s`. -/
def alone (s : State) (op : FOp) : State :=
  { s with flights := [{ id := 1, core := 0, slot := 0, strand := .C, ip := 2, issued := 20, due := 90, dst := 15, tagd := true, tal := 0, sig := 0, op := op }] }
/-- The flight of `alone` has come. -/
def hasCome (s : State) (op : FOp) : Bool := ((alone s op).flight? 1).any fun f => f.op == op && (alone s op).flightDue f
/-- The rest of `fence_words`, `barrier_words` and `window_words`: fences, arrivals and waits whose moment has come, at words registered and not;
fields that `barinit` refuses; a poisoned barrier word and descriptor; a wait at the word. -/
theorem witness_sync_moments :
    [hasCome (onY [] []) (.fence 0xFFFF 0 none), hasCome (onY [] []) (.fence 0xFFFF 0 (some 0)), hasCome (onY (barAt 0) [256]) (.barArrive ⟨some 0, 256⟩ true 88),
      hasCome (onY [] []) (.barArrive ⟨some 0, 256⟩ false 88), hasCome (onY [] []) (.barWait ⟨some 0, 256⟩ 0 false 88),
      hasCome (onY (barAt 0) [256]) (.barWait ⟨some 0, 256⟩ 1 false 88)].all id = true ∧
    fld (2 ^ 120 + 2 ^ 80) 126 120 ≠ 0 ∧ fld (2 ^ 60 + 2 ^ 80) 79 60 ≠ 0 ∧ fld (2 ^ 31 + 2 ^ 80) 31 28 ≠ 0 ∧ (fld 0 87 80 = 0 ∧ fld 0 27 0 = 0) ∧
    ((onY [] []).updCore 0 fun c => { c with poison := [33] }).isPoisoned ⟨some 0, 256⟩ 16 = true ∧
    ((onY [] []).updCore 0 fun c => { c with poison := [33] }).isPoisoned ⟨some 0, 256⟩ 8 = false ∧
    ((onY [] []).updCore 0 fun c => { c with poison := [33] }).isPoisoned ⟨some 0, 264⟩ 8 = true := by decide +kernel
/-- A gate that partition 0's function 0 may use in every way, with `level` tokens, in `state`, with `q` signals queued (R375). -/
def gate1 (level state : Nat) (q : List QSignal) : Gate :=
  { acl := [0xF8000000], cap := 8, refill := 3, level := level, state := state, queue := q, seq := 4, payload := 0x55 }
/-- The task `k` active, with gate 1. -/
def onG (k : Task) (g : Gate) : State := { on k .C with gates := [(1, g)] }
/-- A `gsig` at its update point, with the payload address `p`. -/
def sigFlight (p : Option Nat) : Flight :=
  { id := 1, core := 0, slot := 0, strand := .C, ip := 2, issued := 20, due := 90, dst := 15, tagd := true, tal := 0, sig := 0, op := .gsig 1 p 88 }
/-- The gate with 16 queued signals, and with 15. -/
def sigs (n : Nat) : List QSignal := List.replicate n ⟨0, 0, none⟩
/-- `gate_words`: a gate that may be used with and without a payload and one that may not; reached, not reached and closed waits; a refill
slot; an update with and without tokens, closed, and queued at 15 and at 16. -/
theorem witness_gates :
    Issues (onG kY (gate1 1 0 [])) (hd .C) 15 {} (ev kY .C (hd .C)) ∧ (onG kY (gate1 1 0 [])).gateOk kY 0x8000010000000001 [27] [30] = some (gate1 1 0 []) ∧
    (onG kY (gate1 1 0 [])).gateOk kY 1 [28, 29] [] = some (gate1 1 0 []) ∧ (onG kY (gate1 1 0 [])).gateOk kY 2 [27] [] = none ∧
    Decides (onG (met kY) (gate1 1 0 [])) (hd .C) (ev (met kY) .C (hd .C)) ∧ State.yieldReady (ev (met kY) .C (hd .C)) (onG (met kY) (gate1 1 0 [])) = true ∧
    (1 ≤ (gate1 1 0 []).seq ∧ (gate1 1 0 []).seq < 256) ∧
    (let s : State := { onG kY (gate1 1 0 []) with cyc := 4096 }
     s.slot % 64 = 0 ∧ s.cyc % 64 = 0 ∧ (gate1 1 0 []).refilled ≠ s.slot + 1) ∧
    ({ onG kY (gate1 1 0 []) with flights := [sigFlight none] } : State).flight? 1 = some (sigFlight none) ∧
    ({ onG kY (gate1 1 0 []) with flights := [sigFlight none] } : State).flightDue (sigFlight none) = true ∧
    (gate1 0 1 (sigs 15)).queue.length < 16 ∧ 16 ≤ (gate1 0 1 (sigs 16)).queue.length :=
  ⟨issues_of (by decide +kernel), by decide +kernel, by decide +kernel, by decide +kernel, decides_of (by decide +kernel), by decide +kernel⟩
/-- R199 to R203: the signal in flight, Gate Access, the state answered, the wait reached and parked, closed, the refill, and each update. -/
theorem test_gates :
    fly (exec (.gsig (hd .C) ⟨90, 88, 0, 0⟩) (onG kY (gate1 1 0 []))) = some (.gsig 1 (some 256) 88) ∧
    trapped (exec (.gsig (hd .C) ⟨92, 88, 0, 0⟩) (onG kY (gate1 1 0 []))) = some 8 ∧
    fly (exec (.gpoll (hd .C) ⟨91, 88, 0, 0⟩) (onG kY (gate1 1 0 []))) = some (.scalar 88 0x0004000000000004) ∧
    fly (exec (.gwait (hd .C) ⟨91, 91, 0, 0⟩) (onG (met kY) (gate1 1 0 []))) = some (.scalar 91 0x0004000000000004) ∧
    fly (exec (.gwait (hd .C) ⟨91, 91, 0, 0⟩) (onG (met kY) (gate1 1 2 []))) = some (.scalar 91 0x4804000000000004) ∧
    (tsk (exec (.gwait (hd .C) ⟨91, 85, 0, 0⟩) (onG (met kY) (gate1 1 0 [])))).st = .parked (.gate 1 256 1 none) ∧
    fly (exec (.gwait (hd .C) ⟨91, 91, 0, 0⟩) (onG (met kY) (gate1 1 1 (sigs 1)))) = some (.scalar 91 0x0404000000000004) ∧
    (tsk (exec (.gwait (hd .C) ⟨91, 91, 0, 0⟩) (onG (met kY) (gate1 1 0 (sigs 1))))).st = .parked (.gate 1 1 7 none) ∧
    ((after (exec (.gateRefill 1) { onG kY (gate1 6 0 []) with cyc := 4096 })).gates.map (·.2.level)) = [8] ∧
    [gate1 1 0 [], gate1 0 0 [], gate1 1 2 [], gate1 1 1 (sigs 15), gate1 1 1 (sigs 16)].map (fun g =>
      let t := exec (.resultLanding 1) { onG kY g with flights := [sigFlight none] }
      ((after t).gates.map fun p => (p.2.seq, p.2.level, p.2.queue.length), (tsk t).sC.reg 4)) =
      [([(5, 0, 0)], 0x0000000000000005), ([(4, 0, 0)], 0x1000000000000004), ([(4, 1, 0)], 0x4804000000000004), ([(4, 1, 16)], 0x2404000000000014),
        ([(4, 1, 16)], 0x3404000000000004)] := by decide +kernel

/-! ## Translation control and far accesses -/

/-- A flight of strand `C` whose moment has come. -/
def due1 (op : FOp) : Flight :=
  { id := 1, core := 0, slot := 0, strand := .C, ip := 2, issued := 20, due := 90, dst := 15, tagd := true, tal := 0, sig := 0, op := op }
/-- `kY` active with that flight, its context holding ticket 7. -/
def onF1 (op : FOp) : State := { on kY .C with ctxs := [(0, { phase := .running, sdNext := 7, image := some ⟨0, 0, 0, 0, 0, 0, 0, 0⟩ })], flights := [due1 op] }
/-- `translation_control`: valid and invalid requests and roots, and a shoot-down whose time has come. -/
theorem witness_translation :
    (onF1 (.sdreq 0x10000 88)).flight? 1 = some (due1 (.sdreq 0x10000 88)) ∧ (onF1 (.sdreq 0x10000 88)).flightDue (due1 (.sdreq 0x10000 88)) = true ∧
    (SMap.find? (onF1 (.sdreq 0x10000 88)).ctxs ((onF1 (.sdreq 0x10000 88)).flightKey (due1 (.sdreq 0x10000 88)))).isSome = true ∧
    shootOk 0x10000 = true ∧ shootOk 4 = true ∧ shootOk 0x10001 = false ∧ (0xFFFFFFFFF000 % 4096 = 0 ∧ 0xFFFFFFFFF000 < 2 ^ 48) ∧ 1 % 4096 ≠ 0 ∧
    ({ onF1 .nop with flights := [], ctxs := [(0, { phase := .running, sds := [⟨6, 0x10000, 100⟩] })] } : State).accessPending 0
      (shootRange 0x10000).1 (shootRange 0x10000).2 = false := by decide +kernel
/-- R310, R312: the ticket as the result, all ones for an invalid value, the new root, and `SDDONE`. -/
theorem test_translation :
    [exec (.sdreq 1) (onF1 (.sdreq 0x10000 88)), exec (.sdreq 1) (onF1 (.sdreq 0x10001 88)), exec (.root 1) (onF1 (.root 0x3000 88)),
      exec (.root 1) (onF1 (.root 1 88))].map (fun o => ((tsk o).sC.reg 4, ((after o).ctx 0).sdNext, ((after o).ctx 0).image.map (·.s1root))) =
    [(7, 8, some 0), (BitVec.allOnes 64, 7, some 0), (7, 8, some 0x3000), (BitVec.allOnes 64, 7, some 0)] ∧
    ((after (exec (.shootdownComplete 0 0) { onF1 .nop with flights := [], ctxs := [(0, { phase := .running, sds := [⟨6, 0x10000, 100⟩] })] })).ctx 0).sdDone = 7 := by
  decide +kernel

/-- A context of job 3, device 2, with a route to device 5 over port 0. -/
def jobCtx : Context := { phase := .running, job := some ⟨3, 2, 1, 1⟩, routes := [(20, 0x8000000000000000), (8, 0x8000000000000000)] }
/-- Strand registers for far accesses: `a1` the address 0x1000 on device 2, the part itself, `a2` scratch 64, `a3` a misaligned address, `a4` the end of the
scratchpad, `a5` on device 5, `a6` an operand, `a7` device 9 (not in the job). -/
def farRegs : SMap Word :=
  [(1, 0x1002000000001000), (2, 64), (3, 0x1005000000001001), (4, 0x180000), (5, 0x1005000000000000), (6, 77), (7, 0x1009000000001000)]
/-- That task. -/
def kFar : Task := tk farRegs farRegs farRegs farRegs
/-- `k` active in that context. -/
def onFar (k : Task) (t : Strand) : State := { on k t with ctxs := [(0, jobCtx)] }
/-- What is sent for the newest request: packet type, address or operand, destination, and the state of the task. -/
def sentOf (o : Out) : List (Nat × Nat × Nat) := ((after o).loop ++ (after o).allWaiting).map fun p => (p.ty, p.addr.toNat, p.ddev.toNat)
/-- `far_words`: addresses at each check: misaligned destination and address, past the scratchpad, not global, a device outside the job, one
without a usable route, and one that is served; stores with a register source and into a window. -/
theorem witness_far_words :
    Decides (onFar (met kFar) .L) (hd .L) (ev (met kFar) .L (hd .L)) ∧ State.yieldReady (ev (met kFar) .L (hd .L)) (onFar (met kFar) .L) = true ∧
    jobCtx.farRoom false = true ∧ (onFar kFar .S).storeRoom 0 = true ∧ 0x1000 % 64 = 0 ∧ Config.scratchBytes < 0x180000 + 64 ∧
    farOk 0x1005FFFFFFFFFFC0 64 = true ∧ farOk 0x1005FFFFFFFFFFC1 64 = false ∧ farOk 0x0000000000001000 64 = false ∧
    jobCtx.farRefusal 5 = none ∧ jobCtx.farRefusal 2 = none ∧ jobCtx.farRefusal 9 = some 0 ∧
    ({ jobCtx with routes := [(20, 0xC000000000000000)] } : Context).farRefusal 5 = some 9 ∧
    Issues (onFar kFar .S) (hd .S) 15 {} (ev kFar .S (hd .S)) ∧ Issues (onFar kFar .C) (hd .C) 15 { pop := isPop (90 : BitVec 7) } (ev kFar .C (hd .C)) ∧
    (86 : BitVec 7).toNat ≠ 84 ∧ (64 : Word).toNat < 2 ^ 37 ∧ (onFar kFar .S).mustWait (ev kFar .S (hd .S)).popped 16 [] = false ∧
    (onFar kFar .C).mustWait (ev kFar .C (hd .C)).popped 16 [] = false :=
  ⟨decides_of (by decide +kernel), by decide +kernel, by decide +kernel, by decide +kernel, by decide, by decide, by decide +kernel, by decide +kernel, by decide +kernel,
    by decide +kernel, by decide +kernel, by decide +kernel, by decide +kernel, issues_of (by decide +kernel), issues_of (by decide +kernel), by decide +kernel⟩
/-- R190 to R193: READ to the part's own device with the task parked, Alignment, Address Range and Far Access; stores in flight; the ATOM sent. -/
theorem test_far_words :
    (let o := exec (.fld (hd .L) ⟨86, 85, 0, 0, 1, 0, 0⟩) (onFar (met kFar) .L)
     sentOf o = [(0, 0x1000, 2)] ∧ (tsk o).st = .parked (.far 1)) ∧
    [Instr.fld (hd .L) ⟨87, 85, 0, 0, 0, 0, 0⟩, .fld (hd .L) ⟨86, 85, 0, 0, 0, 0, 1⟩, .fld (hd .L) ⟨88, 85, 0, 0, 0, 0, 0⟩, .fld (hd .L) ⟨86, 86, 0, 0, 0, 0, 0⟩,
      .fld (hd .L) ⟨86, 91, 0, 0, 0, 0, 0⟩].map (fun i => (trapped (exec i (onFar (met kFar) .L)), faddr (exec i (onFar (met kFar) .L)))) =
      [(some 3, 0x1005000000001001), (some 3, 0x1002000000001001), (some 5, 0x180000), (some 5, 64), (some 0x0B, 0x1009000000001000)] ∧
    [Instr.fst (hd .S) ⟨90, 85, 0, 0, 3, 84, 0⟩, .fstOrd (hd .S) ⟨1, 89, 0, 0, 0, 86, 0⟩].map (fun i => match fly (exec i (onFar kFar .S)) with
      | some (.fstSrc d n p) => (d, n, p.ty, p.addr.toNat, p.sub.toNat, p.ddev.toNat)
      | _ => (0, 0, 0, 0, 0, 0)) = [(90, 8, 2, 0x1000, 0, 2), (1, 256, 3, 64, 1, 5)] ∧
    (let o := exec (.fatom (hd .C) ⟨85, 85, 0, 0, 3, 90, 0⟩) (onFar kFar .C)
     sentOf o = [(4, 0x1000, 2)] ∧ (after o).loop.map (·.opnd) = [77] ∧ fly o = some (.fatom 85 0x1002000000001000 1)) := by decide +kernel
/-- Page tables at 0x1000, 0x2000 and 0x3000 that map the first 2 MiB to themselves with every right (R303), and bytes at 0x5000. -/
def tables : Mem := [(0x1000, 3), (0x1001, 0x20), (0x2000, 3), (0x2001, 0x30), (0x3000, 0x1D), (0x5000, 0x11), (0x5001, 0x22)]
/-- The context of job 3 with those tables and the requests `far`. -/
def farCtx (far : List FarReq) : Context :=
  { jobCtx with s2len := 16, s2 := [(0, { pfn := 0, w := true })], image := some ⟨0, 0, 0, 0, 0, 0x1000, 0, 0⟩, far := far }
/-- A running task `k` with that context. -/
def onJob (k : Task) (far : List FarReq) : State := { on k .C with ctxs := [(0, farCtx far)], dram := tables }
/-- A packet of the part's own device to itself. -/
def pk (ty : Nat) : Pkt := { ty := ty, job := 3, sdev := 2, ddev := 2, rqdev := 2, tag := 1, addr := 0x5000 }
/-- What a reply on the way to the own device says: type, reason, status, and the first bytes. -/
def replies (o : Out) : List (Nat × Nat × Nat × List Nat) :=
  (after o).loop.map fun p => (p.ty, p.reason.toNat, p.status.toNat, (p.payload.take 2).map BitVec.toNat)
/-- `far_target`: a context that serves and one that does not; an address that may be read and written and one that may not; a held store
whose counts are met, and one that is late. -/
theorem witness_far_target :
    (onJob kFar []).arrival { pk 0 with sdev := 5, inPort := 1 } = none ∧ (∃ c, (onJob kFar []).arrival (pk 0) = some (0, c) ∧ c.serves = true) ∧
    ({ farCtx [] with phase := .created } : Context).serves = false ∧
    (match (onJob kFar []).farPlaces 0 0x5000 64 (fun _ _ fr => fr) with
      | .ok ps => ps.length
      | _ => 0) = 16 ∧
    (match (onJob kFar []).farPlaces 0 0x40000000 64 (fun _ _ fr => fr) with
      | .error r => r
      | _ => 0) = 1 ∧
    (match (onJob kFar []).farPlaces 0 0x5000 8 (fun rd wr _ => rd && wr) with
      | .ok ps => ps.head?.map (·.2)
      | _ => none) = some ⟨none, 0x5000⟩ ∧
    (onJob kFar []).countsMet 0 (pk 3) = true ∧ 0 + (farCtx []).linkTimeout < 4000000 :=
  ⟨by decide +kernel, ⟨_, rfl, by decide +kernel⟩, by decide +kernel⟩
/-- R325, R328: the data read, the store acknowledged and performed, the old value of the ATOM and what it left, refusals with their reason. -/
theorem test_far_target :
    replies (exec (.read (pk 0)) (onJob kFar [])) = [(1, 0, 0, [0x11, 0x22])] ∧
    replies (exec (.read { pk 0 with addr := 0x40000000 }) (onJob kFar [])) = [(7, 1, 0, [])] := by decide +kernel
/-- R328: a WRITE and an ATOM perform. -/
theorem test_far_target_writes :
    (let o := exec (.write { pk 2 with payload := [9, 8] }) (onJob kFar [])
     replies o = [(6, 0, 0, [])] ∧ Mem.get (after o).dram 0x5000 = 9 ∧ Mem.get (after o).dram 0x5001 = 8) ∧
    (let o := exec (.atom { pk 4 with status := 2, opnd := 1 }) (onJob kFar [])
     replies o = [(5, 0, 0, [0x11, 0x22])] ∧ Mem.get (after o).dram 0x5000 = 0x12) ∧
    replies (exec (.atom (pk 4)) { onJob kFar [] with ctxs := [(0, { farCtx [] with phase := .created })] }) = [(5, 7, 0, [])] := by decide +kernel
/-- R247: an ordered store is held, performs when its counts are met, and is dropped when it is late. -/
theorem test_far_ordered :
    ((after (exec (.wrord { pk 3 with payload := [7] }) (onJob kFar []))).heldOrd.length = 1) ∧
    (let o := exec (.orderedStoreRelease 0) { onJob kFar [] with heldOrd := [(0, 10, { pk 3 with payload := [7] })] }
     replies o = [(6, 0, 0, [])] ∧ Mem.get (after o).dram 0x5000 = 7) ∧
    (after (exec (.orderedStoreTimeout 0) { onJob kFar [] with cyc := 4000000, heldOrd := [(0, 10, { pk 3 with payload := [7] })] })).heldOrd = [] := by decide +kernel

/-- Requests outstanding at device 2: a far load to scratch 64, a store, an atomic whose flight is 1, and a third-party read. -/
def reqOf (kind : FarKind) : FarReq := { tag := 1, dev := 2, cls := 0, route := 0, issued := 10, sent := 10, task := (0, 0, 1), va := 0x5000, kind := kind }
/-- `far_requester`: each kind of request with its packet, and a link timeout that has passed. -/
theorem witness_far_requester :
    ((onJob kFar [reqOf (.load 0 0 64 64 [])]).farOf (pk 1) = some (0, reqOf (.load 0 0 64 64 []))) ∧
    ((onJob kFar [reqOf (.store false)]).farOf (pk 6) = some (0, reqOf (.store false))) ∧
    ((onJob kFar [reqOf (.atomic 1)]).farOf (pk 5) = some (0, reqOf (.atomic 1))) ∧ ((onJob kFar []).ctx 0).present = true ∧
    ({ farCtx [] with phase := .saved 0 } : Context).present = false ∧
    ({ onJob kFar [reqOf (.load 0 0 64 64 [])] with cyc := 4000000 } : State).timedOut (fun r => r.tag == 1 && r.isLoad) =
      some (0, reqOf (.load 0 0 64 64 [])) ∧
    ({ onJob kFar [reqOf (.atomic 1)] with cyc := 4000000 } : State).timedOut (fun r => r.tag == 1 && r.isAtomic) = some (0, reqOf (.atomic 1)) := by
  decide +kernel
/-- R191, R193: the load's bytes in the scratchpad and its task ready to wake, a refusal as a fault with reason 3 and the address, the
store closed, the atomic's value on its way, and the faults of the timeouts. -/
theorem test_far_requester :
    (let o := exec (.rdata { pk 1 with payload := [4, 5] ++ List.replicate 62 0 }) (onJob { kFar with st := .parked (.far 1) } [reqOf (.load 0 0 64 64 [])])
     (tsk o).st = .parked .now ∧ Mem.get ((after o).core 0).scratch 65 = 5 ∧ ((after o).ctx 0).far = []) ∧
    (tsk (exec (.nack { pk 7 with reason := 3 }) (onJob { kFar with st := .parked (.far 1) } [reqOf (.load 0 0 64 64 [])]))).st =
      .parked (.farFault 3 0x1002000000005000) ∧
    ((after (exec (.ack (pk 6)) (onJob kFar [reqOf (.store false)]))).ctx 0).far = [] ∧
    fly (exec (.arply { pk 5 with payload := [4, 0, 0, 0, 0, 0, 0, 0] })
      { onJob kFar [reqOf (.atomic 1)] with flights := [due1 (.fatom 88 0x1002000000005000 1)] }) = some (.scalar 88 4) ∧
    (tsk (exec (.fldTimeout 1) { onJob { kFar with st := .parked (.far 1) } [reqOf (.load 0 0 64 64 [])] with cyc := 4000000 })).st =
      .parked (.farFault 8 0x1002000000005000) ∧
    ((after (exec (.fatomTimeout 1) { onJob kFar [reqOf (.atomic 1)] with cyc := 4000000 })).ctx 0).far = [] := by decide +kernel

/-- A third-party request record (R194): 64 bytes at 0x5000 of the own device to window 5 of core 0 of the own device, record at 0x200. -/
def thirdRcd : Nat := 0x1002000000005000 + 64 * 2 ^ 64 + 2 * 2 ^ 112 + 5 * 2 ^ 138 + 0x200 * 2 ^ 192 + 2 ^ 244
/-- The task with `a2` at that record. -/
def onThird : State :=
  { onJob kFar [] with cores := [(0, { active := some 0, slots := [(0, kFar)], scratch := Mem.write [] 64 32 thirdRcd })] }
/-- The third-party read outstanding, for 64 slots. -/
def thirdReq (ack rej : Nat) (ofc : Option Nat) : FarReq :=
  reqOf (.third 0 0 1 2 true (BitVec.ofNat 256 thirdRcd) [2] ack rej 0 ofc 4196)
/-- `third_party_words`: a record that passes the checks, one that does not, a misaligned and an unmapped one; each packet of the exchange. -/
theorem witness_third_party :
    Issues onThird (hd .C) 15 {} (ev kFar .C (hd .C)) ∧ onThird.scratchNat 0 64 32 = thirdRcd ∧ (match (farCtx []).thirdMembers thirdRcd with
      | .ok ms => ms
      | _ => []) = [2] ∧
    (match (farCtx []).thirdMembers (thirdRcd + 2 ^ 81) with
      | .error n => n
      | _ => 99) = 0 ∧ (farCtx []).farRoom true = true ∧
    onThird.mustWait (ev kFar .C (hd .C)).popped 16 [⟨⟨some 0, 64⟩, 32, 0, 64⟩] = false ∧ Config.scratchBytes < 0x180000 + 32 ∧
    (onJob kFar [thirdReq 0 0 none]).farOf (pk 10) = some (0, thirdReq 0 0 none) ∧
    (let c := farCtx []
     let p := { pk 9 with addr := BitVec.ofNat 64 (xTarget thirdRcd), opnd := BitVec.ofNat 64 (256 * 64) }
     (c.delivery p).aborted = false ∧ (c.delivery p).len = 64 ∧ (c.delivery p).core = 0 ∧ (c.delivery p).win = 5) ∧
    ({ onJob kFar [thirdReq 0 0 none] with cyc := 4196 } : State).thirdTimedOut 1 = some (0, thirdReq 0 0 none) :=
  ⟨issues_of (by decide +kernel), by decide +kernel⟩
/-- R195, R333: the XREQ sent and the strand past the word; Alignment, Address Range, Far Access. -/
theorem test_third_party_words :
    (let o := exec (.fldx (hd .C) ⟨86, 0, 0, 0⟩) onThird
     sentOf o = [(8, 0x1400, 2)] ∧ (tsk o).sC.ip = 4 ∧ (((after o).ctx 0).far.length = 1)) ∧
    sentOf (exec (.fldxT (hd .C) ⟨86, 0, 0, 0⟩) onThird) = [(8, 0x1400, 2)] ∧
    [exec (.fldx (hd .C) ⟨87, 0, 0, 0⟩) onThird, exec (.fldx (hd .C) ⟨88, 0, 0, 0⟩) onThird, exec (.fldx (hd .C) ⟨85, 0, 0, 0⟩) onThird,
      exec (.fldx (hd .C) ⟨86, 0, 0, 0⟩) { onThird with ctxs := [(0, { farCtx [] with job := none })] }].map trapped =
      [some 3, some 5, some 5, some 0x0B] := by decide +kernel
/-- A packet of the exchange to the member: window target, member number 0 and length. -/
def xpk (ty : Nat) : Pkt := { pk ty with addr := 0x1400, opnd := BitVec.ofNat 64 (256 * 64) }
/-- The XREQ for the owner's address `a` (R333 step 1). -/
def xreqAt (a : BitVec 64) : Pkt := { pk 8 with addr := 0x1400, opnd := a, payload := xPayload thirdRcd [2] }
/-- R333: data to the member, a refusal to both parties, the member's outcome, and an abort that makes a window ready with error 3. -/
theorem test_third_party_packets :
    replies (exec (.xreq (xreqAt 0x5000)) (onJob kFar [])) = [(9, 0, 0, [0x11, 0x22])] ∧
    replies (exec (.xreq (xreqAt 0x40000000)) (onJob kFar [])) = [(11, 1, 0, []), (12, 0, 1, [])] ∧
    (let s := { onWin kFar 64 false 0 with ctxs := [(0, farCtx [])] }
     let o := exec (.xdata { xpk 9 with payload := List.replicate 64 6 }) s
     replies o = [(10, 0, 0, [])] ∧ SMap.find? ((after o).core 0).windows 5 = some ⟨wdesc 64, true, 0, 64⟩ ∧
       SMap.find? ((after (exec (.xabt { xpk 12 with status := 3 }) s)).core 0).windows 5 = some ⟨wdesc 64, true, 3, 0⟩) := by decide +kernel
/-- R197: all members heard of, an owner fault, the timeout: the record at 0x200 with its status. -/
theorem test_third_party_records :
    [exec (.xack (pk 10)) (onJob kFar [thirdReq 0 0 none]), exec (.xack { pk 10 with status := 1 }) (onJob kFar [thirdReq 0 0 none]),
      exec (.xflt { pk 11 with reason := 3 }) (onJob kFar [thirdReq 1 0 none]),
      exec (.fldxTimeout 1) { onJob kFar [thirdReq 0 0 none] with cyc := 4196 }].map
      (fun o => (Mem.read ((after o).core 0).scratch 0x200 4, ((after o).ctx 0).far.length)) =
      [(0x00810000, 0), (0x00810003, 0), (0x00810301, 0), (0x00810004, 0)] := by decide +kernel
/-- `links_and_beacons`: a route's packet for another device by a port of the job; its link up and down; the root's and the others' times. -/
theorem witness_links :
    (∃ c, (onJob kFar []).arrival (pk 15) = some (0, c)) ∧ (∃ c, (onJob kFar []).ctxOfJob (pk 15).job.toNat = some (0, c)) ∧ (0 + 1 < ({ pk 2 with nhop := 2 } : Pkt).nhop.toNat) ∧
    (onJob kFar []).linkUp 0 = true ∧ ({ onJob kFar [] with mgmt := { links := [(0, (false, 9))] } } : State).linkUp 0 = false ∧
    SMap.get (onJob kFar []).mgmt.ldownSent 0 8 = 0 ∧
    (let s : State := { onJob kFar [] with cyc := 262144, mgmt := { beaconRoot := true } }
     s.slot % 4096 = 0 ∧ s.mgmt.lastBeaconSent ≠ s.slot + 1) ∧
    (let s : State := { onJob kFar [] with cyc := 1048576 }
     s.bu.synced = true ∧ s.mgmt.beaconRoot = false ∧ s.bu.lastBeacon + 16384 ≤ s.slot) :=
  ⟨⟨_, rfl⟩, ⟨_, rfl⟩, by decide +kernel⟩
/-- R326, R331: a forwarded packet at hop 1, one discarded, the notice for a failed link, `DOWN` in the route; beacons. -/
theorem test_links :
    ((after (exec (.packetForward { pk 2 with ddev := 7, sdev := 2, nhop := 2 }) (onJob kFar []))).allWaiting.map fun p => (p.ddev.toNat, p.hop.toNat)) = [(7, 1)] ∧
    (after (exec (.packetForward { pk 2 with ddev := 7, nhop := 1 }) (onJob kFar []))).mgmt.discards = 1 ∧
    sentOf (exec (.packetForward { pk 2 with ddev := 7, nhop := 2 }) { onJob kFar [] with mgmt := { links := [(0, (false, 9))] } }) = [(15, 0, 2)] ∧
    SMap.get ((after (exec (.ldown { pk 15 with addr := 0, opnd := 5 }) (onJob kFar []))).ctx 0).routes 0 20 = 0xC000000000000000 ∧
    (after (exec (.beacon { pk 14 with opnd := 1000 }) { onJob kFar [] with mgmt := { links := [(0, (true, 9))] } })).bu.beaconOff = 1008 ∧
    (after (exec .beaconSend { onJob kFar [] with cyc := 262144, mgmt := { beaconRoot := true } })).mgmt.lastBeaconSent = 4097 ∧
    (after (exec .beaconLoss { onJob kFar [] with cyc := 1048576 })).bu.synced = false ∧
    ((after (exec (.linkFailure 3) (onJob kFar []))).linkUp 3, (after (exec (.linkTraining 3 7) (onJob kFar []))).linkLatency 3) = (false, 7) := by
  decide +kernel
/-! ## Schedulers -/

/-- Registers of scheduler words: `a1` a task record at 256, `a2` misaligned, `a3` past the end, `a4` a QMAP record at 320, `a5` a queue address, `a6`
a TOPB at 512, `a7` 0, `a8` 3. -/
def kH : Task := tk [(1, 256), (2, 264), (3, 0x180000), (4, 320), (5, 0x1000), (6, 512), (7, 0), (8, 3)] [] [] []
/-- A task record of 8 blocks with argument `arg` (R223), and the entry made of it by core 0. -/
def trec (arg : Nat) : Nat := arg + 8 * 2 ^ 112
/-- R224, R225. -/
def dent (arg : Nat) : DqEntry := { rcd := BitVec.ofNat 256 (trec arg), tvec := 0, part := 0, fn := 0, src := 0 }
/-- A QMAP record for the queue at 0x1000 with the record at 256; slot `want`, or any when `any` (R234). -/
def qrec (want : Nat) (any : Bool) : Nat := 0x1000 + 256 * 2 ^ 64 + want * 2 ^ 96 + (if any then 2 ^ 102 else 0)
/-- The scratchpad with those records. -/
def hmem (q : Nat) : Mem := Mem.write (Mem.write [] 256 32 (trec 9)) 320 32 q
/-- `kH` on core 0, the deques `d0` and `d1` of cores 0 and 1, and cluster 0 as given. -/
def onH (d0 d1 : List DqEntry) (h : Hts) (q : Nat := qrec 2 false) : State :=
  { on kH .C with cores := [(0, { active := some 0, slots := [(0, kH)], scratch := hmem q, deque := d0 }), (1, { deque := d1 })], hts := [(0, h)] }
/-- The conditions of a record's read together. -/
theorem readable_of {s : State} {e : Env} {a n al : Nat} (hf : s.flights = [])
    (w : a % al = 0 ∧ a + n ≤ Config.scratchBytes ∧ s.mustWait e 16 [⟨⟨some e.core, a⟩, n, 0, a⟩] = false ∧
      ∀ k, k < n / 8 → s.isPoisoned ⟨some e.core, a + 8 * k⟩ 8 = false) : Readable s e a n al :=
  ⟨w.1, w.2.1, fun f h => (by rw [hf] at h; cases h), w.2.2.1, w.2.2.2⟩
/-- The queue that slot 2 of the context of function 0 serves. -/
def qm : QMapping := { part := 0, fn := 0, qaddr := 0x1000, npre := false, any := false, want := 2, core := 0, entry := dent 9 }
/-- `scheduler_words`, first half: readable records, a record that makes an entry and one that does not, deques that are empty, full, and hold an
entry that may be stolen. -/
theorem witness_scheduler_records :
    Issues (onH [] [] {}) (hd .C) 15 { pop := isPop (85 : BitVec 7) } (ev kH .C (hd .C)) ∧ Readable (onH [] [] {}) (ev kH .C (hd .C)).popped 256 32 32 ∧
    Readable (onH [] [] {}) (ev kH .C (hd .C)).popped 512 128 64 ∧ (onH [] [] {}).entryAt kH 0 256 = some (dent 9) ∧ (onH [] [] {}).entryAt kH 0 1024 = none ∧
    (onH [] [] {}).entryRoom (dent 9) = true ∧ (List.replicate 64 (dent 9)).length = 64 ∧ 264 % 32 ≠ 0 ∧ Config.scratchBytes < 0x180000 + 32 ∧
    recf (dent 9).rcd 230 230 ≠ 1 ∧ recf (BitVec.ofNat 256 (trec 9 + 2 ^ 230)) 230 230 = 1 ∧ (onH [] [] {}).partOf 1 = some 0 ∧ (onH [] [] {}).partOf 16 = none ∧
    (firstStealable 0 [dent 9]).isSome = true ∧ firstStealable 0 [{ dent 9 with stolen := true }] = none :=
  ⟨issues_of (by decide +kernel), readable_of rfl (by decide +kernel), readable_of rfl (by decide +kernel), by decide +kernel⟩
/-- Poison in a task record and in a footprint that it names, and a registered barrier word where a pop would write. -/
theorem witness_scheduler_poison :
    let s := (onH [] [] {}).updCore 0 fun c => { c with poison := [33], bars := [256] }
    s.isPoisoned ⟨some 0, 256⟩ 8 = false ∧ s.isPoisoned ⟨some 0, 264⟩ 8 = true ∧ (s.hitsBarrier [⟨⟨some 0, 256⟩, 32, 0, 256⟩]).isSome = true ∧
    s.footBytes 0 0 = 0 := by decide +kernel
/-- `scheduler_words`, second half: the last counter of the context and the first that is not; counters armed and not; a queue that is mapped,
held and neither; a slot that is free and one that is taken; a TOPB that is valid and one that is not. -/
theorem witness_scheduler_counters :
    (onH [] [] {}).counterOk 0 0 639 = true ∧ (onH [] [] {}).counterOk 0 0 640 = false ∧ (onH [] [] {}).released 0 0 1 100 = true ∧
    (onH [] [] {}).findQueue 0 0x1000 = none ∧ (onH [] [] { qslots := [(2, qm)] }).findQueue 0 0x1000 = some (0, true, 2, qm) ∧
    (onH [] [] { qheld := [(0, qm)] }).findQueue 0 0x1000 = some (0, false, 0, qm) ∧
    (onH [] [] { qowner := [(2, 0)] }).freeSlot 0 0 false 2 = some 2 ∧ (onH [] [] { qowner := [(2, 0)] }).ownsSlot 0 0 2 = true ∧
    (onH [] [] { qowner := [(2, 0)], qslots := [(2, { qm with qaddr := 0x2000 })] }).freeSlot 0 0 false 2 = none ∧ (onH [] [] {}).freeHeld 0 = some 0 ∧
    (topOk (BitVec.ofNat 1024 ((onH [] [] {}).scratchNat 0 512 128)) && (onH [] [] {}).recordOk 0 (walkerRecord 0 512 kH) true) = true ∧ topOk 4 = false ∧
    (onH [] [] {}).footprint 0 0 0 = some [] ∧
    (onH [] [] {}).takeHeld [(0, dent 3)] = some ((0, dent 3), []) := by decide +kernel
/-- The value of the newest scalar result. -/
def res (o : Out) : Nat := match fly o with
  | some (.scalar _ v) => v.toNat
  | _ => 99
/-- The result `op` of strand `t` in flight as number 7, with the moment come. -/
def res7 (t : Strand) (op : FOp) : Flight := { id := 7, core := 0, slot := 0, strand := t, ip := 3, issued := 80, due := 100, dst := 15, tagd := false, tal := 0, sig := 0, op := op }
/-- A task with that flight. -/
def onFly (t : Strand) (op : FOp) : State := { on (tk [(1, 5)] [] [] []) .C with flights := [res7 t op] }
/-- What a word asked of the schedulers has been served. -/
def served (o : Out) : Out := runEvent .htsRequest (after o)
/-- A request of core `n`. -/
def hreq (n : Nat) (op : HtsOp) : HtsReq := { core := n, part := 0, fn := 0, flight := 7, op := op }
/-- `scheduler_words`: requests of each kind, and the order in which they are served. -/
theorem witness_scheduler_requests :
    nextReq [hreq 3 (.steal 1), hreq 2 (.steal 1), hreq 0 (.push (dent 9))] =
      some (hreq 0 (.push (dent 9)), [hreq 3 (.steal 1), hreq 2 (.steal 1)]) ∧
    (onFly .C (.scalar 88 0)).flights = [res7 .C (.scalar 88 0)] ∧ (res7 .C (.scalar 88 0)).id = (hreq 0 (.pop 0)).flight ∧
    (onH [] [] {}).mustWait (ev kH .C (hd .C)).popped 0 [⟨⟨some 0, 256⟩, 32, 0, 256⟩] = false ∧
    lateEvent { onH [] [] {} with htsReqs := [hreq 0 (.pop 0)] } = some .htsRequest ∧
    lateEvent (onH [] [] { heldPush := [(0, dent 3)] }) = some (.heldPush 0) ∧ lateEvent (onH [] [] {}) = none := by decide +kernel
/-- R226: a one-entry deque popped and stolen from in one cycle gives the entry to the pop; a push is seen by a steal of its cycle, and not
by a pop; a push released by a counter of core 0 comes before one of core 1. -/
theorem test_request_order :
    (let run (q : List DqEntry) (l : List HtsReq) : State := l.foldl (fun s _ => s.serveNext) { onH [] q {} with htsReqs := l }
     let t := run [{ dent 5 with ser := 7 }] [hreq 0 (.steal 1), hreq 1 (.pop 256)]
     let u := run [] [hreq 0 (.steal 1), hreq 1 (.push { dent 5 with src := 1 }), hreq 1 (.pop 256)]
     (t.core 0).deque.length = 0 ∧ (t.core 1).deque.length = 0 ∧ Mem.read (t.core 1).scratch 256 32 = (dent 5).rcd.toNat ∧
       (u.core 0).deque.length = 1 ∧ (u.core 1).deque.length = 0) ∧
    lateEvent { onH [] [] { heldPush := [(1, dent 3)] } with htsReqs := [hreq 0 (.push (dent 5))] } = some .htsRequest ∧
    lateEvent { onH [] [] { heldPush := [(0, dent 3)] } with htsReqs := [hreq 1 (.push (dent 5))] } = some (.heldPush 0) := by decide +kernel
/-- R225, R228: push, pop and steal with the serial 1 or the entry's; full, empty and invalid; a walker pushed. -/
theorem test_deques :
    [exec (.dqpush (hd .C) ⟨85, 88, 0, 0⟩) (onH [] [] {}), exec (.dqpush (hd .C) ⟨85, 88, 0, 0⟩) (onH (List.replicate 64 (dent 9)) [] {}),
      exec (.dqpop (hd .C) ⟨85, 88, 0, 0⟩) (onH [{ dent 5 with ser := 7 }] [] {}), exec (.dqpop (hd .C) ⟨85, 88, 0, 0⟩) (onH [] [] {}),
      exec (.dqsteal (hd .C) ⟨0, 88, 0, 1⟩) (onH [] [{ dent 5 with ser := 7 }] {}), exec (.dqsteal (hd .C) ⟨0, 88, 0, 1⟩) (onH [] [] {}),
      exec (.dqsteal (hd .C) ⟨0, 88, 0, 16⟩) (onH [] [] {}), exec (.topb (hd .C) ⟨90, 88, 0, 0⟩) (onH [] [] {})].map
      (fun o => (res (served o), ((after (served o)).core 0).deque.length, ((after (served o)).core 1).deque.length)) =
      [(1, 1, 0), (2 ^ 60, 64, 0), (7, 0, 0), (2 ^ 60, 0, 0), (7, 1, 0), (2 ^ 60, 0, 0), (2 * 2 ^ 60, 0, 0), (1, 1, 0)] ∧
    [Instr.dqpush (hd .C) ⟨86, 88, 0, 0⟩, .topb (hd .C) ⟨87, 88, 0, 0⟩].map (fun i => trapped (exec i (onH [] [] {}))) = [some 3, some 5] := by decide +kernel
/-- R230 to R232: a counter set to 3 with the record armed, decremented by 2 and by 3; its record is released. -/
theorem test_counters :
    (let t := after (exec (.htsset (hd .C) ⟨85, 92, 0, 5⟩) (onH [] [] {}))
     SMap.get (t.htsOf 0).ctrs {} 5 = { val := 3, armed := some (dent 9) }) ∧
    [exec (.htsdec (hd .C) ⟨0, 88, 0, 0x2005⟩) (onH [] [] { ctrs := [(5, { val := 3, armed := some (dent 9) })] }),
      exec (.htsdec (hd .C) ⟨0, 88, 0, 0x3005⟩) (onH [] [] { ctrs := [(5, { val := 3, armed := some (dent 9) })] }),
      exec (.htsdec (hd .C) ⟨0, 88, 0, 0x4005⟩) (onH [] [] { ctrs := [(5, { val := 3 })] }),
      exec (.htsset (hd .C) ⟨84, 91, 0, 640⟩) (onH [] [] {})].map (fun o => (res o, ((after o).htsOf 0).heldPush.length)) =
      [(1, 0), (2 ^ 60, 1), (2 * 2 ^ 60, 0), (2 * 2 ^ 60, 0)] := by decide +kernel
/-- R234, R283, R286: mapped to slot 2, held, already there, invalid; unmapped and unknown; a notify pushes; a held push is made. -/
theorem test_queues :
    [exec (.qmap (hd .C) ⟨88, 88, 0, 0⟩) (onH [] [] { qowner := [(2, 0)] }),
      exec (.qmap (hd .C) ⟨88, 88, 0, 0⟩) (onH [] [] { qowner := [(2, 0)], qslots := [(2, { qm with qaddr := 0x2000 })] }),
      exec (.qmap (hd .C) ⟨88, 88, 0, 0⟩) (onH [] [] { qowner := [(2, 0)], qslots := [(2, qm)] }), exec (.qmap (hd .C) ⟨88, 88, 0, 0⟩) (onH [] [] {}),
      exec (.qunmap (hd .C) ⟨89, 88, 0, 0⟩) (onH [] [] { qslots := [(2, qm)] }), exec (.qunmap (hd .C) ⟨89, 88, 0, 0⟩) (onH [] [] {})].map
      (fun o => (res (served o), ((after (served o)).htsOf 0).qslots.length, ((after (served o)).htsOf 0).qheld.length)) =
      [(2, 1, 0), (2 ^ 60, 1, 1), (3 * 2 ^ 60, 1, 0), (2 * 2 ^ 60, 0, 0), (0, 0, 0), (2 ^ 60, 0, 0)] ∧
    ((after (exec (.queueNotify 0 0 0x1000) (onH [] [] { qslots := [(2, qm)] }))).htsOf 0).heldPush.length = 1 ∧
    ((after (exec (.queueNotify 0 0 0x1000) { onH [] [] {} with ctxs := [(0, { phase := .saved 0 })] })).ctx 0).notes = [0x1000] ∧
    ((after (exec (.heldDequePush 0) (onH [] [] { heldPush := [(0, dent 3)] }))).core 0).deque.length = 1 := by decide +kernel

/-! ## Bookings -/

/-- Registers of booking words: `a1` a booking record at 256, `a2` a packet at 512, `a3` a handle. -/
def kB : Task := tk [(1, 256), (2, 512), (3, 0x05)] [] [] []
/-- A record of one stage of 1 slot on any instance of class `ecls`, with the bits `more` (R211, R212). -/
def brec (ecls more : Nat) : Nat := 2 ^ 248 + 2 ^ 256 * (ecls * 2 ^ 60 + 0xFFF * 2 ^ 48 + 2 ^ 31 + 2 ^ 16) + more
/-- A packet of 64 bytes from 0x5000 to 0x6000 with any engine and the bits `more` (R218). -/
def prec (more : Nat) : Nat := 0x5000 + 2 ^ 64 * 0x6000 + 64 * 2 ^ 128 + 15 * 2 ^ 312 + more
/-- `kB` with those records, and the Booking Unit `u`. -/
def onBk (b p : Nat) (u : BookUnit := {}) : State :=
  { on kB .C with bu := u, cores := [(0, { active := some 0, slots := [(0, kB)], scratch := Mem.write (Mem.write [] 256 128 b) 512 64 p })] }
/-- The one booking of these tests: one stage on the matrix engine of core 0, committed in slot 5. -/
def bk5 : Booking := { handle := 5, part := 0, fn := 0, core := 0, st := .committed, stages := [{ ecls := 0, inst := 0xFFF, start := 5, fin := 6, placed := true }] }
/-- A request of function 0 in the central queue. -/
def rq (k : ReqKind) (t : Option Nat := none) : Req := { seq := 1, prio := 0, aging := true, search := t, accepted := 0, cluster := 0, flight := 1, part := 0, fn := 0, kind := k }
/-- `booking_words`: valid records of both kinds, one of no stage and one of length 0, and a free front end before and after the record enters. -/
theorem witness_booking_words :
    let s := onBk (brec 0 0) (prec 0)
    Issues s (hd .C) 15 { pop := isPop (85 : BitVec 7) } (ev kB .C (hd .C)) ∧ s.frontFree 0 = true ∧
    Readable s (ev kB .C (hd .C)).popped 256 128 64 ∧ Readable s (ev kB .C (hd .C)).popped 512 64 64 ∧
    (s.bookingOf kB 0 256 (brec 0 0)).isSome = true ∧ s.bookingOf kB 0 256 0 = none ∧ s.footprint 0 0 0 = some [] ∧
    s.tableRoom 0 0 [] = true ∧ (s.submit 0 0 0 []).2.frontFree 0 = true ∧ s.packetOk 0 0 (prec 0) = true ∧ s.packetOk 0 0 0 = false :=
  ⟨issues_of (by decide +kernel), by decide +kernel, readable_of rfl (by decide +kernel), readable_of rfl (by decide +kernel), by decide +kernel⟩
/-- The same for a packet's rows as its regions, with and without a handle. -/
theorem witness_packets_enter :
    let p (more : Nat) : CopyPkt := { serial := 1, part := 0, fn := 0, core := 0, slot := 0, ser := 1, ip := 3, rcd := BitVec.ofNat 512 (prec more), engine := 0, uid := 0, posted := 0 }
    let s := onBk (brec 0 0) (prec 0)
    s.tableRoom 0 0 (p 0).regions = true ∧ (p 0).handle = 0 ∧ (p (5 * 2 ^ 256)).handle ≠ 0 ∧ s.packetOk 0 0 (prec (5 * 2 ^ 256)) = true ∧
    ((s.clamp (ev kB .C (hd .C)).popped 0).submit 0 0 0 (p 0).regions).2.frontFree 0 = true := by decide +kernel
/-- R214, R218, R258: a request in the queue with priority 31 or the record's, the front end taken, the packet in its queue; refusals with their status. -/
theorem test_booking_words :
    [exec (.bkqry (hd .C) ⟨87, 88, 0, 0⟩) (onBk (brec 0 0) (prec 0)), exec (.bkcan (hd .C) ⟨87, 88, 0, 0⟩) (onBk (brec 0 0) (prec 0)),
      exec (.bkrel (hd .C) ⟨87, 88, 0, 0⟩) (onBk (brec 0 0) (prec 0)), exec (.book (hd .C) ⟨85, 88, 0, 0⟩) (onBk (brec 0 (7 * 2 ^ 240)) (prec 0))].map
      (fun o => ((after o).bu.reqs.map (·.prio), SMap.get (after o).bu.front 0 0)) = [([31], 101), ([31], 101), ([31], 101), ([7], 101)] ∧
    fly (exec (.book (hd .C) ⟨85, 88, 0, 0⟩) (onBk 0 (prec 0))) = some (.scalar 88 (BitVec.ofNat 64 (3 * 2 ^ 60))) ∧
    fly (exec (.cpost (hd .C) ⟨86, 88, 0, 0⟩) (onBk 0 0)) = some (.scalar 88 (BitVec.ofNat 64 (2 * 2 ^ 60))) ∧
    (let o := exec (.cpost (hd .C) ⟨86, 88, 0, 0⟩) (onBk 0 (prec 0))
     (after o).packets.length = 1 ∧ (after o).bu.reqs = []) ∧
    ((after (exec (.cpost (hd .C) ⟨86, 88, 0, 0⟩) (onBk 0 (prec (5 * 2 ^ 256))))).bu.reqs.length = 1) := by decide +kernel
/-- The part in cycle 1000 with the request `k`, its search over or not begun, and the bookings `bs`. -/
def deciding (k : ReqKind) (t : Option Nat) (bs : List Booking) : State := { onBk 0 0 { reqs := [rq k t], bookings := bs, serials := [(0, 9)] } with cyc := 1000 }
/-- `booking_decisions`: a head that may be decided, of every kind; a placement and none, with and without room to defer; a request that aged by one; the first cycle of a slot. -/
theorem witness_booking_decisions :
    let b := { bk5 with handle := 0, stages := [{ ecls := 0, inst := 0xFFF }] }
    let never := { b with dlv := true }
    ((deciding (.query 5 0) none [bk5]).canDecide = some (rq (.query 5 0))) ∧ ((deciding (.cancel 5) none [bk5]).canDecide = some (rq (.cancel 5))) ∧
    ((deciding (.release 5 0) none [bk5]).canDecide = some (rq (.release 5 0))) ∧
    ((deciding (.book b false) (some 900) []).canDecide = some (rq (.book b false) (some 900))) ∧ b.handle = 0 ∧ b.remote = false ∧ b.coll = none ∧
    ((deciding (.book b false) (some 900) []).search { b with handle := 9 }).isSome = true ∧
    (deciding (.book never true) (some 900) []).search { never with handle := 9 } = none ∧ (deciding (.book never true) (some 900) []).deferRoom 0 = true ∧
    (let r := rq (.book b false)
     (r.seq == 1 && r.aging && decide (r.raised < min 31 (r.prio + (300000 - r.accepted) / 262144) - r.prio)) = true) ∧
    ({ onBk 0 0 with cyc := 128 } : State).cyc % 64 = 0 ∧ ({ onBk 0 0 with cyc := 128 } : State).bu.lastSlot < ({ onBk 0 0 with cyc := 128 } : State).slot := by
  decide +kernel
/-- R216, R261, R263: a query, a cancel and a release at once, the search begun, a placement committed with handle 9, a record with a deadline that nothing meets deferred or refused,
and the ageing of a request. -/
theorem test_booking_decisions :
    let b := { bk5 with handle := 0, stages := [{ ecls := 0, inst := 0xFFF }] }
    ([.cancel 5, .release 5 0].map fun k => let t := after (exec .bookingDecide (deciding k none [bk5])); (t.bu.reqs.length, t.bu.bookings.map (·.st))) =
      [(0, [.cancelled]), (0, [.done])] ∧
    ((after (exec .bookingDecide (deciding (.book b false) none []))).bu.reqs.map (·.search.isSome)) = [true] ∧
    ([({ b with dlv := false }, false), ({ b with dlv := true }, true), ({ b with dlv := true }, false)].map fun (b, d) =>
      let t := after (exec .bookingDecide (deciding (.book b d) (some 900) []))
      (t.bu.reqs.length, t.bu.bookings.map fun c => (c.handle.toNat, c.st, c.stages.map (·.start)))) =
      [(0, [(9, .committed, [17])]), (0, [(9, .deferred, [0])]), (0, [])] ∧
    ((after (exec (.bookingRequestAging 1) { deciding (.book b false) none [] with cyc := 300000 })).bu.reqs.map (·.raised)) = [1] ∧
    ((after (exec .slotBoundary { onBk 0 0 with cyc := 128 })).ctx 0).counters.snap = 2 := by decide +kernel
/-- A message of device 3 about stage 0 of its booking 7: one slot on the memory channel group 0. -/
def bmsg : BookMsg := { job := 3, dev := 3, handle := 7, stage := 0, ecls := 2, inst := 0, cap := 1, dur := 1, lo := 100, hi := 110 }
/-- The hold of that message. -/
def hold7 : Hold := { job := 3, dev := 3, handle := 7, stage := 0, cal := 864, cap := 1, dur := 1, first := 100, last := 110, expires := 50000 }
/-- A booking here with a stage on device 3, and the exchange that places it. -/
def bkR : Booking := { bk5 with handle := 6, remote := true, stages := [{ ecls := 2, inst := 0, rmt := true, dev := 3 }] }
/-- The entry that a COMMIT at slot 105 makes of the hold. -/
def ent7 : Interval := { start := 105, len := 1, cap := 1, handle := 7, dev := 4, job := 3, stage := 0 }
/-- The exchange of `bkR`, waiting for a reply until cycle 50000. -/
def xch : Exchange := { handle := 6, req := 1, round := 1, lo := 20, place := [(0, 20)], limit := 50000 }
/-- A job's context with the Booking Unit `u`. -/
def onXch (u : BookUnit) : State := { onJob kFar [] with bu := u }
/-- `booking_exchange`: a message that fits and one that does not (its class has no free slot within the horizon's capacity); a hold alive
and one over; a reply that is expected, alone; an exchange out of time; a remote stage whose end grows. -/
theorem witness_booking_exchange :
    (∃ c, (onXch {}).bookArrival bmsg = some (0, c)) ∧ (onXch {}).bookArrival { bmsg with job := 4 } = none ∧
    (onXch {}).bookArrival { bmsg with inPort := 1 } = none ∧ (onXch {}).bu.synced = true ∧
    ((onXch {}).earliestFit 0 [] { ecls := 2, inst := 0 } 100) = some (0, 100) ∧
    ((onXch { marks := [(864, 0, 10 ^ 6)] }).slotOk 0 { ecls := 2, inst := 0 } 0 100) = false ∧
    ({ onXch { holds := [hold7] } with cyc := 100 } : State).bu.holds.find? (fun h => h.dev == 3 && h.handle == 7 && h.stage == 0 && decide (100 < h.expires)) = some hold7 ∧
    hold7.expires ≤ 50000 ∧
    (onXch { reqs := [rq (.book bkR false)], exchange := some xch }).exchanging = some (rq (.book bkR false), xch) ∧
    (onXch {}).underExchange (rq (.book bkR false)) = some bkR ∧ bkR.handle = xch.handle ∧ (xch.replies.any fun q => q.1 == 0) = false ∧
    (remoteStages bkR 0).length = 1 ∧ xch.limit ≤ 50000 ∧ bkR.stage? 0 = some { ecls := 2, inst := 0, rmt := true, dev := 3 } ∧ bkR.live = true :=
  ⟨⟨_, rfl⟩, by decide +kernel⟩
/-- R274, R275: HOLD is held and answered; COMMIT makes an entry; RELEASE and the lease free the hold; the reply commits the booking at the start named; no reply
begins the second round. -/
theorem test_booking_exchange :
    (let t := after (exec (.bookHold bmsg) (onXch {})); t.bu.holds.map (fun h => (h.first, h.last)) = [(100, 110)]) ∧
    (let t := after (exec (.bookCommit { bmsg with lo := 105 }) (onXch { holds := [hold7] })); (t.bu.holds.length, t.cal 864) = (0, [ent7])) ∧
    (after (exec (.bookRelease bmsg) (onXch { holds := [hold7] }))).bu.holds = [] ∧
    (after (exec (.bookHoldLeaseExpiry 3 7 0) { onXch { holds := [hold7] } with cyc := 50000 })).bu.holds = [] ∧
    (let t := after (exec (.bookHoldReply { bmsg with handle := 6, lo := 30, hi := 40 }) (onXch { reqs := [rq (.book bkR false)], exchange := some xch }))
     t.bu.bookings.map (fun b => (b.st, b.stages.map (·.start))) = [(.committed, [30])]) ∧
    ((after (exec (.bookReplyTimeout 6) { onXch { reqs := [rq (.book bkR false)], exchange := some xch } with cyc := 50000 })).bu.exchange.map (·.round)) = some 2 ∧
    ((after (exec (.bookEndReport { bmsg with handle := 6, hi := 25 }) (onXch { bookings := [bkR] }))).bu.bookings.map fun b => b.stages.map (·.fin)) = [[25]] := by
  decide +kernel

/-! ## Copy engines and collectives -/

/-- A packet of core 0 on engine 0: booking 5 when `b`, with `T` set when `t`. -/
def cp (b t : Bool) : CopyPkt :=
  { serial := 1, part := 0, fn := 0, core := 0, slot := 0, ser := 1, ip := 3, engine := 0, uid := 0, posted := 0
    rcd := BitVec.ofNat 512 (prec ((if b then 5 * 2 ^ 256 else 0) + (if t then 2 ^ 291 else 0) + 256 * 2 ^ 384 + 77 * 2 ^ 416)) }
/-- The entry of a stage of booking 5 in the present slot. -/
def ent5 : Interval := { start := 1, len := 1, cap := 1, handle := 5, stage := 0 }
/-- A copy stage of booking 5, placed on engine 0 in the present slot. -/
def bk7 : Booking := { bk5 with stages := [{ ecls := 1, inst := 0, start := 1, fin := 2, placed := true }] }
/-- The job's context, with packet `p` and the stage when `b`. -/
def onCp (p : CopyPkt) (b : Bool) : State :=
  { onJob kB [] with hts := [(0, { copies := [p] })]
                     bu := if b then { bookings := [bk7], cals := [(768, [ent5])] } else {} }
/-- `copy_packets`: a packet that starts booked, one that starts unbooked, and one whose bytes are moved. -/
theorem witness_copy_packets :
    (onCp (cp true false) true).packets.find? (fun p => p.serial == 1) = some (cp true false) ∧ (onCp (cp true false) true).bookedStart (cp true false) = true ∧
    (onCp (cp false false) false).bookedStart (cp false false) = false ∧
    ((onCp (cp false false) false).unbookedNext 0).map (fun x => (x.1.serial, x.2.map (·.1))) = some (1, some 0) ∧
    (let q := { cp false false with chosen := true }
     (onCp q false).unbookedNext 0 = some (q, none)) ∧
    (let q := { cp false false with withdrawn := 5, rowLimit := some 1, running := none }
     (onCp q false).rowGoesOn q = true) ∧
    (let q := { cp false false with running := some 90 }
     (onCp q false).unitDue = some q) ∧
    (match (onCp (cp false false) false).copyUnit { cp false false with rcd := BitVec.ofNat 512 (prec (2 ^ 47)) } 0 with
      | .error st => st == 3
      | .ok _ => false) = true ∧
    ({ cp false false with nextUnit := 1, doneAt := 90 } : CopyPkt).finished 100 = true ∧ ((onCp (cp false false) false).ctx 0).present = true ∧
    (cp false false).f 291 291 = 0 ∧ (cp false true).f 291 291 = 1 := by decide +kernel
/-- R219, R220, R1: the start in the booked interval and by the arbiter; 64 bytes copied; the completion word at 256 with status 0; status 2 traps with `T`. -/
theorem test_copy_packets :
    [exec (.copyPacketStart 1) (onCp (cp true false) true), exec (.copyPacketStart 1) (onCp (cp false false) false)].map
      (fun o => (after o).packets.map fun p => p.running) = [[some 101], [some 101]] ∧
    (let t := after (runEvent (.copyUnit 1) (onCp { cp false false with running := some 90 } false))
     Mem.read t.dram 0x6000 2 = 0x2211 ∧ t.packets.map (fun p => (p.nextUnit, p.running)) = [(1, none)]) ∧
    (let t := after (exec (.copyPacketComplete 1) (onCp { cp false false with nextUnit := 1, doneAt := 90 } false))
     Mem.read (t.core 0).scratch 256 8 = 2 ^ 59 + 77 ∧ t.packets = []) ∧
    (let t := after (exec (.copyPacketComplete 1) (onCp { cp false true with failed := 2, doneAt := 90 } false))
     heldIn (.next t) = [(0x22, 2)] ∧ trapped (exec (.trapEntry 0) { t with cyc := t.cyc + 1 }) = some 0x22) := by decide +kernel
/-- A block of 128 elements of format 0: sum, group 1, from 0x5000 to scratch 0x1000, record at 0x800 (R221). -/
def cblk : BitVec 1024 := BitVec.ofNat 1024 (0x5000 + 2 ^ 64 * (2 ^ 63 + 0x1000) + 128 * 2 ^ 128 + 2 ^ 208 + 0x800 * 2 ^ 384)
/-- The instance of that block at member 0 of the devices 2 and 5, begun under booking 5. -/
def cl0 : Coll :=
  { ({ tag := 2 ^ 24, members := [2, 5], me := 0, block := cblk, rcd := rI8, part := 0, fn := 0, core := 0, uid := 0, handle := 5, alg := 0 } : Coll).adopt 0 1 with
    booked := 5, started := true, copied := true, start := 1 }
/-- A task with format 0 and the block at 256 in `a1`. -/
def kCo : Task := { tk [(1, 256)] [] [] [] with fmt := [(0, ⟨rI8, rI8, rI8⟩)] }
/-- The job's context with group 1 and the instances `cs`; the Booking Unit holds the member's first step in this slot. -/
def onCo (cs : List Coll) : State :=
  { onJob kCo [] with ctxs := [(0, { farCtx [] with groups := [(1, [2, 5])] })], colls := cs, bu := { cals := [(768, [ent5])] }
                      cores := [(0, { active := some 0, slots := [(0, kCo)], scratch := Mem.write [] 256 128 cblk.toNat })] }
/-- `collective_steps`: a valid block of a group in the job; the same without its format, its job and its count; an instance whose step is due, whose other
member is lost, which is out of time, and which is done. -/
theorem witness_collective_steps :
    Issues (onCo []) (hd .C) 15 { pop := isPop (85 : BitVec 7) } (ev kCo .C (hd .C)) ∧ Readable (onCo []) (ev kCo .C (hd .C)).popped 256 128 64 ∧
    SMap.find? kCo.fmt 0 = some ⟨rI8, rI8, rI8⟩ ∧ SMap.find? kCo.fmt 1 = none ∧ ((onCo []).ctx 0).job ≠ none ∧
    SMap.get ((onCo []).ctx 0).groups [] 1 = [2, 5] ∧ (∀ d ∈ [2, 5], ((onCo []).ctx 0).inJob d = true) ∧ (∀ d ∈ [2, 5], [2, 5].count d = 1) ∧
    (onCo []).blockOk kCo cl0 = true ∧ (onCo []).blockOk kCo { cl0 with block := 0 } = false ∧ (onCo []).tableRoom 0 0 cl0.regions = true ∧
    (onCo []).frontFree 0 = true ∧ (onCo [cl0]).dueStep cl0 = some 0 ∧ (onCo [cl0]).lostMember { cl0 with members := [2, 9] } 1 = true ∧
    ({ onCo [cl0] with cyc := 64 * 70000 } : State).collTimedOut cl0 = true ∧ (onCo [cl0]).collDone { cl0 with plan := [] } = true :=
  ⟨issues_of (by decide +kernel), readable_of rfl (by decide +kernel), by decide +kernel⟩
/-- R346: stores of strands into `SBUF` at offset 4 and `RBUF` at offset 8 of a running instance, and one into neither. -/
theorem test_collective_spoil :
    (((onCo [cl0]).spoil 0 [(⟨none, 0x5004⟩, 4, 1), (⟨some 0, 0x1008⟩, 8, 1), (⟨some 0, 0xF00⟩, 8, 1)]).colls.map fun c => (c.spoilS, c.spoilR)) =
      [([(4, 4)], [(8, 8)])] := by decide +kernel
/-- The packets on the way out. -/
def cout (o : Out) : List (Nat × Nat × Nat) := ((after o).loop ++ (after o).allWaiting).map fun p => (p.ty, p.sub.toNat, p.ddev.toNat)
/-- R222, R337, R344, R349, R351, R354: the request of the coordinator, refusals; the step sends the member's chunk; the redo; the flush; the record. -/
theorem test_collective_steps :
    ((after (exec (.coll (hd .C) ⟨85, 88, 0, 0⟩) (onCo []))).colls.map fun c => (c.tag, c.members)) = [(2 ^ 24, [2, 5])] ∧
    (let o := exec (.collectiveStepStart (2 ^ 24) 0) (onCo [cl0])
     cout o = [(16, 0, 5)] ∧ ((after o).allWaiting.map fun p => (p.addr.toNat, p.payload.length)) = [(64, 64)] ∧
       ((after o).colls.map fun c => (c.queue.length, c.unacked.length)) = [(0, 1)]) ∧
    (let o := exec (.collectiveTimeout (2 ^ 24)) { onCo [cl0] with cyc := 64 * 70000 }
     cout o = [(18, 2, 5)] ∧ (after o).colls.map (fun c => c.flushed) = [some 0]) ∧
    (let t := after (exec (.collectiveComplete (2 ^ 24)) (onCo [{ cl0 with plan := [] }]))
     t.colls = [] ∧ Mem.read (t.core 0).scratch 0x800 8 = 3 ∧ Mem.read (t.core 0).scratch 0x81F 1 = 0x80) := by decide +kernel
/-- A packet of member 1 (device 5) about the instance: `n` bytes at offset `a` in step `st`. -/
def cpk (ty st a n : Nat) : Pkt := { ty := ty, job := 3, sdev := 5, ddev := 2, rqdev := 5, tag := 0x1000000, addr := BitVec.ofNat 64 a, opnd := BitVec.ofNat 64 (st + 2 ^ 16), payload := List.replicate n 2 }
/-- The same instance with its step 0 sent and not acknowledged. -/
def cl1 : Coll := { cl0 with unacked := [(0, 0, 1, 100)] }
/-- `collective_packets`: an instance that is known, one that is over and one that is to come; a step that is flushed; bytes that are expected. -/
theorem witness_collective_packets :
    (∃ x, (onCo [cl0]).arrival (cpk 16 0 0 64) = some (0, x) ∧ x.phase = .running) ∧
    (((onCo [cl0]).received 0 (cpk 16 0 0 64)).localCopy 0 (2 ^ 24)).coll? 0 (2 ^ 24) = some cl0 ∧
    (((onCo []).received 0 (cpk 16 0 0 64)).localCopy 0 (2 ^ 24)).coll? 0 (2 ^ 24) = none ∧
    SMap.get (onCo []).collCount 0 1 ≤ 0 ∧ 0 < SMap.get ({ onCo [] with collCount := [(1, 1)] } : State).collCount 0 1 ∧
    cl0.expected 0 0 1 = 64 ∧ cl0.flushed = none ∧ (onCo [cl0]).collOf (cpk 17 0 0 0) = some cl0 ∧
    cl1.unacked.filter (fun u => u.2.2.1 == 1) ≠ [] ∧ ({ cl1 with booked := 6 } : Coll).booked ≠ cl1.handle :=
  ⟨⟨_, rfl, by decide +kernel⟩, by decide +kernel⟩
/-- R345, R352: the chunk added and acknowledged, late, held; the acknowledgement. -/
theorem test_collective_data :
    (let o := exec (.cdata (cpk 16 0 0 64)) { onCo [cl0] with cores := [(0, { active := some 0, slots := [(0, kCo)], scratch := [(0x1000, 3)] })] }
     cout o = [(17, 0, 5)] ∧ Mem.read ((after o).core 0).scratch 0x1000 2 = 0x0205) ∧
    cout (exec (.cdata (cpk 16 0 0 64)) { onCo [] with collCount := [(1, 1)] }) = [(18, 3, 5)] ∧ cout (exec (.cdata (cpk 16 0 0 64)) (onCo [])) = [(18, 0, 5)] ∧
    ((after (exec (.cack { cpk 17 0 0 0 with opnd := 0 }) (onCo [cl1]))).colls.map fun c => c.unacked.length) = [0] := by decide +kernel
/-- R347 to R353: withdrawal, flush, late, NOFIT, a digest that differs, redo, a tile kept for another step. -/
theorem test_collective_notices :
    [exec (.cctlWithdraw { cpk 18 0 0 0 with opnd := 4 }) (onCo [{ cl0 with members := [5, 2, 7], me := 1 }]),
      exec (.cctlDigestMismatch { cpk 18 0 0 0 with sdev := 7 }) (onCo [{ cl0 with members := [5, 2, 7], me := 1 }]),
      exec (.cctlRedo { cpk 18 0 0 0 with opnd := 2 }) (onCo [cl0])].map (fun o => (after o).colls.map fun c => (c.fmask, c.redone)) =
      [[(4, none)], [(4, none)], [(2, some 0)]] ∧
    (after (exec (.cctlFlush (cpk 18 0 0 0)) (onCo [cl0]))).colls.map (·.flushed) = [some 0] := by decide +kernel
/-- R342, R350, R352: late, NOFIT, and a tile kept for another step. -/
theorem test_collective_returns :
    [exec (.cctlLate (cpk 18 0 0 0)) (onCo [cl1]), exec (.cctlNofit (cpk 18 0 0 0)) (onCo [{ cl0 with started := false }]),
      exec (.cctlHeld { cpk 18 0 0 0 with opnd := 0 }) (onCo [cl1])].map (fun o => (after o).colls.map fun c => (c.toldLate, c.withdrawn, c.unacked.length)) =
      [[(true, none, 0)], [(false, some 3, 0)], [(false, none, 0)]] := by decide +kernel
/-- R336, R353: a digest kept, one that agrees and one that does not. -/
theorem test_digests :
    ((after (exec (.cdig (cpk 19 0 0 0)) (onCo []))).digests.length = 1) ∧
    ((after (exec (.cdig { cpk 19 0 0 0 with opnd := 7, payload := cl0.digest }) (onCo [{ cl0 with started := false }]))).colls.map fun c => (c.started, c.booked.toNat)) = [(true, 7)] ∧
    ((after (exec (.cdig (cpk 19 0 0 0)) (onCo [{ cl0 with started := false }]))).colls.map fun c => c.withdrawn) = [some 2] := by decide +kernel

/-! ## Results, accesses, traps and the step -/

/-- The `X` result `op` has landed, and the moment of an `L` result for `v3` has come. -/
def afterX (op : FOp) : State := { after (exec (.resultLanding 7) (onFly .X op)) with flights := [res7 .L (.vector 3 8 1)] }
/-- `results_land`: the moment of each kind of result has come, in canonical spill stores and an active task. -/
theorem witness_results_land :
    ([FOp.scalar 86 9, .scalar 84 9, .scalar 118 9, .pred 2 true, .spill 116 9 8, .fil 86 8, .vector 3 9 1, .mask 77 9 1].all fun op =>
      (onFly .X op).flight? 7 == some (res7 .X op) && (onFly .X op).flightDue (res7 .X op)) = true ∧
    ((onFly .X .nop).task? 0 0).isSome = true ∧ ((onFly .X .nop).core 0).active = some 0 ∧ (tk [] [] [] []).sX.spill.wf = true ∧
    SMap.find? ((afterX (.vector 3 9 1)).core 0).xLanded 3 = some (afterX (.vector 3 9 1)).cyc ∧
    (afterX (.vector 3 9 1)).flightDue (res7 .L (.vector 3 8 1)) = true := by decide +kernel
/-- R16, R18, R19, R25, R49, R105, R115: a register, `a0`, a queue, predicates with `p0`, the spill store, a vector lane and `r0`, a mask bit. -/
theorem test_results_land :
    (let k (op : FOp) : Task := tsk (exec (.resultLanding 7) (onFly .X op))
     (k (.scalar 86 9)).sX.reg 2 = 9 ∧ (k (.scalar 84 9)).sX.reg 0 = 0 ∧ (k (.scalar 118 9)).queue 1 = [9] ∧
       (k (.pred 2 true)).sX.pred 2 = true ∧ (k (.pred 0 false)).sX.pred 0 = true ∧ Mem.read (k (.spill 116 9 8)).sX.spill 8 8 = 9) ∧
    (let c (op : FOp) : Core := (after (exec (.resultLanding 7) (onFly .X op))).core 0
     lane ((c (.vector 3 0x100000009 1)).vreg 3) 0 = 9 ∧ lane ((c (.vector 3 0x100000009 1)).vreg 3) 1 = 0 ∧ lane ((c (.vector 3 9 1)).vreg 72) 0 = 9 ∧
       (c (.mask 77 0 1)).mreg 1 = 0xFFFFFFFFFFFFFFFE) ∧
    (let l (s : State) : Lane := lane ((after (exec (.resultLanding 7) s)).core 0 |>.vreg 3) 0
     l (afterX (.vector 3 9 1)) = 9 ∧ l { afterX (.vector 3 9 1) with cyc := 101 } = 8 ∧ l (afterX (.mask 77 9 1)) = 8) := by decide +kernel
/-- A piece of 4 bytes at scratch address 64. -/
def pc4 : Piece := ⟨⟨some 0, 64⟩, 4, 0, 64⟩
/-- The same state with the bytes 0xFE at 64, poisoned when `p`. -/
def onAcc (op : FOp) (p : Bool) : State :=
  { onFly .C op with cores := [(0, { active := some 0, slots := [(0, tk [(1, 5)] [] [] [])], scratch := [(64, 0xFE)], poison := if p then NSet.add [] 8 else [] })] }
/-- `accesses_perform`: memories in canonical form; a word that is poisoned and one that is not; an atomic that writes and one that does not. -/
theorem witness_accesses_perform :
    ([FOp.storeSrc 85 [pc4], .store [(⟨some 0, 64⟩, 4, 9)], .load 86 [pc4] 4 true, .atomic 0 pc4 1 0 86, .cntSrc 0 0 64, .cntStore 0 64 9,
      .mxStore [(⟨some 0, 64⟩, 4, 9)]].all fun op =>
      (onAcc op false).flight? 7 == some (res7 .C op) && (onAcc op false).flightDue (res7 .C op) && (onAcc op false).memOk) = true ∧
    pc4.off = 0 ∧ (onAcc .nop false).isPoisoned pc4.loc 4 = false ∧ (onAcc .nop true).isPoisoned pc4.loc 4 = true ∧
    atomicWrites 0 0xFE 0 = true ∧ atomicWrites 9 0xFE 3 = false ∧ (onAcc .nop false).inBarrier (⟨some 0, 64⟩, 4, 9) = false ∧
    ((onAcc .nop false).updCore 0 fun c => { c with bars := [64] }).inBarrier (⟨some 0, 64⟩, 4, 9) = true := by decide +kernel
/-- R49, R137, R170, R172, R173: the source taken at its moment, the bytes written, a load of one byte with its sign, an atomic add, and a poisoned load. -/
theorem test_accesses_perform :
    (let t := after (exec (.resultLanding 7) (onAcc (.storeSrc 85 [pc4]) false))
     ((t.flight? 7).map fun f => match f.op with
       | .store ps => ps.map fun p => p.2.2
       | _ => []) = some [5]) ∧
    Mem.read ((after (exec (.storePerform 7) (onAcc (.store [(⟨some 0, 64⟩, 4, 9)]) false))).core 0).scratch 64 4 = 9 ∧
    (tsk (exec (.resultLanding 7) (onAcc (.load 86 [⟨⟨some 0, 64⟩, 1, 0, 64⟩] 1 true) false))).sC.reg 2 = BitVec.ofInt 64 (-2) ∧
    (let o := exec (.resultLanding 7) (onAcc (.atomic 0 pc4 3 0 86) false)
     (tsk o).sC.reg 2 = 0xFE ∧ Mem.read ((after o).core 0).scratch 64 4 = 0x101) ∧
    trapped (exec (.resultLanding 7) (onAcc (.load 86 [pc4] 4 true) true)) = some 0x0C := by decide +kernel
/-- `issue_frame`, `issue_conditions`: a strand that may go on at a word of its own and at another's; each thing that makes it wait. -/
theorem witness_issue :
    (on (tk [] [] [] []) .C).task? 0 0 = some (tk [] [] [] []) ∧ (on (tk [] [] [] []) .C).env? (hd .C) = some (ev (tk [] [] [] []) .C (hd .C)) ∧
    (ev (tk [] [] [] []) .C (hd .C)).live = true ∧ (ev (tk [] [] [] []) .C (hd .C)).windowOpen = true ∧ (ev (tk [] [] [] []) .C (hd .L)).t ≠ (hd .L).str ∧
    (ev (tk [] [] [] []) .L { hd .L with tok := 8 }).tokensReady 100 = false ∧ (ev (tk [] [] [] []) .C { hd .C with pn := true }).predicate = false ∧
    (tk [] [] [] []).queue 0 = [] ∧
    (on { tk [] [] [] [] with sq := [(1, List.replicate 16 0)] } .C).pushRoom (ev { tk [] [] [] [] with sq := [(1, List.replicate 16 0)] } .C (hd .C)) 1 = false := by
  decide +kernel
/-- R13, R25, R42, R51: a word of another strand skipped, Illegal Distance, a wait for a token and for a queue, and a word without effect. -/
theorem test_issue_conditions :
    (let o := exec (.add (hd .L) ⟨85, 86, 87, 0, 0⟩) (on (tk [] [] [] []) .C)
     ((tsk o).sC.ip, (tsk o).sC.wc, (after o).turn, (after o).flights.length) = (4, 1, 0, 0)) ∧
    trapped (exec (.add (hdD .C 0) ⟨85, 86, 87, 0, 0⟩) (on (tk [] [] [] []) .C)) = some 2 ∧
    ([Instr.add { hd .L with tok := 8 } ⟨85, 86, 87, 0, 0⟩, .add (hd .L) ⟨85, 116, 87, 0, 0⟩].map fun i =>
      let o := exec i (on (tk [] [] [] []) .L)
      ((tsk o).sL.ip, (after o).turn)) = [(3, 2), (3, 2)] ∧
    (let o := exec (.add { hd .C with pn := true } ⟨85, 86, 87, 0, 0⟩) (on (tk [] [] [] []) .C)
     ((tsk o).sC.ip, (after o).turn, fly o) = (4, 1, none)) := by decide +kernel
/-- A trap that waits for the entry, in a task whose handler is at 0x2000 and whose `qC` holds 9. -/
def kTrap : Task := { tk [(1, 5)] [] [] [] with tvec := 0x2000, sq := [(0, [9])], trap := some { cause := 3, faddr := 77, ip := 3, strand := .L } }
/-- The same task in its handler. -/
def kIn : Task := (tsk (exec (.trapEntry 0) (on kTrap .C)))
/-- `trap_entry_and_return`: a trap ready to be entered, a task in its handler, and one with a load in flight. -/
theorem witness_trap :
    (on kTrap .C).trapReady 0 = some (0, { cause := 3, faddr := 77, ip := 3, strand := .L }) ∧ kTrap.sC.spill.wf = true ∧ kIn.handler.isSome = true ∧
    (let s := on { tk [] [] [] [] with held := [{ cause := 0x20, prec := 1 }] } .C
     s.trapReady 0 = none ∧ s.heldReady 0 = some (0, { cause := 0x20, prec := 1 }, [])) ∧
    kIn.held = [] ∧ (tk [] [] [] []).ending = none ∧ (onFly .C (.load 86 [pc4] 4 true)).drained 0 0 = false ∧ (onFly .C .nop).drained 1 0 = true ∧
    ((onFly .C .nop).flights.any fun f => match f.op with
      | .barWait _ _ _ _ => true
      | _ => false) = false := by decide +kernel
/-- R386, R388, R390, R391: the record, `TVEC`, the queues set aside; the return; a trap that waits for a load; Double Fault. -/
theorem test_trap :
    [kIn.sC.ip, kIn.sL.ip, kIn.sq.length, (kIn.sC.reg 1).toNat, Mem.read kIn.sC.spill 4032 2, Mem.read kIn.sC.spill 4080 8, Mem.read kIn.sC.spill 4072 4] = [0x2000, 0x2000, 0, 5, 3, 77, 3] ∧
    (let k := ((on kIn .C).leaveTrap 0 0).task? 0 0
     k.map (fun k => (k.handler.isSome, k.queue 0, k.sC.ip, k.sL.ip)) = some (false, [9], 3, 3)) ∧
    (let o := exec (.add (hdD .C 0) ⟨85, 86, 87, 0, 0⟩) (onFly .C (.load 86 [pc4] 4 true))
     ((tsk o).handler.isSome, (tsk o).trap.isSome, (tsk o).sC.ip) = (false, true, 3)) ∧
    (tsk (exec (.add (hdD .C 0) ⟨85, 86, 87, 0, 0⟩) (on { kIn with sC := { ip := 3 } } .C))).ending.map (·.cause) = some 0x31 := by decide +kernel
/-- The state of reset with the word `w` where the first step fetches. -/
def first (w : Nat) : State := State.reset.withFetchWord 80 w
/-- `step_runs_the_decoded_word`: an agenda, a due step, a strand that goes on at a word that decodes and at one that does not, and none. -/
theorem witness_step :
    ({ State.reset with agenda := [.bookingDecide] } : State).agenda = [.bookingDecide] ∧ dueEvent { onFly .C .nop with turn := 0 } = some (.flight 7) ∧
    (first 0x00000020000000000000).agenda = [] ∧ dueEvent (first 0x00000020000000000000) = none ∧ nextReady 0 State.reset.cores = none ∧
    (nextReady 0 (first 0x00000020000000000000).cores).map (fun x => (x.1, x.2.1)) = some (0, 0) ∧
    (match Dec.word (BitVec.ofNat 80 0x00000020000000000000) with
      | .ok i => decide (i = .nop (hdD .C 0) ⟨0, 0, 0, 0⟩)
      | .error _ => false) = true ∧
    (match Dec.word 0 with
      | .ok _ => false
      | .error _ => true) = true ∧ (Dec.hdr 0).str = .C ∧
    (let k := tk [] [] [] []
     let s := first 0x00000020000000000000
     (k.wordPlaces 30).map (·.length) = some 10 ∧ k.wordPlaces 0x1000000 = none ∧
       (({ s with dramPoison := [0] } : State).isPoisoned ⟨none, 0⟩ 1) = true ∧ SMap.find? (s.core 0).icache 0 = none) := by decide +kernel
/-- R56, R59: the padding word passes; a word of zeros is Illegal Encoding at the strand that it names; without a task the cycle ends. -/
theorem test_step :
    (tsk (step (first 0x00000020000000000000))).sC.ip = 1 ∧ trapped (step (first 0)) = some 1 ∧ (after (step State.reset)).cyc = 1 := by decide +kernel

/-! ## Tasks and contexts -/

/-- A runnable task with one page of lease, not active. -/
def kR : Task := { tk [(1, 5)] [] [] [] with st := .runnable, fresh := false }
/-- Core 0 with the tasks `ks` in its slots from 0 on, the active one, its deque, and core 1's. -/
def onSch (ks : List Task) (act : Option Nat) (d0 d1 : List DqEntry) : State :=
  { onJob (tk [] [] [] []) [] with cyc := 112
                                   cores := [(0, { active := act, slots := (List.range ks.length).zip ks, deque := d0, prefetch := if (ks.any fun k => match k.st with
                                     | .prefetching _ _ _ => true
                                     | _ => false) then some 0 else none }), (1, { deque := d1 })] }
/-- A booking of the context whose stage is due in this slot. -/
def bkDue : Booking := { bk5 with stages := [{ ecls := 0, inst := 0, start := 1, fin := 3, placed := true }] }
/-- A task of that booking, runnable. -/
def kDue : Task := { kR with bhnd := 5 }
/-- `task_scheduler_steps`, the core's steps: an eligible entry, a prefetch complete and one that waits, a task out of time, a chosen task, one that ages, an
entry to steal. -/
theorem witness_scheduler_steps :
    ((onSch [] none [dent 9] []).prefetchNext 0).map (·.1) = some 0 ∧ recf (dent 9).rcd 230 230 = 0 ∧
    (let s := onSch [{ kR with st := .prefetching 100 50 false }] none [] []
     s.prefetchReady 0 = true ∧ (s.prefetching? 0).map (fun x => (x.1, x.2.2.1)) = some (0, 100)) ∧
    (let s := onSch [{ kR with st := .prefetching 0 50 false }] none [] []
     s.prefetchReady 0 = true ∧ (s.prefetching? 0).map (fun x => (x.1, x.2.2.1)) = some (0, 0)) ∧
    (({ onSch [{ kR with leaseWait := some 0 }] none [] [] with cyc := 65536 * 64 }).leaseExpired 0).isSome = true ∧
    ((onSch [kR] none [] []).activeNext 0).map (·.1) = some 0 ∧ kR.owed = none ∧ kR.held = [] ∧
    min 31 (recf kR.rcd 228 224 + kR.boost) < min 31 (recf kR.rcd 228 224 + (300000 - kR.agedFrom) / 262144) ∧
    ((onSch [] none [] [dent 9]).stealNext 0).map (·.1) = some 1 := by decide +kernel
/-- The same, for one task: each kind of wake, a due booking, an end. -/
theorem witness_task_steps :
    (onSch [] none [] []).wakeReady { kR with st := .parked .now } = true ∧ ((onSch [] none [] []).ctx kR.key).phase = .running ∧
    (onSch [] none [] []).wakeReady { kR with st := .parked (.windowDone 5 1 4) } = true ∧ (onSch [] none [] []).wakeReady { kR with st := .parked (.farFault 3 64) } = true ∧
    ({ onSch [kDue, { kR with st := .active }] (some 1) [] [] with bu := { bookings := [bkDue] } }).dueNow 0 0 = some 1 ∧
    (onSch [kDue, { kR with st := .active }] (some 1) [] []).drained 0 1 = true ∧
    (onSch [{ kR with ending := some { cause := 0x30, faddr := 0, ip := 0 } }] none [] []).faultDrained 0 0 = true := by decide +kernel
/-- A walker record, and a task of it (R227). -/
def dwalk : DqEntry := { dent 9 with rcd := BitVec.ofNat 256 (trec 9 + 2 ^ 230) }
def kWalk : Task := { kR with rcd := dwalk.rcd }
/-- The same for walkers, and the wakes that are left: a walker's entry, its first activation, its continuation come and the booking cancelled meanwhile,
a gate wait whose condition holds. -/
theorem witness_walker_steps :
    ((onSch [] none [dwalk] []).prefetchNext 0).map (·.1) = some 0 ∧ recf dwalk.rcd 230 230 = 1 ∧
    ((onSch [{ kWalk with fresh := true }] none [] []).activeNext 0).map (·.1) = some 0 ∧
    ([{ kR with st := .parked (.gateReady 3 4 none) }, { kWalk with st := .parked (.stage 100) },
      { kWalk with st := .parked (.stage 200), cancelled := true }].map fun k => (onSch [] none [] []).wakeReady k) = [true, true, true] := by decide +kernel
/-- R34, R288 to R290, R294: a prefetch started with the record's argument in `a1`, completed; a task made active; aged; an entry moved. -/
theorem test_scheduler_steps :
    (let o := exec (.prefetchStart 0) (onSch [] none [dent 9] [])
     (tsk o).sC.reg 1 = 9 ∧ ((after o).core 0).deque = [] ∧ ((after o).core 0).prefetch = some 0) ∧
    (tsk (exec (.prefetchComplete 0) (onSch [{ kR with st := .prefetching 100 50 false }] none [] []))).st = .runnable ∧
    (let o := exec (.taskActivate 0) (onSch [{ kR with fresh := true }] none [] [])
     ((after o).core 0).active = some 0 ∧ (tsk o).st = .active ∧ ((after o).core 0).mreg 1 = BitVec.allOnes 64) ∧
    (tsk (exec (.priorityAging 0 0) { onSch [kR] none [] [] with cyc := 300000 })).boost = 1 ∧
    (let t := after (exec (.autoSteal 0) (onSch [] none [] [dent 9]))
     ((t.core 0).deque.map (·.stolen), (t.core 1).deque.length) = ([true], 0)) := by decide +kernel
/-- R191, R292, R293, R307: wakes with their result or fault; Booking Due and a lease out of time. -/
theorem test_task_steps :
    (let k (w : Wake) : Task := tsk (exec (.taskWake 0 0) (onSch [{ kR with st := .parked w }] none [] []))
     (k .now).st = .runnable ∧ (k (.windowDone 5 6 4)).sC.reg 4 = 6 ∧ (k (.farFault 3 64)).owed.map (fun i => (i.cause, i.estat)) = some (0x0B, 0x300)) ∧
    (let t := after (exec (.bookingDue 0 0) { onSch [kDue, { kR with st := .active }] (some 1) [] [] with bu := { bookings := [bkDue] } })
     (t.task? 0 0).map (·.dueRaised) = some true) ∧
    (tsk (exec (.leasePendingTimeout 0) { onSch [{ kR with leaseWait := some 0 }] none [] [] with cyc := 65536 * 64 })).ending.map (·.cause) = some 0x30 := by decide +kernel
/-- The context in phase `p`, with a task active on core 0; its area is at 2 MiB, mapped to itself. -/
def onCtx (p : CtxPhase) (k : Task) (sv : BitVec 128 := 0) : State :=
  { onJob k [] with host := [(1, {})], parts := [(0, ⟨1, 1, 1, 0, 0⟩)], lastFn := 0
                    ctxs := [(0, { farCtx [] with phase := p, s2 := [(0, { pfn := 0, w := true }), (1, { pfn := 1, w := true })], sealVal := sv
                                                  image := some ⟨0, 0x200000, 0, 0, 0, 0x1000, 0, 0⟩ })] }
/-- `context_steps`: a context that may be stopped, one whose task is out of budget, one that is saved, and one that is restored, with its seal and without. -/
theorem witness_context_steps :
    ((onCtx .running kR).sliceEnds 0 2 = true ∧ 0 ∈ (onCtx .running kR).ctxCores 0 ∧ (onCtx .running kR).drained 0 0 = true) ∧
    ((onCtx (.saving 1) { kR with budgetEnd := some 50 }).forcedNow 0).map (·.1) = some 0 ∧
    ({ onCtx (.saving 1) kR with cores := [] }).saveReady 0 = some 1 ∧ (onCtx (.saved 0) kR).restoreReady 0 = true ∧
    (onCtx (.saved 0) kR).keysOfFn 2 = [] ∧ (onCtx (.saved 0) kR).keysOfFn 0 = [0] ∧ (onCtx (.saved 0) kR).stopping 0 = false ∧
    (onCtx (.saving 1) kR).stopping 0 = false := by decide +kernel
/-- The same for the rest: no word of the stopped task in flight; a start that waits and a first core that is empty; an area that is poisoned; a
function that a stop keeps busy. -/
theorem witness_context_starts :
    (onCtx (.saving 1) kR).flights.any (fun f => f.ofTask 0 0) = false ∧
    (let s := onCtx (.saved 0) kR
     let t : State := { s with cores := [], ctxs := s.ctxs.map fun x => (x.1, { x.2 with startAs := some 3 }) }
     t.restoreReady 0 = true ∧ (t.ctx 0).startAs = some 3 ∧ (t.ctxCores 0).head? = some 0 ∧ (t.core 0).slots = []) ∧
    (let s : State := { onCtx (.saved 0) kR with dramPoison := [0x8000] }
     s.restoreReady 0 = true ∧ s.areaFault 0 [] = some 1) ∧
    ({ onCtx (.saving 1) kR with ctxs := [(0, { (farCtx []) with stopper := some (0, 7) })] } : State).stopping 0 = true := by decide +kernel
/-- A saved context whose area nothing is mapped for, with the seal over it. -/
def sealed : State := { onCtx (.saved 0) kR with ctxs := [(0, { farCtx [] with phase := .saved 0, s2 := [], sealVal := Config.sealOf 0 [] })] }
/-- A seal that agrees. -/
theorem witness_restore : (sealed.ctx 0).startAs = none ∧
    sealed.areaFault 0 (sealed.guestBytes 0 (sealed.saveBase 0) (65536 + (sealed.ctxCores 0).length * 2097152)) = none := by
  refine ⟨by decide +kernel, ?_⟩
  have e : sealed.sealNow 0 0 = Config.sealOf 0 [] := by
    have : sealed.guestBytes 0 (sealed.saveBase 0) (saveLen (sealed.ctxCores 0).length) = [] := by decide +kernel
    exact congrArg (Config.sealOf 0) this
  unfold State.areaFault
  rw [if_neg (by decide +kernel), if_neg (fun h => h.elim (fun h => h (by decide +kernel)) fun h => h (e.trans rfl))]
/-- R363 to R365, R400: stopped in its handler; frozen; a reset function's context. -/
theorem test_context_steps :
    (let t := after (exec (.sliceEnd 0 0 2) (onCtx .running { kR with st := .active }))
     (t.ctx 0).phase = .saving 2 ∧ (t.task? 0 0).map (·.handler.isSome) = some true) ∧
    ((after (exec (.forcedSave 0) (onCtx (.saving 1) { kR with budgetEnd := some 50 }))).core 0).quiet = true ∧
    (let t := after (exec (.functionLevelReset 0) (onCtx (.saved 0) kR))
     (t.ctx 0).phase = .created ∧ (t.ctx 0).image = none) ∧
    ((after (exec (.d3hotEntry 0) (onCtx (.saved 0) kR))).ctx 0).phase = .saved 1 := by decide +kernel

/-! ## The host, power and firmware -/

/-- Partition 0 of granule 0 with function 1 alone, and its context `c`; the first two frames are mapped to themselves. -/
def onFn (c : Context := { farCtx [] with s2 := [(0, { pfn := 0, w := true }), (1, { pfn := 1, w := false })] }) : State :=
  { State.reset with cyc := 100, parts := [(0, ⟨1, 1, 1, 0, 0⟩)], ctxs := [(1, c)], dram := tables }
/-- `host_accesses`: a function with a context and one without; bytes that may be written, bytes that may only be read, and bytes that are not mapped. -/
theorem witness_host_accesses :
    onFn.mgmt.power = .ready ∧ onFn.ctxOfFn 1 = some 1 ∧ onFn.ctxOfFn 2 = none ∧ 1 ≠ 0 ∧ 0x5001 % 8 ≠ 0 ∧ (onFn.walk2 1 0x5000).map (fun x => (x.1, x.2.w)) = some (0x5000, true) ∧
    (onFn.walk2 1 0x200000).map (·.2.w) = some false ∧ onFn.walk2 1 0x400000 = none ∧ onFn.dram.wf = true ∧
    hostOpFields (.fetchAdd true 3) = (0, 8, 3, 0) ∧ onFn.isPoisoned ⟨none, 0x5000⟩ 8 = false ∧
    ({ onFn with dramPoison := [0x140] } : State).isPoisoned ⟨none, 0x5000⟩ 8 = true := by decide +kernel
/-- The newest completion sent to the host. -/
def told (o : Out) : Option (Bool × Bool × List Nat) := ((after o).hostOut.getLast?).map fun r => (r.ok, r.poisoned, r.bytes.map BitVec.toNat)
/-- R396, R397, R399, R403: read, unsupported, written, discarded, an AtomicOp, one on a poisoned location, descriptors submitted, entries freed. -/
theorem test_host_accesses :
    [told (exec (.hostBar2Read 1 0x5000 2) onFn), told (exec (.hostBar2Read 1 0x400000 2) onFn), told (exec (.hostBar2Read 2 0x5000 2) onFn)] =
      [some (true, false, [0x11, 0x22]), some (false, false, []), some (false, false, [])] ∧
    Mem.read (after (exec (.hostBar2Write 1 0x5000 [7]) onFn)).dram 0x5000 2 = 0x2207 ∧
    (after (exec (.hostBar2Write 1 0x200000 [7]) onFn)).dram = tables ∧
    (let o := exec (.hostAtomicOp 1 0x5000 (.fetchAdd false 1)) onFn
     told o = some (true, false, [0x11, 0x22, 0, 0]) ∧ Mem.read (after o).dram 0x5000 2 = 0x2212) ∧
    told (exec (.hostAtomicOp 1 0x5000 (.swap false 1)) { onFn with dramPoison := [0x140] }) = some (true, true, [0x11, 0x22, 0, 0]) ∧
    ((after (exec (.cqtail 1 1 [⟨1, 0x0020, 7, 0⟩]) onFn)).fnOf 1).queue.length = 1 ∧
    ((after (exec (.evhead 1 1) { onFn with host := [(1, { ring := [⟨1, 0, 1, 0, 0, 0⟩], evtail := 1 })] })).fnOf 1).ring = [] := by decide +kernel
/-- R397: the physical function has no BAR2; a poisoned line is read with its indication. -/
theorem test_host_windows :
    told (exec (.hostBar2Read 0 0x5000 2) { onFn with parts := [(0, ⟨1, 0, 0, 0, 0⟩)], ctxs := [(0, farCtx [])] }) = some (false, false, []) ∧
    told (exec (.hostBar2Read 1 0x5000 2) { onFn with dramPoison := [0x140] }) = some (true, true, [0x11, 0x22]) := by decide +kernel
/-- R398, R399: the first header of a list, that of the next record, and `CQTAIL` read back. -/
theorem test_bar0 :
    (List.range 16).map (fun i => (onFn.bar0 1 i).map BitVec.toNat) =
      [some 1, some 0, some 1, some 0, some 48, some 0, some 0, some 0, some 24, some 0, some 0, some 0, some 0, some 0, some 0, some 0] ∧
    (onFn.bar0 1 48).map BitVec.toNat = some 3 ∧ (onFn.bar0 0 48).map BitVec.toNat = some 2 ∧
    (({ onFn with host := [(1, { tail := 5 })] } : State).bar0 1 0x2000).map BitVec.toNat = some 5 := by decide +kernel
/-- `power_and_errors`: room in the ring; a context with an image and none; a core without a partition and one with; a frame that no context maps and one
that a context maps and nothing pins. -/
theorem witness_power_and_errors :
    ((onFn.fnOf 0).evtail - (onFn.fnOf 0).evhead < 256) ∧ SMap.find? onFn.ctxs (ctxKey 0 2) = none ∧ (SMap.find? onFn.ctxs (ctxKey 0 1)).isSome = true ∧
    (farCtx []).phase = .running ∧ (farCtx []).image.isSome = true ∧ onFn.partOf 20 = none ∧ onFn.partOf 0 = some 0 ∧ onFn.keyOfCore 0 0 = 1 ∧
    onFn.frameOwner 9 = none ∧ onFn.frameHeld 9 = false ∧ onFn.frameOwner 1 = some (1, 1) ∧ onFn.pins 1 = 0 ∧ 1 ∉ onFn.mgmt.retired ∧ (onFn.platformFrame 0).isSome = true ∧
    ({ onFn with mgmt := { power := .off } } : State).mgmt.power ≠ .ready ∧ 10 ≤ ({ onFn with mgmt := { overMs := 10 } } : State).mgmt.overMs ∧
    849984 % (64 * 13281) = 0 ∧ ({ onFn with cyc := 849984 } : State).mgmt.energySlot ≠ 849984 / 64 + 1 ∧ onFn.ctxs.Pairwise (fun a b => a.1 < b.1) ∧
    (64 * 0x9000000 / 2097152) % 5120 < 5088 ∧ onFn.frameOwner (64 * 0x9000000 / 2097152) = none ∧ 5088 ≤ (64 * 167116800 / 2097152) % 5120 ∧
    onFn.frameHeld 0 = true ∧ ({ onFn with mgmt := { retired := (List.range 32).map (5088 + ·) } } : State).platformFrame 0 = none := by decide +kernel
/-- R313, R314, R394, R406 to R409: the cap, a scrub, a retired frame, power, and the management port's answers. -/
theorem test_power_and_errors :
    (let t := after (exec (.scrub (.scratchWord 0 8 false)) onFn); (t.ctx 1).cecnt = 1) ∧
    (after (exec (.scrub (.dramLine 0x9000000 true)) onFn)).dramPoison = [0x9000000] ∧
    (let t := after (exec (.frameRetire 1) onFn); t.mgmt.retired = [1] ∧ (SMap.find? (t.ctx 1).s2 1).map (·.pfn) ≠ some 1) ∧
    (let t := after (exec .powerLoss onFn); (t.mgmt.power, t.ctxs.length) = (.off, 0)) ∧
    (let t := after (exec (.fjarlosPowerCapSet 1200) onFn); (t.mgmt.cap, t.mgmt.replies) = (1200, [(2, [0])])) ∧
    (let t := after (exec (.fjarlosPowerCapSet 1199) onFn); (t.mgmt.cap, t.mgmt.replies) = (1900, [(2, [1])])) := by decide +kernel
/-- R383, R407: a limit after ten milliseconds above the cap, lifted after a hundred below it; a fifth millisecond in a row above it. -/
theorem test_power_limits :
    (after (exec (.powerCapLimit 500) { onFn with bu := { limit := some 400 }, mgmt := { overMs := 10 } })).bu.limit = some 400 ∧
    (after (exec .powerCapLift { onFn with bu := { limit := some 400 }, mgmt := { underMs := 100 } })).bu.limit = none ∧
    ([exec (.powerCapLimit 500) onFn, exec .powerCapLift onFn, exec (.energyReconcile 9 1) onFn].all fun o => match o with
      | .fault .noSuchStep => true
      | _ => false) = true ∧
    (let t := after (exec (.energyReconcile 1900001 1) { onFn with cyc := 849984, ctxs := [], mgmt := { overMs := 4, energySlot := 1 } })
     (t.mgmt.overMs, t.mgmt.underMs, t.mgmt.energySlot) = (5, 0, 13282)) := by decide +kernel
/-- Operand bytes: first byte and value. -/
def opnd (xs : List (Nat × Nat)) : BitVec 384 := BitVec.ofNat 384 (xs.foldl (fun n x => n + 2 ^ (8 * x.1) * x.2) 0)
/-- A descriptor of function `f` with code `c`. -/
def dsc (f c : Nat) (xs : List (Nat × Nat)) : Desc := ⟨f, BitVec.ofNat 16 c, 7, opnd xs⟩
/-- The state in which firmware takes `d` next. -/
def asks (d : Desc) (s : State := onFn) : State := { s with host := [(d.fn, { queue := [d] })] }
/-- The conditions together. -/
theorem takes_of {s : State} {fn : Nat} {d : Desc} {vf r : Bool} {used : List (Nat × Nat)}
    (w : s.nextDesc = some (fn, d) ∧ s.mgmt.power = .ready ∧ (fn = 0 ∨ vf = true) ∧ (s.mgmt.recovery = false ∨ (r = true ∧ fn = 0)) ∧ unusedZero d used = true) :
    Takes s fn d vf r used := ⟨w.1, w.2.1, w.2.2.1, w.2.2.2.1, w.2.2.2.2⟩
/-- `command_refusals`: a virtual function's descriptor, recovery, and an unused byte that is set. -/
theorem witness_command_refusals :
    (asks (dsc 1 0x0001 [])).nextDesc = some (1, dsc 1 0x0001 []) ∧ ({ asks (dsc 0 0x0001 []) with mgmt := { recovery := true } } : State).mgmt.recovery = true ∧
    unusedZero (dsc 0 1 [(47, 1)]) [(0, 9), (10, 2)] = false := by decide +kernel
/-- The status and value with which the newest command of function 0 ended, and the partitions and contexts after it. -/
def ended (o : Out) : Option (Nat × Nat) := (((after o).fnOf 0).done.getLast?).map fun x => (x.2.1, x.2.2)
/-- Partitions on granule 0 (function 1), and on granules 1 and 2 (function 2). -/
def onTwo : State := { onFn with parts := [(0, ⟨1, 1, 1, 0, 0⟩), (1, ⟨6, 2, 2, 0, 0⟩)] }
/-- `partition_commands`: each command with operands that it carries out, and the cases of its refusals. -/
theorem witness_partition_commands :
    Takes (asks (dsc 0 1 [(0, 2), (6, 2)])) 0 (dsc 0 1 [(0, 2), (6, 2)]) false false [(0, 9), (10, 2)] ∧ (∀ q ∈ onFn.parts, q.2.gmask &&& 2 = 0) ∧
    onFn.ctxOfFn 2 = none ∧ SMap.find? onFn.parts 1 = none ∧
    Takes (asks (dsc 0 2 [])) 0 (dsc 0 2 []) false false [(0, 1)] ∧ (∀ c ∈ ({ onFn with ctxs := [(1, { phase := .created })] } : State).ctxs, c.1 / 128 = 0 → c.2.stopped = true) ∧
    Takes (asks (dsc 0 3 [(0, 1), (1, 1)]) onTwo) 0 (dsc 0 3 [(0, 1), (1, 1)]) false false [(0, 3)] ∧ onTwo.drainedOn 1 1 = true ∧ onTwo.drainedOn 0 1 = true ∧
    onTwo.ctxsOf 1 = [] ∧ (6 : Nat).testBit 1 = true ∧ onTwo.ctxs.Pairwise (fun x y => x.1 < y.1) ∧
    (704 + (100 + 63) / 64 ≤ 64 * 32 ∧ 704 + (100 + 63) / 64 ≤ 4096 - 64 * 32) ∧ ¬ (704 + (100 + 63) / 64 ≤ 64 * 11) ∧
    onFn.untouched { pfn := 0, w := true } = false ∧ onFn.untouched { pfn := 1, w := true } = true := by
  refine ⟨takes_of (by decide +kernel), by decide +kernel, by decide +kernel, by decide +kernel, takes_of (by decide +kernel), by decide +kernel,
    takes_of (by decide +kernel), by decide +kernel⟩
/-- The rest of them: a weight, an image, a gate, a route table, a group and a job. -/
theorem witness_more_commands :
    (asks (dsc 0 4 [(1, 1), (3, 5)])).ctxArg (dsc 0 4 [(1, 1), (3, 5)]) 0 = some 1 ∧ onFn.ctxArg (dsc 0 4 [(1, 2)]) 0 = none ∧
    Takes (asks (dsc 0 4 [(1, 1), (3, 5)])) 0 (dsc 0 4 [(1, 1), (3, 5)]) false false [(0, 4)] ∧
    Takes (asks (dsc 0 0x10 [(1, 1), (16, 0x6000), (24, 4)])) 0 (dsc 0 0x10 [(1, 1), (16, 0x6000), (24, 4)]) true false [(0, 2), (8, 24)] ∧
    reqOk (reqBody (dsc 1 0x11 [(2, 3), (8, 2 ^ 31 + 1)])) = true ∧ aclKeys (reqAcl (reqBody (dsc 1 0x11 [(2, 3), (8, 2 ^ 31 + 1)]))) = [1] ∧
    Takes (asks (dsc 1 0x11 [(2, 3), (8, 2 ^ 31 + 1)])) 1 (dsc 1 0x11 [(2, 3), (8, 2 ^ 31 + 1)]) true false [(0, 5), (6, 34)] ∧
    onFn.jobCtxs 3 = [1] ∧ onFn.jobCtxs 4 = [] ∧ (fld 0x4000000000000000 61 36 = 0 ∧ (0x4000000000000000 : Nat).testBit 63 = false) ∧
    (1 ≤ fld 0x8000000200000021 35 32 ∧ fld 0x8000000200000021 31 0 < 16 ^ fld 0x8000000200000021 35 32) ∧ fld 0x8000000000000000 35 32 < 1 ∧
    onFn.bindClash 1 ⟨3, 2, 1, 1⟩ = false ∧ onFn.bindClash 1 ⟨4, 2, 1, 1⟩ = true ∧ onFn.windowFrame 1 0 = some 0 ∧
    (onFn.windowFrame 1 1).isSome = true ∧ ({ onFn with parts := [] } : State).windowFrame 1 1 = none := by
  refine ⟨by decide +kernel, by decide +kernel, takes_of (by decide +kernel), takes_of (by decide +kernel), by decide +kernel, by decide +kernel,
    takes_of (by decide +kernel), by decide +kernel⟩
/-- A context of function 1 in phase `p`, with 2 MiB mapped, the debugger when `g`. -/
def onPhase (p : CtxPhase) (g : Bool := false) : State :=
  onFn { farCtx [] with phase := p, debugger := g, s2 := [(0, { pfn := 0, w := true })] }
/-- R399 to R401: status and value: Denied, Wrong state in recovery, an unused byte, a partition made, one that clashes, destroyed, a granule moved, a weight, a gate, a job. -/
theorem test_partition_commands :
    ((((after (exec (.partCreate (dsc 1 1 [])) (asks (dsc 1 1 [])))).fnOf 1).done.getLast?).map (·.2.1)) = some 2 ∧
    [exec (.partCreate (dsc 0 1 [(47, 1)])) (asks (dsc 0 1 [(47, 1)])), exec (.partCreate (dsc 0 1 [(0, 2), (6, 2)])) (asks (dsc 0 1 [(0, 2), (6, 2)])),
      exec (.partCreate (dsc 0 1 [(0, 1), (6, 2)])) (asks (dsc 0 1 [(0, 1), (6, 2)])), exec (.partDestroy (dsc 0 2 [])) (asks (dsc 0 2 []) (onPhase .created)),
      exec (.partDestroy (dsc 0 2 [])) (asks (dsc 0 2 [])), exec (.granMove (dsc 0 3 [(0, 1), (1, 1)])) (asks (dsc 0 3 [(0, 1), (1, 1)]) onTwo),
      exec (.arbWeight (dsc 0 4 [(1, 1), (3, 5)])) (asks (dsc 0 4 [(1, 1), (3, 5)])), exec (.arbWeight (dsc 0 4 [(1, 1)])) (asks (dsc 0 4 [(1, 1)]))].map ended =
      [some (1, 0), some (0, 1), some (4, 0), some (0, 0), some (4, 0), some (0, 0), some (0, 0), some (1, 0)] := by decide +kernel
/-- R375, R376, R403, R317: a gate with one context opens, a job is bound and one that would move the context is not. -/
theorem test_gate_and_job_commands :
    (let t := after (exec (.gateReq (dsc 0 0x11 [(2, 3), (7, 1), (8, 2 ^ 31 + 1)])) (asks (dsc 0 0x11 [(2, 3), (7, 1), (8, 2 ^ 31 + 1)])))
     (SMap.find? t.gates 0).map (fun g => (g.cap, g.level)) = some (3, 3)) ∧
    [exec (.jobBind (dsc 0 0x20 [(1, 1), (2, 3), (4, 2), (6, 1), (8, 1)])) (asks (dsc 0 0x20 [(1, 1), (2, 3), (4, 2), (6, 1), (8, 1)])),
      exec (.jobBind (dsc 0 0x20 [(1, 1), (2, 4), (4, 2), (6, 1), (8, 1)])) (asks (dsc 0 0x20 [(1, 1), (2, 4), (4, 2), (6, 1), (8, 1)]))].map ended =
      [some (0, 0), some (4, 0)] := by decide +kernel
/-- `context_commands`: each command taken; a header that is valid and one that is not; a destination within the part; guest bytes for the debugger. -/
theorem witness_context_commands :
    Takes (asks (dsc 0 5 [(1, 1), (8, 0x6000)]) (onPhase .created)) 0 (dsc 0 5 [(1, 1), (8, 0x6000)]) true false [(0, 2), (8, 8)] ∧
    (onPhase .created).ctxArg (dsc 0 5 [(1, 1), (8, 0x6000)]) 0 = some 1 ∧ (onPhase .created).guestNat 1 0x6000 256 = some 0 ∧ headerOk 0 = false ∧
    (onPhase .created).guestNat 1 0x400000 256 = none ∧
    Takes (asks (dsc 0 6 [(1, 1)])) 0 (dsc 0 6 [(1, 1)]) true false [(0, 2)] ∧ ((onPhase .running).ctx 1).migrating = none ∧
    (onPhase (.saved 0)).restoreReady 1 = true ∧ Takes (asks (dsc 0 8 [(0, 1)])) 0 (dsc 0 8 [(0, 1)]) false false [(0, 1)] ∧ 
    onFn.keysOfFn 1 = [1] ∧ Takes (asks (dsc 0 9 [(1, 1), (2, 2)])) 0 (dsc 0 9 [(1, 1), (2, 2)]) false false [(0, 8)] ∧
    onFn.moveTo 1 2 = some ⟨[0], [1]⟩ ∧ onFn.moveTo 1 1 = none ∧ (onFn.ctx 1).job ≠ none ∧ (onFn.partition? 1).isSome = true ∧
    ((onPhase (.saved 2)).ctx 1).readyToMove = true ∧ ((onPhase .running).ctx 1).readyToMove = false := by
  refine ⟨takes_of (by decide +kernel), by decide +kernel, by decide +kernel, by decide +kernel, by decide +kernel, takes_of (by decide +kernel), by decide +kernel,
    by decide +kernel, takes_of (by decide +kernel), by decide +kernel, takes_of (by decide +kernel), by decide +kernel⟩
/-- The same for what is read, attested and debugged. -/
theorem witness_more_context_commands :
    Takes (asks (dsc 0 12 [(1, 1), (8, 0x100)])) 0 (dsc 0 12 [(1, 1), (8, 0x100)]) false false [(0, 2), (8, 8)] ∧ onFn.hostMem.wf = true ∧
    Takes (asks (dsc 0 13 [(1, 1), (8, 0x100)])) 0 (dsc 0 13 [(1, 1), (8, 0x100)]) true true [(0, 2), (8, 40)] ∧
    Takes (asks (dsc 0 14 [(1, 1)])) 0 (dsc 0 14 [(1, 1)]) false false [(0, 2)] ∧
    Takes (asks (dsc 0 15 [(1, 1), (8, 0x100), (16, 0x5000), (24, 2)]) (onPhase (.saved 3) true)) 0 (dsc 0 15 [(1, 1), (8, 0x100), (16, 0x5000), (24, 2)]) false false [(0, 3), (8, 24)] ∧
    ((onPhase (.saved 3) true).ctx 1).debugger = true ∧ (onPhase (.saved 3) true).guestNat 1 0x5000 2 = some 0x2211 ∧
    (onPhase (.saved 3) true).guestNat 1 0x400000 2 = none ∧ ((onPhase (.saved 3) true).guestPieces 1 0x5000 [1, 2]).isSome = true ∧
    Takes (asks (dsc 0 17 [(8, 0x100), (16, 4)])) 0 (dsc 0 17 [(8, 0x100), (16, 4)]) false true [(8, 16)] := by
  refine ⟨takes_of (by decide +kernel), by decide +kernel, takes_of (by decide +kernel), takes_of (by decide +kernel), takes_of (by decide +kernel), by decide +kernel,
    by decide +kernel, by decide +kernel, by decide +kernel, takes_of (by decide +kernel)⟩
/-- R363, R366, R370, R373, R401: refused states, a stop at once, a debugger attached, guest bytes read for it. -/
theorem test_context_commands :
    [exec (.ctxStart (dsc 0 5 [(1, 1), (8, 0x6000)])) (asks (dsc 0 5 [(1, 1), (8, 0x6000)]) (onPhase .created)),
      exec (.ctxStart (dsc 0 5 [(1, 1), (8, 0x6000)])) (asks (dsc 0 5 [(1, 1), (8, 0x6000)])),
      exec (.ctxStop (dsc 0 6 [(1, 1)])) (asks (dsc 0 6 [(1, 1)]) (onPhase (.saved 0))), exec (.ctxResume (dsc 0 7 [(1, 1)])) (asks (dsc 0 7 [(1, 1)])),
      exec (.vfReset (dsc 0 8 [])) (asks (dsc 0 8 []))].map ended = [some (1, 0), some (4, 0), some (0, 0), some (4, 0), some (1, 0)] ∧
    ((after (exec (.dbgAttach (dsc 0 14 [(1, 1)])) (asks (dsc 0 14 [(1, 1)])))).ctx 1).debugger = true ∧
    (let d := dsc 0 15 [(1, 1), (8, 0x100), (16, 0x5000), (24, 2)]
     Mem.read (after (exec (.dbgMem d) (asks d (onPhase (.saved 3) true)))).hostMem 0x100 2 = 0x2211) ∧
    (let d := dsc 0 12 [(1, 1), (8, 0x100)]
     Mem.read (after (exec (.cntRead d) (asks d (onFn { farCtx [] with counters := { vbusy := 77 } })))).hostMem 0x110 8 = 77) := by decide +kernel

/-! ## The whole machine -/

/-- `memory_stays_canonical`: a state in canonical form whose step goes on. -/
theorem witness_memory_stays_canonical :
    (first 0x00000020000000000000).memOk = true ∧ ∃ t, step (first 0x00000020000000000000) = .next t := by
  refine ⟨by decide +kernel, ?_⟩
  have h : (match step (first 0x00000020000000000000) with
    | .next _ => true
    | _ => false) = true := by decide +kernel
  revert h
  cases step (first 0x00000020000000000000) with
  | next t => exact fun _ => ⟨t, rfl⟩
  | fault f => exact fun h => by cases h
  | refused r => exact fun h => by cases h
/-- `decode_and_encode_agree`: a well-formed word, and a word that decodes. -/
theorem witness_decode_and_encode :
    Instr.isWord (.add (hd .C) ⟨85, 86, 87, 0, 0⟩) = true ∧ WellFormed (.add (hd .C) ⟨85, 86, 87, 0, 0⟩) = true ∧
    decodeTableWord 80 0x00000020000000000000 = some (.nop (hdD .C 0) ⟨0, 0, 0, 0⟩) := by decide +kernel
/-- `matrix_commands_run`: a command that reads a tile in a window that is not ready, in the cycle of its stamp inside the booking, and its Schedule Miss. -/
theorem witness_matrix_absent :
    let c : MxCmd := { cz 0 90 (some 100) none with op := 4, aa := 512 }
    let s : State := { onXb [c] 100 0x00010001 with cores := [(0, { active := some 0, slots := [(0, { kX with bhnd := 0x00010001 })], mxe := { queue := [c] }, windows := [(5, ⟨wdesc 64, false, 0, 0⟩)] })] }
    s.mxAbsent 0 c = true ∧ ((s.cal 0).any fun i => i.own 0x00010001 && i.at? (100 / 64)) = true ∧
    heldIn (exec (.matrixCommandStart 0) s) = [(0x20, 4)] := by decide +kernel

/-- `text_is_fetched_in_blocks`: a word inside the lease and one past it; the first word of the second block lies 80 bytes on (R56). -/
theorem witness_text :
    ((List.range 10).all fun i => leaseAddr (tk [] [] [] []).lease (30 + i) false == ((List.range 10).map (30 + ·))[i]?) = true ∧
    30 + 10 ≤ (tk [] [] [] []).textb.toNat + 80 * (tk [] [] [] []).txl ∧ leaseAddr (tk [] [] [] []).lease 65541 false = none ∧
    wordAddr 0x1000 8 = 0x1050 ∧ wordAddr 0x1000 15 = 0x1096 := by decide +kernel

end
end

