-- ==== Sys2Proof/Proofs/Codec.lean ====
section
/-!
The round trip of decoder and encoder (R41, R43, R59, R61): `Laws/PerInstr.lean` reads every instruction back from its word; here every
row that the opcode map names is written back as the word it was read from.
-/
namespace Sys2Proof.Laws.Codec
open Dec

/-- The codec law of `Laws/PerInstr.lean` holds of every constructor, each by the law of its own name. -/
theorem statement_all (i : Instr) : Statement i :=
  Instr.casesOn (motive := Statement) i
    add sub and or xor shl shr sra mul mulh mulhu min max minu maxu addi andi ori xori shli shri srai muli lih extr extru ins clz ctz
    popc brev cmpEq cmpNe cmpLt cmpLtu cmpGe cmpGeu cmpiEq cmpiNe cmpiLt cmpiLtu cmpiGe cmpiGeu pand por pxor pandn pnot pmov br brz
    brnz call jmpi calli loop brloop spl fil crr crw nop mode ifence yield exit trap tret brk vaddF32 vsubF32 vmulF32 vfmaF32 vfmsF32
    vfnmaF32 vminF32 vmaxF32 vabsF32 vnegF32 vrcpF32 vrsqF32 vexp2F32 vlog2F32 vaddH vsubH vmulH vfmaH vminH vmaxH vaddI32 vsubI32
    vmulI32 vand vor vxor vshl vshr vsra vaddss vsubss vaddus vsubus vminI32 vmaxI32 vcmpF32 vcmpI32 vcmpuI32 mand mor mxor mnot mandn
    mpop mmov vcvtNf vcvtFn vcvtF32I32 vcvtI32F32 vcvtHF32 vcvtF32H vperm vpermRot vbcast vsel vext vins vredAdd vredMin vredMax vld
    vlds vldg vldb vgld vglds vgldg mld vst vsts vsct vstCnt vstm vgst vgsts vgsct mst mma mmas mzero mdrn mldacc mscale mxpose mfmt
    mwait matrixCommandStart matrixCommandComplete ld lds st ldAcq ldsAcq stRel aadd aand aor axor amin amax aminu amaxu aswp acas
    aaddF32 sdreq root shootdownComplete fence fenceAck fenceAckTimeout barinit barwait barwaitNw barwaitNa barfree lwin lwclose
    lwwait lwwaitTimeout lwpoll countedWriteArrival fld fldTimeout fst fstOrd fatom fatomTimeout fldx fldxT fldxTimeout gsig gwait
    gpoll gateRefill book bkqry bkcan bkrel cpost coll topb dqpush dqpop dqsteal htsset htsdec heldDequePush qmap qunmap queueNotify
    resultLanding storePerform trapEntry taskEndByFault bookingDue sliceEnd forcedSave contextSave contextRestore prefetchStart
    prefetchComplete leasePendingTimeout taskActivate taskWake priorityAging autoSteal bookingDecide bookingRequestAging slotBoundary
    bookHold bookHoldReply bookReplyTimeout bookCommit bookRelease bookHoldLeaseExpiry bookEndReport copyPacketStart
    copyPacketComplete collectiveStepStart collectiveComplete collectiveTimeout collectiveFailureDetect read rdata write wrord
    orderedStoreRelease orderedStoreTimeout atom arply ack nack xreq xdata xack xflt xabt beacon beaconSend beaconLoss ldown
    packetForward cdata cack cctlHeld cctlWithdraw cctlFlush cctlLate cctlNofit cctlDigestMismatch cctlRedo cdig scrub frameRetire
    energyReconcile powerCapLimit powerCapLift thermalWarning thermalTrip coolantAlarm machineCheck powerOn d3hotEntry
    functionLevelReset hostBar2Read hostBar2Write hostAtomicOp cqtail evhead partCreate partDestroy granMove arbWeight imageLoad
    ctxStart ctxStop ctxResume vfReset gateReq gateClose routeLoad groupLoad jobBind migStart migStop migCommit cntRead attest
    dbgAttach dbgMem dbgDetach patchLoad fjarlosSensorRead fjarlosPowerCapSet fjarlosFirmwareUpdate fjarlosCounterRead linkFailure
    linkTraining powerLoss packageReset

/-- Only instruction words have an encoding. -/
theorem isWord_of_encode {i : Instr} {w : BitVec 80} (he : encode i = some w) : i.isWord = true := by
  rcases statement_all i with ⟨_, hn⟩ | ⟨hi, _⟩
  · rw [he] at hn; cases hn
  · exact hi

/-- A row of the opcode map is written as its group, its minor code and the operand field it was read from: the map is split into its
groups, these into their codes, and the fields of each row's format are joined again. -/
theorem encode_of_rowOf {mj mn : Nat} {h : Hdr} {w : BitVec 80} {i : Instr} (hr : rowOf mj mn h w = .ok i) :
    encode i = some (pack h mj mn (w.extractLsb' 0 46)) := by
  simp only [rowOf, group00, group01, group02, group03, group04, group05, group06, group07, group08, group10, group11, group12,
    group13, group14, group15, group16, group18, group20, group21, group22, group23, group24, group25, group28, group29] at hr
  repeat' split at hr
  all_goals cases hr
  all_goals simp only [encode, bitsRRR_of, bitsRRI_of, bitsMEM_of, bitsMEMX_of, bitsBRA_of, bitsMXC_of, bitsSYS_of]

/-- The word of a decoded instruction is the word that was decoded. -/
theorem encode_of_word {w : BitVec 80} {i : Instr} (hw : word w = .ok i) : encode i = some w := by
  rw [encode_of_rowOf (word_ok hw).1, pack_unpack]

/-- A well-formed instruction word is read back from its bytes, whatever follows them. -/
theorem bytes_of_wellFormed {i : Instr} (hi : i.isWord = true) (hw : WellFormed i = true) (rest : List Byte) :
    ∃ w, encode i = some w ∧ bytes (bytesOf w ++ rest) = .ok (i, rest) := by
  rcases statement_all i with ⟨hn, _⟩ | ⟨_, hs⟩
  · rw [hi] at hn; cases hn
  · obtain ⟨w, he, hd⟩ := hs hw
    exact ⟨w, he, bytes_of_word hd rest⟩

/-- Settles O59: forth by the codec law of each constructor, back by the rows of the opcode map. -/
theorem decode_and_encode_agree : Obligations.decode_and_encode_agree :=
  ⟨fun _ rest hi hw => bytes_of_wellFormed hi hw rest,
    fun _ _ hd => ⟨isWord_of_encode (encode_of_word hd), (word_ok hd).2, encode_of_word hd⟩⟩

/-- Settles O60: each word is decoded by evaluation. -/
theorem example_words_decode : Obligations.example_words_decode := by
  unfold Obligations.example_words_decode
  decide +kernel

end Sys2Proof.Laws.Codec
end

