-- ==== Sys2Proof/Proofs/Fetch.lean ====
section
/-!
Fetching (R5, R56, R58): the bytes of a word, the answers of a fetch, and what `step` does with each (R59, R308, R313).
-/
namespace Sys2Proof.Machine.Fetching

/-! ## The bytes of a word -/

/-- Byte `i` of a word put together from ten bytes (R5). -/
theorem byte_wordOf {bs : List Byte} {i : Nat} (hl : bs.length = 10) (hi : i < 10) :
    some ((Dec.wordOf bs).extractLsb' (8 * i) 8) = bs[i]? := by
  have hbs : bs = (List.range 10).map fun j => bs.getD j 0 :=
    List.ext_getElem (by simp [hl]) fun j hj _ => by simp [hj]
  obtain ⟨hlt, hd⟩ := digits_spec 8 (fun j => (bs.getD j 0).toNat) (fun j => (bs.getD j 0).isLt) 10 0
  rw [show List.map (· + 0) (List.range 10) = List.range 10 by simp] at hlt hd
  have hw : (Dec.wordOf bs).toNat = (List.range 10).foldr (fun j m => (bs.getD j 0).toNat + 2 ^ 8 * m) 0 := by
    rw [congrArg Dec.wordOf hbs, Dec.wordOf, List.foldr_map, BitVec.toNat_ofNat]
    exact Nat.mod_eq_of_lt hlt
  rw [List.getElem?_eq_getElem (by omega), Option.some_inj]
  apply BitVec.eq_of_toNat_eq
  rw [BitVec.extractLsb'_toNat, Nat.shiftRight_eq_div_pow, hw, hd i hi]
  simp [hl, hi]

/-! ## Where a word lies -/

/-- Answers collected from a list that are all there. -/
theorem mapM_of_map_some {α β : Type} {f : α → Option β} {l : List α} {ys : List β} (h : l.map f = ys.map some) : l.mapM f = some ys := by
  induction l generalizing ys with
  | nil => cases ys with
    | nil => rfl
    | cons y ys => cases h
  | cons a l ih => cases ys with
    | nil => cases h
    | cons y ys =>
      obtain ⟨ha, hl⟩ := List.cons.inj h
      rw [List.mapM_cons, ha, ih hl]; rfl
/-- Answers collected from a list of which one is missing. -/
theorem mapM_of_none {α β : Type} {f : α → Option β} {l : List α} {a : α} (ha : a ∈ l) (h : f a = none) : l.mapM f = none := by
  induction l with
  | nil => cases ha
  | cons b l ih =>
    rw [List.mapM_cons]
    rcases List.mem_cons.1 ha with rfl | ha
    · rw [h]; rfl
    · rw [ih ha]; cases f b <;> rfl

/-- A word whose ten bytes are text and leased lies at the bytes' physical addresses (R56, R308). -/
theorem wordPlaces_of_leased {k : Task} {va : Nat} {ps : List Nat} (hl : ps.length = 10)
    (hp : ∀ i, i < 10 → leaseAddr k.lease (va + i) false = ps[i]?) (ht : va + 10 ≤ k.textb.toNat + 80 * k.txl) :
    k.wordPlaces va = some ps := by
  rw [Task.wordPlaces, if_pos ht]
  refine mapM_of_map_some (List.ext_getElem (by simp [hl]) fun i hi _ => ?_)
  rw [List.getElem_map, List.getElem_map, List.getElem_range, hp i (by simpa using hi)]
  exact List.getElem?_eq_getElem _
/-- A word with a byte outside the lease lies nowhere (R308). -/
theorem wordPlaces_of_unleased {k : Task} {va i : Nat} (hi : i < 10) (h : leaseAddr k.lease (va + i) false = none) :
    k.wordPlaces va = none := by
  unfold Task.wordPlaces
  split
  · exact mapM_of_none (List.mem_range.2 hi) h
  · rfl

/-! ## The answers of a fetch -/

section
variable {s : State} {n ip : Nat} {k : Task}

/-- A word outside the text or the lease. -/
theorem fetch_violation (h : k.wordPlaces (wordAddr k.textb.toNat ip) = none) :
    s.fetch n k ip = .violation (wordAddr k.textb.toNat ip) := by
  simp only [State.fetch, h]

variable {ps : List Nat} (hp : k.wordPlaces (wordAddr k.textb.toNat ip) = some ps)
  (hc : SMap.find? (s.core n).icache (ps.headD 0) = none)
include hp hc

/-- A word with a poisoned byte that no cache holds. -/
theorem fetch_poison (hb : (ps.any fun a => s.isPoisoned ⟨none, a⟩ 1) = true) :
    s.fetch n k ip = .poison (wordAddr k.textb.toNat ip) := by
  simp only [State.fetch, hp, hc, hb, if_true]
/-- A word read from memory: nothing but the counts of its context and the core's cache changes. -/
theorem fetch_memory (hb : (ps.any fun a => s.isPoisoned ⟨none, a⟩ 1) = false) :
    ∃ u, s.fetch n k ip = .word (Dec.wordOf (ps.map (s.textAt n))) u ∧ u.dram = s.dram ∧ u.flights = s.flights ∧ u.turn = s.turn ∧
      ∀ sl, u.task? n sl = s.task? n sl := by
  refine ⟨_, by simp only [State.fetch, hp, hc, hb, Bool.false_eq_true, if_false]; rfl, ?_⟩
  refine ⟨by simp [State.billWalk], by simp [State.billWalk], by simp [State.billWalk], fun sl => ?_⟩
  have hcore : (s.billWalk k.key).core n = s.core n := by simp [State.core, State.billWalk]
  rw [State.task?, State.core_updCore_self, hcore, Core.keepWord]
  split <;> rfl

end

/-! ## The answers of a step -/

/-- A word of no encoding, at the strand that its `STR` names, raises Illegal Instruction (R59). -/
theorem illegalWord_own {s : State} {w : BitVec 80} {e : Env} (he : s.env? (Dec.hdr w) = some e) (hl : e.live = true)
    (hw : e.windowOpen = true) (ht : e.t = (Dec.hdr w).str) : s.illegalWord w = s.trapAt e 0x0001 0 0 := by
  have hs : e.t = e.h.str ∨ meets (Dec.bits w 50 6).toNat (Dec.bits w 46 4).toNat e.task.handler.isSome = true :=
    Or.inl (by rw [State.hdr_of_env he, ht])
  unfold State.illegalWord
  rw [he]
  simp only [hl, hw, hs, Bool.not_true, Bool.or_self, Bool.false_eq_true, if_false, if_true]
  rfl

/-- What a step makes of the answer of its fetch, in state `s` with the turn of a strand that stands at word `ip` of slot `sl`'s task. -/
def afterFetch (s : State) (sl ip : Nat) : Fetch → Out
  | .violation va => .next (s.violate (s.turn / 4) sl va ip).nextCore
  | .poison va => .next (s.fetchPoison sl va ip)
  | .word w s' =>
    match Dec.word w with
    | .ok i => exec i s'
    | .error _ => .next (s'.illegalWord w)

section
variable {s : State} (ha : s.agenda = []) (hd : dueEvent s = none)
include ha hd

/-- With no input and nothing due, it is the strands' turn. -/
theorem step_eq_stepStrand : step s = stepStrand s := by
  simp only [step, ha, hd]
/-- The next strand that may go on takes up the word that it fetches. -/
theorem step_of_nextReady {turn sl : Nat} {k : Task} (hr : nextReady s.turn s.cores = some (turn, sl, k)) :
    step s = afterFetch { s with turn := turn } sl (k.str (Strand.ofCode (turn % 4))).ip
      (({ s with turn := turn } : State).fetch (turn / 4) k (k.str (Strand.ofCode (turn % 4))).ip) := by
  rw [step_eq_stepStrand ha hd, stepStrand, hr]
  rfl

end

/-- Settles O48: the inputs, the machinery and the strands in the order of `step`, and the answers of the fetch one by one. -/
theorem step_runs_the_decoded_word : Obligations.step_runs_the_decoded_word := by
  unfold Obligations.step_runs_the_decoded_word
  intro s
  refine ⟨?input, ?due, fun ha hd => ⟨fun hr => ⟨?late, ?tick⟩, fun turn sl k hr => ?_⟩⟩
  case input => exact fun i rest ha => by simp only [step, ha]
  case due => exact fun ha e he => by simp only [step, ha, he]
  case late => exact fun e hl => by rw [step_eq_stepStrand ha hd]; simp only [stepStrand, hr, hl]; rfl
  case tick => exact fun hl => by rw [step_eq_stepStrand ha hd]; simp only [stepStrand, hr, hl]
  have hs := step_of_nextReady ha hd hr
  refine ⟨?word, ?illegal, ?memory, ?poison, ?violation⟩
  case word =>
    intro w u i hf hw
    simp only [hs, hf, afterFetch, hw]
  case illegal =>
    intro w u r hf hw
    have hi : step s = .next (u.illegalWord w) := by simp only [hs, hf, afterFetch, hw]
    exact ⟨hi, fun e he hl ho ht => by rw [hi, illegalWord_own he hl ho ht]⟩
  case memory =>
    intro ps hp hc hb
    obtain ⟨u, hf, hm, -, ht, hk⟩ := fetch_memory (s := { s with turn := turn }) hp hc hb
    exact ⟨u, hf, hm, ht, hk sl⟩
  case poison =>
    intro ps hp hc hb
    rw [hs, fetch_poison (s := { s with turn := turn }) hp hc hb]
    rfl
  case violation =>
    intro hp
    rw [hs, fetch_violation (s := { s with turn := turn }) hp]
    rfl

end Sys2Proof.Machine.Fetching
end

