-- ==== Sys2Proof/Proofs/Text.lean ====
section
/-!
Text (R56, R58): which bytes a core fetches after a write into its tasks' text and after `ifence`.
-/
namespace Sys2Proof.Machine.TextStores
open Fetching

/-! ## What a core keeps of its text -/

/-- What a core fetches besides memory: the text bytes as they stood at the last `ifence`, and the words of its cache (R58). -/
def textTables (c : Core) : SMap Nat × SMap Nat := (c.stale, c.icache)

/-- A byte of text without a record is memory's byte. -/
theorem textAt_of_fresh {s : State} {n a : Nat} (h : SMap.find? (s.core n).stale a = none) : s.textAt n a = Mem.get s.dram a := by
  rw [State.textAt, h]

@[simp] theorem textTables_updTask (s : State) (n sl m : Nat) (f : Task → Task) :
    textTables ((s.updTask n sl f).core m) = textTables (s.core m) := by rw [State.core_updTask]; rfl
@[simp] theorem textTables_addFlight (s : State) (e : Env) (y : Fly) (m : Nat) :
    textTables ((s.addFlight e y).core m) = textTables (s.core m) := by
  change textTables ((s.noteEarly e y).core m) = _
  unfold State.noteEarly
  split
  · rfl
  · split
    · rfl
    · exact textTables_updTask ..
@[simp] theorem textTables_addNop (s : State) (e : Env) (m : Nat) :
    textTables ((s.addNop e).core m) = textTables (s.core m) := by
  unfold State.addNop
  split
  · rfl
  · exact textTables_addFlight ..
@[simp] theorem dram_addNop (s : State) (e : Env) : (s.addNop e).dram = s.dram := by
  unfold State.addNop
  split
  · rfl
  · exact State.addFlight_dram ..

/-- A word without a result leaves memory and every core's tables of text as its effect made them. -/
@[simp] theorem dram_doneAs (s : State) (e : Env) (pop : Bool) (tgt : Option Nat) : (s.doneAs e pop tgt).dram = s.dram := by
  simp [State.doneAs, State.passWord]
@[simp] theorem textTables_doneAs (s : State) (e : Env) (pop : Bool) (tgt : Option Nat) (m : Nat) :
    textTables ((s.doneAs e pop tgt).core m) = textTables (s.core m) := by
  simp [State.doneAs, State.passWord]

/-! ## The record of a write into text -/

/-- A table whose values have been changed by `f`. -/
theorem find?_map {α β : Type} (f : α → β) (m : SMap α) (k : Nat) :
    SMap.find? (m.map fun p => (p.1, f p.2)) k = (SMap.find? m k).map f := by
  induction m with
  | nil => rfl
  | cons p t ih =>
    simp only [List.map_cons, SMap.find?]
    split
    · rfl
    · exact ih

/-- The record of text after a note of the bytes `as`: what stood there before, else memory's byte where a task's text is noted. -/
theorem find?_core_noteText (c : Core) (dram : Mem) (as : List Nat) (a : Nat) (ht : (c.slots.any fun k => k.2.textByte a) = true) :
    SMap.find? (c.noteText dram as).stale a =
      (SMap.find? c.stale a).or (if a ∈ as then some (Mem.get dram a).toNat else none) := by
  induction as generalizing c with
  | nil => simp [Core.noteText]
  | cons b as ih =>
    have hstep : c.noteText dram (b :: as) = ({ c with stale := (c.noteText dram [b]).stale } : Core).noteText dram as := rfl
    rw [hstep]
    refine (ih { c with stale := (c.noteText dram [b]).stale } ht).trans ?_
    by_cases hb : a = b
    · subst hb
      cases hf : SMap.find? c.stale a <;> simp [Core.noteText, hf, ht]
    · have hne : SMap.find? (c.noteText dram [b]).stale a = SMap.find? c.stale a := by
        simp only [Core.noteText, List.foldl_cons, List.foldl_nil]
        split
        · exact SMap.find?_set_ne _ _ _ _ hb
        · rfl
      simp [hne, hb]

/-- A note is made in the cores that exist; one whose tasks' text holds a byte exists. -/
theorem core_noteText {s : State} {n a : Nat} {ps : List WPiece} (hs : ((s.core n).slots.any fun k => k.2.textByte a) = true)
    (hp : (ps.all fun p => p.1.core.isSome) = false) : (s.noteText ps).core n = (s.core n).noteText s.dram (dramPlaces ps) := by
  have hcores : (s.noteText ps).cores = s.cores.map fun p => (p.1, p.2.noteText s.dram (dramPlaces ps)) := by
    simp [State.noteText, hp]
  simp only [State.core, SMap.get] at hs ⊢
  rw [hcores, find?_map fun c : Core => c.noteText s.dram (dramPlaces ps)]
  cases hc : SMap.find? s.cores n with
  | none => rw [hc] at hs; cases hs
  | some c => rfl
/-- The bytes of DRAM that a write into scratch changes: none. -/
theorem dramPlaces_scratch {ps : List WPiece} (hp : (ps.all fun p => p.1.core.isSome) = true) : dramPlaces ps = [] := by
  have : (ps.filter fun p => p.1.core.isNone) = [] := by
    rw [List.filter_eq_nil_iff]
    intro p hm
    simpa [Option.isSome_iff_ne_none] using List.all_eq_true.1 hp p hm
  rw [dramPlaces, this]; rfl

/-- What a core with text at `a` has recorded of it after the note of a write. -/
theorem find?_noteText {s : State} {n a : Nat} (ps : List WPiece) (hs : ((s.core n).slots.any fun k => k.2.textByte a) = true) :
    SMap.find? ((s.noteText ps).core n).stale a =
      (SMap.find? (s.core n).stale a).or (if a ∈ dramPlaces ps then some (Mem.get s.dram a).toNat else none) := by
  cases hp : ps.all fun p => p.1.core.isSome with
  | false => rw [core_noteText hs hp, find?_core_noteText _ _ _ _ hs]
  | true => simp [State.noteText, hp, dramPlaces_scratch hp]
/-- A note leaves the cache of a core with text alone. -/
theorem icache_noteText {s : State} {n a : Nat} (ps : List WPiece) (hs : ((s.core n).slots.any fun k => k.2.textByte a) = true) :
    ((s.noteText ps).core n).icache = (s.core n).icache := by
  cases hp : ps.all fun p => p.1.core.isSome with
  | false => rw [core_noteText hs hp]; rfl
  | true => rw [State.noteText, if_pos hp]
@[simp] theorem dram_noteText (s : State) (ps : List WPiece) : (s.noteText ps).dram = s.dram := by
  unfold State.noteText
  split <;> rfl

/-! ## What a write changes -/

section
variable (s : State) (c : Option Nat) (n : Nat)

@[simp] theorem textTables_setMem (m : Mem) : textTables ((s.setMem c m).core n) = textTables (s.core n) := by
  cases c with
  | none => rfl
  | some c =>
    by_cases h : n = c
    · subst h; simp [State.setMem, textTables]
    · simp [State.setMem, State.core_updCore_ne _ _ _ _ h]
@[simp] theorem textTables_setPoison (p : NSet) : textTables ((s.setPoison c p).core n) = textTables (s.core n) := by
  cases c with
  | none => rfl
  | some c =>
    by_cases h : n = c
    · subst h; simp [State.setPoison, textTables]
    · simp [State.setPoison, State.core_updCore_ne _ _ _ _ h]
@[simp] theorem dram_setPoison (p : NSet) : (s.setPoison c p).dram = s.dram := by
  cases c <;> rfl

end

/-- After a write a core's tables of text are those after its note. -/
theorem textTables_writePieces (s : State) (ps bad : List WPiece) (n : Nat) :
    textTables ((s.writePieces ps bad).core n) = textTables ((s.noteText ps).core n) := by
  refine (foldl_keeps (fun s : State => textTables (s.core n)) _ ?mark _ _).trans <|
    (foldl_keeps (fun s : State => textTables (s.core n)) _ ?clear _ _).trans
      (foldl_keeps (fun s : State => textTables (s.core n)) _ ?store _ _)
  case mark => exact fun s p => textTables_setPoison ..
  case clear =>
    intro s p
    unfold State.clearPiece
    split
    · rfl
    · exact textTables_setPoison ..
  case store => exact fun s p => textTables_setMem ..

/-- A piece stored leaves every byte of DRAM outside it alone, and DRAM in canonical form. -/
theorem dram_storeBytes {s : State} (hw : s.dram.wf = true) (p : WPiece) :
    (s.storeBytes p).dram.wf = true ∧ ∀ a, a ∉ dramPlaces [p] → Mem.get (s.storeBytes p).dram a = Mem.get s.dram a := by
  obtain ⟨⟨c, off⟩, len, v⟩ := p
  cases c with
  | some c => exact ⟨hw, fun _ _ => rfl⟩
  | none =>
    refine ⟨Mem.wf_write hw _ _ _, fun a ha => Mem.get_write_ne hw _ _ _ _ ?_⟩
    have hmem : off ≤ a → a < off + len → a ∈ dramPlaces [(⟨none, off⟩, len, v)] := fun hlo hhi =>
      List.mem_flatMap.2 ⟨_, List.mem_singleton.2 rfl, List.mem_map.2 ⟨a - off, List.mem_range.2 (Nat.sub_lt_left_of_lt_add hlo hhi), Nat.add_sub_of_le hlo⟩⟩
    show a < off ∨ off + len ≤ a
    by_cases hlo : off ≤ a
    · exact .inr (Nat.not_lt.1 fun hhi => ha (hmem hlo hhi))
    · exact .inl (Nat.not_le.1 hlo)
/-- Pieces stored one after the other. -/
theorem get_dram_storePieces {s : State} (hw : s.dram.wf = true) {ps : List WPiece} {a : Nat} (ha : a ∉ dramPlaces ps) :
    Mem.get (ps.foldl State.storeBytes s).dram a = Mem.get s.dram a := by
  induction ps generalizing s with
  | nil => rfl
  | cons p ps ih =>
    have hsplit : dramPlaces (p :: ps) = dramPlaces [p] ++ dramPlaces ps := by
      simp only [dramPlaces, ← List.flatMap_append, ← List.filter_append, List.singleton_append]
    rw [hsplit, List.mem_append, not_or] at ha
    obtain ⟨hwf, hne⟩ := dram_storeBytes hw p
    rw [List.foldl_cons, ih hwf ha.2, hne a ha.1]
/-- A write leaves every byte of DRAM outside its pieces alone. -/
theorem get_dram_writePieces {s : State} (hw : s.dram.wf = true) {ps : List WPiece} {a : Nat} (ha : a ∉ dramPlaces ps)
    (bad : List WPiece) : Mem.get (s.writePieces ps bad).dram a = Mem.get s.dram a := by
  have hdram : (s.writePieces ps bad).dram = (ps.foldl State.storeBytes (s.noteText ps)).dram := by
    refine (foldl_keeps State.dram _ ?mark _ _).trans (foldl_keeps State.dram _ ?clear _ _)
    case mark => exact fun s p => dram_setPoison ..
    case clear =>
      intro s p
      unfold State.clearPiece
      split
      · rfl
      · exact dram_setPoison ..
  rw [hdram, get_dram_storePieces (by rwa [dram_noteText]) ha, dram_noteText]

/-- A write into the text of a core's task changes nothing of what the core fetches: the changed bytes are in its record, the others as
they were (R58). -/
theorem textAt_writePieces {s : State} {n a : Nat} (hw : s.dram.wf = true)
    (hs : ((s.core n).slots.any fun k => k.2.textByte a) = true) (ps bad : List WPiece) :
    (s.writePieces ps bad).textAt n a = s.textAt n a := by
  have hstale : ((s.writePieces ps bad).core n).stale = ((s.noteText ps).core n).stale :=
    congrArg Prod.fst (textTables_writePieces s ps bad n)
  rw [State.textAt, State.textAt, hstale, find?_noteText ps hs]
  cases hold : SMap.find? (s.core n).stale a with
  | some b => rfl
  | none =>
    by_cases ha : a ∈ dramPlaces ps
    · simp [ha]
    · simpa [ha] using get_dram_writePieces hw ha bad

/-! ## `ifence` -/

/-- After `ifence` the core holds neither words nor records of text, and memory is as it was (R58, R109). -/
theorem execIfence_of {h : Hdr} {o : SYS} {s : State} {e : Env} (H : Issues s h 0 {} e) :
    ∃ t, execIfence h o s = .next t ∧ t.dram = s.dram ∧ textTables (t.core e.core) = ([], []) := by
  refine ⟨_, doneAs_of H rfl, by simp, ?_⟩
  rw [textTables_doneAs, show e.popped.core = e.core from rfl, State.core_updCore_self]
  rfl

/-! ## The statement -/

/-- The place of a word, counted by blocks of eight words of 80 bytes (R56). -/
theorem wordAddr_eq (textb ip : Nat) : wordAddr textb ip = textb + 80 * (ip / 8) + 10 * (ip % 8) := by
  unfold wordAddr; omega
/-- A Lease Violation ends a task that is in no handler, with its strands as they stand (R308). -/
theorem violate_ends {s : State} {n sl : Nat} {k : Task} (hk : s.task? n sl = some k) (he : k.ending = none)
    (hh : k.handler = none) (va ip : Nat) :
    ∃ k', (s.violate n sl va ip).task? n sl = some k' ∧ k'.ending = some { cause := 0x0030, faddr := va, ip := ip } ∧
      ∀ u, k'.str u = k.str u := by
  refine ⟨_, State.task?_updTask_self hk _, ?_, fun u => ?_⟩
  · simp [he, hh, cLease]
  · simp only [he, hh, Option.isSome_none, Bool.false_eq_true, if_false]
    cases u <;> rfl

/-- Settles O49: the bytes of a word, the two answers of a fetch that no cache gives, and what a write and `ifence` do to a core's text. -/
theorem text_is_fetched_in_blocks : Obligations.text_is_fetched_in_blocks := by
  unfold Obligations.text_is_fetched_in_blocks
  refine ⟨fun bs i hl hi => byte_wordOf hl hi, fun s n ip k => ?fetch, fun s n a h => textAt_of_fresh h, ?write, ?ifence⟩
  case fetch =>
    simp only [← wordAddr_eq]
    refine ⟨fun ps hl hp ht hb hc => ?_, fun ⟨i, hi, hn⟩ => ⟨?_, fun sl hk he hh => violate_ends hk he hh _ ip⟩⟩
    · obtain ⟨u, hf, hm, hfl, -, hk⟩ := fetch_memory (s := s) (n := n) (wordPlaces_of_leased hl hp ht) hc
        (List.any_eq_false.2 fun a ha => by simp [hb a ha])
      exact ⟨u, hf, hm, hfl, hk⟩
    · exact fetch_violation (wordPlaces_of_unleased hi hn)
  case write =>
    intro s n a ps bad hm hs
    have hw : s.dram.wf = true := by simp only [State.memOk, Bool.and_eq_true] at hm; exact hm.1.1
    have hi := congrArg Prod.snd (textTables_writePieces s ps bad n)
    exact ⟨textAt_writePieces hw hs ps bad, hi.trans (icache_noteText ps hs)⟩
  case ifence =>
    intro h o s e H
    obtain ⟨t, ht, hm, htab⟩ := execIfence_of (o := o) H
    obtain ⟨hstale, hcache⟩ := Prod.mk.inj htab
    exact ⟨t, ht, hm, hcache, fun a => textAt_of_fresh (by rw [hstale]; rfl)⟩

end Sys2Proof.Machine.TextStores
end

