-- ==== Sys2Proof/Proofs/NumberFormats.lean ====
section
/-!
Number formats: FP32 and packed arithmetic of vectors lane by lane (R84 to R87, R115 to R118, R123), and conversions (R88, R127, R128).
That `vcvt.fn` puts each element into its own container rests on one fact: whatever `Encode` of R77 answers fits in the format's bits.
-/
namespace Sys2Proof.Machine.NumberFormats

/-! ## The magnitude of `n * 2 ^ k` -/

/-- The exponent of a nonzero multiple of a power of two. -/
theorem log2_natCast {n : Nat} (hn : n ≠ 0) (k : Int) : (⟨n, 1, k⟩ : Exact).log2 = k + Nat.log2 n := by
  have hone : Nat.log2 1 = 0 := by decide
  have hle : 2 ^ Nat.log2 n ≤ n := Nat.log2_self_le hn
  simp only [Exact.log2, Int.natAbs_natCast, hone, Int.ofNat_zero, Int.sub_zero, if_neg (Int.not_lt.2 (Int.natCast_nonneg _)),
    Int.toNat_natCast, Nat.one_mul, hle, decide_true, if_true]

/-- A number that is not above another in magnitude has no greater exponent. -/
theorem log2_le_of_not_gtMag {x y : Exact} (hx : x.n ≠ 0) (h : x.gtMag y = false) : y.n ≠ 0 ∧ x.log2 ≤ y.log2 := by
  rw [Exact.gtMag, if_neg hx] at h
  split at h
  · cases h
  · rename_i hy
    refine ⟨hy, ?_⟩
    split at h
    · exact Int.not_lt.1 (of_decide_eq_false h)
    · rename_i he
      exact Int.le_of_eq (Decidable.of_not_not he)
/-- No number is above itself. -/
theorem gtMag_self (x : Exact) : x.gtMag x = false := by
  unfold Exact.gtMag
  split
  · rfl
  · rw [if_neg (fun h => h rfl)]
    exact decide_eq_false (Nat.lt_irrefl _)

/-- `n * 2 ^ k` in units of `2 ^ j`, when its exponent is at most `t`. -/
theorem quotient_lt {n : Nat} {k t : Int} (j : Int) (hn : n ≠ 0) (ht : (⟨n, 1, k⟩ : Exact).log2 ≤ t) :
    n * 2 ^ (k - j).toNat / (1 * 2 ^ (j - k).toNat) < 2 ^ (t + 1 - j).toNat := by
  rw [log2_natCast hn] at ht
  rw [Nat.one_mul, Nat.div_lt_iff_lt_mul (Nat.two_pow_pos _), ← Nat.pow_add]
  calc n * 2 ^ (k - j).toNat < 2 ^ (Nat.log2 n + 1) * 2 ^ (k - j).toNat :=
        Nat.mul_lt_mul_of_pos_right Nat.lt_log2_self (Nat.two_pow_pos _)
    _ = 2 ^ (Nat.log2 n + 1 + (k - j).toNat) := (Nat.pow_add ..).symm
    _ ≤ 2 ^ ((t + 1 - j).toNat + (j - k).toNat) := Nat.pow_le_pow_right (by decide) (by omega)

/-! ## The codes of a format (R68, R77) -/

/-- The exponent that no finite value of a format exceeds. -/
def topExponent (f : Fmt) : Int := (if f.e = 0 then (f.m : Int) - 1 else (2 ^ f.e - 1 : Nat)) - f.b
/-- The sign bit of a code. -/
def signBit (f : Fmt) (neg : Bool) : Nat := if neg ∧ f.s = 1 then 2 ^ (f.w - 1) else 0

/-- `MaxFinite` is a multiple of a power of two, and its exponent is that of the format. -/
theorem maxFinite_eq (f : Fmt) :
    ∃ (n : Nat) (k : Int), f.maxFinite = ⟨n, 1, k⟩ ∧ (n ≠ 0 → (⟨n, 1, k⟩ : Exact).log2 ≤ topExponent f) := by
  have hm := Nat.two_pow_pos f.m
  have hlog {n t : Nat} {k : Int} (hlt : n < 2 ^ t) (hn : n ≠ 0) : (⟨n, 1, k⟩ : Exact).log2 < k + t := by
    have := (Nat.log2_lt hn).2 hlt
    rw [log2_natCast hn]; omega
  unfold Fmt.maxFinite topExponent
  split
  · refine ⟨_, _, rfl, fun hn => ?_⟩
    have := hlog (k := -f.b) (show 2 ^ f.m - 1 < 2 ^ f.m by omega) hn
    omega
  · have he := Nat.two_pow_pos f.e
    have normal {n e : Nat} (hlt : n < 2 ^ f.m + 2 ^ f.m) (hle : e ≤ 2 ^ f.e - 1) (hn : n ≠ 0) :
        (⟨n, 1, (e : Int) - f.b - f.m⟩ : Exact).log2 ≤ (2 ^ f.e - 1 : Nat) - f.b := by
      have := hlog (t := f.m + 1) (k := (e : Int) - f.b - f.m) (by rw [Nat.pow_succ]; omega) hn
      omega
    split
    · exact ⟨_, _, rfl, normal (by omega) (by omega)⟩
    · split
      · exact ⟨_, _, rfl, normal (by omega) (by omega)⟩
      · exact ⟨_, _, rfl, normal (by omega) (by omega)⟩

section
variable {f : Fmt}

/-- A code below the sign bit and the sign bit make a code of the format. -/
theorem signBit_add_lt (hs : f.s ≤ 1) (neg : Bool) {c : Nat} (hc : c < 2 ^ (f.e + f.m)) : signBit f neg + c < 2 ^ f.w := by
  unfold signBit Fmt.w
  obtain h | h : f.s = 0 ∨ f.s = 1 := by omega
  · rw [if_neg (fun hn => absurd (h.symm.trans hn.2) (by decide)), h, Nat.zero_add, Nat.zero_add]
    exact hc
  · have hw : 2 ^ (1 + f.e + f.m) = 2 ^ (f.e + f.m) + 2 ^ (f.e + f.m) := by rw [Nat.add_assoc, Nat.add_comm 1, Nat.pow_succ]; omega
    rw [h, hw, show 1 + f.e + f.m - 1 = f.e + f.m by omega]
    split <;> omega

/-- A field below `2 ^ e` above one below `2 ^ m`. -/
theorem fields_lt {x y e m : Nat} (hx : x < 2 ^ e) (hy : y < 2 ^ m) : x * 2 ^ m + y < 2 ^ (e + m) := by
  rw [Nat.pow_add]
  have := Nat.mul_le_mul_right (2 ^ m) (show x + 1 ≤ 2 ^ e from hx)
  rw [Nat.add_mul] at this
  omega

/-- `Pack` puts the sign above the code of the magnitude. -/
theorem pack_eq (neg : Bool) (y : Exact) : f.pack neg y = signBit f neg + f.pack false y := by
  unfold Fmt.pack signBit
  generalize (if neg = true ∧ f.s = 1 then 2 ^ (f.w - 1) else 0) = bit
  simp only [Bool.false_eq_true, false_and, if_false, Nat.zero_add]
  split
  · rfl
  · split
    · rfl
    · split
      · rfl
      · exact Nat.add_assoc ..

/-- A magnitude up to `MaxFinite` is packed below the sign bit. -/
theorem pack_magnitude_lt {n : Nat} {k : Int} (h : (⟨n, 1, k⟩ : Exact).gtMag f.maxFinite = false) :
    f.pack false ⟨n, 1, k⟩ < 2 ^ (f.e + f.m) := by
  by_cases hn : n = 0
  · subst hn
    exact Nat.two_pow_pos _
  have hn' : (⟨n, 1, k⟩ : Exact).n ≠ 0 := Int.natCast_ne_zero.2 hn
  have htop : (⟨n, 1, k⟩ : Exact).log2 ≤ topExponent f := by
    obtain ⟨N, K, hmax, hK⟩ := maxFinite_eq f
    rw [hmax] at h
    obtain ⟨hN, hle⟩ := log2_le_of_not_gtMag hn' h
    exact Int.le_trans hle (hK (Int.natCast_ne_zero.1 hN))
  have quo {t : Int} (j : Int) (ht : (⟨n, 1, k⟩ : Exact).log2 ≤ t) := quotient_lt j hn ht
  have hm := Nat.two_pow_pos f.m
  have he := Nat.two_pow_pos f.e
  unfold topExponent at htop
  simp only [Fmt.pack, if_neg hn', Bool.false_eq_true, false_and, if_false, Nat.zero_add, Int.natAbs_natCast]
  generalize (⟨n, 1, k⟩ : Exact).log2 = l at htop quo ⊢
  by_cases hfix : f.e = 0
  · -- fixed point: multiples of `2 ^ -B`
    have hq := quo (-f.b) htop
    rw [if_pos hfix, show ((f.m : Int) - 1 - f.b + 1 - -f.b).toNat = f.m by omega] at hq
    rw [if_pos hfix, hfix, Nat.zero_add]
    exact hq
  rw [if_neg hfix] at htop ⊢
  by_cases hsub : l < 1 - f.b
  · -- subnormal: multiples of the least quantum, below the least normal value
    have hq := quo (t := -f.b) (1 - f.b - f.m) (by omega)
    rw [show (-f.b + 1 - (1 - f.b - f.m)).toNat = f.m by omega] at hq
    rw [if_pos hsub]
    exact Nat.lt_of_lt_of_le hq (Nat.pow_le_pow_right (by decide) (by omega))
  · -- normal: the exponent field above the mantissa without its leading one
    have hq := quo (l - f.m) (Int.le_refl l)
    rw [show (l + 1 - (l - f.m)).toNat = f.m + 1 by omega, Nat.pow_succ] at hq
    rw [if_neg hsub]
    exact fields_lt (by omega) (by omega)

/-- A value up to `MaxFinite` is packed into a code of the format. -/
theorem pack_lt (hs : f.s ≤ 1) (neg : Bool) {n : Nat} {k : Int} (h : (⟨n, 1, k⟩ : Exact).gtMag f.maxFinite = false) :
    f.pack neg ⟨n, 1, k⟩ < 2 ^ f.w := by
  rw [pack_eq]
  exact signBit_add_lt hs neg (pack_magnitude_lt h)
/-- So is `MaxFinite` itself. -/
theorem pack_maxFinite_lt (hs : f.s ≤ 1) (neg : Bool) : f.pack neg f.maxFinite < 2 ^ f.w := by
  obtain ⟨n, k, hmax, -⟩ := maxFinite_eq f
  rw [hmax]
  exact pack_lt hs neg (hmax ▸ gtMag_self _)
/-- So is an infinity. -/
theorem packInf_lt (hs : f.s ≤ 1) (neg : Bool) : f.packInf neg < 2 ^ f.w := by
  have hx := Nat.two_pow_pos f.e
  exact signBit_add_lt hs neg (fields_lt (y := 0) (by omega) (Nat.two_pow_pos _))
/-- `NaNCode` is a code of every format that has one. -/
theorem nanCode_lt (hp : f.p = 2 ∨ 1 ≤ f.m) : f.nanCode < 2 ^ f.w := by
  have hx := Nat.two_pow_pos f.e
  have hm := Nat.two_pow_pos f.m
  refine Nat.lt_of_lt_of_le (fields_lt (by omega) ?_)
    (Nat.pow_le_pow_right (by decide) (show f.e + f.m ≤ f.s + f.e + f.m by omega))
  split
  · omega
  · exact Nat.pow_lt_pow_right (by decide) (by omega)

/-- A format with a NaN code is of policy 2 or has a mantissa (R77). -/
theorem policy_of_hasNaN (h : f.hasNaN = true) : f.p = 2 ∨ 1 ≤ f.m := by
  simp only [Fmt.hasNaN, Bool.or_eq_true, Bool.and_eq_true, beq_iff_eq, decide_eq_true_eq] at h
  exact h.imp_right And.right

/-- Every answer of `Encode` is a code of the format (R77). -/
theorem encode_lt (hs : f.s ≤ 1) (hp : f.p ≤ 2) (rm : RMode) (sat : Bool) (v : Val) : (f.encode rm sat v).1 < 2 ^ f.w := by
  have hzero := Nat.two_pow_pos f.w
  have hnan : (if f.hasNaN = true then (f.nanCode, (0 : BitVec 3)) else (0, 1)).1 < 2 ^ f.w := by
    split
    · exact nanCode_lt (policy_of_hasNaN ‹_›)
    · exact hzero
  cases v with
  | reserved => exact hnan
  | nan => exact hnan
  | inf neg =>
    simp only [Fmt.encode]
    split
    · exact hzero
    · split
      · exact packInf_lt hs neg
      · split
        · rename_i hpol
          exact nanCode_lt (.inl hpol.1)
        · exact pack_maxFinite_lt hs neg
  | num neg x =>
    simp only [Fmt.encode]
    generalize (if f.e = 0 then -f.b else if x.n = 0 then 0 else max x.log2 (1 - f.b) - f.m : Int) = k
    split
    · split
      · exact hzero
      · exact hzero
    · split
      · split
        · exact pack_maxFinite_lt hs neg
        · rename_i hsat
          split
          · exact packInf_lt hs neg
          · exact nanCode_lt (by omega)
      · rename_i hgt
        exact pack_lt hs _ (Bool.eq_false_iff.2 hgt)

end

/-! ## Format records (R73, R74) -/

/-- A valid record describes a format of at most one sign bit, a policy up to 2, and codes that fit in their container. -/
theorem rec_of_valid {r : BitVec 128} (h : recValid r = true) :
    (Rec.of r).f.s ≤ 1 ∧ (Rec.of r).f.p ≤ 2 ∧ (Rec.of r).f.w ≤ (Rec.of r).cw := by
  simp only [recValid, Bool.and_eq_true] at h
  obtain ⟨-, h⟩ := h
  by_cases h0 : fld r.toNat 3 0 = 0
  · simp only [h0, if_true, Bool.and_eq_true, decide_eq_true_eq, beq_iff_eq] at h
    obtain ⟨⟨⟨⟨⟨⟨⟨⟨-, hw⟩, -⟩, -⟩, hctr⟩, hpol⟩, -⟩, -⟩, -⟩ := h
    have hs : fld r.toNat 4 4 ≤ 1 := Nat.le_of_lt_succ (Nat.mod_lt _ (by decide))
    simp only [Rec.of, h0, hctr, Fmt.w]
    refine ⟨hs, hpol, ?_⟩
    show fld r.toNat 4 4 + fld r.toNat 8 5 + fld r.toNat 12 9 ≤
      if (if fld r.toNat 4 4 + fld r.toNat 8 5 + fld r.toNat 12 9 ≤ 4 then 0 else 1) = 1 then 8 else 4
    split <;> split <;> omega
  · simp only [if_neg h0, Bool.and_eq_true, decide_eq_true_eq] at h
    obtain ⟨⟨⟨⟨⟨⟨hk, -⟩, -⟩, -⟩, -⟩, -⟩, -⟩ := h
    obtain h1 | h1 | h1 : fld r.toNat 3 0 = 1 ∨ fld r.toNat 3 0 = 2 ∨ fld r.toNat 3 0 = 3 := by omega
    all_goals
      simp only [Rec.of, h1, reduceIte, Nat.reduceEqDiff]
      decide

/-- The record of a conversion is valid, and the segment that the word names lies in the register (R127). -/
theorem cvtRecord_some {e : Env} {o : RRR} {x : Rec} (h : cvtRecord e o = some x) :
    (∃ r, recValid r = true ∧ x = Rec.of r) ∧ 64 * x.cw * (fld (Enc.IX o) 2 0 + 1) ≤ 2048 := by
  simp only [cvtRecord] at h
  split at h
  · cases h
  · rename_i hv
    split at h
    · rename_i hg
      cases h
      rw [Nat.mul_comm]
      exact ⟨⟨_, by rwa [Bool.not_eq_true, Bool.not_eq_false'] at hv, rfl⟩, Nat.mul_le_of_le_div _ _ _ hg⟩
    · cases h

/-- `vcvt.fn` writes a code that fits in its container. -/
theorem narrowCode_lt {r : BitVec 128} (h : recValid r = true) (rm : RMode) (c : Nat) :
    (narrowCode (Rec.of r) rm c).1 < 2 ^ (Rec.of r).cw := by
  obtain ⟨hs, hp, hw⟩ := rec_of_valid h
  exact Nat.lt_of_lt_of_le (encode_lt hs hp rm _ _) (Nat.pow_le_pow_right (by decide) hw)

/-- The 5-bit format of chapter 03's worked patterns in an 8-bit container: 5.3 is encoded as `0x0B`. -/
theorem narrowCode_worked_pattern :
    recValid 0x8030270 = true ∧ (Rec.of 0x8030270).f = ⟨1, 3, 1, 3, 0⟩ ∧ narrowCode (Rec.of 0x8030270) 0 0x40A9999A = (0x0B, 0) := by
  decide +kernel

/-! ## Segments (R127) -/

/-- A segment of 64 elements, shifted to its place, fits where the segments up to it fit. -/
theorem segment_lt {seg w g size : Nat} (hseg : seg < 2 ^ (w * 64)) (hg : 64 * w * (g + 1) ≤ size) :
    seg <<< (64 * w * g) < 2 ^ size := by
  rw [Nat.shiftLeft_eq]
  calc seg * 2 ^ (64 * w * g) < 2 ^ (w * 64) * 2 ^ (64 * w * g) := Nat.mul_lt_mul_of_pos_right hseg (Nat.two_pow_pos _)
    _ = 2 ^ (64 * w * (g + 1)) := by rw [← Nat.pow_add, Nat.mul_comm w 64, Nat.mul_add_one, Nat.add_comm]
    _ ≤ 2 ^ size := Nat.pow_le_pow_right (by decide) hg

/-- The elements of a segment, each put into its own container. -/
theorem elem_segment {w g i : Nat} {code : Nat → Nat} (hcode : ∀ i, code i < 2 ^ w) (hg : 64 * w * (g + 1) ≤ 2048) (hi : i < 64) :
    elem (BitVec.ofNat 2048 ((List.range 64).foldr (fun i n => code i + 2 ^ w * n) 0 <<< (64 * w * g))) w (64 * g + i) = code i := by
  obtain ⟨hlt, hdigit⟩ := digits_spec w code hcode 64 0
  rw [show List.map (· + 0) (List.range 64) = List.range 64 from List.map_id _] at hlt hdigit
  have hd := hdigit i hi
  generalize (List.range 64).foldr (fun i n => code i + 2 ^ w * n) 0 = seg at hlt hd ⊢
  have hplace : w * (64 * g + i) = 64 * w * g + w * i := by rw [Nat.mul_add, ← Nat.mul_assoc, Nat.mul_comm w 64]
  rw [elem, BitVec.toNat_ofNat, Nat.mod_eq_of_lt (segment_lt hlt hg), hplace, Nat.shiftRight_add, Nat.shiftLeft_shiftRight,
    Nat.shiftRight_eq_div_pow, hd, Nat.add_zero]

/-- The lanes of segment `g`, `n` lanes wide. -/
theorem getLsbD_segment (n g : Nat) {i : Nat} (hi : i < 64) :
    (BitVec.ofNat 64 ((2 ^ n - 1) <<< (n * g))).getLsbD i = decide (n * g ≤ i ∧ i < n * (g + 1)) := by
  rw [BitVec.getLsbD_ofNat, Nat.testBit_shiftLeft, Nat.testBit_two_pow_sub_one, Nat.mul_succ, Bool.eq_iff_iff]
  simp only [hi, decide_true, Bool.true_and, Bool.and_eq_true, decide_eq_true_eq]
  omega

/-! ## Vector words -/

/-- The result of latency `lat` that puts `v i` into every lane `i` that the mask selects, with the flags of these lanes (R115, R116). -/
def lanesFly (lat : Nat) (o : RRR) (e : Env) (s : State) (v : Nat → Nat × BitVec 3) : Fly :=
  { lat := lat, op := .vector o.d.toNat (ofLanes fun i => BitVec.ofNat 32 (v i).1) (s.lanes e o)
    stat := laneFlags (s.lanes e o) fun i => (v i).2 }

section
variable {s : State} {h : Hdr} {o : RRR} {e : Env}

/-- A vector word that computes lane by lane. -/
theorem vissue_vres {lat : Nat} {body : Env → State → Res} {v : Nat → Nat × BitVec 3} (H : Issues s h lat (vports o) e)
    (hb : body e.popped s = vres lat o e.popped s v) :
    vissue h lat (vports o) body s = .next (s.vissued e.popped (vports o).pop (lanesFly lat o e.popped s v)) :=
  vissued_of H hb

/-- A vector word that traps leaves the word counts alone, or starts its handler's at 0: it counts nothing in `VBUSY`. -/
theorem vissue_trap {lat c f i es : Nat} {r : Resume} {p : Ports} {body : Env → State → Res} (H : Issues s h lat p e)
    (hb : body e.popped s = .trap c f i r es) :
    vissue h lat p body s = .next (s.raise e.core e.slot (e.info c f i r es)).nextCore := by
  refine vtrapped_of H hb fun k' hk' => ?_
  have hwc := State.raise_wc (State.task_of_env H.env) (e.info c f i r es) hk' e.t
  rw [State.env_wc H.env]
  omega

/-- FP32 arithmetic: the operands are flushed first and the result last (R86, R117). -/
theorem vf32_of {lat : Nat} (H : Issues s h lat (vports o) e) (g : RMode → Nat → Nat → Nat → Nat × BitVec 3) :
    vf32 lat g h o s = .next (s.vissued e.popped (vports o).pop (lanesFly lat o e.popped s fun i =>
      flushRes e.ftz (g e.rm (flushed e.ftz (lane (s.vsrc e.popped o.a) i)) (flushed e.ftz (lane (s.vsrc e.popped o.b) i))
        (flushed e.ftz (lane (s.vsrc e.popped o.c) i))))) :=
  vissue_vres H rfl
/-- A change of bits, never flushed (R85). -/
theorem vbits_of (H : Issues s h 4 (vports o) e) (g : Lane → Lane) :
    vbits g h o s = .next (s.vissued e.popped (vports o).pop
      (lanesFly 4 o e.popped s fun i => ((g (lane (s.vsrc e.popped o.a) i)).toNat, 0))) :=
  vissue_vres H rfl
/-- Packed arithmetic, on both halves of a lane (R87, R123). -/
theorem vhalf_of (H : Issues s h 4 (vports o) e) (g : Fmt → RMode → Nat → Nat → Nat → Nat × BitVec 3) :
    vhalf g h o s = .next (s.vissued e.popped (vports o).pop (lanesFly 4 o e.popped s fun i =>
      perHalf (g (halfFmt o) e.rm) (lane (s.vsrc e.popped o.a) i) (lane (s.vsrc e.popped o.b) i) (lane (s.vsrc e.popped o.c) i))) :=
  vissue_vres H rfl
/-- A conversion lane by lane (R128). -/
theorem vcvt_of (H : Issues s h 4 (vports o) e) (g : RMode → Lane → Lane → Nat × BitVec 3) :
    vcvt g h o s = .next (s.vissued e.popped (vports o).pop (lanesFly 4 o e.popped s fun i =>
      g e.rm (lane (s.vsrc e.popped o.a) i) (lane (s.vsrc e.popped o.b) i))) :=
  vissue_vres H rfl

/-- Element `k` of a lane of two 16-bit elements. -/
theorem half_of_lane (x : Lane) (k : Nat) :
    x.toNat / 65536 ^ (k % 2) % 65536 = if k % 2 = 0 then x.toNat % 2 ^ 16 else x.toNat / 2 ^ 16 := by
  have hx := x.isLt
  obtain h | h : k % 2 = 0 ∨ k % 2 = 1 := by omega
  · rw [if_pos h, h, Nat.pow_zero, Nat.div_one, show (65536 : Nat) = 2 ^ 16 from rfl]
  · rw [if_neg (by omega), h, Nat.pow_one]; omega

/-! ### Conversions through the format table (R127) -/

section
variable (H : Issues s h 4 (vports o) e) (hp : s.fmtPending e.popped (Enc.FX o) = false)
include H hp

/-- An entry that is empty, or a segment that does not fit. -/
theorem cvt_format (hr : cvtRecord e.popped o = none) :
    let t : Out := .next (s.raise e.core e.slot (e.info cFormat 0 0 .again 0)).nextCore
    execVcvtNf h o s = t ∧ execVcvtFn h o s = t := by
  constructor <;> exact vissue_trap H (by simp only [hp, hr]; rfl)

variable {x : Rec} (hr : cvtRecord e.popped o = some x)
include hr

/-- Codes of a segment widened to FP32. -/
theorem vcvtNf_of : execVcvtNf h o s = .next (s.vissued e.popped (vports o).pop (lanesFly 4 o e.popped s fun i =>
    widenCode x e.rm (elem (s.vsrc e.popped o.a) x.cw (64 * fld (Enc.IX o) 2 0 + i)))) :=
  vissue_vres H (by simp only [hp, hr]; rfl)

/-- FP32 values narrowed to the codes of a segment, of which only the lanes are written. -/
theorem vcvtFn_of : ∃ v lanes,
    execVcvtFn h o s = .next (s.vissued e.popped (vports o).pop
      { lat := 4, op := .vector o.d.toNat v lanes
        stat := laneFlags (BitVec.allOnes 64) fun i => (narrowCode x e.rm (lane (s.vsrc e.popped o.a) i).toNat).2 }) ∧
    (∀ i, i < 64 → elem v x.cw (64 * fld (Enc.IX o) 2 0 + i) = (narrowCode x e.rm (lane (s.vsrc e.popped o.a) i).toNat).1) ∧
    ∀ i, i < 64 → lanes.getLsbD i =
      decide (2 * x.cw * fld (Enc.IX o) 2 0 ≤ i ∧ i < 2 * x.cw * (fld (Enc.IX o) 2 0 + 1)) := by
  obtain ⟨⟨r, hv, rfl⟩, hg⟩ := cvtRecord_some hr
  refine ⟨_, _, vissued_of H (by simp only [hp, hr]; rfl), fun i hi => ?_, fun i hi => getLsbD_segment _ _ hi⟩
  exact elem_segment (fun i => narrowCode_lt hv _ _) hg hi

end

end

/-! ## The statements -/

/-- Settles O9: each word by the lemma of FP32 arithmetic, or by that of changes of bits. -/
theorem vectorFp32Results : Obligations.vector_fp32_results := by
  intro h o s e x z w r f
  exact ⟨fun H => ⟨(exec_vaddF32 h o s).trans (vf32_of H _), (exec_vsubF32 h o s).trans (vf32_of H _),
      (exec_vmulF32 h o s).trans (vf32_of H _), (exec_vfmaF32 h o s).trans (vf32_of H _), (exec_vfmsF32 h o s).trans (vf32_of H _),
      (exec_vfnmaF32 h o s).trans (vf32_of H _), (exec_vminF32 h o s).trans (vf32_of H _), (exec_vmaxF32 h o s).trans (vf32_of H _),
      (exec_vabsF32 h o s).trans (vbits_of H _), (exec_vnegF32 h o s).trans (vbits_of H _)⟩,
    fun H => ⟨(exec_vrcpF32 h o s).trans (vf32_of H _), (exec_vrsqF32 h o s).trans (vf32_of H _),
      (exec_vexp2F32 h o s).trans (vf32_of H _), (exec_vlog2F32 h o s).trans (vf32_of H _)⟩⟩

/-- Settles O10: each word by the lemma of packed arithmetic. -/
theorem vectorPackedResults : Obligations.vector_packed_results := by
  intro h o s e H fm lo hi w r
  exact ⟨(exec_vaddH h o s).trans (vhalf_of H _), (exec_vsubH h o s).trans (vhalf_of H _), (exec_vmulH h o s).trans (vhalf_of H _),
    (exec_vfmaH h o s).trans (vhalf_of H _), (exec_vminH h o s).trans (vhalf_of H _), (exec_vmaxH h o s).trans (vhalf_of H _)⟩

/-- Settles O13: the conversions of R128 lane by lane; those of R127 by the answer of the format table. -/
theorem conversionResults : Obligations.conversion_results := by
  intro h o s e H a b w fm g fly r
  refine ⟨(exec_vcvtF32I32 h o s).trans (vcvt_of H _), (exec_vcvtI32F32 h o s).trans (vcvt_of H _),
    (exec_vcvtHF32 h o s).trans (vcvt_of H _), ?_, fun hp => ⟨fun hr => ?_, fun x hr => ⟨?_, ?_⟩⟩⟩
  · simp only [← half_of_lane]
    exact (exec_vcvtF32H h o s).trans (vcvt_of H _)
  · rw [exec_vcvtNf, exec_vcvtFn]
    exact cvt_format H hp hr
  · exact (exec_vcvtNf h o s).trans (vcvtNf_of H hp hr)
  · rw [exec_vcvtFn]
    exact vcvtFn_of H hp hr

end Sys2Proof.Machine.NumberFormats
end

