-- ==== Sys2Proof/Proofs/ScalarControl.lean ====
section
/-!
Scalar and control words (chapter 04): their encodings (R59, R90, R91, R107), the results of scalar words by what they mean for numbers
and bits (R90 to R94), spill and control registers (R105, R106), control flow (R96 to R100), system words and rendezvous words (R107 to
R113, R389).
-/
namespace Sys2Proof.Machine.ScalarControl

/-! ## Encodings (R59) -/

section
variable {i : Instr} {h : Hdr} {mj mn : Nat}

/-- The check of `TOK` (R24). -/
theorem tokOk_iff : Enc.tokOk h = true ↔ h.tokens := by
  simp [Enc.tokOk, Hdr.tokens, ← BitVec.toNat_inj, Decidable.imp_iff_not_or]
/-- The checks of the specifier positions (R16, R17, R89). -/
theorem isA_iff {n : BitVec 7} : Enc.isA h.str n = true ↔ h.areg n := by
  unfold Enc.isA Hdr.areg
  split <;> simp
theorem isSrc_iff {n : BitVec 7} : Enc.isSrc h.str n = true ↔ h.source n := by
  simp [Enc.isSrc, Enc.isQi, Hdr.source, isA_iff]
theorem isDst_iff {n : BitVec 7} : Enc.isDst h.str n = true ↔ h.dest n := by
  simp [Enc.isDst, Hdr.dest, isA_iff, or_assoc, and_assoc]

/-- The `TOK` bits are the only check beside those of the word's own fields. -/
theorem wellFormed_iff (hh : Enc.header i = some h) : WellFormed i = true ↔ h.tokens ∧ ∀ c ∈ Enc.checks i, c.1 = true := by
  simp only [WellFormed, illegal, hh, ← tokOk_iff]
  by_cases ht : Enc.tokOk h = true
  · simp [ht, List.find?_eq_none]
  · simp [ht]

/-- A word is coded by the row that `encode` writes, with the limits that its checks say. -/
theorem coded_of {ops : BitVec 46} {fields : Prop} (hh : Enc.header i = some h) (he : encode i = some (Dec.pack h mj mn ops))
    (hj : mj < 64) (hn : mn < 16) (hc : (∀ c ∈ Enc.checks i, c.1 = true) ↔ fields) : Coded i mj mn (h.tokens ∧ fields) := by
  refine ⟨by rw [wellFormed_iff hh, hc], _, he, ?_, ?_⟩
  · rw [major_pack, BitVec.toNat_ofNat, Nat.mod_eq_of_lt hj]
  · rw [minor_pack, BitVec.toNat_ofNat, Nat.mod_eq_of_lt hn]

/-- `op D, A, B` (R90). -/
theorem coded_scalar3 {o : RRR} (hh : Enc.header i = some h) (he : encode i = some (Dec.pack h 0 mn (Dec.bitsRRR o)))
    (hc : Enc.checks i = Enc.scalar3 h o) (hn : mn < 16) :
    Coded i 0 mn (h.tokens ∧ h.dest o.d ∧ h.source o.a ∧ h.source o.b ∧ o.c = 0 ∧ o.md = 0) := by
  refine coded_of hh he (by decide) hn ?_
  simp [hc, Enc.scalar3, Enc.spec, Enc.zero, isDst_iff, isSrc_iff, ← BitVec.toNat_inj]
/-- `op D, A, imm` (R91). -/
theorem coded_scalarImm {o : RRI} (hh : Enc.header i = some h) (he : encode i = some (Dec.pack h 1 mn (Dec.bitsRRI o)))
    (hc : Enc.checks i = Enc.scalarImm h o) (hn : mn < 16) : Coded i 1 mn (h.tokens ∧ h.dest o.d ∧ h.source o.a) := by
  refine coded_of hh he (by decide) hn ?_
  simp [hc, Enc.scalarImm, Enc.spec, isDst_iff, isSrc_iff]
/-- The reserved bits above a shift amount are zero exactly when it is below 64 (R91). -/
theorem shiftRsv_eq_zero_iff (imm : BitVec 32) : fld imm.toNat 31 6 = 0 ↔ imm.toNat < 64 := by
  have := imm.isLt
  rw [fld, Nat.shiftRight_eq_div_pow]
  omega
/-- `op D, A, imm` of a shift (R91). -/
theorem coded_scalarShift {o : RRI} (hh : Enc.header i = some h) (he : encode i = some (Dec.pack h 1 mn (Dec.bitsRRI o)))
    (hc : Enc.checks i = Enc.scalarShift h o) (hn : mn < 16) :
    Coded i 1 mn (h.tokens ∧ h.dest o.d ∧ h.source o.a ∧ o.imm.toNat < 64) := by
  refine coded_of hh he (by decide) hn ?_
  simp [hc, Enc.scalarShift, Enc.scalarImm, Enc.spec, Enc.zero, isDst_iff, isSrc_iff, shiftRsv_eq_zero_iff]
/-- `nop` has no operand (R107). -/
theorem coded_nop (o : SYS) : Coded (.nop h o) 8 0 (h.tokens ∧ o = ⟨0, 0, 0, 0⟩) := by
  refine coded_of rfl rfl (by decide) (by decide) ?_
  obtain ⟨a, b, sub, imm⟩ := o
  simp [Enc.checks, Enc.sys, Enc.zero, ← BitVec.toNat_inj]

/-- A row that the opcode map does not have decodes to nothing (R61). -/
theorem unassigned_of (hr : ∀ h w, ∃ r, Dec.rowOf mj mn h w = .error r) : Unassigned mj mn := by
  intro w hj hn
  obtain ⟨r, hr⟩ := hr (Dec.hdr w) w
  exact ⟨r, by rw [Dec.word, hj, hn, hr]⟩

end

/-! ## Results by their meaning -/

/-- A choice by a test of the model is the choice by what the test says. -/
theorem ite_of_iff {α : Type} {p q : Prop} [Decidable p] [Decidable q] (hpq : p ↔ q) {x y : α} :
    (if p then x else y) = if q then x else y :=
  ite_congr (propext hpq) (fun _ => rfl) fun _ => rfl

section
variable (a b : Word)

/-- The high half of the signed product (R90). -/
theorem mulHigh_eq : mulHigh a b = (a.signExtend 128 * b.signExtend 128).extractLsb' 64 64 := by
  have hp : a.signExtend 128 * b.signExtend 128 = BitVec.ofInt 128 (a.toInt * b.toInt) := (BitVec.ofInt_mul _ _).symm
  rw [hp, mulHigh]
  apply BitVec.eq_of_toNat_eq
  rw [BitVec.extractLsb'_toNat, BitVec.toNat_ofInt, BitVec.toNat_ofInt, Nat.shiftRight_eq_div_pow]
  generalize a.toInt * b.toInt = p
  omega
/-- The high half of the unsigned product (R90). -/
theorem mulHighU_eq : mulHighU a b = (a.zeroExtend 128 * b.zeroExtend 128).extractLsb' 64 64 := by
  apply BitVec.eq_of_toNat_eq
  have ha : (a.zeroExtend 128).toNat = a.toNat := BitVec.toNat_setWidth_of_le (by decide)
  have hb : (b.zeroExtend 128).toNat = b.toNat := BitVec.toNat_setWidth_of_le (by decide)
  rw [mulHighU, BitVec.toNat_ofNat, BitVec.extractLsb'_toNat, BitVec.toNat_mul, ha, hb, Nat.shiftRight_eq_div_pow]
  generalize a.toNat * b.toNat = p
  omega

/-- A field extended with zeros (R92). -/
theorem ofNat_bitsAt (pos len : Nat) : BitVec.ofNat 64 (bitsAt a pos len) = (a.extractLsb' pos len).setWidth 64 := by
  apply BitVec.eq_of_toNat_eq
  rw [BitVec.toNat_ofNat, BitVec.toNat_setWidth, BitVec.extractLsb'_toNat, bitsAt]
/-- A field extended with its sign (R92). -/
theorem ofInt_sextI_bitsAt (pos len : Nat) :
    BitVec.ofInt 64 (sextI (bitsAt a pos len) len) = (a.extractLsb' pos len).signExtend 64 := by
  rw [BitVec.signExtend, BitVec.toInt, BitVec.extractLsb'_toNat, sextI, bitsAt, Nat.mod_mod, Nat.mul_comm]

/-- All bits above the highest 1 are 0 (R92). -/
theorem clz64_spec : clz64 a ≤ 64 ∧ (∀ k, 64 - clz64 a ≤ k → k < 64 → a.getLsbD k = false) ∧
    (clz64 a < 64 → a.getLsbD (63 - clz64 a) = true) := by
  by_cases h0 : a = 0
  · simp [clz64, h0]
  · have hn : a.toNat ≠ 0 := fun h => h0 (BitVec.eq_of_toNat_eq h)
    have hl : a.toNat.log2 < 64 := (Nat.log2_lt hn).2 a.isLt
    rw [clz64, if_neg h0]
    refine ⟨by omega, fun k hk _ => ?_, fun _ => ?_⟩
    · exact Nat.testBit_lt_two_pow (Nat.lt_of_lt_of_le Nat.lt_log2_self (Nat.pow_le_pow_right (by decide) (by omega)))
    · rw [show 63 - (63 - a.toNat.log2) = a.toNat.log2 by omega]
      exact Nat.testBit_log2 hn
/-- All bits below the lowest 1 are 0 (R92). -/
theorem ctz64_spec : ctz64 a ≤ 64 ∧ (∀ k, k < ctz64 a → a.getLsbD k = false) ∧ (ctz64 a < 64 → a.getLsbD (ctz64 a) = true) := by
  unfold ctz64
  cases hf : (List.range 64).find? fun k => a.getLsbD k with
  | none =>
    rw [List.find?_range_eq_none] at hf
    exact ⟨Nat.le_refl _, fun k hk => by simpa using hf k hk, fun h => absurd h (Nat.lt_irrefl _)⟩
  | some n =>
    obtain ⟨hn, hmem, hlt⟩ := List.find?_range_eq_some.1 hf
    exact ⟨Nat.le_of_lt (List.mem_range.1 hmem), fun k hk => by simpa using hlt k hk, fun _ => hn⟩

/-- A number whose binary digits are put down one after the other, the highest first. -/
theorem testBit_foldl_double (f : Nat → Bool) {n k : Nat} (hk : k < n) :
    ((List.range n).foldl (fun m j => 2 * m + (if f j then 1 else 0)) 0).testBit k = f (n - 1 - k) := by
  induction n generalizing k with
  | zero => exact absurd hk (Nat.not_lt_zero k)
  | succ n ih =>
    rw [List.range_succ, List.foldl_append, List.foldl_cons, List.foldl_nil]
    generalize (List.range n).foldl (fun m j => 2 * m + (if f j then 1 else 0)) 0 = m at ih ⊢
    cases k with
    | zero => cases hf : f n <;> simp [Nat.testBit_zero, hf]
    | succ k =>
      rw [Nat.testBit_succ, show (2 * m + (if f n then 1 else 0)) / 2 = m by split <;> omega, ih (by omega)]
      congr 1
      omega
/-- The bits in the other order (R92). -/
theorem brev64_getLsbD {k : Nat} (hk : k < 64) : (brev64 a).getLsbD k = a.getLsbD (63 - k) := by
  rw [brev64, BitVec.getLsbD_ofNat, testBit_foldl_double _ hk]
  simp [hk]

end

/-- A number is the bits above a field, the field and the bits below it. -/
theorem setFld_eq (x v pos : Nat) {len : Nat} (hl : 1 ≤ len) :
    setFld x (pos + len - 1) pos v = 2 ^ pos * (2 ^ len * (x / 2 ^ pos / 2 ^ len) + v % 2 ^ len) + x % 2 ^ pos := by
  rw [setFld, fld, show pos + len - 1 + 1 - pos = len by omega, Nat.shiftRight_eq_div_pow]
  have hx := Nat.div_add_mod x (2 ^ pos)
  have hq := Nat.div_add_mod (x / 2 ^ pos) (2 ^ len)
  generalize x / 2 ^ pos = q at hx hq ⊢
  generalize 2 ^ len * (q / 2 ^ len) = u at hq ⊢
  generalize q % 2 ^ len = f at hq ⊢
  generalize x % 2 ^ pos = r at hx ⊢
  subst hq hx
  rw [Nat.mul_comm f, Nat.mul_comm (v % 2 ^ len), Nat.mul_add, Nat.mul_add]
  omega
/-- The bits of a number with a field replaced (R4). -/
theorem testBit_setFld (x v pos : Nat) {len : Nat} (hl : 1 ≤ len) (k : Nat) :
    (setFld x (pos + len - 1) pos v).testBit k = if pos ≤ k ∧ k < pos + len then v.testBit (k - pos) else x.testBit k := by
  rw [setFld_eq x v pos hl, Nat.testBit_two_pow_mul_add _ (Nat.mod_lt _ (Nat.two_pow_pos _)),
    Nat.testBit_two_pow_mul_add _ (Nat.mod_lt _ (Nat.two_pow_pos _))]
  obtain hk | ⟨hk, hk'⟩ | hk : k < pos ∨ (pos ≤ k ∧ k < pos + len) ∨ pos + len ≤ k := by omega
  · rw [if_pos hk, if_neg (by omega), Nat.testBit_mod_two_pow]
    simp [hk]
  · rw [if_neg (by omega), if_pos (by omega), if_pos ⟨hk, hk'⟩, Nat.testBit_mod_two_pow]
    simp [show k - pos < len by omega]
  · rw [if_neg (by omega), if_neg (by omega), if_neg (by omega), Nat.testBit_div_two_pow, Nat.testBit_div_two_pow]
    congr 1
    omega

/-! ## Words with a result in flight -/

section
variable {s : State} {h : Hdr} {e : Env}

/-- `op D, A, B` (R89, R90). -/
theorem scalarOp_of {o : RRR} {lat : Nat} {f : Word → Word → Word} {v : Word} (H : Issues s h lat (ports o.a o.b o.d) e)
    (hv : f (e.popped.src o.a) (e.popped.src o.b) = v) :
    scalarOp lat f h o s =
      .next (s.issued e.popped (ports o.a o.b o.d).pop { lat := lat, op := .scalar o.d.toNat v }) :=
  hv ▸ issued_of H rfl
/-- `op D, A, imm` (R91). -/
theorem scalarImmOp_of {o : RRI} {lat : Nat} {f : Word → BitVec 32 → Word} {v : Word}
    (H : Issues s h lat { pop := isPop o.a, push := pushTarget o.d.toNat } e) (hv : f (e.popped.src o.a) o.imm = v) :
    scalarImmOp lat f h o s = .next (s.issued e.popped (isPop o.a) { lat := lat, op := .scalar o.d.toNat v }) :=
  hv ▸ issued_of H rfl
/-- A bit-field word other than `ins` (R92). -/
theorem bitFieldOp_of {o : RRI} {f : Word → RRI → Word} {v : Word}
    (H : Issues s h 1 { pop := isPop o.a, push := pushTarget o.d.toNat } e) (hv : f (e.popped.src o.a) o = v) :
    bitFieldOp f h o s = .next (s.issued e.popped (isPop o.a) { lat := 1, op := .scalar o.d.toNat v }) :=
  hv ▸ issued_of H rfl
/-- `ins` writes the old value of `D` with the field replaced (R92). -/
theorem execIns_of {o : RRI} (H : Issues s h 1 { pop := isPop o.a } e) :
    execIns h o s =
      .next (s.issued e.popped (isPop o.a) (
        let v := setFld (e.popped.src o.d).toNat (Enc.pos o + Enc.len o - 1) (Enc.pos o) (e.popped.src o.a).toNat
        { lat := 1, op := .scalar o.d.toNat (BitVec.ofNat 64 v) })) :=
  issued_of H rfl
/-- `cmp.cc pd, A, B` (R93). -/
theorem cmpOp_of {o : RRR} {mn : Nat} {v : Bool} (H : Issues s h 1 { pop := isPop o.a || isPop o.b } e)
    (hv : cmpCond mn (e.popped.src o.a) (e.popped.src o.b) = v) :
    cmpOp mn h o s = .next (s.issued e.popped (isPop o.a || isPop o.b) { lat := 1, op := .pred (fld o.md.toNat 17 15) v }) :=
  hv ▸ issued_of H rfl
/-- `cmpi.cc pd, A, imm` (R93). -/
theorem cmpiOp_of {o : RRI} {mn : Nat} {v : Bool} (H : Issues s h 1 { pop := isPop o.a } e)
    (hv : cmpCond mn (e.popped.src o.a) (o.imm.signExtend 64) = v) :
    cmpiOp mn h o s = .next (s.issued e.popped (isPop o.a) { lat := 1, op := .pred (fld o.d.toNat 6 4) v }) :=
  hv ▸ issued_of H rfl
/-- Predicate logic (R94). -/
theorem predOp_of {o : RRR} {f : Bool → Bool → Bool} {v : Bool} (H : Issues s h 1 {} e)
    (hv : f (e.st.pred (fld o.md.toNat 14 12)) (e.st.pred (fld o.md.toNat 11 9)) = v) :
    predOp f h o s = .next (s.issued e.popped false { lat := 1, op := .pred (fld o.md.toNat 17 15) v }) :=
  hv ▸ issued_of H rfl

/-- The condition of `cmp.ne`; the other five are the tests of the statement by definition (R93). -/
theorem cmpCond_ne (a b : Word) : cmpCond 1 a b = decide (a ≠ b) := decide_not.symm

/-- The control registers that `C` may write (R29). -/
theorem cregWritable_iff (n : Nat) : Enc.cregWritable n = true ↔ n ∈ [0x02, 0x08, 0x09, 0x0A, 0x0B, 0x12] := by
  simp [Enc.cregWritable, or_assoc]

/-! ## Control flow (R96 to R100) -/

/-- A word that compares with 0 and branches (R97). -/
theorem branchOp_of {o : BRA} {cond : Word → Bool} {taken : Bool} (H : Evaluates s h (isPop o.a) e)
    (hc : cond (e.popped.src o.a) = taken) :
    branchOp cond h o s =
      .next ((s.updTask e.core e.slot fun k =>
        (k.pushOutcome e.t.code ⟨s.cyc, taken, directTarget e.st.ip o, 0, true⟩).updStr e.t id).doneAs e.popped (isPop o.a)
          (if taken then some (directTarget e.st.ip o) else none)) :=
  hc ▸ control_of H rfl
/-- An indirect form with an aligned target (R57, R98). -/
theorem indirect_aligned {o : BRA} {link : Option Nat} {on : Bool} (ha : (e.src o.a).toNat % 8 = 0) :
    indirect o link e on = .go true (e.src o.a).toNat 0 (link.map fun l => (l, linkOf e.st.ip)) :=
  if_neg fun hc => hc.1 ha
/-- An indirect form with another target (R57). -/
theorem indirect_misaligned {o : BRA} {link : Option Nat} (ha : (e.src o.a).toNat % 8 ≠ 0) :
    indirect o link e true = .misaligned (e.src o.a).toNat :=
  if_pos ⟨ha, .inl rfl⟩

/-- What a link changes in its strand, by the header of the word (R49, R52). -/
theorem setLink_eq (he : e.h = h) (x : StrandSt) (cyc n : Nat) (v : Word) :
    x.setLink e cyc n v =
      let from_ := if h.dst.toNat = 15 then never else cyc + h.dst.toNat
      if e.task.tagd = true then x.setReg n v
      else { x.setReg n v with haz := SMap.upd (x.setReg n v).haz 0 (84 + n) fun c => max c from_ } :=
  he ▸ rfl
/-- A call whose link changes its strand by `own` (R98). -/
theorem call_of {pop : Bool} {eval : Env → Bool → Eval} {target n : Nat} {v : Word} {own : StrandSt → StrandSt}
    (H : Evaluates s h pop e) (hb : eval e.popped true = .go true target 0 (some (n, v)))
    (hown : ∀ x, x.setLink e s.cyc n v = own x) :
    control h pop eval noEffect s =
      .next ((s.updTask e.core e.slot fun k =>
        (k.pushOutcome e.t.code ⟨s.cyc, true, target, 0, true⟩).updStr e.t own).doneAs e.popped pop (some target)) :=
  funext hown ▸ control_link_of H hb

/-! ## System words (R107 to R113) -/

/-- `trap` and `tret` in handler mode are a rendezvous word (R389). -/
theorem trapOp_handler {o : SYS} (he : s.env? h = some e) (hh : e.task.handler ≠ none) :
    trapOp h o s = rendezvous h 0 (fun e s => s.drained e.core e.slot) (fun e s => .leave (s.leaveTrap e.core e.slot)) s := by
  simp only [trapOp, he, if_pos (Option.isSome_iff_ne_none.2 hh)]
/-- `trap` and `tret` outside handler mode raise Software (R112). -/
theorem trapOp_of {o : SYS} (H : Issues s h 0 {} e) (hh : e.task.handler = none) :
    trapOp h o s = .next (s.raise e.core e.slot (e.info 0x000D 0 (fld o.imm.toNat 15 0) .after 0)).nextCore := by
  simp only [trapOp, H.env, hh, Option.isSome_none, Bool.false_eq_true, if_false]
  exact trapped_of H rfl
/-- `brk` without a debugger (R113). -/
theorem execBrk_of {o : SYS} (H : Issues s h 0 {} e) (hd : (s.ctx e.task.key).debugger = false) :
    execBrk h o s = .next (s.raise e.core e.slot (e.info 0x000E 0 (fld o.imm.toNat 15 0) .after 0)).nextCore :=
  trapped_of H (if_neg (Bool.eq_false_iff.1 hd))
/-- `brk` with a debugger: a save of the context begins, and the strand goes on after the word (R113, R373). -/
theorem execBrk_debugger {o : SYS} (H : Issues s h 0 {} e) (hd : (s.ctx e.task.key).debugger = true) :
    execBrk h o s =
      .next (((s.updTask e.core e.slot fun k => k.updStr e.t fun x => { x with ip := x.ip + 1 }).updCtx e.task.key fun c =>
        { c with phase := .saving 3 }).nextCore) := by
  rw [execBrk, issue_of H]
  exact congrArg (fun r => Host.Outcome.next (s.settle e.popped false r)) (if_pos hd)

/-! ## Rendezvous words (R103) -/

section
variable {lat : Nat} {ready : Env → State → Bool} {body : Env → State → Meet} {s' : State} (H : Decides s h e) (hr : ready e s = true)
include H hr

/-- A rendezvous word that all strands pass. -/
theorem rendezvous_pass_of (hb : body e s = .pass s') : rendezvous h lat ready body s = .next (s'.meetPass e).nextCore := by
  rw [rendezvous_of H hr, hb]
/-- A rendezvous word that nobody passes. -/
theorem rendezvous_leave_of (hb : body e s = .leave s') : rendezvous h lat ready body s = .next s'.nextCore := by
  rw [rendezvous_of H hr, hb]

end

end

/-! ## The statements -/

/-- Settles O1: the encodings by the checks of `op D, A, B`; each result by that of the operation, with the two high halves and the
orders by what they mean for numbers. -/
theorem scalarArithmeticResults : Obligations.scalar_arithmetic_results := by
  refine ⟨fun h o => ?_, unassigned_of fun _ _ => ⟨_, rfl⟩, fun h o s e => ⟨fun H => ?_, fun H => ?_⟩⟩
  · simp only [List.forall_mem_cons, List.not_mem_nil, false_implies, implies_true, and_true]
    refine ⟨?_, ?_, ?_, ?_, ?_, ?_, ?_, ?_, ?_, ?_, ?_, ?_, ?_, ?_, ?_⟩ <;> exact coded_scalar3 rfl rfl rfl (by decide)
  · exact ⟨(exec_add h o s).trans (scalarOp_of H rfl), (exec_sub h o s).trans (scalarOp_of H rfl),
      (exec_and h o s).trans (scalarOp_of H rfl), (exec_or h o s).trans (scalarOp_of H rfl),
      (exec_xor h o s).trans (scalarOp_of H rfl), (exec_shl h o s).trans (scalarOp_of H rfl),
      (exec_shr h o s).trans (scalarOp_of H rfl), (exec_sra h o s).trans (scalarOp_of H rfl),
      (exec_min h o s).trans (scalarOp_of H (ite_of_iff BitVec.slt_iff_toInt_lt)),
      (exec_max h o s).trans (scalarOp_of H (ite_of_iff BitVec.slt_iff_toInt_lt)),
      (exec_minu h o s).trans (scalarOp_of H (ite_of_iff BitVec.ult_iff_lt)),
      (exec_maxu h o s).trans (scalarOp_of H (ite_of_iff BitVec.ult_iff_lt))⟩
  · exact ⟨(exec_mul h o s).trans (scalarOp_of H rfl), (exec_mulh h o s).trans (scalarOp_of H (mulHigh_eq _ _)),
      (exec_mulhu h o s).trans (scalarOp_of H (mulHighU_eq _ _))⟩

/-- Settles O2: the encodings by the checks of `op D, A, imm` and of its shifts; each result by that of the operation. -/
theorem scalarImmediateResults : Obligations.scalar_immediate_results := by
  refine ⟨fun h o => ⟨?_, ?_⟩, fun n hlo _ => ?_, fun h o s e => ⟨fun H => ?_, fun H => ?_⟩⟩
  · simp only [List.forall_mem_cons, List.not_mem_nil, false_implies, implies_true, and_true]
    refine ⟨?_, ?_, ?_, ?_, ?_, ?_⟩ <;> exact coded_scalarImm rfl rfl rfl (by decide)
  · simp only [List.forall_mem_cons, List.not_mem_nil, false_implies, implies_true, and_true]
    refine ⟨?_, ?_, ?_⟩ <;> exact coded_scalarShift rfl rfl rfl (by decide)
  · obtain ⟨k, rfl⟩ := Nat.exists_eq_add_of_le' hlo
    exact unassigned_of fun _ _ => ⟨_, rfl⟩
  · exact ⟨(exec_addi h o s).trans (scalarImmOp_of H rfl), (exec_andi h o s).trans (scalarImmOp_of H rfl),
      (exec_ori h o s).trans (scalarImmOp_of H rfl), (exec_xori h o s).trans (scalarImmOp_of H rfl),
      (exec_lih h o s).trans (scalarImmOp_of H (congrArg (o.imm ++ ·) (BitVec.setWidth_eq_extractLsb' (by decide)).symm)),
      (exec_shli h o s).trans (scalarImmOp_of H rfl), (exec_shri h o s).trans (scalarImmOp_of H rfl),
      (exec_srai h o s).trans (scalarImmOp_of H rfl)⟩
  · exact (exec_muli h o s).trans (scalarImmOp_of H rfl)

/-- Settles O3: each result by its meaning for the bits. -/
theorem bitFieldResults : Obligations.bit_field_results := by
  intro h o s e a pos len
  refine ⟨fun H => ⟨fun _ _ => ⟨?_, ?_⟩, ⟨clz64 a, ?_, clz64_spec a⟩, ⟨ctz64 a, ?_, ctz64_spec a⟩, ?_,
      ⟨brev64 a, ?_, fun k => brev64_getLsbD a⟩⟩, fun H hl _ => ⟨BitVec.ofNat 64 _, (exec_ins h o s).trans (execIns_of H), fun k hk => ?_⟩⟩
  · exact (exec_extru h o s).trans (bitFieldOp_of H (ofNat_bitsAt ..))
  · exact (exec_extr h o s).trans (bitFieldOp_of H (ofInt_sextI_bitsAt ..))
  · exact (exec_clz h o s).trans (bitFieldOp_of H rfl)
  · exact (exec_ctz h o s).trans (bitFieldOp_of H rfl)
  · exact (exec_popc h o s).trans (bitFieldOp_of H rfl)
  · exact (exec_brev h o s).trans (bitFieldOp_of H rfl)
  · rw [BitVec.getLsbD_ofNat, decide_eq_true hk, Bool.true_and]
    exact testBit_setFld _ _ _ hl k

/-- Settles O4: each condition is the model's test of the sources; predicate logic word by word. -/
theorem compareResults : Obligations.compare_results := by
  refine ⟨⟨fun h o s e H => ?_, fun h o s e H => ?_⟩, fun h o s e H => ?_⟩
  · exact ⟨(exec_cmpEq h o s).trans (cmpOp_of H rfl), (exec_cmpNe h o s).trans (cmpOp_of H (cmpCond_ne _ _)),
      (exec_cmpLt h o s).trans (cmpOp_of H rfl), (exec_cmpLtu h o s).trans (cmpOp_of H rfl),
      (exec_cmpGe h o s).trans (cmpOp_of H rfl), (exec_cmpGeu h o s).trans (cmpOp_of H rfl)⟩
  · exact ⟨(exec_cmpiEq h o s).trans (cmpiOp_of H rfl), (exec_cmpiNe h o s).trans (cmpiOp_of H (cmpCond_ne _ _)),
      (exec_cmpiLt h o s).trans (cmpiOp_of H rfl), (exec_cmpiLtu h o s).trans (cmpiOp_of H rfl),
      (exec_cmpiGe h o s).trans (cmpiOp_of H rfl), (exec_cmpiGeu h o s).trans (cmpiOp_of H rfl)⟩
  · exact ⟨(exec_pand h o s).trans (predOp_of H rfl), (exec_por h o s).trans (predOp_of H rfl),
      (exec_pxor h o s).trans (predOp_of H rfl), (exec_pandn h o s).trans (predOp_of H rfl),
      (exec_pnot h o s).trans (predOp_of H rfl), (exec_pmov h o s).trans (predOp_of H rfl)⟩

/-- Settles O5: each word by the branch of its body that the offset or the register number chooses. -/
theorem spillAndControlRegisters : Obligations.spill_and_control_registers := by
  intro h o s e off n
  refine ⟨fun H => ⟨fun ho => ?_, fun ho => ?_⟩, fun H => ⟨fun ho => ?_, fun ho => ?_, ?_⟩, fun H => ⟨fun hn => ?_, fun hn => ?_⟩⟩
  · exact (exec_spl h o s).trans (issued_of H (if_neg fun hc => hc ho))
  · exact (exec_spl h o s).trans (trapped_of H (if_pos ho))
  · exact (exec_fil h o s).trans (issued_of H (if_neg fun hc => hc ho))
  · exact (exec_fil h o s).trans (trapped_of H (if_pos ho))
  · exact (exec_crr h o s).trans (issued_of H rfl)
  · have hw : Enc.cregWritable (cregNo o) = true := (cregWritable_iff n).2 hn
    exact (exec_crw h o s).trans (issued_of H (if_neg (by simp [hw])))
  · have hw : ¬ Enc.cregWritable (cregNo o) = true := mt (cregWritable_iff n).1 hn
    exact (exec_crw h o s).trans (trapped_of H (if_pos (by simpa using hw)))

/-- Settles O6: each word by what its evaluation answers. -/
theorem controlFlowResults : Obligations.control_flow_results := by
  intro h o s e tgt link a call go
  have hcall : e.h = h → ∀ n x, x.setLink e s.cyc n link = call n x := fun he n x => setLink_eq he x s.cyc n link
  refine ⟨fun H => ⟨?_, ?_, ?_⟩, fun H => ⟨?_, ?_, ?_, fun ha => ⟨?_, ?_⟩, fun ha => ⟨?_, ?_⟩⟩⟩
  · exact (exec_br h o s).trans (control_of H rfl)
  · exact (exec_call h o s).trans (call_of H rfl (hcall (State.hdr_of_env H.env) _))
  · exact (exec_brloop h o s).trans (control_of H rfl)
  · exact (exec_brz h o s).trans (branchOp_of H rfl)
  · exact (exec_brnz h o s).trans (branchOp_of H decide_not.symm)
  · exact (exec_loop h o s).trans (control_of H rfl)
  · exact (exec_jmpi h o s).trans (control_of H (indirect_aligned ha))
  · exact (exec_calli h o s).trans (call_of H (indirect_aligned ha) (hcall (State.hdr_of_env H.env) _))
  · exact (exec_jmpi h o s).trans (control_misaligned_of H (indirect_misaligned ha))
  · exact (exec_calli h o s).trans (control_misaligned_of H (indirect_misaligned ha))

/-- Settles O7: the encoding by the checks of `nop`, each effect by that of its body. -/
theorem systemWordResults : Obligations.system_word_results := by
  refine ⟨fun _ => coded_nop, rfl, fun h o s e H => ⟨?_, ?_, fun hh => ⟨?_, ?_⟩, fun hd => ?_, fun hd => ?_⟩⟩
  · exact (exec_nop h o s).trans (doneAs_of H rfl)
  · exact (exec_ifence h o s).trans (doneAs_of H rfl)
  · exact (exec_trap h o s).trans (trapOp_of H hh)
  · exact (exec_tret h o s).trans (trapOp_of H hh)
  · exact (exec_brk h o s).trans (execBrk_of H hd)
  · exact (exec_brk h o s).trans (execBrk_debugger H hd)

/-- Settles O8: each word by its body, once it has met and its own waits are over. -/
theorem rendezvousWordResults : Obligations.rendezvous_word_results := by
  intro h o s e H
  refine ⟨fun hl hq => ?_, fun hr => ?_, fun hr => ?_, fun hh hr => ⟨?_, ?_⟩⟩
  · exact (exec_mode h o s).trans (rendezvous_pass_of H (by simp [hl, hq]) rfl)
  · exact (exec_yield h o s).trans (rendezvous_leave_of H hr rfl)
  · refine (exec_exit h o s).trans (rendezvous_leave_of H hr (congrArg Meet.leave (ite_of_iff ?_)))
    simp only [Bool.and_eq_true, Option.isNone_iff_eq_none, decide_eq_true_eq, and_assoc]
  · exact (exec_trap h o s).trans ((trapOp_handler H.env hh).trans (rendezvous_leave_of H hr rfl))
  · exact (exec_tret h o s).trans ((trapOp_handler H.env hh).trans (rendezvous_leave_of H hr rfl))

end Sys2Proof.Machine.ScalarControl
end

