-- ==== Sys2Proof/Proofs/VectorWords.lean ====
section
/-!
Vector words beside the arithmetic of number formats (chapter 05): integer arithmetic (R124), compares and mask logic (R125, R126), lane
moves and reductions (R129, R130).
-/
namespace Sys2Proof.Machine.VectorWords
open NumberFormats ScalarControl

/-! ## Results by their meaning -/

/-- Clamping takes the nearest number between the limits, and sets `OVF` outside them (R124). -/
theorem clampI_eq {lo hi : Int} (hle : lo ≤ hi) (x : Int) :
    clampI x lo hi = (BitVec.ofInt 32 (max lo (min hi x)), if x < lo ∨ hi < x then 2 else 0) := by
  unfold clampI
  obtain hx | hx | ⟨hlo, hhi⟩ : x < lo ∨ hi < x ∨ (lo ≤ x ∧ x ≤ hi) := by omega
  · rw [if_pos hx, if_pos (.inl hx), show max lo (min hi x) = lo by omega]
  · rw [if_neg (by omega), if_pos hx, if_pos (.inr hx), show max lo (min hi x) = hi by omega]
  · rw [if_neg (by omega), if_neg (by omega), if_neg (by omega), show max lo (min hi x) = x by omega]

/-- The condition that a code names, of two operands of which exactly one of "less", "equal" and "greater" holds (R125). -/
def ordCond (cc : Nat) (lt eq gt : Bool) : Bool :=
  match cc with
  | 0 => eq
  | 1 => !eq
  | 2 => lt
  | 3 => lt || eq
  | 4 => gt
  | _ => gt || eq

/-- The integer conditions follow from any order that decides which operand is the less one. -/
theorem icmpCond_of_order {signed : Bool} {a b : Lane} {x y : Int} (cc : Nat) (heq : a = b ↔ x = y)
    (hab : (if signed then a.slt b else a.ult b) = decide (x < y)) (hba : (if signed then b.slt a else b.ult a) = decide (y < x)) :
    icmpCond signed cc a b = ordCond cc (decide (x < y)) (decide (a = b)) (decide (y < x)) := by
  have hne : (a != b) = !decide (a = b) := rfl
  have hnot {u v : Int} : (!decide (u < v)) = (decide (v < u) || decide (u = v)) := by
    rw [← decide_not, ← Bool.decide_or]
    exact decide_eq_decide.2 (by omega)
  simp only [icmpCond, hab, hba, hnot, eq_comm (a := y), ← decide_eq_decide.2 heq]
  match cc with
  | 0 | 1 | 2 | 3 | 4 | _ + 5 => rfl
/-- `vcmp.i32` compares two's-complement numbers (R125). -/
theorem icmpCond_signed (cc : Nat) (a b : Lane) :
    icmpCond true cc a b = ordCond cc (decide (a.toInt < b.toInt)) (decide (a = b)) (decide (b.toInt < a.toInt)) :=
  icmpCond_of_order cc BitVec.toInt_inj.symm BitVec.slt_eq_decide BitVec.slt_eq_decide
/-- `vcmpu.i32` compares unsigned numbers (R125). -/
theorem icmpCond_unsigned (cc : Nat) (a b : Lane) :
    icmpCond false cc a b = ordCond cc (decide (a.toNat < b.toNat)) (decide (a = b)) (decide (b.toNat < a.toNat)) := by
  have hlt (x y : Lane) : x.ult y = decide ((x.toNat : Int) < y.toNat) := decide_eq_decide.2 Int.ofNat_lt.symm
  simpa only [Int.ofNat_lt] using
    icmpCond_of_order (signed := false) cc (BitVec.toNat_inj.symm.trans Int.ofNat_inj.symm) (hlt a b) (hlt b a)

/-- The specifiers of mask registers (R48). -/
theorem isM_iff (n : BitVec 7) : Enc.isM n = true ↔ 76 ≤ n.toNat ∧ n.toNat ≤ 83 := by
  simp [Enc.isM, Nat.lt_succ_iff]

/-- Each lane of a mixed vector comes from where the mask says (R129). -/
theorem lane_mixLanes (old new : Vec) (m : BitVec 64) {i : Nat} (hi : i < 64) :
    lane (mixLanes old new m) i = if m.getLsbD i then lane new i else lane old i :=
  lane_ofLanes _ i hi

/-! ## Reductions (R130) -/

/-- A step of the tree over lanes that take no part. -/
theorem redStep_none (comb : Nat → Nat → Nat × BitVec 3) (n w : Nat) (fl : BitVec 3) :
    redStep comb (List.replicate n none, fl) w = (List.replicate w none, fl) := by
  have hget (j : Nat) : (List.replicate n (none : Option Nat)).getD j none = none := by
    rw [List.getD_eq_getElem?_getD, List.getElem?_replicate]; split <;> rfl
  have hfold (l : List Nat) : l.foldr (fun _ (acc : List (Option Nat) × BitVec 3) => (none :: acc.1, acc.2)) ([], fl) =
      (List.replicate l.length none, fl) := by
    induction l with
    | nil => rfl
    | cons _ l ih => rw [List.foldr_cons, ih]; rfl
  simp only [redStep, hget, hfold, List.length_range]

/-- With no lane selected a reduction is its identity. -/
theorem reduce_no_lane (comb : Nat → Nat → Nat × BitVec 3) (ident : Nat) (v : Vec) : reduce comb ident v 0 = (ident, 0) := by
  have ht : ((List.range 64).map fun i => if (0 : BitVec 64).getLsbD i then some (lane v i).toNat else none) = List.replicate 64 none := by
    simp [List.map_const']
  simp only [reduce, ht, List.foldl_cons, List.foldl_nil, redStep_none]
  rfl

/-! ## Words -/

section
variable {s : State} {h : Hdr} {o : RRR} {e : Env}

/-- The result of latency `lat` that puts `v i` into every lane `i` that the mask selects, with the flags `g`. -/
def bitsFly (lat : Nat) (o : RRR) (e : Env) (s : State) (v : Nat → Lane) (g : Nat → BitVec 3) : Fly :=
  { lat := lat, op := .vector o.d.toNat (ofLanes v) (s.lanes e o), stat := laneFlags (s.lanes e o) g }

/-- Lanes given as bits and not as numbers. -/
theorem lanesFly_toNat (lat : Nat) (v : Nat → Lane) (g : Nat → BitVec 3) :
    lanesFly lat o e s (fun i => ((v i).toNat, g i)) = bitsFly lat o e s v g := by
  simp only [lanesFly, bitsFly, BitVec.ofNat_toNat, BitVec.setWidth_eq]

/-- Integer arithmetic lane by lane (R124). -/
theorem vint_of {f : Lane → Lane → Lane × BitVec 3} {v : Nat → Lane} {g : Nat → BitVec 3} (H : Issues s h 2 (vports o) e)
    (hv : ∀ i, f (lane (s.vsrc e.popped o.a) i) (lane (s.vsrc e.popped o.b) i) = (v i, g i)) :
    vint f h o s = .next (s.vissued e.popped (vports o).pop (bitsFly 2 o e.popped s v g)) := by
  rw [← lanesFly_toNat]
  exact vissue_vres H (by simp only [hv])

/-- No lane sets a flag. -/
theorem laneFlags_zero (lanes : BitVec 64) : laneFlags lanes (fun _ => 0) = 0 :=
  foldl_keeps id _ (fun acc i => by simp) (List.range 64) 0
/-- A move of lanes (R129). -/
theorem moved_of {lat : Nat} {v : Nat → Lane} {body : Env → State → Res} (H : Issues s h lat (vports o) e)
    (hb : body e.popped s = vres lat o e.popped s fun i => ((v i).toNat, 0)) :
    vissue h lat (vports o) body s = .next (s.vissued e.popped (vports o).pop
      { lat := lat, op := .vector o.d.toNat (ofLanes v) (s.lanes e.popped o) }) := by
  rw [vissue_vres H hb, lanesFly_toNat, bitsFly, laneFlags_zero]
/-- A compare into a mask register (R125). -/
theorem vcmpOp_of {f : Nat → Lane → Lane → Bool × BitVec 3} {g : Nat → Bool} {fl : Nat → BitVec 3} {out : Out}
    (H : Issues s h 2 (vports o) e) (hout : out = vcmpOp f h o s)
    (hv : ∀ i, f (Enc.FX o) (lane (s.vsrc e.popped o.a) i) (lane (s.vsrc e.popped o.b) i) = (g i, fl i)) :
    ∃ m : Word, (∀ i, i < 64 → m.getLsbD i = g i) ∧
      out = .next (s.vissued e.popped (vports o).pop
        { lat := 2, op := .mask o.d.toNat m (s.lanes e.popped o), stat := laneFlags (s.lanes e.popped o) fl }) :=
  ⟨ofBits g, fun i hi => ofBits_getLsbD g i hi, hout.trans <| vissued_of H (by simp only [hv])⟩

/-- Mask logic (R126). -/
theorem maskOp_of (H : Issues s h 2 {} e) (f : Word → Word → Word) :
    maskOp f h o s = .next (s.vissued e.popped false
      { lat := 2, op := .mask o.d.toNat (f (s.msrc e.popped o.a) (s.msrc e.popped o.b)) (BitVec.allOnes 64) }) :=
  vissued_of H rfl
/-- `mmov` by what its specifiers name (R126). -/
theorem execMmov_of (H : Issues s h 2 { pop := isPop o.a, push := pushTarget o.d.toNat } e) :
    execMmov h o s = .next (s.vissued e.popped (isPop o.a) (
      let v := if 76 ≤ o.a.toNat ∧ o.a.toNat ≤ 83 then s.msrc e.popped o.a else e.popped.src o.a
      { lat := 2, op := if 76 ≤ o.d.toNat ∧ o.d.toNat ≤ 83 then .mask o.d.toNat v (BitVec.allOnes 64) else .scalar o.d.toNat v })) := by
  simp only [← isM_iff]
  exact vissued_of H rfl

/-- The result of a reduction: in every lane of a vector register, or in a scalar (R130). -/
def redFly (o : RRR) (x : Nat × BitVec 3) : Fly :=
  { lat := 8, stat := x.2
    op := if o.d.toNat < 72 then .vector o.d.toNat (ofLanes fun _ => BitVec.ofNat 32 x.1) (BitVec.allOnes 64)
          else .scalar o.d.toNat (BitVec.ofNat 64 x.1) }

variable {fc : RMode → Nat → Nat → Nat × BitVec 3} {ic : Lane → Lane → Lane} {fi ii : Nat} (H : Issues s h 8 (vports o) e)
include H

/-- A reduction of FP32 values. -/
theorem vredOp_float (hx : Enc.FX o = 0) :
    vredOp fc fi ic ii h o s = .next (s.vissued e.popped (vports o).pop
      (redFly o (reduce (fc e.rm) fi (s.vsrc e.popped o.a) (s.lanes e.popped o)))) :=
  vissued_of H (by simp only [if_pos hx]; rfl)
/-- A reduction of integers. -/
theorem vredOp_int {g : Lane → Lane → Lane} (hx : Enc.FX o ≠ 0) (hg : ∀ x y, ic x y = g x y) :
    vredOp fc fi ic ii h o s = .next (s.vissued e.popped (vports o).pop
      (redFly o (reduce (fun x y => ((g (BitVec.ofNat 32 x) (BitVec.ofNat 32 y)).toNat, 0)) ii
        (s.vsrc e.popped o.a) (s.lanes e.popped o)))) :=
  vissued_of H (by simp only [if_neg hx, hg]; rfl)

end

/-! ## The statements -/

/-- Settles O11: each word lane by lane; the clamped forms by the nearest number between the limits. -/
theorem vectorIntegerResults : Obligations.vector_integer_results := by
  intro h o s e H a b w f r clamp
  exact ⟨(exec_vaddI32 h o s).trans (vint_of H fun _ => rfl), (exec_vsubI32 h o s).trans (vint_of H fun _ => rfl),
    (exec_vmulI32 h o s).trans (vint_of H fun _ => rfl), (exec_vand h o s).trans (vint_of H fun _ => rfl),
    (exec_vor h o s).trans (vint_of H fun _ => rfl), (exec_vxor h o s).trans (vint_of H fun _ => rfl),
    (exec_vshl h o s).trans (vint_of H fun _ => rfl), (exec_vshr h o s).trans (vint_of H fun _ => rfl),
    (exec_vsra h o s).trans (vint_of H fun _ => rfl),
    (exec_vminI32 h o s).trans (vint_of H fun _ => Prod.ext (ite_of_iff BitVec.slt_iff_toInt_lt) rfl),
    (exec_vmaxI32 h o s).trans (vint_of H fun _ => Prod.ext (ite_of_iff BitVec.slt_iff_toInt_lt) rfl),
    (exec_vaddss h o s).trans (vint_of H fun _ => clampI_eq (by decide) _),
    (exec_vsubss h o s).trans (vint_of H fun _ => clampI_eq (by decide) _),
    (exec_vaddus h o s).trans (vint_of H fun _ => clampI_eq (by decide) _),
    (exec_vsubus h o s).trans (vint_of H fun _ => clampI_eq (by decide) _)⟩

/-- Settles O12: the integer conditions by the order of the numbers; mask logic word by word. -/
theorem vectorCompareResults : Obligations.vector_compare_results := by
  refine ⟨fun h o s e H => ?_, fun h o s e => ⟨fun H => ?_, fun H => ?_, fun H => ?_⟩⟩
  · exact ⟨vcmpOp_of H (exec_vcmpI32 h o s) fun _ => Prod.ext (icmpCond_signed ..) rfl,
      vcmpOp_of H (exec_vcmpuI32 h o s) fun _ => Prod.ext (icmpCond_unsigned ..) rfl, vcmpOp_of H (exec_vcmpF32 h o s) fun _ => rfl⟩
  · exact ⟨(exec_mand h o s).trans (maskOp_of H _), (exec_mor h o s).trans (maskOp_of H _), (exec_mxor h o s).trans (maskOp_of H _),
      (exec_mnot h o s).trans (maskOp_of H _), (exec_mandn h o s).trans (maskOp_of H _)⟩
  · exact (exec_mpop h o s).trans (vissued_of H rfl)
  · exact (exec_mmov h o s).trans (execMmov_of H)

/-- Settles O14: each move by the lanes that it writes; reductions by the form that `FX` names. -/
theorem laneMoveResults : Obligations.lane_move_results := by
  refine ⟨fun h o s e H => ?_, fun h o s e H => ⟨fun hx => ?_, fun hx => ?_, fun hw => ?_⟩⟩
  · refine ⟨?_, ?_, ?_, ⟨_, (exec_vsel h o s).trans (vissued_of H rfl), fun i hi => lane_mixLanes _ _ _ hi⟩, ?_, ?_⟩
    · exact (exec_vperm h o s).trans (moved_of H rfl)
    · exact (exec_vpermRot h o s).trans (moved_of H rfl)
    · exact (exec_vbcast h o s).trans (moved_of H rfl)
    · exact (exec_vext h o s).trans (vissued_of H rfl)
    · exact (exec_vins h o s).trans (vissued_of H rfl)
  · exact ⟨(exec_vredAdd h o s).trans (vredOp_float H hx), (exec_vredMin h o s).trans (vredOp_float H hx),
      (exec_vredMax h o s).trans (vredOp_float H hx)⟩
  · exact ⟨(exec_vredAdd h o s).trans (vredOp_int (g := (· + ·)) H hx fun _ _ => rfl),
      (exec_vredMin h o s).trans (vredOp_int (g := fun x y => if x.toInt < y.toInt then x else y) H hx
        fun _ _ => ite_of_iff BitVec.slt_iff_toInt_lt),
      (exec_vredMax h o s).trans (vredOp_int (g := fun x y => if y.toInt < x.toInt then x else y) H hx
        fun _ _ => ite_of_iff BitVec.slt_iff_toInt_lt)⟩
  · rw [hw]
    exact reduce_no_lane ..

end Sys2Proof.Machine.VectorWords
end

