-- ==== Sys2Proof/Proofs/RegisterAccesses.lean ====
section
/-!
Loads and stores of registers: vector and mask registers (R131 to R137), with the checks of their lanes (R135), and scalar stores (R137,
R170, R171).
-/
namespace Sys2Proof.Machine.RegisterAccesses

/-- A word whose distance reaches a latency reaches every smaller one (R51). -/
theorem issues_mono {s : State} {h : Hdr} {lat lat' : Nat} {p : Ports} {e : Env} (hle : lat' ≤ lat) (H : Issues s h lat p e) :
    Issues s h lat' p e :=
  { H with dist := Nat.le_trans hle H.dist }
/-- The header of the word that an environment holds, and its distance. -/
theorem hdr_popped {s : State} {h : Hdr} {lat : Nat} {p : Ports} {e : Env} (H : Issues s h lat p e) : e.popped.h = h :=
  show e.h = h from State.hdr_of_env H.env
theorem dst_of_issues {s : State} {h : Hdr} {lat : Nat} {p : Ports} {e : Env} (H : Issues s h lat p e) : lat ≤ e.popped.h.dst.toNat := by
  rw [hdr_popped H]
  exact H.dist

/-! ## Loads whose lanes pass their checks (R131, R132, R135) -/

/-- What the checks of a vector access answer (R135). -/
def laneChecks (s : State) (e : Env) (glob wr : Bool) (ea : Word) (ls : List LaneAddr) : Addr :=
  if glob then globalLanes e ea ls wr else s.scratchLanes e ea ls
/-- A scratch load has latency 6 or 15. -/
theorem vectorLat_cases (ls : List LaneAddr) : vectorLat ls = 6 ∨ vectorLat ls = 15 := by
  unfold vectorLat
  split
  · exact .inl rfl
  · exact .inr rfl

section
variable {s : State} {e : Env} {glob : Bool} {spec cls : Nat} {table ps : List Piece} {ea : Word} {ls : List LaneAddr}

section
variable (hd : 6 ≤ e.h.dst.toNat) (ha : s.scratchLanes e ea ls = .ok ps) (hl : vectorLat ls = 6) (hw : s.mustWait e cls ps = false)
include hd ha hl hw

/-- A near load reads its bytes at issue. -/
theorem vloadAt_near (hp : s.firstPoison (table ++ ps) = none) :
    vloadAt false spec cls table ea ls e s = .fly s
      { lat := 6, op := if spec < 72 then .vector spec (BitVec.ofNat 2048 (s.gather ps)) (BitVec.allOnes 64)
                        else .mask spec (BitVec.ofNat 64 (s.gather ps)) (BitVec.allOnes 64) } := by
  simp [vloadAt, ha, hl, hw, hp, Nat.not_lt.2 hd]
/-- A near load that meets poison names the first poisoned part. -/
theorem vloadAt_near_poison {p : Piece} (hp : s.firstPoison (table ++ ps) = some p) :
    vloadAt false spec cls table ea ls e s = .fault cPoison p.name := by
  simp [vloadAt, ha, hl, hw, hp, Nat.not_lt.2 hd]

end

/-- The latency of a far load is 15. -/
theorem farLat_eq (hf : glob = true ∨ vectorLat ls ≠ 6) : (if glob then 15 else vectorLat ls) = 15 := by
  obtain rfl | hl := hf
  · rfl
  · rw [(vectorLat_cases ls).resolve_left hl, ite_self]

section
variable (ha : laneChecks s e glob false ea ls = .ok ps) (hf : glob = true ∨ vectorLat ls ≠ 6)
  (hd : e.h.dst.toNat = 15)
include ha hf hd

/-- A far load is in flight to its destination. -/
theorem vloadAt_far (hp : s.firstPoison table = none) :
    vloadAt glob spec cls table ea ls e s = .fly s { lat := 15, op := .load spec ps 8 false, acc := true, cls := cls } := by
  rw [laneChecks] at ha
  simp [vloadAt, farLat_eq hf, ha, hd, hp]
/-- A far load through a poisoned table tells the table's poison late. -/
theorem vloadAt_far_poison {p : Piece} (hp : s.firstPoison table = some p) :
    vloadAt glob spec cls table ea ls e s = .fly s { lat := 15, op := .badLoad spec p.name ps, acc := true, cls := cls } := by
  rw [laneChecks] at ha
  simp [vloadAt, farLat_eq hf, ha, hd, hp]

end

/-- An index table of the own scratchpad that no earlier access holds up is read at issue (R132). -/
theorem withTable_of {t : Word} {k : Vec → List Piece → Res} (ht : t.toNat % 4 = 0) (hin : t.toNat + 256 ≤ Config.scratchBytes)
    (hw : s.mustWait e cls [⟨⟨some e.core, t.toNat⟩, 256, 0, t.toNat⟩] = false) :
    withTable cls t e s k =
      k (BitVec.ofNat 2048 (s.scratchNat e.core t.toNat 256)) [⟨⟨some e.core, t.toNat⟩, 256, 0, t.toNat⟩] := by
  simp [withTable, localScratch, ht, hin, hw]

section
variable {h : Hdr} {lat : Nat} (H : Issues s h lat {} e) (hlat : (if glob then 15 else 6) ≤ lat)
include H hlat

/-- A load of format `MEM` answers as its lanes say. -/
theorem vldOp_of (o : MEM) (lanes : Word → List LaneAddr) :
    vldOp glob lanes h o s = .next (s.settle e.popped false
      (vloadAt glob o.dr.toNat o.cls.toNat [] (e.popped.baseMem o) (lanes (e.popped.baseMem o)) e.popped s)) :=
  issue_of (issues_mono hlat H)
/-- A strided load answers as its lanes say. -/
theorem vldsOp_of (o : MEMX) :
    vldsOp glob h o s = .next (s.settle e.popped false (vloadAt glob o.dr.toNat o.cls.toNat [] (e.popped.baseMemx o)
      (strideLanes (e.popped.baseMemx o) (e.popped.src o.xr)) e.popped s)) :=
  issue_of (issues_mono hlat H)
/-- A gather answers as the lanes say that its table names. -/
theorem vldgOp_of (o : MEMX) {t : Nat} (ht : (e.popped.src o.xr).toNat = t) (hal : t % 4 = 0) (hin : t + 256 ≤ Config.scratchBytes)
    (hw : s.mustWait e.popped o.cls.toNat [⟨⟨some e.core, t⟩, 256, 0, t⟩] = false) :
    vldgOp glob h o s = .next (s.settle e.popped false
      (vloadAt glob o.dr.toNat o.cls.toNat [⟨⟨some e.core, t⟩, 256, 0, t⟩] (e.popped.baseMemx o)
        (indexLanes (e.popped.baseMemx o) (BitVec.ofNat 2048 (s.scratchNat e.core t 256))) e.popped s)) := by
  subst ht
  exact (issue_of (issues_mono hlat H)).trans
    (congrArg (fun r => Host.Outcome.next (s.settle e.popped false r)) (withTable_of hal hin hw))

end

/-! ## Stores whose lanes pass their checks (R133, R134, R137) -/

/-- A store that covers no barrier word is in flight, and takes the scratch paths that its words need (R296). -/
theorem vstoreAt_of (ha : laneChecks s e glob true ea ls = .ok ps)
    (hb : s.hitsBarrier ps = none) (hp : s.pathsBusy e ps = false) :
    vstoreAt glob spec cls ea ls e s =
      .fly (if glob then s else s.takePaths e (subWords (ls.filter fun l => localScratch l.a l.len)))
        { lat := 2, op := .storeSrc spec ps, acc := true, cls := cls, own := !glob && ownLanes ls } := by
  rw [laneChecks] at ha
  simp [vstoreAt, ha, hb, hp]
/-- A store over a barrier word (R180). -/
theorem vstoreAt_barrier {p : Piece} (ha : laneChecks s e glob true ea ls = .ok ps)
    (hb : s.hitsBarrier ps = some p) : vstoreAt glob spec cls ea ls e s = .fault cBarrierWrite p.name := by
  rw [laneChecks] at ha
  simp [vstoreAt, ha, hb]

end

section
variable {s : State} {h : Hdr} {e : Env} (H : Issues s h 2 {} e) (glob : Bool)
include H

/-- A store of format `MEM` answers as its lanes say. -/
theorem vstOp_of (o : MEM) (lanes : Word → List LaneAddr) :
    vstOp glob lanes h o s = .next (s.settle e.popped false
      (vstoreAt glob o.dr.toNat o.cls.toNat (e.popped.baseMem o) (lanes (e.popped.baseMem o)) e.popped s)) :=
  issue_of H
/-- A store of format `MEMX` answers as its lanes say. -/
theorem vstxOp_of (o : MEMX) (lanes : Env → State → List LaneAddr) :
    vstxOp glob lanes h o s = .next (s.settle e.popped false
      (vstoreAt glob o.dr.toNat o.cls.toNat (e.popped.baseMemx o) (lanes e.popped s) e.popped s)) :=
  issue_of H

end

/-- A landing window lies over the 256 bytes of a counted store (R134). -/
theorem windowOver_of {s : State} {c off : Nat} (hw : ∃ w ∈ (s.core c).windows, w.2.base ≤ off ∧ off + 256 ≤ w.2.base + w.2.len) :
    s.windowOver c off = true := by
  simpa [State.windowOver, Window.holds] using hw
/-- A counted store into an open window is in flight (R134). -/
theorem execVstCnt_of {s : State} {h : Hdr} {o : MEM} {e : Env} {ps : List Piece} {c off : Nat} (H : Issues s h 2 {} e)
    (ha : s.scratchLanes e.popped (e.popped.baseMem o) (unitLanes (e.popped.baseMem o)) = .ok ps)
    (hm : scratchMap e.core (e.popped.baseMem o).toNat = some (c, off)) (hw : s.windowOver c off = true)
    (hb : s.hitsBarrier ps = none) (hp : s.pathsBusy e.popped ps = false) :
    execVstCnt h o s = .next (s.issued e.popped false
      { lat := 2, op := .cntSrc o.dr.toNat c off, acc := true, cls := o.cls.toNat, own := localScratch (e.popped.baseMem o).toNat 256 }) :=
  issued_of H (by simp only [ha, show e.popped.core = e.core from rfl, hm, hw, hb, hp]; rfl)

/-! ## The checks of unit-stride lanes (R135) -/

/-- What a vector word answers when the checks of its lanes find a fault. -/
def refusal : Addr → Option Res
  | .ok _ => none
  | .control off => some (.fault cRange off)
  | .misaligned a => some (.fault cAlignment a)
  | .range a => some (.fault cRange a)
  | .violation a => some (.violation a)

section
variable {s : State} {h : Hdr} {o : MEM} {e : Env} {glob : Bool} {lanes : Word → List LaneAddr}

/-- A load of which a lane fails a check. -/
theorem vldOp_refused (r : Res) (H : Issues s h 15 {} e)
    (ha : refusal (laneChecks s e.popped glob false (e.popped.baseMem o) (lanes (e.popped.baseMem o))) = some r) :
    vldOp glob lanes h o s = .next (s.settle e.popped false r) := by
  rw [vldOp_of H (by split <;> decide)]
  congr 2
  have hd := dst_of_issues H
  have hl := vectorLat_cases (lanes (e.popped.baseMem o))
  rw [vloadAt, if_neg (by split <;> omega)]
  split <;> rename_i hx <;> rw [laneChecks, hx] at ha
  case h_5 => cases ha
  all_goals exact Option.some.inj ha
/-- A store of which a lane fails a check. -/
theorem vstOp_refused (r : Res) (H : Issues s h 2 {} e)
    (ha : refusal (laneChecks s e.popped glob true (e.popped.baseMem o) (lanes (e.popped.baseMem o))) = some r) :
    vstOp glob lanes h o s = .next (s.settle e.popped false r) := by
  rw [vstOp_of H]
  congr 2
  rw [vstoreAt]
  split <;> rename_i hx <;> rw [laneChecks, hx] at ha
  case h_5 => cases ha
  all_goals exact Option.some.inj ha
/-- A store over a barrier word, after the checks of its lanes. -/
theorem vstOp_barrier {ps : List Piece} {p : Piece} (H : Issues s h 2 {} e)
    (ha : laneChecks s e.popped glob true (e.popped.baseMem o) (lanes (e.popped.baseMem o)) = .ok ps) (hb : s.hitsBarrier ps = some p) :
    vstOp glob lanes h o s = .next (s.settle e.popped false (.fault cBarrierWrite p.name)) := by
  rw [vstOp_of H, vstoreAt_barrier ha hb]

end

/-- A lane of 4 bytes whose address is no multiple of 4 (R135). -/
def misalignedLane (l : LaneAddr) : Bool := decide (l.a % 4 ≠ 0)
/-- A lane of 4 bytes that leaves the global space or lies in the control page (R38, R310). -/
def outsideLane (l : LaneAddr) : Bool := decide (2 ^ 48 < l.a + 4) || decide (2 ^ 48 - 2 ^ 16 ≤ l.a)

section
variable {s : State} {e : Env} {ea : Word} {wr : Bool} {l : LaneAddr}

/-- The first unit-stride lane lies at the effective address. -/
theorem unitLanes_eq_cons (ea : Word) : ∃ t, unitLanes ea = ⟨ea.toNat, 4, 0⟩ :: t := by
  rw [unitLanes, lanesAt, List.range_succ_eq_map, List.map_cons]
  exact ⟨_, by rw [Nat.mul_zero, BitVec.add_zero]⟩
/-- If the first lane fails a check, it is the first one that does. -/
theorem find?_unitLanes_head {bad : LaneAddr → Bool} (hb : bad ⟨ea.toNat, 4, 0⟩ = true) :
    (unitLanes ea).find? bad = some ⟨ea.toNat, 4, 0⟩ := by
  obtain ⟨t, ht⟩ := unitLanes_eq_cons ea
  rw [ht, List.find?_cons_of_pos hb]
/-- The address that a fault of the effective address reports. -/
theorem baseFault_unitLanes (ea : Word) : baseFault ea (unitLanes ea) = ea.toNat := by
  obtain ⟨t, ht⟩ := unitLanes_eq_cons ea
  rw [ht]; rfl
/-- Two tests that agree on a list find the same element in it. -/
theorem find?_eq_of_forall_mem {α : Type} {f g : α → Bool} {l : List α} (hfg : ∀ x ∈ l, f x = g x) : l.find? f = l.find? g := by
  induction l with
  | nil => rfl
  | cons x t ih =>
    rw [List.find?_cons, List.find?_cons, hfg x List.mem_cons_self, ih fun y hy => hfg y (List.mem_cons_of_mem _ hy)]
/-- A check of unit-stride lanes may take the length of every lane to be 4. -/
theorem firstBad_unitLanes {f g : LaneAddr → Bool} (hfg : ∀ a off, f ⟨a, 4, off⟩ = g ⟨a, 4, off⟩) :
    firstBad (unitLanes ea) f = (unitLanes ea).find? g := by
  refine find?_eq_of_forall_mem fun l hl => ?_
  obtain ⟨i, -, rfl⟩ := List.mem_map.1 hl
  exact hfg _ _
theorem firstBad_misaligned :
    firstBad (unitLanes ea) (fun l => l.a % l.len != 0) = (unitLanes ea).find? misalignedLane :=
  firstBad_unitLanes fun _ _ => decide_not.symm
theorem firstBad_unmapped :
    firstBad (unitLanes ea) (fun l => (s.scratchAt e.core e.task.part l.a l.len).isNone) =
      (unitLanes ea).find? fun l => (s.scratchAt e.core e.task.part l.a 4).isNone :=
  firstBad_unitLanes fun _ _ => rfl
theorem firstBad_outside :
    firstBad (unitLanes ea) (fun l => !globalOk l.a l.len || controlBase ≤ l.a) = (unitLanes ea).find? outsideLane := by
  refine firstBad_unitLanes fun a _ => ?_
  rw [Bool.eq_iff_iff]
  simp only [outsideLane, globalOk, Bool.or_eq_true, Bool.not_eq_true', Bool.and_eq_false_iff, beq_eq_false_iff_ne, decide_eq_true_eq,
    decide_eq_false_iff_not]
  rw [controlBase]
  omega
theorem firstBad_unleased :
    firstBad (unitLanes ea) (fun l => (e.task.leased l.a l.len wr).isNone) =
      (unitLanes ea).find? fun l => (e.task.leased l.a 4 wr).isNone :=
  firstBad_unitLanes fun _ _ => rfl

/-- No scratchpad lies at or above 2^32 (R36). -/
theorem scratchAt_of_high (s : State) (own part n : Nat) {a : Nat} (ha : a / 2 ^ 32 ≠ 0) : s.scratchAt own part a n = none := by
  have hm : scratchMap own a = none := by
    rw [scratchMap, if_neg (by rw [Config.scratchBytes]; omega), if_neg (by omega)]
  rw [State.scratchAt, hm]

/-- The global space ends at 2^48 (R38). -/
theorem outside_of_high {l : LaneAddr} (ha : l.a / 2 ^ 48 ≠ 0) : outsideLane l = true := by
  rw [outsideLane, Bool.or_eq_true, decide_eq_true_eq, decide_eq_true_eq]
  omega

section
variable (hm : (unitLanes ea).find? misalignedLane = some l)
include hm

/-- Alignment is checked first. -/
theorem scratchLanes_misaligned : s.scratchLanes e ea (unitLanes ea) = .misaligned l.a := by
  rw [State.scratchLanes, firstBad_misaligned, hm]
theorem globalLanes_misaligned : globalLanes e ea (unitLanes ea) wr = .misaligned l.a := by
  rw [globalLanes, firstBad_misaligned, hm]

end

section
variable (hm : (unitLanes ea).find? misalignedLane = none)
include hm

/-- Aligned lanes of which one maps to no scratchpad. -/
theorem scratchLanes_unmapped (hu : (unitLanes ea).find? (fun l => (s.scratchAt e.core e.task.part l.a 4).isNone) = some l) :
    s.scratchLanes e ea (unitLanes ea) = .range l.a := by
  simp only [State.scratchLanes, firstBad_misaligned, hm, firstBad_unmapped, baseFault_unitLanes, hu]
  split
  · rename_i hhi
    rw [find?_unitLanes_head (by rw [scratchAt_of_high _ _ _ _ hhi]; rfl)] at hu
    cases hu; rfl
  · rfl

/-- Aligned lanes of which one lies outside the global space or in the control page. -/
theorem globalLanes_outside (ho : (unitLanes ea).find? outsideLane = some l) : globalLanes e ea (unitLanes ea) wr = .range l.a := by
  simp only [globalLanes, firstBad_misaligned, hm, firstBad_outside, baseFault_unitLanes, ho]
  split
  · rename_i hhi
    rw [find?_unitLanes_head (outside_of_high hhi)] at ho
    cases ho; rfl
  · rfl

/-- Aligned lanes of the global space of which one is not leased. -/
theorem globalLanes_unleased (ho : (unitLanes ea).find? outsideLane = none)
    (hu : (unitLanes ea).find? (fun l => (e.task.leased l.a 4 wr).isNone) = some l) :
    globalLanes e ea (unitLanes ea) wr = .violation l.a := by
  simp only [globalLanes, firstBad_misaligned, hm, firstBad_outside, ho, firstBad_unleased, hu]
  split
  · rename_i hhi
    rw [find?_unitLanes_head (outside_of_high hhi)] at ho
    cases ho
  · rfl

end

end

/-! ## Scalar stores (R137, R170, R171) -/

/-- The specifier of `qi` (R25). -/
theorem isPop_iff (n : BitVec 7) : isPop n = true ↔ n.toNat = 116 := beq_iff_eq
/-- A scalar address lies in the own local window (R36). -/
theorem nearScratch_eq (ea n : Nat) : nearScratch ea n = decide (ea / 2 ^ 63 = 1 ∧ ea % 2 ^ 63 + n ≤ Config.scratchBytes) := by
  rw [Bool.decide_and]; rfl

/-- A scalar store that passes its checks. -/
theorem storeOp_of {s : State} {h : Hdr} {o : MEM} {e : Env} {ps : List Piece} (rel : Bool) (H : Issues s h 2 { pop := isPop o.dr } e)
    (ha : s.scalarAddr e.popped (e.popped.eaMem o) (szBytes o.sz) true = .ok ps) (hb : s.hitsBarrier ps = none)
    (hp : s.pathsBusy e.popped ps = false) :
    storeOp rel h o s = .next ((if rel then s.clamp e.popped o.scp.toNat else s).issued e.popped (isPop o.dr)
      { lat := 2, op := if o.dr.toNat = 116 then .storeVal (scatter ps e.popped.qi.toNat) else .storeSrc o.dr.toNat ps
        acc := true, cls := o.cls.toNat, rel := rel
        own := decide (e.popped.eaMem o / 2 ^ 63 = 1 ∧ e.popped.eaMem o % 2 ^ 63 + szBytes o.sz ≤ Config.scratchBytes) }) := by
  simp only [← nearScratch_eq, ← isPop_iff]
  exact issued_of H (by simp only [storeBody, ha, hb, hp]; rfl)

/-! ## The statements -/

/-- Settles O15: near or far by the latency that the lanes require, each clean or poisoned. -/
theorem vectorLoadsIssue : Obligations.vector_loads_issue := by
  intro h s e lanes loads table
  have load {lat : Nat} (H : Issues s h lat {} e) (hlat : 6 ≤ lat) {glob : Bool} {out : Out} {d : BitVec 7} {cls : BitVec 4}
      {tab : List Piece} {ea : Word} {ls : List LaneAddr}
      (hout : (tab ≠ [] → s.mustWait e.popped cls.toNat tab = false) →
        out = .next (s.settle e.popped false (vloadAt glob d.toNat cls.toNat tab ea ls e.popped s))) : loads glob out d cls tab ea ls := by
    intro ps ha ht
    rw [hout ht]
    refine ⟨fun hg hl hw => ?_, fun hf hd => ?_⟩
    · subst hg
      have hd : 6 ≤ e.popped.h.dst.toNat := Nat.le_trans hlat (dst_of_issues H)
      exact ⟨fun hp => by rw [vloadAt_near hd ha hl hw hp]; rfl, fun p hp => by rw [vloadAt_near_poison hd ha hl hw hp]; rfl⟩
    · have hd : e.popped.h.dst.toNat = 15 := by rw [hdr_popped H, hd]
      exact ⟨fun hp => by rw [vloadAt_far ha hf hd hp]; rfl, fun p hp => by rw [vloadAt_far_poison ha hf hd hp]; rfl⟩
  refine ⟨fun H => ⟨fun o => ⟨?_, ?_, ?_⟩, fun o => ⟨?_, fun ht hin => ?_⟩⟩,
    fun H => ⟨fun o => ?_, fun o => ⟨?_, fun ht hin => ?_⟩⟩⟩
  · exact load H (by decide) fun _ => (exec_vld h o s).trans (vldOp_of H (by decide) o _)
  · exact load H (by decide) fun _ => (exec_vldb h o s).trans (vldOp_of H (by decide) o _)
  · exact load H (by decide) fun _ => (exec_mld h o s).trans (vldOp_of H (by decide) o _)
  · exact load H (by decide) fun _ => (exec_vlds h o s).trans (vldsOp_of H (by decide) o)
  · exact load H (by decide) fun hw => (exec_vldg h o s).trans (vldgOp_of H (by decide) o rfl ht hin (hw (List.cons_ne_nil _ _)))
  · exact load H (by decide) fun _ => (exec_vgld h o s).trans (vldOp_of H (by decide) o _)
  · exact load H (by decide) fun _ => (exec_vglds h o s).trans (vldsOp_of H (by decide) o)
  · exact load H (by decide) fun hw => (exec_vgldg h o s).trans (vldgOp_of H (by decide) o rfl ht hin (hw (List.cons_ne_nil _ _)))

/-- Settles O16: every form but `vst.cnt` by the lemma of stores at known lanes. -/
theorem vectorStoresIssue : Obligations.vector_stores_issue := by
  intro h s e H lanes near stores
  have store {glob : Bool} {out : Out} {d : BitVec 7} {cls : BitVec 4} {ea : Word} {ls : List LaneAddr}
      (hout : out = .next (s.settle e.popped false (vstoreAt glob d.toNat cls.toNat ea ls e.popped s))) : stores glob out d cls ea ls := by
    intro ps ha hb hp
    rw [hout, vstoreAt_of ha hb hp]
    rfl
  refine ⟨fun o => ⟨?_, ?_, ?_, fun ps c off ha hm hw hb hp => ?_⟩, fun o => ⟨?_, ?_, ?_, ?_, ?_⟩⟩
  · exact store ((exec_vst h o s).trans (vstOp_of H _ o _))
  · exact store ((exec_vgst h o s).trans (vstOp_of H _ o _))
  · exact store ((exec_mst h o s).trans (vstOp_of H _ o _))
  · exact (exec_vstCnt h o s).trans (execVstCnt_of H ha hm (windowOver_of hw) hb hp)
  · exact store ((exec_vsts h o s).trans (vstxOp_of H _ o _))
  · exact store ((exec_vgsts h o s).trans (vstxOp_of H _ o _))
  · exact store ((exec_vsct h o s).trans (vstxOp_of H _ o _))
  · exact store ((exec_vgsct h o s).trans (vstxOp_of H _ o _))
  · exact store ((exec_vstm h o s).trans (vstxOp_of H _ o _))

/-- Settles O17: each clause by what the checks of the lanes answer. -/
theorem vectorAccessChecks : Obligations.vector_access_checks := by
  intro h o s e ls trap first misaligned unmapped outside unleased
  refine ⟨fun H l => ⟨fun hm => ⟨?_, ?_⟩, fun hm => ⟨fun hu => ?_, fun ho => ?_, fun ho hu => ?_⟩⟩,
    fun H l => ⟨fun hm => ⟨?_, ?_⟩, fun hm => ⟨fun hu => ?_, fun ho => ?_, fun ho hu => ?_, fun ps p ha hb => ?_⟩⟩⟩
  · exact (exec_vld h o s).trans (vldOp_refused (.fault cAlignment l.a) H (congrArg refusal (scratchLanes_misaligned hm)))
  · exact (exec_vgld h o s).trans (vldOp_refused (.fault cAlignment l.a) H (congrArg refusal (globalLanes_misaligned hm)))
  · exact (exec_vld h o s).trans (vldOp_refused (.fault cRange l.a) H (congrArg refusal (scratchLanes_unmapped hm hu)))
  · exact (exec_vgld h o s).trans (vldOp_refused (.fault cRange l.a) H (congrArg refusal (globalLanes_outside hm ho)))
  · exact (exec_vgld h o s).trans (vldOp_refused (.violation l.a) H (congrArg refusal (globalLanes_unleased hm ho hu)))
  · exact (exec_vst h o s).trans (vstOp_refused (.fault cAlignment l.a) H (congrArg refusal (scratchLanes_misaligned hm)))
  · exact (exec_vgst h o s).trans (vstOp_refused (.fault cAlignment l.a) H (congrArg refusal (globalLanes_misaligned hm)))
  · exact (exec_vst h o s).trans (vstOp_refused (.fault cRange l.a) H (congrArg refusal (scratchLanes_unmapped hm hu)))
  · exact (exec_vgst h o s).trans (vstOp_refused (.fault cRange l.a) H (congrArg refusal (globalLanes_outside hm ho)))
  · exact (exec_vgst h o s).trans (vstOp_refused (.violation l.a) H (congrArg refusal (globalLanes_unleased hm ho hu)))
  · exact (exec_vst h o s).trans (vstOp_barrier (glob := false) (lanes := unitLanes) H ha hb)

/-- Settles O19: both words by the lemma of scalar stores. -/
theorem scalarStoresIssue : Obligations.scalar_stores_issue := by
  intro h o s e H n ea ps ha hb hp y
  exact ⟨(exec_st h o s).trans (storeOp_of false H ha hb hp), (exec_stRel h o s).trans (storeOp_of true H ha hb hp)⟩

end Sys2Proof.Machine.RegisterAccesses
end

