-- ==== Sys2Proof/Proofs/MatrixEngine.lean ====
section
/-!
The matrix engine: the words that enter its queue (R139 to R157), the start and the end of its commands (R158 to R163), and what they
leave in the accumulators (R146, R148, R151, R153).
-/
namespace Sys2Proof.Machine.MatrixEngine

/-! ## Tiles that pass the checks (R143 to R145) -/

/-- A tile of `n` bytes at a multiple of 64, in the own scratchpad and in one bank group. -/
def GoodTile (a n : Nat) : Prop :=
  a % 64 = 0 ∧ a + n ≤ Config.scratchBytes ∧ (a + n ≤ Config.groupB ∨ Config.groupB ≤ a)

theorem GoodTile.aligned {a n : Nat} (h : GoodTile a n) : a % 64 = 0 := h.1
theorem GoodTile.inside {a n : Nat} (h : GoodTile a n) : a + n ≤ Config.scratchBytes := h.2.1
theorem GoodTile.oneGroup {a n : Nat} (h : GoodTile a n) : a + n ≤ Config.groupB ∨ Config.groupB ≤ a := h.2.2
theorem goodTiles_pair {p q : Nat × Nat} (hp : GoodTile p.1 p.2) (hq : GoodTile q.1 q.2) : ∀ t ∈ [p, q], GoodTile t.1 t.2 :=
  List.forall_mem_cons.2 ⟨hp, List.forall_mem_singleton.2 hq⟩

theorem localScratch_eq_true_iff {a n : Nat} : localScratch a n = true ↔ a + n ≤ Config.scratchBytes := decide_eq_true_iff

/-- A tile has a bank group when it lies wholly in one of the two. -/
theorem bankGroup_ne_none {a n : Nat} (h : GoodTile a n) : bankGroup a n ≠ none := by
  unfold bankGroup
  by_cases hA : a + n ≤ Config.groupB
  · rw [if_pos hA]; nofun
  · rw [if_neg hA, if_pos (h.oneGroup.resolve_left hA)]; nofun

/-- The bank group of tile `i` of a list. -/
def groupAt (tiles : List (Nat × Nat)) (i : Nat) : Option Nat := (tiles.map fun p => bankGroup p.1 p.2).getD i none

/-- Checks 6 and 7 of R143 pass. -/
theorem mxCheck_rest_pass {need : MxNeed} {md : Option (Nat × Nat × Nat)} {tiles : List (Nat × Nat)} {r : Nat}
    (htiles : ∀ p ∈ tiles, GoodTile p.1 p.2) (hapart : need.apart = true → groupAt tiles 0 ≠ groupAt tiles 1)
    (hnibbles : md.isSome = true → groupAt tiles 2 = groupAt tiles 0) (hformat : need.format = true)
    (hmeta : ∀ q ∈ md, metaValid r q.2.1 q.2.2 = true) : State.mxCheck.rest need md tiles r = none := by
  have hone : tiles.find? (fun p => (bankGroup p.1 p.2).isNone) = none :=
    List.find?_eq_none.2 fun p hp => by simp [bankGroup_ne_none (htiles p hp)]
  have hclash : ¬ (need.apart && groupAt tiles 0 == groupAt tiles 1) = true := by simpa using hapart
  have hother : ¬ (md.isSome && groupAt tiles 2 != groupAt tiles 0) = true := by simpa using hnibbles
  simp only [groupAt] at hclash hother
  simp only [State.mxCheck.rest, hone, if_neg hclash, if_neg hother, hformat]
  cases md with
  | none => rfl
  | some q => simp [hmeta q rfl]

/-- No address of the list is misaligned (check 3 of R143). -/
theorem firstAddr_of_aligned {as : List Nat} (h : ∀ a ∈ as, a % 64 = 0) : firstAddr as (fun a => a % 64 != 0) = none :=
  List.find?_eq_none.2 fun a ha => by simp [h a ha]
/-- No run of bytes of the list leaves the own scratchpad (check 5 of R143). -/
theorem find?_outside_of_inside {tiles : List (Nat × Nat)} (h : ∀ p ∈ tiles, p.1 + p.2 ≤ Config.scratchBytes) :
    tiles.find? (fun p => !localScratch p.1 p.2) = none :=
  List.find?_eq_none.2 fun p hp => by simp [localScratch_eq_true_iff.2 (h p hp)]

section
variable {s : State} {e : Env} {empty : Bool} {need : MxNeed} (hempty : need.sel = true → empty = false)
  (htiles : ∀ p ∈ need.tiles, GoodTile p.1 p.2) (hapart : need.apart = true → groupAt need.tiles 0 ≠ groupAt need.tiles 1)
  (hformat : need.format = true)
include hempty htiles hapart hformat

/-- A word without a metadata record passes checks 3 to 7 of R143. -/
theorem mxCheck_pass : s.mxCheck e empty need none = none := by
  have haligned := firstAddr_of_aligned (List.forall_mem_map.2 fun p hp => (htiles p hp).aligned)
  have hinside := find?_outside_of_inside fun p hp => (htiles p hp).inside
  have hsel : ¬ (need.sel && empty) = true := by simpa using hempty
  simp only [State.mxCheck, Option.map_none, Option.toList_none, List.map_nil, List.append_nil, Bool.false_eq_true, if_false, haligned,
    if_neg hsel, hinside]
  exact mxCheck_rest_pass htiles hapart (by simp) hformat (by simp)

/-- A word of two tiles with a metadata record passes checks 3 to 7 of R143 (R149). -/
theorem mxCheck_pass_meta {p q : Nat × Nat} {a m k nib : Nat} (htwo : need.tiles = [p, q]) (halign : a % 64 = 0)
    (hin : a + 16 ≤ Config.scratchBytes) (hclean : s.isPoisoned ⟨some e.core, a⟩ 16 = false)
    (hmeta : metaValid (s.scratchNat e.core a 16) m k = true) (hat : fld (s.scratchNat e.core a 16) 31 0 = nib)
    (hnib : GoodTile nib (m * k / 8)) (hgroup : bankGroup nib (m * k / 8) = bankGroup p.1 p.2) :
    s.mxCheck e empty need (some (a, m, k)) = none := by
  have hread : (localScratch a 16 && (s.firstPoison [⟨⟨some e.core, a⟩, 16, 0, a⟩]).isNone) = true := by
    simp [localScratch, hin, State.firstPoison, hclean]
  have hsel : ¬ (need.sel && empty) = true := by simpa using hempty
  have hall : ∀ t ∈ need.tiles ++ [(nib, m * k / 8)], GoodTile t.1 t.2 := List.forall_mem_append.2 ⟨htiles, by simpa using hnib⟩
  have haligned : firstAddr (need.tiles.map (·.1) ++ [a] ++ [nib]) (fun a => a % 64 != 0) = none := by
    refine firstAddr_of_aligned (List.forall_mem_append.2 ⟨List.forall_mem_append.2 ⟨?_, ?_⟩, by simpa using hnib.aligned⟩)
    · exact List.forall_mem_map.2 fun p hp => (htiles p hp).aligned
    · simpa using halign
  have hrecord : (need.tiles ++ [(a, 16)]).find? (fun (p : Nat × Nat) => !localScratch p.1 p.2) = none := by
    refine find?_outside_of_inside (List.forall_mem_append.2 ⟨?_, by simpa using hin⟩)
    exact fun t ht => (htiles t ht).inside
  have hinside := find?_outside_of_inside fun t ht => (hall t ht).inside
  simp only [State.mxCheck, Option.map_some, Option.toList_some, List.map_cons, List.map_nil, hread, if_true, hat, haligned,
    if_neg hsel, hrecord, hinside, Bool.not_true, Bool.false_eq_true, if_false]
  refine mxCheck_rest_pass hall ?_ ?_ hformat fun x hx => ?_
  · rw [htwo] at hapart ⊢
    exact hapart
  · rw [htwo]
    exact fun _ => hgroup
  · obtain rfl := Option.mem_some.1 hx
    exact hmeta

end

/-! ## The queue (R139, R140, R157) -/

/-- The command that a word becomes, with its copies of all that the word names. -/
def command (s : State) (e : Env) (op : Nat) (o : MXC) (f : FmtEntry) (md : BitVec 128) : MxCmd :=
  { op := op, acc := o.acc.toNat, aa := e.mreg o.aa, ba := e.mreg o.ba, stamp := e.stamp o, shp := o.shp.toNat, fmt := f, mdrec := md,
    idx := (s.core e.core).mxe.count.toNat, entered := s.cyc, ip := e.st.ip, flight := s.nextId, slot := e.slot,
    stage := (e.stamp o).bind fun t => s.stageOf e.core e.task.bhnd (t / 64) }
/-- The state in which a command stands at the end of its engine's queue. -/
def enqueue (s : State) (core : Nat) (c : MxCmd) : State :=
  s.updCore core fun k =>
    { k with mxe := { (s.core core).mxe with queue := (s.core core).mxe.live s.cyc ++ [c], count := (s.core core).mxe.count + 1 } }

/-- A command finds room in a queue of fewer than 16. -/
theorem mxEnter_of_room {s : State} {e : Env} {op : Nat} {o : MXC} {f : FmtEntry} {md : BitVec 128}
    (hroom : ((s.core e.core).mxe.live s.cyc).length < 16) :
    s.mxEnter e op o f md = .fly (enqueue s e.core (command s e op o f md)) { lat := 15, op := .matrix (s.core e.core).mxe.count.toNat } :=
  if_neg (Nat.not_le.2 hroom)

section
variable {s : State} {h : Hdr} {o : MXC} {e : Env} (H : Issues s h 15 {} e)
include H

/-- A matrix word whose entry is written and whose checks pass enters the queue. -/
theorem matrixOp_of {op : Nat} {sel md : Bool} {need : Env → FmtEntry → MxNeed} {f : FmtEntry} {r : BitVec 128}
    (hroom : ((s.core e.core).mxe.live s.cyc).length < 16) (hpend : sel = true → s.entryPending e.popped (e.popped.fmtSel o) = false)
    (hf : (if sel then e.popped.task.entryAt (e.popped.fmtSel o) else ⟨0, 0, 0⟩) = f)
    (hr : (if md then BitVec.ofNat 128 (s.scratchNat e.popped.core (e.popped.mreg o.mr) 16) else 0) = r)
    (hcheck : s.mxCheck e.popped f.isEmpty (need e.popped f)
      (if md then some (e.popped.mreg o.mr, mxDim o, mxDepth o) else none) = none) :
    matrixOp op sel need md h o s = .next (State.issued (enqueue s e.core (command s e.popped op o f r)) e.popped false
      { lat := 15, op := .matrix (s.core e.core).mxe.count.toNat }) := by
  have hfree : ¬ (sel && s.entryPending e.popped (e.popped.fmtSel o)) = true := by simpa using hpend
  refine issued_of H ?_
  simp only [if_neg hfree, hf, hr, hcheck]
  exact mxEnter_of_room hroom

/-- A matrix word without a metadata record that passes its checks enters the queue. -/
theorem matrixOp_enters {op : Nat} {sel : Bool} {need : Env → FmtEntry → MxNeed} {f : FmtEntry}
    (hroom : ((s.core e.core).mxe.live s.cyc).length < 16) (hpend : sel = true → s.entryPending e.popped (e.popped.fmtSel o) = false)
    (hf : (if sel then e.popped.task.entryAt (e.popped.fmtSel o) else ⟨0, 0, 0⟩) = f)
    (hempty : (need e.popped f).sel = true → f.isEmpty = false) (htiles : ∀ p ∈ (need e.popped f).tiles, GoodTile p.1 p.2)
    (hapart : (need e.popped f).apart = true → groupAt (need e.popped f).tiles 0 ≠ groupAt (need e.popped f).tiles 1)
    (hformat : (need e.popped f).format = true) :
    matrixOp op sel need false h o s = .next (State.issued (enqueue s e.core (command s e.popped op o f 0)) e.popped false
      { lat := 15, op := .matrix (s.core e.core).mxe.count.toNat }) :=
  matrixOp_of H hroom hpend hf rfl (mxCheck_pass hempty htiles hapart hformat)

/-- `mwait` passes when few enough commands of its task are in the queue (R51, R157). -/
theorem execMwait_of (hq : ((s.core e.core).mxe.live s.cyc).countP (fun c => c.slot == e.slot) ≤ o.shp.toNat) :
    execMwait h o s = .next ((s.updTask e.core e.slot fun k => k.updStr e.t fun x =>
      x.observe true (s.landing e.core e.slot e.t)).doneAs e.popped false none) :=
  doneAs_of H (if_neg (Nat.not_lt.2 hq))

end

/-! ## Format entries (R76, R156) -/

/-- The record block of `mfmt` as a format entry. -/
def readEntry (s : State) (core a : Nat) : FmtEntry :=
  ⟨BitVec.ofNat 128 (s.scratchNat core a 16), BitVec.ofNat 128 (s.scratchNat core (a + 16) 16),
    BitVec.ofNat 128 (s.scratchNat core (a + 32) 16)⟩

theorem product_eq_true_iff (f : FmtEntry) :
    f.product = true ↔ recOperand f.a false = true ∧ recOperand f.b true = true ∧ recPair f.a f.b = true := by
  simp only [FmtEntry.product, Bool.and_eq_true, and_assoc]
/-- A record block is written as an entry when its records are valid as A, as B and as output (R156). -/
theorem writable_iff (f : FmtEntry) : (f.product && recValid f.o) = true ↔
    recOperand f.a false = true ∧ recOperand f.b true = true ∧ recPair f.a f.b = true ∧ recValid f.o = true := by
  simp only [Bool.and_eq_true, product_eq_true_iff, and_assoc]
theorem isEmpty_eq_false_iff (f : FmtEntry) : f.isEmpty = false ↔ f ≠ ⟨0, 0, 0⟩ := beq_eq_false_iff_ne

section
variable {s : State} {h : Hdr} {o : MXC} {e : Env} {a : Nat} (H : Issues s h 15 {} e) (ha : e.popped.mreg o.aa = a)
  (hpend : s.entryPending e.popped (e.popped.fmtSel o) = false)
include H ha hpend

/-- A record block at an address that is no multiple of 16. -/
theorem execMfmt_misaligned (hal : a % 16 ≠ 0) : execMfmt h o s = .next (s.trapAt e cAlignment a 0) := by
  refine trapped_of H ?_
  simp only [ha, hpend, Bool.false_eq_true, if_false, if_pos hal]
  rfl
/-- A record block that leaves the scratchpad. -/
theorem execMfmt_outside (hal : a % 16 = 0) (hout : Config.scratchBytes < a + 48) :
    execMfmt h o s = .next (s.trapAt e cRange a 0) := by
  refine trapped_of H ?_
  have hloc : localScratch a 48 = false := decide_eq_false (Nat.not_le.2 hout)
  simp only [ha, hpend, Bool.false_eq_true, if_false, if_neg (Decidable.not_not.2 hal), hloc]
  rfl

section
variable (hal : a % 16 = 0) (hin : a + 48 ≤ Config.scratchBytes)
  (hclean : ∀ k, k < 6 → s.isPoisoned ⟨some e.core, a + 8 * k⟩ 8 = false)
include hal hin hclean

/-- `mfmt` of a record block that can be read answers as the records say. -/
theorem execMfmt_readable : execMfmt h o s = .next (s.settle e.popped false
    (if (readEntry s e.core a).product && recValid (readEntry s e.core a).o
      then .fly s { lat := 8, op := .fmt (e.popped.fmtSel o) (readEntry s e.core a) } else .fault cFormat 0)) := by
  have hloc : localScratch a 48 = true := localScratch_eq_true_iff.2 hin
  have hnone : s.firstPoison ((List.range 6).map fun k => ⟨⟨some e.popped.core, a + 8 * k⟩, 8, 0, a + 8 * k⟩) = none := by
    refine List.find?_eq_none.2 (List.forall_mem_map.2 fun k hk => ?_)
    exact Bool.not_eq_true _ ▸ hclean k (List.mem_range.1 hk)
  refine (issue_of H).trans (congrArg (fun r => Host.Outcome.next (s.settle e.popped false r)) ?_)
  simp only [ha, hpend, Bool.false_eq_true, if_false, if_neg (Decidable.not_not.2 hal), hloc, hnone]
  rfl
/-- Valid records are on their way into the entry. -/
theorem execMfmt_valid (hv : ((readEntry s e.core a).product && recValid (readEntry s e.core a).o) = true) :
    execMfmt h o s = .next (s.issued e.popped false { lat := 8, op := .fmt (e.popped.fmtSel o) (readEntry s e.core a) }) := by
  rw [execMfmt_readable H ha hpend hal hin hclean, if_pos hv]
  rfl
/-- Other records raise Format. -/
theorem execMfmt_invalid (hv : ¬ ((readEntry s e.core a).product && recValid (readEntry s e.core a).o) = true) :
    execMfmt h o s = .next (s.trapAt e cFormat 0 0) := by
  rw [execMfmt_readable H ha hpend hal hin hclean, if_neg hv]
  rfl

end
end

/-- Settles O23: the words by their tiles, their entry and the metadata record; `mfmt` by its record block; `mwait` by the queue. -/
theorem matrixCommandsEnter : Obligations.matrix_commands_enter := by
  refine ⟨fun h o s e H hroom => ?_, fun h o s e H => ?_⟩
  · intro reg dim depth m n f stamp enters tile size operands
    have written (hne : f ≠ ⟨0, 0, 0⟩) : f.isEmpty = false := (isEmpty_eq_false_iff f).2 hne
    refine ⟨?_, fun ht => ?_, fun ht => ?_, fun hp hne => ⟨fun ht hf => ?_, fun ha hb hg hf => ?_, ?_, ?_⟩⟩
    · exact (exec_mzero h o s).trans (matrixOp_enters H hroom nofun rfl nofun (List.forall_mem_nil _) nofun rfl)
    · exact (exec_mldacc h o s).trans (matrixOp_enters H hroom nofun rfl nofun (List.forall_mem_singleton.2 ht) nofun rfl)
    · exact (exec_mscale h o s).trans (matrixOp_enters H hroom nofun rfl nofun (List.forall_mem_singleton.2 ht) nofun rfl)
    · exact (exec_mdrn h o s).trans
        (matrixOp_enters H hroom (fun _ => hp) rfl (fun _ => written hne) (List.forall_mem_singleton.2 ht) nofun hf)
    · exact (exec_mxpose h o s).trans
        (matrixOp_enters H hroom (fun _ => hp) rfl (fun _ => written hne) (goodTiles_pair ha hb) (fun _ => hg) hf)
    · rintro ⟨ha, hb, hg, hf⟩
      exact (exec_mma h o s).trans (matrixOp_enters H hroom (fun _ => hp) rfl (fun _ => written hne) (goodTiles_pair ha hb)
        (fun _ => hg) ((product_eq_true_iff f).2 hf))
    · rintro r ⟨ha, hb, hg, hf⟩ hal hin hclean hmeta hnib hgroup
      refine (exec_mmas h o s).trans (matrixOp_of H hroom (fun _ => hp) rfl rfl ?_)
      rw [if_pos rfl]
      refine mxCheck_pass_meta (fun _ => written hne) ?_ ?_ ((product_eq_true_iff f).2 hf) rfl hal hin hclean hmeta rfl hnib hgroup
      · exact goodTiles_pair ha hb
      · exact fun _ => hg
  · intro a n v valid
    refine ⟨fun hp => ⟨fun hal => ?_, fun hal hout => ?_, fun hal hin hclean => ⟨fun hv => ?_, fun hv => ?_⟩⟩, fun hq => ?_⟩
    · exact (exec_mfmt h o s).trans (execMfmt_misaligned H rfl hp hal)
    · exact (exec_mfmt h o s).trans (execMfmt_outside H rfl hp hal hout)
    · exact (exec_mfmt h o s).trans (execMfmt_valid H rfl hp hal hin hclean ((writable_iff v).2 hv))
    · exact (exec_mfmt h o s).trans (execMfmt_invalid H rfl hp hal hin hclean fun hw => hv ((writable_iff v).1 hw))
    · exact (exec_mwait h o s).trans (execMwait_of H hq)

/-! ## The start of the command at the head (R158 to R163) -/

/-- What happens to a command whose moment has come, by the bytes that it reads (R160, R163). -/
def byOperands (s : State) (core : Nat) (c : MxCmd) : MxStart :=
  if s.mxAbsent core c then .miss 4 else if s.mxPoisoned core c then .poison else .go

/-- A calendar gives handle `h` no interval that holds a slot (R161). -/
theorem unbooked_iff (cal : List Interval) (h : BitVec 32) (slot : Nat) :
    (h = 0 ∨ (!(cal.any fun i => i.own h && i.at? slot)) = true) ↔
      ¬ (h ≠ 0 ∧ ∃ i ∈ cal, i.own h = true ∧ i.at? slot = true) := by
  rw [Decidable.not_and_iff_not_or_not, Decidable.not_not, Bool.not_eq_true', ← Bool.not_eq_true, List.any_eq_true]
  simp only [Bool.and_eq_true]

section
variable {s : State} {core : Nat} {c : MxCmd}

theorem byOperands_go (ha : s.mxAbsent core c = false) (hp : s.mxPoisoned core c = false) : byOperands s core c = .go := by
  simp [byOperands, ha, hp]
theorem byOperands_miss (ha : s.mxAbsent core c = true) : byOperands s core c = .miss 4 := if_pos ha
theorem byOperands_poison (ha : s.mxAbsent core c = false) (hp : s.mxPoisoned core c = true) : byOperands s core c = .poison := by
  simp [byOperands, ha, hp]

section
variable {rest : List MxCmd} (hq : (s.core core).mxe.queue = c :: rest) (hr : c.running = none)
include hq hr

/-- The head of the queue is looked at first. -/
theorem mxNext_head {r : MxStart} (h : s.mxTry core [] c = r) (hw : r ≠ .wait) :
    s.mxNext core [] (s.core core).mxe.queue = some ([], c, r, rest) := by
  rw [hq, State.mxNext, hr, h]
  cases r with
  | wait => exact absurd rfl hw
  | go | miss | poison => rfl
/-- A head that may start does so. -/
theorem matrixCommandStart_go (h : s.mxTry core [] c = .go) :
    exec (.matrixCommandStart core) s = .next (s.mxGo core [] c rest) := by
  rw [exec_matrixCommandStart, execMatrixCommandStart, mxNext_head hq hr h nofun]
/-- A head that misses its time raises Schedule Miss. -/
theorem matrixCommandStart_miss {n : Nat} (h : s.mxTry core [] c = .miss n) :
    exec (.matrixCommandStart core) s = .next ((s.mxDiscard core [] (c :: rest)).mxTrap core c cScheduleMiss n) := by
  rw [exec_matrixCommandStart, execMatrixCommandStart, mxNext_head hq hr h nofun]
/-- A head that reads poison raises Matrix Poison. -/
theorem matrixCommandStart_poison (h : s.mxTry core [] c = .poison) :
    exec (.matrixCommandStart core) s =
      .next ((((s.mxFound core c).mxUndefine core c).mxDiscard core [] (c :: rest)).mxTrap core c cMatrixPoison 0) := by
  rw [exec_matrixCommandStart, execMatrixCommandStart, mxNext_head hq hr h nofun]

end

section
variable {k : Task} (hk : s.task? core c.slot = some k) (he : k.ending = none) (hquiet : (s.core core).quiet = false)
  (hwaits : (s.core core).waits = false)
include hk he hquiet hwaits

/-- A head without a stamp waits for its four cycles and its booking only (R160, R161). -/
theorem mxTry_unstamped (hs : c.stamp = none) (h4 : c.entered + 4 ≤ s.cyc) (hb : s.bookingAllows core k.bhnd c.span = true) :
    s.mxTry core [] c = byOperands s core c := by
  simp [State.mxTry, byOperands, hk, he, hquiet, hwaits, hs, Nat.not_lt.2 h4, hb]

section
variable {t : Nat} (hs : c.stamp = some t)
include hs

/-- A stamp that is too early for the queue, or past. -/
theorem mxTry_late (hin : c.entered < s.cyc) (h : t < c.entered + 4 ∨ t < s.cyc) (ht : t ≤ s.cyc) : s.mxTry core [] c = .miss 1 := by
  have hnow : ¬ (s.cyc ≤ c.entered ∨ s.cyc < t) := by omega
  simp [State.mxTry, hk, he, hquiet, hwaits, hs, hnow, h]

section
variable (ht : s.cyc = t) (h4 : c.entered + 4 ≤ t)
include ht h4

/-- In the cycle of its stamp a head asks for an interval of its booking (R161). -/
theorem mxTry_stamped : s.mxTry core [] c =
    if k.bhnd = 0 ∨ !((s.cal core).any fun i => i.own k.bhnd && i.at? (t / 64)) then .miss 3 else byOperands s core c := by
  have hnow : ¬ (s.cyc ≤ c.entered ∨ s.cyc < t) := by omega
  have hlate : ¬ (t < c.entered + 4 ∨ t < s.cyc) := by omega
  simp only [State.mxTry, byOperands, hk, he, hquiet, hwaits, hs, if_neg hnow, if_neg hlate, Option.isSome_none, Bool.or_self,
    Bool.false_eq_true, if_false, List.any_nil]

theorem mxTry_booked (hb : k.bhnd ≠ 0 ∧ ∃ i ∈ s.cal core, i.own k.bhnd = true ∧ i.at? (t / 64) = true) :
    s.mxTry core [] c = byOperands s core c :=
  (mxTry_stamped hk he hquiet hwaits hs ht h4).trans (if_neg fun hn => (unbooked_iff (s.cal core) k.bhnd (t / 64)).1 hn hb)
theorem mxTry_unbooked (hb : ¬ (k.bhnd ≠ 0 ∧ ∃ i ∈ s.cal core, i.own k.bhnd = true ∧ i.at? (t / 64) = true)) :
    s.mxTry core [] c = .miss 3 :=
  (mxTry_stamped hk he hquiet hwaits hs ht h4).trans (if_pos ((unbooked_iff (s.cal core) k.bhnd (t / 64)).2 hb))

end
end
end

theorem core_of_bu (s : State) (b : BookUnit) (n : Nat) : State.core { s with bu := b } n = s.core n := rfl
/-- The engine of a command that has started: it stands in the queue with its last cycle and its operands as they stand (R165). -/
theorem core_mxGo (rest : List MxCmd) : (s.mxGo core [] c rest).core core = { s.core core with mxe := { (s.core core).mxe with
    queue := { c with running := some (s.cyc + c.span - 1)
                      snap := (s.core core).scratch.filter fun b => c.reads.any fun p => p.1 ≤ b.1 && b.1 < p.1 + p.2 } :: rest } } := by
  unfold State.mxGo
  split
  · exact State.core_updCore_self ..
  · exact (core_of_bu ..).trans (State.core_updCore_self ..)

/-! ## Its end (R158, R163) -/

section
variable {rest : List MxCmd} (hq : (s.core core).mxe.queue = c :: rest) {t : Nat} (hr : c.running = some t) (hd : c.done = false)
  (ht : t ≤ s.cyc)
include hq hr hd ht

/-- The head of the queue, at the end of its occupancy. -/
theorem matrixCommandComplete_head : exec (.matrixCommandComplete core c.idx) s =
    if s.mxMetPoison core c then
      .next ((((s.mxFound core c).mxUndefine core c).mxDiscard core [] (c :: rest)).mxTrap core c cMatrixPoison 0)
    else .next (s.mxComplete core c) := by
  simp [execMatrixCommandComplete, hq, hr, hd, ht]

end
end

/-- Settles O24: the head of the queue by what its trial answers, and at its end by what it has read. -/
theorem matrixCommandsRun : Obligations.matrix_commands_run := by
  intro core s c rest k hq hk present goes misses poisons booked
  refine ⟨fun hr he hquiet hwaits => ⟨fun hs h4 hb => ?_, fun t hs hin => ⟨fun ht h4 hb ⟨ha, hp⟩ => ?_, fun h ht => ?_,
    fun ht h4 hb => ?_, fun ht h4 hb ha => ?_⟩⟩, fun t hr hd ht => ?_, core_mxGo rest⟩
  · have hgate := mxTry_unstamped hk he hquiet hwaits hs h4 hb
    exact ⟨fun ⟨ha, hp⟩ => matrixCommandStart_go hq hr (hgate.trans (byOperands_go ha hp)),
      fun ha => matrixCommandStart_miss hq hr (hgate.trans (byOperands_miss ha)),
      fun ha hp => matrixCommandStart_poison hq hr (hgate.trans (byOperands_poison ha hp))⟩
  · exact matrixCommandStart_go hq hr ((mxTry_booked hk he hquiet hwaits hs ht h4 hb).trans (byOperands_go ha hp))
  · exact matrixCommandStart_miss hq hr (mxTry_late hk he hquiet hwaits hs hin h ht)
  · exact matrixCommandStart_miss hq hr (mxTry_unbooked hk he hquiet hwaits hs ht h4 hb)
  · exact matrixCommandStart_miss hq hr ((mxTry_booked hk he hquiet hwaits hs ht h4 hb).trans (byOperands_miss ha))
  · have hend := matrixCommandComplete_head hq hr hd ht
    exact ⟨fun hp => hend.trans (if_neg (by simp [hp])), fun hp => hend.trans (if_pos hp)⟩

/-! ## Elements of a register file -/

theorem read_write_self (r : RFile) {w : Nat} (d k : Nat) (v : BitVec w) : (r.write k v).read w d k = v := by
  simp [RFile.read, RFile.write]
theorem read_write_ne (r : RFile) {w : Nat} (d : Nat) {k j : Nat} (v : BitVec w) (h : j ≠ k) : (r.write k v).read w d j = r.read w d j := by
  simp [RFile.read, RFile.write, SMap.find?_set_ne _ _ _ _ h]

section
variable {ι : Type} (at_ : ι → Nat) {w : Nat} (v : ι → BitVec w) (r : RFile) (d : Nat) {l : List ι}

/-- Entries written one after another leave the other entries alone. -/
theorem read_writes_ne {k : Nat} (h : ∀ x ∈ l, at_ x ≠ k) :
    (l.foldr (fun x r => r.write (at_ x) (v x)) r).read w d k = r.read w d k := by
  induction l with
  | nil => rfl
  | cons x l ih =>
    obtain ⟨hx, hl⟩ := List.forall_mem_cons.1 h
    exact (read_write_ne _ d _ hx.symm).trans (ih hl)
/-- An entry among those written one after another, of which no two are the same. -/
theorem read_writes_mem {x : ι} (hx : x ∈ l) (hinj : ∀ y ∈ l, at_ y = at_ x → y = x) :
    (l.foldr (fun x r => r.write (at_ x) (v x)) r).read w d (at_ x) = v x := by
  induction l with
  | nil => cases hx
  | cons y l ih =>
    obtain ⟨hy, hl⟩ := List.forall_mem_cons.1 hinj
    by_cases hyx : y = x
    · subst hyx
      exact read_write_self _ d _ _
    · exact (read_write_ne _ d _ fun h => hyx (hy h.symm)).trans (ih ((List.mem_cons.1 hx).resolve_left (Ne.symm hyx)) hl)

end

/-! ## Elements of an accumulator -/

/-- The rows and columns of a shape. -/
def cells (dim : Nat) : List (Nat × Nat) := (List.range dim).flatMap fun i => (List.range dim).map (Prod.mk i)
theorem mem_cells {dim i j : Nat} : (i, j) ∈ cells dim ↔ i < dim ∧ j < dim := by
  simp only [cells, List.mem_flatMap, List.mem_map, List.mem_range]
  constructor
  · rintro ⟨x, hx, y, hy, hxy⟩
    cases hxy
    exact ⟨hx, hy⟩
  · exact fun ⟨hi, hj⟩ => ⟨i, hi, j, hj, rfl⟩

/-- The number of an element in its accumulator. -/
def cellAt (p : Nat × Nat) : Nat := 128 * p.1 + p.2
theorem cellAt_inj {p q : Nat × Nat} (hp : p.2 < 128) (hq : q.2 < 128) (h : cellAt p = cellAt q) : p = q := by
  unfold cellAt at h
  exact Prod.ext (by omega) (by omega)

/-- A shape is filled cell by cell. -/
theorem fill_eq (r : RFile) (dim : Nat) (f : Nat → Nat → Nat) :
    r.fill dim f = (cells dim).foldr (fun p r => r.write (cellAt p) (BitVec.ofNat 32 (f p.1 p.2))) r := by
  rw [cells, List.foldr_flatMap]
  simp only [List.foldr_map]
  rfl

section
variable {dim i j : Nat} (hd : dim ≤ 128) (hj : j < 128) (r : RFile) (f : Nat → Nat → Nat)
include hd hj

/-- A cell of the number of another cell is that cell. -/
theorem eq_of_mem_cells {p : Nat × Nat} (hp : p ∈ cells dim) (h : cellAt p = cellAt (i, j)) : p = (i, j) :=
  cellAt_inj (Nat.lt_of_lt_of_le (mem_cells.1 hp).2 hd) hj h
/-- An element of a shape that has been filled. -/
theorem read_fill_inside (hij : i < dim ∧ j < dim) : (r.fill dim f).read 32 0 (cellAt (i, j)) = BitVec.ofNat 32 (f i j) := by
  rw [fill_eq]
  exact read_writes_mem cellAt _ r 0 (mem_cells.2 hij) fun p hp h => eq_of_mem_cells hd hj hp h
/-- An element outside it. -/
theorem read_fill_outside (hij : ¬ (i < dim ∧ j < dim)) :
    (r.fill dim f).read 32 0 (cellAt (i, j)) = r.read 32 0 (cellAt (i, j)) := by
  rw [fill_eq]
  exact read_writes_ne cellAt _ r 0 fun p hp h => hij (mem_cells.1 (eq_of_mem_cells hd hj hp h ▸ hp))

end

/-! ## What a command leaves in the accumulators (R146, R148, R151, R153) -/

section
variable (m : Mxe) (r : RFile) {n : Nat}

theorem acc_of_scale (k : Nat) : Mxe.acc { m with scale := r } k = m.acc k := rfl
theorem acc_setAcc_self : (m.setAcc n r).acc n = r := by
  unfold Mxe.setAcc Mxe.acc
  split <;> rfl
theorem acc_setAcc_other (hn : n ≤ 1) : (m.setAcc n r).acc (1 - n) = m.acc (1 - n) := by
  obtain rfl | rfl := Nat.le_one_iff_eq_zero_or_eq_one.1 hn <;> rfl

end

/-- A number of `n` bytes. -/
theorem leNat_lt {bs : List Byte} {n : Nat} (hn : bs.length = n) : leNat bs < 256 ^ n := by
  subst hn
  induction bs with
  | nil => exact Nat.one_pos
  | cons b bs ih =>
    have hb := b.isLt
    simp only [leNat, List.foldr_cons, List.length_cons, Nat.pow_succ] at ih ⊢
    omega
/-- A container of 32 bits is the number of its four bytes (R144). -/
theorem container_32 (rd : Nat → Byte) (base n : Nat) :
    container rd base 32 n = leNat ((List.range 4).map fun b => rd (base + 4 * n + b)) := by
  rw [container, if_neg (by decide), Nat.mul_comm 4 n]
theorem container_32_lt (rd : Nat → Byte) (base n : Nat) : container rd base 32 n < 2 ^ 32 := by
  rw [container_32]
  exact leNat_lt (n := 4) (by rw [List.length_map, List.length_range])

section
variable {c : MxCmd} (core : Nat) (m : Mxe) (rd : Nat → Byte)

theorem effect_product (h : c.op ≤ 1) : (c.effect core m rd).1 =
    m.setAcc c.acc ((m.acc c.acc).fill c.dim fun i j => (c.product m rd i j).1) := by
  rw [MxCmd.effect, if_pos h]
theorem effect_clear (h : c.op = 2) : (c.effect core m rd).1 = m.setAcc c.acc {} := by
  simp [MxCmd.effect, h]
theorem effect_load (h : c.op = 4) : (c.effect core m rd).1 =
    m.setAcc c.acc ((m.acc c.acc).fill c.dim fun i j => container rd c.aa 32 (i * c.dim + j)) := by
  simp [MxCmd.effect, h]
/-- `mdrn`, `mscale` and `mxpose` change no accumulator. -/
theorem effect_acc_of_none (h : c.op = 3 ∨ 5 ≤ c.op) (n : Nat) : (c.effect core m rd).1.acc n = m.acc n := by
  unfold MxCmd.effect
  rw [if_neg (by omega), if_neg (by omega)]
  split
  · rfl
  · rw [if_neg (by omega)]
    split
    · exact acc_of_scale ..
    · rfl
/-- No command changes the accumulator that it does not name. -/
theorem effect_acc_other (ha : c.acc ≤ 1) (h : c.op ≤ 4) : (c.effect core m rd).1.acc (1 - c.acc) = m.acc (1 - c.acc) := by
  obtain h1 | h2 | h3 | h4 : c.op ≤ 1 ∨ c.op = 2 ∨ c.op = 3 ∨ c.op = 4 := by omega
  · rw [effect_product core m rd h1, acc_setAcc_other _ _ ha]
  · rw [effect_clear core m rd h2, acc_setAcc_other _ _ ha]
  · exact effect_acc_of_none core m rd (.inl h3) _
  · rw [effect_load core m rd h4, acc_setAcc_other _ _ ha]
/-- The elements outside the shape keep their values. -/
theorem effect_outside {i j : Nat} (hd : c.dim ≤ 128) (hj : j < 128) (h : c.op ≤ 4) (hne : c.op ≠ 2) (hij : ¬ (i < c.dim ∧ j < c.dim)) :
    ((c.effect core m rd).1.acc c.acc).read 32 0 (cellAt (i, j)) = (m.acc c.acc).read 32 0 (cellAt (i, j)) := by
  obtain h1 | h3 | h4 : c.op ≤ 1 ∨ c.op = 3 ∨ c.op = 4 := by omega
  · rw [effect_product core m rd h1, acc_setAcc_self, read_fill_outside hd hj _ _ hij]
  · rw [effect_acc_of_none core m rd (.inl h3)]
  · rw [effect_load core m rd h4, acc_setAcc_self, read_fill_outside hd hj _ _ hij]

end

/-- Settles O25: each kind of command by the registers that its effect fills. -/
theorem matrixElementResults : Obligations.matrix_element_results := by
  intro c core m rd hd ha el m' i j hi hj
  refine ⟨fun h hid hjd => ?_, fun h => ?_, fun h hid hjd => ?_, fun h hne hij => ?_, fun h => ?_, fun h => ⟨?_, ?_⟩⟩
  · show (((c.effect core m rd).1.acc c.acc).read 32 0 (cellAt (i, j))).toNat = _
    rw [effect_product core m rd h, acc_setAcc_self, read_fill_inside hd hj _ _ ⟨hid, hjd⟩, BitVec.toNat_ofNat]
  · show (((c.effect core m rd).1.acc c.acc).read 32 0 (cellAt (i, j))).toNat = 0
    rw [effect_clear core m rd h, acc_setAcc_self]
    rfl
  · show (((c.effect core m rd).1.acc c.acc).read 32 0 (cellAt (i, j))).toNat = _
    rw [effect_load core m rd h, acc_setAcc_self, read_fill_inside hd hj _ _ ⟨hid, hjd⟩, BitVec.toNat_ofNat,
      Nat.mod_eq_of_lt (container_32_lt ..), container_32]
  · exact congrArg BitVec.toNat (effect_outside core m rd hd hj h hne hij)
  · exact congrArg (fun r => (RFile.read r 32 0 (128 * i + j)).toNat) (effect_acc_other core m rd ha h)
  · exact congrArg (fun r => (RFile.read r 32 0 (128 * i + j)).toNat) (effect_acc_of_none core m rd h 0)
  · exact congrArg (fun r => (RFile.read r 32 0 (128 * i + j)).toNat) (effect_acc_of_none core m rd h 1)

end Sys2Proof.Machine.MatrixEngine
end

