-- ==== Sys2Proof/Proofs/FarTarget.lean ====
section
/-!
Far requests at their target: packets that reach no context (R318, R325), reads (R325, R327), stores with and without an order (R247, R328)
and atomics (R173, R325).
-/
namespace Sys2Proof.Machine.FarTarget

/-! ## Packets that reach no context (R318, R325) -/

section
variable {s : State} {p : Pkt} (ha : s.arrival p = none)
include ha

/-- A reply that reaches no context answers no request. -/
theorem farOf_unreached : s.farOf p = none := by
  rw [State.farOf, ha, Option.bind_none]

/-- Every packet of the far accesses asks first for the context that it reaches, or for the request that it answers there. -/
theorem exec_unreached : ∀ i ∈ [Instr.read p, .write p, .wrord p, .atom p, .rdata p, .arply p, .ack p, .nack p, .xreq p, .xdata p, .xabt p,
    .xack p, .xflt p, .ldown p], exec i s = .next (s.unserved p) := by
  have hf := farOf_unreached ha
  simp [execRead, execWrite, execWrord, execAtom, execXreq, execXdata, execXabt, execLdown, ha,
    execRdata, execArply, execAck, execNack, execXack, execXflt, hf]

theorem unserved_unknown (hg : SMap.find? s.gone p.job.toNat = none) : s.unserved p = s.discard := by
  simp only [State.unserved, ha, hg]

section
variable {c : Context} {j : JobBind} (hg : SMap.find? s.gone p.job.toNat = some c) (hj : c.job = some j)
include hg hj

/-- The port is not one of the destroyed context's job. -/
theorem unserved_foreign (h : j.accepts p = false) : s.unserved p = s.discard := by
  simp [State.unserved, ha, hg, hj, h]
theorem unserved_access (h : j.accepts p = true) (ht : p.ty = 0 ∨ p.ty = 2 ∨ p.ty = 3) : s.unserved p =
    (s.launchPkt c 0 p.sdev.toNat { ty := 7, rti := p.rti, tag := p.tag, rqdev := p.rqdev, cls := p.cls, reason := 7 }).2 := by
  simp [State.unserved, ha, hg, hj, h, ht]
theorem unserved_atomic (h : j.accepts p = true) (ht : p.ty = 4) : s.unserved p =
    (s.launchPkt c 0 p.sdev.toNat { ty := 5, tag := p.tag, rqdev := p.rqdev, cls := p.cls, reason := 7 }).2 := by
  simp [State.unserved, ha, hg, hj, h, ht]

end
end

/-! ## What the target answers (R323, R328) -/

/-- The refusal of a read or a store. -/
def nack (p : Pkt) (r : Nat) : Pkt := { ty := 7, rti := p.rti, reason := BitVec.ofNat 8 r }
/-- The acknowledgement of a store. -/
def ack (p : Pkt) : Pkt := { ty := 6, rti := p.rti }
/-- The refusal of an atomic. -/
def arply (r : Nat) : Pkt := { ty := 5, reason := BitVec.ofNat 8 r }

/-- The bytes that a READ asks for. -/
abbrev readLen (p : Pkt) : Nat := [64, 256, 1024, 4096].getD p.sub.toNat 64
/-- The bytes that an ATOM works on. -/
abbrev atomLen (p : Pkt) : Nat := 2 ^ (p.status.toNat % 4)
/-- The state that has answered a READ of the places `ps`, in packets of at most 256 bytes (R327). -/
def sendRead (t : State) (key : Nat) (p : Pkt) (ps : List (Nat × Loc)) : State :=
  let st := farStep p.addr.toNat (readLen p)
  (List.range ((readLen p + 255) / 256)).foldl
    (fun v i => v.reply key p (dataPacket { ty := 1 } ((t.portFill key p.addr.toNat (readLen p)).readPlaces st ps) i))
    (((t.portFill key p.addr.toNat (readLen p)).billRead key (readLen p)).findPlaces key p.addr.toNat st ps)
/-- The state that has answered an ATOM at place `l` with the old value and its flags, and has written where the atomic writes. -/
def performAtom (u : State) (key : Nat) (p : Pkt) (l : Loc) : State :=
  let n := atomLen p
  let cmp := leNat p.payload % 2 ^ (8 * n)
  let new := atomicNew p.sub.toNat n (u.readLoc l n) (p.opnd.toNat % 2 ^ (8 * n)) cmp
  (if atomicWrites p.sub.toNat (u.readLoc l n) cmp then ((u.billWrite key n).perform key [(l, n, new.1)]).spoil key [(l, n, new.1)]
    else u).reply key p { ty := 5, status := BitVec.ofNat 8 (2 * new.2.toNat), payload := leBytes (u.readLoc l n) 8 }

/-! ## Stores (R325, R328) -/

/-- The core, the window and the offset in it that a store to a window names (R187, R325). -/
abbrev storeCore (p : Pkt) : Nat := fld p.addr.toNat 9 0
@[inherit_doc storeCore] abbrev storeWindow (p : Pkt) : Nat := fld p.addr.toNat 15 10
@[inherit_doc storeCore] abbrev storeOffset (p : Pkt) : Nat := fld p.addr.toNat 36 16
/-- The pieces of a store to pages, one for each place. -/
def pagePieces (p : Pkt) (ps : List (Nat × Loc)) : List WPiece :=
  ps.map fun q => (q.2, farStep p.addr.toNat p.payload.length, leNat ((p.payload.drop q.1).take (farStep p.addr.toNat p.payload.length)))
/-- The pieces of a store through window `x`. -/
def windowPieces (p : Pkt) (x : Window) : List WPiece :=
  chunk8 ⟨some (storeCore p), x.base + storeOffset p⟩ p.payload
/-- The state in which a store has performed on pages. -/
def onPages (t : State) (key : Nat) (p : Pkt) (ps : List (Nat × Loc)) : State :=
  (((t.portFill key p.addr.toNat p.payload.length).billWrite key p.payload.length).perform key (pagePieces p ps)).spoil key (pagePieces p ps)
/-- The state in which a store has performed through window `x`. -/
def throughWindow (t : State) (key : Nat) (p : Pkt) (x : Window) : State :=
  let r := t.engineWrite key (windowPieces p x) []
  (r.1.setWindow (storeCore p) (storeWindow p) (x.count p.payload.length r.2 false)).spoil key (windowPieces p x)

/-- A window admits a store: its device may write, and its bytes lie in the window (R187). -/
def Admitted (p : Pkt) (x : Window) : Prop :=
  x.admits p.sdev.toNat p.sdev.toNat = true ∧ storeOffset p + p.payload.length ≤ x.len
/-- The same by the test of the model, which counts from the base of the window. -/
theorem admitted_iff (p : Pkt) (x : Window) : Admitted p x ↔
    (x.admits p.sdev.toNat p.sdev.toNat && x.holds (x.base + storeOffset p) p.payload.length) = true := by
  have hin : x.base + storeOffset p + p.payload.length ≤ x.base + x.len ↔ storeOffset p + p.payload.length ≤ x.len := by omega
  simp [Admitted, Window.holds, hin]

section
variable {t : State} {key : Nat} {c : Context} {p : Pkt}

theorem answerStore_performed {u : State} (h : t.performStore key c p = (0, u)) : t.answerStore key c p = u.reply key p (ack p) := by
  rw [State.answerStore, h]
  rfl
theorem answerStore_refused {u : State} {r : Nat} (h : t.performStore key c p = (r, u)) (hr : r ≠ 0) :
    t.answerStore key c p = u.reply key p (nack p r) := by
  rw [State.answerStore, h]
  exact if_neg hr

theorem performStore_unserved (hs : c.serves = false) : t.performStore key c p = (7, t) := by
  simp [State.performStore, hs]

section
variable (hs : c.serves = true)
include hs

section
variable (hsub : p.sub ≠ 1)
include hsub

theorem performStore_forbidden {r : Nat} (h : t.farPlaces key p.addr.toNat p.payload.length (fun _ wr _ => wr) = .error r) :
    t.performStore key c p = (r, t) := by
  simp only [State.performStore, hs, if_neg hsub, h, Bool.not_true, Bool.false_eq_true, if_false]
theorem performStore_pages {ps : List (Nat × Loc)} (h : t.farPlaces key p.addr.toNat p.payload.length (fun _ wr _ => wr) = .ok ps) :
    t.performStore key c p = (0, onPages t key p ps) := by
  simp only [State.performStore, hs, if_neg hsub, h, Bool.not_true, Bool.false_eq_true, if_false]
  rfl

end

section
variable (hsub : p.sub = 1)
include hsub

/-- The core that the store names is not one of the context's now. -/
theorem performStore_elsewhere (h : c.present = false ∨ t.partOf (storeCore p) ≠ some (key / 128)) :
    t.performStore key c p = (10, t) := by
  simp [State.performStore, hs, hsub, h]

section
variable (hp : c.present = true) (hpart : t.partOf (storeCore p) = some (key / 128))
include hp hpart

theorem performStore_closed (h : SMap.find? (t.core (storeCore p)).windows (storeWindow p) = none) :
    t.performStore key c p = (10, t) := by
  simp [State.performStore, hs, hsub, hp, hpart, h]

section
variable {x : Window} (hx : SMap.find? (t.core (storeCore p)).windows (storeWindow p) = some x)
include hx

theorem performStore_kept_out (h : ¬ Admitted p x) : t.performStore key c p = (10, t) := by
  have hd : ¬ (x.admits p.sdev.toNat p.sdev.toNat && x.holds (x.base + storeOffset p) p.payload.length) = true :=
    mt (admitted_iff p x).2 h
  simp [State.performStore, State.directWrite, hs, hsub, hp, hpart, hx, hd]

section
variable (h : Admitted p x)
include h

theorem performStore_admitted :
    t.performStore key c p = (if (windowPieces p x).any t.inBarrier then 6 else 0, throughWindow t key p x) := by
  simp [State.performStore, State.directWrite, hs, hsub, hp, hpart, hx, (admitted_iff p x).1 h, throughWindow, windowPieces]
  rfl
theorem performStore_whole (hb : (windowPieces p x).any t.inBarrier = false) : t.performStore key c p = (0, throughWindow t key p x) := by
  rw [performStore_admitted hs hsub hp hpart hx h, hb, if_neg Bool.false_ne_true]
/-- A registered barrier word among the bytes is skipped and reported (R180, R187). -/
theorem performStore_skipping (hb : (windowPieces p x).any t.inBarrier = true) : t.performStore key c p = (6, throughWindow t key p x) := by
  rw [performStore_admitted hs hsub hp hpart hx h, hb, if_pos rfl]

end
end
end
end
end
end

/-! ## Packets that reach a context (R325) -/

section
variable {s : State} {key : Nat} {c : Context} {p : Pkt} (ha : s.arrival p = some (key, c))
include ha

/-! ### WRITE and WRORD, which count as arrived before they perform, or wait (R247, R328) -/

theorem write_reached : exec (.write p) s = .next (((s.served key p).countArrival key p).answerStore key c p) := by
  rw [exec_write, execWrite, ha]
theorem write_performed {u : State} (h : ((s.served key p).countArrival key p).performStore key c p = (0, u)) :
    exec (.write p) s = .next (u.reply key p (ack p)) := by
  rw [write_reached ha, answerStore_performed h]
theorem write_refused {u : State} {r : Nat} (h : ((s.served key p).countArrival key p).performStore key c p = (r, u)) (hr : r ≠ 0) :
    exec (.write p) s = .next (u.reply key p (nack p r)) := by
  rw [write_reached ha, answerStore_refused h hr]
theorem wrord_reached :
    exec (.wrord p) s = .next { s.served key p with heldOrd := (s.served key p).heldOrd ++ [(key, s.cyc, p)] } := by
  rw [exec_wrord, execWrord, ha]

/-! ### Requests to a context that does not serve -/

theorem read_unserved (hs : c.serves = false) : exec (.read p) s = .next ((s.served key p).reply key p (nack p 7)) := by
  simp [execRead, ha, hs, nack]
theorem atom_unserved (hs : c.serves = false) : exec (.atom p) s = .next ((s.served key p).reply key p (arply 7)) := by
  simp [execAtom, ha, hs, arply]

section
variable (hs : c.serves = true)
include hs

/-! ### READ (R325, R327) -/

theorem read_forbidden {r : Nat} (h : (s.served key p).farPlaces key p.addr.toNat (readLen p) (fun _ _ fr => fr) = .error r) :
    exec (.read p) s = .next ((s.served key p).reply key p (nack p r)) := by
  simp only [exec_read, execRead, ha, hs, h, Bool.not_true, Bool.false_eq_true, if_false]
  rfl
theorem read_answered {ps : List (Nat × Loc)} (h : (s.served key p).farPlaces key p.addr.toNat (readLen p) (fun _ _ fr => fr) = .ok ps) :
    exec (.read p) s = .next (sendRead (s.served key p) key p ps) := by
  simp only [exec_read, execRead, ha, hs, h, Bool.not_true, Bool.false_eq_true, if_false]
  rfl

/-! ### ATOM (R173, R325) -/

theorem atom_forbidden {r : Nat} (h : (s.served key p).farPlaces key p.addr.toNat (atomLen p) (fun rd wr _ => rd && wr) = .error r) :
    exec (.atom p) s = .next ((s.served key p).reply key p (arply r)) := by
  simp only [exec_atom, execAtom, ha, hs, h, Bool.not_true, Bool.false_eq_true, if_false]
  rfl

section
variable {q : Nat} {l : Loc} {qs : List (Nat × Loc)}
  (h : (s.served key p).farPlaces key p.addr.toNat (atomLen p) (fun rd wr _ => rd && wr) = .ok ((q, l) :: qs))
include h

theorem atom_poisoned (hb : ((s.served key p).portFill key p.addr.toNat (atomLen p)).isPoisoned l (atomLen p) = true) :
    exec (.atom p) s = .next ((((s.served key p).portFill key p.addr.toNat (atomLen p)).find
      { key := key, name := some p.addr.toNat, loc := some l }).reply key p { ty := 5, status := 1 }) := by
  simp only [exec_atom, execAtom, ha, hs, h, hb, Bool.not_true, Bool.false_eq_true, if_false, if_true]
theorem atom_performed (hb : ((s.served key p).portFill key p.addr.toNat (atomLen p)).isPoisoned l (atomLen p) = false) :
    exec (.atom p) s = .next (performAtom ((s.served key p).portFill key p.addr.toNat (atomLen p)) key p l) := by
  simp only [exec_atom, execAtom, ha, hs, h, hb, Bool.not_true, Bool.false_eq_true, if_false]
  rfl

end
end
end

/-! ## Held ordered stores (R247) -/

section
variable {s : State} {idx key at_ : Nat} {p : Pkt} (hh : s.heldOrd[idx]? = some (key, at_, p))
include hh

theorem orderedStore_released (h : s.countsMet key p = true) : exec (.orderedStoreRelease idx) s =
    .next ((State.answerStore { s with heldOrd := s.heldOrd.eraseIdx idx } key (s.ctx key) p).countArrival key p) := by
  simp only [exec_orderedStoreRelease, execOrderedStoreRelease, hh, h, Bool.not_true, Bool.false_eq_true, if_false]
  rfl
theorem orderedStore_dropped (h : at_ + (s.ctx key).linkTimeout < s.cyc) :
    exec (.orderedStoreTimeout idx) s = .next { s with heldOrd := s.heldOrd.eraseIdx idx } := by
  simp [execOrderedStoreTimeout, hh, State.heldTooLong, h]

end

/-- Settles O33: packets without a context; then READ, WRITE, ATOM and WRORD by what the context, its pages and its windows allow; then the
ordered stores that are held. -/
theorem farTarget : Obligations.far_target := by
  refine ⟨fun p s ha => ⟨exec_unreached ha, unserved_unknown ha, fun c j hg hj => ?_⟩, fun p s key c ha => ?_, fun idx key at_ p s hh => ?_⟩
  · exact ⟨unserved_foreign ha hg hj, fun h => ⟨unserved_access ha hg hj h, unserved_atomic ha hg hj h⟩⟩
  · intro t va n
    refine ⟨fun hs => ?_, fun hs => ⟨fun ps h => read_answered ha hs h, fun r h => read_forbidden ha hs h, ?_, ?_⟩, wrord_reached ha⟩
    · refine ⟨read_unserved ha hs, ?_, atom_unserved ha hs⟩
      exact write_refused ha (performStore_unserved hs) nofun
    · refine ⟨fun hsub => ⟨fun r h => ?_, fun ps h => ?_⟩, fun hsub => ⟨fun h => ?_, fun hp hpart => ⟨fun hx => ?_, fun x hx => ?_⟩⟩⟩
      · exact write_refused ha (performStore_forbidden hs hsub h)
      · exact write_performed ha (performStore_pages hs hsub h)
      · exact write_refused ha (performStore_elsewhere hs hsub h) nofun
      · exact write_refused ha (performStore_closed hs hsub hp hpart hx) nofun
      · refine ⟨fun h => write_refused ha (performStore_kept_out hs hsub hp hpart hx h) nofun, fun h hb => ?_, fun h hb => ?_⟩
        · exact write_performed ha (performStore_whole hs hsub hp hpart hx h hb)
        · exact write_refused ha (performStore_skipping hs hsub hp hpart hx h hb) nofun
    · exact ⟨fun r h => atom_forbidden ha hs h, fun q l qs h => ⟨atom_poisoned ha hs h, atom_performed ha hs h⟩⟩
  · exact ⟨orderedStore_released hh, orderedStore_dropped hh⟩

end Sys2Proof.Machine.FarTarget
end

