-- ==== Sys2Proof/Proofs/BookingExchange.lean ====
section
/-!
The exchange between Booking Units: messages that reach no context (R317, R318), the remote unit's side (R275, R276, R331) and the asking
unit's (R274, R276).
-/
namespace Sys2Proof.Machine.BookingExchange

/-! ## Messages that reach a context and messages that do not (R317, R318) -/

theorem bookArrival_of_job {m : BookMsg} {s : State} {key : Nat} {c : Context} {j : JobBind} (hc : s.ctxOfJob m.job = some (key, c))
    (hj : c.job = some j) : s.bookArrival m = if m.inside || j.ports.testBit m.inPort.toNat then some (key, c) else none := by
  simp only [State.bookArrival, hc, Option.bind_some, hj]

/-- Every message of an exchange asks first for the context that it reaches. -/
theorem exec_unreached {m : BookMsg} {s : State} (ha : s.bookArrival m = none) :
    ∀ i ∈ [Instr.bookHold m, .bookHoldReply m, .bookCommit m, .bookRelease m, .bookEndReport m], exec i s = .next s.discard := by
  simp [execBookHold, execBookHoldReply, execBookCommit, execBookRelease, execBookEndReport, ha]

/-- The bytes of a message are counted to a context; the Booking Unit stays as it was. -/
theorem bu_heard (s : State) (key : Nat) (m : BookMsg) : (s.heard key m).bu = s.bu := by
  unfold State.heard
  split
  · rfl
  · exact State.bill_bu ..

/-! ## What a unit makes of a message -/

/-- A fabric slot as the device counts it (R331). -/
def localSlot (t : State) (n : Nat) : Nat := ((n : Int) - t.bu.beaconOff).toNat

/-- What device `c.devNo` tells the sender of `m` about the stage of `m`. -/
def report (t : State) (key : Nat) (c : Context) (m : BookMsg) (sub inst lo hi ecls : Nat) : State :=
  t.sendBook key m.dev sub { dev := c.devNo, handle := m.handle, stage := m.stage, ecls := ecls, inst := inst, lo := lo, hi := hi }

/-- The state without the holds of the stage of `m`. -/
def withoutHolds (t : State) (m : BookMsg) : State := { t with bu := { t.bu with holds := t.bu.holds.filter fun h => !h.isOf m } }

/-- The stage that the HOLD `m` asks for. -/
def asked (m : BookMsg) : Stage := { ecls := m.ecls, inst := m.inst, cap := m.cap, dur := m.dur }
/-- Its earliest place, from 64 slots after the present one on (R275). -/
def earliest (u : State) (key : Nat) (m : BookMsg) : Option (Nat × Nat) :=
  u.earliestFit key [] (asked m) (max (localSlot u m.lo) (u.slot + 64))
/-- The last start that the reply to a HOLD names: the end of the run of feasible starts from `f` on (R275). -/
def lastStart (u : State) (key : Nat) (m : BookMsg) (inst f : Nat) : Nat :=
  let run := u.runEnd key (asked m) inst (max (localSlot u m.hi) (f + (m.hi - m.lo))) 512 f
  if f ≤ localSlot u m.hi then min run (localSlot u m.hi) else run
/-- The state with a tentative hold of 850 slots (R275). -/
def held (u : State) (m : BookMsg) (inst f l : Nat) : State :=
  { u with bu := { u.bu with holds := u.bu.holds ++
    [{ job := m.job, dev := m.dev, handle := m.handle, stage := m.stage, cal := calNo m.ecls inst, cap := m.cap, dur := m.dur
       first := f, last := l, expires := u.cyc + 850 * 64 }] } }
/-- The answer to a HOLD for the place that was found. -/
def answerHold (u : State) (key : Nat) (c : Context) (m : BookMsg) : Option (Nat × Nat) → Out
  | none => .next (report u key c m 1 m.inst 1 0 m.ecls)
  | some (inst, f) => .next (report (held u m inst f (lastStart u key m inst f)) key c m 1 inst f (lastStart u key m inst f) m.ecls)

/-- The hold of the stage of `m` whose lease has not ended. -/
def liveHold (t : State) (m : BookMsg) : Option Hold := t.bu.holds.find? fun h => h.isOf m && decide (t.cyc < h.expires)
/-- The state without the hold `h`. -/
def freed (t : State) (h : Hold) : State := { t with bu := { t.bu with holds := t.bu.holds.filter fun k => k != h } }
/-- The state in which hold `h` has become an entry, in place of the older entries of its stage. -/
def entered (u : State) (m : BookMsg) (h : Hold) (start : Nat) : State :=
  (u.removeOf m).setCal h.cal ((u.removeOf m).cal h.cal ++
    [{ start := start, len := h.dur, cap := h.cap, handle := h.handle, dev := m.dev + 1, job := m.job, stage := h.stage }])

/-- The slots of the stage of `m` return from the next slot on (R269). -/
def returned (u : State) (m : BookMsg) : State :=
  { u with bu := { u.bu with returns := u.bu.returns ++
    [{ dev := m.dev + 1, job := m.job, handle := m.handle, stage := m.stage, first := u.slot + 1 }] } }

/-- The exchange `x` with the reply `m`. -/
def withReply (t : State) (x : Exchange) (m : BookMsg) : Exchange :=
  { x with replies := x.replies ++ [(m.stage, m.inst, localSlot t m.lo, localSlot t m.hi)] }
/-- The state in which exchange `x` is in progress. -/
def exchangingWith (t : State) (x : Exchange) : State := { t with bu := { t.bu with exchange := some x } }

/-- The state that has noted the end of the stage of `m`. -/
def withEnd (t : State) (m : BookMsg) : State :=
  t.updStage m.handle m.stage fun g => { g with fin := localSlot t m.hi, ended := g.ended || decide (localSlot t m.hi ≤ t.slot + 1) }

section
variable {m : BookMsg} {s t : State} {key : Nat} {c : Context} (ha : s.bookArrival m = some (key, c)) (ht : s.heard key m = t)
include ha ht

/-! ## HOLD (R275, R331) -/

section
variable {u : State} (hu : (withoutHolds t m).removeOf m = u)
include hu

theorem bookHold_reached : exec (.bookHold m) s = answerHold u key c m (if u.bu.synced then earliest u key m else none) := by
  subst ht hu
  rw [exec_bookHold, execBookHold, ha]
  rfl
theorem bookHold_refused (h : u.bu.synced = false ∨ earliest u key m = none) :
    exec (.bookHold m) s = .next (report u key c m 1 m.inst 1 0 m.ecls) := by
  have hnone : (if u.bu.synced then earliest u key m else none) = none := by
    obtain h | h := h <;> simp [h]
  rw [bookHold_reached ha ht hu, hnone, answerHold]
theorem bookHold_placed {inst f : Nat} (hsync : u.bu.synced = true) (hfit : earliest u key m = some (inst, f)) : exec (.bookHold m) s =
    .next (report (held u m inst f (lastStart u key m inst f)) key c m 1 inst f (lastStart u key m inst f) m.ecls) := by
  rw [bookHold_reached ha ht hu, if_pos hsync, hfit, answerHold]

end

/-! ## COMMIT and RELEASE (R275, R276, R331) -/

theorem bookCommit_lapsed (h : liveHold t m = none) : exec (.bookCommit m) s = .next t := by
  subst ht
  rw [liveHold] at h
  simp only [exec_bookCommit, execBookCommit, ha, h]

section
variable {h : Hold} (hh : liveHold t m = some h)
include hh

theorem bookCommit_unsynced (hsync : t.bu.synced = false) : exec (.bookCommit m) s = .next (report (freed t h) key c m 4 0 0 0 15) := by
  subst ht
  rw [liveHold] at hh
  simp only [exec_bookCommit, execBookCommit, ha, hh]
  exact if_pos (by rw [hsync, Bool.not_false])
theorem bookCommit_synced (hsync : t.bu.synced = true) :
    exec (.bookCommit m) s = .next (entered (freed t h) m h (localSlot t m.lo)) := by
  subst ht
  rw [liveHold] at hh
  simp only [exec_bookCommit, execBookCommit, ha, hh]
  exact if_neg (by rw [hsync, Bool.not_true]; exact Bool.false_ne_true)

end

theorem bookRelease_reached : exec (.bookRelease m) s = .next (returned (withoutHolds t m) m) := by
  subst ht
  rw [exec_bookRelease, execBookRelease, ha]
  rfl

/-! ## The reply to a HOLD (R274) -/

theorem bookHoldReply_expected {r : Req} {x : Exchange} {b : Booking} (hx : t.exchanging = some (r, x)) (hb : t.underExchange r = some b)
    (hh : b.handle = m.handle) (hk : ctxKey b.part b.fn = key) (hnew : (x.replies.any fun q => q.1 == m.stage) = false) :
    exec (.bookHoldReply m) s = .next (if x.replies.length + 1 = (remoteStages b x.first).length
      then (exchangingWith t (withReply t x m)).decideRound r (withReply t x m) else exchangingWith t (withReply t x m)) := by
  subst ht
  have hlen : (withReply (s.heard key m) x m).replies.length = x.replies.length + 1 := List.length_append
  rw [← hlen]
  simp only [exec_bookHoldReply, execBookHoldReply, ha, hx, hb]
  exact if_neg (by simp [hh, hk, hnew])

/-! ## The end report (R276) -/

section
variable {b : Booking} {g : Stage} (hb : (t.bu.bookings.find? fun b => b.handle == m.handle && ctxKey b.part b.fn == key) = some b)
  (hg : b.stage? m.stage = some g) (hl : b.live = true) (hr : g.rmt = true) (hd : g.dev = m.dev)
include hb hg hl hr hd

/-- The report is about a remote stage of a live booking, on the device that sends it. -/
theorem bookEndReport_expected : exec (.bookEndReport m) s = if m.ecls = 15 then .next (t.cancelBooking m.handle .nofit) else
    .next (State.doneIfEnded (if g.fin < localSlot t m.hi
      then (withEnd t m).slip ((withEnd t m).bu.bookings.length + 1) m.handle m.stage else withEnd t m) m.handle) := by
  subst ht
  simp only [exec_bookEndReport, execBookEndReport, ha, hb, hg]
  exact if_neg (by simp [hl, hr, hd])

end
end

/-! ## What runs out: the lease of a hold (R275) and the wait for replies (R274) -/

theorem bookHoldLeaseExpiry_due {s : State} {h : Hold} (hmem : h ∈ s.bu.holds) (hexp : h.expires ≤ s.cyc) :
    exec (.bookHoldLeaseExpiry h.dev h.handle h.stage) s = .next { s with bu := { s.bu with holds := s.bu.holds.filter fun k =>
      !(k.dev == h.dev && k.handle == h.handle && k.stage == h.stage && decide (k.expires ≤ s.cyc)) } } := by
  have hany : (s.bu.holds.any fun k => k.dev == h.dev && k.handle == h.handle && k.stage == h.stage && decide (k.expires ≤ s.cyc)) = true :=
    List.any_eq_true.2 ⟨h, hmem, by simp [hexp]⟩
  rw [exec_bookHoldLeaseExpiry, execBookHoldLeaseExpiry]
  exact if_pos hany

theorem bookReplyTimeout_due {s : State} {r : Req} {x : Exchange} (hx : s.exchanging = some (r, x)) (hlim : x.limit ≤ s.cyc) :
    exec (.bookReplyTimeout x.handle) s = .next (s.nextRound r x ((x.place.headD (0, 0)).2 + 1)) := by
  rw [exec_bookReplyTimeout, execBookReplyTimeout, hx]
  exact if_neg (by simp [hlim])

/-- Settles O39: messages that reach no context; HOLD, COMMIT, RELEASE, the reply and the end report at a unit that they reach; then the
lease and the wait that run out. -/
theorem bookingExchange : Obligations.booking_exchange := by
  refine ⟨fun m s => exec_unreached, fun m s key c hc j hj => bookArrival_of_job hc hj, fun m s key c ha => ?_, ?_, ?_⟩
  · rw [← bu_heard s key m]
    refine ⟨⟨bookHold_refused ha rfl rfl, fun inst f => bookHold_placed ha rfl rfl⟩, ⟨bookCommit_lapsed ha rfl, fun h hh => ?_⟩,
      bookRelease_reached ha rfl, fun r x b => bookHoldReply_expected ha rfl, fun b g hb hg hl hr hd => ?_⟩
    · exact ⟨bookCommit_unsynced ha rfl hh, bookCommit_synced ha rfl hh⟩
    · have hout := bookEndReport_expected ha rfl hb hg hl hr hd
      exact ⟨fun he => hout.trans (if_pos he), fun he => hout.trans (if_neg he)⟩
  · rintro dev stage handle s h hmem rfl rfl rfl hexp
    exact bookHoldLeaseExpiry_due hmem hexp
  · rintro handle s r x hx rfl hlim
    exact bookReplyTimeout_due hx hlim

end Sys2Proof.Machine.BookingExchange
end

