-- ==== Sys2Proof/Proofs/Tables.lean ====
section
/-!
Tables and contexts: what an entry is after the others are filtered, mapped or written, and what a context's update stores.
-/
namespace Sys2Proof.Machine

/-! ## Tables -/

/-- A second write to a key replaces the first. -/
theorem SMap.set_set {α : Type} (m : SMap α) (k : Nat) (v w : α) : SMap.set (SMap.set m k v) k w = SMap.set m k w := by
  induction m with
  | nil => simp [SMap.set]
  | cons p t ih =>
    obtain ⟨j, x⟩ := p
    simp only [SMap.set]
    split
    · simp [SMap.set]
    · split
      · simp [SMap.set]
      · simp [SMap.set, *]

/-! ## Contexts -/

theorem State.updCtx_of_find? {s : State} {k : Nat} {c : Context} (h : SMap.find? s.ctxs k = some c) (f : Context → Context) :
    s.updCtx k f = { s with ctxs := SMap.set s.ctxs k (f c) } := by
  simp only [State.updCtx, h]

theorem State.ctx_of_find? {s : State} {k : Nat} {c : Context} (h : SMap.find? s.ctxs k = some c) : s.ctx k = c :=
  SMap.get_of_find? h

theorem State.find?_updCtx_self {s : State} {k : Nat} {c : Context} (h : SMap.find? s.ctxs k = some c) (f : Context → Context) :
    SMap.find? (s.updCtx k f).ctxs k = some (f c) := by
  rw [State.updCtx_of_find? h]
  exact SMap.find?_set_self ..

end Sys2Proof.Machine
end

