-- ==== Sys2Proof/Proofs/CommandQueue.lean ====
section
/-!
The part right after reset (R316, R404, R409), and the command queue: what firmware makes of a descriptor that it takes (R399 to R401).
-/
namespace Sys2Proof.Machine.CommandQueue

/-- Settles O57: every field of the reset state by its default, and no byte listed in any memory. -/
theorem resetValues : Obligations.reset_values := by
  refine ⟨rfl, rfl, rfl, rfl, rfl, rfl, rfl, rfl, rfl, rfl, rfl, fun c a => ?_, rfl⟩
  cases c <;> rfl

/-! ## A descriptor taken (R399) -/

section
variable {d : Desc} {vf recovery : Bool} {used : List (Nat × Nat)} {body : State → Cmd} {s : State} {fn : Nat}

/-- Where the descriptor is the next one and the part is ready, firmware answers the command. -/
theorem command_next (hn : s.nextDesc = some (fn, d)) (hp : s.mgmt.power = .ready) : command d vf recovery used body s =
    if fn ≠ 0 ∧ !vf then .next ((s.takeDesc fn).complete fn d.htag 2 0)
    else if s.mgmt.recovery ∧ !(recovery && fn == 0) then .next ((s.takeDesc fn).complete fn d.htag 4 0)
    else if !unusedZero d used then .next ((s.takeDesc fn).complete fn d.htag 1 0)
    else match body (s.takeDesc fn) with
      | .done sts v t => .next (t.complete fn d.htag sts v)
      | .later t => .next t := by
  simp only [command, hn]
  rw [if_neg (by simp), if_neg (by simp [hp])]
  rfl

/-- A command that a virtual function may not give. -/
theorem command_denied (hn : s.nextDesc = some (fn, d)) (hp : s.mgmt.power = .ready) (h : fn ≠ 0) :
    command d false recovery used body s = .next ((s.takeDesc fn).complete fn d.htag 2 0) := by
  rw [command_next hn hp, if_pos ⟨h, rfl⟩]

/-- A command carried out. -/
theorem command_takes (H : Takes s fn d vf recovery used) : command d vf recovery used body s = match body (s.takeDesc fn) with
    | .done sts v t => .next (t.complete fn d.htag sts v)
    | .later t => .next t := by
  rw [command_next H.next H.ready, if_neg, if_neg, if_neg]
  · simp [H.unused]
  · rcases H.mode with hm | ⟨hr, hf⟩ <;> simp [*]
  · rcases H.allowed with hf | hv <;> simp [*]

/-- It ends at once with what its body answers. -/
theorem command_done (H : Takes s fn d vf recovery used) {sts v : Nat} {t : State} (hb : body (s.takeDesc fn) = .done sts v t) :
    command d vf recovery used body s = .next (t.complete fn d.htag sts v) := by
  rw [command_takes H, hb]

/-- It ends later. -/
theorem command_later (H : Takes s fn d vf recovery used) {t : State} (hb : body (s.takeDesc fn) = .later t) :
    command d vf recovery used body s = .next t := by
  rw [command_takes H, hb]

end

/-! ## BAR0 of a function (R399, R403) -/

theorem fnOf_updFn_self (s : State) (fn : Nat) (f : HostFn → HostFn) : (s.updFn fn f).fnOf fn = f (s.fnOf fn) := SMap.get_set_self ..
theorem fnOf_updFn_ne (s : State) {fn gn : Nat} (f : HostFn → HostFn) (h : gn ≠ fn) : (s.updFn fn f).fnOf gn = s.fnOf gn := SMap.get_set_ne _ _ _ _ _ h

/-- Settles O54: the three refusals in the order of `command`, the commands of the physical function, and what taking and completing a
descriptor change. -/
theorem commandRefusals : Obligations.command_refusals := by
  intro d vf recovery used body s fn hn hp
  refine ⟨?_, ?_, ?_, fun h => ?_, ?_, ?_⟩
  · rintro h rfl
    exact command_denied hn hp h
  · intro h hr hm
    rw [command_next hn hp, if_neg (by rcases h with h | h <;> simp [h]), if_pos]
    rcases hm with hm | hm <;> simp [hr, hm]
  · intro h hm hu
    rw [command_next hn hp, if_neg (by rcases h with h | h <;> simp [h]), if_neg (by rcases hm with hm | hm <;> simp [hm]), if_pos (by simp [hu])]
  · simp [execPartCreate, execPartDestroy, execGranMove, execArbWeight, execVfReset, execRouteLoad, execGroupLoad, execJobBind, execMigStart,
      execMigStop, execMigCommit, execCntRead, execDbgAttach, execDbgMem, execDbgDetach, execPatchLoad, command_denied hn hp h]
  · exact congrArg HostFn.queue (fnOf_updFn_self s fn fun h => { h with queue := h.queue.tail })
  · intro t sts v
    exact ⟨congrArg HostFn.done (fnOf_updFn_self t fn _), congrArg HostFn.headDone (fnOf_updFn_self t fn _), rfl, rfl, rfl⟩

end Sys2Proof.Machine.CommandQueue
end

