-- ==== Sys2Proof/Proofs/ShootDowns.lean ====
section
/-!
The translation control page and shoot-downs (R309 to R312).
-/
namespace Sys2Proof.Machine.ShootDowns

section
variable {s : State} {id : Nat} {f : Flight} (hf : s.comes id f)
include hf

theorem execSdreq_of {x : Word} {spec : Nat} (hop : f.op = .sdreq x spec) : exec (.sdreq id) s =
    if shootOk x.toNat then .next ((s.submitShoot (s.flightKey f) x.toNat).landControl f spec (BitVec.ofNat 64 (s.ctx (s.flightKey f)).sdNext))
    else .next (s.landControl f spec (BitVec.allOnes 64)) := by
  simp [execSdreq, hf.1, hf.2, hop]

theorem execRoot_of {x : Word} {spec : Nat} (hop : f.op = .root x spec) : exec (.root id) s =
    if x.toNat % 4096 = 0 ∧ fld x.toNat 63 48 = 0 then
      .next (((s.updCtx (s.flightKey f) fun c => c.setRoot x.toNat).submitShoot (s.flightKey f) 4).landControl f spec
        (BitVec.ofNat 64 (s.ctx (s.flightKey f)).sdNext))
    else .next (s.landControl f spec (BitVec.allOnes 64)) := by
  simp [execRoot, hf.1, hf.2, hop]

end

/-- The cycle in which the own work of a request submitted now is done (R312). -/
def shootDue (s : State) (lim : Nat) : Nat := s.cyc + 1 + Config.extraLatency s.fresh % (lim / 2)

theorem shootDue_bounds (s : State) {lim : Nat} (h : 0 < lim / 2) : s.cyc < shootDue s lim ∧ shootDue s lim ≤ s.cyc + lim / 2 := by
  have := Nat.mod_lt (Config.extraLatency s.fresh) h
  unfold shootDue
  omega

/-- A request enters the context's list under the next ticket. -/
theorem submitShoot_of {s : State} {key x : Nat} {c : Context} (hc : SMap.find? s.ctxs key = some c) : s.submitShoot key x =
    { s with
      ctxs := SMap.set s.ctxs key { c with
        sdNext := c.sdNext + 1
        sds := c.sds ++ [⟨c.sdNext, BitVec.ofNat 64 x, shootDue s (if x.testBit 2 then 131072 else 4096)⟩] }
      fresh := s.fresh + 1 } := by
  simp only [State.submitShoot, State.updCtx_of_find? hc, shootDue]

/-- The upper bits of a valid `ROOT` are zero. -/
theorem fld_high_eq_zero_iff (x : Word) : fld x.toNat 63 48 = 0 ↔ x.toNat < 2 ^ 48 := by
  have := x.isLt
  rw [fld, Nat.shiftRight_eq_div_pow]
  omega

/-- A request completes: its ticket is done, and the leases and caches of its range are renewed (R311). -/
theorem execShootdownComplete_of {s : State} {part fn lo n : Nat} {c : Context} {d : Shootdown} {rest : List Shootdown}
    (hc : SMap.find? s.ctxs (128 * part + fn) = some c) (hsds : c.sds = d :: rest) (hdue : d.due ≤ s.cyc)
    (hrange : shootRange d.value.toNat = (lo, n)) (hacc : s.accessPending (128 * part + fn) lo n = false) :
    exec (.shootdownComplete part fn) s = .next ((((State.rewalkAll
      { s with ctxs := SMap.set s.ctxs (128 * part + fn) { c with sdDone := d.ticket + 1, sds := rest } } (128 * part + fn) lo n).clearPorts
      (128 * part + fn) lo n).retryLeases (128 * part + fn) (leaseHit lo n))) := by
  have hready : s.shootReady (128 * part + fn) = some d := by
    simp [State.shootReady, State.ctx_of_find? hc, hsds, hrange, hdue, hacc]
  simp only [exec_shootdownComplete, execShootdownComplete, ctxKey, hready, hrange, State.updCtx_of_find? hc, hsds, List.drop_one, List.tail_cons]

/-- Settles O30: the two words by their checks, the completion by the oldest request. -/
theorem translationControl : Obligations.translation_control := by
  refine ⟨fun id spec x s f c hf hc => ⟨fun hop => ⟨fun hok => ?_, fun hok => ?_⟩, fun hop => ⟨fun hal hlt => ?_, fun hbad => ?_⟩⟩, ?_⟩
  · have hb := shootDue_bounds s (lim := if x.getLsbD 2 then 131072 else 4096) (by split <;> decide)
    refine ⟨_, hb.1, hb.2, ?_⟩
    rw [execSdreq_of hf hop, if_pos hok, submitShoot_of hc, State.ctx_of_find? hc, BitVec.ofNat_toNat, BitVec.setWidth_eq]
    rfl
  · rw [execSdreq_of hf hop, if_neg (by simp [hok])]
    rfl
  · have hb := shootDue_bounds s (lim := 131072) (by decide)
    refine ⟨_, hb.1, hb.2, ?_⟩
    rw [execRoot_of hf hop, if_pos ⟨hal, (fld_high_eq_zero_iff x).2 hlt⟩, submitShoot_of (State.find?_updCtx_self hc _), State.ctx_of_find? hc,
      State.updCtx_of_find? hc, SMap.set_set]
    rfl
  · rw [execRoot_of hf hop, if_neg]
    · rfl
    · rw [fld_high_eq_zero_iff]
      omega
  · intro part fn lo n s c d rest hc hsds hdue hrange hacc
    exact execShootdownComplete_of hc hsds hdue hrange hacc

end Sys2Proof.Machine.ShootDowns
end

