-- ==== Sys2Proof/Proofs/Links.lean ====
section
/-!
The ports of the fabric: the choice of a route (R320), what a port may send (R321), routes that fail and packets in forwarding (R318, R326),
and beacons (R331).
-/
namespace Sys2Proof.Machine.Links

/-! ## The choice of a route (R320) -/

/-- Of a rising list, the fold that keeps the better of two ends at the lowest element of least cost. -/
theorem foldl_least {f : Nat → Nat} {b r : Nat} {l : List Nat} (hl : (b :: l).Pairwise (· < ·))
    (hr : l.foldl (fun m r => match m with
      | none => some r
      | some b => if f r < f b then some r else m) (some b) = some r) :
    r ∈ b :: l ∧ ∀ q ∈ b :: l, f r ≤ f q ∧ (f q = f r → r ≤ q) := by
  induction l generalizing b with
  | nil =>
    obtain rfl : b = r := Option.some.inj hr
    simp
  | cons a l ih =>
    obtain ⟨hb, hal⟩ := List.pairwise_cons.1 hl
    obtain ⟨ha, hl'⟩ := List.pairwise_cons.1 hal
    replace hr : l.foldl _ (if f a < f b then some a else some b) = some r := hr
    by_cases hab : f a < f b
    · rw [if_pos hab] at hr
      obtain ⟨hmem, hmin⟩ := ih hal hr
      refine ⟨List.mem_cons_of_mem _ hmem, fun q hq => ?_⟩
      rcases List.mem_cons.1 hq with rfl | hq
      · have := (hmin a List.mem_cons_self).1
        exact ⟨by omega, by omega⟩
      · exact hmin q hq
    · rw [if_neg hab] at hr
      obtain ⟨hmem, hmin⟩ := ih (List.pairwise_cons.2 ⟨fun x hx => hb x (List.mem_cons_of_mem _ hx), hl'⟩) hr
      obtain ⟨hrb, htie⟩ := hmin b List.mem_cons_self
      refine ⟨?_, fun q hq => ?_⟩
      · rcases List.mem_cons.1 hmem with rfl | hmem
        · exact List.mem_cons_self
        · exact List.mem_cons_of_mem _ (List.mem_cons_of_mem _ hmem)
      · rcases List.mem_cons.1 hq with rfl | hq
        · exact ⟨hrb, htie⟩
        · rcases List.mem_cons.1 hq with rfl | hq
          · have := hb q List.mem_cons_self
            exact ⟨by omega, fun he => (htie (by omega)).trans (by omega)⟩
          · exact hmin q (List.mem_cons_of_mem _ hq)

theorem usableRoutes_rising (c : Context) (dev : Nat) : (c.usableRoutes dev).Pairwise (· < ·) := List.pairwise_lt_range.filter _

theorem chooseRoute_least {s : State} {c : Context} {dev r : Nat} {reply : Bool} (hr : s.chooseRoute c dev reply = some r) :
    r ∈ c.usableRoutes dev ∧ ∀ q ∈ c.usableRoutes dev, s.hopFlits c dev reply r ≤ s.hopFlits c dev reply q ∧
      (s.hopFlits c dev reply q = s.hopFlits c dev reply r → r ≤ q) := by
  have hl := usableRoutes_rising c dev
  rw [State.chooseRoute] at hr
  cases hu : c.usableRoutes dev with
  | nil => simp [hu] at hr
  | cons b l =>
    rw [hu] at hl hr
    exact foldl_least hl hr

/-! ## What a port may send (R321) -/

theorem mem_sendable {s : State} {port : Nat} {p : Pkt} (hp : p ∈ s.sendable port) : ∃ vc, vc < 16 ∧ (s.waiting port vc).head? = some p ∧
    SMap.get s.net.used 0 (16 * port + vc) + p.flits ≤ Config.vcFlits := by
  obtain ⟨vc, hvc, h⟩ := List.mem_filterMap.1 hp
  obtain ⟨q, hq, h⟩ := Option.bind_eq_some_iff.1 h
  split at h
  · obtain rfl := Option.some.inj h
    exact ⟨vc, List.mem_range.1 hvc, hq, ‹_›⟩
  · cases h

/-! ## Routes that fail (R326) -/

theorem routeDown_down {c : Context} {p : Pkt} {r : Nat} (h : c.failedRoute p = some r) :
    ((c.routeDown p).route (p.opnd.toNat % 4096) r).testBit 62 = true := by
  simp only [Context.routeDown, h, Context.route, SMap.get_set_self, BitVec.toNat_or, Nat.testBit_or]
  exact Bool.or_eq_true_iff.2 (.inr (by decide))

theorem routeDown_unusable {c : Context} {p : Pkt} {r : Nat} (h : c.failedRoute p = some r) :
    (c.routeDown p).usable (p.opnd.toNat % 4096) r = false := by
  simp [Context.usable, routeDown_down h]

section
variable {s t : State} {p : Pkt} {key : Nat} {c : Context} (ha : s.arrival p = some (key, c))
  (ht : (s.received key p).updCtx key (fun c => c.routeDown p) = t)
include ha ht

theorem execLdown_unnamed (hn : ((t.ctx key).far.find? fun r => r.named (t.ctx key) p) = none) : exec (.ldown p) s = .next t := by
  simp only [exec_ldown, execLdown, ha, ht, hn]

/-- The request that the LDOWN names: a store goes on, anything else completes, where its context is present. -/
theorem execLdown_named {r : FarReq} (hn : ((t.ctx key).far.find? fun r => r.named (t.ctx key) p) = some r) :
    exec (.ldown p) s = .next (if !(t.ctx key).present && !r.isStore then t.holdReply key r.tag p else match r.kind with
      | .load _ _ _ _ _ => t.failLoad key r 9
      | .atomic flight => (t.loseAtomic key r flight).statusOf key r 9 3
      | .third _ _ _ _ _ _ _ _ _ _ _ _ => t.finishThird key r
      | .store _ => t) := by
  simp only [exec_ldown, execLdown, ha, ht, hn] <;> rfl

theorem execLdown_store {r : FarReq} (hn : ((t.ctx key).far.find? fun r => r.named (t.ctx key) p) = some r) (hr : r.isStore = true) :
    exec (.ldown p) s = .next t := by
  rw [execLdown_named ha ht hn, if_neg (by simp [hr])]
  cases hk : r.kind with
  | store ord => rfl
  | _ => simp [FarReq.isStore, hk] at hr

theorem execLdown_absent {r : FarReq} (hn : ((t.ctx key).far.find? fun r => r.named (t.ctx key) p) = some r) (hr : r.isStore = false)
    (hp : ¬ (t.ctx key).present = true) : exec (.ldown p) s = .next (t.holdReply key r.tag p) := by
  rw [execLdown_named ha ht hn, if_pos (by simp [hr, hp])]

theorem execLdown_present {r : FarReq} (hn : ((t.ctx key).far.find? fun r => r.named (t.ctx key) p) = some r)
    (hp : (t.ctx key).present = true) :
    (r.isLoad = true → exec (.ldown p) s = .next (t.failLoad key r 9)) ∧
    (∀ flight, r.kind = .atomic flight → exec (.ldown p) s = .next ((t.loseAtomic key r flight).statusOf key r 9 3)) ∧
    (r.isThird = true → exec (.ldown p) s = .next (t.finishThird key r)) := by
  rw [execLdown_named ha ht hn, if_neg (by simp [hp])]
  cases hk : r.kind <;> simp [FarReq.isLoad, FarReq.isThird, hk]

end

/-! ## Forwarding (R318, R326) -/

section
variable {s : State} {p : Pkt} {key : Nat} {c : Context} {j : JobBind} {q : Pkt} (hc : s.ctxOfJob p.job.toNat = some (key, c)) (hj : c.job = some j)
  (hq : { p with hop := p.hop + 1 } = q)
include hc hj hq

theorem execPacketForward_refused (h : ¬ (j.accepts p = true ∧ p.inside = false ∧ p.hop.toNat + 1 < p.nhop.toNat ∧
    j.ports.testBit q.port = true)) : exec (.packetForward p) s = .next s.discard := by
  simp only [exec_packetForward, execPacketForward, hc, hj, hq]
  refine if_pos ?_
  by_contra hn
  simp only [not_or, Bool.not_eq_true', Bool.not_eq_false, Nat.not_le] at hn
  exact h ⟨hn.1, by simpa using hn.2.1, hn.2.2⟩

theorem execPacketForward_allowed (h : j.accepts p = true ∧ p.inside = false ∧ p.hop.toNat + 1 < p.nhop.toNat ∧
    j.ports.testBit q.port = true) (hroom : s.heldFlits p.inPort.toNat p.vc + p.flits ≤ Config.vcFlits) :
    exec (.packetForward p) s =
      .next (if s.linkUp q.port then s.toPort q else s.dropPacket p) := by
  obtain ⟨hacc, hin, hhop, hport⟩ := h
  simp only [exec_packetForward, execPacketForward, hc, hj, hq]
  rw [if_neg (by simp [hacc, hin, hport, hhop]), if_neg (by omega)]
  split <;> rfl

omit hj hq in
/-- An LDOWN goes to the source of a discarded packet, unless one went for its route a short time ago. -/
theorem dropPacket_of : s.dropPacket p =
    if SMap.get s.mgmt.ldownSent 0 p.routeKey ≠ 0 ∧ s.slot < SMap.get s.mgmt.ldownSent 0 p.routeKey - 1 + 4096 then s
    else State.sendOff { s with mgmt := { s.mgmt with ldownSent := SMap.set s.mgmt.ldownSent p.routeKey (s.slot + 1) } } key p.sdev.toNat
      { ty := 15, tag := p.tag, addr := BitVec.ofNat 64 p.route.toNat, opnd := BitVec.ofNat 64 p.ddev.toNat, rti := p.rti, rqdev := p.rqdev
        cls := p.cls, status := BitVec.ofNat 8 p.ty } := by
  simp only [State.dropPacket, hc]

end

/-! ## Beacons (R331) -/

theorem execBeacon_unreached {p : Pkt} {s : State} (h : s.arrival p = none) : exec (.beacon p) s = .next s.discard := by
  simp [execBeacon, h]

theorem execBeacon_reached {p : Pkt} {s : State} (h : (s.arrival p).isSome = true) :
    exec (.beacon p) s = .next (State.passBeacon { s with bu := { s.bu with
      beaconOff := ((p.opnd.toNat + s.linkLatency p.inPort.toNat : Nat) : Int) - (s.slot : Int), lastBeacon := s.slot, synced := true } }
      (p.opnd.toNat + s.linkLatency p.inPort.toNat)) := by
  rw [exec_beacon, execBeacon, if_neg (by simp [Option.isSome_iff_ne_none.1 h])]

theorem execBeaconSend_due {s : State} (hr : s.mgmt.beaconRoot = true) (hs : s.slot % 4096 = 0) (hl : s.mgmt.lastBeaconSent ≠ s.slot + 1) :
    exec .beaconSend s = .next { (s.passBeacon s.slot) with mgmt := { s.mgmt with lastBeaconSent := s.slot + 1 } } := by
  rw [exec_beaconSend, execBeaconSend, if_neg (by simp [hr, hs, hl])]

theorem execBeaconLoss_due {s : State} (hs : s.bu.synced = true) (hr : s.mgmt.beaconRoot = false) (hl : s.bu.lastBeacon + 16384 ≤ s.slot) :
    exec .beaconLoss s = .next { s with bu := { s.bu with synced := false } } := by
  rw [exec_beaconLoss, execBeaconLoss, if_pos (by simp [State.beaconsLost, hs, hr, hl])]

/-- Settles O35: the choice of a route and of what is sent, LDOWN by the request that it names, forwarding by what is allowed, and beacons. -/
theorem linksAndBeacons : Obligations.links_and_beacons := by
  refine ⟨fun s c dev r reply => chooseRoute_least, fun s port p => mem_sendable, fun p s key c ha => ?_,
    fun p c r h => ⟨routeDown_down h, routeDown_unusable h⟩, fun p s key c j hc hj => ⟨execPacketForward_refused hc hj rfl, fun h hroom => ⟨?_, ?_⟩⟩,
    fun p s => ⟨execBeacon_unreached, execBeacon_reached⟩, fun s => ⟨execBeaconSend_due, execBeaconLoss_due⟩, fun s port latency => ⟨rfl, rfl⟩⟩
  · exact ⟨execLdown_unnamed ha rfl, fun r hn => ⟨execLdown_store ha rfl hn, execLdown_absent ha rfl hn, execLdown_present ha rfl hn⟩⟩
  · intro hup
    rw [execPacketForward_allowed hc hj rfl h hroom, if_pos hup]
  · intro hdown
    rw [execPacketForward_allowed hc hj rfl h hroom, if_neg (Bool.eq_false_iff.1 hdown), dropPacket_of hc]
    exact ⟨fun h0 hrec => congrArg _ (if_pos ⟨h0, hrec⟩), fun hold => congrArg _ (if_neg (by omega))⟩

end Sys2Proof.Machine.Links
end

