-- ==== Sys2Proof/Proofs/CollectivePackets.lean ====
section
/-!
Packets of a collective instance: contributions and their acknowledgements (R345, R347, R352), notices (R342, R349 to R353) and digests (R336).
-/
namespace Sys2Proof.Machine.CollectivePackets

/-! ## Packets that come before the member's `coll`, or after its end (R336, R347) -/

theorem received_digests (s : State) (key : Nat) (p : Pkt) : (s.received key p).digests = s.digests := by
  unfold State.received
  split
  · rfl
  · exact State.bill_digests ..

section
variable {s : State} {p : Pkt} {key : Nat} {x : Context} (ha : s.arrival p = some (key, x))
include ha

theorem collOf_arrival : s.collOf p = s.coll? key p.tag.toNat := by
  simp only [State.collOf, ha, Option.bind_some]

/-- A notice is dropped where the member's `coll` was counted, and else kept. -/
theorem keepNotice_counted (h : p.tag.toNat % 2 ^ 24 < SMap.get s.collCount 0 (256 * key + p.tag.toNat / 2 ^ 24)) : s.keepNotice p = s := by
  simp only [State.keepNotice, ha]
  exact if_pos h

theorem keepNotice_early (h : ¬ p.tag.toNat % 2 ^ 24 < SMap.get s.collCount 0 (256 * key + p.tag.toNat / 2 ^ 24)) :
    s.keepNotice p = { (s.received key p) with digests := (s.received key p).digests ++ [(key, { p with inside := true })] } := by
  simp only [State.keepNotice, ha, if_neg h, received_digests]

/-- Without an instance, every notice and digest is one to keep. -/
theorem exec_notice (hc : s.coll? key p.tag.toNat = none) :
    ∀ i ∈ [Instr.cctlWithdraw p, .cctlFlush p, .cctlNofit p, .cctlDigestMismatch p, .cctlRedo p], exec i s = .next (s.keepNotice p) := by
  simp [execCctlWithdraw, execCctlFlush, execCctlNofit, execCctlDigestMismatch, execCctlRedo, collOf_arrival ha, hc]

theorem execCdig_none (hc : s.coll? key p.tag.toNat = none) : exec (.cdig p) s = .next (s.keepNotice p) := by
  simp only [exec_cdig, execCdig, ha, hc]

/-! ## Digests (R336, R353) -/

theorem execCdig_some {c : Coll} (hc : s.coll? key p.tag.toNat = some c) : exec (.cdig p) s =
    .next (if c.started then s.received key p else (s.received key p).compareDigest c p) := by
  simp only [exec_cdig, execCdig, ha, hc]

/-! ## Contributions (R345, R350, R352) -/

variable {u : State} (hu : (s.received key p).localCopy key p.tag.toNat = u)
include hu

theorem execCdata_none (hc : u.coll? key p.tag.toNat = none) : exec (.cdata p) s =
    .next (if p.tag.toNat % 2 ^ 24 < SMap.get u.collCount 0 (256 * key + p.tag.toNat / 2 ^ 24) then u.lateTile key p else u.holdTile key p) := by
  simp only [exec_cdata, execCdata, ha, hu, hc]

section
variable {c : Coll} (hc : u.coll? key p.tag.toNat = some c)
include hc

theorem execCdata_lost (hl : c.flushed ≠ none ∧ c.absent (fld p.opnd.toNat 15 0) c.members.length = true) :
    exec (.cdata p) s = .next (u.lateTile key p) := by
  simp only [exec_cdata, execCdata, ha, hu, hc]
  exact if_pos (by simp [hl.2, Option.isSome_iff_ne_none, hl.1])

variable (hl : ¬ (c.flushed ≠ none ∧ c.absent (fld p.opnd.toNat 15 0) c.members.length = true))
include hl

/-- A contribution to an instance that still takes it. -/
theorem execCdata_live : exec (.cdata p) s =
    if x.phase ≠ .running ∨ c.copied = false then .next (u.holdTile key p)
    else if c.expected (fld p.opnd.toNat 15 0) (p.addr.toNat / 4096) (fld p.opnd.toNat 23 16) = 0 then .next u
    else .next ((((u.applyTile c p (fld p.opnd.toNat 15 0) (fld p.opnd.toNat 23 16)).countTile c p (fld p.opnd.toNat 15 0)
      (fld p.opnd.toNat 23 16)).pump key c.tag).endSteps key c.tag) := by
  have hf : (c.flushed.isSome && c.absent (fld p.opnd.toNat 15 0) c.members.length) = false := by
    rwa [Bool.eq_false_iff, ne_eq, Bool.and_eq_true, Option.isSome_iff_ne_none]
  simp only [exec_cdata, execCdata, ha, hu, hc, hf, Bool.false_eq_true, if_false, Bool.not_eq_true']
  rfl

end
end

/-! ## Packets for an instance -/

section
variable {s t : State} {p : Pkt} {c : Coll} (hc : s.collOf p = some c) (ht : s.received c.key p = t)
include hc ht

theorem execCack_of : exec (.cack p) s = .next ((t.updColl c.key c.tag fun d => { d with unacked := d.unacked.filter fun u =>
    !(u.1 == fld p.opnd.toNat 15 0 && u.2.1 == fld p.opnd.toNat 47 16 && u.2.2.1 == c.memberOf p.sdev.toNat) }).endSteps c.key c.tag) := by
  simp only [exec_cack, execCack, hc, ht]

theorem execCctlWithdraw_of : exec (.cctlWithdraw p) s =
    .next (t.failMembers c (if p.opnd = 0 then 2 ^ c.memberOf p.sdev.toNat else p.opnd.toNat)) := by
  simp only [exec_cctlWithdraw, execCctlWithdraw, hc, ht]

theorem execCctlFlush_of : exec (.cctlFlush p) s = .next (if c.flushed.isSome then s else t.flushColl c) := by
  simp only [exec_cctlFlush, execCctlFlush, hc, ht]

theorem execCctlLate_of : exec (.cctlLate p) s = .next (t.updColl c.key c.tag fun d =>
    { d with toldLate := true, unacked := d.unacked.filter fun u => u.2.2.1 != c.memberOf p.sdev.toNat }) := by
  simp only [exec_cctlLate, execCctlLate, hc, ht]

theorem execCctlNofit_of : exec (.cctlNofit p) s =
    .next (if c.started then s else t.updColl c.key c.tag fun d => { d with withdrawn := some 3 }) := by
  simp only [exec_cctlNofit, execCctlNofit, hc, ht]

theorem execCctlDigestMismatch_of : exec (.cctlDigestMismatch p) s = .next (t.failMembers c (2 ^ c.memberOf p.sdev.toNat)) := by
  simp only [exec_cctlDigestMismatch, execCctlDigestMismatch, hc, ht]

theorem execCctlRedo_of {c' : Coll} (hc' : { c with
      fmask := c.fmask ||| p.opnd.toNat, booker := c.memberOf p.sdev.toNat, booked := BitVec.ofNat 32 (fld p.ocnt.toNat 95 64)
      nst := if c.memberOf p.sdev.toNat = c.booker then c.nst else 0 } = c') :
    exec (.cctlRedo p) s = .next ((t.updColl c.key c.tag fun _ => c').redo c' (p.ocnt.toNat % 2 ^ 64)) := by
  simp only [exec_cctlRedo, execCctlRedo, hc, ht, hc']

/-! ## Held (R350) -/

theorem execCctlHeld_later (h : p.opnd ≠ 0) : exec (.cctlHeld p) s =
    .next (if c.ownBooking then t.replaceFrom c.booked (p.ocnt.toNat % 2 ^ 32) (t.ownSlot p.addr.toNat) else t) := by
  simp only [exec_cctlHeld, execCctlHeld, hc, ht]
  exact if_pos h

theorem execCctlHeld_nothing (h : p.opnd = 0) (hh : (c.unacked.filter fun u => u.2.2.1 == c.memberOf p.sdev.toNat) = []) :
    exec (.cctlHeld p) s = .next t := by
  simp only [exec_cctlHeld, execCctlHeld, hc, ht, hh]
  exact if_neg (not_not_intro h)

end

/-- The instance after a receiver has held the tiles `held`: its steps from `first` on begin again, the first of them with those tiles. -/
def heldBack (first m slot : Nat) (held : List (Nat × Nat × Nat × Nat)) (c : Coll) : Coll :=
  { c with
    unacked := c.unacked.filter fun u => u.2.2.1 != m
    queue := c.queue.filter fun q => decide (q.1 < first)
    plan := c.plan.mapIdx fun i st => if first ≤ i then
        { st with begun := false, ended := false, quiet := slot + 1024
                  sends := if i = first then (st.sends.flatMap tilesOf).filter fun x =>
                      held.any fun v => v.1 == i && v.2.1 == x.dst / 4096 && v.2.2.1 == x.peer
                    else st.sends }
      else st }

/-- The fold of `min` is the least first component. -/
theorem foldl_min_eq {α : Type} {l : List (Nat × α)} {n first : Nat} (hlow : first ≤ n ∧ ∀ u ∈ l, first ≤ u.1)
    (hmem : first = n ∨ ∃ u ∈ l, u.1 = first) : l.foldl (fun n v => min n v.1) n = first := by
  induction l generalizing n with
  | nil => simpa [eq_comm] using hmem
  | cons a l ih =>
    obtain ⟨hn, ha, hl⟩ := hlow.1, List.forall_mem_cons.1 hlow.2
    refine ih ⟨le_min hn ha, hl⟩ ?_
    rcases hmem with rfl | ⟨u, hu, rfl⟩
    · exact .inl (min_eq_left ha).symm
    · rcases List.mem_cons.1 hu with rfl | hu
      · exact .inl (min_eq_right hn).symm
      · exact .inr ⟨u, hu, rfl⟩

theorem execCctlHeld_tiles {s t : State} {p : Pkt} {c : Coll} (hc : s.collOf p = some c) (ht : s.received c.key p = t) (h : p.opnd = 0)
    {held : List (Nat × Nat × Nat × Nat)} (hh : (c.unacked.filter fun u => u.2.2.1 == c.memberOf p.sdev.toNat) = held) {first : Nat}
    (hlow : ∀ u ∈ held, first ≤ u.1) (hmem : ∃ u ∈ held, u.1 = first) {w : State}
    (hw : t.updColl c.key c.tag (heldBack first (c.memberOf p.sdev.toNat) t.slot held) = w) :
    exec (.cctlHeld p) s = .next (match (c.plan.drop first).findSome? (·.stage) with
      | some n => (w.stopStage c n).askTime c n (t.ownSlot p.addr.toNat)
      | none => w) := by
  cases held with
  | nil => simp at hmem
  | cons u l =>
    have hfirst : (u :: l).foldl (fun n v => min n v.1) u.1 = first := by
      obtain ⟨v, hv, rfl⟩ := hmem
      refine foldl_min_eq ⟨hlow u List.mem_cons_self, hlow⟩ (.inr ⟨v, hv, rfl⟩)
    simp only [exec_cctlHeld, execCctlHeld, hc, ht, hh, hfirst]
    rw [if_neg (not_not_intro h), ← hw]
    cases (c.plan.drop first).findSome? (·.stage) <;> rfl

/-- Settles O42: contributions by what the instance still takes, early packets by what is kept, and then each packet for an instance. -/
theorem collectivePackets : Obligations.collective_packets := by
  refine ⟨fun p s key x ha => ⟨fun hc => ?_, fun c hc => ⟨execCdata_lost ha rfl hc, fun hl hno => ?_, fun hl hrun hcop => ?_⟩,
    fun hc i hi => ?_, fun hc => ?_, fun c hc => ?_⟩, fun p s c hc => ?_⟩
  · rw [execCdata_none ha rfl hc]
    exact ⟨fun h => congrArg _ (if_pos h), fun h => congrArg _ (if_neg (Nat.not_lt.2 h))⟩
  · rw [execCdata_live ha rfl hc hl, if_pos hno]
  · rw [execCdata_live ha rfl hc hl, if_neg (by simp [hrun, hcop])]
    exact ⟨fun h => if_pos h, fun h => if_neg h⟩
  · rw [exec_notice ha hc i hi]
    exact ⟨fun h => congrArg _ (keepNotice_counted ha h), fun h => congrArg _ (keepNotice_early ha h)⟩
  · rw [execCdig_none ha hc]
    exact ⟨fun h => congrArg _ (keepNotice_counted ha h), fun h => congrArg _ (keepNotice_early ha h)⟩
  · rw [execCdig_some ha hc]
    refine ⟨fun h => congrArg _ (if_pos h), fun h => ?_⟩
    rw [if_neg (Bool.eq_false_iff.1 h)]
    exact ⟨fun hp => congrArg _ (if_pos hp), fun hp => congrArg _ (if_neg hp)⟩
  · refine ⟨execCack_of hc rfl, execCctlWithdraw_of hc rfl, fun h => ?_, fun h => ?_, execCctlLate_of hc rfl, fun h => ?_, fun h => ?_,
      execCctlDigestMismatch_of hc rfl, execCctlRedo_of hc rfl rfl, execCctlHeld_later hc rfl, execCctlHeld_nothing hc rfl,
      fun h first hlow hmem => ?_⟩
    · rw [execCctlFlush_of hc rfl, if_neg (by simp [h])]
    · rw [execCctlFlush_of hc rfl, if_pos (Option.isSome_iff_ne_none.2 h)]
    · rw [execCctlNofit_of hc rfl, if_neg (by simp [h])]
    · rw [execCctlNofit_of hc rfl, if_pos h]
    · rw [execCctlHeld_tiles hc rfl h rfl hlow hmem rfl]
      refine ⟨fun hn => ?_, fun n hn => ?_⟩
      · rw [hn]
        rfl
      · rw [hn]
        rfl

end Sys2Proof.Machine.CollectivePackets
end

