-- ==== Sys2Proof/Proofs/DramWrites.lean ====
section
/-!
Writes to DRAM (R297, R305, R313): what a write of DRAM may change of the part, the bytes that it leaves, and the writes that firmware and the
host make at guest-physical addresses.
-/
namespace Sys2Proof.Machine

/-! ## Entries of a mapped table -/

theorem SMap.find?_map {α β : Type} (m : SMap α) (f : Nat → α → β) (k : Nat) :
    SMap.find? (m.map fun p => (p.1, f p.1 p.2)) k = (SMap.find? m k).map (f k) := by
  induction m with
  | nil => rfl
  | cons p t ih =>
    simp only [List.map_cons, SMap.find?]
    split
    · next h => simp [h]
    · exact ih

/-! ## What a write to DRAM may change -/

/-- The bytes of a memory after some pieces have been stored in it. -/
def storeAll (m : Mem) (ps : List WPiece) : Mem := ps.foldl (fun m p => Mem.write m p.1.off p.2.1 p.2.2) m

theorem updCtx_shape (s : State) (k : Nat) (f : Context → Context) : s.updCtx k f = { s with ctxs := (s.updCtx k f).ctxs } := by
  unfold State.updCtx
  split <;> rfl

theorem noteText_shape (s : State) (ps : List WPiece) : s.noteText ps = { s with cores := (s.noteText ps).cores } := by
  unfold State.noteText
  split <;> rfl

theorem noteText_cores_of_ctxs (s : State) (m : SMap Context) (ps : List WPiece) :
    (State.noteText { s with ctxs := m } ps).cores = (s.noteText ps).cores := by
  unfold State.noteText
  split <;> rfl

/-- Only the record of text of a core is noted. -/
theorem core_noteText_stale (s : State) (ps : List WPiece) (n : Nat) : ∃ st, (s.noteText ps).core n = { s.core n with stale := st } := by
  unfold State.noteText
  split
  · exact ⟨_, rfl⟩
  · have hfind := SMap.find?_map s.cores (fun _ c => c.noteText s.dram (dramPlaces ps)) n
    cases hc : SMap.find? s.cores n with
    | none =>
      refine ⟨(s.core n).stale, ?_⟩
      simp only [State.core, SMap.get, hfind, hc, Option.map_none]
    | some c =>
      refine ⟨(c.noteText s.dram (dramPlaces ps)).stale, ?_⟩
      simp only [State.core, SMap.get, hfind, hc, Option.map_some, Option.getD_some]
      rfl

section
variable {ps : List WPiece} (hps : ∀ p ∈ ps, p.1.core = none)
include hps

theorem storeBytes_dram (s : State) : ps.foldl State.storeBytes s = { s with dram := storeAll s.dram ps } := by
  induction ps generalizing s with
  | nil => rfl
  | cons p ps ih =>
    obtain ⟨⟨c, off⟩, len, v⟩ := p
    obtain rfl : c = none := hps _ List.mem_cons_self
    exact ih (fun p hp => hps p (List.mem_cons_of_mem _ hp)) _

theorem clearPiece_dram (qs : List WPiece) (s : State) :
    ∃ dp dt, ps.foldl (State.clearPiece qs) s = { s with dramPoison := dp, dramTold := dt } := by
  induction ps generalizing s with
  | nil => exact ⟨_, _, rfl⟩
  | cons p ps ih =>
    obtain ⟨⟨c, off⟩, len, v⟩ := p
    obtain rfl : c = none := hps _ List.mem_cons_self
    obtain ⟨dp, dt, h⟩ := ih (fun p hp => hps p (List.mem_cons_of_mem _ hp)) (State.clearPiece qs s (⟨none, off⟩, len, v))
    refine ⟨dp, dt, h.trans ?_⟩
    unfold State.clearPiece
    split <;> rfl

/-- A write of DRAM changes bytes and marks of DRAM, records of text, dirty bits and the requests to the schedulers, and nothing else. -/
theorem perform_dram (s : State) (key : Nat) : ∃ dp dt reqs, s.perform key ps = { s with
    cores := (s.noteText ps).cores, dram := storeAll s.dram ps, dramPoison := dp, dramTold := dt, ctxs := (s.markDirty key ps).ctxs
    htsReqs := reqs } := by
  have hmark : s.markDirty key ps = { s with ctxs := (s.markDirty key ps).ctxs } := updCtx_shape ..
  obtain ⟨dp, dt, h⟩ := clearPiece_dram hps ps (ps.foldl State.storeBytes ((s.markDirty key ps).noteText ps))
  refine ⟨dp, dt, s.htsReqs ++ ((s.markDirty key ps).writePieces ps).notifyList ps, ?_⟩
  have hw : (s.markDirty key ps).writePieces ps = { s with
      cores := (s.noteText ps).cores, dram := storeAll s.dram ps, dramPoison := dp, dramTold := dt, ctxs := (s.markDirty key ps).ctxs } := by
    refine h.trans ?_
    rw [storeBytes_dram hps, noteText_shape, hmark, noteText_cores_of_ctxs]
  rw [State.perform, hw]

end

/-! ## The bytes after a write of single bytes -/

theorem storeAll_frame {m : Mem} (hm : m.wf = true) {ps : List WPiece} (hlen : ∀ p ∈ ps, p.2.1 = 1) {a : Nat} (ha : ∀ p ∈ ps, p.1.off ≠ a) :
    Mem.get (storeAll m ps) a = Mem.get m a := by
  induction ps generalizing m with
  | nil => rfl
  | cons p ps ih =>
    obtain ⟨h1, hlen⟩ := List.forall_mem_cons.1 hlen
    obtain ⟨h2, ha⟩ := List.forall_mem_cons.1 ha
    refine (ih (Mem.wf_write hm _ _ _) hlen ha).trans ?_
    exact Mem.get_write_ne hm _ _ _ _ (by omega)

/-- The last byte stored at an address remains. -/
theorem storeAll_last {m : Mem} (hm : m.wf = true) {ps : List WPiece} (hlen : ∀ p ∈ ps, p.2.1 = 1) {i : Nat} {p : WPiece}
    (hi : ps[i]? = some p) (hlast : ∀ j q, i < j → ps[j]? = some q → q.1.off ≠ p.1.off) :
    Mem.get (storeAll m ps) p.1.off = BitVec.ofNat 8 p.2.2 := by
  induction ps generalizing m i with
  | nil => simp at hi
  | cons q ps ih =>
    obtain ⟨h1, hlen⟩ := List.forall_mem_cons.1 hlen
    have hwf := Mem.wf_write hm q.1.off q.2.1 q.2.2
    cases i with
    | zero =>
      obtain rfl : q = p := Option.some.inj hi
      have hne : ∀ x ∈ ps, x.1.off ≠ q.1.off := fun x hx => by
        obtain ⟨j, hj⟩ := List.getElem?_of_mem hx
        exact hlast (j + 1) x (Nat.succ_pos j) hj
      refine (storeAll_frame hwf hlen hne).trans ?_
      have := Mem.get_write_of hm q.1.off q.2.1 q.2.2 0 (by omega)
      simpa using this
    | succ i => exact ih hwf hlen hi fun j x hj hx => hlast (j + 1) x (Nat.succ_lt_succ hj) hx

/-! ## Writes at guest-physical addresses (R397, R401) -/

section
variable {s : State} {key ga : Nat} {bs : List Byte}

/-- The piece of byte `i`. -/
def guestPiece (s : State) (key ga : Nat) (x : Nat × Byte) : WPiece := (⟨none, (s.walk2 key (ga + x.1)).elim 0 (·.1)⟩, 1, x.2.toNat)

theorem guestPieces_of (h : ∀ i, i < bs.length → ∃ pa e, s.walk2 key (ga + i) = some (pa, e) ∧ e.w = true) :
    s.guestPieces key ga bs = some (((List.range bs.length).zip bs).map (guestPiece s key ga)) := by
  refine Fetching.mapM_of_map_some ?_
  rw [List.map_map]
  refine List.map_congr_left fun x hx => ?_
  obtain ⟨pa, e, hw, he⟩ := h x.1 (List.mem_range.1 (List.of_mem_zip hx).1)
  simp [guestPiece, hw, he]

theorem guestPieces_none (h : ∃ i, i < bs.length ∧ ∀ pa e, s.walk2 key (ga + i) = some (pa, e) → e.w = false) :
    s.guestPieces key ga bs = none := by
  obtain ⟨i, hi, h⟩ := h
  have hmem : (i, bs[i]) ∈ (List.range bs.length).zip bs :=
    List.mem_iff_getElem?.2 ⟨i, by simp [hi]⟩
  refine Fetching.mapM_of_none hmem ?_
  cases hw : s.walk2 key (ga + i) with
  | none => simp only [hw]
  | some r => simp [hw, h r.1 r.2 hw]

/-- Where every byte may be written, the write leaves each byte at the last place that names its address, and nothing else changed. -/
theorem guestPieces_bytes {ps : List WPiece} (hp : s.guestPieces key ga bs = some ps)
    (h : ∀ i, i < bs.length → ∃ pa e, s.walk2 key (ga + i) = some (pa, e) ∧ e.w = true) :
    (∀ p ∈ ps, p.1.core = none) ∧ ∀ m : Mem, m.wf = true →
      (∀ a, (∀ i pa e, i < bs.length → s.walk2 key (ga + i) = some (pa, e) → a ≠ pa) → Mem.get (storeAll m ps) a = Mem.get m a) ∧
      (∀ i b pa e, bs[i]? = some b → s.walk2 key (ga + i) = some (pa, e) →
        (∀ j pa' e', i < j → j < bs.length → s.walk2 key (ga + j) = some (pa', e') → pa' ≠ pa) → Mem.get (storeAll m ps) pa = b) := by
  obtain rfl : ((List.range bs.length).zip bs).map (guestPiece s key ga) = ps := Option.some.inj ((guestPieces_of h).symm.trans hp)
  have hlen : ∀ p ∈ ((List.range bs.length).zip bs).map (guestPiece s key ga), p.2.1 = 1 := fun p hp => by
    obtain ⟨x, _, rfl⟩ := List.mem_map.1 hp
    rfl
  have hat : ∀ i b, bs[i]? = some b → (((List.range bs.length).zip bs).map (guestPiece s key ga))[i]? = some (guestPiece s key ga (i, b)) := by
    intro i b hb
    obtain ⟨hi, rfl⟩ := List.getElem?_eq_some_iff.1 hb
    simp [hi]
  refine ⟨fun p hp => ?_, fun m hm => ⟨fun a ha => storeAll_frame hm hlen fun p hp => ?_, fun i b pa e hb hw hlast => ?_⟩⟩
  · obtain ⟨x, _, rfl⟩ := List.mem_map.1 hp
    rfl
  · obtain ⟨x, hx, rfl⟩ := List.mem_map.1 hp
    have hi := List.mem_range.1 (List.of_mem_zip hx).1
    obtain ⟨pa, e, hw, -⟩ := h x.1 hi
    simpa [guestPiece, hw] using (ha x.1 pa e hi hw).symm
  · have hpiece : (guestPiece s key ga (i, b)).1.off = pa := by simp [guestPiece, hw]
    rw [← hpiece, storeAll_last hm hlen (hat i b hb) fun j q hj hq => ?_]
    · simp [guestPiece]
    · have hjl : j < bs.length := by
        have := (List.getElem?_eq_some_iff.1 hq).1
        simpa using this
      obtain ⟨pa', e', hw', -⟩ := h j hjl
      obtain rfl : guestPiece s key ga (j, bs[j]) = q := Option.some.inj ((hat j bs[j] (List.getElem?_eq_getElem hjl)).symm.trans hq)
      rw [hpiece]
      simpa [guestPiece, hw'] using hlast j pa' e' hj hjl hw'

end

end Sys2Proof.Machine
end

