-- ==== Sys2Proof/Proofs/HostAccesses.lean ====
section
/-!
The host's accesses: BAR2 (R396, R397), the pointers of BAR0 (R399, R403) and the list of capabilities (R398).
-/
namespace Sys2Proof.Machine

/-! ## Numbers as bytes (R5) -/

@[simp] theorem length_leBytes (v n : Nat) : (leBytes v n).length = n := by
  induction n generalizing v with
  | zero => rfl
  | succ n ih => simp [leBytes, ih]

@[simp] theorem leNat_leBytes (v n : Nat) : leNat (leBytes v n) = v % 256 ^ n := by
  induction n generalizing v with
  | zero => simp [leBytes, leNat, Nat.mod_one]
  | succ n ih =>
    have hcons : leNat (leBytes v (n + 1)) = (BitVec.ofNat 8 v).toNat + 256 * leNat (leBytes (v / 256) n) := rfl
    rw [hcons, ih, BitVec.toNat_ofNat, show 256 ^ (n + 1) = 256 * 256 ^ n from Nat.pow_succ', Nat.mod_mul]

theorem take_leBytes (v : Nat) {k n : Nat} (h : k ≤ n) : (leBytes v n).take k = leBytes v k := by
  induction n generalizing v k with
  | zero => obtain rfl := Nat.le_zero.1 h; rfl
  | succ n ih => cases k with
    | zero => rfl
    | succ k => simp [leBytes, ih _ (Nat.le_of_succ_le_succ h)]

theorem drop_leBytes (v k n : Nat) : (leBytes v n).drop k = leBytes (v / 256 ^ k) (n - k) := by
  induction k generalizing v n with
  | zero => simp
  | succ k ih => cases n with
    | zero => simp [leBytes]
    | succ n => simp [leBytes, ih, Nat.pow_succ', Nat.div_div_eq_div_mul]

namespace HostAccesses

/-! ## BAR2 (R396, R397) -/

section
variable {s : State} {fn : Nat} (hr : s.mgmt.power = .ready)
include hr

/-- A function without a window is answered as unsupported. -/
theorem exec_noWindow (hw : s.windowOf fn = none) :
    (∀ (ga : BitVec 64) (n : Nat), exec (.hostBar2Read fn ga n) s = .next (s.toHost { fn := fn, ok := false })) ∧
    (∀ (ga : BitVec 64) (bytes : List (BitVec 8)), exec (.hostBar2Write fn ga bytes) s = .next s) ∧
    (∀ (ga : BitVec 64) (op : HostOp), exec (.hostAtomicOp fn ga op) s = .next (s.toHost { fn := fn, ok := false })) := by
  simp [execHostBar2Read, execHostBar2Write, execHostAtomicOp, ready, hr, hw]

variable {key : Nat} (hw : s.windowOf fn = some key)
include hw

theorem execHostBar2Read_of (ga : BitVec 64) (n : Nat) : exec (.hostBar2Read fn ga n) s = match s.bar2 key ga.toNat n with
    | none => .next (s.toHost { fn := fn, ok := false })
    | some ps => .next (State.toHost { s.billRead key n with
        found := s.found ++ (ps.filter fun p => s.isPoisoned ⟨none, p.1⟩ 1).map fun p => { key := key, loc := some ⟨none, p.1⟩ } }
        { fn := fn, ok := true, bytes := ps.map (fun p => Mem.get s.dram p.1), poisoned := ps.any fun p => s.isPoisoned ⟨none, p.1⟩ 1 }) := by
  simp only [exec_hostBar2Read, execHostBar2Read, ready, hr, hw, if_true, Option.bind_some]
  cases s.bar2 key ga.toNat n <;> rfl

theorem execHostBar2Write_of (ga : BitVec 64) (bytes : List (BitVec 8)) (hn : ga.toNat + bytes.length ≤ 2 ^ 39) :
    exec (.hostBar2Write fn ga bytes) s = match s.guestPieces key ga.toNat bytes with
    | none => .next s
    | some ps => .next ((s.billWrite key ps.length).perform key ps) := by
  simp only [exec_hostBar2Write, execHostBar2Write, ready, hr, hw, if_true]
  rw [if_neg (Nat.not_lt.2 hn)] <;> cases s.guestPieces key ga.toNat bytes <;> rfl

end

/-- The place that stage 2 gives to byte `i` of an access, where it gives one. -/
def place (s : State) (key ga i : Nat) : Nat × S2Entry := (s.walk2 key (ga + i)).getD (0, { pfn := 0, w := false })

section
variable {s : State} {key ga : Nat}

/-- The completion of a read of some places. -/
def mapped (s : State) (fn : Nat) (ps : List (Nat × S2Entry)) : HostReply :=
  { fn := fn, ok := true, bytes := ps.map (fun p => Mem.get s.dram p.1), poisoned := ps.any fun p => s.isPoisoned ⟨none, p.1⟩ 1 }

theorem place_of {i pa : Nat} {e : S2Entry} (h : s.walk2 key (ga + i) = some (pa, e)) : place s key ga i = (pa, e) := by
  simp [place, h]

theorem bar2_some {n : Nat} (hn : ga + n ≤ 2 ^ 39) (h : ∀ i, i < n → s.walk2 key (ga + i) ≠ none) :
    s.bar2 key ga n = some ((List.range n).map (place s key ga)) := by
  rw [State.bar2, if_pos hn]
  refine Fetching.mapM_of_map_some ?_
  rw [List.map_map]
  refine List.map_congr_left fun i hi => ?_
  obtain ⟨r, hr⟩ := Option.ne_none_iff_exists'.1 (h i (List.mem_range.1 hi))
  simp [place, hr]

theorem bar2_none {n : Nat} (h : 2 ^ 39 < ga + n ∨ ∃ i, i < n ∧ s.walk2 key (ga + i) = none) : s.bar2 key ga n = none := by
  unfold State.bar2
  split
  · rcases h with h | ⟨i, hi, h⟩
    · omega
    · exact Fetching.mapM_of_none (List.mem_range.2 hi) h
  · rfl

end

section
variable {s : State} {fn key : Nat} (hr : s.mgmt.power = .ready) (hw : s.windowOf fn = some key)
include hr hw

/-- A read where stage 2 maps every byte. -/
theorem bar2Read_mapped {ga : BitVec 64} {n : Nat} (hn : ga.toNat + n ≤ 2 ^ 39) (h : ∀ i, i < n → s.walk2 key (ga.toNat + i) ≠ none) :
    ∃ t r, exec (.hostBar2Read fn ga n) s = .next t ∧ t.dram = s.dram ∧ t.cores = s.cores ∧ t.hostOut = s.hostOut ++ [r] ∧
      r.fn = fn ∧ r.ok = true ∧ r.bytes.length = n ∧
      (∀ i pa e, i < n → s.walk2 key (ga.toNat + i) = some (pa, e) → r.bytes[i]? = some (Mem.get s.dram pa)) ∧
      (r.poisoned = true ↔ ∃ i pa e, i < n ∧ s.walk2 key (ga.toNat + i) = some (pa, e) ∧ s.isPoisoned ⟨none, pa⟩ 1 = true) := by
  rw [execHostBar2Read_of hr hw, bar2_some hn h]
  refine ⟨_, mapped s fn ((List.range n).map (place s key ga.toNat)), rfl, State.bill_dram .., State.bill_cores .., ?_, rfl, rfl,
    by simp [mapped], fun i pa e hi hpa => ?_, ?_⟩
  · exact congrArg (· ++ _) (State.bill_hostOut ..)
  · simp [mapped, hi, place_of hpa]
  · rw [mapped, List.any_eq_true]
    refine ⟨fun ⟨p, hp, hbad⟩ => ?_, fun ⟨i, pa, e, hi, hpa, hbad⟩ => ?_⟩
    · obtain ⟨i, hi, rfl⟩ := List.mem_map.1 hp
      obtain ⟨⟨pa, e⟩, hpa⟩ := Option.ne_none_iff_exists'.1 (h i (List.mem_range.1 hi))
      exact ⟨i, pa, e, List.mem_range.1 hi, hpa, by simpa [place_of hpa] using hbad⟩
    · exact ⟨_, List.mem_map.2 ⟨i, List.mem_range.2 hi, place_of hpa⟩, hbad⟩

/-- A write where stage 2 allows every byte. -/
theorem bar2Write_allowed {ga : BitVec 64} {bytes : List (BitVec 8)} (hd : s.dram.wf = true) (hn : ga.toNat + bytes.length ≤ 2 ^ 39)
    (h : ∀ i, i < bytes.length → ∃ pa e, s.walk2 key (ga.toNat + i) = some (pa, e) ∧ e.w = true) :
    ∃ t, exec (.hostBar2Write fn ga bytes) s = .next t ∧
      (∀ c, (t.core c).scratch = (s.core c).scratch ∧ (t.core c).slots = (s.core c).slots) ∧
      (∀ a, (∀ i pa e, i < bytes.length → s.walk2 key (ga.toNat + i) = some (pa, e) → a ≠ pa) → Mem.get t.dram a = Mem.get s.dram a) ∧
      (∀ i b pa e, bytes[i]? = some b → s.walk2 key (ga.toNat + i) = some (pa, e) →
        (∀ j pa' e', i < j → j < bytes.length → s.walk2 key (ga.toNat + j) = some (pa', e') → pa' ≠ pa) → Mem.get t.dram pa = b) := by
  have hp := guestPieces_of h
  obtain ⟨hnone, hbytes⟩ := guestPieces_bytes hp h
  obtain ⟨dp, dt, reqs, ht⟩ := perform_dram hnone (s.billWrite key bytes.length) key
  have hlen : (((List.range bytes.length).zip bytes).map (guestPiece s key ga.toNat)).length = bytes.length := by simp
  rw [execHostBar2Write_of hr hw ga bytes hn, hp]
  refine ⟨_, rfl, fun c => ?_, ?_⟩
  · obtain ⟨st, hst⟩ := core_noteText_stale (s.billWrite key bytes.length) (((List.range bytes.length).zip bytes).map (guestPiece s key ga.toNat)) c
    have hcore : ∀ u : State, u.cores = (State.noteText (s.billWrite key bytes.length)
        (((List.range bytes.length).zip bytes).map (guestPiece s key ga.toNat))).cores → u.core c = { s.core c with stale := st } := fun u hu => by
      have hb : (s.billWrite key bytes.length).core c = s.core c := by simp [State.core, State.billWrite]
      rw [← hb, ← hst, State.core, hu, State.core]
    rw [hlen, hcore _ (by rw [ht])]
    exact ⟨rfl, rfl⟩
  · have hdram : (State.perform (s.billWrite key bytes.length) key (((List.range bytes.length).zip bytes).map (guestPiece s key ga.toNat))).dram =
        storeAll s.dram (((List.range bytes.length).zip bytes).map (guestPiece s key ga.toNat)) := by
      rw [ht]
      simp [State.billWrite]
    rw [hlen, hdram]
    exact hbytes s.dram hd

theorem bar2Write_forbidden {ga : BitVec 64} {bytes : List (BitVec 8)} (hn : ga.toNat + bytes.length ≤ 2 ^ 39)
    (h : ∃ i, i < bytes.length ∧ ∀ pa e, s.walk2 key (ga.toNat + i) = some (pa, e) → e.w = false) :
    exec (.hostBar2Write fn ga bytes) s = .next s := by
  rw [execHostBar2Write_of hr hw ga bytes hn, guestPieces_none h]

end

/-! ## AtomicOps (R396, R173) -/

/-- The completion of an AtomicOp that finds `n` bytes at a physical address. -/
def oldValue (s : State) (fn pa n : Nat) : HostReply :=
  { fn := fn, ok := true, poisoned := s.isPoisoned ⟨none, pa⟩ n, bytes := leBytes (Mem.read s.dram pa n) n }

section
variable {s : State} {fn key : Nat} (hr : s.mgmt.power = .ready) (hw : s.windowOf fn = some key) {ga : BitVec 64} {op : HostOp}
  {mn n x cmp pa : Nat} {e : S2Entry} (hop : hostOpFields op = (mn, n, x, cmp)) (hn : ga.toNat + n ≤ 2 ^ 39)
  (h : ∀ i, i < n → s.walk2 key (ga.toNat + i) ≠ none) (hpa : s.walk2 key ga.toNat = some (pa, e))
include hr hw hop hn h hpa

/-- What an AtomicOp answers at its place. -/
theorem execHostAtomicOp_of : exec (.hostAtomicOp fn ga op) s =
    if ga.toNat % n ≠ 0 ∨ !e.w then .next (s.toHost { fn := fn, ok := false })
    else if s.isPoisoned ⟨none, pa⟩ n then .next ((s.find { key := key, loc := some ⟨none, pa⟩ }).toHost (oldValue s fn pa n))
    else .next (if atomicWrites mn (Mem.read s.dram pa n) (cmp % 2 ^ (8 * n)) then
        (((s.billRead key n).toHost (oldValue s fn pa n)).billWrite key n).perform key
          [(⟨none, pa⟩, n, (atomicNew mn n (Mem.read s.dram pa n) (x % 2 ^ (8 * n)) (cmp % 2 ^ (8 * n))).1)]
      else (s.billRead key n).toHost (oldValue s fn pa n)) := by
  obtain ⟨m, rfl⟩ : ∃ m, n = m + 1 := by
    cases op <;> simp only [hostOpFields, Prod.mk.injEq] at hop <;> exact ⟨n - 1, by have := hop.2.1; split at this <;> omega⟩
  have h0 : place s key ga.toNat 0 = (pa, e) := place_of hpa
  have hb := bar2_some hn h
  rw [List.range_succ_eq_map, List.map_cons, h0] at hb
  simp only [exec_hostAtomicOp, execHostAtomicOp, ready, hr, hw, hop, hb, if_true, Option.bind_some, Option.map_some]
  rfl

theorem atomicOp_refused (hbad : e.w = false ∨ ga.toNat % n ≠ 0) :
    exec (.hostAtomicOp fn ga op) s = .next (s.toHost { fn := fn, ok := false }) := by
  rw [execHostAtomicOp_of hr hw hop hn h hpa, if_pos]
  rcases hbad with hbad | hbad <;> simp [hbad]

variable (hal : ga.toNat % n = 0) (hwr : e.w = true)
include hal hwr

theorem atomicOp_poisoned (hbad : s.isPoisoned ⟨none, pa⟩ n = true) : ∃ t, exec (.hostAtomicOp fn ga op) s = .next t ∧ t.dram = s.dram ∧
    t.hostOut = s.hostOut ++ [{ fn := fn, ok := true, poisoned := true, bytes := leBytes (Mem.read s.dram pa n) n }] := by
  rw [execHostAtomicOp_of hr hw hop hn h hpa, if_neg (by simp [hal, hwr]), if_pos hbad, oldValue, hbad]
  exact ⟨_, rfl, rfl, rfl⟩

theorem atomicOp_clean (hok : s.isPoisoned ⟨none, pa⟩ n = false) : ∃ t, exec (.hostAtomicOp fn ga op) s = .next t ∧
    t.hostOut = s.hostOut ++ [{ fn := fn, ok := true, bytes := leBytes (Mem.read s.dram pa n) n }] ∧
    t.dram = (if atomicWrites mn (Mem.read s.dram pa n) (cmp % 2 ^ (8 * n)) then
      Mem.write s.dram pa n (atomicNew mn n (Mem.read s.dram pa n) (x % 2 ^ (8 * n)) (cmp % 2 ^ (8 * n))).1 else s.dram) := by
  rw [execHostAtomicOp_of hr hw hop hn h hpa, if_neg (by simp [hal, hwr]), if_neg (by simp [hok]), oldValue, hok]
  refine ⟨_, rfl, ?_⟩
  split
  · obtain ⟨dp, dt, reqs, ht⟩ := perform_dram (ps := [(⟨none, pa⟩, n, (atomicNew mn n (Mem.read s.dram pa n) (x % 2 ^ (8 * n)) (cmp % 2 ^ (8 * n))).1)])
      (by simp) (((s.billRead key n).toHost { fn := fn, ok := true, bytes := leBytes (Mem.read s.dram pa n) n }).billWrite key n) key
    rw [ht]
    simp [State.billWrite, State.toHost, State.billRead, storeAll]
  · simp [State.toHost, State.billRead]

end

/-! ## Pointers (R399, R403) -/

/-- The pointer of the command queue. -/
theorem execCqtail_of {s : State} {fn : Nat} (hr : s.mgmt.power = .ready) (tail : BitVec 64) (ds : List Desc) :
    exec (.cqtail fn tail ds) s = if fn ≤ 96 ∧ tail.toNat = (s.fnOf fn).tail + ds.length ∧ tail.toNat ≤ (s.fnOf fn).headDone + 64 ∧
      (∀ d ∈ ds, d.fn = fn) then .next (s.updFn fn fun h => { h with tail := tail.toNat, queue := h.queue ++ ds }) else .next s := by
  simp only [exec_cqtail, execCqtail, ready, hr, if_true]
  by_cases hf : fn ≤ 96 ∧ tail.toNat = (s.fnOf fn).tail + ds.length ∧ tail.toNat ≤ (s.fnOf fn).headDone + 64 ∧ ∀ d ∈ ds, d.fn = fn
  · rw [if_pos hf, if_neg]
    obtain ⟨h1, h2, h3, h4⟩ := hf
    simp only [List.any_eq_true, bne_iff_ne, ne_eq, not_or, not_exists, not_and, not_not]
    exact ⟨Nat.not_lt.2 h1, h2, Nat.not_lt.2 h3, h4⟩
  · rw [if_neg hf, if_pos]
    by_contra hno
    simp only [List.any_eq_true, bne_iff_ne, ne_eq, not_or, not_exists, not_and, not_not] at hno
    obtain ⟨h1, h2, h3, h4⟩ := hno
    exact hf ⟨Nat.not_lt.1 h1, h2, Nat.not_lt.1 h3, h4⟩

theorem execEvhead_of {s : State} {fn : Nat} (hr : s.mgmt.power = .ready) (head : BitVec 64) :
    exec (.evhead fn head) s = if fn ≤ 96 ∧ (s.fnOf fn).evhead ≤ head.toNat ∧ head.toNat ≤ (s.fnOf fn).evtail then
      .next (s.updFn fn fun h => { h with evhead := head.toNat, ring := h.ring.drop (head.toNat - h.evhead) }) else .next s := by
  simp only [exec_evhead, execEvhead, ready, hr, if_true]
  by_cases hf : fn ≤ 96 ∧ (s.fnOf fn).evhead ≤ head.toNat ∧ head.toNat ≤ (s.fnOf fn).evtail
  · rw [if_pos hf, if_neg (by omega)]
  · rw [if_neg hf, if_pos (by omega)]

theorem atomicNew_add (n old x cmp : Nat) : (atomicNew 0 n old x cmp).1 = (old + x) % 2 ^ (8 * n) := rfl
theorem atomicNew_swap (n old x cmp : Nat) : (atomicNew 8 n old x cmp).1 = x := rfl
theorem atomicNew_cas (n old x cmp : Nat) : (atomicNew 9 n old x cmp).1 = if old = cmp then x else old := rfl
theorem atomicWrites_of_ne {mn : Nat} (h : mn ≠ 9) (old cmp : Nat) : atomicWrites mn old cmp = true := by simp [atomicWrites, h]
theorem atomicWrites_cas (old cmp : Nat) : atomicWrites 9 old cmp = (old == cmp) := rfl
theorem pow_byte (n : Nat) : 256 ^ n = 2 ^ (8 * n) := (Nat.pow_mul 2 8 n).symm

/-! ## The list of capabilities (R398, R404) -/

theorem capList_eq (s : State) (fn : Nat) : s.capList fn =
    if s.mgmt.recovery then (if fn = 0 then [1, 3, 4] else []) else if fn = 0 then [1, 2, 3, 4, 5, 6, 7, 8] else [1, 3, 4, 8] := by
  by_cases hf : fn = 0 <;> cases hrec : s.mgmt.recovery <;> simp [State.capList, capRecords, hf, hrec]

section
variable {off id : Nat} {body : List Byte} {rest : List (Nat × List Byte)} {next : Nat}
  (hnext : (off + 16 + body.length + 15) / 16 * 16 = next)

/-- The header of a record as a number. -/
theorem capHeader_toNat (hid : id < 2 ^ 16) (hb : body.length < 2 ^ 32) (hlt : next < 2 ^ 32) :
    (capHeader id next body.length).toNat = id + 2 ^ 16 + 2 ^ 32 * next + 2 ^ 64 * body.length := by
  rw [capHeader, BitVec.toNat_ofNat, Nat.mod_eq_of_lt]
  omega

include hnext in
/-- A record is its header, its body and what fills the last 16 bytes. -/
theorem capChain_cons (hal : off % 16 = 0) : capChain off ((id, body) :: rest) =
    leBytes (capHeader id (if rest = [] then 0 else next) body.length).toNat 16 ++
      (body ++ (List.replicate (next - off - 16 - body.length) 0 ++ capChain next rest)) := by
  have hgap : (16 - body.length % 16) % 16 = next - off - 16 - body.length := by omega
  have hsum : off + 16 + body.length + (next - off - 16 - body.length) = next := by omega
  simp only [capChain, hgap, hsum, List.isEmpty_iff, List.append_assoc]

include hnext in
theorem capChain_fields (hid : id < 2 ^ 16) (hb : body.length < 2 ^ 32) (hal : off % 16 = 0) (hlt : next < 2 ^ 32) :
    leNat ((capChain off ((id, body) :: rest)).take 2) = id ∧ leNat (((capChain off ((id, body) :: rest)).drop 2).take 2) = 1 ∧
    leNat (((capChain off ((id, body) :: rest)).drop 4).take 4) = (if rest = [] then 0 else next) ∧
    leNat (((capChain off ((id, body) :: rest)).drop 8).take 4) = body.length ∧
    leNat (((capChain off ((id, body) :: rest)).drop 12).take 4) = 0 ∧
    ((capChain off ((id, body) :: rest)).drop 16).take body.length = body ∧
    (capChain off ((id, body) :: rest)).drop (next - off) = capChain next rest := by
  have hv : (if rest = [] then 0 else next) < 2 ^ 32 := by split <;> omega
  have hfield : ∀ k n, k + n ≤ 16 → leNat (((capChain off ((id, body) :: rest)).drop k).take n) =
      (id + 2 ^ 16 + 2 ^ 32 * (if rest = [] then 0 else next) + 2 ^ 64 * body.length) / 256 ^ k % 256 ^ n := fun k n hk => by
    rw [capChain_cons hnext hal, List.drop_append_of_le_length (by simp; omega), List.take_append_of_le_length (by simp; omega), drop_leBytes,
      take_leBytes _ (by omega), leNat_leBytes, capHeader_toNat hid hb hv]
  generalize hn : (if rest = [] then 0 else next) = v at hfield hv ⊢
  have h0 := hfield 0 2 (by omega)
  rw [List.drop_zero] at h0
  refine ⟨h0.trans ?_, (hfield 2 2 (by omega)).trans ?_, (hfield 4 4 (by omega)).trans ?_, (hfield 8 4 (by omega)).trans ?_,
    (hfield 12 4 (by omega)).trans ?_, ?_, ?_⟩
  · omega
  · omega
  · omega
  · omega
  · omega
  · rw [capChain_cons hnext hal, List.drop_left' (length_leBytes ..), List.take_left]
  · rw [capChain_cons hnext hal, ← List.append_assoc, ← List.append_assoc]
    refine List.drop_left' ?_
    simp only [List.length_append, length_leBytes, List.length_replicate]
    omega

end

/-! ## BAR0 (R397 to R399) -/

/-- A list read byte by byte. -/
theorem filterMap_getElem? {α : Type} (l : List α) : (List.range l.length).filterMap (l[·]?) = l := by
  induction l with
  | nil => rfl
  | cons a l ih =>
    rw [List.length_cons, List.range_succ_eq_map, List.filterMap_cons, List.filterMap_map]
    exact congrArg (a :: ·) ih

theorem bar0_tail (s : State) (fn : Nat) {i : Nat} (hi : i < 8) : s.bar0 fn (0x2000 + i) = (leBytes (s.fnOf fn).tail 8)[i]? := by
  have hq : ¬ 0x2000 + i < bar0Queue := Nat.not_lt.2 ((show bar0Queue ≤ 0x2000 by decide).trans (Nat.le_add_right ..))
  have ht : ¬ 0x2000 + i < bar0Tail := Nat.not_lt.2 (Nat.le_add_right ..)
  have hh : 0x2000 + i < bar0Head := Nat.add_lt_add_left hi 0x2000
  rw [State.bar0, if_neg hq, if_neg ht, if_pos hh, bar0Tail, Nat.add_sub_cancel_left]

theorem bar0_head (s : State) (fn : Nat) {i : Nat} (hi : i < 8) : s.bar0 fn (0x2008 + i) = (leBytes (s.fnOf fn).headDone 8)[i]? := by
  have hq : ¬ 0x2008 + i < bar0Queue := Nat.not_lt.2 ((show bar0Queue ≤ 0x2008 by decide).trans (Nat.le_add_right ..))
  have ht : ¬ 0x2008 + i < bar0Tail := Nat.not_lt.2 ((show bar0Tail ≤ 0x2008 by decide).trans (Nat.le_add_right ..))
  have hh : ¬ 0x2008 + i < bar0Head := Nat.not_lt.2 (Nat.le_add_right ..)
  have he : 0x2008 + i < bar0EvHead := Nat.add_lt_add_left hi 0x2008
  rw [State.bar0, if_neg hq, if_neg ht, if_neg hh, if_pos he, bar0Head, Nat.add_sub_cancel_left]

/-- A register of eight bytes of BAR0 as a number. -/
theorem leNat_register {f : Nat → Option Byte} {v : Nat} (h : ∀ i, i < 8 → f i = (leBytes v 8)[i]?) :
    leNat ((List.range 8).filterMap f) = v % 2 ^ 64 := by
  have hl := filterMap_getElem? (leBytes v 8)
  rw [length_leBytes] at hl
  rw [List.filterMap_congr fun i hi => h i (List.mem_range.1 hi), hl, leNat_leBytes]
  rfl

/-- Settles O52: a function without a window; BAR2 through stage 2; the two pointers; the capability list and the registers of BAR0. -/
theorem hostAccesses : Obligations.host_accesses := by
  intro fn s hr
  refine ⟨fun hno => exec_noWindow hr ?_, fun key hf hk => ?_, fun tail ds => ⟨fun hfit => ?_, fun hno => ?_⟩, fun head => ⟨fun hfit => ?_, fun hno => ?_⟩,
    capList_eq s fn, fun off id body rest hoff hid hb hal hlt => capChain_fields rfl hid hb hal hlt, fun off hoff => if_pos hoff,
    leNat_register fun i => bar0_tail s fn, leNat_register fun i => bar0_head s fn⟩
  · unfold State.windowOf
    split
    · rfl
    · exact hno.resolve_left ‹_›
  · have hw : s.windowOf fn = some key := (if_neg hf).trans hk
    refine ⟨fun ga n => bar2Read_mapped hr hw, fun ga n hno => ?_, fun ga bytes hd hn => ⟨bar2Write_allowed hr hw hd hn, bar2Write_forbidden hr hw hn⟩,
      fun ga op mn n x cmp pa e hop hd hn h hpa => ⟨atomicOp_refused hr hw hop hn h hpa, atomicOp_poisoned hr hw hop hn h hpa, fun hal hwr hok => ?_⟩⟩
    · rw [execHostBar2Read_of hr hw, bar2_none hno]
      rfl
    · obtain ⟨t, ht, hout, hdram⟩ := atomicOp_clean hr hw hop hn h hpa hal hwr hok
      refine ⟨t, ht, hout, fun a ha => ?_, ?_, ?_, ?_⟩
      · rw [hdram]
        split
        · exact Mem.get_write_ne hd _ _ _ _ ha
        · rfl
      · rintro rfl
        rw [hdram, atomicWrites_of_ne (by decide), if_pos rfl, Mem.read_write hd, pow_byte, atomicNew_add, Nat.mod_mod, Nat.add_mod_mod]
      · rintro rfl
        rw [hdram, atomicWrites_of_ne (by decide), if_pos rfl, Mem.read_write hd, pow_byte, atomicNew_swap, Nat.mod_mod]
      · rintro rfl
        rw [hdram, atomicWrites_cas]
        by_cases hold : Mem.read s.dram pa n = cmp % 2 ^ (8 * n)
        · rw [if_pos (beq_iff_eq.2 hold), if_pos hold, Mem.read_write hd, pow_byte, atomicNew_cas, if_pos hold, Nat.mod_mod]
        · rw [if_neg (fun h => hold (beq_iff_eq.1 h)), if_neg hold]
  · rw [execCqtail_of hr, if_pos hfit]
    refine ⟨_, rfl, ?_, ?_, fun f hne => CommandQueue.fnOf_updFn_ne s _ hne⟩
    · rw [CommandQueue.fnOf_updFn_self]
    · rw [CommandQueue.fnOf_updFn_self]
  · rw [execCqtail_of hr, if_neg hno]
  · rw [execEvhead_of hr, if_pos hfit]
    refine ⟨_, rfl, ?_, ?_, fun f hne => CommandQueue.fnOf_updFn_ne s _ hne⟩
    · rw [CommandQueue.fnOf_updFn_self]
    · rw [CommandQueue.fnOf_updFn_self]
  · rw [execEvhead_of hr, if_neg hno]

end HostAccesses
end Sys2Proof.Machine
end

