-- ==== Sys2Proof/Proofs/ContextView.lean ====
section
/-!
What events, messages, bookings and the start of a task leave alone: the cycle, the partitions, the management state but for its counter of
discarded packets, and of each context everything but its traffic, its dirty bits and what its event queue and schedulers hold.
-/
namespace Sys2Proof.Machine

/-! ## The view -/

/-- A context without what its own traffic changes. -/
def Context.frame (c : Context) : Context × Bool :=
  ({ c with
      pending := {}, s2 := c.s2.map fun p => (p.1, { p.2 with d := false }), evMap := none, notes := [], kept := c.kept.map fun p => (p.1, {})
      far := [], nextTag := 0, sent := [], arrived := [], deliveries := [] },
   c.evMap.isSome)

/-- What a function waits for: its descriptors, and the reset that another function asked for. -/
def HostFn.asked (h : HostFn) : List Desc × Option (BitVec 32) := (h.queue, h.resetBy)

/-- The contexts of a part, as far as `Context.frame` shows them. -/
def State.ctxView (s : State) (k : Nat) : Option (Context × Bool) := (SMap.find? s.ctxs k).map Context.frame

/-- What most of the part's own steps leave alone. -/
def State.view (s : State) : (Nat × (Nat → List Desc × Option (BitVec 32))) × SMap Partition × Mgmt × (Nat → Option (Context × Bool)) :=
  ((s.cyc, fun f => (s.fnOf f).asked), s.parts, { s.mgmt with discards := 0 }, s.ctxView)

/-- A view with the context `k` changed. -/
def editView (v : (Nat × (Nat → List Desc × Option (BitVec 32))) × SMap Partition × Mgmt × (Nat → Option (Context × Bool))) (k : Nat) (F : Context × Bool → Context × Bool) :
    (Nat × (Nat → List Desc × Option (BitVec 32))) × SMap Partition × Mgmt × (Nat → Option (Context × Bool)) :=
  (v.1, v.2.1, v.2.2.1, fun j => if j = k then (v.2.2.2 k).map F else v.2.2.2 j)

theorem frame_of_ctxView {s t : State} {k : Nat} (h : t.ctxView k = s.ctxView k) : (t.ctx k).frame = (s.ctx k).frame := by
  have hget : ∀ u : State, (u.ctx k).frame = (u.ctxView k).getD ({} : Context).frame := fun u => by
    cases hf : SMap.find? u.ctxs k <;> simp [State.ctx, SMap.get, State.ctxView, hf]
  rw [hget t, hget s, h]

section
variable {s t : State} (h : t.view = s.view)
include h

theorem asked_of_view (f : Nat) : (t.fnOf f).asked = (s.fnOf f).asked := congrFun (congrArg (·.1.2) h) f
theorem queue_of_view (f : Nat) : (t.fnOf f).queue = (s.fnOf f).queue := congrArg Prod.fst (asked_of_view h f)
theorem parts_of_view : t.parts = s.parts := congrArg (·.2.1) h
theorem retired_of_view : t.mgmt.retired = s.mgmt.retired := congrArg (·.2.2.1.retired) h
theorem ctxView_of_view (k : Nat) : t.ctxView k = s.ctxView k := congrArg (·.2.2.2 k) h

theorem isSome_of_view (k : Nat) : (SMap.find? t.ctxs k).isSome = (SMap.find? s.ctxs k).isSome := by
  simpa [State.ctxView] using congrArg Option.isSome (ctxView_of_view h k)

theorem find?_of_view {k : Nat} {c : Context} (hc : SMap.find? s.ctxs k = some c) : ∃ c', SMap.find? t.ctxs k = some c' ∧ c'.frame = c.frame := by
  have hk := ctxView_of_view h k
  rw [State.ctxView, State.ctxView, hc] at hk
  exact Option.map_eq_some_iff.1 hk

theorem frame_of_view (k : Nat) : (t.ctx k).frame = (s.ctx k).frame := frame_of_ctxView (ctxView_of_view h k)

theorem phase_of_view (k : Nat) : (t.ctx k).phase = (s.ctx k).phase := congrArg (·.1.phase) (frame_of_view h k)
theorem image_of_view (k : Nat) : (t.ctx k).image = (s.ctx k).image := congrArg (·.1.image) (frame_of_view h k)
theorem sseq_of_view (k : Nat) : (t.ctx k).sseq = (s.ctx k).sseq := congrArg (·.1.sseq) (frame_of_view h k)
theorem migrating_of_view (k : Nat) : (t.ctx k).migrating = (s.ctx k).migrating := congrArg (·.1.migrating) (frame_of_view h k)
theorem ctxCores_of_view (k : Nat) : t.ctxCores k = s.ctxCores k := by
  simp only [State.ctxCores, State.coresOf, parts_of_view h]

end

section
variable {s t : State} {key : Nat} {F : Context × Bool → Context × Bool} (h : t.view = editView s.view key F)
include h

theorem parts_of_edit : t.parts = s.parts := congrArg (·.2.1) h
theorem asked_of_edit (f : Nat) : (t.fnOf f).asked = (s.fnOf f).asked := congrFun (congrArg (·.1.2) h) f
theorem checks_of_edit : t.mgmt.checks = s.mgmt.checks := congrArg (·.2.2.1.checks) h

theorem isSome_of_edit (k : Nat) : (SMap.find? t.ctxs k).isSome = (SMap.find? s.ctxs k).isSome := by
  have hk : t.ctxView k = if k = key then (s.ctxView key).map F else s.ctxView k := congrArg (·.2.2.2 k) h
  have hs : (t.ctxView k).isSome = (s.ctxView k).isSome := by
    rw [hk]
    split
    · next he => simp [he]
    · rfl
  simpa [State.ctxView] using hs

theorem frame_of_edit_ne {k : Nat} (hne : k ≠ key) : (t.ctx k).frame = (s.ctx k).frame :=
  frame_of_ctxView ((congrArg (·.2.2.2 k) h).trans (if_neg hne))

theorem frame_of_edit_self (hs : (SMap.find? s.ctxs key).isSome = true) : (t.ctx key).frame = F (s.ctx key).frame := by
  obtain ⟨c, hc⟩ := Option.isSome_iff_exists.1 hs
  have hk : t.ctxView key = (s.ctxView key).map F := (congrArg (·.2.2.2 key) h).trans (if_pos rfl)
  rw [State.ctxView, State.ctxView, hc, Option.map_some, Option.map_some] at hk
  obtain ⟨c', hc', hF⟩ := Option.map_eq_some_iff.1 hk
  rw [State.ctx_of_find? hc, State.ctx_of_find? hc', hF]

end

theorem editView_editView (v) (k : Nat) (F G : Context × Bool → Context × Bool) : editView (editView v k F) k G = editView v k (G ∘ F) := by
  simp only [editView, if_true, Option.map_map]
  congr 3
  funext j
  split <;> simp [*]

/-! ## Updates of the state -/

theorem asked_of_host {s t : State} (h : t.host = s.host) : (fun f => (t.fnOf f).asked) = fun f => (s.fnOf f).asked := by
  funext f
  rw [State.fnOf, h, State.fnOf]

/-- An update of a context that its frame shows. -/
theorem view_updCtx {s : State} {k : Nat} {f : Context → Context} {F : Context × Bool → Context × Bool} (hF : ∀ c, (f c).frame = F c.frame) :
    (s.updCtx k f).view = editView s.view k F := by
  have hctx : (s.updCtx k f).ctxView = fun j => if j = k then (s.ctxView k).map F else s.ctxView j := by
    funext j
    unfold State.updCtx
    cases hc : SMap.find? s.ctxs k with
    | none =>
      by_cases hj : j = k
      · subst hj
        simp [State.ctxView, hc]
      · simp [State.ctxView, hj]
    | some c =>
      by_cases hj : j = k
      · subst hj
        simp [State.ctxView, hc, hF]
      · simp [State.ctxView, SMap.find?_set_ne _ _ _ _ hj, hj]
  have hhost : (s.updCtx k f).host = s.host := by
    unfold State.updCtx
    split <;> rfl
  rw [State.view, hctx, asked_of_host hhost]
  simp [editView, State.view]

theorem editView_id (v) (k : Nat) : editView v k id = v := by
  simp only [editView, Option.map_id, id]
  congr 3
  funext j
  split <;> simp [*]

/-- An update of a context that its frame does not show. -/
theorem view_updCtx_of {s : State} {k : Nat} {f : Context → Context} (hf : ∀ c, (f c).frame = c.frame) : (s.updCtx k f).view = s.view :=
  (view_updCtx (F := id) hf).trans (editView_id ..)

theorem view_of_fields {s t : State} (hcyc : t.cyc = s.cyc) (hparts : t.parts = s.parts) (hmgmt : t.mgmt = s.mgmt) (hctxs : t.ctxs = s.ctxs)
    (hhost : t.host = s.host) : t.view = s.view := by
  have hctx : t.ctxView = s.ctxView := by
    funext k
    simp only [State.ctxView, hctxs]
  simp only [State.view, hcyc, hparts, hmgmt, hctx, asked_of_host hhost]

/-- An update of every context that no frame shows. -/
theorem view_mapCtxs {s t : State} (f : Nat → Context → Context) (hf : ∀ k c, (f k c).frame = c.frame) (hcyc : t.cyc = s.cyc)
    (hparts : t.parts = s.parts) (hmgmt : t.mgmt = s.mgmt) (hctxs : t.ctxs = s.ctxs.map fun p => (p.1, f p.1 p.2)) (hhost : t.host = s.host) :
    t.view = s.view := by
  have hctx : t.ctxView = s.ctxView := by
    funext k
    rw [State.ctxView, hctxs, SMap.find?_map, Option.map_map]
    exact congrArg (fun g => (SMap.find? s.ctxs k).map g) (funext (hf k))
  simp only [State.view, hcyc, hparts, hmgmt, hctx, asked_of_host hhost]

theorem view_ite {s a b : State} {p : Prop} [Decidable p] (ha : a.view = s.view) (hb : b.view = s.view) :
    (if p then a else b).view = s.view := by
  split <;> assumption

@[simp] theorem view_updTask (s : State) (n sl : Nat) (f : Task → Task) : (s.updTask n sl f).view = s.view := by
  unfold State.updTask
  split <;> rfl

@[simp] theorem view_bill (s : State) (k : Nat) (f : Counters → Counters) : (s.bill k f).view = s.view := view_updCtx_of fun _ => rfl
@[simp] theorem view_billWalk (s : State) (k : Nat) : (s.billWalk k).view = s.view :=
  (view_of_fields rfl rfl rfl rfl rfl).trans (view_bill s k fun c => { c with dramr := c.dramr + BitVec.ofNat 64 (Config.walkBytes s.fresh) })
@[simp] theorem view_billRead (s : State) (k n : Nat) : (s.billRead k n).view = s.view := view_bill ..
@[simp] theorem view_billWrite (s : State) (k n : Nat) : (s.billWrite k n).view = s.view := view_bill ..

/-! ## Writes -/

@[simp] theorem view_setMem (s : State) (c : Option Nat) (m : Mem) : (s.setMem c m).view = s.view := by cases c <;> rfl
@[simp] theorem view_setPoison (s : State) (c : Option Nat) (p : NSet) : (s.setPoison c p).view = s.view := by cases c <;> rfl
@[simp] theorem view_storeBytes (s : State) (p : WPiece) : (s.storeBytes p).view = s.view := view_setMem ..
@[simp] theorem view_clearPiece (ps : List WPiece) (s : State) (p : WPiece) : (s.clearPiece ps p).view = s.view := by
  unfold State.clearPiece
  split
  · rfl
  · exact view_setPoison ..
@[simp] theorem view_markPiece (s : State) (p : WPiece) : (s.markPiece p).view = s.view := view_setPoison ..
@[simp] theorem view_noteText (s : State) (ps : List WPiece) : (s.noteText ps).view = s.view := by
  unfold State.noteText
  split <;> rfl

theorem view_markDirty (s : State) (k : Nat) (ps : List WPiece) : (s.markDirty k ps).view = s.view := by
  refine view_updCtx_of fun c => ?_
  simp only [Context.frame, List.map_map]
  congr 2
  refine List.map_congr_left fun p _ => ?_
  simp only [Function.comp_apply]
  split <;> rfl

theorem view_writePieces (s : State) (ps bad : List WPiece) : (s.writePieces ps bad).view = s.view :=
  (foldl_keeps State.view _ view_markPiece _ _).trans <| (foldl_keeps State.view _ (view_clearPiece ps) _ _).trans <|
    (foldl_keeps State.view _ view_storeBytes _ _).trans (view_noteText s ps)

@[simp] theorem view_perform (s : State) (k : Nat) (ps bad : List WPiece) : (s.perform k ps bad).view = s.view :=
  (view_writePieces _ ps bad).trans (view_markDirty s k ps)

@[simp] theorem view_writeVirt (s : State) (k va : Nat) (bs : List Byte) : (s.writeVirt k va bs).view = s.view := by
  unfold State.writeVirt
  split
  · rfl
  · exact (view_writePieces ..).trans (view_markDirty ..)

/-! ## Events (R279, R403) -/

theorem view_updFn {s : State} {fn : Nat} {f : HostFn → HostFn} (hf : ∀ h, (f h).asked = h.asked) : (s.updFn fn f).view = s.view := by
  have hq : (fun g => ((s.updFn fn f).fnOf g).asked) = fun g => (s.fnOf g).asked := by
    funext g
    by_cases hg : g = fn
    · subst hg
      rw [CommandQueue.fnOf_updFn_self, hf]
    · rw [CommandQueue.fnOf_updFn_ne s f hg]
  rw [State.view, hq]
  rfl

@[simp] theorem view_complete (s : State) (fn : Nat) (tag : BitVec 32) (sts v : Nat) : (s.complete fn tag sts v).view = s.view :=
  view_updFn fun _ => rfl
@[simp] theorem view_hostEvent (s : State) (fn code part ofFn reason : Nat) : (s.hostEvent fn code part ofFn reason).view = s.view :=
  view_updFn fun _ => by split <;> rfl
@[simp] theorem view_tellPhase (s : State) (key : Nat) : (s.tellPhase key).view = s.view :=
  (view_of_fields rfl rfl rfl rfl rfl).trans (view_hostEvent s 0 (Config.freeValue 16 s.fresh).toNat (key / 128) (key % 128)
    (Config.freeValue 8 (s.fresh + 1)).toNat)
@[simp] theorem view_writeWord (s : State) (key va n v : Nat) : (s.writeWord key va n v).view = s.view := by
  unfold State.writeWord
  split <;> simp
@[simp] theorem view_loseEvent (s : State) (key code : Nat) (told : Bool) : (s.loseEvent key code told).view = s.view := by
  simp only [State.loseEvent]
  split <;> split <;> simp [State.tellHost]
@[simp] theorem view_event (s : State) (key code detail : Nat) : (s.event key code detail).view = s.view := by
  simp only [State.event]
  split
  · rfl
  · split
    · simp
    · split
      · simp
      · split <;> simp only [view_writeWord, view_loseEvent]

/-! ## Messages (R320) -/

theorem view_launchPkt (s : State) (c : Context) (part dev : Nat) (p : Pkt) : (s.launchPkt c part dev p).2.view = s.view := by
  simp only [State.launchPkt]
  split
  · rfl
  · split
    · rfl
    · split
      · rfl
      · exact view_ite rfl rfl

@[simp] theorem view_sendOff (s : State) (key dev : Nat) (p : Pkt) : (s.sendOff key dev p).view = s.view := by
  simp only [State.sendOff, State.send]
  split
  · exact view_launchPkt ..
  · exact (view_bill ..).trans (view_launchPkt ..)
@[simp] theorem view_reply (s : State) (key : Nat) (q p : Pkt) : (s.reply key q p).view = s.view := view_sendOff ..
@[simp] theorem view_sendBook (s : State) (key dev sub : Nat) (m : BookMsg) : (s.sendBook key dev sub m).view = s.view := view_sendOff ..

/-! ## Bookings (R215, R269) -/

@[simp] theorem view_sendReleases (s : State) (b : Booking) (m : Nat) : (s.sendReleases b m).view = s.view := by
  refine foldl_keeps State.view _ (fun t p => ?_) _ _
  dsimp only
  split
  · exact view_sendBook ..
  · rfl

@[simp] theorem view_cancelTasks (s : State) (b : Booking) (m : Nat) : (s.cancelTasks b m).view = s.view := by
  simp only [State.cancelTasks]
  refine (view_updCtx_of fun c => ?_).trans (view_of_fields rfl rfl rfl rfl rfl)
  simp [Context.frame]

@[simp] theorem view_unitDone (s : State) (uid : Nat) : (s.unitDone uid).view = s.view := by
  unfold State.unitDone
  split <;> rfl

@[simp] theorem view_finalize (s : State) (h : BitVec 32) (st : BState) : (s.finalize h st).view = s.view := by
  unfold State.finalize
  split
  · rfl
  · exact (view_unitDone ..).trans (view_of_fields rfl rfl rfl rfl rfl)

@[simp] theorem view_cancelBooking (s : State) (h : BitVec 32) (st : BState) : (s.cancelBooking h st).view = s.view := by
  unfold State.cancelBooking
  split
  · rfl
  · next b _ =>
    split
    · rfl
    · have hret (n : Nat) (u : State) : ((List.range n).foldl (fun s n => s.returnFrom h n (s.slot + 1)) u).view = u.view :=
        foldl_keeps State.view (fun s n => State.returnFrom s h n (s.slot + 1)) (fun _ _ => rfl) _ _
      have hdrop (u : State) (f : Booking → Booking) : ((u.dropRequests h).updBooking h f).view = u.view := rfl
      exact (view_finalize ..).trans ((hdrop ..).trans ((hret ..).trans ((view_sendReleases ..).trans (view_cancelTasks ..))))

@[simp] theorem view_cancelAll (s : State) (key : Nat) : (s.cancelAll key).view = s.view :=
  foldl_keeps State.view _ (fun _ _ => view_cancelBooking ..) _ _

/-! ## Starting a task (R287, R306) -/

@[simp] theorem view_repend (s : State) (a : Nat) (b : Option Nat) : (s.repend a b).view = s.view := by
  refine view_mapCtxs (fun _ c => { c with evMap := c.evMap.map fun q => if q.pending = some a then { q with pending := b } else q })
    (fun _ c => ?_) rfl rfl rfl rfl rfl
  simp [Context.frame]

@[simp] theorem view_leasePending (s : State) (n sl : Nat) (k : Task) (va r : Nat) : (s.leasePending n sl k va r).view = s.view := by
  simp only [State.leasePending]
  split
  · split <;> exact view_event ..
  · exact view_event ..

@[simp] theorem view_tryLease (s : State) (n sl start : Nat) : (s.tryLease n sl start).view = s.view := by
  unfold State.tryLease
  split
  · rfl
  · dsimp only
    split
    · exact view_billWalk ..
    · split
      · exact view_ite (view_billWalk ..) ((view_leasePending ..).trans (view_billWalk ..))
      · exact view_ite (view_billWalk ..) (view_billWalk ..)

@[simp] theorem view_dispatch (s : State) (n : Nat) (d : DqEntry) : (s.dispatch n d).view = s.view := by
  unfold State.dispatch
  split
  · rfl
  · exact (view_tryLease ..).trans ((view_repend ..).trans rfl)

@[simp] theorem view_launch (s : State) (key why : Nat) : (s.launch key why).view = s.view := by
  unfold State.launch
  split
  · dsimp only
    split
    · rfl
    · exact (view_updTask ..).trans (view_dispatch ..)
  · rfl

/-! ## The loss of a context (R371, R394) -/

/-- What the discarding of a context's work shows of it. -/
def discarded (x : Context × Bool) : Context × Bool := ({ x.1 with kept := [], keptFlights := [] }, x.2)

theorem view_discardWork (s : State) (key : Nat) : (s.discardWork key).view = editView s.view key discarded := by
  unfold State.discardWork
  dsimp only
  refine (view_updCtx (F := discarded) fun _ => rfl).trans (congrArg (editView · key discarded) ?_)
  exact (view_of_fields rfl rfl rfl rfl rfl).trans (foldl_keeps State.view _ (fun _ _ => view_repend ..) _ _)

/-- What the loss of a context shows of it. -/
def lost (reason : Nat) (here restart : Bool) (x : Context × Bool) : Context × Bool :=
  ({ x.1 with
      kept := [], keptFlights := [], lostReason := reason
      phase := if !restart then .lost else if here then .running else .saved 0
      startAs := if !restart || here then none else some reason }, x.2)

/-- The state in which the loss of a context is told, before its phase is set. -/
def State.lossTold (s : State) (key reason : Nat) : State :=
  let t := (s.cancelAll key).discardWork key
  let u := { t with hts := t.hts.map fun (p : Nat × Hts) => (p.1, p.2.dropPackets key) }
  ((u.updCtx key fun c => { c with lostReason := reason }).event key cContextLost (detailAt 128 reason)).hostEvent
    (key % 128) cContextLost (key / 128) (key % 128) reason

theorem view_lossTold (s : State) (key reason : Nat) :
    (s.lossTold key reason).view = editView s.view key fun x => ({ (discarded x).1 with lostReason := reason }, x.2) := by
  have hset := view_discardWork (s.cancelAll key) key
  rw [view_cancelAll] at hset
  unfold State.lossTold
  refine (view_hostEvent ..).trans <| (view_event ..).trans <|
    (view_updCtx (F := fun x => ({ x.1 with lostReason := reason }, x.2)) fun _ => rfl).trans ?_
  exact (congrArg (editView · key _) hset).trans (editView_editView ..)

section
variable (s : State) (key reason : Nat)

theorem loseContext_lost (here : Bool) :
    s.loseContext key reason here false = (s.lossTold key reason).updCtx key fun c => { c with phase := .lost, startAs := none } := rfl

theorem loseContext_running : s.loseContext key reason true true =
    ((s.lossTold key reason).updCtx key fun c => { c with phase := .running, startAs := none }).launch key reason := by
  simp only [State.loseContext, State.lossTold, Bool.not_true, Bool.false_eq_true, if_false, if_true]

theorem loseContext_saved : s.loseContext key reason false true =
    (s.lossTold key reason).updCtx key fun c => { c with phase := .saved 0, startAs := some reason } := rfl

theorem view_loseContext (here restart : Bool) :
    (s.loseContext key reason here restart).view = editView s.view key (lost reason here restart) := by
  have hset : ∀ f G, (∀ c : Context, (f c).frame = G c.frame) → ((s.lossTold key reason).updCtx key f).view =
      editView s.view key (G ∘ fun x => ({ (discarded x).1 with lostReason := reason }, x.2)) :=
    fun f G hG => by rw [view_updCtx hG, view_lossTold, editView_editView]
  cases restart with
  | false =>
    rw [loseContext_lost]
    exact hset _ (fun x => ({ x.1 with phase := .lost, startAs := none }, x.2)) fun _ => rfl
  | true => cases here with
    | true =>
      rw [loseContext_running, view_launch]
      exact hset _ (fun x => ({ x.1 with phase := .running, startAs := none }, x.2)) fun _ => rfl
    | false =>
      rw [loseContext_saved]
      exact hset _ (fun x => ({ x.1 with phase := .saved 0, startAs := some reason }, x.2)) fun _ => rfl

end

end Sys2Proof.Machine
end

