-- ==== Sys2Proof/Proofs/Losses.lean ====
section
/-!
Contexts that the part loses, alone and one after another, and what an event leaves of a core.
-/
namespace Sys2Proof.Machine

/-! ## Entries of a table -/

theorem SMap.isSome_find?_of_mem {α : Type} {m : SMap α} {p : Nat × α} (h : p ∈ m) : (SMap.find? m p.1).isSome = true := by
  induction m with
  | nil => cases h
  | cons q t ih =>
    simp only [SMap.find?]
    split
    · rfl
    · next hne =>
      rcases List.mem_cons.1 h with rfl | ht
      · exact absurd rfl hne
      · exact ih ht

theorem SMap.mem_keys_of_isSome {α : Type} {m : SMap α} {k : Nat} (h : (SMap.find? m k).isSome = true) : k ∈ m.map (·.1) := by
  induction m with
  | nil => cases h
  | cons q t ih =>
    simp only [SMap.find?] at h
    split at h
    · next he => exact List.mem_map.2 ⟨q, List.mem_cons_self, he⟩
    · exact List.mem_cons_of_mem _ (ih h)

/-- A table with rising keys holds each of its entries. -/
theorem SMap.find?_of_mem {α : Type} {m : SMap α} (hm : m.Pairwise fun a b => a.1 < b.1) {k : Nat} {v : α} (h : (k, v) ∈ m) :
    SMap.find? m k = some v := by
  induction m with
  | nil => cases h
  | cons q t ih =>
    obtain ⟨hq, ht⟩ := List.pairwise_cons.1 hm
    rcases List.mem_cons.1 h with rfl | hk
    · simp [SMap.find?]
    · simp only [SMap.find?, if_neg (Nat.ne_of_lt (hq _ hk)), ih ht hk]

/-! ## A core after an event -/

theorem core_bill (s : State) (key : Nat) (f : Counters → Counters) (c : Nat) : (s.bill key f).core c = s.core c := by
  rw [State.bill, updCtx_shape]
  rfl

/-- A core but for its record of text. -/
def Core.textless (c : Core) : Core := { c with stale := [] }

theorem core_writeWord (s : State) (key va n v c : Nat) : ((s.writeWord key va n v).core c).textless = (s.core c).textless := by
  unfold State.writeWord
  split
  · next pa _ _ =>
    have hps : ∀ p ∈ [((⟨none, pa⟩ : Loc), n, v)], p.1.core = none := fun p hp => by rw [List.mem_singleton.1 hp]
    obtain ⟨dp, dt, reqs, h⟩ := perform_dram hps (s.bill key fun c => { c with dramw := c.dramw + BitVec.ofNat 64 n }) key
    obtain ⟨st, hst⟩ := core_noteText_stale (s.bill key fun c => { c with dramw := c.dramw + BitVec.ofNat 64 n }) [(⟨none, pa⟩, n, v)] c
    rw [core_bill] at hst
    have htextless := congrArg Core.textless hst
    rw [h]
    exact htextless
  · rfl

theorem core_hostEvent (s : State) (fn code part ofFn reason c : Nat) : (s.hostEvent fn code part ofFn reason).core c = s.core c := rfl

theorem core_event (s : State) (key code detail c : Nat) : ((s.event key code detail).core c).textless = (s.core c).textless := by
  have hlose (told : Bool) : ((s.loseEvent key code told).core c).textless = (s.core c).textless := by
    simp only [State.loseEvent]
    split <;> split <;> simp [State.tellHost, core_hostEvent, core_writeWord]
  simp only [State.event]
  split
  · rfl
  · split
    · exact hlose true
    · split
      · exact hlose false
      · split
        · exact hlose true
        · simp only [core_writeWord]

theorem core_poison_event (s : State) (key code detail c : Nat) : ((s.event key code detail).core c).poison = (s.core c).poison := by
  have htextless := congrArg Core.poison (core_event s key code detail c)
  exact htextless

theorem core_slots_event (s : State) (key code detail c : Nat) : ((s.event key code detail).core c).slots = (s.core c).slots := by
  have htextless := congrArg Core.slots (core_event s key code detail c)
  exact htextless

/-! ## Lost contexts (R371, R394, R408) -/

theorem view_abortStopper (s : State) (key : Nat) : ∃ F, (s.abortStopper key).view = editView s.view key F ∧
    ∀ x, ∃ st, F x = ({ x.1 with stopper := st }, x.2) := by
  unfold State.abortStopper
  split
  · exact ⟨id, (editView_id ..).symm, fun x => ⟨x.1.stopper, rfl⟩⟩
  · exact ⟨fun x => ({ x.1 with stopper := none }, x.2), (view_complete ..).trans (view_updCtx fun _ => rfl), fun _ => ⟨none, rfl⟩⟩

section
variable (s : State) (reason : Nat) (restart : Bool) (key : Nat)

/-- The phase of a context that is stopped and lost. -/
def State.lossPhase (s : State) (restart : Bool) (key : Nat) : CtxPhase :=
  if !(restart && (s.ctx key).image.isSome) then .lost else if (s.ctx key).present then .running else .saved 0

theorem lossPhase_lost : s.lossPhase false key = .lost := by simp [State.lossPhase]

theorem view_stopLost : ∃ F, (s.stopLost reason restart key).view = editView s.view key F ∧
    ∀ x, (F x).1.lostReason = reason ∧ (F x).1.phase = s.lossPhase restart key := by
  obtain ⟨G, hG, -⟩ := view_abortStopper s key
  refine ⟨lost reason (s.ctx key).present (restart && (s.ctx key).image.isSome) ∘ G, ?_, fun x => ⟨rfl, rfl⟩⟩
  unfold State.stopLost
  rw [view_loseContext, hG, editView_editView]

theorem checks_stopLost : (s.stopLost reason restart key).mgmt.checks = s.mgmt.checks :=
  let ⟨_, h, _⟩ := view_stopLost s reason restart key
  checks_of_edit h

theorem isSome_stopLost (k : Nat) : (SMap.find? (s.stopLost reason restart key).ctxs k).isSome = (SMap.find? s.ctxs k).isSome :=
  let ⟨_, h, _⟩ := view_stopLost s reason restart key
  isSome_of_edit h k

/-- A context that is lost has the reason, and its phase. -/
theorem ctx_stopLost (h : (SMap.find? s.ctxs key).isSome = true) :
    ((s.stopLost reason restart key).ctx key).lostReason = reason ∧ ((s.stopLost reason restart key).ctx key).phase = s.lossPhase restart key := by
  obtain ⟨F, hv, hF⟩ := view_stopLost s reason restart key
  have hf := frame_of_edit_self hv h
  exact ⟨(congrArg (·.1.lostReason) hf).trans (hF _).1, (congrArg (·.1.phase) hf).trans (hF _).2⟩

theorem ctx_stopLost_lost (h : (SMap.find? s.ctxs key).isSome = true) :
    ((s.stopLost reason false key).ctx key).phase = .lost ∧ ((s.stopLost reason false key).ctx key).lostReason = reason := by
  obtain ⟨hr, hp⟩ := ctx_stopLost s reason false key h
  exact ⟨hp.trans (lossPhase_lost s key), hr⟩

theorem phase_of_frame {c d : Context} (h : c.frame = d.frame) : c.phase = d.phase := congrArg (·.1.phase) h
theorem lostReason_of_frame {c d : Context} (h : c.frame = d.frame) : c.lostReason = d.lostReason := congrArg (·.1.lostReason) h

/-- The context with a key is there, and lost for a reason. -/
def State.lostFor (s : State) (reason k : Nat) : Prop :=
  (SMap.find? s.ctxs k).isSome = true ∧ (s.ctx k).phase = .lost ∧ (s.ctx k).lostReason = reason

/-- A lost context stays so while others are lost. -/
theorem lostFor_stopLost {k : Nat} (h : s.lostFor reason k) : (s.stopLost reason false key).lostFor reason k := by
  obtain ⟨hs, hp, hr⟩ := h
  refine ⟨(isSome_stopLost ..).trans hs, ?_⟩
  by_cases hk : k = key
  · subst hk
    exact ctx_stopLost_lost s reason k hs
  · obtain ⟨F, hv, _⟩ := view_stopLost s reason false key
    have hf := frame_of_edit_ne hv hk
    exact ⟨(phase_of_frame hf).trans hp, (lostReason_of_frame hf).trans hr⟩

theorem lostFor_stopAll (keys : List Nat) {k : Nat} (h : s.lostFor reason k) :
    (keys.foldl (fun s k => s.stopLost reason false k) s).lostFor reason k := by
  induction keys generalizing s with
  | nil => exact h
  | cons j js ih =>
    rw [List.foldl_cons]
    exact ih _ (lostFor_stopLost s reason j h)

theorem lostFor_stopAll_of_mem {keys : List Nat} {k : Nat} (hk : k ∈ keys) (hs : (SMap.find? s.ctxs k).isSome = true) :
    (keys.foldl (fun s k => s.stopLost reason false k) s).lostFor reason k := by
  induction keys generalizing s with
  | nil => cases hk
  | cons j js ih =>
    rw [List.foldl_cons]
    rcases List.mem_cons.1 hk with rfl | hj
    · exact lostFor_stopAll _ reason js ⟨(isSome_stopLost ..).trans hs, ctx_stopLost_lost s reason k hs⟩
    · exact ih _ hj ((isSome_stopLost ..).trans hs)

/-- Every context of a part is lost when all are stopped. -/
theorem lostFor_stopEvery {k : Nat} (hs : (SMap.find? s.ctxs k).isSome = true) :
    ((s.ctxs.map (·.1)).foldl (fun s k => s.stopLost reason false k) s).lostFor reason k :=
  lostFor_stopAll_of_mem s reason (SMap.mem_keys_of_isSome hs) hs

theorem checks_stopAll (keys : List Nat) : (keys.foldl (fun s k => s.stopLost reason restart k) s).mgmt.checks = s.mgmt.checks :=
  foldl_keeps (fun s : State => s.mgmt.checks) _ (fun s k => checks_stopLost s reason restart k) _ _

end

end Sys2Proof.Machine
end

