-- ==== Sys2Proof/Proofs/Energy.lean ====
section
/-!
The end of a millisecond (R383): the estimates, their shares, and what each context is billed.
-/
namespace Sys2Proof.Machine

/-! ## Sums over a table -/

theorem foldl_add_snd (l : List (Nat × Nat)) : l.foldl (fun n e => n + e.2) 0 = (l.map (·.2)).sum := by
  rw [List.sum_eq_foldl, List.foldl_map]

/-- A list whose values depend on the place alone. -/
theorem eq_map_range {α : Type} {l : List α} {n : Nat} (f : Nat → α) (hn : l.length = n) (h : ∀ i (hi : i < l.length), l[i] = f i) :
    l = (List.range n).map f :=
  List.ext_getElem (by simpa using hn) fun i hi _ => by simpa using h i hi

/-! ## Billing (R382) -/

/-- What one context is billed of energy. -/
def State.billEnergy (s : State) (e : Nat × Nat) : State := s.bill e.1 fun c => { c with energy := c.energy + BitVec.ofNat 64 e.2 }

theorem find?_bill_ne (s : State) {k j : Nat} (f : Counters → Counters) (h : j ≠ k) :
    SMap.find? (s.bill k f).ctxs j = SMap.find? s.ctxs j := by
  unfold State.bill State.updCtx
  split
  · rfl
  · exact SMap.find?_set_ne _ _ _ _ h

theorem bill_shape (s : State) (k : Nat) (f : Counters → Counters) : s.bill k f = { s with ctxs := (s.bill k f).ctxs } := updCtx_shape ..

theorem billAll_shape (l : List (Nat × Nat)) (s : State) : l.foldl State.billEnergy s = { s with ctxs := (l.foldl State.billEnergy s).ctxs } := by
  induction l generalizing s with
  | nil => rfl
  | cons e l ih =>
    rw [List.foldl_cons, ih, State.billEnergy, bill_shape]

theorem find?_billAll_of_not_mem {l : List (Nat × Nat)} {k : Nat} (hk : k ∉ l.map (·.1)) (s : State) :
    SMap.find? (l.foldl State.billEnergy s).ctxs k = SMap.find? s.ctxs k := by
  induction l generalizing s with
  | nil => rfl
  | cons e l ih =>
    rw [List.map_cons, List.mem_cons, not_or] at hk
    rw [List.foldl_cons, ih hk.2, State.billEnergy, find?_bill_ne _ _ hk.1]

/-- Each context of a table without repeated keys is billed its own entry. -/
theorem find?_billAll {l : List (Nat × Nat)} (hl : (l.map (·.1)).Nodup) {k n : Nat} (hm : (k, n) ∈ l) {s : State} {c : Context}
    (hc : SMap.find? s.ctxs k = some c) :
    SMap.find? (l.foldl State.billEnergy s).ctxs k =
      some { c with pending := { c.pending with energy := c.pending.energy + BitVec.ofNat 64 n } } := by
  induction l generalizing s with
  | nil => cases hm
  | cons e l ih =>
    obtain ⟨he, hl⟩ := List.nodup_cons.1 hl
    rw [List.foldl_cons]
    rcases List.mem_cons.1 hm with rfl | hm
    · rw [find?_billAll_of_not_mem he]
      exact State.find?_updCtx_self hc _
    · have hne : k ≠ e.1 := fun h => he (List.mem_map.2 ⟨_, hm, h⟩)
      exact ih hl hm ((find?_bill_ne s _ hne).trans hc)

/-! ## The end of a millisecond -/

section
variable (s : State)

/-- The estimate of the `i`-th context. -/
def State.estimate (i : Nat) : Nat := (Config.freeValue 32 (s.fresh + i)).toNat

theorem estimates_sum : s.estimates.foldl (fun n e => n + e.2) 0 = ((List.range s.ctxs.length).map s.estimate).sum := by
  rw [foldl_add_snd]
  exact congrArg List.sum (eq_map_range s.estimate (by simp [State.estimates]) fun i hi => by simp [State.estimates, State.estimate])

/-- The shares of an energy `m`, whose estimates sum to `sum`. -/
def State.shares (m sum : Nat) : List (Nat × Nat) := s.estimates.map fun e => (e.1, e.2 * m / sum)

theorem shares_sum (m sum : Nat) : (s.shares m sum).foldl (fun n e => n + e.2) 0 =
    ((List.range s.ctxs.length).map fun i => s.estimate i * m / sum).sum := by
  rw [foldl_add_snd]
  exact congrArg List.sum (eq_map_range (fun i => s.estimate i * m / sum) (by simp [State.shares, State.estimates]) fun i hi => by
    simp [State.shares, State.estimates, State.estimate])

theorem shares_keys (m sum : Nat) : (s.shares m sum).map (·.1) = s.ctxs.map (·.1) := by
  refine List.ext_getElem (by simp [State.shares, State.estimates]) fun i h h' => ?_
  simp [State.shares, State.estimates]

theorem mem_shares {i key : Nat} {c : Context} (h : s.ctxs[i]? = some (key, c)) (m sum : Nat) :
    (key, s.estimate i * m / sum) ∈ s.shares m sum := by
  refine List.mem_map.2 ⟨(key, s.estimate i), List.mem_of_getElem? (i := i) ?_, rfl⟩
  rw [State.estimates, List.getElem?_mapIdx, h]
  rfl

/-- The state at the end of the millisecond, before the energy is shared out. -/
theorem execEnergyReconcile_due (hr : s.mgmt.power = .ready) (rail platform : Nat) (hd : s.energyDue = true) :
    let u := s.notePower rail
    let m := rail - platform + s.mgmt.remainder
    let sum := ((List.range s.ctxs.length).map s.estimate).sum
    execEnergyReconcile rail platform s = .next (if sum = 0 then { u with fresh := u.fresh + s.estimates.length } else
      let t := (s.shares m sum).foldl State.billEnergy u
      { t with
        fresh := t.fresh + s.estimates.length
        mgmt := { t.mgmt with remainder := m - ((List.range s.ctxs.length).map fun i => s.estimate i * m / sum).sum } }) := by
  intro u m sum
  have hsum : (s.notePower rail).estimates.foldl (fun n e => n + e.2) 0 = sum := estimates_sum s
  have hshares := shares_sum s m sum
  simp only [execEnergyReconcile, ready, hr, if_true, hd, Bool.not_true, Bool.false_eq_true, if_false, hsum]
  split
  · rfl
  · rw [← hshares]
    rfl

/-- What a millisecond's end leaves alone, and the runs of milliseconds above and below the cap (R407). -/
theorem execEnergyReconcile_runs (hr : s.mgmt.power = .ready) (rail platform : Nat) (hd : s.energyDue = true) :
    ∃ t, execEnergyReconcile rail platform s = .next t ∧ t.cores = s.cores ∧ t.dram = s.dram ∧
      t.mgmt.overMs = (s.notePower rail).mgmt.overMs ∧ t.mgmt.underMs = (s.notePower rail).mgmt.underMs := by
  refine ⟨_, execEnergyReconcile_due s hr rail platform hd, ?_⟩
  split
  · exact ⟨rfl, rfl, rfl, rfl⟩
  · dsimp only
    rw [billAll_shape]
    exact ⟨rfl, rfl, rfl, rfl⟩

/-- What the contexts are billed, and what is left over. -/
theorem execEnergyReconcile_shares (hr : s.mgmt.power = .ready) (rail platform : Nat) (hd : s.energyDue = true)
    (hctxs : s.ctxs.Pairwise fun a b => a.1 < b.1) :
    let m := rail - platform + s.mgmt.remainder
    let sum := ((List.range s.ctxs.length).map s.estimate).sum
    sum ≠ 0 → ∀ t, execEnergyReconcile rail platform s = .next t →
      t.mgmt.remainder = m - ((List.range s.ctxs.length).map fun i => s.estimate i * m / sum).sum ∧
      ∀ i key c, s.ctxs[i]? = some (key, c) → (t.ctx key).pending.energy = c.pending.energy + BitVec.ofNat 64 (s.estimate i * m / sum) := by
  intro m sum hsum t ht
  rw [execEnergyReconcile_due s hr rail platform hd, if_neg hsum] at ht
  obtain rfl := Host.Outcome.next.inj ht
  refine ⟨rfl, fun i key c hi => ?_⟩
  have hkeys : ((s.shares m sum).map (·.1)).Nodup := by
    rw [shares_keys]
    exact (List.pairwise_map.2 hctxs).imp fun h => Nat.ne_of_lt h
  have hfind : SMap.find? (s.notePower rail).ctxs key = some c := SMap.find?_of_mem hctxs (List.mem_of_getElem? hi)
  exact congrArg (fun c : Context => c.pending.energy) (State.ctx_of_find? (find?_billAll hkeys (mem_shares s hi m sum) hfind))

end

end Sys2Proof.Machine
end

