-- ==== Sys2Proof/Proofs/Frames.lean ====
section
/-!
The retirement of a frame (R309, R315, R316): the bytes of a frame that is copied and zeroed, the entries that are mapped elsewhere, and
what the leases that are made again leave alone.
-/
namespace Sys2Proof.Machine

/-! ## Bytes kept and cleared by address -/

theorem Mem.get_filter_addr (m : Mem) (p : Nat → Bool) (a : Nat) : Mem.get (m.filter fun c => p c.1) a = if p a then Mem.get m a else 0 := by
  induction m with
  | nil => simp
  | cons c t ih =>
    obtain ⟨j, v⟩ := c
    by_cases hj : j = a
    · subst hj
      by_cases hp : p j <;> simp [Mem.get, hp, ih]
    · by_cases hp : p j <;> simp [Mem.get, hp, hj, ih]

theorem Mem.get_clear (m : Mem) (lo n a : Nat) : Mem.get (Mem.clear m lo n) a = if a < lo ∨ lo + n ≤ a then Mem.get m a else 0 := by
  rw [Mem.clear, Mem.get_filter_addr m fun a => decide (a < lo ∨ lo + n ≤ a)]
  simp only [decide_eq_true_eq]

/-- Bytes moved from `lo` on to `base` on: a byte that is not zero is found at its new place, where any other keeps what was there. -/
theorem Mem.get_foldl_move {l : Mem} {k lo : Nat} (hl : Mem.wfFrom k l = true) (hlo : ∀ c ∈ l, lo ≤ c.1) (base i : Nat) {m : Mem}
    (hm : m.wf = true) : Mem.get (l.foldl (fun m c => Mem.set m (c.1 - lo + base) c.2) m) (base + i) =
      if Mem.get l (lo + i) = 0 then Mem.get m (base + i) else Mem.get l (lo + i) := by
  induction l generalizing k m with
  | nil => simp
  | cons c t ih =>
    obtain ⟨j, w⟩ := c
    have hj : lo ≤ j := hlo _ List.mem_cons_self
    simp only [Mem.wfFrom, Bool.and_eq_true, decide_eq_true_eq] at hl
    obtain ⟨⟨-, hw⟩, ht⟩ := hl
    rw [List.foldl_cons, ih ht (fun c hc => hlo c (List.mem_cons_of_mem _ hc)) (Mem.wf_set hm _ _), Mem.get]
    by_cases hi : j = lo + i
    · have hrest : Mem.get t (lo + i) = 0 := Mem.get_of_wfFrom ht (by omega)
      have hplace : j - lo + base = base + i := by omega
      rw [if_pos hrest, if_pos hi, if_neg hw, hplace]
      exact Mem.get_set_self hm ..
    · rw [if_neg hi, Mem.get_set_ne hm _ _ _ (by omega : base + i ≠ j - lo + base)]

/-! ## A frame copied to another and zeroed -/

section
variable (s : State) {a b : Nat}

/-- The part with frame `a` moved to frame `b`. -/
def State.moveFrame (s : State) (a b : Nat) : State := (((s.zeroFrame b).copyFrame a b).remapFrame a b).zeroFrame a

theorem get_moveFrame_old {i : Nat} (hi : i < 2097152) : Mem.get (s.moveFrame a b).dram (a * 2097152 + i) = 0 := by
  have hin : ¬ (a * 2097152 + i < a * 2097152 ∨ a * 2097152 + 2097152 ≤ a * 2097152 + i) := by omega
  exact (Mem.get_clear ..).trans (if_neg hin)

/-- An address lies in the frame `a` of `n` bytes. -/
def inFrame (n a x : Nat) : Bool := decide (a * n ≤ x) && decide (x < (a + 1) * n)

theorem inFrame_iff (a x : Nat) : inFrame 2097152 a x = true ↔ a * 2097152 ≤ x ∧ x < a * 2097152 + 2097152 := by
  simp only [inFrame, Bool.and_eq_true, decide_eq_true_eq, Nat.add_mul, Nat.one_mul]

/-- The cells of a memory that lie in frame `a`. -/
def Mem.frameCells (m : Mem) (a : Nat) : Mem := m.filter fun c => inFrame 2097152 a c.1

theorem Mem.get_frameCells (m : Mem) {i : Nat} (hi : i < 2097152) : Mem.get (m.frameCells a) (a * 2097152 + i) = Mem.get m (a * 2097152 + i) :=
  (Mem.get_filter_addr m (inFrame 2097152 a) _).trans (if_pos ((inFrame_iff ..).2 (by omega)))

theorem Mem.le_of_mem_frameCells {m : Mem} {c : Host.Cell} (hc : c ∈ m.frameCells a) : a * 2097152 ≤ c.1 :=
  ((inFrame_iff ..).1 (List.mem_filter.1 hc).2).1

theorem dram_copyFrame : (s.copyFrame a b).dram = (s.dram.frameCells a).foldl (fun m c => Mem.set m (c.1 - a * 2097152 + b * 2097152) c.2)
    (Mem.clear s.dram (b * 2097152) 2097152) := by
  have hn : Config.frameBytes = 2097152 := rfl
  have hcopy : (s.copyFrame a b).dram = (s.dram.filter fun c => inFrame Config.frameBytes a c.1).foldl
      (fun m c => Mem.set m (c.1 - a * Config.frameBytes + b * Config.frameBytes) c.2) (Mem.clear s.dram (b * Config.frameBytes) Config.frameBytes) := rfl
  rw [hcopy, hn, Mem.frameCells]

theorem dram_zeroFrame : (s.zeroFrame a).dram = Mem.clear s.dram (a * 2097152) 2097152 := rfl

theorem dram_moveFrame : (s.moveFrame a b).dram = Mem.clear ((s.zeroFrame b).copyFrame a b).dram (a * 2097152) 2097152 := rfl

/-- An address of one frame lies outside another. -/
theorem outside_frame {a b i : Nat} (hne : a ≠ b) (hi : i < 2097152) :
    b * 2097152 + i < a * 2097152 ∨ a * 2097152 + 2097152 ≤ b * 2097152 + i := by
  rcases Nat.lt_or_gt_of_ne hne with h | h
  · right
    omega
  · left
    omega

theorem get_moveFrame_new (hne : a ≠ b) (hw : s.dram.wf = true) {i : Nat} (hi : i < 2097152) :
    Mem.get (s.moveFrame a b).dram (b * 2097152 + i) = Mem.get s.dram (a * 2097152 + i) := by
  have hout : b * 2097152 + i < a * 2097152 ∨ a * 2097152 + 2097152 ≤ b * 2097152 + i := outside_frame hne hi
  have hsrc : a * 2097152 + i < b * 2097152 ∨ b * 2097152 + 2097152 ≤ a * 2097152 + i := outside_frame hne.symm hi
  have hdst : ¬ (b * 2097152 + i < b * 2097152 ∨ b * 2097152 + 2097152 ≤ b * 2097152 + i) := by omega
  have hclear := Mem.wf_clear hw (b * 2097152) 2097152
  have hcells : Mem.wfFrom 0 ((Mem.clear s.dram (b * 2097152) 2097152).frameCells a) = true := Mem.wfFrom_filter hclear _
  rw [dram_moveFrame, dram_copyFrame, dram_zeroFrame, Mem.get_clear, if_pos hout,
    Mem.get_foldl_move hcells (fun c hc => Mem.le_of_mem_frameCells hc) _ _ (Mem.wf_clear hclear _ _), Mem.get_frameCells _ hi,
    Mem.get_clear s.dram, if_pos hsrc, Mem.get_clear _ (b * 2097152), if_neg hdst]
  split
  · next h => exact h.symm
  · rfl

end

/-! ## Leases made again (R306, R310) -/

@[simp] theorem view_setTask (s : State) (n sl : Nat) (k : Task) : (s.setTask n sl k).view = s.view := rfl

@[simp] theorem view_remakeLease (s : State) (n sl : Nat) : (s.remakeLease n sl).view = s.view := by
  unfold State.remakeLease
  split
  · rfl
  · dsimp only
    split
    · exact view_billWalk ..
    · split
      · exact (view_setTask ..).trans (view_billWalk ..)
      · split
        · exact view_ite (view_billWalk ..) ((view_leasePending ..).trans ((view_setTask ..).trans (view_billWalk ..)))
        · exact view_ite ((view_setTask ..).trans (view_billWalk ..)) ((view_setTask ..).trans (view_billWalk ..))

@[simp] theorem view_retryLeases (s : State) (key : Nat) (hit : List LeasePage → Bool) : (s.retryLeases key hit).view = s.view := by
  refine foldl_keeps State.view _ (fun t _ => foldl_keeps State.view _ (fun u p => ?_) _ _) _ _
  obtain ⟨sl, k⟩ := p
  dsimp only
  split
  · rfl
  · split
    · exact view_ite (view_tryLease ..) rfl
    · exact view_ite (view_remakeLease ..) rfl

/-! ## The retirement of a frame -/

section
variable {s : State} {frame : Nat} (hp : s.pins frame = 0) (hr : frame ∉ s.mgmt.retired)
include hp hr

theorem execFrameRetire_unheld (hh : s.frameHeld frame = false) :
    execFrameRetire frame s = .next { s with mgmt := { s.mgmt with retired := NSet.add s.mgmt.retired frame } } := by
  have hno : ¬ (s.pins frame ≠ 0 ∨ s.mgmt.retired.contains frame = true) := by simp [hp, hr]
  simp only [execFrameRetire, if_neg hno, hh, Bool.not_false, if_true]

theorem execFrameRetire_full (hh : s.frameHeld frame = true) (hb : s.platformFrame (groupOf frame) = none) :
    execFrameRetire frame s = .next { s with mgmt := { s.mgmt with degraded := NSet.add s.mgmt.degraded (groupOf frame) } } := by
  have hno : ¬ (s.pins frame ≠ 0 ∨ s.mgmt.retired.contains frame = true) := by simp [hp, hr]
  simp only [execFrameRetire, if_neg hno, hh, Bool.not_true, Bool.false_eq_true, if_false, hb]

omit hp hr in
/-- The part with frame `a` retired and what it held in frame `b`. -/
def State.retireTo (s : State) (a b : Nat) : State :=
  { s.moveFrame a b with mgmt := { s.mgmt with retired := NSet.add s.mgmt.retired a } }

theorem execFrameRetire_moved (hh : s.frameHeld frame = true) {b : Nat} (hb : s.platformFrame (groupOf frame) = some b) :
    ∃ keys : List Nat, execFrameRetire frame s =
      .next (keys.foldl (fun s key => (s.clearPorts key 0 (2 ^ 48)).retryLeases key) (s.retireTo frame b)) := by
  have hno : ¬ (s.pins frame ≠ 0 ∨ s.mgmt.retired.contains frame = true) := by simp [hp, hr]
  refine ⟨(s.ctxs.filter fun x => x.2.s2.any fun p => p.2.pfn == frame).map (·.1), ?_⟩
  simp only [execFrameRetire, if_neg hno, hh, Bool.not_true, Bool.false_eq_true, if_false, hb]
  rfl

end

section
variable {s : State} {a b : Nat}

/-- The frame that a group gives holds nothing. -/
theorem frameHeld_of_platformFrame {g : Nat} (hb : s.platformFrame g = some b) : s.frameHeld b = false := by
  have hfree := List.find?_some hb
  simp only [State.frameUsed, Bool.not_eq_true', Bool.or_eq_false_iff] at hfree
  exact hfree.2

theorem view_retryAll (keys : List Nat) (t : State) :
    (keys.foldl (fun s key => (s.clearPorts key 0 (2 ^ 48)).retryLeases key) t).view = t.view :=
  foldl_keeps State.view (fun s key => State.retryLeases (s.clearPorts key 0 (2 ^ 48)) key) (fun _ _ => view_retryLeases ..) _ _

/-- Without cores there is no lease to make again. -/
theorem dram_retryAll (keys : List Nat) {t : State} (hc : t.cores = []) :
    (keys.foldl (fun s key => (s.clearPorts key 0 (2 ^ 48)).retryLeases key) t).dram = t.dram := by
  induction keys generalizing t with
  | nil => rfl
  | cons key keys ih =>
    have hstep : (t.clearPorts key 0 (2 ^ 48)).retryLeases key = t.clearPorts key 0 (2 ^ 48) := by
      unfold State.retryLeases
      rw [show (t.clearPorts key 0 (2 ^ 48)).cores = [] from hc]
      rfl
    rw [List.foldl_cons, hstep]
    exact ih hc

/-- What mapped the frame maps the other. -/
theorem find?_retireTo {key g : Nat} {c : Context} {e : S2Entry} (hc : SMap.find? s.ctxs key = some c) (he : SMap.find? c.s2 g = some e)
    (ha : e.pfn = a) : ∃ c', SMap.find? (s.retireTo a b).ctxs key = some c' ∧ SMap.find? c'.s2 g = some { e with pfn := b } := by
  let remap (_ : Nat) (e : S2Entry) : S2Entry := if e.pfn = a then { e with pfn := b } else e
  let move (_ : Nat) (c : Context) : Context := { c with
    s2base := if c.s2base / Config.frameBytes = a then b * Config.frameBytes + c.s2base % Config.frameBytes else c.s2base
    s2 := c.s2.map fun p => (p.1, remap p.1 p.2) }
  refine ⟨move key c, (SMap.find?_map s.ctxs move key).trans (congrArg (Option.map (move key)) hc), ?_⟩
  refine (SMap.find?_map c.s2 remap g).trans ((congrArg (Option.map (remap g)) he).trans ?_)
  simp [remap, ha]

/-- An entry of stage 2 keeps its frame and its right while the view stays. -/
theorem find?_s2_of_view {t u : State} (h : u.view = t.view) {key g : Nat} {c : Context} {e : S2Entry} (hc : SMap.find? t.ctxs key = some c)
    (he : SMap.find? c.s2 g = some e) : ∃ e', SMap.find? (u.ctx key).s2 g = some e' ∧ e'.pfn = e.pfn ∧ e'.w = e.w := by
  have hclean (m : SMap S2Entry) : SMap.find? (m.map fun p => (p.1, { p.2 with d := false })) g =
      (SMap.find? m g).map fun e => { e with d := false } := SMap.find?_map m (fun _ e => { e with d := false }) g
  obtain ⟨c', hc', hf⟩ := find?_of_view h hc
  have hs : (c'.s2.map fun p => (p.1, { p.2 with d := false })) = c.s2.map fun p => (p.1, { p.2 with d := false }) :=
    congrArg (fun x => x.1.s2) hf
  have hg : (SMap.find? c'.s2 g).map (fun e => { e with d := false }) = some { e with d := false } := by
    rw [← hclean, hs, hclean, he]
    rfl
  obtain ⟨e', he', heq⟩ := Option.map_eq_some_iff.1 hg
  rw [State.ctx_of_find? hc']
  have hpfn := congrArg S2Entry.pfn heq
  have hw := congrArg S2Entry.w heq
  exact ⟨e', he', hpfn, hw⟩

theorem NSet.mem_add (m : NSet) (k : Nat) : k ∈ NSet.add m k := by
  induction m with
  | nil => simp [NSet.add]
  | cons j t ih =>
    simp only [NSet.add]
    split
    · simp
    · split
      · next h => simp [h]
      · simp [ih]

end

end Sys2Proof.Machine
end

