-- ==== Sys2Proof/Proofs/PowerAndErrors.lean ====
section
/-!
Power, heat, errors and the management port (R314 to R316, R383, R394, R404, R406 to R409).
-/
namespace Sys2Proof.Machine.PowerAndErrors

/-! ## Limits and reports (R407, R408) -/

section
variable (s : State)

/-- A report to the host, where its ring has room. -/
theorem hostEvent_ring (fn code part ofFn reason : Nat) (h : (s.fnOf fn).evtail - (s.fnOf fn).evhead < 256) :
    ((s.hostEvent fn code part ofFn reason).fnOf fn).ring =
      (s.fnOf fn).ring ++ [⟨code, part, ofFn, reason, s.cyc, min (s.fnOf fn).dropped (2 ^ 24 - 1)⟩] := by
  rw [State.hostEvent, CommandQueue.fnOf_updFn_self, if_neg (Nat.not_le.2 h)]

theorem thermalReport_ring (reason : Nat) (h : (s.fnOf 0).evtail - (s.fnOf 0).evhead < 256) :
    ∃ e, ((s.thermalReport reason).fnOf 0).ring = (s.fnOf 0).ring ++ [e] ∧ e.reason = reason :=
  ⟨_, hostEvent_ring s 0 _ 0 0 reason h, rfl⟩

theorem setLimit_eq (n : Nat) : s.setLimit n = { s with bu := { s.bu with limit := some ((s.bu.limit.map fun m => min m n).getD n) } } := by
  unfold State.setLimit
  cases s.bu.limit <;> rfl

/-- The limit of a warning is at most 384. -/
theorem setLimit_le (n : Nat) : ∃ l, (s.setLimit n).bu.limit = some l ∧ l ≤ n := by
  rw [setLimit_eq]
  refine ⟨_, rfl, ?_⟩
  cases s.bu.limit with
  | none => exact Nat.le_refl n
  | some m => exact Nat.min_le_right m n

theorem execThermalWarning_report (hr : s.mgmt.power = .ready) (h : (s.fnOf 0).evtail - (s.fnOf 0).evhead < 256) (die : Nat) :
    ∃ t l e, execThermalWarning die s = .next t ∧ t.bu.limit = some l ∧ l ≤ 384 ∧ (t.fnOf 0).ring = (s.fnOf 0).ring ++ [e] ∧
      e.reason = 1 ∧ t.cores = s.cores ∧ t.dram = s.dram := by
  obtain ⟨l, hl, hle⟩ := setLimit_le s 384
  obtain ⟨e, hring, he⟩ := thermalReport_ring (s.setLimit 384) 1 h
  exact ⟨(s.setLimit 384).thermalReport 1, l, e, by simp only [execThermalWarning, ready, hr, if_true], hl, hle, hring, he, rfl, rfl⟩

theorem execCoolantAlarm_report (hr : s.mgmt.power = .ready) (h : (s.fnOf 0).evtail - (s.fnOf 0).evhead < 256) :
    ∃ t e, execCoolantAlarm s = .next t ∧ (t.fnOf 0).ring = (s.fnOf 0).ring ++ [e] ∧ e.reason = 3 ∧ t.bu = s.bu ∧ t.cores = s.cores := by
  obtain ⟨e, hring, he⟩ := thermalReport_ring s 3 h
  exact ⟨s.thermalReport 3, e, by simp only [execCoolantAlarm, ready, hr, if_true], hring, he, rfl, rfl⟩

/-! ## Trips and machine checks (R394, R408) -/

theorem execThermalTrip_lost (hr : s.mgmt.power = .ready) (die : Nat) : ∃ t, execThermalTrip die s = .next t ∧ t.mgmt.power = .standby ∧
    ∀ key, (SMap.find? s.ctxs key).isSome = true → (t.ctx key).phase = .lost ∧ (t.ctx key).lostReason = 4 := by
  refine ⟨_, if_pos hr, rfl, fun key hk => ?_⟩
  exact (lostFor_stopEvery s 4 hk).2

/-- The part with one machine check more. -/
def checked (s : State) : State := { s with mgmt := { s.mgmt with checks := s.mgmt.checks + 1 } }

theorem containCheck_context_none {part fn : Nat} (h : SMap.find? s.ctxs (ctxKey part fn) = none) :
    s.containCheck (.context part fn) = checked s := by
  have hn : ¬ (SMap.find? (checked s).ctxs (ctxKey part fn)).isSome = true := by simp [checked, h]
  exact if_neg hn

theorem containCheck_context_some {part fn : Nat} (h : (SMap.find? s.ctxs (ctxKey part fn)).isSome = true) :
    s.containCheck (.context part fn) = (checked s).stopLost 3 true (ctxKey part fn) := if_pos h

theorem containCheck_granules (mask : Nat) : s.containCheck (.granules mask) =
    ((checked s).ctxsOn mask).foldl (fun s k => s.stopLost 3 true k) (checked s) := rfl

theorem ctxsOn_eq_nil (mask : Nat) (h : ∀ key, (SMap.find? s.ctxs key).isSome = true → s.partition? key = none) : s.ctxsOn mask = [] := by
  simp only [State.ctxsOn, List.map_eq_nil_iff, List.filter_eq_nil_iff]
  intro c hc
  simp [h c.1 (SMap.isSome_find?_of_mem hc)]

theorem containCheck_shared_lost : (s.containCheck .shared).mgmt.power = .standby ∧
    ∀ key, (SMap.find? s.ctxs key).isSome = true → ((s.containCheck .shared).ctx key).phase = .lost :=
  ⟨rfl, fun _ hk => (lostFor_stopEvery (checked s) 3 hk).2.1⟩

theorem checks_containCheck (m : McScope) : (s.containCheck m).mgmt.checks = s.mgmt.checks + 1 := by
  cases m with
  | context part fn =>
    cases h : SMap.find? s.ctxs (ctxKey part fn) with
    | none => rw [containCheck_context_none s h]; rfl
    | some c => rw [containCheck_context_some s (by simp [h]), checks_stopLost]; rfl
  | granules mask => rw [containCheck_granules, checks_stopAll]; rfl
  | shared => exact checks_stopAll (checked s) 3 false _

theorem ctx_containCheck {part fn : Nat} (h : (SMap.find? s.ctxs (ctxKey part fn)).isSome = true) :
    ((s.containCheck (.context part fn)).ctx (ctxKey part fn)).lostReason = 3 ∧
      ((s.containCheck (.context part fn)).ctx (ctxKey part fn)).phase = s.lossPhase true (ctxKey part fn) := by
  rw [containCheck_context_some s h]
  exact ctx_stopLost (checked s) 3 true _ h

theorem lossPhase_running {key : Nat} {c : Context} (h : SMap.find? s.ctxs key = some c) (hp : c.phase = .running) (hi : c.image.isSome = true) :
    s.lossPhase true key = .running := by
  simp [State.lossPhase, State.ctx_of_find? h, hi, Context.present, hp]

end

/-! ## The scrubber (R314) -/

section
variable (s : State) (core word line : Nat)

theorem poison_tellUnit (n o : Nat) : ((s.tellUnit none ⟨some n, o⟩ none).core n).poison = (s.core n).poison := by
  have htold (t : State) (w : Nat) : ((t.updCore n fun c => { c with told := NSet.add c.told w }).core n).poison = (t.core n).poison := by
    rw [State.core_updCore_self]
  simp only [State.tellUnit]
  split
  · rfl
  · split
    · exact (core_poison_event ..).trans (htold ..)
    · exact htold ..

theorem tellUnit_unowned {n o : Nat} (h : s.scratchOwner n = none) : (s.tellUnit none ⟨some n, o⟩ none).dram = s.dram ∧
    ((s.tellUnit none ⟨some n, o⟩ none).core n).scratch = (s.core n).scratch := by
  have hpart : s.partOf n = none := Option.map_eq_none_iff.1 h
  have hown : (s.updCore n fun c => { c with told := NSet.add c.told (o / 8) }).scratchOwner n = none := Option.map_eq_none_iff.2 hpart
  simp only [State.tellUnit, hown]
  split
  · exact ⟨rfl, rfl⟩
  · exact ⟨rfl, by rw [State.core_updCore_self]⟩

/-- An uncorrectable error in a word of scratch poisons it. -/
theorem execScrub_word_bad : ∃ t, execScrub (.scratchWord core word true) s = .next t ∧ word ∈ (t.core core).poison := by
  refine ⟨_, rfl, ?_⟩
  rw [poison_tellUnit, State.core_updCore_self]
  exact NSet.mem_add ..

theorem execScrub_word_bad_unowned (h : s.partOf core = none) : ∃ t, execScrub (.scratchWord core word true) s = .next t ∧
    word ∈ (t.core core).poison ∧ t.dram = s.dram ∧ (t.core core).scratch = (s.core core).scratch := by
  obtain ⟨t, ht, hm⟩ := execScrub_word_bad s core word
  obtain rfl := Host.Outcome.next.inj ht
  obtain ⟨hd, hs⟩ := tellUnit_unowned (s.updCore core fun c => { c with poison := NSet.add c.poison word }) (n := core) (o := 8 * word)
    (Option.map_eq_none_iff.2 h)
  exact ⟨_, rfl, hm, hd, hs.trans (by rw [State.core_updCore_self])⟩

theorem execScrub_word_unowned (h : s.partOf core = none) : execScrub (.scratchWord core word false) s = .next s := by
  simp [execScrub, State.scratchOwner, h]

/-- A corrected error is counted in the context of the core. -/
theorem execScrub_word_counted {p : Nat} {c : Context} (h : s.partOf core = some p) (hc : SMap.find? s.ctxs (s.keyOfCore p core) = some c)
    (hn : c.cecnt < 2 ^ 64 - 1) : ∃ t, execScrub (.scratchWord core word false) s = .next t ∧
      (t.ctx (s.keyOfCore p core)).cecnt = c.cecnt + 1 ∧ t.cores = s.cores ∧ t.dram = s.dram := by
  have hown : s.scratchOwner core = some (s.keyOfCore p core) := by simp [State.scratchOwner, h]
  refine ⟨s.countError (s.keyOfCore p core), by simp [execScrub, hown], ?_, ?_⟩
  · rw [State.countError, State.ctx_of_find? (State.find?_updCtx_self hc _)]
    exact Nat.min_eq_left hn
  · rw [State.countError, updCtx_shape]
    exact ⟨rfl, rfl⟩

section
variable {s line} (ho : s.frameOwner (64 * line / 2097152) = none) (hp : line ∉ s.dramPoison) (ht : line ∉ s.dramTold)
include ho hp ht

/-- An unowned line of DRAM with an uncorrectable error. -/
theorem execScrub_line_bad : execScrub (.dramLine line true) s =
    let t := { s with dramPoison := NSet.add s.dramPoison line, dramTold := NSet.add s.dramTold line }
    .next (if 64 * line / 2097152 % 5120 < 5088 then t else t.containCheck (t.platformScope (64 * line / 2097152))) := by
  have hknown : s.dramPoison.contains line = false := by simpa using hp
  have hline : 64 * line / 64 = line := Nat.mul_div_cancel_left line (by decide)
  have hnew : ¬ ((!(NSet.add s.dramPoison line).contains line) = true ∨ s.dramTold.contains line = true) := by
    simp [NSet.mem_add, ht]
  have htell : State.tellUnit { s with dramPoison := NSet.add s.dramPoison line } none ⟨none, 64 * line⟩ none =
      { s with dramPoison := NSet.add s.dramPoison line, dramTold := NSet.add s.dramTold line } := by
    simp only [State.tellUnit, hline, if_neg hnew]
    rw [show State.frameOwner { s with dramPoison := NSet.add s.dramPoison line, dramTold := NSet.add s.dramTold line }
      (64 * line / Config.frameBytes) = none from ho]
  simp only [execScrub, if_true, hknown, htell, Bool.false_eq_true, or_false]
  rfl

end

theorem ctxKey_div_mod (key : Nat) : ctxKey (key / 128) (key % 128) = key := Nat.div_add_mod key 128

/-- An error in the stage-2 array of one context is that context's machine check. -/
theorem ctx_platformCheck {frame key : Nat} {c : Context} (h : (s.ctxs.filter fun x => x.2.s2base / 2097152 == frame) = [(key, c)]) :
    ((s.containCheck (s.platformScope frame)).ctx key).lostReason = 3 := by
  have hscope : s.platformScope frame = .context (key / 128) (key % 128) := by
    have hlist : (s.ctxs.filter fun x => x.2.s2base / Config.frameBytes == frame) = [(key, c)] := h
    rw [State.platformScope, hlist]
  have hmem : (key, c) ∈ s.ctxs := (List.mem_filter.1 (h ▸ List.mem_singleton_self (key, c))).1
  have hfind : (SMap.find? s.ctxs (ctxKey (key / 128) (key % 128))).isSome = true := by
    rw [ctxKey_div_mod]
    exact SMap.isSome_find?_of_mem hmem
  have hreason := (ctx_containCheck s hfind).1
  rwa [ctxKey_div_mod, ← hscope] at hreason

end

/-! ## Power-on and reset (R404, R409) -/

/-- What `boot` gives in either case. -/
theorem boot_fresh (s : State) : s.boot.mgmt.power = .ready ∧ s.boot.cyc = 0 ∧ s.boot.ctxs = [] ∧ s.boot.parts = [] ∧ s.boot.cores = [] ∧
    s.boot.flights = [] ∧ s.boot.dram = [] ∧ s.boot.hostMem = s.hostMem ∧ s.boot.mgmt.flash = s.mgmt.flash ∧
    s.boot.mgmt.retired = s.mgmt.retired ∧
    (Config.bundleValid s.mgmt.flash = true → s.boot.mgmt.recovery = false ∧ s.boot.mgmt.running = s.mgmt.flash) ∧
    (Config.bundleValid s.mgmt.flash = false → s.boot.mgmt.recovery = true) := by
  cases h : Config.bundleValid s.mgmt.flash <;> simp [State.boot, State.coldState, State.reset, h]

/-! ## The obligation -/

/-- The steps of a part that is ready. -/
theorem ready_steps (s : State) (hr : s.mgmt.power = .ready) :
    (∀ n, (10 ≤ s.mgmt.overMs →
        exec (.powerCapLimit n) s = .next { s with bu := { s.bu with limit := some ((s.bu.limit.map fun m => min m n).getD n) } }) ∧
      (s.mgmt.overMs < 10 → exec (.powerCapLimit n) s = .fault .noSuchStep)) ∧
    (100 ≤ s.mgmt.underMs → exec .powerCapLift s = .next { s with bu := { s.bu with limit := none } }) ∧
    (s.mgmt.underMs < 100 → exec .powerCapLift s = .fault .noSuchStep) := by
  refine ⟨fun n => ⟨fun h => ?_, fun h => ?_⟩, fun h => ?_, fun h => ?_⟩
  · rw [← setLimit_eq]
    simp only [exec_powerCapLimit, execPowerCapLimit, ready, hr, if_true, if_neg (Nat.not_lt.2 h)]
  · simp only [exec_powerCapLimit, execPowerCapLimit, ready, hr, if_true, if_pos h]
  · simp only [exec_powerCapLift, execPowerCapLift, ready, hr, if_true, if_neg (Nat.not_lt.2 h)]
  · simp only [exec_powerCapLift, execPowerCapLift, ready, hr, if_true, if_pos h]

theorem energyDue_iff (s : State) : s.energyDue = true ↔ s.cyc % (64 * 13281) = 0 ∧ s.mgmt.energySlot ≠ s.cyc / 64 + 1 := by
  simp [State.energyDue, Config.slotsPerMs, State.slot]

/-- The replies of the management port. -/
theorem port_replies (s : State) (hp : s.mgmt.power ≠ .off) :
    let replied (t : State) (kind : Nat) (vs : List Nat) : Prop := t.mgmt.replies = s.mgmt.replies ++ [(kind, vs)]
    (∃ t vs, exec .fjarlosSensorRead s = .next t ∧ replied t 1 vs ∧ vs.length = 13 ∧ t.cores = s.cores) ∧
    (∀ w, 1200 ≤ w → w ≤ 1900 → ∃ t, exec (.fjarlosPowerCapSet w) s = .next t ∧ t.mgmt.cap = w ∧ replied t 2 [0]) ∧
    (∀ w, w < 1200 ∨ 1900 < w → ∃ t, exec (.fjarlosPowerCapSet w) s = .next t ∧ t.mgmt.cap = s.mgmt.cap ∧ replied t 2 [1]) ∧
    (∀ b, Config.bundleValid b = true → ∃ t, exec (.fjarlosFirmwareUpdate b) s = .next t ∧ t.mgmt.flash = b ∧ replied t 3 [0] ∧
      t.mgmt.running = s.mgmt.running) ∧
    (∀ b, Config.bundleValid b = false → ∃ t, exec (.fjarlosFirmwareUpdate b) s = .next t ∧ t.mgmt.flash = s.mgmt.flash ∧ replied t 3 [6]) ∧
    (∀ part fn c, SMap.find? s.ctxs (ctxKey part fn) = some c → ∃ t, exec (.fjarlosCounterRead part fn) s = .next t ∧
      replied t 4 c.counters.words) ∧
    (∀ part fn, SMap.find? s.ctxs (ctxKey part fn) = none → ∃ t, exec (.fjarlosCounterRead part fn) s = .next t ∧ replied t 4 []) := by
  refine ⟨⟨_, _, if_neg hp, rfl, ?_, rfl⟩, fun w h1 h2 => ?_, fun w h => ?_, fun b h => ?_, fun b h => ?_, fun part fn c h => ?_, fun part fn h => ?_⟩
  · simp [nSensors]
  · exact ⟨_, (if_neg hp).trans (if_pos ⟨h1, h2⟩), rfl, rfl⟩
  · exact ⟨_, (if_neg hp).trans (if_neg (by omega)), rfl, rfl⟩
  · exact ⟨_, (if_neg hp).trans (if_pos h), rfl, rfl, rfl⟩
  · exact ⟨_, (if_neg hp).trans (if_neg (by simp [h])), rfl, rfl⟩
  · refine ⟨_, if_neg hp, ?_⟩
    rw [h]
    rfl
  · refine ⟨_, if_neg hp, ?_⟩
    rw [h]
    rfl

/-- Settles O53: limits, reports, trips, machine checks, the millisecond's end, the scrubber, a frame's retirement, power and the port. -/
theorem powerAndErrors : Obligations.power_and_errors := by
  refine ⟨fun s hr => ?_, fun core word line s => ?_, fun s => ?_⟩
  · obtain ⟨hlimit, hlift, hstay⟩ := ready_steps s hr
    have hready (m : McScope) : exec (.machineCheck m) s = .next (s.containCheck m) := if_pos hr
    refine ⟨hlimit, hlift, hstay, fun h => ⟨execThermalWarning_report s hr h, execCoolantAlarm_report s hr h⟩, execThermalTrip_lost s hr,
      fun part fn h => ?_, fun part fn c hc hp hi => ?_, fun mask h => ?_, ⟨_, hready _, containCheck_shared_lost s⟩, fun rail platform => ?_⟩
    · rw [hready, containCheck_context_none s h]
      rfl
    · have hs : (SMap.find? s.ctxs (ctxKey part fn)).isSome = true := by simp [hc]
      obtain ⟨hreason, hphase⟩ := ctx_containCheck s hs
      exact ⟨_, hready _, checks_containCheck s _, hphase.trans (lossPhase_running s hc hp hi), hreason⟩
    · rw [hready, containCheck_granules, ctxsOn_eq_nil (checked s) mask h]
      rfl
    · intro due e sum m next
      refine ⟨fun h => ?_, fun h => ?_⟩
      · have hd : s.energyDue = false := Bool.eq_false_iff.2 fun hd => h ((energyDue_iff s).1 hd)
        simp only [exec_energyReconcile, execEnergyReconcile, ready, hr, if_true, hd, Bool.not_false]
      · have hd := (energyDue_iff s).2 h
        obtain ⟨t, ht, hcores, hdram, hover, hunder⟩ := execEnergyReconcile_runs s hr rail platform hd
        exact ⟨t, ht, hcores, hdram, hover, hunder, fun hctxs hsum => execEnergyReconcile_shares s hr rail platform hd hctxs hsum t ht⟩
  · refine ⟨execScrub_word_bad s core word, fun h => ⟨execScrub_word_unowned s core word h, execScrub_word_bad_unowned s core word h⟩,
      fun p c h hc hn => execScrub_word_counted s core word h hc hn, fun ho hp ht => ⟨fun h => ?_, fun h => ?_⟩, fun frame hp hf => ?_⟩
    · exact (execScrub_line_bad ho hp ht).trans (congrArg _ (if_pos h))
    · refine ⟨_, (execScrub_line_bad ho hp ht).trans (congrArg _ (if_neg (Nat.not_lt.2 h))), checks_containCheck _ _, fun key c hk => ?_⟩
      exact ctx_platformCheck _ hk
    · refine ⟨execFrameRetire_unheld hp hf, execFrameRetire_full hp hf, fun b hh hb => ?_⟩
      obtain ⟨keys, hexec⟩ := execFrameRetire_moved hp hf hh hb
      have hview := view_retryAll keys (s.retireTo frame b)
      have hne : frame ≠ b := fun h => by rw [h, frameHeld_of_platformFrame hb] at hh; cases hh
      refine ⟨_, hexec, ?_, fun key c g e hc he ha => ?_, fun hcores hw i hi => ?_⟩
      · rw [retired_of_view hview]
        exact NSet.mem_add ..
      · obtain ⟨c', hc', he'⟩ := find?_retireTo (b := b) hc he ha
        exact find?_s2_of_view hview hc' he'
      · rw [dram_retryAll keys (t := s.retireTo frame b) hcores, Nat.mul_comm _ b, Nat.mul_comm _ frame]
        exact ⟨get_moveFrame_new s hne hw hi, get_moveFrame_old s hi⟩
  · exact ⟨fun h => ⟨_, if_neg h, boot_fresh s⟩, fun h => ⟨_, if_neg h, boot_fresh s⟩, ⟨_, rfl, rfl, rfl, rfl, rfl, rfl⟩, port_replies s⟩

end Sys2Proof.Machine.PowerAndErrors
end

