-- ==== Sys2Proof/Proofs/TrapEntry.lean ====
section
/-!
Taking a trap and returning from it (R386, R388, R390, R391): the record's fields, what the waits that end leave of a task, and the
task at the handler's first word.
-/
namespace Sys2Proof.Machine.TrapEntry

/-! ## Fields of a little-endian record (R5) -/

/-- Fields of so many bytes each, packed from the lowest byte on. -/
def pack : List (Nat × Nat) → Nat
  | [] => 0
  | (n, v) :: t => v + 2 ^ (8 * n) * pack t

/-- The bytes before field `i`. -/
def fieldOff (l : List (Nat × Nat)) (i : Nat) : Nat := ((l.take i).map (·.1)).sum

theorem pack_field {l : List (Nat × Nat)} (hl : ∀ f ∈ l, f.2 < 2 ^ (8 * f.1)) {i n v : Nat} (h : l[i]? = some (n, v)) :
    pack l / 2 ^ (8 * fieldOff l i) % 2 ^ (8 * n) = v := by
  induction l generalizing i with
  | nil => cases h
  | cons f t ih =>
    obtain ⟨m, w⟩ := f
    have hw : w < 2 ^ (8 * m) := hl _ List.mem_cons_self
    cases i with
    | zero =>
      obtain ⟨rfl, rfl⟩ : m = n ∧ w = v := by simpa using h
      simp only [fieldOff, List.take_zero, List.map_nil, List.sum_nil, Nat.mul_zero, Nat.pow_zero, Nat.div_one, pack, Nat.add_mul_mod_self_left]
      exact Nat.mod_eq_of_lt hw
    | succ i =>
      have hoff : fieldOff ((m, w) :: t) (i + 1) = m + fieldOff t i := by simp [fieldOff]
      rw [hoff, Nat.mul_add, Nat.pow_add, ← Nat.div_div_eq_div_mul, pack, Nat.add_mul_div_left _ _ (Nat.two_pow_pos _), Nat.div_eq_of_lt hw,
        Nat.zero_add]
      exact ih (fun f hf => hl f (List.mem_cons_of_mem _ hf)) h

/-- A part of a number written reads as that part. -/
theorem read_write_part {m : Mem} (hm : m.wf = true) (a N v off n : Nat) (h : off + n ≤ N) :
    Mem.read (Mem.write m a N v) (a + off) n = v / 2 ^ (8 * off) % 2 ^ (8 * n) := by
  induction n generalizing off with
  | zero => simp [Mem.read, Nat.mod_one]
  | succ n ih =>
    have hbyte := Mem.get_write_of hm a N v off (by omega)
    have hpow : ∀ k, 256 ^ k = 2 ^ (8 * k) := fun k => (Nat.pow_mul 2 8 k).symm
    rw [Mem.read, Nat.add_assoc, ih (off + 1) (by omega), hbyte, BitVec.toNat_ofNat, hpow, Nat.mul_succ, Nat.mul_succ, Nat.pow_add,
      ← Nat.div_div_eq_div_mul, Nat.add_comm (8 * n), Nat.pow_add, Nat.mod_mul]

/-! ## The record (R386) -/

section
variable (i : TrapInfo) (bhnd rc rl rx rs : Nat)

/-- The second half word of a record: the strand, the precision and the mark of a late poison. -/
def flagsOf : Nat := 2 ^ 10 * i.strand.code + 2 ^ 12 * i.prec + 2 ^ 15 * (if i.late = true ∧ i.cause = cPoison then 1 else 0)

/-- The fields of a record, from byte 0 on. -/
def recordFields : List (Nat × Nat) :=
  [(2, i.cause % 2 ^ 16), (2, flagsOf i), (4, 0), (4, i.info % 2 ^ 32), (2, 0), (2, i.eid % 2 ^ 16), (4, i.estat % 2 ^ 32),
    (4, i.ecmd % 2 ^ 32), (4, bhnd), (4, i.ip % 2 ^ 32), (4, rs % 2 ^ 32), (4, rx % 2 ^ 32), (4, rl % 2 ^ 32), (4, rc % 2 ^ 32),
    (8, i.faddr % 2 ^ 64), (8, i.cyc % 2 ^ 64)]

theorem trapRecord_eq_pack : trapRecord i bhnd rc rl rx rs = pack (recordFields i bhnd rc rl rx rs) := by
  simp only [recordFields, pack, flagsOf, Nat.mul_add, ← Nat.mul_assoc, ← Nat.pow_add, Nat.reduceAdd, Nat.reduceMul, Nat.mul_zero, Nat.add_zero,
    Nat.zero_add, trapRecord, Nat.add_assoc]

theorem recordFields_fit (hp : i.prec < 4) (hb : bhnd < 2 ^ 32) : ∀ f ∈ recordFields i bhnd rc rl rx rs, f.2 < 2 ^ (8 * f.1) := by
  have hflags : flagsOf i < 2 ^ 16 := by
    have hs : i.strand.code < 4 := by cases i.strand <;> decide
    unfold flagsOf
    split <;> omega
  have hmod (x k : Nat) : x % 2 ^ k < 2 ^ k := Nat.mod_lt _ (Nat.two_pow_pos k)
  simp only [recordFields, List.mem_cons, List.not_mem_nil, or_false, forall_eq_or_imp, forall_eq]
  exact ⟨hmod .., hflags, by decide, hmod .., by decide, hmod .., hmod .., hmod .., hb, hmod .., hmod .., hmod .., hmod .., hmod .., hmod .., hmod ..⟩

/-- The bytes of each field of a record. -/
def recordWidths : List Nat := [2, 2, 4, 4, 2, 2, 4, 4, 4, 4, 4, 4, 4, 4, 8, 8]

theorem fieldOff_record (j : Nat) : fieldOff (recordFields i bhnd rc rl rx rs) j = (recordWidths.take j).sum := by
  rw [fieldOff, List.map_take]
  rfl

/-- A field of the record written at byte 4032 of a spill store. -/
theorem read_record {m : Mem} (hm : m.wf = true) (hp : i.prec < 4) (hb : bhnd < 2 ^ 32) (j off n v : Nat)
    (hj : (recordFields i bhnd rc rl rx rs)[j]? = some (n, v)) (hoff : (recordWidths.take j).sum = off) (hn : off + n ≤ 64) :
    Mem.read (Mem.write m 4032 64 (trapRecord i bhnd rc rl rx rs)) (4032 + off) n = v := by
  rw [read_write_part hm _ _ _ _ _ hn, trapRecord_eq_pack, ← hoff, ← fieldOff_record i bhnd rc rl rx rs,
    pack_field (recordFields_fit i bhnd rc rl rx rs hp hb) hj]

/-- Every field of the record. -/
theorem read_recordFields {m : Mem} (hm : m.wf = true) (hp : i.prec < 4) (hb : bhnd < 2 ^ 32) :
    let r (off n : Nat) : Nat := Mem.read (Mem.write m 4032 64 (trapRecord i bhnd rc rl rx rs)) (4032 + off) n
    r 0 2 = i.cause % 2 ^ 16 ∧ r 2 2 = flagsOf i ∧ r 4 4 = 0 ∧
       r 8 4 = i.info % 2 ^ 32 ∧ r 12 2 = 0 ∧ r 14 2 = i.eid % 2 ^ 16 ∧ r 16 4 = i.estat % 2 ^ 32 ∧ r 20 4 = i.ecmd % 2 ^ 32 ∧
       r 24 4 = bhnd ∧ r 28 4 = i.ip % 2 ^ 32 ∧ r 48 8 = i.faddr % 2 ^ 64 ∧ r 56 8 = i.cyc % 2 ^ 64 ∧
       r 44 4 = rc % 2 ^ 32 ∧ r 40 4 = rl % 2 ^ 32 ∧ r 36 4 = rx % 2 ^ 32 ∧ r 32 4 = rs % 2 ^ 32 := by
  have field (j off n v : Nat) := read_record i bhnd rc rl rx rs hm hp hb j off n v
  exact ⟨field 0 0 2 _ rfl (by decide) (by decide), field 1 2 2 _ rfl (by decide) (by decide), field 2 4 4 _ rfl (by decide) (by decide),
    field 3 8 4 _ rfl (by decide) (by decide), field 4 12 2 _ rfl (by decide) (by decide), field 5 14 2 _ rfl (by decide) (by decide),
    field 6 16 4 _ rfl (by decide) (by decide), field 7 20 4 _ rfl (by decide) (by decide), field 8 24 4 _ rfl (by decide) (by decide),
    field 9 28 4 _ rfl (by decide) (by decide), field 14 48 8 _ rfl (by decide) (by decide), field 15 56 8 _ rfl (by decide) (by decide),
    field 13 44 4 _ rfl (by decide) (by decide), field 12 40 4 _ rfl (by decide) (by decide), field 11 36 4 _ rfl (by decide) (by decide),
    field 10 32 4 _ rfl (by decide) (by decide)⟩

end

/-! ## The waits that end (R177, R182) -/

/-- What the end of a wait leaves of a task. -/
def stays (k : Task) : SMap (List Word) × SMap (List Outcome) × Word × BitVec 32 × (Strand → Nat × Mem × BitVec 8) :=
  (k.sq, k.bq, k.tvec, k.bhnd, fun u => ((k.str u).wc, (k.str u).spill, (k.str u).p))

/-- The registers of every strand. -/
def regs (k : Task) (u : Strand) : SMap Word := (k.str u).a

theorem stays_updStr (k : Task) (t : Strand) (f : StrandSt → StrandSt) (hf : ∀ x, (f x).wc = x.wc ∧ (f x).spill = x.spill ∧ (f x).p = x.p) :
    stays (k.updStr t f) = stays k := by
  have hstr : (fun u => (((k.updStr t f).str u).wc, ((k.updStr t f).str u).spill, ((k.updStr t f).str u).p)) =
      fun u => ((k.str u).wc, (k.str u).spill, (k.str u).p) := by
    funext u
    by_cases hu : u = t
    · subst hu
      obtain ⟨h1, h2, h3⟩ := hf (k.str u)
      rw [Task.str_updStr_self, h1, h2, h3]
    · rw [Task.str_updStr_ne _ _ _ _ hu]
  rw [stays, hstr]
  cases t <;> rfl

theorem stays_setReg (k : Task) (n : Nat) (v : Word) : stays (k.updStr .C fun x => x.setReg n v) = stays k :=
  stays_updStr k .C _ fun x => by unfold StrandSt.setReg; split <;> exact ⟨rfl, rfl, rfl⟩

/-- What a change of tokens and tags leaves of a task. -/
def works (k : Task) : (SMap (List Word) × SMap (List Outcome) × Word × BitVec 32 × (Strand → Nat × Mem × BitVec 8)) × (Strand → SMap Word) :=
  (stays k, regs k)

theorem works_signal (k : Task) (on : Bool) (key : Nat) : works (k.signal on key) = works k := by
  unfold Task.signal
  split <;> rfl

theorem works_unreserve (k : Task) (on : Bool) (key : Nat) : works (k.unreserve on key) = works k := by
  unfold Task.unreserve
  split <;> rfl

theorem works_freeTag (k : Task) (t : Strand) (tal : Nat) :
    works (k.updStr t fun x => { x with tags := x.tags &&& ~~~(1#8 <<< tal) }) = works k := by
  refine Prod.ext (stays_updStr k t _ fun _ => ⟨rfl, rfl, rfl⟩) (funext fun u => ?_)
  by_cases hu : u = t
  · subst hu
    simp only [works, regs, Task.str_updStr_self]
  · exact congrArg StrandSt.a (Task.str_updStr_ne _ _ _ _ hu)

theorem works_release (k : Task) (t : Strand) (sig tal : Nat) (tagd : Bool) : works (k.release t sig tal tagd) = works k := by
  have hsig := (works_signal (k.signal (sig.testBit 1) (tokKey t.code (ringPred t.code))) (sig.testBit 0)
    (tokKey t.code (ringSucc t.code))).trans (works_signal k _ _)
  simp only [Task.release]
  split
  · exact (works_freeTag ..).trans hsig
  · exact hsig

theorem works_onQueuesOf (k : Task) (f : Flight) {g : Task → Task} (hg : ∀ k, works (g k) = works k) : works (k.onQueuesOf f g) = works k := by
  unfold Task.onQueuesOf
  split
  · split
    · rfl
    · exact hg k
  · exact hg k

theorem works_land (k : Task) (f : Flight) : works (k.land f) = works k := works_onQueuesOf k f fun _ => works_release ..

theorem works_drop (k : Task) (f : Flight) : works (k.drop f) = works k :=
  (works_release ..).trans (works_onQueuesOf k f fun _ => (works_unreserve ..).trans (works_unreserve ..))

theorem stays_endWait (s : State) (k : Task) (f : Flight) : stays (s.endWait k f) = stays k := by
  unfold State.endWait
  split
  · exact (congrArg Prod.fst (works_land ..)).trans (stays_setReg ..)
  · exact stays_setReg ..
  · exact congrArg Prod.fst (works_drop ..)
  · rfl

/-- A flight that waits at a barrier, or has arrived there. -/
def atBarrier (f : Flight) : Bool :=
  match f.op with
  | .barWait _ _ _ _ | .barArrive _ _ _ => true
  | _ => false

theorem regs_endWait (s : State) (k : Task) {f : Flight} (hf : atBarrier f = false) : regs (s.endWait k f) = regs k := by
  unfold State.endWait
  split
  · next h => simp [atBarrier, h] at hf
  · next h => simp [atBarrier, h] at hf
  · exact congrArg Prod.snd (works_drop ..)
  · rfl

/-- The waits of a task's flights, ended. -/
def ended (s : State) (n sl : Nat) (k : Task) : Task := (s.flights.filter fun f => f.ofTask n sl).foldl s.endWait k

theorem stays_ended (s : State) (n sl : Nat) (k : Task) : stays (ended s n sl k) = stays k := foldl_keeps stays _ (stays_endWait s) _ _

theorem regs_ended {s : State} {n sl : Nat} (h : (s.flights.any fun f => f.ofTask n sl && atBarrier f) = false) (k : Task) :
    regs (ended s n sl k) = regs k := by
  have hall : ∀ f ∈ s.flights.filter fun f => f.ofTask n sl, atBarrier f = false := fun f hf => by
    obtain ⟨hm, ho⟩ := List.mem_filter.1 hf
    have hno := List.any_eq_false.1 h f hm
    simpa [ho] using hno
  unfold ended
  generalize s.flights.filter (fun f => f.ofTask n sl) = l at hall
  induction l generalizing k with
  | nil => rfl
  | cons f l ih =>
    rw [List.foldl_cons, ih _ fun g hg => hall g (List.mem_cons_of_mem _ hg)]
    exact regs_endWait s k (hall f List.mem_cons_self)

/-! ## The task at the handler's first word (R388) -/

/-- The record that the entry writes. -/
def recordAt (s : State) (n sl : Nat) (k : Task) (i : TrapInfo) : Nat :=
  trapRecord i k.bhnd.toNat (s.resumeWord n sl k i .C) (s.resumeWord n sl k i .L) (s.resumeWord n sl k i .X) (s.resumeWord n sl k i .S)

/-- The task after the entry: its strands at `TVEC`, its record written, its queues set aside. -/
structure Entered (s : State) (n sl : Nat) (k : Task) (m : Mem) (k' : Task) : Prop where
  strands : ∀ u, (k'.str u).ip = k.tvec.toNat % 2 ^ 32 / 8 * 8 ∧ (k'.str u).wc = 0 ∧ (k'.str u).tags = 0 ∧ (k'.str u).wait = .none
  record : k'.sC.spill = m
  queues : k'.toks = [] ∧ k'.sq = [] ∧ k'.bq = []
  trap : k'.trap = none
  aside : ∃ a, k'.handler = some a ∧ a.sq = k.sq ∧ a.bq = k.bq ∧ a.wcs = [k.sC.wc, k.sL.wc, k.sX.wc, k.sS.wc]
  regs : regs k' = regs (ended s n sl k)
  preds : ∀ u, (k'.str u).p = (k.str u).p

/-- A task whose strands enter the handler, with the spill store `m` of strand `C`. -/
def handlerTask (k : Task) (m : Mem) (budgetEnd budgetArm : Option Nat) : Task :=
  let u := k.updAll fun x => x.enter (k.tvec.toNat % 2 ^ 32 / 8 * 8)
  { u with
    sC := { u.sC with spill := m }
    toks := [], sq := [], bq := [], rdv := .gathering, trap := none
    handler := some { toks := k.toks, sq := k.sq, bq := k.bq, wcs := [k.sC.wc, k.sL.wc, k.sX.wc, k.sS.wc] }
    budgetEnd := budgetEnd, budgetArm := budgetArm }

theorem enterTrap_eq {s : State} {n sl : Nat} {k : Task} (hk : s.task? n sl = some k) (i : TrapInfo) : ∃ be ba fs, s.enterTrap n sl i =
    { s.setTask n sl (handlerTask (ended s n sl k) (Mem.write (ended s n sl k).sC.spill 4032 64 (recordAt s n sl k i)) be ba) with
      flights := fs } := by
  unfold State.enterTrap
  rw [hk]
  exact ⟨_, _, _, rfl⟩

theorem handlerTask_strand (k : Task) (m : Mem) (be ba : Option Nat) (u : Strand) :
    let x := (handlerTask k m be ba).str u
    x.ip = k.tvec.toNat % 2 ^ 32 / 8 * 8 ∧ x.wc = 0 ∧ x.tags = 0 ∧ x.wait = .none ∧ x.a = (k.str u).a ∧ x.p = (k.str u).p := by
  cases u <;> exact ⟨rfl, rfl, rfl, rfl, rfl, rfl⟩

theorem handlerTask_entered (s : State) (n sl : Nat) (k : Task) (m : Mem) (be ba : Option Nat) :
    Entered s n sl k m (handlerTask (ended s n sl k) m be ba) := by
  have hstays := stays_ended s n sl k
  have hregs : regs (handlerTask (ended s n sl k) m be ba) = regs (ended s n sl k) :=
    funext fun u => (handlerTask_strand (ended s n sl k) m be ba u).2.2.2.2.1
  generalize he : ended s n sl k = e at *
  have hstr (u : Strand) : (e.str u).wc = (k.str u).wc ∧ (e.str u).spill = (k.str u).spill ∧ (e.str u).p = (k.str u).p := by
    have hu := congrFun (congrArg (·.2.2.2.2) hstays) u
    exact ⟨congrArg (·.1) hu, congrArg (·.2.1) hu, congrArg (·.2.2) hu⟩
  have htvec : e.tvec = k.tvec := congrArg (·.2.2.1) hstays
  have hwc (u : Strand) := (hstr u).1
  refine ⟨fun u => ?_, rfl, ⟨rfl, rfl, rfl⟩, rfl, ⟨_, rfl, congrArg (·.1) hstays, congrArg (·.2.1) hstays, ?_⟩,
    hregs.trans (congrArg regs he.symm), fun u => ?_⟩
  · obtain ⟨hip, hw, ht, hwait, -, -⟩ := handlerTask_strand e m be ba u
    exact ⟨htvec ▸ hip, hw, ht, hwait⟩
  · have hC := hwc .C
    have hL := hwc .L
    have hX := hwc .X
    have hS := hwc .S
    simp only [Task.str] at hC hL hX hS
    rw [hC, hL, hX, hS]
  · obtain ⟨-, -, -, -, -, hp⟩ := handlerTask_strand e m be ba u
    exact hp.trans (hstr u).2.2

theorem enterTrap_spec {s : State} {n sl : Nat} {k : Task} (hk : s.task? n sl = some k) (i : TrapInfo) : ∃ k' fs,
    s.enterTrap n sl i = { s.setTask n sl k' with flights := fs } ∧
      Entered s n sl k (Mem.write k.sC.spill 4032 64 (recordAt s n sl k i)) k' := by
  obtain ⟨be, ba, fs, heq⟩ := enterTrap_eq hk i
  have hspill : (ended s n sl k).sC.spill = k.sC.spill := congrArg (fun x => (x.2.2.2.2 .C).2.1) (stays_ended s n sl k)
  rw [hspill] at heq
  exact ⟨_, fs, heq, handlerTask_entered s n sl k _ be ba⟩

/-! ## Delivery (R388, R391) -/

theorem foundBy_eq (s : State) (n sl : Nat) (i : TrapInfo) : ∃ f, s.foundBy n sl i = { s with found := f } := by
  unfold State.foundBy
  split
  · exact ⟨_, rfl⟩
  · split <;> exact ⟨_, rfl⟩

theorem foundBy_other (s : State) (n sl : Nat) (i : TrapInfo) (h : i.cause ≠ 0x000C) : s.foundBy n sl i = s := if_pos h

section
variable {s : State} {n sl : Nat} {k : Task} (hk : s.task? n sl = some k) (he : k.ending = none) (ht : k.trap = none)
include hk he ht

theorem deliver_handler (hh : k.handler.isSome = true) {i : TrapInfo} (hp : i.prec = 0) : s.deliver n sl i =
    s.setTask n sl { k with ending := some { cause := cDoubleFault, faddr := i.faddr, ip := i.ip, sub := i.cause } } := by
  simp [State.deliver, hk, he, ht, hh, hp]

section
variable (hh : k.handler = none)
include hh

theorem deliver_command {i : TrapInfo} (hp : i.prec = 1) (hc : i.cyc = s.cyc) :
    s.deliver n sl i = s.setTask n sl { k with held := k.held ++ [i] } := by
  simp [State.deliver, hk, he, ht, hh, hp, hc]

variable (ha : (s.core n).active = some sl) {i : TrapInfo} (hp : i.prec ≠ 1)
include ha hp

theorem deliver_drained (hd : s.drained n sl = true) : s.deliver n sl i = s.enterTrap n sl i := by
  simp [State.deliver, hk, he, ht, hh, hp, ha, hd]

theorem deliver_waits (hd : s.drained n sl = false) : s.deliver n sl i = s.setTask n sl { k with trap := some i } := by
  simp [State.deliver, hk, he, ht, hh, hp, ha, hd]

end
end

/-! ## The return (R390) -/

/-- A task that has returned from its handler. -/
theorem leaveTrap_spec {s : State} {n sl : Nat} {k : Task} {a : SetAside} (hk : s.task? n sl = some k) (hh : k.handler = some a)
    (hheld : k.held = []) : ∃ k', (s.leaveTrap n sl).task? n sl = some k' ∧ k'.handler = none ∧ k'.toks = a.toks ∧ k'.sq = a.sq ∧
      k'.bq = a.bq ∧ k'.sC.ip = Mem.read k.sC.spill 4076 4 ∧ k'.sL.ip = Mem.read k.sC.spill 4072 4 ∧ k'.sX.ip = Mem.read k.sC.spill 4068 4 ∧
      k'.sS.ip = Mem.read k.sC.spill 4064 4 ∧
      ∀ u m, (k'.str u).reg m = (k.str u).reg m ∧ (k'.str u).pred m = (k.str u).pred m ∧ (k'.str u).tags = 0 ∧ (k'.str u).wait = .none := by
  unfold State.leaveTrap
  simp only [hk, hh, hheld, firstHeld, State.task?_setTask_self]
  exact ⟨_, rfl, rfl, rfl, rfl, rfl, rfl, rfl, rfl, rfl, fun u m => by cases u <;> exact ⟨rfl, rfl, rfl, rfl⟩⟩

/-! ## The entry (R386, R388) -/

/-- What a handler finds of its task. -/
theorem trapEntry_spec {core sl : Nat} {i : TrapInfo} {s : State} {k : Task} (hr : s.trapReady core = some (sl, i)) (hk : s.task? core sl = some k)
    (hw : k.sC.spill.wf = true) (hp : i.prec < 4) :
    ∃ t k', exec (.trapEntry core) s = .next t ∧ t.task? core sl = some k' ∧ k'.trap = none ∧
      t.dram = s.dram ∧ t.hostMem = s.hostMem ∧ (∀ n, (t.core n).scratch = (s.core n).scratch) ∧
      (∀ u, (k'.str u).ip = k.tvec.toNat % 2 ^ 32 / 8 * 8 ∧ (k'.str u).wc = 0 ∧ (k'.str u).tags = 0 ∧ (k'.str u).wait = .none) ∧
      k'.toks = [] ∧ k'.sq = [] ∧ k'.bq = [] ∧
      (∃ a, k'.handler = some a ∧ a.sq = k.sq ∧ a.bq = k.bq ∧ a.wcs = [k.sC.wc, k.sL.wc, k.sX.wc, k.sS.wc]) ∧
      (let r (off n : Nat) : Nat := Mem.read k'.sC.spill (4032 + off) n
       r 0 2 = i.cause % 2 ^ 16 ∧ r 2 2 = flagsOf i ∧ r 4 4 = 0 ∧
       r 8 4 = i.info % 2 ^ 32 ∧ r 12 2 = 0 ∧ r 14 2 = i.eid % 2 ^ 16 ∧ r 16 4 = i.estat % 2 ^ 32 ∧ r 20 4 = i.ecmd % 2 ^ 32 ∧
       r 24 4 = k.bhnd.toNat ∧ r 28 4 = i.ip % 2 ^ 32 ∧ r 48 8 = i.faddr % 2 ^ 64 ∧ r 56 8 = i.cyc % 2 ^ 64 ∧
       r 44 4 = s.resumeWord core sl k i .C % 2 ^ 32 ∧ r 40 4 = s.resumeWord core sl k i .L % 2 ^ 32 ∧
       r 36 4 = s.resumeWord core sl k i .X % 2 ^ 32 ∧ r 32 4 = s.resumeWord core sl k i .S % 2 ^ 32) ∧
      ((s.flights.any fun f => f.ofTask core sl && atBarrier f) = false →
        ∀ u n, (k'.str u).reg n = (k.str u).reg n ∧ (k'.str u).pred n = (k.str u).pred n) := by
  obtain ⟨k', fs, heq, hk'⟩ := enterTrap_spec hk i
  have hexec : exec (.trapEntry core) s = .next { s.setTask core sl k' with flights := fs } := by
    rw [exec_trapEntry, execTrapEntry, hr]
    exact congrArg Host.Outcome.next heq
  obtain ⟨htoks, hsq, hbq⟩ := hk'.queues
  refine ⟨_, k', hexec, State.task?_setTask_self .., hk'.trap, rfl, rfl, fun n => ?_, hk'.strands, htoks, hsq, hbq, hk'.aside, ?_, fun hb u n => ?_⟩
  · have hcore := congrArg Core.scratch (State.core_setTask s core sl n k')
    exact hcore
  · rw [hk'.record]
    exact read_recordFields i _ _ _ _ _ hw hp k.bhnd.isLt
  · have hregs := congrFun (hk'.regs.trans (regs_ended hb k)) u
    simp only [regs] at hregs
    simp only [StrandSt.reg, StrandSt.pred, hregs, hk'.preds u, and_self]

/-- Settles O47: the entry, a precise condition at a word, a condition held for the cycle, its delivery, and the return. -/
theorem trapEntryAndReturn : Obligations.trap_entry_and_return := by
  refine ⟨fun core sl i s k hr hk hw hp => ?_, fun s e cause faddr estat hk he ht ha => ?_, fun n sl i s k hk he ht hh hp => ?_,
    fun s n sl i h => foundBy_other s n sl i h, fun core sl i rest s hr hh => ?_, fun n sl s k a hk hh hheld => leaveTrap_spec hk hh hheld⟩
  · exact trapEntry_spec hr hk hw hp
  · intro i out
    obtain ⟨f, hf⟩ := foundBy_eq s e.core e.slot i
    have hout : out = ((s.foundBy e.core e.slot i).deliver e.core e.slot i).nextCore := rfl
    rw [hf] at hout
    refine ⟨fun hh => ?_, fun hh hd => ?_, fun hh hd => ?_⟩
    · rw [hout, deliver_handler (s := { s with found := f }) hk he ht hh rfl, State.nextCore_task?, State.task?_setTask_self]
      exact ⟨_, rfl, rfl⟩
    · rw [hout, hf, deliver_drained (s := { s with found := f }) hk he ht hh ha Nat.zero_ne_one hd]
    · rw [hout, deliver_waits (s := { s with found := f }) hk he ht hh ha Nat.zero_ne_one hd, State.nextCore_task?, State.task?_setTask_self]
      exact ⟨_, rfl, rfl, rfl, fun u => by cases u <;> rfl⟩
  · obtain ⟨f, hf⟩ := foundBy_eq s n sl i
    rw [State.raise, hf]
    exact deliver_command (s := { s with found := f }) hk he ht hh hp rfl
  · rw [exec_trapEntry, execTrapEntry, hr, hh]

end Sys2Proof.Machine.TrapEntry
end

