-- ==== Sys2Proof/Proofs/ContextViews.lean ====
section
/-!
What the steps of pre-emption, save, restore and reset leave of the view: traps, collectives, windows, gates, packets and stage starts.
-/
namespace Sys2Proof.Machine

/-! ## Traps (R386, R391) -/

@[simp] theorem view_enterTrap (s : State) (n sl : Nat) (i : TrapInfo) : (s.enterTrap n sl i).view = s.view := by
  unfold State.enterTrap
  split
  · rfl
  · exact view_of_fields rfl rfl rfl rfl rfl

@[simp] theorem view_foundBy (s : State) (n sl : Nat) (i : TrapInfo) : (s.foundBy n sl i).view = s.view := by
  unfold State.foundBy
  split
  · rfl
  · split <;> rfl

@[simp] theorem view_deliver (s : State) (n sl : Nat) (i : TrapInfo) : (s.deliver n sl i).view = s.view := by
  cases hk : s.task? n sl with
  | none => simp [State.deliver, hk]
  | some k =>
    rcases State.deliver_cases hk i with h | h | ⟨k', h, -⟩
    · rw [h]
    · rw [h, view_enterTrap]
    · rw [h, view_setTask]

@[simp] theorem view_raise (s : State) (n sl : Nat) (i : TrapInfo) : (s.raise n sl i).view = s.view :=
  (view_deliver ..).trans (view_foundBy ..)

@[simp] theorem view_updCore (s : State) (n : Nat) (f : Core → Core) : (s.updCore n f).view = s.view := rfl

@[simp] theorem view_raiseSliceEnd (s : State) (key occ n : Nat) : (s.raiseSliceEnd key occ n).view = s.view := by
  simp only [State.raiseSliceEnd]
  split
  · rfl
  · refine (view_of_fields rfl rfl rfl rfl rfl).trans (view_ite ((view_updTask ..).trans (view_raise ..)) (view_raise ..))

@[simp] theorem view_commandFault (s : State) (core slot ser key : Nat) (i : TrapInfo) (d : Nat) :
    (s.commandFault core slot ser key i d).view = s.view := by
  simp only [State.commandFault]
  split
  · exact view_ite (view_raise ..) (view_event ..)
  · exact view_event ..

/-! ## Collectives (R349, R353) -/

@[simp] theorem view_cctl (s : State) (c : Coll) (m sub mask chunks : Nat) : (s.cctl c m sub mask chunks).view = s.view := view_sendOff ..

@[simp] theorem view_withdrawAll (s : State) (key : Nat) (record : Bool) : (s.withdrawAll key record).view = s.view := by
  simp only [State.withdrawAll]
  refine (view_of_fields rfl rfl rfl rfl rfl).trans (foldl_keeps State.view _ (fun t c => ?_) _ _)
  exact view_ite (foldl_keeps State.view _ (fun _ _ => view_cctl ..) _ _) (view_cctl ..)

/-! ## The start of a save (R363) -/

/-- What a phase shows of a context. -/
def phased (p : CtxPhase) (x : Context × Bool) : Context × Bool := ({ x.1 with phase := p }, x.2)

theorem view_setPhase (s : State) (key : Nat) (p : CtxPhase) : (s.updCtx key fun c => { c with phase := p }).view = editView s.view key (phased p) :=
  view_updCtx fun _ => rfl

theorem view_startSave (s : State) (key occ : Nat) : (s.startSave key occ).view = editView s.view key (phased (.saving occ)) := by
  simp only [State.startSave]
  refine (foldl_keeps State.view _ (fun t n => ?_) _ _).trans ((view_setPhase ..).trans (congrArg (editView · key _) ?_))
  · exact (view_raiseSliceEnd ..).trans (view_updCore ..)
  · exact view_ite (view_withdrawAll ..) rfl

/-! ## Windows, gates and far requests (R187, R229, R328) -/

@[simp] theorem view_wakeGate (s : State) (g : Nat) : (s.wakeGate g).view = s.view := by
  unfold State.wakeGate
  split <;> rfl

@[simp] theorem view_wakeGates (s : State) : s.wakeGates.view = s.view := foldl_keeps State.view _ (fun _ _ => view_wakeGate ..) _ _

@[simp] theorem view_wakeWindow (s : State) (c w : Nat) (status : Word) : (s.wakeWindow c w status).view = s.view := rfl

@[simp] theorem view_setWindow (s : State) (c w : Nat) (x : Window) : (s.setWindow c w x).view = s.view :=
  view_ite (view_wakeWindow ..) rfl

@[simp] theorem view_abortWindow (s : State) (core win err : Nat) : (s.abortWindow core win err).view = s.view := by
  unfold State.abortWindow
  split
  · rfl
  · exact view_ite rfl (view_setWindow ..)

@[simp] theorem view_setFar (s : State) (key : Nat) (f : List FarReq → List FarReq) : (s.setFar key f).view = s.view := view_updCtx_of fun _ => rfl

@[simp] theorem view_wakeFar (s : State) (key core slot tag : Nat) (w : Wake) : (s.wakeFar key core slot tag w).view = s.view :=
  (view_updTask ..).trans rfl

@[simp] theorem view_flagSkipped (s : State) (ps : List WPiece) : (s.flagSkipped ps).view = s.view := by
  refine foldl_keeps State.view _ (fun t p => ?_) _ _
  split
  · rfl
  · exact foldl_keeps State.view _ (fun _ _ => view_ite (view_storeBytes ..) rfl) _ _

@[simp] theorem view_engineWrite (s : State) (k : Nat) (ps bad : List WPiece) : (s.engineWrite k ps bad).1.view = s.view :=
  (view_perform ..).trans (view_flagSkipped ..)

@[simp] theorem view_finishLoad (s : State) (key : Nat) (r : FarReq) : (s.finishLoad key r).view = s.view := by
  unfold State.finishLoad
  split
  · exact view_ite rfl ((view_wakeFar ..).trans ((view_setFar ..).trans (view_engineWrite ..)))
  · rfl

/-! ## The restore (R370) -/

@[simp] theorem view_remakeLeases (s : State) (key : Nat) : (s.remakeLeases key).view = s.view := by
  refine foldl_keeps State.view _ (fun t _ => foldl_keeps State.view _ (fun u p => ?_) _ _) _ _
  obtain ⟨sl, k⟩ := p
  dsimp only
  split
  · rfl
  · split
    · exact view_tryLease ..
    · exact view_remakeLease ..

@[simp] theorem view_refreshStarts (s : State) (key : Nat) : (s.refreshStarts key).view = s.view := by
  refine foldl_keeps State.view _ (fun t b => foldl_keeps State.view _ (fun u p => ?_) _ _) _ _
  obtain ⟨n, g⟩ := p
  dsimp only
  split
  · exact view_ite rfl rfl
  · rfl

@[simp] theorem view_applyAborts (s : State) (key : Nat) : (s.applyAborts key).view = s.view := by
  simp only [State.applyAborts]
  exact (foldl_keeps State.view _ (fun _ _ => view_ite (view_abortWindow ..) rfl) _ _).trans (view_updCtx_of fun _ => rfl)

@[simp] theorem view_wakeRestored (s : State) (key : Nat) : (s.wakeRestored key).view = s.view := by
  simp only [State.wakeRestored]
  refine (foldl_keeps State.view _ (fun _ _ => view_finishLoad ..) _ _).trans ((foldl_keeps State.view _ (fun _ _ => ?_) _ _).trans
    (foldl_keeps State.view _ (fun _ _ => view_wakeGate ..) _ _))
  refine foldl_keeps State.view _ (fun u p => ?_) _ _
  obtain ⟨w, x⟩ := p
  exact view_ite (view_wakeWindow ..) rfl

/-! ## Copy packets (R199) and what a reset clears (R374) -/

@[simp] theorem view_doneIfEnded (s : State) (h : BitVec 32) : (s.doneIfEnded h).view = s.view := by
  unfold State.doneIfEnded
  split
  · rfl
  · exact view_ite (view_finalize ..) rfl

@[simp] theorem view_copyStageDone (s : State) (p : CopyPkt) : (s.copyStageDone p).view = s.view :=
  view_ite ((view_doneIfEnded ..).trans rfl) rfl

@[simp] theorem view_updHts (s : State) (c : Nat) (f : Hts → Hts) : (s.updHts c f).view = s.view := rfl

@[simp] theorem view_engineDecrement (s : State) (core key n : Nat) : (s.engineDecrement core key n).view = s.view := by
  simp only [State.engineDecrement, State.decrement]
  split
  · rfl
  · refine view_ite ?_ rfl
    split <;> rfl

@[simp] theorem view_endPacket (s : State) (p : CopyPkt) : (s.endPacket p).view = s.view := by
  have hdone : ∀ t : State, t.view = s.view → (t.unitDone p.uid).view = s.view := fun t ht => (view_unitDone ..).trans ht
  simp only [State.endPacket]
  refine view_ite ((view_commandFault ..).trans (hdone _ ?_)) (hdone _ ?_) <;>
    exact view_ite ((view_engineDecrement ..).trans (view_ite (view_copyStageDone ..) ((view_engineWrite ..).trans (view_copyStageDone ..))))
      (view_ite (view_copyStageDone ..) ((view_engineWrite ..).trans (view_copyStageDone ..)))

@[simp] theorem view_abortPackets (s : State) (key : Nat) : (s.abortPackets key).view = s.view :=
  view_ite rfl (foldl_keeps State.view _ (fun _ _ => view_endPacket ..) _ _)

@[simp] theorem view_stopPackets (s : State) (key : Nat) : (s.stopPackets key).view = s.view := rfl

@[simp] theorem view_countArrival (s : State) (key : Nat) (p : Pkt) : (s.countArrival key p).view = s.view := view_updCtx_of fun _ => rfl

@[simp] theorem view_refuseHeld (s : State) (key : Nat) : (s.refuseHeld key).view = s.view := by
  simp only [State.refuseHeld]
  refine (foldl_keeps State.view _ (fun t h => ?_) _ _).trans rfl
  obtain ⟨a, b, p⟩ := h
  exact (view_countArrival ..).trans (view_reply ..)

@[simp] theorem view_clearHts (s : State) (key : Nat) (all : Bool) : (s.clearHts key all).view = s.view := rfl
@[simp] theorem view_dropSignals (s : State) (key : Nat) : (s.dropSignals key).view = s.view := rfl
@[simp] theorem view_leaveTransit (s : State) (key : Nat) : (s.leaveTransit key).view = s.view := rfl
@[simp] theorem view_lapseRequests (s : State) (key : Nat) : (s.lapseRequests key).view = s.view := rfl
@[simp] theorem view_zeroFrames (s : State) (fs : List Nat) : (s.zeroFrames fs).view = s.view := rfl
@[simp] theorem view_clearPorts (s : State) (key lo n : Nat) : (s.clearPorts key lo n).view = s.view := rfl

/-! ## The reset of a context (R374, R400) -/

/-- What a reset shows of a context. -/
def reset (x : Context × Bool) : Context × Bool := (x.1.afterReset, false)

/-- What a reset clears of the schedulers, the gates, memory and the ports. -/
def State.resetTables (s : State) (key : Nat) : State :=
  let t := s.clearHts key false
  let u := (((t.dropSignals key).leaveTransit key).lapseRequests key).zeroFrames (t.ctx key).ownFrames
  { u.clearPorts key 0 (2 ^ 48) with
    digests := u.digests.filter fun h => h.1 != key
    bu := { u.bu with reqs := u.bu.reqs.filter fun r => ctxKey r.part r.fn != key } }

theorem view_resetTables (s : State) (key : Nat) : (s.resetTables key).view = s.view := by
  have hlast : ∀ (t : State) (ds : List (Nat × Pkt)) (b : BookUnit), ({ t with digests := ds, bu := b } : State).view = t.view := fun _ _ _ => rfl
  unfold State.resetTables
  rw [hlast, view_clearPorts, view_zeroFrames, view_lapseRequests, view_leaveTransit, view_dropSignals, view_clearHts]

/-- What a reset ends before it clears. -/
def State.resetWork (s : State) (key : Nat) : State :=
  ((((s.abortPackets key).cancelAll key).withdrawAll key false).stopPackets key).discardWork key |>.refuseHeld key

theorem view_resetWork (s : State) (key : Nat) : (s.resetWork key).view = editView s.view key discarded := by
  rw [State.resetWork, view_refuseHeld, view_discardWork, view_stopPackets, view_withdrawAll, view_cancelAll, view_abortPackets]

theorem resetCtx_eq (s : State) (key : Nat) :
    s.resetCtx key = (((s.abortStopper key).resetWork key).resetTables key).updCtx key Context.afterReset := by
  simp only [State.resetCtx, State.resetWork, State.resetTables]

theorem view_resetCtx (s : State) (key : Nat) : ∃ F, (s.resetCtx key).view = editView s.view key F ∧
    ∀ x, ∃ st, F x = reset (discarded ({ x.1 with stopper := st }, x.2)) := by
  obtain ⟨G, hG, hst⟩ := view_abortStopper s key
  refine ⟨reset ∘ discarded ∘ G, ?_, fun x => ?_⟩
  · rw [resetCtx_eq, view_updCtx (F := reset) fun _ => rfl, view_resetTables, view_resetWork, hG, editView_editView, editView_editView]
    rfl
  · obtain ⟨st, hx⟩ := hst x
    exact ⟨st, congrArg (fun y => reset (discarded y)) hx⟩

end Sys2Proof.Machine
end

