-- ==== Sys2Proof/Proofs/Launch.lean ====
section
/-!
The start of a resident program (R278, R371): its record, its task in an empty core, and what the cancels and the loss of a context leave in
the cores.
-/
namespace Sys2Proof.Machine

/-! ## Fields of a number with a field replaced (R4) -/

theorem testBit_fld (x hi lo k : Nat) : (fld x hi lo).testBit k = (decide (k < hi + 1 - lo) && x.testBit (lo + k)) := by
  rw [fld, Nat.testBit_mod_two_pow, Nat.testBit_shiftRight]

theorem fld_setFld_self (x v pos len : Nat) (hl : 1 ≤ len) : fld (setFld x (pos + len - 1) pos v) (pos + len - 1) pos = v % 2 ^ len := by
  refine Nat.eq_of_testBit_eq fun k => ?_
  rw [testBit_fld, ScalarControl.testBit_setFld x v pos hl, Nat.testBit_mod_two_pow, show pos + len - 1 + 1 - pos = len by omega]
  by_cases hk : k < len
  · rw [if_pos (by omega), Nat.add_sub_cancel_left]
  · simp [hk]

theorem fld_setFld_ne (x v pos len hi lo : Nat) (hl : 1 ≤ len) (h : hi < pos ∨ pos + len ≤ lo) :
    fld (setFld x (pos + len - 1) pos v) hi lo = fld x hi lo := by
  refine Nat.eq_of_testBit_eq fun k => ?_
  rw [testBit_fld, testBit_fld, ScalarControl.testBit_setFld x v pos hl]
  by_cases hk : k < hi + 1 - lo
  · rw [if_neg (by omega)]
  · simp [hk]

theorem recf_ofNat (x hi lo : Nat) (h : hi < 256) : recf (BitVec.ofNat 256 x) hi lo = fld x hi lo := by
  refine Nat.eq_of_testBit_eq fun k => ?_
  rw [recf, testBit_fld, testBit_fld, BitVec.toNat_ofNat, Nat.testBit_mod_two_pow]
  by_cases hk : k < hi + 1 - lo
  · simp [show lo + k < 256 by omega]
  · simp [hk]

section
variable (i : Image) (ent : Nat)

theorem rootTask_ent : recf (i.rootTask ent) 159 128 = ent % 2 ^ 32 := by
  rw [Image.rootTask, recf_ofNat _ _ _ (by decide), fld_setFld_ne _ _ 0 64 _ _ (by decide) (by decide)]
  exact fld_setFld_self _ _ 128 32 (by decide)

theorem rootTask_arg : recf (i.rootTask ent) 63 0 = i.pblk % 2 ^ 64 := by
  rw [Image.rootTask, recf_ofNat _ _ _ (by decide)]
  exact fld_setFld_self _ _ 0 64 (by decide)

theorem rootTask_handle : BitVec.ofNat 32 (recf (i.rootTask ent) 191 160) = 0 := by
  have hzero : recf (i.rootTask ent) 191 160 = 0 := by
    rw [Image.rootTask, recf_ofNat _ _ _ (by decide), fld_setFld_ne _ _ 0 64 _ _ (by decide) (by decide),
      fld_setFld_ne _ _ 128 32 _ _ (by decide) (by decide)]
    refine Nat.eq_of_testBit_eq fun k => ?_
    rw [testBit_fld, ScalarControl.testBit_setFld _ 0 160 (len := 64) (by decide), Nat.zero_testBit]
    by_cases hk : k < 32
    · rw [if_pos (by omega), Nat.zero_testBit, Bool.and_false]
    · simp [hk]
  rw [hzero]
  rfl

theorem rootTask_walker : recf (i.rootTask ent) 230 230 = recf i.rootrec 230 230 := by
  rw [Image.rootTask, recf_ofNat _ _ _ (by decide), fld_setFld_ne _ _ 0 64 _ _ (by decide) (by decide),
    fld_setFld_ne _ _ 128 32 _ _ (by decide) (by decide), fld_setFld_ne _ _ 160 64 _ _ (by decide) (by decide)]
  exact fld_setFld_ne _ _ 229 1 _ _ (by decide) (by decide)

end

/-! ## The lease of a new task (R306) -/

theorem core_leasePending (s : State) (n sl : Nat) (k : Task) (va r c : Nat) :
    ((s.leasePending n sl k va r).core c).slots = (s.core c).slots := by
  simp only [State.leasePending]
  split
  · split <;> exact core_slots_event ..
  · exact core_slots_event ..

theorem task?_leasePending (s : State) (n sl : Nat) (k : Task) (va r m sm : Nat) :
    (s.leasePending n sl k va r).task? m sm = s.task? m sm := by
  rw [State.task?, core_leasePending, State.task?]

/-- A task whose lease is walked keeps its strands. -/
theorem tryLease_task {s : State} {n sl : Nat} {k : Task} (h : s.task? n sl = some k) (start : Nat) :
    ∃ k', (s.tryLease n sl start).task? n sl = some k' ∧ k'.root = k.root ∧ ∀ u, k'.str u = k.str u := by
  unfold State.tryLease
  rw [h]
  dsimp only
  have htold (b : Bool) (t : State) (va r : Nat) : (if b = true then t else t.leasePending n sl k va r).task? n sl = t.task? n sl := by
    split
    · rfl
    · exact task?_leasePending ..
  have same (k' : Task) (hr : k'.root = k.root) (hs : ∀ u, k'.str u = k.str u) : ∃ k'', ((s.billWalk k.key).setTask n sl k').task? n sl =
      some k'' ∧ k''.root = k.root ∧ ∀ u, k''.str u = k.str u := ⟨k', State.task?_setTask_self .., hr, hs⟩
  split
  · exact same _ rfl fun u => by cases u <;> rfl
  · split
    · rw [htold]
      exact same _ rfl fun u => by cases u <;> rfl
    · split
      · exact same _ rfl fun u => by cases u <;> rfl
      · exact same _ rfl fun u => by cases u <;> rfl

/-! ## The start (R278, R371) -/

theorem core_repend (s : State) (a : Nat) (b : Option Nat) (c : Nat) : (s.repend a b).core c = s.core c := rfl

/-- A dispatch to an empty core puts the task in its first slot. -/
theorem dispatch_task {s : State} {n : Nat} {d : DqEntry} (hn : (s.core n).slots = []) (hd : d.bh = 0) :
    ∃ k, (s.dispatch n d).task? n 0 = some k ∧ k.root = d.root ∧ ∀ u, k.str u = (s.newTask d).str u := by
  have hslot : (s.core n).slotFor (d.bh != 0) = some 0 := by simp [Core.slotFor, hn, hd]
  unfold State.dispatch
  rw [hslot]
  dsimp only
  let k : Task := { s.newTask d with st := .prefetching 0 s.cyc false }
  have hroot : (s.newTask d).root = d.root := by
    unfold State.newTask
    dsimp only
    split <;> rfl
  have htask : ((s.updCore n fun c => { c with slots := SMap.set c.slots 0 k, prefetch := some 0 }).repend d.uid none).task? n 0 = some k := by
    rw [State.task?, core_repend, State.core_updCore_self]
    exact SMap.find?_set_self ..
  obtain ⟨k', hk', hr, hs⟩ := tryLease_task htask s.cyc
  exact ⟨k', hk', hr.trans hroot, fun u => (hs u).trans (by cases u <;> rfl)⟩

/-- The strands of a task that is no walker. -/
theorem newTask_strands {s : State} {d : DqEntry} (hw : recf d.rcd 230 230 = 0) :
    (∀ u, ((s.newTask d).str u).ip = recf d.rcd 159 128) ∧ ((s.newTask d).str .C).reg 1 = BitVec.ofNat 64 (recf d.rcd 63 0) := by
  have hno : ¬ (recf d.rcd 230 230 == 1) = true := by simp [hw]
  have hreg (x : StrandSt) (v : Word) : (x.setReg 1 v).reg 1 = v := StrandSt.reg_setReg_self x 1 v (by decide)
  simp only [State.newTask, if_neg hno]
  exact ⟨fun u => by cases u <;> rfl, hreg _ _⟩

theorem ofNat_mod_word (x : Nat) : (BitVec.ofNat 64 (x % 2 ^ 64) : Word) = BitVec.ofNat 64 x := by
  refine BitVec.eq_of_toNat_eq ?_
  rw [BitVec.toNat_ofNat, BitVec.toNat_ofNat, Nat.mod_mod]

/-- The word of a resident program's first task. -/
def Image.entry (i : Image) (why : Nat) : Nat := if why = 0 then recf i.rootrec 159 128 else i.rfent % 2 ^ 32

/-- The entry by which a resident program starts. -/
def State.rootEntry (s : State) (key : Nat) (i : Image) (n why : Nat) : DqEntry :=
  { rcd := i.rootTask (if why = 0 then recf i.rootrec 159 128 else i.rfent)
    tvec := BitVec.ofNat 64 (i.tvec0 / 8 * 8), part := key / 128, fn := key % 128, src := n, root := true, entered := s.cyc }

/-- What a restart adds to the first task of a resident program. -/
def withReason (restarts why : Nat) (k : Task) : Task :=
  if why = 0 then k else k.updStr .C fun x => (x.setReg 2 (BitVec.ofNat 64 restarts)).setReg 3 (BitVec.ofNat 64 why)

theorem withReason_spec (restarts why : Nat) (k : Task) : (withReason restarts why k).root = k.root ∧
    (∀ u, ((withReason restarts why k).str u).ip = (k.str u).ip) ∧ ((withReason restarts why k).str .C).reg 1 = (k.str .C).reg 1 ∧
    (why ≠ 0 → ((withReason restarts why k).str .C).reg 2 = BitVec.ofNat 64 restarts ∧
      ((withReason restarts why k).str .C).reg 3 = BitVec.ofNat 64 why) := by
  unfold withReason
  split
  · next h => exact ⟨rfl, fun _ => rfl, rfl, fun hn => absurd h hn⟩
  · refine ⟨rfl, fun u => by cases u <;> rfl, ?_, fun _ => ⟨?_, ?_⟩⟩
    · rw [Task.str_updStr_self, StrandSt.reg_setReg_ne _ 3 1 _ (by decide), StrandSt.reg_setReg_ne _ 2 1 _ (by decide)]
    · rw [Task.str_updStr_self, StrandSt.reg_setReg_ne _ 3 2 _ (by decide), StrandSt.reg_setReg_self _ 2 _ (by decide)]
    · rw [Task.str_updStr_self, StrandSt.reg_setReg_self _ 3 _ (by decide)]

section
variable {s : State} {key : Nat} {i : Image} {n : Nat}

theorem launch_eq (hi : (s.ctx key).image = some i) (hn : (s.ctxCores key).head? = some n) (hs : (s.core n).slots = []) (why : Nat) :
    s.launch key why = (s.dispatch n (s.rootEntry key i n why)).updTask n 0 (withReason (s.ctx key).restarts why) := by
  have hslot : (s.core n).slotFor false = some 0 := by simp [Core.slotFor, hs]
  unfold State.launch
  rw [hi, hn]
  dsimp only
  rw [hslot]
  rfl

theorem rootEntry_ent (why : Nat) : recf (s.rootEntry key i n why).rcd 159 128 = i.entry why := by
  unfold State.rootEntry
  rw [rootTask_ent, Image.entry]
  split
  · exact Nat.mod_eq_of_lt (Nat.mod_lt _ (Nat.two_pow_pos _))
  · rfl

theorem rootEntry_arg (why : Nat) : (BitVec.ofNat 64 (recf (s.rootEntry key i n why).rcd 63 0) : Word) = BitVec.ofNat 64 i.pblk := by
  unfold State.rootEntry
  rw [rootTask_arg, ofNat_mod_word]

theorem rootEntry_walker (why : Nat) : recf (s.rootEntry key i n why).rcd 230 230 = recf i.rootrec 230 230 := by
  unfold State.rootEntry
  exact rootTask_walker ..

theorem rootEntry_handle (why : Nat) : (s.rootEntry key i n why).bh = 0 := rootTask_handle ..

/-- A resident program starts on an empty core. -/
theorem launch_task (hi : (s.ctx key).image = some i) (hn : (s.ctxCores key).head? = some n) (hs : (s.core n).slots = [])
    (hw : recf i.rootrec 230 230 = 0) (why : Nat) : ∃ k, (s.launch key why).task? n 0 = some k ∧ k.root = true ∧
    (∀ x, (k.str x).ip = i.entry why) ∧ k.sC.reg 1 = BitVec.ofNat 64 i.pblk ∧
    (why ≠ 0 → k.sC.reg 2 = BitVec.ofNat 64 (s.ctx key).restarts ∧ k.sC.reg 3 = BitVec.ofNat 64 why) := by
  obtain ⟨k, hk, hroot, hstr⟩ := dispatch_task (d := s.rootEntry key i n why) hs (rootEntry_handle why)
  obtain ⟨hip, harg⟩ := newTask_strands (s := s) ((rootEntry_walker (s := s) (key := key) (n := n) why).trans hw)
  obtain ⟨hroot', hip', harg', hwhy⟩ := withReason_spec (s.ctx key).restarts why k
  refine ⟨_, (congrArg (State.task? · n 0) (launch_eq hi hn hs why)).trans (State.task?_updTask_self hk _), hroot'.trans hroot, fun u => ?_, ?_, hwhy⟩
  · rw [hip', hstr, hip, rootEntry_ent]
  · exact harg'.trans (by rw [hstr, harg, rootEntry_arg])

end

end Sys2Proof.Machine
end

