-- ==== Sys2Proof/Proofs/SliceEnd.lean ====
section
/-!
The end of a slice (R363): Slice End in every active task of a context, core after core.
-/
namespace Sys2Proof.Machine

/-! ## What a message leaves of the cores (R320) -/

/-- The cores and what is in flight in them. -/
def State.running (s : State) : SMap Core × List Flight := (s.cores, s.flights)

theorem running_updCtx (s : State) (k : Nat) (f : Context → Context) : (s.updCtx k f).running = s.running := by
  unfold State.updCtx
  split <;> rfl

theorem running_ite {s a b : State} {p : Prop} [Decidable p] (ha : a.running = s.running) (hb : b.running = s.running) :
    (if p then a else b).running = s.running := by
  split <;> assumption

theorem running_launchPkt (s : State) (c : Context) (part dev : Nat) (p : Pkt) : (s.launchPkt c part dev p).2.running = s.running := by
  simp only [State.launchPkt]
  split
  · rfl
  · split
    · rfl
    · split
      · rfl
      · exact running_ite rfl rfl

theorem running_sendOff (s : State) (key dev : Nat) (p : Pkt) : (s.sendOff key dev p).running = s.running := by
  simp only [State.sendOff, State.send]
  split
  · exact running_launchPkt ..
  · exact (running_updCtx ..).trans (running_launchPkt ..)

theorem running_withdrawAll (s : State) (key : Nat) (record : Bool) : (s.withdrawAll key record).running = s.running := by
  have hall (t : State) (l : List Coll) (f : State → Coll → State) (hf : ∀ t c, (f t c).running = t.running) : (l.foldl f t).running = t.running :=
    foldl_keeps State.running f hf l t
  simp only [State.withdrawAll]
  refine Eq.trans ?_ (hall s (s.colls.filter fun c => c.key == key && c.withdrawn.isNone) (fun s c =>
    if c.coordinator = c.me then s.cctlAll c 1 (2 ^ c.me) 0 else s.cctl c c.coordinator 1 (2 ^ c.me) 0) fun t c => ?_)
  · rfl
  · exact running_ite (foldl_keeps State.running _ (fun _ _ => running_sendOff ..) _ _) (running_sendOff ..)

/-! ## A trap in another core -/

theorem flights_enterTrap {s : State} {n sl : Nat} {k : Task} (hk : s.task? n sl = some k) (i : TrapInfo) :
    (s.enterTrap n sl i).flights = s.flights.filterMap fun f => if f.ofTask n sl then f.atEntry else some f := by
  unfold State.enterTrap
  rw [hk]

theorem core_atEntry {f g : Flight} (h : f.atEntry = some g) : g.core = f.core := by
  unfold Flight.atEntry at h
  split at h <;> cases h <;> rfl

/-- What stands ready for a trap in a core: the active task, with nothing in flight that the entry waits for. -/
structure TrapReady (s : State) (n sl : Nat) (k : Task) : Prop where
  active : (s.core n).active = some sl
  task : s.task? n sl = some k
  drained : s.drained n sl = true

theorem drained_enterTrap_ne {s : State} {n sl m ml : Nat} {k : Task} (hk : s.task? m ml = some k) (i : TrapInfo) (hm : m ≠ n)
    (hd : s.drained n sl = true) : (s.enterTrap m ml i).drained n sl = true := by
  simp only [State.drained, Bool.not_eq_true', List.any_eq_false, flights_enterTrap hk, List.mem_filterMap] at hd ⊢
  rintro g ⟨f, hf, hg⟩
  split at hg
  · next ho =>
    have hcore : g.core = m := (core_atEntry hg).trans (by simpa [Flight.ofTask] using (Bool.and_eq_true_iff.1 ho).1)
    have hno : g.ofTask n sl = false := by simp [Flight.ofTask, hcore, hm]
    simp [hno]
  · cases hg
    exact hd g hf

theorem trapReady_deliver_ne {s : State} {n sl m ml : Nat} {k : Task} (i : TrapInfo) (hm : m ≠ n) (h : TrapReady s n sl k) :
    TrapReady (s.deliver m ml i) n sl k := by
  have hset (k' : Task) : TrapReady (s.setTask m ml k') n sl k :=
    ⟨by rw [State.core_setTask]; exact h.active, (State.task?_setTask_ne _ _ _ _ _ _ (.inl hm.symm)).trans h.task, h.drained⟩
  cases hk : s.task? m ml with
  | none => simpa [State.deliver, hk] using h
  | some km =>
    rcases State.deliver_cases hk i with heq | heq | ⟨k', heq, -⟩
    · rw [heq]
      exact h
    · obtain ⟨k', fs, hent, -⟩ := TrapEntry.enterTrap_spec hk i
      have hdrained := drained_enterTrap_ne hk i hm h.drained
      rw [heq]
      rw [hent] at hdrained ⊢
      exact ⟨(hset k').active, (hset k').task, hdrained⟩
    · rw [heq]
      exact hset k'

theorem trapReady_updCore {s : State} {n sl m : Nat} {k : Task} (h : TrapReady s n sl k) :
    TrapReady (s.updCore m fun c => { c with waits := false }) n sl k := by
  by_cases hm : n = m
  · subst hm
    exact ⟨by rw [State.core_updCore_self]; exact h.active, by rw [State.task?, State.core_updCore_self]; exact h.task, h.drained⟩
  · exact ⟨by rw [State.core_updCore_ne _ _ _ _ hm]; exact h.active, by rw [State.task?, State.core_updCore_ne _ _ _ _ hm]; exact h.task, h.drained⟩

/-! ## Slice End (R363) -/

/-- What the end of a slice raises. -/
def sliceInfo (s : State) (occ : Nat) : TrapInfo :=
  { cause := cSliceEnd, prec := 2, resume := .asIs, info := occ, ip := (Config.freeValue 32 s.fresh).toNat
    strand := Strand.ofCode (Config.freeValue 2 (s.fresh + 1)).toNat }

/-- A task in its handler after the end of its slice. -/
def SliceEnded (k k' : Task) : Prop :=
  k'.handler.isSome = true ∧ Mem.read k'.sC.spill 4032 2 = 0x0039 ∧ k'.sC.ip = k.tvec.toNat % 2 ^ 32 / 8 * 8

section
variable {s : State} {key n sl : Nat} {k : Task} (hkey : k.key = key) (hh : k.handler = none) (ht : k.trap = none) (he : k.ending = none)
  (hw : k.sC.spill.wf = true)
include hkey hh ht he hw

theorem raiseSliceEnd_self (h : TrapReady s n sl k) (occ : Nat) : ∃ k', (s.raiseSliceEnd key occ n).task? n sl = some k' ∧ SliceEnded k k' := by
  have hact : s.activeOf key n = some (sl, k) := by simp [State.activeOf, h.active, h.task, hkey]
  have hfound : s.foundBy n sl (sliceInfo s occ) = s := TrapEntry.foundBy_other s n sl _ (show (0x39 : Nat) ≠ 0x0C by decide)
  have hraise : s.raise n sl (sliceInfo s occ) = s.enterTrap n sl { sliceInfo s occ with cyc := s.cyc } := by
    rw [State.raise, hfound]
    exact TrapEntry.deliver_drained h.task he ht hh h.active (show (2 : Nat) ≠ 1 by decide) h.drained
  obtain ⟨k', fs, hent, hk'⟩ := TrapEntry.enterTrap_spec h.task { sliceInfo s occ with cyc := s.cyc }
  have heq : s.raiseSliceEnd key occ n = { (s.raise n sl (sliceInfo s occ)) with fresh := (s.raise n sl (sliceInfo s occ)).fresh + 2 } := by
    simp only [State.raiseSliceEnd, hact, hh, ht, Option.isSome_none, Bool.or_false, Bool.false_eq_true, if_false]
    rfl
  obtain ⟨a, ha, -⟩ := hk'.aside
  refine ⟨k', ?_, by rw [ha]; rfl, ?_, (hk'.strands .C).1⟩
  · rw [heq, hraise, hent]
    exact State.task?_setTask_self ..
  · rw [hk'.record]
    exact (TrapEntry.read_recordFields _ _ _ _ _ _ hw (show (2 : Nat) < 4 by decide) k.bhnd.isLt).1

end

theorem trapReady_updTask_ne {s : State} {n sl m : Nat} {k : Task} (h : TrapReady s n sl k) (hm : m ≠ n) (ml : Nat) (f : Task → Task) :
    TrapReady (s.updTask m ml f) n sl k := by
  refine ⟨(State.active_updTask ..).trans h.active, (State.task?_updTask_ne _ _ _ _ _ _ (.inl hm.symm)).trans h.task, ?_⟩
  unfold State.updTask
  split <;> exact h.drained

theorem trapReady_raiseSliceEnd_ne {s : State} {key n sl m : Nat} {k : Task} (h : TrapReady s n sl k) (hm : m ≠ n) (occ : Nat) :
    TrapReady (s.raiseSliceEnd key occ m) n sl k := by
  simp only [State.raiseSliceEnd]
  split
  · exact h
  · next ml km _ =>
    have hfound : s.foundBy m ml (sliceInfo s occ) = s := TrapEntry.foundBy_other s m ml _ (show (0x39 : Nat) ≠ 0x0C by decide)
    have hraise : TrapReady (s.raise m ml (sliceInfo s occ)) n sl k := by
      rw [State.raise, hfound]
      exact trapReady_deliver_ne _ hm h
    split
    · have hbudget := trapReady_updTask_ne hraise hm ml fun k => { k with budgetEnd := some (s.cyc + min k.pbudget.toNat (s.hcap k.part)) }
      exact ⟨hbudget.active, hbudget.task, hbudget.drained⟩
    · exact ⟨hraise.active, hraise.task, hraise.drained⟩

theorem task?_deliver_ne {s : State} {n sl m ml : Nat} (i : TrapInfo) (hm : m ≠ n) : (s.deliver m ml i).task? n sl = s.task? n sl := by
  have hset (k' : Task) : (s.setTask m ml k').task? n sl = s.task? n sl := State.task?_setTask_ne _ _ _ _ _ _ (.inl hm.symm)
  cases hk : s.task? m ml with
  | none => simp [State.deliver, hk]
  | some km =>
    rcases State.deliver_cases hk i with heq | heq | ⟨k', heq, -⟩
    · rw [heq]
    · obtain ⟨k', fs, hent, -⟩ := TrapEntry.enterTrap_spec hk i
      rw [heq, hent]
      exact hset k'
    · rw [heq]
      exact hset k'

theorem task?_raiseSliceEnd_ne {s : State} {key n sl m : Nat} (hm : m ≠ n) (occ : Nat) :
    (s.raiseSliceEnd key occ m).task? n sl = s.task? n sl := by
  simp only [State.raiseSliceEnd]
  split
  · rfl
  · next ml km _ =>
    have hfound : s.foundBy m ml (sliceInfo s occ) = s := TrapEntry.foundBy_other s m ml _ (show (0x39 : Nat) ≠ 0x0C by decide)
    have hraise : (s.raise m ml (sliceInfo s occ)).task? n sl = s.task? n sl := by
      rw [State.raise, hfound]
      exact task?_deliver_ne _ hm
    split
    · exact (State.task?_updTask_ne _ _ _ _ _ _ (.inl hm.symm)).trans hraise
    · exact hraise

/-- The end of a slice in one core. -/
def State.endSliceIn (key occ : Nat) (s : State) (n : Nat) : State := (s.updCore n fun c => { c with waits := false }).raiseSliceEnd key occ n

theorem task?_updCore_waits (s : State) (m n sl : Nat) : (s.updCore m fun c => { c with waits := false }).task? n sl = s.task? n sl := by
  by_cases hm : n = m
  · subst hm
    rw [State.task?, State.core_updCore_self, State.task?]
  · rw [State.task?, State.core_updCore_ne _ _ _ _ hm, State.task?]

theorem task?_endSliceIn_ne {s : State} {key n sl : Nat} (occ : Nat) {l : List Nat} (hn : n ∉ l) :
    (l.foldl (State.endSliceIn key occ) s).task? n sl = s.task? n sl := by
  induction l generalizing s with
  | nil => rfl
  | cons m l ih =>
    rw [List.mem_cons, not_or] at hn
    rw [List.foldl_cons, ih hn.2, State.endSliceIn, task?_raiseSliceEnd_ne (Ne.symm hn.1), task?_updCore_waits]

/-- Slice End core after core reaches each core's active task. -/
theorem endSlice_task {s : State} {key n sl : Nat} {k : Task} (hkey : k.key = key) (hh : k.handler = none) (ht : k.trap = none)
    (he : k.ending = none) (hw : k.sC.spill.wf = true) (h : TrapReady s n sl k) (occ : Nat) {l : List Nat} (hl : l.Nodup) (hn : n ∈ l) :
    ∃ k', (l.foldl (State.endSliceIn key occ) s).task? n sl = some k' ∧ SliceEnded k k' := by
  induction l generalizing s with
  | nil => cases hn
  | cons m l ih =>
    obtain ⟨hm, hl⟩ := List.nodup_cons.1 hl
    rw [List.foldl_cons]
    by_cases hmn : n = m
    · subst hmn
      rw [task?_endSliceIn_ne occ hm]
      exact raiseSliceEnd_self hkey hh ht he hw (trapReady_updCore h) occ
    · exact ih (trapReady_raiseSliceEnd_ne (trapReady_updCore h) (Ne.symm hmn) occ) hl ((List.mem_cons.1 hn).resolve_left hmn)

theorem ctxCores_nodup (s : State) (key : Nat) : (s.ctxCores key).Nodup := by
  unfold State.ctxCores State.coresOf
  split
  · exact List.nodup_nil
  · exact List.nodup_range.filter _

/-- A save begins with Slice End in every active task of the context. -/
theorem startSave_task {s : State} {key occ n sl : Nat} {k : Task} (hn : n ∈ s.ctxCores key) (ha : s.activeOf key n = some (sl, k))
    (hh : k.handler = none) (ht : k.trap = none) (he : k.ending = none) (hw : k.sC.spill.wf = true) (hd : s.drained n sl = true) :
    ∃ k', (s.startSave key occ).task? n sl = some k' ∧ SliceEnded k k' := by
  have hactive : (s.core n).active = some sl ∧ s.task? n sl = some k ∧ k.key = key := by
    simp only [State.activeOf, Option.bind_eq_some_iff] at ha
    obtain ⟨sl', hsl, k', hk', hif⟩ := ha
    split at hif
    · next hkey =>
      cases hif
      exact ⟨hsl, hk', hkey⟩
    · cases hif
  obtain ⟨hact, htask, hkey⟩ := hactive
  have hready (t : State) (hr : t.running = s.running) : TrapReady t n sl k := by
    have hc : t.cores = s.cores := congrArg Prod.fst hr
    have hf : t.flights = s.flights := congrArg Prod.snd hr
    exact ⟨by rw [State.core, hc]; exact hact, by rw [State.task?, State.core, hc]; exact htask, by rw [State.drained, hf]; exact hd⟩
  let w : State := if occ = 1 then s.withdrawAll key true else s
  have hcores : w.ctxCores key = s.ctxCores key := ctxCores_of_view (view_ite (view_withdrawAll ..) rfl) key
  have hw' : (w.updCtx key fun c => { c with phase := .saving occ }).running = s.running :=
    (running_updCtx ..).trans (running_ite (running_withdrawAll ..) rfl)
  exact endSlice_task hkey hh ht he hw (hready _ hw') occ (ctxCores_nodup w key) (hcores ▸ hn)

end Sys2Proof.Machine
end

