-- ==== Sys2Proof/Proofs/SaveAndRestore.lean ====
section
/-!
The save of a context, its restore and its loss (R365 to R372).
-/
namespace Sys2Proof.Machine

/-! ## What a walker shows (R372) -/

/-- A core as the restart area sees it: its tasks but for their cancels, and its deque. -/
def Core.walks (c : Core) : SMap Task × List DqEntry := (c.slots.map fun p => (p.1, { p.2 with cancelled := false }), c.deque)

/-- Every core as the restart area sees it. -/
def State.walks (s : State) (n : Nat) : SMap Task × List DqEntry := (s.core n).walks

theorem walks_of_cores {s t : State} (h : t.cores = s.cores) : t.walks = s.walks := by
  funext n
  rw [State.walks, State.core, h, State.walks, State.core]

theorem walks_of_running {s t : State} (h : t.running = s.running) : t.walks = s.walks := walks_of_cores (congrArg Prod.fst h)

theorem walks_cancelTasks (s : State) (b : Booking) (m : Nat) : (s.cancelTasks b m).walks = s.walks := by
  let on (n : Nat) (c : Core) : Core := { c with slots := c.slots.map fun p => (p.1, cancelTask b n m p.2) }
  have hon (n : Nat) (c : Core) : (on n c).walks = c.walks := by
    refine Prod.ext ?_ rfl
    simp only [Core.walks, on, List.map_map]
    refine List.map_congr_left fun p _ => ?_
    simp only [Function.comp_apply, cancelTask]
    split <;> rfl
  have hcores : (s.cancelTasks b m).cores = s.cores.map fun p => (p.1, on p.1 p.2) := by
    simp only [State.cancelTasks]
    rw [updCtx_shape]
  funext n
  rw [State.walks, State.walks, State.core, State.core, SMap.get, SMap.get, hcores, SMap.find?_map]
  cases SMap.find? s.cores n with
  | none => rfl
  | some c => exact hon n c

theorem walks_sendReleases (s : State) (b : Booking) (m : Nat) : (s.sendReleases b m).walks = s.walks := by
  refine foldl_keeps State.walks _ (fun t p => ?_) _ _
  dsimp only
  split
  · exact walks_of_running (running_sendOff ..)
  · rfl

theorem cores_finalize (s : State) (h : BitVec 32) (st : BState) : (s.finalize h st).cores = s.cores := by
  unfold State.finalize
  split
  · rfl
  · unfold State.unitDone
    split <;> rfl

theorem walks_cancelBooking (s : State) (h : BitVec 32) (st : BState) : (s.cancelBooking h st).walks = s.walks := by
  unfold State.cancelBooking
  split
  · rfl
  · next b _ =>
    split
    · rfl
    · have hret (n : Nat) (u : State) : ((List.range n).foldl (fun s n => s.returnFrom h n (s.slot + 1)) u).cores = u.cores :=
        foldl_keeps State.cores (fun s n => State.returnFrom s h n (s.slot + 1)) (fun _ _ => rfl) _ _
      have hdrop (u : State) (f : Booking → Booking) : ((u.dropRequests h).updBooking h f).cores = u.cores := rfl
      exact (walks_of_cores ((cores_finalize ..).trans ((hdrop ..).trans (hret ..)))).trans
        ((walks_sendReleases ..).trans (walks_cancelTasks ..))

theorem walks_cancelAll (s : State) (key : Nat) : (s.cancelAll key).walks = s.walks :=
  foldl_keeps State.walks _ (fun _ _ => walks_cancelBooking ..) _ _

/-- The walkers of a core, from what the restart area sees. -/
theorem walkerCopies_of_walks {s t : State} {key : Nat} (hw : t.walks = s.walks) (hc : t.ctxCores key = s.ctxCores key) :
    t.walkerCopies key = s.walkerCopies key := by
  let tasks (x : SMap Task × List DqEntry) : List (BitVec 1024) :=
    (x.1.filter fun p => p.2.key == key && p.2.walker).map fun p => BitVec.ofNat 1024 (setFld p.2.topb.toNat 863 832 p.2.step)
  let queued (x : SMap Task × List DqEntry) : List (BitVec 1024) :=
    (x.2.filter fun d => ctxKey d.part d.fn == key && recf d.rcd 230 230 == 1).map fun d => d.topb
  have htasks (c : Core) : ((c.slots.filter fun p => p.2.key == key && p.2.walker).map fun p =>
      BitVec.ofNat 1024 (setFld p.2.topb.toNat 863 832 p.2.step)) = tasks c.walks := by
    simp only [tasks, Core.walks, List.filter_map, List.map_map]
    rfl
  have hcopies (u : State) : u.walkerCopies key = ((u.ctxCores key).flatMap fun n => tasks (u.walks n)) ++
      (u.ctxCores key).flatMap fun n => queued (u.walks n) := by
    simp only [State.walkerCopies, List.flatMap_map, htasks]
    rfl
  rw [hcopies, hcopies, hw, hc]

/-! ## The save (R366 to R369) -/

/-- Setting dirty bits of stage 2 is not seen. -/
theorem view_dirtyWhere (s : State) (k : Nat) (P : Nat → Prop) [DecidablePred P] :
    (s.updCtx k fun c => { c with s2 := c.s2.map fun (g, e) => if P g then (g, { e with d := true }) else (g, e) }).view = s.view := by
  refine view_updCtx_of fun c => ?_
  simp only [Context.frame, List.map_map]
  congr 2
  refine List.map_congr_left fun p _ => ?_
  simp only [Function.comp_apply]
  split <;> rfl

theorem view_dirtyRange (s : State) (key ga n : Nat) : (s.dirtyRange key ga n).view = s.view := by
  unfold State.dirtyRange
  exact view_dirtyWhere s key fun g => ga < (g + 1) * Config.frameBytes ∧ g * Config.frameBytes < ga + n

theorem view_putGuest (s : State) (key ga n : Nat) (bs : List (Nat × Byte)) : (s.putGuest key ga n bs).view = s.view := by
  simp only [State.putGuest]
  generalize s.guestRuns key ga n = runs
  refine (view_dirtyRange ..).trans ((foldl_keeps State.view _ (fun u b => ?_) _ _).trans (foldl_keeps State.view _ (fun u r => ?_) _ _))
  · obtain ⟨off, b⟩ := b
    dsimp only
    split <;> rfl
  · exact view_of_fields rfl rfl rfl rfl rfl

/-- What a new save area shows of a context. -/
def saved (sseq : Nat) (mac : BitVec 128) (x : Context × Bool) : Context × Bool := ({ x.1 with sseq := sseq, sealVal := mac }, x.2)

theorem view_writeArea (s : State) (key occ : Nat) : ∃ mac, (s.writeArea key occ).view = editView s.view key (saved ((s.ctx key).sseq + 1) mac) := by
  have hfresh (t : State) (n : Nat) : ({ t with fresh := n } : State).view = t.view := rfl
  simp only [State.writeArea]
  refine ⟨_, (view_updCtx (F := saved _ _) fun _ => rfl).trans (congrArg (editView · key _) ?_)⟩
  exact (hfresh ..).trans ((view_billWrite ..).trans (view_putGuest ..))

/-- What the cores that a context leaves show of it. -/
def leaves (kept : SMap Core) (fs : List Flight) (x : Context × Bool) : Context × Bool :=
  ({ x.1 with kept := kept.map fun p => (p.1, {}), keptFlights := fs }, x.2)

theorem view_leaveCores (s : State) (key : Nat) : ∃ kept fs, (s.leaveCores key).view = editView s.view key (leaves kept fs) := by
  simp only [State.leaveCores]
  exact ⟨_, _, (view_updCtx (F := leaves _ _) fun _ => rfl).trans (congrArg (editView · key _) (view_of_fields rfl rfl rfl rfl rfl))⟩

theorem core_leaveCores {s : State} {key n : Nat} (hn : n ∈ s.ctxCores key) : (s.leaveCores key).core n = {} := by
  have hfind (l : SMap Core) : SMap.find? (l.filter fun c => !(s.ctxCores key).contains c.1) n = none := by
    induction l with
    | nil => rfl
    | cons p l ih =>
      rw [List.filter_cons]
      split
      · next hp =>
        have hne : p.1 ≠ n := fun h => by simp [h, hn] at hp
        simpa [SMap.find?, hne] using ih
      · exact ih
  simp only [State.leaveCores]
  rw [State.core, updCtx_shape, SMap.get, hfind]
  rfl

/-- What the restart area shows of a context, when it has an image. -/
def counted (image : Bool) (n : Nat) (x : Context × Bool) : Context × Bool := if image then ({ x.1 with restarts := n }, x.2) else x

theorem view_writeRestart (s : State) (key : Nat) :
    (s.writeRestart key).view = editView s.view key (counted (s.ctx key).image.isSome (s.walkerCopies key).length) := by
  unfold State.writeRestart
  split
  · next h =>
    rw [h]
    exact (editView_id ..).symm
  · next i h =>
    rw [h]
    exact (view_writeVirt ..).trans (view_updCtx fun _ => rfl)

theorem view_tellStopper (s : State) (key : Nat) : ∃ st : Option (Nat × BitVec 32) → Option (Nat × BitVec 32),
    (s.tellStopper key).view = editView s.view key fun x => ({ x.1 with stopper := st x.1.stopper }, x.2) := by
  unfold State.tellStopper
  split
  · exact ⟨id, (editView_id s.view key).symm⟩
  · exact ⟨fun _ => none, (view_complete ..).trans (view_updCtx fun _ => rfl)⟩

theorem core_tellStopper (s : State) (key n : Nat) : (s.tellStopper key).core n = s.core n := by
  unfold State.tellStopper
  split
  · rfl
  · next fn htag _ =>
    rw [State.core, State.core]
    exact congrArg (fun t : SMap Core × List Flight => SMap.get t.1 {} n) (running_updCtx s key fun c => { c with stopper := none })

/-- A context in a phase other than that of an absent one is there. -/
theorem isSome_of_phase {s : State} {key : Nat} (h : (s.ctx key).phase ≠ .created) : (SMap.find? s.ctxs key).isSome = true := by
  cases hf : SMap.find? s.ctxs key with
  | none => exact absurd (by simp [State.ctx, SMap.get, hf]) h
  | some c => rfl

/-- What an update of a context keeps of every context. -/
theorem edit_keeps {s t : State} {key : Nat} {F : Context × Bool → Context × Bool} (h : t.view = editView s.view key F) {α : Type}
    (g : Context × Bool → α) (hg : ∀ x, g (F x) = g x) (k : Nat) : g (t.ctx k).frame = g (s.ctx k).frame := by
  by_cases hk : k = key
  · subst hk
    cases hs : (SMap.find? s.ctxs k).isSome with
    | true => rw [frame_of_edit_self h hs, hg]
    | false =>
      have ht := (isSome_of_edit h k).trans hs
      have hnt := Option.not_isSome_iff_eq_none.1 (Bool.eq_false_iff.1 ht)
      have hns := Option.not_isSome_iff_eq_none.1 (Bool.eq_false_iff.1 hs)
      rw [State.ctx, State.ctx, SMap.get, SMap.get, hnt, hns]
  · rw [frame_of_edit_ne h hk]

section
variable {s t : State} {key : Nat} {F : Context × Bool → Context × Bool} (h : t.view = editView s.view key F)
include h

theorem image_of_edit (hF : ∀ x, (F x).1.image = x.1.image) (k : Nat) : (t.ctx k).image = (s.ctx k).image := edit_keeps h (·.1.image) hF k
theorem restarts_of_edit (hF : ∀ x, (F x).1.restarts = x.1.restarts) (k : Nat) : (t.ctx k).restarts = (s.ctx k).restarts :=
  edit_keeps h (·.1.restarts) hF k
theorem ctxCores_of_edit (k : Nat) : t.ctxCores k = s.ctxCores k := by
  rw [State.ctxCores, State.coresOf, parts_of_edit h]
  rfl

end

theorem core_setPhase (s : State) (key n : Nat) (f : Context → Context) : (s.updCtx key f).core n = s.core n := by
  rw [updCtx_shape]
  rfl

section
variable (s : State) (key occ : Nat)

/-- A context's save up to its phase: its packets stopped, the restart area and the save area written, and its cores left. -/
def State.saveWork : State := (((s.stopPackets key).writeRestart key).writeArea key occ).leaveCores key

theorem view_saveWork : ∃ mac kept fs, (s.saveWork key occ).view = editView s.view key
    (leaves kept fs ∘ saved ((s.ctx key).sseq + 1) mac ∘ counted (s.ctx key).image.isSome (s.walkerCopies key).length) := by
  have hwalks : (s.stopPackets key).walkerCopies key = s.walkerCopies key := walkerCopies_of_walks rfl rfl
  have hrestart : ((s.stopPackets key).writeRestart key).view =
      editView s.view key (counted (s.ctx key).image.isSome (s.walkerCopies key).length) := by
    rw [← hwalks]
    exact view_writeRestart (s.stopPackets key) key
  obtain ⟨mac, harea⟩ := view_writeArea ((s.stopPackets key).writeRestart key) key occ
  obtain ⟨kept, fs, hcores⟩ := view_leaveCores (((s.stopPackets key).writeRestart key).writeArea key occ) key
  have hseq : (((s.stopPackets key).writeRestart key).ctx key).sseq = (s.ctx key).sseq :=
    edit_keeps hrestart (fun x => x.1.sseq) (fun x => by unfold counted; split <;> rfl) key
  refine ⟨mac, kept, fs, ?_⟩
  rw [State.saveWork, hcores, harea, hseq, hrestart, editView_editView, editView_editView]
  rfl

theorem core_saveWork {n : Nat} (hn : n ∈ s.ctxCores key) : (s.saveWork key occ).core n = {} := by
  obtain ⟨mac, harea⟩ := view_writeArea ((s.stopPackets key).writeRestart key) key occ
  have hcores : (((s.stopPackets key).writeRestart key).writeArea key occ).ctxCores key = s.ctxCores key := by
    rw [State.ctxCores, State.coresOf, parts_of_edit harea, parts_of_edit (view_writeRestart ..)]
    rfl
  exact core_leaveCores (by rw [hcores]; exact hn)

/-- What the end of a save shows of a context. -/
theorem view_saveEnd : ∃ st : Option (Nat × BitVec 32) → Option (Nat × BitVec 32),
    ((s.updCtx key fun c => { c with phase := .saved occ }).tellStopper key).view =
      editView s.view key fun x => ({ x.1 with phase := .saved occ, stopper := st x.1.stopper }, x.2) := by
  obtain ⟨st, hst⟩ := view_tellStopper (s.updCtx key fun c => { c with phase := .saved occ }) key
  refine ⟨st, ?_⟩
  rw [hst, view_setPhase, editView_editView]
  rfl

end

theorem core_toldPhase (t : State) (p : Prop) [Decidable p] (key n : Nat) : (if p then t.tellPhase key else t).core n = t.core n := by
  split <;> rfl

/-- A saved context has its occasion, the next sequence number and its walkers' count, and has left its cores. -/
theorem execContextSave_saved {part fn occ : Nat} {s : State} (h : s.saveReady (ctxKey part fn) = some occ) :
    ∃ t, execContextSave part fn s = .next t ∧ (t.ctx (ctxKey part fn)).phase = .saved occ ∧
      (t.ctx (ctxKey part fn)).sseq = (s.ctx (ctxKey part fn)).sseq + 1 ∧
      ((s.ctx (ctxKey part fn)).image.isSome = true → (t.ctx (ctxKey part fn)).restarts = (s.walkerCopies (ctxKey part fn)).length) ∧
      ∀ n ∈ s.ctxCores (ctxKey part fn), t.core n = {} := by
  unfold execContextSave
  generalize ctxKey part fn = key at h
  have hphase : (s.ctx key).phase = .saving occ := by
    unfold State.saveReady at h
    split at h
    · next o ho =>
      split at h
      · cases h
        exact ho
      · cases h
    · cases h
  have hsome : (SMap.find? s.ctxs key).isSome = true := isSome_of_phase (by rw [hphase]; exact nofun)
  obtain ⟨u, hu, hview, hwalks⟩ : ∃ u : State, (if occ = 3 then s.cancelAll key else s) = u ∧ u.view = s.view ∧ u.walks = s.walks :=
    ⟨_, rfl, view_ite (view_cancelAll ..) rfl, by split <;> [exact walks_cancelAll ..; rfl]⟩
  have hcopies := walkerCopies_of_walks hwalks (ctxCores_of_view hview key)
  obtain ⟨mac, kept, fs, hwork⟩ := view_saveWork u key occ
  obtain ⟨st, hend⟩ := view_saveEnd (u.saveWork key occ) key occ
  rw [hwork, editView_editView, hview, hcopies, sseq_of_view hview, image_of_view hview] at hend
  let t := ((u.saveWork key occ).updCtx key fun c => { c with phase := .saved occ }).tellStopper key
  have hout : (if occ = 2 then t.tellPhase key else t).view = t.view := view_ite (view_tellPhase ..) rfl
  have hframe := frame_of_edit_self (hout.trans hend) hsome
  refine ⟨if occ = 2 then t.tellPhase key else t, ?_, congrArg (·.1.phase) hframe, ?_, fun hi => ?_, fun n hn => ?_⟩
  · simp only [h, hu]
    rfl
  · exact congrArg (·.1.sseq) hframe
  · refine (congrArg (·.1.restarts) hframe).trans ?_
    simp [leaves, saved, counted, hi]
  · rw [core_toldPhase, core_tellStopper, core_setPhase]
    exact core_saveWork u key occ (by rw [ctxCores_of_view hview]; exact hn)

end Sys2Proof.Machine
end

