-- ==== Sys2Proof/Proofs/ContextSteps.lean ====
section
/-!
Slices, budgets, saves, restores and resets of contexts (R363 to R366, R370 to R372, R374, R400, R409).
-/
namespace Sys2Proof.Machine.ContextSteps

/-! ## The forced save (R365) -/

/-- A strand that no fence holds stands at its own word. -/
theorem standStill_strand {s : State} {n sl : Nat} (h : (s.flights.any fun f => f.ofTask n sl) = false) (k : Task) (u : Strand) :
    ((s.standStill n sl k).str u) = { k.str u with wait := .none } := by
  have hnone (id : Nat) : (s.flights.find? fun f => f.id == id && f.ofTask n sl) = none :=
    List.find?_eq_none.2 fun f hf hid => List.any_eq_false.1 h f hf (Bool.and_eq_true_iff.1 hid).2
  have hstrand (x : StrandSt) : (match (match x.wait with
      | .flight id => (s.flights.find? fun f => f.id == id && f.ofTask n sl).bind fun f => match f.op with
        | .fence _ _ _ => some f.ip
        | _ => none
      | _ => none) with
      | some ip => { x with ip := ip, wc := x.wc - 1, wait := Wait.none }
      | none => { x with wait := Wait.none }) = { x with wait := Wait.none } := by
    cases x.wait <;> simp [hnone]
  cases u <;> exact hstrand _

theorem execForcedSave_still {core sl : Nat} {s : State} {k : Task} (h : s.forcedNow core = some (sl, k))
    (hf : (s.flights.any fun f => f.ofTask core sl) = false) :
    ∃ t k', execForcedSave core s = .next t ∧ (t.core core).quiet = true ∧ t.task? core sl = some k' ∧
      ∀ u, (k'.str u).ip = (k.str u).ip ∧ (k'.str u).a = (k.str u).a ∧ (k'.str u).wait = .none := by
  have hnil : (s.flights.filter fun f => f.ofTask core sl) = [] := List.filter_eq_nil_iff.2 fun f hm => by simpa using List.any_eq_false.1 hf f hm
  unfold execForcedSave
  rw [h]
  simp only [hnil, List.foldl_nil]
  refine ⟨_, s.standStill core sl k, rfl, ?_, ?_, fun u => ?_⟩
  · rw [State.core_updCore_self]
  · rw [State.task?, State.core_updCore_self]
    exact State.task?_setTask_self ..
  · rw [standStill_strand hf]
    exact ⟨rfl, rfl, rfl⟩

/-! ## The restore (R370, R371) -/

/-- The word at which the resident program of a context starts, if it has one. -/
def entryAt (image : Option Image) (why : Nat) : Nat :=
  match image with
  | some i => if why = 0 then recf i.rootrec 159 128 else i.rfent % 2 ^ 32
  | none => 0

/-- A resident program that has started in an empty core, with what a loss tells it. -/
def Launched (s t : State) (key why a2 : Nat) : Prop :=
  ∀ i n, (s.ctx key).image = some i → (s.ctxCores key).head? = some n → (s.core n).slots = [] → recf i.rootrec 230 230 = 0 →
    ∃ k, t.task? n 0 = some k ∧ k.root = true ∧ (∀ x, (k.str x).ip = entryAt (s.ctx key).image why) ∧ k.sC.reg 1 = BitVec.ofNat 64 i.pblk ∧
      (why ≠ 0 → k.sC.reg 2 = BitVec.ofNat 64 a2 ∧ k.sC.reg 3 = BitVec.ofNat 64 why)

theorem launched_of {s u : State} {key : Nat} (hi : (u.ctx key).image = (s.ctx key).image) (hr : (u.ctx key).restarts = (s.ctx key).restarts)
    (hc : u.ctxCores key = s.ctxCores key) (hs : ∀ n, (s.core n).slots = [] → (u.core n).slots = []) (why : Nat) :
    Launched s (u.launch key why) key why (s.ctx key).restarts := by
  intro i n himg hn hslots hw
  rw [← hr, himg]
  exact launch_task (hi.trans himg) (hc ▸ hn) (hs n hslots) hw why

/-- What the start of a saved context shows of it. -/
def started (x : Context × Bool) : Context × Bool := ({ x.1 with phase := .running, startAs := none }, x.2)

theorem view_started (s : State) (key : Nat) :
    (s.updCtx key fun c => { c with phase := .running, startAs := none }).view = editView s.view key started := view_updCtx fun _ => rfl

section
variable {s : State} {key : Nat} (hsome : (SMap.find? s.ctxs key).isSome = true)
include hsome

theorem restore_start {why : Nat} (h : (s.ctx key).startAs = some why) :
    ((s.restore key).ctx key).phase = .running ∧ Launched s (s.restore key) key why (s.ctx key).restarts := by
  have hview := view_started s key
  have heq : s.restore key = (s.updCtx key fun c => { c with phase := .running, startAs := none }).launch key why := by
    unfold State.restore
    rw [h]
  rw [heq]
  refine ⟨?_, launched_of ?_ ?_ ?_ (fun n hn => ?_) why⟩
  · exact congrArg (·.1.phase) (frame_of_edit_self ((view_launch ..).trans hview) hsome)
  · exact image_of_edit hview (fun _ => rfl) key
  · exact restarts_of_edit hview (fun _ => rfl) key
  · exact ctxCores_of_edit hview key
  · rw [core_setPhase]
    exact hn

end

/-! ### A loss at the restore -/

theorem phase_eq_of_frame {c : Context} {x : Context × Bool} (h : c.frame = x) : c.phase = x.1.phase := congrArg (·.1.phase) h
theorem restarts_eq_of_frame {c : Context} {x : Context × Bool} (h : c.frame = x) : c.restarts = x.1.restarts := congrArg (·.1.restarts) h
theorem kept_eq_nil_of_frame {c : Context} {x : Context × Bool} (h : c.frame = x) (hx : x.1.kept = []) : c.kept = [] := by
  have hkept : c.kept.map (fun p => (p.1, ({} : Core))) = x.1.kept := congrArg (·.1.kept) h
  exact List.map_eq_nil_iff.1 (hkept.trans hx)
theorem lostReason_eq_of_frame {c : Context} {x : Context × Bool} (h : c.frame = x) : c.lostReason = x.1.lostReason := congrArg (·.1.lostReason) h

theorem slots_cancelAll {s : State} {key n : Nat} (h : (s.core n).slots = []) : ((s.cancelAll key).core n).slots = [] := by
  have hw : ((s.cancelAll key).core n).slots.map (fun p => (p.1, { p.2 with cancelled := false })) =
      (s.core n).slots.map fun p => (p.1, { p.2 with cancelled := false }) := congrArg Prod.fst (congrFun (walks_cancelAll s key) n)
  rw [h] at hw
  exact List.map_eq_nil_iff.1 hw

theorem core_discardWork {s : State} {key : Nat} (h : (s.ctx key).present = false) (n : Nat) : (s.discardWork key).core n = s.core n := by
  have hall (l : SMap Core) : (l.filter fun c => !([] : List Nat).contains c.1) = l := List.filter_eq_self.2 fun _ _ => rfl
  have hcores (l : List Nat) : (l.foldl (fun s u => s.repend u none) s).cores = s.cores :=
    foldl_keeps State.cores (fun s u => State.repend s u none) (fun _ _ => rfl) _ _
  simp only [State.discardWork]
  rw [core_setPhase, h]
  simp only [Bool.false_eq_true, if_false, hall, State.core, hcores]

theorem slots_lossTold {s : State} {key n : Nat} (hp : (s.ctx key).present = false) (h : (s.core n).slots = []) (reason : Nat) :
    ((s.lossTold key reason).core n).slots = [] := by
  have hpresent : ((s.cancelAll key).ctx key).present = false := by
    rw [Context.present, phase_of_view (view_cancelAll ..)]
    exact hp
  have hwork : (((s.cancelAll key).discardWork key).core n).slots = [] := by
    rw [core_discardWork hpresent]
    exact slots_cancelAll h
  unfold State.lossTold
  rw [core_hostEvent, core_slots_event, core_setPhase]
  exact hwork

theorem restore_lost {s u : State} {key r : Nat} (hsome : (SMap.find? s.ctxs key).isSome = true) (hview : u.view = s.view)
    (hcores : u.cores = s.cores) (hp : (s.ctx key).present = false) :
    ((u.loseContext key r true true).ctx key).phase = .running ∧ ((u.loseContext key r true true).ctx key).lostReason = r ∧
      Launched s (u.loseContext key r true true) key r (s.ctx key).restarts := by
  have hlost := view_loseContext u key r true true
  rw [hview] at hlost
  have hframe := frame_of_edit_self hlost hsome
  have hupresent : (u.ctx key).present = false := by
    rw [Context.present, phase_of_view hview]
    exact hp
  have htold := view_lossTold u key r
  rw [hview] at htold
  have hset := view_started (u.lossTold key r) key
  rw [htold, editView_editView] at hset
  refine ⟨phase_eq_of_frame hframe, lostReason_eq_of_frame hframe, ?_⟩
  rw [loseContext_running]
  refine launched_of ?_ ?_ ?_ (fun n hn => ?_) r
  · exact image_of_edit hset (fun _ => rfl) key
  · exact restarts_of_edit hset (fun _ => rfl) key
  · exact ctxCores_of_edit hset key
  · rw [core_setPhase]
    refine slots_lossTold hupresent ?_ r
    rw [State.core, hcores]
    exact hn

/-! ### The context brought back -/

/-- What a restore shows of a context. -/
def loaded (x : Context × Bool) : Context × Bool := ({ x.1 with phase := .running, kept := [], keptFlights := [], heldReplies := [] }, x.2)

theorem view_loadContext (s : State) (key : Nat) (area : Mem) : (s.loadContext key area).view = editView s.view key loaded := by
  simp only [State.loadContext]
  rw [view_wakeRestored, view_applyAborts, view_refreshStarts, view_remakeLeases]
  refine (foldl_keeps State.view _ (fun u n => view_updCore u n _) _ _).trans ((view_updCtx (F := loaded) fun c => ?_).trans (congrArg (editView · key _) ?_))
  · rfl
  · exact view_of_fields rfl rfl rfl rfl rfl

/-- What the end of a migration's restore shows of a context. -/
theorem view_resumed (s : State) (key : Nat) : ∃ b : Bool → Bool,
    (if (s.ctx key).resuming then (s.updCtx key fun c => { c with resuming := false }).tellPhase key else s).view =
      editView s.view key fun x => ({ x.1 with resuming := b x.1.resuming }, x.2) := by
  split
  · exact ⟨fun _ => false, (view_tellPhase ..).trans (view_updCtx fun _ => rfl)⟩
  · exact ⟨id, (editView_id s.view key).symm⟩

/-- A restore whose questions about the area are parameters: over a variable, nothing evaluates them. -/
def restoreBy (fault : State → Nat → Mem → Option Nat) (load : State → Nat → Mem → State) (s : State) (key : Nat) : State :=
  match (s.ctx key).startAs with
  | some why => (s.updCtx key fun c => { c with phase := .running, startAs := none }).launch key why
  | none =>
    let len := saveLen (s.ctxCores key).length
    let area := s.guestBytes key (s.saveBase key) len
    let s := s.billRead key len
    match fault s key area with
    | some r => s.loseContext key r true true
    | none =>
      let s := load s key area
      if (s.ctx key).resuming then (s.updCtx key fun c => { c with resuming := false }).tellPhase key else s

theorem restore_eq_restoreBy (s : State) (key : Nat) : s.restore key = restoreBy State.areaFault State.loadContext s key := rfl

section
variable {fault : State → Nat → Mem → Option Nat} {load : State → Nat → Mem → State} {s : State} {key len : Nat}
  (h : (s.ctx key).startAs = none) (hlen : saveLen (s.ctxCores key).length = len)
include h hlen

theorem restoreBy_fault {r : Nat} (hf : fault (s.billRead key len) key (s.guestBytes key (s.saveBase key) len) = some r) :
    restoreBy fault load s key = (s.billRead key len).loseContext key r true true := by
  subst hlen
  simp only [restoreBy, h, hf]

theorem restoreBy_sound {t : State} (ht : load (s.billRead key len) key (s.guestBytes key (s.saveBase key) len) = t)
    (hf : fault (s.billRead key len) key (s.guestBytes key (s.saveBase key) len) = none) :
    restoreBy fault load s key = if (t.ctx key).resuming then (t.updCtx key fun c => { c with resuming := false }).tellPhase key else t := by
  subst hlen
  simp only [restoreBy, h, hf, ht]

end

theorem restore_loaded {s : State} {key len : Nat} (hsome : (SMap.find? s.ctxs key).isSome = true) (h : (s.ctx key).startAs = none)
    (hlen : saveLen (s.ctxCores key).length = len)
    (hf : (s.billRead key len).areaFault key (s.guestBytes key (s.saveBase key) len) = none) :
    ((s.restore key).ctx key).phase = .running ∧ ((s.restore key).ctx key).restarts = (s.ctx key).restarts ∧ ((s.restore key).ctx key).kept = [] := by
  have hview := (view_loadContext (s.billRead key len) key (s.guestBytes key (s.saveBase key) len)).trans
    (congrArg (editView · key loaded) (view_billRead ..))
  generalize hu : (s.billRead key len).loadContext key (s.guestBytes key (s.saveBase key) len) = u at hview
  rw [restore_eq_restoreBy, restoreBy_sound h hlen hu hf]
  obtain ⟨b, hb⟩ := view_resumed u key
  rw [hview, editView_editView] at hb
  have hframe := frame_of_edit_self hb hsome
  exact ⟨phase_eq_of_frame hframe, restarts_eq_of_frame hframe, kept_eq_nil_of_frame hframe rfl⟩

theorem restore_fault {s : State} {key len r : Nat} (hphase : (s.ctx key).phase = .saved 0) (h : (s.ctx key).startAs = none)
    (hlen : saveLen (s.ctxCores key).length = len)
    (hf : (s.billRead key len).areaFault key (s.guestBytes key (s.saveBase key) len) = some r) :
    ((s.restore key).ctx key).phase = .running ∧ ((s.restore key).ctx key).lostReason = r ∧
      Launched s (s.restore key) key r (s.ctx key).restarts := by
  rw [restore_eq_restoreBy, restoreBy_fault h hlen hf]
  exact restore_lost (isSome_of_phase (by rw [hphase]; exact nofun)) (view_billRead ..) (congrArg Prod.fst (running_updCtx ..)) (by rw [Context.present, hphase])

theorem restoreReady_phase {s : State} {key : Nat} (h : s.restoreReady key = true) : (s.ctx key).phase = .saved 0 := by
  simp only [State.restoreReady, Bool.and_eq_true, decide_eq_true_eq] at h
  exact h.1.1

/-! ## The end of a slice (R363) -/

theorem sliceEnds_phase {s : State} {key occ : Nat} (h : s.sliceEnds key occ = true) : (s.ctx key).phase = .running := by
  simp only [State.sliceEnds, Bool.and_eq_true, decide_eq_true_eq] at h
  exact h.1

theorem startSave_phase {s : State} {key : Nat} (h : (s.ctx key).phase = .running) (occ : Nat) :
    ((s.startSave key occ).ctx key).phase = .saving occ :=
  phase_eq_of_frame (frame_of_edit_self (view_startSave s key occ) (isSome_of_phase (by rw [h]; exact nofun)))

/-! ## D3hot (R409) -/

section
variable {s : State} {key : Nat}

theorem stopCtx_running (h : (s.ctx key).phase = .running) : s.stopCtx key = s.startSave key 1 := by
  rw [State.stopCtx, h]

theorem stopCtx_away (h : (s.ctx key).phase = .created ∨ (s.ctx key).phase = .lost) : s.stopCtx key = s := by
  unfold State.stopCtx
  rcases h with h | h <;> rw [h]

/-- A context whose members have withdrawn, with the phase that its stop gives it. -/
theorem withdrawn_phase (h : (s.ctx key).phase ≠ .created) (p : CtxPhase) :
    (((s.withdrawAll key true).updCtx key fun c => { c with phase := p }).ctx key).phase = p := by
  refine phase_eq_of_frame (frame_of_edit_self ((view_setPhase ..).trans (congrArg (editView · key (phased p)) (view_withdrawAll ..))) ?_)
  exact isSome_of_phase h

theorem stopCtx_saved (h : (s.ctx key).phase = .saved 0) : ((s.stopCtx key).ctx key).phase = .saved 1 := by
  have heq : s.stopCtx key = (s.withdrawAll key true).updCtx key fun c => { c with phase := .saved 1 } := by
    simp only [State.stopCtx, h]
  rw [heq]
  exact withdrawn_phase (by rw [h]; exact nofun) _

theorem stopCtx_saving (h : (s.ctx key).phase = .saving 0) : ((s.stopCtx key).ctx key).phase = .saving 1 := by
  have heq : s.stopCtx key = (s.withdrawAll key true).updCtx key fun c => { c with phase := .saving 1 } := by
    simp only [State.stopCtx, h]
  rw [heq]
  exact withdrawn_phase (by rw [h]; exact nofun) _

end

/-! ## The reset of a function (R374, R400) -/

theorem SMap.mem_set_self {α : Type} (m : SMap α) (k : Nat) (v : α) : (k, v) ∈ SMap.set m k v := by
  fun_induction SMap.set m k v <;> simp [*]

/-- A new value with a property that the old one has changes nothing of who has it. -/
theorem SMap.exists_mem_set {α : Type} {p : α → Prop} {m : SMap α} {d v : α} {k : Nat} (hd : ¬ p d) (hv : p v ↔ p (SMap.get m d k)) :
    (∃ x ∈ SMap.set m k v, p x.2) ↔ ∃ x ∈ m, p x.2 := by
  induction m with
  | nil => simpa [SMap.set] using fun h => hd (hv.1 h)
  | cons a t ih =>
    obtain ⟨j, w⟩ := a
    by_cases hj : j = k
    · subst hj
      have hw : p v ↔ p w := by simpa [SMap.get, SMap.find?] using hv
      simp [SMap.set, hw]
    · have hget : SMap.get ((j, w) :: t) d k = SMap.get t d k := by simp [SMap.get, SMap.find?, hj]
      rw [hget] at hv
      unfold SMap.set
      split
      · have hmem : p v → ∃ x ∈ t, p x.2 := fun h => (ih hv).1 ⟨(k, v), SMap.mem_set_self t k v, h⟩
        simp only [List.mem_cons, exists_eq_or_imp]
        tauto
      · rw [if_neg (Ne.symm hj)]
        simp only [List.mem_cons, exists_eq_or_imp, ih hv]

/-- Asking a function for a reset leaves what it is busy with. -/
theorem fnBusy_asked (s : State) (fn : Nat) : (s.updFn fn fun h => { h with flr := true }).fnBusy fn = true ↔
    s.stopping fn = true ∨ (fn = 0 ∧ ∃ h ∈ s.host, h.2.resetBy ≠ none) := by
  have hhost : (∃ h ∈ (s.updFn fn fun h => { h with flr := true }).host, h.2.resetBy ≠ none) ↔ ∃ h ∈ s.host, h.2.resetBy ≠ none :=
    SMap.exists_mem_set (p := fun h : HostFn => h.resetBy ≠ none) (d := {}) (by simp) Iff.rfl
  have hany (l : SMap HostFn) : (l.any fun h => h.2.resetBy.isSome) = true ↔ ∃ h ∈ l, h.2.resetBy ≠ none := by
    simp [Option.isSome_iff_ne_none]
  rw [State.fnBusy, Bool.or_eq_true, Bool.and_eq_true, hany, hhost, beq_iff_eq]
  exact Iff.rfl

section
variable (s : State) (fn : Nat)

theorem ctxs_abortQueue : (s.abortQueue fn).ctxs = s.ctxs :=
  foldl_keeps State.ctxs (fun s (d : Desc) => s.complete fn d.htag 5 0) (fun _ _ => rfl) _ _

/-- An ended queue is empty; the reset that its function was asked for stays. -/
theorem asked_abortQueue : ((s.abortQueue fn).fnOf fn).asked = ([], (s.fnOf fn).resetBy) := by
  have hdone : ((((s.fnOf fn).queue.foldl (fun s d => s.complete fn d.htag 5 0) s).fnOf fn).asked) = (s.fnOf fn).asked :=
    foldl_keeps (fun u : State => (u.fnOf fn).asked) (fun s (d : Desc) => s.complete fn d.htag 5 0) (fun u d => asked_of_view (view_complete ..) fn) _ _
  have hself := congrArg HostFn.asked (CommandQueue.fnOf_updFn_self ((s.fnOf fn).queue.foldl (fun s d => s.complete fn d.htag 5 0) s) fn
    fun h => { h with queue := [] })
  exact hself.trans (congrArg (fun x : List Desc × Option (BitVec 32) => ([], x.2)) hdone)

theorem asked_resetCtxs (keys : List Nat) : ((keys.foldl State.resetCtx s).fnOf fn).asked = (s.fnOf fn).asked :=
  foldl_keeps (fun u : State => (u.fnOf fn).asked) State.resetCtx (fun u key => by
    obtain ⟨F, hF, -⟩ := view_resetCtx u key
    exact asked_of_edit hF fn) _ _

theorem flr_complete (gn : Nat) (tag : BitVec 32) (sts v : Nat) : ((s.complete gn tag sts v).fnOf fn).flr = (s.fnOf fn).flr := by
  unfold State.complete
  by_cases h : fn = gn
  · rw [h, CommandQueue.fnOf_updFn_self]
  · rw [CommandQueue.fnOf_updFn_ne _ _ h]

/-- The contexts and the queue of a function reset, before it is told. -/
def resetParts : State := ((s.keysOfFn fn).foldl State.resetCtx (s.abortQueue fn)).wakeGates

theorem asked_resetParts : ((resetParts s fn).fnOf fn).asked = ([], (s.fnOf fn).resetBy) := by
  rw [resetParts, asked_of_view (view_wakeGates _), asked_resetCtxs, asked_abortQueue]

/-- The part with a function told that its reset is over. -/
def told : State := (resetParts s fn).updFn fn fun h => { h with flr := false, resetBy := none }

/-- A reset ends with its function told that it is over, and its asker with it. -/
theorem resetFn_eq : s.resetFn fn = match (s.fnOf fn).resetBy with
    | some htag => (told s fn).complete 0 htag 0 0
    | none => told s fn := by
  have hby : ((resetParts s fn).fnOf fn).resetBy = (s.fnOf fn).resetBy := congrArg Prod.snd (asked_resetParts s fn)
  rw [← hby]
  rfl

theorem queue_told : ((told s fn).fnOf fn).queue = [] :=
  (congrArg HostFn.queue (CommandQueue.fnOf_updFn_self ..)).trans (congrArg Prod.fst (asked_resetParts s fn))

theorem resetFn_told : (s.resetFn fn).ctxs = (resetParts s fn).ctxs ∧ ((s.resetFn fn).fnOf fn).queue = [] ∧ ((s.resetFn fn).fnOf fn).flr = false := by
  have hflr : ((told s fn).fnOf fn).flr = false := congrArg HostFn.flr (CommandQueue.fnOf_updFn_self ..)
  rw [resetFn_eq]
  split
  · exact ⟨rfl, (queue_of_view (view_complete ..) fn).trans (queue_told s fn), (flr_complete ..).trans hflr⟩
  · exact ⟨rfl, queue_told s fn, hflr⟩

theorem view_resetParts {s : State} {fn key : Nat} (hk : s.keysOfFn fn = [key]) : ∃ F,
    (resetParts s fn).view = editView (s.abortQueue fn).view key F ∧ ∀ x, ∃ st, F x = reset (discarded ({ x.1 with stopper := st }, x.2)) := by
  obtain ⟨F, hF, hx⟩ := view_resetCtx (s.abortQueue fn) key
  refine ⟨F, ?_, hx⟩
  rw [resetParts, hk, view_wakeGates, List.foldl_cons, List.foldl_nil]
  exact hF

/-- The one context of a function that is reset. -/
theorem resetFn_ctx {s : State} {fn key : Nat} (hk : s.keysOfFn fn = [key]) :
    ((s.resetFn fn).ctx key).phase = .created ∧ ((s.resetFn fn).ctx key).image = none ∧ ((s.resetFn fn).ctx key).s2len = (s.ctx key).s2len ∧
      ((s.resetFn fn).ctx key).job = (s.ctx key).job ∧ ((s.resetFn fn).ctx key).counters = (s.ctx key).counters := by
  have hctxs := ctxs_abortQueue s fn
  have hmem : key ∈ s.keysOfFn fn := hk ▸ List.mem_singleton_self _
  have hsome : (SMap.find? (s.abortQueue fn).ctxs key).isSome = true := by
    obtain ⟨p, hp, rfl⟩ := List.mem_map.1 hmem
    rw [hctxs]
    exact SMap.isSome_find?_of_mem (List.mem_filter.1 hp).1
  obtain ⟨F, hF, hx⟩ := view_resetParts hk
  have hreset : (s.resetFn fn).ctx key = (resetParts s fn).ctx key := by simp only [State.ctx, (resetFn_told s fn).1]
  have hframe := frame_of_edit_self hF hsome
  rw [← hreset] at hframe
  have hctx : (s.abortQueue fn).ctx key = s.ctx key := by simp only [State.ctx, hctxs]
  obtain ⟨st, hst⟩ := hx ((s.abortQueue fn).ctx key).frame
  rw [hst, hctx] at hframe
  exact ⟨congrArg (·.1.phase) hframe, congrArg (·.1.image) hframe, congrArg (·.1.s2len) hframe, congrArg (·.1.job) hframe,
    congrArg (·.1.counters) hframe⟩

end

/-! ## The steps -/

theorem execSliceEnd_saves {part fn occ : Nat} {s : State} (h : s.sliceEnds (ctxKey part fn) occ = true) :
    execSliceEnd part fn occ s = .next (s.startSave (ctxKey part fn) occ) := by
  rw [execSliceEnd, if_pos h]

theorem execContextRestore_restores {part fn : Nat} {s : State} (h : s.restoreReady (ctxKey part fn) = true) :
    execContextRestore part fn s = .next (s.restore (ctxKey part fn)) := by
  rw [execContextRestore, if_pos h]

section
variable {fn : Nat} {s : State} (hfn : fn ≤ 96) (hp : s.mgmt.power = .ready)
include hfn hp

theorem execD3hotEntry_stops : execD3hotEntry fn s = .next ((s.keysOfFn fn).foldl State.stopCtx s) := by
  rw [execD3hotEntry, if_neg (by omega), if_neg (by simp [hp])]

theorem execFunctionLevelReset_asks : execFunctionLevelReset fn s = .next (s.askReset fn none) := by
  rw [execFunctionLevelReset, if_neg (by omega), if_neg (by simp [hp])]

end

theorem askReset_none (s : State) (fn : Nat) : s.askReset fn none =
    if (s.updFn fn fun h => { h with flr := true }).fnBusy fn then s.updFn fn fun h => { h with flr := true }
    else (s.updFn fn fun h => { h with flr := true }).resetFn fn := rfl

/-- Settles O51: the start and the end of a save, the forced save, the restore, and the stop and the reset of a function. -/
theorem contextSteps : Obligations.context_steps := by
  refine ⟨fun part fn occ s h => ?_, fun core s sl k h hf => execForcedSave_still h hf, fun part fn occ s h => execContextSave_saved h,
    fun part fn s h => ?_, fun fn s hfn hp => ⟨fun hk => ?_, fun key hk => ?_, fun hb => ?_, fun hb => ?_⟩⟩
  · exact ⟨_, execSliceEnd_saves h, startSave_phase (sliceEnds_phase h) occ,
      fun n sl k hn ha hh ht he hd hw => startSave_task hn ha hh ht he hw hd⟩
  · have hphase := restoreReady_phase h
    have hexec := execContextRestore_restores h
    refine ⟨fun why hw => ⟨_, hexec, ?_⟩, fun hn => ⟨fun hf => ⟨_, hexec, ?_⟩, fun r hf => ⟨_, hexec, ?_⟩⟩⟩
    · exact restore_start (isSome_of_phase (by rw [hphase]; exact nofun)) hw
    · exact restore_loaded (isSome_of_phase (by rw [hphase]; exact nofun)) hn rfl hf
    · exact restore_fault hphase hn rfl hf
  · exact (execD3hotEntry_stops hfn hp).trans (by rw [hk, List.foldl_nil])
  · have hexec : execD3hotEntry fn s = .next (s.stopCtx key) := (execD3hotEntry_stops hfn hp).trans (by rw [hk, List.foldl_cons, List.foldl_nil])
    exact ⟨fun h => hexec.trans (by rw [stopCtx_running h]), fun h => ⟨_, hexec, stopCtx_saved h⟩, fun h => ⟨_, hexec, stopCtx_saving h⟩,
      fun h => hexec.trans (by rw [stopCtx_away h])⟩
  · refine (execFunctionLevelReset_asks hfn hp).trans ?_
    rw [askReset_none, if_pos ((fnBusy_asked s fn).2 hb)]
  · obtain ⟨-, hqueue, hflr⟩ := resetFn_told (s.updFn fn fun h => { h with flr := true }) fn
    refine ⟨(s.updFn fn fun h => { h with flr := true }).resetFn fn, ?_, hqueue, hflr, fun key hk => ?_⟩
    · refine (execFunctionLevelReset_asks hfn hp).trans ?_
      rw [askReset_none, if_neg fun h => hb ((fnBusy_asked s fn).1 h)]
    · exact resetFn_ctx (s := s.updFn fn fun h => { h with flr := true }) hk

end Sys2Proof.Machine.ContextSteps
end

