-- ==== Sys2Proof/Proofs/PartitionCommands.lean ====
section
/-!
The commands that create and destroy a partition and move a granule (R355 to R359, R362, R401).
-/
namespace Sys2Proof.Machine.PartitionCommands

open CommandQueue

theorem SMap.find?_erase_self {α : Type} (m : SMap α) (k : Nat) : SMap.find? (SMap.erase m k) k = none := by
  induction m with
  | nil => rfl
  | cons p t ih =>
    by_cases h : p.1 = k <;> simp_all [SMap.erase, SMap.find?]

theorem SMap.find?_erase_ne {α : Type} (m : SMap α) {k j : Nat} (h : j ≠ k) : SMap.find? (SMap.erase m k) j = SMap.find? m j := by
  induction m with
  | nil => rfl
  | cons p t ih =>
    by_cases hk : p.1 = k
    · simp_all [SMap.erase, SMap.find?, Ne.symm h]
    · simp_all [SMap.erase, SMap.find?]

/-! ## The creation of a partition (R355 to R359) -/

section
variable {d : Desc} {s : State} {fn : Nat}

/-- The functions that a creation names. -/
def namedFns (d : Desc) : List Nat := [operand d 6 1, operand d 7 1].filter (· != 0)

/-- The partition that a creation makes. -/
def newPart (d : Desc) : Partition :=
  if operand d 7 1 = 0 then ⟨operand d 0 6, operand d 6 1, operand d 6 1, 0, operand d 10 2⟩
  else ⟨operand d 0 6, operand d 6 1, operand d 7 1, operand d 8 1, operand d 10 2⟩

/-- The slices of two functions that share a partition are long enough (R359). -/
def SlicesFit (d : Desc) : Prop :=
  1 ≤ operand d 8 1 ∧ operand d 8 1 ≤ 63 ∧ 704 + (operand d 10 2 + 63) / 64 ≤ 64 * operand d 8 1 ∧
    704 + (operand d 10 2 + 63) / 64 ≤ 4096 - 64 * operand d 8 1

theorem slicesOk_iff {mask f g split hcap : Nat} (hne : f ≠ g) : (⟨mask, f, g, split, hcap⟩ : Partition).slicesOk = true ↔
    1 ≤ split ∧ split ≤ 63 ∧ 704 + (hcap + 63) / 64 ≤ 64 * split ∧ 704 + (hcap + 63) / 64 ≤ 4096 - 64 * split := by
  rcases Nat.lt_or_gt_of_ne hne with h | h
  · have hf : min f g = f := by omega
    simp [Partition.slicesOk, Partition.slice, Partition.saveSlots, hf, hne.symm]
    omega
  · have hg : min f g = g := by omega
    simp [Partition.slicesOk, Partition.slice, Partition.saveSlots, hg, hne]
    omega

/-- Steps that change the schedulers' tables only, one after another. -/
theorem foldl_hts {α : Type} {g : State → α → State} (h : ∀ s x, ∃ m, g s x = { s with hts := m }) (l : List α) (s : State) :
    ∃ m, l.foldl g s = { s with hts := m } := by
  induction l generalizing s with
  | nil => exact ⟨s.hts, rfl⟩
  | cons x l ih =>
    obtain ⟨m, hm⟩ := h s x
    obtain ⟨n, hn⟩ := ih { s with hts := m }
    exact ⟨n, by rw [List.foldl_cons, hm, hn]⟩

theorem createCtx_shape (s : State) (part fn mask : Nat) (shared second : Bool) : ∃ m, s.createCtx part fn mask shared second =
    { s with
      hts := m
      ctxs := SMap.set s.ctxs (ctxKey part fn)
        { s2len := 5120 * (granulesOf mask).length, s2base := s.arrayFrame mask * Config.frameBytes
          s2 := stage2Of s.takenFrames mask shared second } } := by
  simp only [State.createCtx, State.setWeights]
  generalize SMap.set s.ctxs (ctxKey part fn) _ = cs
  obtain ⟨m, hm⟩ := foldl_hts (g := fun s g => State.giveSlots s (ctxKey part fn) shared second g) (fun s g => ⟨_, rfl⟩) (granulesOf mask)
    { s with ctxs := cs }
  rw [hm]
  exact foldl_hts (fun _ _ => ⟨_, rfl⟩) (List.range Config.nClusters) { s with ctxs := cs, hts := m }

/-- A context as its creation leaves it: its array maps usable partition frames of its granules. -/
def Fresh (retired : List Nat) (mask : Nat) (c : Context) : Prop :=
  c.phase = .created ∧ c.s2len = 5120 * (granulesOf mask).length ∧
    ∀ x ∈ c.s2, x.2.pfn ∉ retired ∧ mask.testBit (x.2.pfn / 5120) = true ∧ x.2.pfn % 5120 < 5088

theorem mem_framesFor {out : List Nat} {shared second : Bool} {g f : Nat} (hs : second = true → shared = true)
    (h : f ∈ framesFor out shared second g) : f ∉ out ∧ f / 5120 = g ∧ f % 5120 < 5088 := by
  simp only [framesFor, List.mem_filter, List.mem_map, List.mem_range, Config.framesPerGroup, Config.firstPlatform] at h
  obtain ⟨⟨i, hi, rfl⟩, hout⟩ := h
  refine ⟨by simpa using hout, ?_⟩
  cases shared <;> cases second <;> simp at hi hs ⊢ <;> omega

theorem fresh_stage2Of {s : State} {mask base : Nat} {shared second : Bool} (hs : second = true → shared = true) :
    Fresh s.mgmt.retired mask
      { s2len := 5120 * (granulesOf mask).length, s2base := base, s2 := stage2Of s.takenFrames mask shared second } := by
  refine ⟨rfl, rfl, fun x hx => ?_⟩
  obtain ⟨i, hi, rfl⟩ := List.mem_mapIdx.1 hx
  obtain ⟨g, hg, hf⟩ := List.mem_flatMap.1 (List.getElem_mem hi)
  obtain ⟨hout, hdiv, hmod⟩ := mem_framesFor hs hf
  exact ⟨fun h => hout (List.mem_append_left _ h), by rw [hdiv]; exact (List.mem_filter.1 hg).2, hmod⟩

theorem createCtx_keeps (s : State) (part fn mask : Nat) (shared second : Bool) :
    (s.createCtx part fn mask shared second).parts = s.parts ∧ (s.createCtx part fn mask shared second).bu = s.bu ∧
      (s.createCtx part fn mask shared second).dram = s.dram ∧ (s.createCtx part fn mask shared second).mgmt = s.mgmt := by
  obtain ⟨m, hm⟩ := createCtx_shape s part fn mask shared second
  rw [hm]
  exact ⟨rfl, rfl, rfl, rfl⟩

theorem createCtx_self (s : State) (part fn mask : Nat) {shared second : Bool} (hs : second = true → shared = true) :
    Fresh s.mgmt.retired mask ((s.createCtx part fn mask shared second).ctx (ctxKey part fn)) := by
  obtain ⟨m, hm⟩ := createCtx_shape s part fn mask shared second
  rw [hm, State.ctx, SMap.get_set_self]
  exact fresh_stage2Of hs

theorem createCtx_ne (s : State) (part fn mask : Nat) (shared second : Bool) {k : Nat} (hk : k ≠ ctxKey part fn) :
    (s.createCtx part fn mask shared second).ctx k = s.ctx k := by
  obtain ⟨m, hm⟩ := createCtx_shape s part fn mask shared second
  rw [hm, State.ctx, SMap.get_set_ne _ _ _ _ _ hk]
  rfl

/-- A partition entered in the table, with the serials of its number begun anew. -/
def enterPart (s : State) (part : Nat) (p : Partition) : State :=
  { s with parts := SMap.set s.parts part p, bu := { s.bu with serials := SMap.erase s.bu.serials part } }

/-- A partition entered with its contexts. -/
def settle (s : State) (part : Nat) (p : Partition) (shared : Bool) : State :=
  if shared then ((enterPart s part p).createCtx part (min p.fn0 p.fn1) p.gmask true false).createCtx part (max p.fn0 p.fn1) p.gmask true true
  else (enterPart s part p).createCtx part p.fn0 p.gmask false false

theorem settle_keeps (s : State) (part : Nat) (p : Partition) (shared : Bool) : (settle s part p shared).parts = SMap.set s.parts part p ∧
    (settle s part p shared).bu.serials = SMap.erase s.bu.serials part ∧ (settle s part p shared).dram = s.dram := by
  unfold settle
  split
  · obtain ⟨hp, hb, hd, -⟩ := createCtx_keeps ((enterPart s part p).createCtx part (min p.fn0 p.fn1) p.gmask true false) part (max p.fn0 p.fn1)
      p.gmask true true
    obtain ⟨hp', hb', hd', -⟩ := createCtx_keeps (enterPart s part p) part (min p.fn0 p.fn1) p.gmask true false
    exact ⟨hp.trans hp', congrArg BookUnit.serials (hb.trans hb'), hd.trans hd'⟩
  · obtain ⟨hp, hb, hd, -⟩ := createCtx_keeps (enterPart s part p) part p.fn0 p.gmask false false
    exact ⟨hp, congrArg BookUnit.serials hb, hd⟩

theorem settle_alone (s : State) (part : Nat) (p : Partition) :
    Fresh s.mgmt.retired p.gmask ((settle s part p false).ctx (ctxKey part p.fn0)) := by
  rw [settle, if_neg Bool.false_ne_true]
  exact createCtx_self (enterPart s part p) part p.fn0 p.gmask nofun

theorem settle_shared (s : State) (part : Nat) {p : Partition} (hne : p.fn0 ≠ p.fn1) :
    Fresh s.mgmt.retired p.gmask ((settle s part p true).ctx (ctxKey part p.fn0)) ∧
      Fresh s.mgmt.retired p.gmask ((settle s part p true).ctx (ctxKey part p.fn1)) := by
  let v := (enterPart s part p).createCtx part (min p.fn0 p.fn1) p.gmask true false
  have hkept : v.mgmt = s.mgmt := (createCtx_keeps ..).2.2.2
  have hmax : Fresh s.mgmt.retired p.gmask ((settle s part p true).ctx (ctxKey part (max p.fn0 p.fn1))) := by
    have h := createCtx_self v part (max p.fn0 p.fn1) p.gmask (shared := true) (second := true) fun _ => rfl
    rw [hkept] at h
    rw [settle, if_pos rfl]
    exact h
  have hmin : Fresh s.mgmt.retired p.gmask ((settle s part p true).ctx (ctxKey part (min p.fn0 p.fn1))) := by
    have hk : ctxKey part (min p.fn0 p.fn1) ≠ ctxKey part (max p.fn0 p.fn1) := by
      unfold ctxKey
      omega
    have h := createCtx_self (enterPart s part p) part (min p.fn0 p.fn1) p.gmask (shared := true) (second := false) nofun
    rw [← createCtx_ne v part (max p.fn0 p.fn1) p.gmask true true hk] at h
    rw [settle, if_pos rfl]
    exact h
  rcases Nat.lt_or_gt_of_ne hne with h | h
  · rw [Nat.max_eq_right h.le] at hmax
    rw [Nat.min_eq_left h.le] at hmin
    exact ⟨hmin, hmax⟩
  · rw [Nat.max_eq_left h.le] at hmax
    rw [Nat.min_eq_right h.le] at hmin
    exact ⟨hmax, hmin⟩

/-- Two functions named for one partition, or one alone. -/
def shares (d : Desc) : Bool := operand d 7 1 != 0

/-- What breaks a limit of a creation. -/
def Breaks (d : Desc) : Prop :=
  operand d 0 6 = 0 ∨ 96 < operand d 6 1 ∨ 96 < operand d 7 1 ∨ (shares d = true ∧ (operand d 6 1 = operand d 7 1 ∨ ¬ SlicesFit d))

theorem breaks_of (hf : operand d 6 1 ≠ 0) : (operand d 0 6 = 0 ∨ (namedFns d).any (fun f => decide (96 < f)) = true ∨
    (shares d && (newPart d).fn0 == (newPart d).fn1) = true ∨ (shares d && !(newPart d).slicesOk) = true) ↔ Breaks d := by
  unfold Breaks
  by_cases hg : operand d 7 1 = 0
  · simp [namedFns, shares, hf, hg]
  · by_cases hfg : operand d 6 1 = operand d 7 1
    · simp [namedFns, newPart, shares, hg, hfg]
    · have hs : (newPart d).slicesOk = true ↔ SlicesFit d := by
        rw [newPart, if_neg hg]
        exact slicesOk_iff hfg
      simp [namedFns, shares, hf, hg, hfg, ← hs, newPart, or_assoc]

theorem shares_eq (hf : operand d 6 1 ≠ 0) : ((namedFns d).length == 2) = shares d := by
  by_cases hg : operand d 7 1 = 0 <;> simp [namedFns, shares, hf, hg]

theorem newPart_eq (hf : operand d 6 1 ≠ 0) : (⟨operand d 0 6, (namedFns d).headD 0, (namedFns d).getD 1 ((namedFns d).headD 0),
    if shares d then operand d 8 1 else 0, operand d 10 2⟩ : Partition) = newPart d := by
  by_cases hg : operand d 7 1 = 0 <;> simp [namedFns, shares, newPart, hf, hg]

/-- What a creation does once its limits hold. -/
def createBody (d : Desc) (v : State) : Cmd :=
  if v.parts.any (fun q => q.2.gmask &&& operand d 0 6 != 0) ∨ (namedFns d).any (fun f => (v.ctxOfFn f).isSome) then cmdWrongState v
  else
    match (List.range 48).find? fun i => (SMap.find? v.parts i).isNone with
    | none => cmdNoResource v
    | some part => .done 0 part (settle v part (newPart d) (shares d))

/-- What a creation does, for a descriptor that names a first function. -/
theorem execPartCreate_of (hf : operand d 6 1 ≠ 0) : execPartCreate d s = command d false false [(0, 9), (10, 2)] (fun v =>
    if operand d 0 6 = 0 ∨ (namedFns d).any (fun f => decide (96 < f)) ∨ (shares d && (newPart d).fn0 == (newPart d).fn1) ∨
      (shares d && !(newPart d).slicesOk)
    then cmdInvalid v else createBody d v) s := by
  unfold execPartCreate
  have hfns : [operand d 6 1, operand d 7 1].filter (· != 0) = namedFns d := rfl
  have hmask : (newPart d).gmask = operand d 0 6 := (congrArg Partition.gmask (newPart_eq hf)).symm
  have hfn0 : (newPart d).fn0 = (namedFns d).headD 0 := (congrArg Partition.fn0 (newPart_eq hf)).symm
  have hfn1 : (newPart d).fn1 = (namedFns d).getD 1 ((namedFns d).headD 0) := (congrArg Partition.fn1 (newPart_eq hf)).symm
  simp only [hfns, shares_eq hf, newPart_eq hf, createBody, settle, enterPart, hmask, hfn0, hfn1] <;> rfl

theorem partCreate_body (hf : operand d 6 1 ≠ 0) (hb : ¬ Breaks d) :
    execPartCreate d s = command d false false [(0, 9), (10, 2)] (createBody d) s := by
  rw [execPartCreate_of hf]
  simp only [if_neg fun h => hb ((breaks_of hf).1 h)]

/-- The limits of a creation that has none of the faults of `partCreate_invalid`. -/
theorem not_breaks (hm : operand d 0 6 ≠ 0) (hf : operand d 6 1 ≤ 96) (hg : operand d 7 1 ≤ 96)
    (h : operand d 7 1 ≠ 0 → operand d 6 1 ≠ operand d 7 1 ∧ SlicesFit d) : ¬ Breaks d := by
  rintro (hb | hb | hb | ⟨hs, hb⟩)
  · exact hm hb
  · omega
  · omega
  · obtain ⟨hne, hfit⟩ := h (by simpa [shares] using hs)
    exact hb.elim hne fun hb => hb hfit

section
variable (H : Takes s fn d false false [(0, 9), (10, 2)])
include H

theorem partCreate_invalid (h : operand d 0 6 = 0 ∨ 96 < operand d 6 1 ∨ 96 < operand d 7 1 ∨
    (operand d 6 1 ≠ 0 ∧ operand d 6 1 = operand d 7 1) ∨ (operand d 6 1 ≠ 0 ∧ operand d 7 1 ≠ 0 ∧ ¬ SlicesFit d)) :
    execPartCreate d s = .next ((s.takeDesc fn).complete fn d.htag 1 0) := by
  by_cases hf : operand d 6 1 = 0
  · have hlim : operand d 0 6 = 0 ∨ 96 < operand d 7 1 := by simpa [hf] using h
    unfold execPartCreate
    refine command_done H ?_
    rw [if_pos]
    · rfl
    · rcases hlim with h | h
      · exact .inl h
      · have hg : operand d 7 1 ≠ 0 := by omega
        simp [hf, hg, h]
  · have hb : Breaks d := by
      unfold Breaks shares
      rcases h with h | h | h | ⟨-, h⟩ | ⟨-, hg, h⟩
      · exact .inl h
      · exact .inr (.inl h)
      · exact .inr (.inr (.inl h))
      · exact .inr (.inr (.inr ⟨by simpa [← h] using hf, .inl h⟩))
      · exact .inr (.inr (.inr ⟨by simpa using hg, .inr h⟩))
    rw [execPartCreate_of hf]
    refine command_done H ?_
    rw [if_pos ((breaks_of hf).2 hb)]
    rfl

variable (hf : operand d 6 1 ≠ 0) (hb : ¬ Breaks d)
include hf hb

theorem partCreate_wrongState (h : (∃ q ∈ s.parts, q.2.gmask &&& operand d 0 6 ≠ 0) ∨ s.ctxOfFn (operand d 6 1) ≠ none ∨
    (operand d 7 1 ≠ 0 ∧ s.ctxOfFn (operand d 7 1) ≠ none)) : execPartCreate d s = .next ((s.takeDesc fn).complete fn d.htag 4 0) := by
  rw [partCreate_body hf hb]
  refine command_done H ?_
  rw [createBody, if_pos]
  · rfl
  · rcases h with ⟨q, hq, h⟩ | h | ⟨hg, h⟩
    · exact .inl (List.any_eq_true.2 ⟨q, hq, by simpa using h⟩)
    · exact .inr (List.any_eq_true.2 ⟨_, by simp [namedFns, hf], Option.isSome_iff_ne_none.2 h⟩)
    · exact .inr (List.any_eq_true.2 ⟨_, by simp [namedFns, hf, hg], Option.isSome_iff_ne_none.2 h⟩)

variable (hparts : ∀ q ∈ s.parts, q.2.gmask &&& operand d 0 6 = 0) (hcf : s.ctxOfFn (operand d 6 1) = none)
  (hcg : operand d 7 1 ≠ 0 → s.ctxOfFn (operand d 7 1) = none)
include hparts hcf hcg

omit H hb in
theorem createBody_free : createBody d (s.takeDesc fn) =
    match (List.range 48).find? fun i => (SMap.find? s.parts i).isNone with
    | none => cmdNoResource (s.takeDesc fn)
    | some part => .done 0 part (settle (s.takeDesc fn) part (newPart d) (shares d)) := by
  rw [createBody, if_neg]
  · rfl
  · rintro (h | h)
    · obtain ⟨q, hq, h⟩ := List.any_eq_true.1 h
      simp [hparts q hq] at h
    · obtain ⟨f, hfn, h⟩ := List.any_eq_true.1 h
      have hnone : s.ctxOfFn f = none := by
        by_cases hg : operand d 7 1 = 0
        · have : f = operand d 6 1 := by simpa [namedFns, hf, hg] using hfn
          exact this ▸ hcf
        · have : f = operand d 6 1 ∨ f = operand d 7 1 := by simpa [namedFns, hf, hg] using hfn
          rcases this with rfl | rfl
          · exact hcf
          · exact hcg hg
      exact absurd (Option.isSome_iff_ne_none.1 h) (not_not.2 hnone)

theorem partCreate_full (h : ∀ i, i < 48 → SMap.find? s.parts i ≠ none) :
    execPartCreate d s = .next ((s.takeDesc fn).complete fn d.htag 3 0) := by
  have hnone : ((List.range 48).find? fun i => (SMap.find? s.parts i).isNone) = none :=
    List.find?_eq_none.2 fun i hi => by simpa using h i (List.mem_range.1 hi)
  rw [partCreate_body hf hb]
  refine command_done H ?_
  rw [createBody_free hf hparts hcf hcg, hnone]
  rfl

theorem partCreate_made {i : Nat} (hi : i < 48) (hfree : SMap.find? s.parts i = none) (hfirst : ∀ j, j < i → SMap.find? s.parts j ≠ none) :
    execPartCreate d s = .next ((settle (s.takeDesc fn) i (newPart d) (shares d)).complete fn d.htag 0 i) := by
  have hfind : ((List.range 48).find? fun i => (SMap.find? s.parts i).isNone) = some i := by
    rw [List.find?_range_eq_some]
    exact ⟨by simp [hfree], List.mem_range.2 hi, fun j hj => by simpa [Option.isSome_iff_ne_none] using hfirst j hj⟩
  rw [partCreate_body hf hb]
  refine command_done H ?_
  rw [createBody_free hf hparts hcf hcg, hfind]

end

/-- The partition that a creation makes, and its contexts. -/
theorem settle_made (s : State) (hg : operand d 7 1 ≠ 0 → operand d 6 1 ≠ operand d 7 1) (i : Nat) :
    SMap.find? (settle s i (newPart d) (shares d)).parts i = some (newPart d) ∧
      (∀ j, j ≠ i → SMap.find? (settle s i (newPart d) (shares d)).parts j = SMap.find? s.parts j) ∧
      SMap.find? (settle s i (newPart d) (shares d)).bu.serials i = none ∧
      Fresh s.mgmt.retired (operand d 0 6) ((settle s i (newPart d) (shares d)).ctx (ctxKey i (operand d 6 1))) ∧
      (operand d 7 1 ≠ 0 → Fresh s.mgmt.retired (operand d 0 6) ((settle s i (newPart d) (shares d)).ctx (ctxKey i (operand d 7 1)))) ∧
      (settle s i (newPart d) (shares d)).dram = s.dram := by
  obtain ⟨hparts, hserials, hdram⟩ := settle_keeps s i (newPart d) (shares d)
  refine ⟨?_, fun j hj => ?_, ?_, ?_, fun h => ?_, hdram⟩
  · rw [hparts, SMap.find?_set_self]
  · rw [hparts, SMap.find?_set_ne _ _ _ _ hj]
  · rw [hserials, SMap.find?_erase_self]
  · by_cases h : operand d 7 1 = 0
    · have hp : newPart d = ⟨operand d 0 6, operand d 6 1, operand d 6 1, 0, operand d 10 2⟩ := if_pos h
      rw [show shares d = false by simp [shares, h], hp]
      exact settle_alone s i _
    · have hp : newPart d = ⟨operand d 0 6, operand d 6 1, operand d 7 1, operand d 8 1, operand d 10 2⟩ := if_neg h
      rw [show shares d = true by simp [shares, h], hp]
      exact (settle_shared s i (hg h)).1
  · have hp : newPart d = ⟨operand d 0 6, operand d 6 1, operand d 7 1, operand d 8 1, operand d 10 2⟩ := if_neg h
    rw [show shares d = true by simp [shares, h], hp]
    exact (settle_shared s i (hg h)).2

end

/-! ## The end of a partition (R401) -/

/-- What a destruction ends of a context before its entry goes. -/
theorem destroyCtx_ctxs (s : State) (key : Nat) : ∃ t : State, t.view = editView s.view key discarded ∧
    (s.destroyCtx key).ctxs = SMap.erase t.ctxs key := by
  have hjob (u : State) : (u.leaveJob key).view = u.view := by
    simp only [State.leaveJob]
    split <;> rfl
  have hlast (u : State) (fs : List Nat) : (((u.zeroFrames fs).lapseRequests key).clearPorts key 0 (2 ^ 48)).view = u.view := by
    rw [view_clearPorts, view_lapseRequests, view_zeroFrames]
  refine ⟨_, (hlast _ _).trans ((hjob _).trans ?_), rfl⟩
  rw [view_clearHts, view_refuseHeld, view_discardWork, view_cancelAll]

theorem find?_destroyCtx_self (s : State) (key : Nat) : SMap.find? (s.destroyCtx key).ctxs key = none := by
  obtain ⟨t, -, ht⟩ := destroyCtx_ctxs s key
  rw [ht, SMap.find?_erase_self]

theorem find?_destroyCtx_none {s : State} {k : Nat} (h : SMap.find? s.ctxs k = none) (key : Nat) : SMap.find? (s.destroyCtx key).ctxs k = none := by
  by_cases hk : k = key
  · rw [hk, find?_destroyCtx_self]
  · obtain ⟨t, hview, ht⟩ := destroyCtx_ctxs s key
    have hsome := isSome_of_edit hview k
    rw [h, Option.isSome_none, Option.isSome_eq_false_iff, Option.isNone_iff_eq_none] at hsome
    rw [ht, SMap.find?_erase_ne _ hk, hsome]

theorem find?_destroyAll_none {s : State} {k : Nat} (keys : List Nat) (h : SMap.find? s.ctxs k = none) :
    SMap.find? (keys.foldl State.destroyCtx s).ctxs k = none := by
  induction keys generalizing s with
  | nil => exact h
  | cons key keys ih => exact ih (find?_destroyCtx_none h key)

theorem find?_destroyAll_of_mem {k : Nat} (s : State) {keys : List Nat} (h : k ∈ keys) : SMap.find? (keys.foldl State.destroyCtx s).ctxs k = none := by
  induction keys generalizing s with
  | nil => cases h
  | cons key keys ih =>
    rcases List.mem_cons.1 h with rfl | h
    · exact find?_destroyAll_none keys (find?_destroyCtx_self s k)
    · exact ih _ h

/-- A part without a partition: its contexts gone, its cores as at reset. -/
def withoutPart (s : State) (part : Nat) (p : Partition) : State :=
  { (s.ctxsOf part).foldl State.destroyCtx s with
    parts := SMap.erase ((s.ctxsOf part).foldl State.destroyCtx s).parts part
    cores := ((s.ctxsOf part).foldl State.destroyCtx s).cores.filter fun c =>
      !((List.range Config.nCores).filter fun n => p.gmask.testBit (granuleOf n)).contains c.1 }

theorem core_withoutPart {s : State} {part n : Nat} {p : Partition} (hn : n < 768) (hg : p.gmask.testBit (n / 16) = true) :
    (withoutPart s part p).core n = {} := by
  have hmem : n ∈ (List.range Config.nCores).filter fun n => p.gmask.testBit (granuleOf n) :=
    List.mem_filter.2 ⟨List.mem_range.2 hn, hg⟩
  have hfind : ∀ (l : SMap Core) {ns : List Nat}, n ∈ ns → SMap.find? (l.filter fun c => !ns.contains c.1) n = none := fun l ns hns => by
    induction l with
    | nil => rfl
    | cons c l ih =>
      rw [List.filter_cons]
      split
      · next hc =>
        have hne : c.1 ≠ n := by
          rintro rfl
          simp [hns] at hc
        simpa only [SMap.find?, if_neg hne] using ih
      · exact ih
  rw [State.core, withoutPart, SMap.get, hfind _ hmem]
  rfl

section
variable {d : Desc} {s : State} {fn : Nat} (H : Takes s fn d false false [(0, 1)])
include H

theorem partDestroy_invalid (h : SMap.find? s.parts (operand d 0 1) = none) :
    execPartDestroy d s = .next ((s.takeDesc fn).complete fn d.htag 1 0) := by
  have h' : SMap.find? (s.takeDesc fn).parts (operand d 0 1) = none := h
  unfold execPartDestroy
  refine command_done H ?_
  simp only [h']
  rfl

theorem partDestroy_wrongState (h : SMap.find? s.parts (operand d 0 1) ≠ none)
    (hc : ∃ c ∈ s.ctxs, c.1 / 128 = operand d 0 1 ∧ (s.ctx c.1).stopped = false) :
    execPartDestroy d s = .next ((s.takeDesc fn).complete fn d.htag 4 0) := by
  obtain ⟨p, hp⟩ := Option.ne_none_iff_exists'.1 h
  have hp' : SMap.find? (s.takeDesc fn).parts (operand d 0 1) = some p := hp
  obtain ⟨c, hmem, hpart, hstop⟩ := hc
  unfold execPartDestroy
  refine command_done H ?_
  simp only [hp']
  rw [if_pos]
  · rfl
  · refine List.any_eq_true.2 ⟨c.1, List.mem_map_of_mem (List.mem_filter.2 ⟨hmem, by simpa using hpart⟩), ?_⟩
    have hstop' : ((s.takeDesc fn).ctx c.1).stopped = false := hstop
    rw [hstop']
    rfl

theorem partDestroy_done {p : Partition} (hp : SMap.find? s.parts (operand d 0 1) = some p)
    (hc : ∀ c ∈ s.ctxs, c.1 / 128 = operand d 0 1 → (s.ctx c.1).stopped = true) :
    execPartDestroy d s = .next ((withoutPart (s.takeDesc fn) (operand d 0 1) p).complete fn d.htag 0 0) := by
  have hp' : SMap.find? (s.takeDesc fn).parts (operand d 0 1) = some p := hp
  unfold execPartDestroy
  refine command_done H ?_
  simp only [hp']
  rw [if_neg]
  · rfl
  · intro h
    obtain ⟨k, hk, hstop⟩ := List.any_eq_true.1 h
    obtain ⟨c, hmem, rfl⟩ := List.mem_map.1 hk
    obtain ⟨hmem, hpart⟩ := List.mem_filter.1 hmem
    have hstopped : ((s.takeDesc fn).ctx c.1).stopped = true := hc c hmem (by simpa using hpart)
    simp [hstopped] at hstop

end

/-- What a destruction leaves of a partition and its contexts. -/
theorem withoutPart_gone (s : State) (part : Nat) (p : Partition) : SMap.find? (withoutPart s part p).parts part = none ∧
    (∀ c ∈ s.ctxs, c.1 / 128 = part → SMap.find? (withoutPart s part p).ctxs c.1 = none) ∧
    ∀ n, n < 768 → p.gmask.testBit (n / 16) = true → (withoutPart s part p).core n = {} :=
  ⟨SMap.find?_erase_self .., fun c hc hpart => find?_destroyAll_of_mem s (List.mem_map_of_mem (List.mem_filter.2 ⟨hc, by simpa using hpart⟩)),
    fun _ hn hg => core_withoutPart hn hg⟩

/-! ## The move of a granule (R357) -/

theorem SMap.find?_eq_none_of_lt {α : Type} {m : SMap α} {k : Nat} (h : ∀ p ∈ m, k < p.1) : SMap.find? m k = none := by
  induction m with
  | nil => rfl
  | cons p t ih =>
    have hp := h p List.mem_cons_self
    rw [SMap.find?, if_neg (by omega)]
    exact ih fun q hq => h q (List.mem_cons_of_mem _ hq)

/-- A write to a listed key of an ordered table leaves its keys. -/
theorem SMap.keys_set {α : Type} {m : SMap α} (hm : m.Pairwise fun x y => x.1 < y.1) {k : Nat} (h : (SMap.find? m k).isSome = true) (v : α) :
    (SMap.set m k v).map (·.1) = m.map (·.1) := by
  induction m with
  | nil => simp at h
  | cons p t ih =>
    obtain ⟨j, w⟩ := p
    obtain ⟨hj, ht⟩ := List.pairwise_cons.1 hm
    rcases Nat.lt_trichotomy k j with hk | rfl | hk
    · rw [SMap.find?_eq_none_of_lt] at h
      · cases h
      · intro p hp
        rcases List.mem_cons.1 hp with rfl | hp
        · exact hk
        · exact hk.trans (hj p hp)
    · simp [SMap.set]
    · rw [SMap.find?, if_neg (by omega)] at h
      rw [SMap.set, if_neg (by omega), if_neg (by omega), List.map_cons, ih ht h, List.map_cons]

/-- The contexts' table is in ascending order of keys. -/
def Ordered (s : State) : Prop := s.ctxs.Pairwise fun x y => x.1 < y.1

section
variable {s : State} (hs : Ordered s)
include hs

theorem keys_updCtx (k : Nat) (f : Context → Context) : (s.updCtx k f).ctxs.map (·.1) = s.ctxs.map (·.1) := by
  cases hf : SMap.find? s.ctxs k with
  | none => rw [State.updCtx, hf]
  | some c =>
    rw [State.updCtx_of_find? hf]
    exact SMap.keys_set hs (by rw [hf]; rfl) _

theorem ordered_of_keys {t : State} (h : t.ctxs.map (·.1) = s.ctxs.map (·.1)) : Ordered t := by
  have hmap (u : State) : Ordered u ↔ (u.ctxs.map (·.1)).Pairwise (· < ·) := List.pairwise_map.symm
  exact (hmap t).2 (h ▸ (hmap s).1 hs)

theorem ctxsOf_nodup (part : Nat) : (s.ctxsOf part).Nodup := by
  refine (List.pairwise_map.2 ?_).imp (R := fun x y : Nat => x < y) fun h => Nat.ne_of_lt h
  exact List.Pairwise.filter _ hs

theorem find?_of_mem_ctxsOf {part k : Nat} (h : k ∈ s.ctxsOf part) : k / 128 = part ∧ ∃ c, SMap.find? s.ctxs k = some c := by
  obtain ⟨c, hc, rfl⟩ := List.mem_map.1 h
  obtain ⟨hmem, hpart⟩ := List.mem_filter.1 hc
  exact ⟨by simpa using hpart, c.2, SMap.find?_of_mem hs hmem⟩

end

theorem mem_ctxsOf_of_find? {s : State} {part k : Nat} {c : Context} (h : SMap.find? s.ctxs k = some c) (hp : k / 128 = part) : k ∈ s.ctxsOf part := by
  obtain ⟨p, hp', rfl⟩ := List.mem_map.1 (SMap.mem_keys_of_isSome (by rw [h]; rfl))
  exact List.mem_map_of_mem (List.mem_filter.2 ⟨hp', by simpa using hp⟩)

theorem ctxsOf_of_keys {s t : State} (h : t.ctxs.map (·.1) = s.ctxs.map (·.1)) (part : Nat) : t.ctxsOf part = s.ctxsOf part := by
  have hkeys (u : State) : u.ctxsOf part = (u.ctxs.map (·.1)).filter fun k => k / 128 == part := by
    rw [State.ctxsOf, List.filter_map]
    rfl
  rw [hkeys, hkeys, h]

/-- Steps that each change one context, over contexts that differ. -/
theorem find?_updAll {g : State → Nat → State} {f : Context → Context} {I : State → Prop} (hI : ∀ u k, I u → I (g u k))
    (hg : ∀ u k, I u → (g u k).ctxs = (u.updCtx k f).ctxs) {l : List Nat} (hl : l.Nodup) {s : State} (hs : I s) (k : Nat) :
    SMap.find? (l.foldl g s).ctxs k = if k ∈ l then (SMap.find? s.ctxs k).map f else SMap.find? s.ctxs k := by
  induction l generalizing s with
  | nil => simp
  | cons j l ih =>
    obtain ⟨hj, hl⟩ := List.nodup_cons.1 hl
    have hstep : SMap.find? (g s j).ctxs k = if k = j then (SMap.find? s.ctxs k).map f else SMap.find? s.ctxs k := by
      rw [hg s j hs]
      by_cases hk : k = j
      · subst hk
        cases hf : SMap.find? s.ctxs k with
        | none => simp [State.updCtx, hf]
        | some c => rw [State.find?_updCtx_self hf, if_pos rfl, Option.map_some]
      · rw [if_neg hk]
        cases hf : SMap.find? s.ctxs j with
        | none => rw [State.updCtx, hf]
        | some c =>
          rw [State.updCtx_of_find? hf]
          exact SMap.find?_set_ne _ _ _ _ hk
    rw [List.foldl_cons, ih hl (hI s j hs), hstep]
    by_cases hk : k = j
    · subst hk
      simp [hj]
    · simp [hk]

theorem keys_updAll {g : State → Nat → State} {f : State → Context → Context} (hg : ∀ u k, (g u k).ctxs = (u.updCtx k (f u)).ctxs) (l : List Nat) {s : State}
    (hs : Ordered s) : (l.foldl g s).ctxs.map (·.1) = s.ctxs.map (·.1) := by
  induction l generalizing s with
  | nil => rfl
  | cons k l ih =>
    have hkeys : (g s k).ctxs.map (·.1) = s.ctxs.map (·.1) := by
      rw [hg]
      exact keys_updCtx hs k _
    exact (ih (ordered_of_keys hs hkeys)).trans hkeys

/-- A context without the idle frames that the move of a granule takes from it, as a state sees them. -/
def unmapped (s : State) (g : Nat) (c : Context) : Context := { c with s2 := c.s2.filter fun p => !(c.leavesWith g p && s.untouched p.2) }

/-- Idle frames leave a context and its ports. -/
def unmapStep (g : Nat) (s : State) (k : Nat) : State := (s.unmapIdle k g).clearPorts k 0 (2 ^ 48)

/-- The frames of a granule that nothing uses leave the contexts of a partition. -/
def moveIdle (s : State) (a g : Nat) : State := (s.ctxsOf a).foldl (unmapStep g) s

/-- The contexts of a partition lose the last granule of their arrays. -/
def moveShort (s : State) (a g : Nat) : State := (s.ctxsOf a).foldl (fun s k => s.shortenArray k) (moveIdle s a g)

/-- The granule between its partitions: zeroed, its cores as at reset, and in the mask of the second. -/
def moveOut (s : State) (a b g : Nat) (p q : Partition) : State :=
  let u := (moveShort s a g).zeroFrames ((List.range Config.firstPlatform).map fun i => g * Config.framesPerGroup + i)
  { u with
    cores := u.cores.filter fun c => granuleOf c.1 != g
    parts := SMap.set (SMap.set u.parts a { p with gmask := p.gmask - 2 ^ g }) b { q with gmask := q.gmask + 2 ^ g } }

/-- A context of the second partition gets the granule. -/
def giveStep (q : Partition) (g : Nat) (s : State) (k : Nat) : State :=
  let second := q.shared && k % 128 == max q.fn0 q.fn1
  ((s.mapGroup k g q.shared second).giveSlots k q.shared second g).retryLeases k

/-- The part after the move of a granule. -/
def moveIn (s : State) (a b g : Nat) (p q : Partition) : State :=
  ((moveOut s a b g p q).ctxsOf b).foldl (giveStep q g) (moveOut s a b g p q)

theorem updCtx_cores (s : State) (k : Nat) (f : Context → Context) : (s.updCtx k f).cores = s.cores ∧ (s.updCtx k f).dram = s.dram ∧
    (s.updCtx k f).parts = s.parts := by
  rw [updCtx_shape]
  exact ⟨rfl, rfl, rfl⟩

theorem untouched_eq {s t : State} (hc : t.cores = s.cores) (hd : t.dram = s.dram) : t.untouched = s.untouched := by
  funext e
  simp only [State.untouched, State.pins, hc, hd]

theorem unmapStep_ctxs (s : State) (g k : Nat) : (unmapStep g s k).ctxs = (s.updCtx k (unmapped s g)).ctxs := rfl

theorem unmapStep_keeps (s : State) (g k : Nat) : (unmapStep g s k).cores = s.cores ∧ (unmapStep g s k).dram = s.dram ∧
    (unmapStep g s k).parts = s.parts := updCtx_cores s k _

section
variable {s : State} (hs : Ordered s) (a b g : Nat)

theorem keys_moveIdle (hs : Ordered s) : (moveIdle s a g).ctxs.map (·.1) = s.ctxs.map (·.1) :=
  keys_updAll (f := fun u => unmapped u g) (fun u k => unmapStep_ctxs u g k) _ hs

theorem parts_moveIdle : (moveIdle s a g).parts = s.parts :=
  foldl_keeps State.parts (unmapStep g) (fun u k => (unmapStep_keeps u g k).2.2) _ _

theorem find?_moveIdle (hs : Ordered s) (k : Nat) : SMap.find? (moveIdle s a g).ctxs k =
    if k ∈ s.ctxsOf a then (SMap.find? s.ctxs k).map (unmapped s g) else SMap.find? s.ctxs k := by
  refine find?_updAll (f := unmapped s g) (I := fun u => u.cores = s.cores ∧ u.dram = s.dram) (fun u k hu => ?_) (fun u k hu => ?_)
    (ctxsOf_nodup hs a) ⟨rfl, rfl⟩ k
  · obtain ⟨hc, hd, -⟩ := unmapStep_keeps u g k
    exact ⟨hc.trans hu.1, hd.trans hu.2⟩
  · have heq : unmapped u g = unmapped s g := by
      funext c
      simp only [unmapped, untouched_eq hu.1 hu.2]
    rw [unmapStep_ctxs, heq]

theorem keys_moveShort (hs : Ordered s) : (moveShort s a g).ctxs.map (·.1) = s.ctxs.map (·.1) :=
  (keys_updAll (g := State.shortenArray) (f := fun _ c => { c with s2len := c.s2len - 5120 }) (fun _ _ => rfl) _
    (ordered_of_keys hs (keys_moveIdle a g hs))).trans (keys_moveIdle a g hs)

theorem find?_moveShort (hs : Ordered s) (k : Nat) : SMap.find? (moveShort s a g).ctxs k =
    if k ∈ s.ctxsOf a then (SMap.find? s.ctxs k).map fun c => { unmapped s g c with s2len := c.s2len - 5120 } else SMap.find? s.ctxs k := by
  have h := find?_updAll (g := State.shortenArray) (f := fun c => { c with s2len := c.s2len - 5120 }) (I := fun _ => True) (fun _ _ _ => trivial)
    (fun _ _ _ => rfl) (ctxsOf_nodup hs a) (s := moveIdle s a g) trivial k
  refine h.trans ?_
  rw [find?_moveIdle a g hs]
  split
  · rw [Option.map_map]
    rfl
  · rfl

end

theorem view_giveStep (q : Partition) (g : Nat) (s : State) (k : Nat) : ∃ F, (giveStep q g s k).view = editView s.view k F ∧
    ∀ x, (F x).1.s2len = x.1.s2len + 5120 := by
  refine ⟨_, (view_retryLeases ..).trans (view_updCtx (F := fun x => ({ x.1 with
    s2len := x.1.s2len + 5120
    s2 := x.1.s2 ++ (framesFor s.takenFrames q.shared (q.shared && k % 128 == max q.fn0 q.fn1) g).mapIdx fun i f =>
      (x.1.s2.foldl (fun m p => max m (p.1 + 1)) 0 + i, { pfn := f, w := true }) }, x.2)) fun c => ?_), fun _ => rfl⟩
  simp only [Context.frame, List.map_append, List.foldl_map, List.mapIdx_eq_zipIdx_map, List.map_map]
  rfl

/-- Steps that each lengthen the array of one context. -/
theorem growAll {step : State → Nat → State} (hstep : ∀ u k, ∃ F, (step u k).view = editView u.view k F ∧ ∀ x, (F x).1.s2len = x.1.s2len + 5120)
    {l : List Nat} (hl : l.Nodup) (s : State) : (l.foldl step s).parts = s.parts ∧
      (∀ k, k ∉ l → ((l.foldl step s).ctx k).frame = (s.ctx k).frame) ∧
      ∀ k, k ∈ l → (SMap.find? s.ctxs k).isSome = true → ((l.foldl step s).ctx k).s2len = (s.ctx k).s2len + 5120 := by
  induction l generalizing s with
  | nil => exact ⟨rfl, fun _ _ => rfl, nofun⟩
  | cons j l ih =>
    obtain ⟨hj, hl⟩ := List.nodup_cons.1 hl
    obtain ⟨F, hF, hlen⟩ := hstep s j
    obtain ⟨hparts, hout, hin⟩ := ih hl (step s j)
    refine ⟨hparts.trans (parts_of_edit hF), fun k hk => ?_, fun k hk hsome => ?_⟩
    · rw [List.mem_cons, not_or] at hk
      exact (hout k hk.2).trans (frame_of_edit_ne hF hk.1)
    · by_cases hkj : k = j
      · subst hkj
        have hframe := (hout k hj).trans (frame_of_edit_self hF hsome)
        exact (congrArg (·.1.s2len) hframe).trans (hlen _)
      · have hlenj : ((step s j).ctx k).s2len = (s.ctx k).s2len := congrArg (·.1.s2len) (frame_of_edit_ne hF hkj)
        exact (hin k ((List.mem_cons.1 hk).resolve_left hkj) (by rw [isSome_of_edit hF, hsome])).trans (congrArg (· + 5120) hlenj)

/-! ### What the move makes of the part -/

/-- Contexts that show alike map the same frames. -/
theorem pfn_of_frame {c d : Context} (h : c.frame = d.frame) {x : Nat × S2Entry} (hx : x ∈ c.s2) : ∃ y ∈ d.s2, y.2.pfn = x.2.pfn := by
  have hs2 : c.s2.map (fun p => (p.1, { p.2 with d := false })) = d.s2.map fun p => (p.1, { p.2 with d := false }) := congrArg (·.1.s2) h
  have hmem : (x.1, { x.2 with d := false }) ∈ c.s2.map fun p => (p.1, { p.2 with d := false }) := List.mem_map_of_mem hx
  rw [hs2] at hmem
  obtain ⟨y, hy, hxy⟩ := List.mem_map.1 hmem
  exact ⟨y, hy, congrArg (·.2.pfn) hxy⟩

section
variable {s : State} (hs : Ordered s) {a b : Nat} (hab : a ≠ b) (g : Nat) (p q : Partition)
include hs

theorem ctxsOf_moveOut : (moveOut s a b g p q).ctxsOf b = s.ctxsOf b := ctxsOf_of_keys (keys_moveShort a g hs) b

theorem ctx_moveOut_first {k : Nat} {c : Context} (hk : SMap.find? s.ctxs k = some c) (ha : k / 128 = a) :
    (moveOut s a b g p q).ctx k = { unmapped s g c with s2len := c.s2len - 5120 } := by
  have h := find?_moveShort a g hs k
  rw [if_pos (mem_ctxsOf_of_find? hk ha), hk, Option.map_some] at h
  exact State.ctx_of_find? h

include hab

theorem find?_moveOut_second {k : Nat} (hb : k / 128 = b) : SMap.find? (moveOut s a b g p q).ctxs k = SMap.find? s.ctxs k := by
  have h := find?_moveShort a g hs k
  rw [if_neg fun hm => hab ((find?_of_mem_ctxsOf hs hm).1.symm.trans hb)] at h
  exact h

/-- What the move leaves of the partitions and their contexts. -/
theorem moveIn_made (hidle : ∀ k c, SMap.find? s.ctxs k = some c → k / 128 = a → ∀ x ∈ c.s2, c.leavesWith g x = true → s.untouched x.2 = true) :
    SMap.find? (moveIn s a b g p q).parts a = some { p with gmask := p.gmask - 2 ^ g } ∧
      SMap.find? (moveIn s a b g p q).parts b = some { q with gmask := q.gmask + 2 ^ g } ∧
      (∀ k c, SMap.find? s.ctxs k = some c → k / 128 = a → ((moveIn s a b g p q).ctx k).s2len = c.s2len - 5120 ∧
        ∀ x ∈ ((moveIn s a b g p q).ctx k).s2, x.2.pfn / 5120 ≠ g) ∧
      ∀ k c, SMap.find? s.ctxs k = some c → k / 128 = b → ((moveIn s a b g p q).ctx k).s2len = c.s2len + 5120 := by
  have hnodup : ((moveOut s a b g p q).ctxsOf b).Nodup := by
    rw [ctxsOf_moveOut hs]
    exact ctxsOf_nodup hs b
  obtain ⟨hparts, hout, hin⟩ := growAll (view_giveStep q g) hnodup (moveOut s a b g p q)
  have hp : (moveIn s a b g p q).parts =
      SMap.set (SMap.set (moveShort s a g).parts a { p with gmask := p.gmask - 2 ^ g }) b { q with gmask := q.gmask + 2 ^ g } := hparts
  refine ⟨?_, ?_, fun k c hk ha => ?_, fun k c hk hb => ?_⟩
  · rw [hp, SMap.find?_set_ne _ _ _ _ hab, SMap.find?_set_self]
  · rw [hp, SMap.find?_set_self]
  · have hnot : k ∉ (moveOut s a b g p q).ctxsOf b := by
      rw [ctxsOf_moveOut hs]
      exact fun hm => hab (ha.symm.trans (find?_of_mem_ctxsOf hs hm).1)
    have hframe := hout k hnot
    rw [ctx_moveOut_first hs g p q hk ha] at hframe
    refine ⟨congrArg (·.1.s2len) hframe, fun x hx hg => ?_⟩
    obtain ⟨y, hy, hpfn⟩ := pfn_of_frame hframe hx
    obtain ⟨hy, hkeep⟩ := List.mem_filter.1 hy
    have hleaves : c.leavesWith g y = true := by
      rw [Context.leavesWith, groupOf, hpfn, Bool.or_eq_true, beq_iff_eq]
      exact .inl hg
    rw [hleaves, hidle k c hk ha y hy hleaves] at hkeep
    cases hkeep
  · have hmem : k ∈ (moveOut s a b g p q).ctxsOf b := by
      rw [ctxsOf_moveOut hs]
      exact mem_ctxsOf_of_find? hk hb
    have hfind := (find?_moveOut_second hs hab g p q hb).trans hk
    refine (hin k hmem (by rw [hfind]; rfl)).trans ?_
    rw [State.ctx_of_find? hfind]

end

/-! ### The command -/

section
variable {s : State} (hs : Ordered s) (a g : Nat)
include hs

/-- A frame stays mapped after the idle ones have left where one of those that leave is not idle. -/
theorem mapsGroup_iff : ((s.ctxsOf a).any fun k => (moveIdle s a g).mapsGroup k g) = true ↔
    ∃ k c, SMap.find? s.ctxs k = some c ∧ k / 128 = a ∧ ∃ x ∈ c.s2, c.leavesWith g x = true ∧ s.untouched x.2 = false := by
  have hmaps {k : Nat} {c : Context} (hk : k ∈ s.ctxsOf a) (hc : SMap.find? s.ctxs k = some c) : (moveIdle s a g).mapsGroup k g = true ↔
      ∃ x ∈ c.s2, c.leavesWith g x = true ∧ s.untouched x.2 = false := by
    have hfind := find?_moveIdle a g hs k
    rw [if_pos hk, hc, Option.map_some] at hfind
    rw [State.mapsGroup, State.ctx_of_find? hfind, List.any_eq_true]
    refine ⟨fun ⟨x, hx, hl⟩ => ?_, fun ⟨x, hx, hl, hu⟩ => ⟨x, List.mem_filter.2 ⟨hx, by simp [hu]⟩, hl⟩⟩
    obtain ⟨hx, hkeep⟩ := List.mem_filter.1 hx
    have hl' : c.leavesWith g x = true := hl
    exact ⟨x, hx, hl', by simpa [hl'] using hkeep⟩
  rw [List.any_eq_true]
  constructor
  · rintro ⟨k, hk, hm⟩
    obtain ⟨hp, c, hc⟩ := find?_of_mem_ctxsOf hs hk
    exact ⟨k, c, hc, hp, (hmaps hk hc).1 hm⟩
  · rintro ⟨k, c, hc, hp, hx⟩
    exact ⟨k, mem_ctxsOf_of_find? hc hp, (hmaps (mem_ctxsOf_of_find? hc hp) hc).2 hx⟩

end

section
variable {d : Desc} {s : State} {fn : Nat} (H : Takes s fn d false false [(0, 3)])
include H

theorem granMove_unknown (h : SMap.find? s.parts (operand d 1 1) = none ∨ SMap.find? s.parts (operand d 2 1) = none) :
    execGranMove d s = .next ((s.takeDesc fn).complete fn d.htag 1 0) := by
  have h' : SMap.find? (s.takeDesc fn).parts (operand d 1 1) = none ∨ SMap.find? (s.takeDesc fn).parts (operand d 2 1) = none := h
  unfold execGranMove
  refine command_done H ?_
  dsimp only
  split
  · next hp hq => simp [hp, hq] at h'
  · rfl

variable {p q : Partition} (hp : SMap.find? s.parts (operand d 1 1) = some p) (hq : SMap.find? s.parts (operand d 2 1) = some q)
include hp hq

/-- The conditions of a move, in the order of firmware. -/
theorem execGranMove_of : execGranMove d s = command d false false [(0, 3)] (fun _ =>
    if 48 ≤ operand d 0 1 ∨ !p.gmask.testBit (operand d 0 1) ∨ operand d 1 1 = operand d 2 1 then cmdInvalid (s.takeDesc fn)
    else if p.gmask = 2 ^ operand d 0 1 ∨ !s.drainedOn (operand d 1 1) (operand d 0 1) ∨ !s.drainedOn (operand d 2 1) (operand d 0 1) ∨
      (s.ctxsOf (operand d 1 1)).any (fun k => (moveIdle (s.takeDesc fn) (operand d 1 1) (operand d 0 1)).mapsGroup k (operand d 0 1))
    then cmdWrongState (s.takeDesc fn)
    else cmdOk (moveIn (s.takeDesc fn) (operand d 1 1) (operand d 2 1) (operand d 0 1) p q)) s := by
  have hp' : SMap.find? (s.takeDesc fn).parts (operand d 1 1) = some p := hp
  have hq' : SMap.find? (s.takeDesc fn).parts (operand d 2 1) = some q := hq
  rw [execGranMove, command_takes H, command_takes H]
  simp only [hp', hq']
  rfl

theorem granMove_invalid (h : 48 ≤ operand d 0 1 ∨ p.gmask.testBit (operand d 0 1) = false ∨ operand d 1 1 = operand d 2 1) :
    execGranMove d s = .next ((s.takeDesc fn).complete fn d.htag 1 0) := by
  rw [execGranMove_of H hp hq]
  refine command_done H ?_
  rw [if_pos]
  · rfl
  · simpa using h

variable (hg : operand d 0 1 < 48) (hbit : p.gmask.testBit (operand d 0 1) = true) (hab : operand d 1 1 ≠ operand d 2 1) (hs : Ordered s)
include hg hbit hab hs

theorem granMove_wrongState (h : p.gmask = 2 ^ operand d 0 1 ∨ s.drainedOn (operand d 1 1) (operand d 0 1) = false ∨
    s.drainedOn (operand d 2 1) (operand d 0 1) = false ∨ ∃ k c, SMap.find? s.ctxs k = some c ∧ k / 128 = operand d 1 1 ∧
      ∃ x ∈ c.s2, c.leavesWith (operand d 0 1) x = true ∧ s.untouched x.2 = false) :
    execGranMove d s = .next ((s.takeDesc fn).complete fn d.htag 4 0) := by
  rw [execGranMove_of H hp hq]
  refine command_done H ?_
  rw [if_neg (by simpa [hbit, hab] using hg), if_pos]
  · rfl
  · rcases h with h | h | h | h
    · exact .inl h
    · exact .inr (.inl (by simp [h]))
    · exact .inr (.inr (.inl (by simp [h])))
    · exact .inr (.inr (.inr ((mapsGroup_iff (s := s.takeDesc fn) hs _ _).2 h)))

theorem granMove_done (hne : p.gmask ≠ 2 ^ operand d 0 1) (ha : s.drainedOn (operand d 1 1) (operand d 0 1) = true)
    (hb : s.drainedOn (operand d 2 1) (operand d 0 1) = true) (hidle : ∀ k c, SMap.find? s.ctxs k = some c → k / 128 = operand d 1 1 →
      ∀ x ∈ c.s2, c.leavesWith (operand d 0 1) x = true → s.untouched x.2 = true) :
    execGranMove d s = .next ((moveIn (s.takeDesc fn) (operand d 1 1) (operand d 2 1) (operand d 0 1) p q).complete fn d.htag 0 0) := by
  rw [execGranMove_of H hp hq]
  refine command_done H ?_
  rw [if_neg (by simpa [hbit, hab] using hg), if_neg]
  · rfl
  · rintro (h | h | h | h)
    · exact hne h
    · simp [ha] at h
    · simp [hb] at h
    · obtain ⟨k, c, hk, hpart, x, hx, hl, hu⟩ := (mapsGroup_iff (s := s.takeDesc fn) hs _ _).1 h
      have hun : s.untouched x.2 = false := hu
      rw [hidle k c hk hpart x hx hl] at hun
      cases hun

end

/-- What a context's frames that leave are, in the words of R357. -/
theorem leavesWith_iff {c : Context} {g : Nat} {x : Nat × S2Entry} : c.leavesWith g x = true ↔ x.2.pfn / 5120 = g ∨ c.s2len - 5120 ≤ x.1 := by
  simp [Context.leavesWith, groupOf, Config.framesPerGroup]

end Sys2Proof.Machine.PartitionCommands
end

