-- ==== Sys2Proof/Proofs/GateCommands.lean ====
section
/-!
The commands that ask for a gate and close one (R376, R403), and what their leases leave of the gates' tables.
-/
namespace Sys2Proof.Machine.GateCommands

open CommandQueue

/-! ## What leases leave of the gates -/

/-- The gates and the recorded requests for them. -/
def tables (s : State) : SMap Gate × List GateReq := (s.gates, s.gateReqs)

theorem tables_ite {s a b : State} {p : Prop} [Decidable p] (ha : tables a = tables s) (hb : tables b = tables s) :
    tables (if p then a else b) = tables s := by
  split <;> assumption

theorem tables_bill (s : State) (k : Nat) (f : Counters → Counters) : tables (s.bill k f) = tables s := by
  rw [tables, State.bill_gates, State.bill_gateReqs]
  rfl

theorem tables_updCtx (s : State) (k : Nat) (f : Context → Context) : tables (s.updCtx k f) = tables s := by
  rw [tables, State.updCtx_gates, State.updCtx_gateReqs]
  rfl

theorem tables_billWalk (s : State) (k : Nat) : tables (s.billWalk k) = tables s := tables_bill ..

theorem tables_writeWord (s : State) (key va n v : Nat) : tables (s.writeWord key va n v) = tables s := by
  unfold State.writeWord
  split
  · next pa _ _ =>
    obtain ⟨dp, dt, reqs, h⟩ := perform_dram (ps := [(⟨none, pa⟩, n, v)]) (by simp)
      (s.bill key fun c => { c with dramw := c.dramw + BitVec.ofNat 64 n }) key
    rw [h]
    exact tables_bill ..
  · rfl

theorem tables_loseEvent (s : State) (key code : Nat) (told : Bool) : tables (s.loseEvent key code told) = tables s := by
  have hword : tables (if s.canWrite key (s.pblk key + 8) 4 then s.writeWord key (s.pblk key + 8) 4
      (min (s.readWord key (s.pblk key + 8) 4 + 1) 0xFFFFFFFF) else s) = tables s := tables_ite (tables_writeWord ..) rfl
  exact tables_ite hword hword

theorem tables_event (s : State) (key code detail : Nat) : tables (s.event key code detail) = tables s := by
  simp only [State.event]
  refine tables_ite rfl (tables_ite (tables_loseEvent ..) (tables_ite (tables_loseEvent ..) (tables_ite (tables_loseEvent ..) ?_)))
  rw [tables_writeWord, tables_writeWord, tables_writeWord, tables_writeWord]

theorem tables_leasePending (s : State) (n sl : Nat) (k : Task) (va r : Nat) : tables (s.leasePending n sl k va r) = tables s := by
  simp only [State.leasePending]
  refine (tables_event ..).trans (tables_ite ?_ rfl)
  split <;> rfl

theorem tables_tryLease (s : State) (n sl start : Nat) : tables (s.tryLease n sl start) = tables s := by
  unfold State.tryLease
  split
  · rfl
  · refine tables_ite (tables_billWalk ..) ?_
    split
    · exact tables_ite (tables_billWalk ..) ((tables_leasePending ..).trans (tables_billWalk ..))
    · exact tables_ite (tables_billWalk ..) (tables_billWalk ..)

theorem tables_remakeLease (s : State) (n sl : Nat) : tables (s.remakeLease n sl) = tables s := by
  unfold State.remakeLease
  split
  · rfl
  · refine tables_ite (tables_billWalk ..) (tables_ite (tables_billWalk ..) ?_)
    split
    · exact tables_ite (tables_billWalk ..) ((tables_leasePending ..).trans (tables_billWalk ..))
    · exact tables_ite (tables_billWalk ..) (tables_billWalk ..)

theorem tables_retryLeases (s : State) (key : Nat) (hit : List LeasePage → Bool) : tables (s.retryLeases key hit) = tables s := by
  refine foldl_keeps tables _ (fun t _ => foldl_keeps tables _ (fun u p => ?_) _ _) _ _
  refine tables_ite rfl ?_
  split
  · exact tables_ite (tables_tryLease ..) rfl
  · exact tables_ite (tables_remakeLease ..) rfl

/-! ## The shared window (R376) -/

/-- The array of a context has room for a frame. -/
def HasRoom (c : Context) : Prop := ∃ i, i < c.s2len ∧ SMap.find? c.s2 i = none

/-- A context maps the frame of a window. -/
def HasWindow (f : Nat) (c : Context) : Prop := ∃ j e, SMap.find? c.s2 j = some e ∧ e.pfn = f ∧ e.plat = true

/-- An entry without its dirty bit. -/
def undirtied (e : S2Entry) : S2Entry := { e with d := false }

section
variable {c c' : Context} (h : c'.frame = c.frame)
include h

/-- Contexts that show alike map the same frames at the same places. -/
theorem find?_s2_of_frame (j : Nat) : (SMap.find? c'.s2 j).map undirtied = (SMap.find? c.s2 j).map undirtied := by
  have hs2 : c'.s2.map (fun p => (p.1, undirtied p.2)) = c.s2.map fun p => (p.1, undirtied p.2) := congrArg (·.1.s2) h
  have hmap (m : SMap S2Entry) : (SMap.find? m j).map undirtied = SMap.find? (m.map fun p => (p.1, undirtied p.2)) j :=
    (SMap.find?_map m (fun _ => undirtied) j).symm
  rw [hmap, hmap, hs2]

theorem hasRoom_of_frame (hr : HasRoom c) : HasRoom c' := by
  obtain ⟨i, hi, hnone⟩ := hr
  have hlen : c'.s2len = c.s2len := congrArg (·.1.s2len) h
  have hfind := find?_s2_of_frame h i
  rw [hnone, Option.map_none, Option.map_eq_none_iff] at hfind
  exact ⟨i, by rw [hlen]; exact hi, hfind⟩

theorem hasWindow_of_frame {f : Nat} (hw : HasWindow f c) : HasWindow f c' := by
  obtain ⟨j, e, hfind, hpfn, hplat⟩ := hw
  have hj := find?_s2_of_frame h j
  rw [hfind, Option.map_some, Option.map_eq_some_iff] at hj
  obtain ⟨e', hfind', heq⟩ := hj
  exact ⟨j, e', hfind', (congrArg S2Entry.pfn heq).trans hpfn, (congrArg S2Entry.plat heq).trans hplat⟩

end

/-- A window's frame is mapped to a context, and what waits for a lease there walks again. -/
def windowStep (f : Nat) (s : State) (k : Nat) : State := (s.mapWindow k f).retryLeases k

theorem mapWindow_self {s : State} {k f : Nat} {c : Context} (hk : SMap.find? s.ctxs k = some c) (hr : HasRoom c) :
    HasWindow f ((s.mapWindow k f).ctx k) := by
  obtain ⟨i, hi, hnone⟩ := hr
  have hfind : ((List.range c.s2len).reverse.find? fun g => (SMap.find? c.s2 g).isNone).isSome = true :=
    List.find?_isSome.2 ⟨i, List.mem_reverse.2 (List.mem_range.2 hi), by simp [hnone]⟩
  obtain ⟨j, hj⟩ := Option.isSome_iff_exists.1 hfind
  rw [State.mapWindow, State.ctx_updCtx_self hk]
  simp only [hj]
  exact ⟨j, _, SMap.find?_set_self .., rfl, rfl⟩

theorem windowStep_ne (f : Nat) (s : State) {k j : Nat} (h : j ≠ k) : ((windowStep f s k).ctx j).frame = (s.ctx j).frame :=
  (frame_of_view (view_retryLeases ..) j).trans (congrArg Context.frame (State.ctx_updCtx_ne _ _ _ _ h))

theorem windowAll_ne (f : Nat) {l : List Nat} {j : Nat} (h : j ∉ l) (s : State) : ((l.foldl (windowStep f) s).ctx j).frame = (s.ctx j).frame := by
  induction l generalizing s with
  | nil => rfl
  | cons k l ih =>
    rw [List.mem_cons, not_or] at h
    exact (ih h.2 _).trans (windowStep_ne f s h.1)

theorem isSome_updCtx (s : State) (k j : Nat) (g : Context → Context) :
    (SMap.find? (s.updCtx k g).ctxs j).isSome = (SMap.find? s.ctxs j).isSome := by
  cases hf : SMap.find? s.ctxs k with
  | none => simp only [State.updCtx, hf]
  | some c =>
    by_cases h : j = k
    · rw [h, State.find?_updCtx_self hf, hf]
      rfl
    · rw [State.updCtx_of_find? hf]
      exact congrArg Option.isSome (SMap.find?_set_ne _ _ _ _ h)

theorem isSome_windowStep (f : Nat) (s : State) (k j : Nat) : (SMap.find? (windowStep f s k).ctxs j).isSome = (SMap.find? s.ctxs j).isSome := by
  rw [windowStep, isSome_of_view (view_retryLeases ..), State.mapWindow]
  exact isSome_updCtx ..

/-- Every context of a list that has room gets the window. -/
theorem windowAll_mem (f : Nat) {l : List Nat} (hl : l.Nodup) {s : State} {k : Nat} (hk : k ∈ l) (hsome : (SMap.find? s.ctxs k).isSome = true)
    (hr : HasRoom (s.ctx k)) : HasWindow f ((l.foldl (windowStep f) s).ctx k) := by
  induction l generalizing s with
  | nil => cases hk
  | cons j l ih =>
    obtain ⟨hj, hl⟩ := List.nodup_cons.1 hl
    by_cases hkj : k = j
    · subst hkj
      obtain ⟨c, hc⟩ := Option.isSome_iff_exists.1 hsome
      rw [State.ctx_of_find? hc] at hr
      have hmap : HasWindow f ((windowStep f s k).ctx k) := hasWindow_of_frame (frame_of_view (view_retryLeases ..) k) (mapWindow_self hc hr)
      exact hasWindow_of_frame (windowAll_ne f hj _) hmap
    · exact ih hl ((List.mem_cons.1 hk).resolve_left hkj) (by rw [isSome_windowStep]; exact hsome) (hasRoom_of_frame (windowStep_ne f s hkj) hr)

theorem tables_windowAll (f : Nat) (l : List Nat) (s : State) : tables (l.foldl (windowStep f) s) = tables s :=
  foldl_keeps tables (windowStep f) (fun _ _ => (tables_retryLeases ..).trans (tables_updCtx ..)) _ _

/-! ## The request for a gate (R403) -/

section
variable (d : Desc)

theorem reqBody_gate : fld (reqBody d) 15 0 = operand d 0 2 := by
  simp only [reqBody, operand, fld, Nat.shiftRight_eq_div_pow]
  omega

theorem reqBody_cap : fld (reqBody d) 23 16 = operand d 2 1 := by
  simp only [reqBody, operand, fld, Nat.shiftRight_eq_div_pow]
  omega

theorem reqBody_refill : fld (reqBody d) 31 24 = operand d 3 1 := by
  simp only [reqBody, operand, fld, Nat.shiftRight_eq_div_pow]
  omega

theorem reqBody_window : fld (reqBody d) 39 32 = operand d 4 1 := by
  simp only [reqBody, operand, fld, Nat.shiftRight_eq_div_pow]
  omega

end

theorem eraseDups_nodup : (l : List Nat) → l.eraseDups.Nodup
  | [] => List.nodup_nil
  | a :: as => by
    rw [List.eraseDups_cons]
    refine List.nodup_cons.2 ⟨fun h => ?_, eraseDups_nodup _⟩
    simpa using (List.mem_filter.1 (List.mem_eraseDups.1 h)).2
termination_by l => l.length
decreasing_by exact Nat.lt_succ_of_le (List.length_filter_le ..)

theorem aclKeys_nodup (acl : List Nat) : (aclKeys acl).Nodup := eraseDups_nodup _

theorem ctxKey_div_mod (key : Nat) : ctxKey (key / 128) (key % 128) = key := Nat.div_add_mod key 128

/-- The requests for a gate that are recorded with the one of a context. -/
def requests (s : State) (key gno body : Nat) : List GateReq :=
  (s.gateReqs.filter fun r => r.gate == gno).filter (fun r => ctxKey r.part r.fn != key) ++ [⟨key / 128, key % 128, gno, body⟩]

/-- The requests for other gates. -/
def elsewhere (s : State) (gno : Nat) : List GateReq := s.gateReqs.filter fun r => r.gate != gno

/-- A gate as its last request makes it. -/
def newGate (d : Desc) (f : Nat) : Gate :=
  { acl := reqAcl (reqBody d), cap := operand d 2 1, refill := operand d 3 1, level := operand d 2 1, wlen := operand d 4 1, wpfn := f }

/-- The part with a gate that all have asked for. -/
def openGate (s : State) (d : Desc) (f : Nat) : State :=
  let t := { s with gates := SMap.set s.gates (operand d 0 2) (newGate d f), gateReqs := elsewhere s (operand d 0 2) }
  if operand d 4 1 = 0 then t else (aclKeys (reqAcl (reqBody d))).foldl (windowStep f) (t.zeroFrame f)

section
variable {d : Desc} {s : State} {fn key : Nat} (H : Takes s fn d true false [(0, 5), (6, 34)])
include H

theorem gateReq_unknown (hk : s.ctxArg d 6 = none) : execGateReq d s = .next ((s.takeDesc fn).complete fn d.htag 1 0) := by
  have hk' : (s.takeDesc fn).ctxArg d 6 = none := hk
  unfold execGateReq
  refine command_done H ?_
  simp only [hk']
  rfl

variable (hk : s.ctxArg d 6 = some key)
include hk

/-- The conditions of a request, in the order of firmware. -/
theorem execGateReq_of : execGateReq d s = command d true false [(0, 5), (6, 34)] (fun _ =>
    if !reqOk (reqBody d) ∨ !(aclKeys (reqAcl (reqBody d))).contains key then cmdInvalid (s.takeDesc fn)
    else if (SMap.find? s.gates (operand d 0 2)).any (fun g => g.state != 2) ∨
      (s.gateReqs.filter fun r => r.gate == operand d 0 2).any (fun r => r.body != reqBody d) then cmdWrongState (s.takeDesc fn)
    else
      match s.windowFrame key (operand d 4 1) with
      | none => cmdNoResource (s.takeDesc fn)
      | some f =>
        if !((aclKeys (reqAcl (reqBody d))).all fun k => (requests s key (operand d 0 2) (reqBody d)).any fun r => ctxKey r.part r.fn == k) then
          cmdOk { s.takeDesc fn with gateReqs := elsewhere s (operand d 0 2) ++ requests s key (operand d 0 2) (reqBody d) }
        else if (SMap.find? s.gates (operand d 0 2)).isSome then cmdNoResource (s.takeDesc fn)
        else .done 0 1 (openGate (s.takeDesc fn) d f)) s := by
  have hk' : (s.takeDesc fn).ctxArg d 6 = some key := hk
  rw [execGateReq, command_takes H, command_takes H]
  simp only [hk', reqBody_gate, reqBody_cap, reqBody_refill, reqBody_window]
  rfl

theorem gateReq_invalid (h : reqOk (reqBody d) = false ∨ (aclKeys (reqAcl (reqBody d))).contains key = false) :
    execGateReq d s = .next ((s.takeDesc fn).complete fn d.htag 1 0) := by
  rw [execGateReq_of H hk]
  refine command_done H ?_
  rw [if_pos]
  · rfl
  · simpa using h

/-- The gate is in use. -/
def InUse (s : State) (gno : Nat) : Prop := ∃ g, SMap.find? s.gates gno = some g ∧ g.state ≠ 2

/-- A request for the gate is recorded that says something else. -/
def Differs (s : State) (gno body : Nat) : Prop := ∃ r ∈ s.gateReqs, r.gate = gno ∧ r.body ≠ body

/-- A context has asked for the gate, or asks now. -/
def Asked (s : State) (key gno k : Nat) : Prop := k = key ∨ ∃ r ∈ s.gateReqs, r.gate = gno ∧ ctxKey r.part r.fn = k

omit H hk in
theorem clash_iff (gno body : Nat) : ((SMap.find? s.gates gno).any (fun g => g.state != 2) = true ∨
    (s.gateReqs.filter fun r => r.gate == gno).any (fun r => r.body != body) = true) ↔ InUse s gno ∨ Differs s gno body := by
  refine or_congr ?_ ?_
  · simp [InUse, Option.any_eq_true]
  · simp [Differs]

omit H hk in
theorem mem_requests {gno body : Nat} {r : GateReq} : r ∈ requests s key gno body ↔
    (r ∈ s.gateReqs ∧ r.gate = gno ∧ ctxKey r.part r.fn ≠ key) ∨ r = ⟨key / 128, key % 128, gno, body⟩ := by
  simp [requests, and_comm]

omit H hk in
theorem asked_iff (gno body k : Nat) : ((requests s key gno body).any fun r => ctxKey r.part r.fn == k) = true ↔ Asked s key gno k := by
  rw [List.any_eq_true, Asked]
  constructor
  · rintro ⟨r, hr, hrk⟩
    rw [beq_iff_eq] at hrk
    rcases mem_requests.1 hr with ⟨hmem, hgate, -⟩ | rfl
    · exact .inr ⟨r, hmem, hgate, hrk⟩
    · exact .inl (hrk.symm.trans (ctxKey_div_mod key))
  · rintro (rfl | ⟨r, hr, hgate, hrk⟩)
    · exact ⟨_, mem_requests.2 (.inr rfl), beq_iff_eq.2 (ctxKey_div_mod k)⟩
    · by_cases hkey : k = key
      · subst hkey
        exact ⟨_, mem_requests.2 (.inr rfl), beq_iff_eq.2 (ctxKey_div_mod k)⟩
      · exact ⟨r, mem_requests.2 (.inl ⟨hr, hgate, fun h => hkey (hrk.symm.trans h)⟩), beq_iff_eq.2 hrk⟩

variable (hok : reqOk (reqBody d) = true) (hkey : (aclKeys (reqAcl (reqBody d))).contains key = true)
include hok hkey

theorem gateReq_wrongState (h : InUse s (operand d 0 2) ∨ Differs s (operand d 0 2) (reqBody d)) :
    execGateReq d s = .next ((s.takeDesc fn).complete fn d.htag 4 0) := by
  rw [execGateReq_of H hk]
  refine command_done H ?_
  rw [if_neg (by simp [hok, List.contains_iff_mem.1 hkey]), if_pos ((clash_iff _ _).2 h)]
  rfl

variable (hopen : ¬ InUse s (operand d 0 2)) (hdiff : ¬ Differs s (operand d 0 2) (reqBody d))
include hopen hdiff

theorem gateReq_free : execGateReq d s = command d true false [(0, 5), (6, 34)] (fun _ =>
    match s.windowFrame key (operand d 4 1) with
    | none => cmdNoResource (s.takeDesc fn)
    | some f =>
      if !((aclKeys (reqAcl (reqBody d))).all fun k => (requests s key (operand d 0 2) (reqBody d)).any fun r => ctxKey r.part r.fn == k) then
        cmdOk { s.takeDesc fn with gateReqs := elsewhere s (operand d 0 2) ++ requests s key (operand d 0 2) (reqBody d) }
      else if (SMap.find? s.gates (operand d 0 2)).isSome then cmdNoResource (s.takeDesc fn)
      else .done 0 1 (openGate (s.takeDesc fn) d f)) s := by
  rw [execGateReq_of H hk, if_neg (by simp [hok, List.contains_iff_mem.1 hkey]), if_neg fun h => ((clash_iff _ _).1 h).elim hopen hdiff]

theorem gateReq_noFrame (h : s.windowFrame key (operand d 4 1) = none) :
    execGateReq d s = .next ((s.takeDesc fn).complete fn d.htag 3 0) := by
  rw [gateReq_free H hk hok hkey hopen hdiff]
  refine command_done H ?_
  rw [h]
  rfl

variable {f : Nat} (hf : s.windowFrame key (operand d 4 1) = some f)
include hf

theorem gateReq_recorded (h : ∃ k ∈ aclKeys (reqAcl (reqBody d)), ¬ Asked s key (operand d 0 2) k) :
    execGateReq d s = .next (State.complete
      { s.takeDesc fn with gateReqs := elsewhere s (operand d 0 2) ++ requests s key (operand d 0 2) (reqBody d) } fn d.htag 0 0) := by
  obtain ⟨k, hmem, hnot⟩ := h
  rw [gateReq_free H hk hok hkey hopen hdiff]
  refine command_done H ?_
  simp only [hf]
  rw [if_pos]
  · rfl
  · rw [Bool.not_eq_true', List.all_eq_false]
    exact ⟨k, hmem, fun h => hnot ((asked_iff _ _ _).1 h)⟩

variable (hall : ∀ k ∈ aclKeys (reqAcl (reqBody d)), Asked s key (operand d 0 2) k)
include hall

theorem gateReq_held (h : SMap.find? s.gates (operand d 0 2) ≠ none) : execGateReq d s = .next ((s.takeDesc fn).complete fn d.htag 3 0) := by
  rw [gateReq_free H hk hok hkey hopen hdiff]
  refine command_done H ?_
  simp only [hf]
  rw [if_neg, if_pos (Option.isSome_iff_ne_none.2 h)]
  · rfl
  · rw [Bool.not_eq_true', Bool.not_eq_false, List.all_eq_true]
    exact fun k hmem => (asked_iff _ _ _).2 (hall k hmem)

theorem gateReq_opens (h : SMap.find? s.gates (operand d 0 2) = none) :
    execGateReq d s = .next ((openGate (s.takeDesc fn) d f).complete fn d.htag 0 1) := by
  rw [gateReq_free H hk hok hkey hopen hdiff]
  refine command_done H ?_
  simp only [hf]
  rw [if_neg, if_neg (by simp [h])]
  rw [Bool.not_eq_true', Bool.not_eq_false, List.all_eq_true]
  exact fun k hmem => (asked_iff _ _ _).2 (hall k hmem)

end

/-! ### What a request leaves -/

section
variable {d : Desc} {s : State} {key gno body : Nat}

/-- The requests that stand after one is recorded. -/
theorem recorded_requests (hdiff : ¬ Differs s gno body) :
    (∀ k, Asked s key gno k ↔ ∃ r ∈ elsewhere s gno ++ requests s key gno body, r.gate = gno ∧ r.body = body ∧ ctxKey r.part r.fn = k) ∧
      ∀ r : GateReq, r.gate ≠ gno → (r ∈ elsewhere s gno ++ requests s key gno body ↔ r ∈ s.gateReqs) := by
  have helse {r : GateReq} : r ∈ elsewhere s gno ↔ r ∈ s.gateReqs ∧ r.gate ≠ gno := by simp [elsewhere]
  refine ⟨fun k => ?_, fun r hr => ?_⟩
  · rw [← asked_iff gno body k, List.any_eq_true]
    constructor
    · rintro ⟨r, hr, hrk⟩
      refine ⟨r, List.mem_append_right _ hr, ?_⟩
      rcases mem_requests.1 hr with ⟨hmem, hgate, -⟩ | rfl
      · exact ⟨hgate, by_contra fun hb => hdiff ⟨r, hmem, hgate, hb⟩, beq_iff_eq.1 hrk⟩
      · exact ⟨rfl, rfl, beq_iff_eq.1 hrk⟩
    · rintro ⟨r, hr, hgate, -, hrk⟩
      rcases List.mem_append.1 hr with hr | hr
      · exact absurd hgate (helse.1 hr).2
      · exact ⟨r, hr, beq_iff_eq.2 hrk⟩
  · rw [List.mem_append, helse, mem_requests]
    constructor
    · rintro (⟨h, -⟩ | ⟨h, -⟩ | rfl)
      · exact h
      · exact h
      · exact absurd rfl hr
    · exact fun h => .inl ⟨h, hr⟩

theorem tables_openGate (f : Nat) : tables (openGate s d f) = (SMap.set s.gates (operand d 0 2) (newGate d f), elsewhere s (operand d 0 2)) := by
  unfold openGate
  split
  · rfl
  · exact tables_windowAll ..

/-- The window of a new gate is mapped to each context that has room for it. -/
theorem openGate_window {f k i : Nat} {c : Context} (hw : operand d 4 1 ≠ 0) (hk : k ∈ aclKeys (reqAcl (reqBody d)))
    (hc : SMap.find? s.ctxs k = some c) (hi : i < c.s2len) (hnone : SMap.find? c.s2 i = none) : HasWindow f ((openGate s d f).ctx k) := by
  rw [openGate, if_neg hw]
  refine windowAll_mem f (aclKeys_nodup _) hk (Option.isSome_iff_exists.2 ⟨c, hc⟩) ?_
  have hctx : (State.zeroFrame { s with
      gates := SMap.set s.gates (operand d 0 2) (newGate d f), gateReqs := elsewhere s (operand d 0 2) } f).ctx k = c :=
    State.ctx_of_find? hc
  rw [hctx]
  exact ⟨i, hi, hnone⟩

end

/-! ## The closing of a gate (R376, R403) -/

section
variable {d : Desc} {s : State} {fn : Nat} (H : Takes s fn d true false [(0, 4)])
include H

theorem gateClose_unknown (hk : s.ctxArg d 2 = none) : execGateClose d s = .next ((s.takeDesc fn).complete fn d.htag 1 0) := by
  have hk' : (s.takeDesc fn).ctxArg d 2 = none := hk
  unfold execGateClose
  refine command_done H ?_
  simp only [hk']
  rfl

variable {key : Nat} (hk : s.ctxArg d 2 = some key)
include hk

/-- What a close finds. -/
theorem execGateClose_of : execGateClose d s = command d true false [(0, 4)] (fun _ =>
    match SMap.find? s.gates (operand d 0 2) with
    | some g =>
      if (aclKeys g.acl).contains key then
        cmdOk { (s.takeDesc fn).setGate (operand d 0 2) { g with state := 2, queue := [] } with
          gateReqs := ((s.takeDesc fn).setGate (operand d 0 2) { g with state := 2, queue := [] }).gateReqs.filter fun r => r.gate != operand d 0 2 }
      else cmdInvalid (s.takeDesc fn)
    | none =>
      if s.gateReqs.any fun r => r.gate == operand d 0 2 && (aclKeys (reqAcl r.body)).contains key then
        cmdOk { s.takeDesc fn with gateReqs := s.gateReqs.filter fun r => r.gate != operand d 0 2 }
      else cmdInvalid (s.takeDesc fn)) s := by
  have hk' : (s.takeDesc fn).ctxArg d 2 = some key := hk
  rw [execGateClose, command_takes H, command_takes H]
  simp only [hk']
  rfl

section
variable {g : Gate} (hg : SMap.find? s.gates (operand d 0 2) = some g)
include hg

theorem gateClose_unlisted (h : (aclKeys g.acl).contains key = false) :
    execGateClose d s = .next ((s.takeDesc fn).complete fn d.htag 1 0) := by
  rw [execGateClose_of H hk]
  refine command_done H ?_
  simp only [hg, h]
  rfl

theorem gateClose_closes (h : (aclKeys g.acl).contains key = true) : ∃ (t : State) (g' : Gate), execGateClose d s = .next (t.complete fn d.htag 0 0) ∧
    SMap.find? t.gates (operand d 0 2) = some g' ∧ g'.state = 2 ∧ g'.queue = [] ∧ ∀ r ∈ t.gateReqs, r.gate ≠ operand d 0 2 := by
  have hgates (u : State) (n : Nat) : (u.wakeGate n).gates = u.gates := by
    unfold State.wakeGate
    split <;> rfl
  refine ⟨{ (s.takeDesc fn).setGate (operand d 0 2) { g with state := 2, queue := [] } with
    gateReqs := ((s.takeDesc fn).setGate (operand d 0 2) { g with state := 2, queue := [] }).gateReqs.filter fun r => r.gate != operand d 0 2 },
    { g with state := 2, queue := [] }, ?_, ?_, rfl, rfl, fun r hr => by simpa using (List.mem_filter.1 hr).2⟩
  · rw [execGateClose_of H hk]
    refine command_done H ?_
    simp only [hg, h]
    rfl
  · rw [State.setGate, hgates, SMap.find?_set_self]

end

section
variable (hg : SMap.find? s.gates (operand d 0 2) = none)
include hg

theorem gateClose_lapses (h : ∃ r ∈ s.gateReqs, r.gate = operand d 0 2 ∧ (aclKeys (reqAcl r.body)).contains key = true) :
    execGateClose d s =
      .next (State.complete { s.takeDesc fn with gateReqs := s.gateReqs.filter fun r => r.gate != operand d 0 2 } fn d.htag 0 0) := by
  obtain ⟨r, hr, hgate, hlist⟩ := h
  rw [execGateClose_of H hk]
  refine command_done H ?_
  simp only [hg]
  rw [if_pos]
  · rfl
  · exact List.any_eq_true.2 ⟨r, hr, by rw [hgate, hlist, beq_self_eq_true]; rfl⟩

theorem gateClose_none (h : ∀ r ∈ s.gateReqs, r.gate = operand d 0 2 → (aclKeys (reqAcl r.body)).contains key = false) :
    execGateClose d s = .next ((s.takeDesc fn).complete fn d.htag 1 0) := by
  rw [execGateClose_of H hk]
  refine command_done H ?_
  simp only [hg]
  rw [if_neg]
  · rfl
  · intro hany
    obtain ⟨r, hr, hlist⟩ := List.any_eq_true.1 hany
    rw [Bool.and_eq_true, beq_iff_eq] at hlist
    rw [h r hr hlist.1] at hlist
    cases hlist.2

end

end

end Sys2Proof.Machine.GateCommands
end

