-- ==== Sys2Proof/Proofs/JobCommands.lean ====
section
/-!
Arbiter weights, images, routes, groups and jobs (R317 to R319, R329, R332, R362, R401), and the commands on partitions and gates together.
-/
namespace Sys2Proof.Machine.JobCommands

open CommandQueue PartitionCommands GateCommands

/-! ## Arbiter weights (R362) -/

section
variable {d : Desc} {s : State} {fn : Nat}

theorem onCtx_none {d : Desc} {s : State} {fn : Nat} (h : s.ctxArg d 0 = none) (body : Nat → Context → Cmd) :
    (s.takeDesc fn).onCtx d body = cmdInvalid (s.takeDesc fn) := by
  have h' : (s.takeDesc fn).ctxArg d 0 = none := h
  rw [State.onCtx, h']

theorem onCtx_some {d : Desc} {s : State} {fn key : Nat} (h : s.ctxArg d 0 = some key) (body : Nat → Context → Cmd) :
    (s.takeDesc fn).onCtx d body = body key (s.ctx key) := by
  have h' : (s.takeDesc fn).ctxArg d 0 = some key := h
  rw [State.onCtx, h']
  rfl

/-- A context that a command names is there. -/
theorem isSome_of_ctxArg {i key : Nat} (h : s.ctxArg d i = some key) : (SMap.find? s.ctxs key).isSome = true := by
  unfold State.ctxArg at h
  dsimp only at h
  split at h
  · split at h
    · next hc =>
      cases h
      exact hc.2
    · cases h
  · obtain ⟨k, hk, hif⟩ := Option.bind_eq_some_iff.1 h
    split at hif
    · cases hif
      obtain ⟨c, hc, rfl⟩ := Option.map_eq_some_iff.1 hk
      exact SMap.isSome_find?_of_mem (List.mem_of_find?_eq_some hc)
    · cases hif

section
variable (H : Takes s fn d false false [(0, 4)])
include H

theorem arbWeight_unknown (h : s.ctxArg d 0 = none) : execArbWeight d s = .next ((s.takeDesc fn).complete fn d.htag 1 0) := by
  unfold execArbWeight
  exact command_done H (onCtx_none h _)

variable {key : Nat} (hk : s.ctxArg d 0 = some key)
include hk

theorem arbWeight_invalid (h : 8 ≤ operand d 2 1 ∨ operand d 3 1 = 0) :
    execArbWeight d s = .next ((s.takeDesc fn).complete fn d.htag 1 0) := by
  unfold execArbWeight
  exact command_done H ((onCtx_some hk _).trans (if_pos h))

theorem arbWeight_done (hc : operand d 2 1 < 8) (hw : operand d 3 1 ≠ 0) :
    execArbWeight d s = .next (State.complete ((s.takeDesc fn).updHts (operand d 2 1) fun h =>
      { h with weights := SMap.set h.weights key (operand d 3 1) }) fn d.htag 0 0) := by
  unfold execArbWeight
  exact command_done H ((onCtx_some hk _).trans (if_neg fun h => h.elim (Nat.not_le.2 hc) hw))

end

/-! ## Images (R401) -/

section
variable (H : Takes s fn d true false [(0, 2), (8, 24)])
include H

theorem imageLoad_unknown (h : s.ctxArg d 0 = none) : execImageLoad d s = .next ((s.takeDesc fn).complete fn d.htag 1 0) := by
  unfold execImageLoad
  exact command_done H (onCtx_none h _)

variable {key : Nat} (hk : s.ctxArg d 0 = some key)
include hk

theorem execImageLoad_of : execImageLoad d s = command d true false [(0, 2), (8, 24)] (fun _ =>
    match (s.takeDesc fn).guestPieces key (operand d 16 8) (Mem.readBytes s.hostMem (operand d 8 8) (operand d 24 8)) with
    | none => cmdInvalid (s.takeDesc fn)
    | some ps => cmdOk (((s.takeDesc fn).billWrite key ps.length).perform key ps)) s := by
  rw [execImageLoad, command_takes H, command_takes H, onCtx_some hk]
  rfl

theorem imageLoad_invalid (h : ∃ i, i < operand d 24 8 ∧ ∀ pa e, s.walk2 key (operand d 16 8 + i) = some (pa, e) → e.w = false) :
    execImageLoad d s = .next ((s.takeDesc fn).complete fn d.htag 1 0) := by
  have hnone : (s.takeDesc fn).guestPieces key (operand d 16 8) (Mem.readBytes s.hostMem (operand d 8 8) (operand d 24 8)) = none := by
    refine guestPieces_none ?_
    obtain ⟨i, hi, h⟩ := h
    exact ⟨i, by simpa [Mem.readBytes] using hi, h⟩
  rw [execImageLoad_of H hk]
  refine command_done H ?_
  rw [hnone]
  rfl

theorem imageLoad_done (hd : s.dram.wf = true)
    (h : ∀ i, i < operand d 24 8 → ∃ pa e, s.walk2 key (operand d 16 8 + i) = some (pa, e) ∧ e.w = true) :
    ∃ t : State, execImageLoad d s = .next (t.complete fn d.htag 0 0) ∧ (∀ c, (t.core c).scratch = (s.core c).scratch) ∧
      ∀ i pa e, i < operand d 24 8 → s.walk2 key (operand d 16 8 + i) = some (pa, e) →
        (∀ j pa' e', i < j → j < operand d 24 8 → s.walk2 key (operand d 16 8 + j) = some (pa', e') → pa' ≠ pa) →
        Mem.get t.dram pa = Mem.get s.hostMem (operand d 8 8 + i) := by
  have hlen : (Mem.readBytes s.hostMem (operand d 8 8) (operand d 24 8)).length = operand d 24 8 := by simp [Mem.readBytes]
  have hall : ∀ i, i < (Mem.readBytes s.hostMem (operand d 8 8) (operand d 24 8)).length →
      ∃ pa e, (s.takeDesc fn).walk2 key (operand d 16 8 + i) = some (pa, e) ∧ e.w = true := fun i hi => h i (hlen ▸ hi)
  obtain ⟨ps, hps⟩ : ∃ ps, (s.takeDesc fn).guestPieces key (operand d 16 8) (Mem.readBytes s.hostMem (operand d 8 8) (operand d 24 8)) = some ps :=
    ⟨_, guestPieces_of hall⟩
  obtain ⟨hnone, hbytes⟩ := guestPieces_bytes hps hall
  obtain ⟨dp, dt, reqs, ht⟩ := perform_dram hnone ((s.takeDesc fn).billWrite key ps.length) key
  refine ⟨((s.takeDesc fn).billWrite key ps.length).perform key ps, ?_, fun c => ?_, fun i pa e hi hw hlast => ?_⟩
  · rw [execImageLoad_of H hk]
    refine command_done H ?_
    rw [hps]
    rfl
  · obtain ⟨st, hst⟩ := core_noteText_stale ((s.takeDesc fn).billWrite key ps.length) ps c
    have hcore : (((s.takeDesc fn).billWrite key ps.length).perform key ps).core c =
        { ((s.takeDesc fn).billWrite key ps.length).core c with stale := st } := by
      rw [← hst, ht]
      rfl
    have hbill : ((s.takeDesc fn).billWrite key ps.length).core c = s.core c := core_bill ..
    rw [hcore, hbill]
  · have hdram : (((s.takeDesc fn).billWrite key ps.length).perform key ps).dram = storeAll s.dram ps := by
      rw [ht]
      exact congrArg (storeAll · ps) (updCtx_cores ..).2.1
    rw [hdram]
    refine (hbytes s.dram hd).2 i _ pa e ?_ hw fun j pa' e' hj hjn hw' => hlast j pa' e' hj (hlen ▸ hjn) hw'
    simp [Mem.readBytes, hi]

end

/-! ## Routes and groups (R319, R332) -/

/-- The context of a job on the part. -/
theorem onJob_none (h : s.jobCtxs (operand d 0 2) = []) (body : Nat → Cmd) : (s.takeDesc fn).onJob d body = cmdInvalid (s.takeDesc fn) := by
  have h' : (s.takeDesc fn).jobCtxs (operand d 0 2) = [] := h
  rw [State.onJob, h']
  rfl

theorem onJob_cons {key : Nat} {rest : List Nat} (h : s.jobCtxs (operand d 0 2) = key :: rest) (body : Nat → Cmd) :
    (s.takeDesc fn).onJob d body = body key := by
  have h' : (s.takeDesc fn).jobCtxs (operand d 0 2) = key :: rest := h
  rw [State.onJob, h']
  rfl

theorem isSome_of_jobCtxs {job key : Nat} {rest : List Nat} (h : s.jobCtxs job = key :: rest) : (SMap.find? s.ctxs key).isSome = true := by
  have hmem : key ∈ s.jobCtxs job := h ▸ List.mem_cons_self
  obtain ⟨c, hc, rfl⟩ := List.mem_map.1 hmem
  exact SMap.isSome_find?_of_mem (List.mem_filter.1 hc).1

/-- An entry of a route table keeps its limits (R319). -/
def RouteFits (v : Nat) : Prop :=
  fld v 61 36 = 0 ∧ (v.testBit 63 = true → 1 ≤ fld v 35 32 ∧ fld v 35 32 ≤ 8 ∧ fld v 31 0 < 16 ^ fld v 35 32)

theorem routeOk_iff (v : Nat) : routeOk v = true ↔ RouteFits v := by
  cases hb : v.testBit 63 <;> simp [routeOk, RouteFits, hb, Nat.div_eq_zero_iff, and_assoc]

theorem ctx_updCtx_some {s : State} {key : Nat} (h : (SMap.find? s.ctxs key).isSome = true) (f : Context → Context) :
    (s.updCtx key f).ctx key = f (s.ctx key) := by
  obtain ⟨c, hc⟩ := Option.isSome_iff_exists.1 h
  rw [State.ctx_updCtx_self hc, State.ctx_of_find? hc]

section
variable (H : Takes s fn d false false [(0, 2), (8, 8)])
include H

theorem routeLoad_unknown (h : s.jobCtxs (operand d 0 2) = []) : execRouteLoad d s = .next ((s.takeDesc fn).complete fn d.htag 1 0) := by
  unfold execRouteLoad
  exact command_done H (onJob_none h _)

variable {key : Nat} {rest : List Nat} (hk : s.jobCtxs (operand d 0 2) = key :: rest)
include hk

theorem routeLoad_invalid (h : ∃ p ∈ s.hostTable (operand d 8 8) 16384, ¬ RouteFits p.2) :
    execRouteLoad d s = .next ((s.takeDesc fn).complete fn d.htag 1 0) := by
  obtain ⟨p, hp, hbad⟩ := h
  unfold execRouteLoad
  refine command_done H ((onJob_cons hk _).trans ?_)
  refine if_neg fun hall => hbad ?_
  exact (routeOk_iff _).1 (List.all_eq_true.1 hall p hp)

theorem routeLoad_done (h : ∀ p ∈ s.hostTable (operand d 8 8) 16384, RouteFits p.2) : ∃ v : State,
    execRouteLoad d s = .next (v.complete fn d.htag 0 0) ∧
      ∀ i, (SMap.get (v.ctx key).routes 0 i).toNat = SMap.get (s.hostTable (operand d 8 8) 16384) 0 i % 2 ^ 64 := by
  refine ⟨(s.takeDesc fn).updCtx key fun c =>
    { c with routes := (s.hostTable (operand d 8 8) 16384).map fun p => (p.1, BitVec.ofNat 64 p.2) }, ?_, fun i => ?_⟩
  · unfold execRouteLoad
    refine command_done H ((onJob_cons hk _).trans ?_)
    exact if_pos (List.all_eq_true.2 fun p hp => (routeOk_iff _).2 (h p hp))
  · rw [ctx_updCtx_some (s := s.takeDesc fn) (isSome_of_jobCtxs hk)]
    simp only [SMap.get]
    rw [SMap.find?_map _ (fun _ v => BitVec.ofNat 64 v)]
    cases SMap.find? (s.hostTable (operand d 8 8) 16384) i with
    | none => rfl
    | some v => exact BitVec.toNat_ofNat ..

end

section
variable (H : Takes s fn d false false [(0, 4), (8, 8)])
include H

theorem groupLoad_unknown (h : s.jobCtxs (operand d 0 2) = []) : execGroupLoad d s = .next ((s.takeDesc fn).complete fn d.htag 1 0) := by
  unfold execGroupLoad
  exact command_done H (onJob_none h _)

variable {key : Nat} {rest : List Nat} (hk : s.jobCtxs (operand d 0 2) = key :: rest)
include hk

theorem groupLoad_invalid (h : operand d 3 1 = 0 ∨ 64 < operand d 3 1 ∨
    ∃ i, i < operand d 3 1 ∧ 4096 ≤ Mem.read s.hostMem (operand d 8 8 + 2 * i) 2) :
    execGroupLoad d s = .next ((s.takeDesc fn).complete fn d.htag 1 0) := by
  unfold execGroupLoad
  refine command_done H ((onJob_cons hk _).trans (if_pos ?_))
  rcases h with h | h | ⟨i, hi, h⟩
  · exact .inl h
  · exact .inr (.inl h)
  · exact .inr (.inr (List.any_eq_true.2 ⟨_, List.mem_map_of_mem (List.mem_range.2 hi), decide_eq_true h⟩))

theorem groupLoad_done (h0 : 1 ≤ operand d 3 1) (h64 : operand d 3 1 ≤ 64)
    (hm : ∀ i, i < operand d 3 1 → Mem.read s.hostMem (operand d 8 8 + 2 * i) 2 < 4096) : ∃ t : State,
    execGroupLoad d s = .next (t.complete fn d.htag 0 0) ∧ SMap.find? (t.ctx key).groups (operand d 2 1) =
      some ((List.range (operand d 3 1)).map fun i => Mem.read s.hostMem (operand d 8 8 + 2 * i) 2) := by
  refine ⟨(s.takeDesc fn).updCtx key fun c => { c with groups := SMap.set c.groups (operand d 2 1)
                                                            ((List.range (operand d 3 1)).map fun i => Mem.read s.hostMem (operand d 8 8 + 2 * i) 2) }, ?_, ?_⟩
  · unfold execGroupLoad
    refine command_done H ((onJob_cons hk _).trans (if_neg ?_))
    rintro (h | h | h)
    · omega
    · omega
    · obtain ⟨m, hmem, hle⟩ := List.any_eq_true.1 h
      obtain ⟨i, hi, rfl⟩ := List.mem_map.1 hmem
      exact absurd (of_decide_eq_true hle) (Nat.not_le.2 (hm i (List.mem_range.1 hi)))
  · rw [ctx_updCtx_some (s := s.takeDesc fn) (isSome_of_jobCtxs hk)]
    exact SMap.find?_set_self ..

end

/-! ## The binding of a context to a job (R317, R318, R329) -/

/-- A binding would join two contexts of the part in a job, move a context to another job, or give a port to two jobs. -/
def Clash (s : State) (key : Nat) (j : JobBind) : Prop :=
  ∃ c ∈ s.ctxs, ∃ o, c.2.job = some o ∧ ((c.1 = key ∧ o.job ≠ j.job) ∨ (c.1 ≠ key ∧ (o.job = j.job ∨ o.ports &&& j.ports ≠ 0)))

theorem bindClash_iff (s : State) (key : Nat) (j : JobBind) : s.bindClash key j = true ↔ Clash s key j := by
  rw [State.bindClash, List.any_eq_true]
  refine exists_congr fun c => and_congr_right fun _ => ?_
  cases hj : c.2.job with
  | none => simp
  | some o =>
    by_cases hk : c.1 = key
    · simp [hk]
    · simp [hk]

theorem enterJob_ctxs (s : State) (key : Nat) (j : JobBind) : ∃ f : Context → Context, (s.enterJob key j).ctxs = (s.updCtx key f).ctxs ∧
    (∀ c, (f c).job = some j) ∧ ((s.ctx key).job = none → (∀ c, (f c).sent = [] ∧ (f c).arrived = []) ∧
      (s.enterJob key j).collCount = s.collCount.filter fun c => c.1 / 256 != key) := by
  refine ⟨_, rfl, fun c => ?_, fun h => ⟨fun c => ?_, ?_⟩⟩
  · have hjob (b : Bool) : (if b then { c with job := some j, sent := [], arrived := [] } else { c with job := some j }).job = some j := by
      cases b <;> rfl
    exact hjob _
  · simp only [h]
    exact ⟨rfl, rfl⟩
  · have hcoll (f : Context → Context) : (s.updCtx key f).collCount = s.collCount := State.updCtx_collCount ..
    simp only [State.enterJob, h, hcoll]
    rfl

section
variable (H : Takes s fn d false false [(0, 9)])
include H

theorem jobBind_unknown (h : s.ctxArg d 0 = none) : execJobBind d s = .next ((s.takeDesc fn).complete fn d.htag 1 0) := by
  unfold execJobBind
  exact command_done H (onCtx_none h _)

variable {key : Nat} (hk : s.ctxArg d 0 = some key)
include hk

theorem jobBind_invalid (h : 4096 ≤ (bindOf d).job ∨ 4096 ≤ (bindOf d).dev ∨ (bindOf d).tmoMs = 0 ∨ 64 < (bindOf d).tmoMs) :
    execJobBind d s = .next ((s.takeDesc fn).complete fn d.htag 1 0) := by
  unfold execJobBind
  exact command_done H ((onCtx_some hk _).trans (if_pos h))

variable (hjob : (bindOf d).job < 4096) (hdev : (bindOf d).dev < 4096) (ht0 : 1 ≤ (bindOf d).tmoMs) (ht : (bindOf d).tmoMs ≤ 64)
include hjob hdev ht0 ht

theorem jobBind_body : execJobBind d s = command d false false [(0, 9)] (fun _ =>
    if s.bindClash key (bindOf d) then cmdWrongState (s.takeDesc fn) else cmdOk ((s.takeDesc fn).enterJob key (bindOf d))) s := by
  rw [execJobBind, command_takes H, command_takes H, onCtx_some hk, if_neg (by omega)]
  rfl

theorem jobBind_wrongState (h : Clash s key (bindOf d)) : execJobBind d s = .next ((s.takeDesc fn).complete fn d.htag 4 0) := by
  rw [jobBind_body H hk hjob hdev ht0 ht]
  exact command_done H (if_pos ((bindClash_iff ..).2 h))

theorem jobBind_done (h : ¬ Clash s key (bindOf d)) : ∃ t : State, execJobBind d s = .next (t.complete fn d.htag 0 0) ∧
    (t.ctx key).job = some (bindOf d) ∧ (∀ k, k ≠ key → t.ctx k = s.ctx k) ∧
      ((s.ctx key).job = none → (t.ctx key).sent = [] ∧ (t.ctx key).arrived = [] ∧ ∀ x ∈ t.collCount, x.1 / 256 ≠ key) := by
  obtain ⟨f, hctxs, hfjob, hnew⟩ := enterJob_ctxs (s.takeDesc fn) key (bindOf d)
  have hctx (k : Nat) : ((s.takeDesc fn).enterJob key (bindOf d)).ctx k = ((s.takeDesc fn).updCtx key f).ctx k := by
    rw [State.ctx, hctxs]
    rfl
  have hself : ((s.takeDesc fn).enterJob key (bindOf d)).ctx key = f (s.ctx key) :=
    (hctx key).trans (ctx_updCtx_some (s := s.takeDesc fn) (isSome_of_ctxArg hk) f)
  refine ⟨(s.takeDesc fn).enterJob key (bindOf d), ?_, ?_, fun k hne => ?_, fun hnone => ?_⟩
  · rw [jobBind_body H hk hjob hdev ht0 ht]
    exact command_done H (if_neg fun hc => h ((bindClash_iff ..).1 hc))
  · rw [hself, hfjob]
  · rw [hctx, State.ctx_updCtx_ne _ _ _ _ hne]
    rfl
  · obtain ⟨hempty, hcoll⟩ := hnew hnone
    rw [hself]
    refine ⟨(hempty _).1, (hempty _).2, fun x hx => ?_⟩
    rw [hcoll] at hx
    exact bne_iff_ne.1 (List.mem_filter.1 hx).2

end

end

/-! ## The commands together -/

/-- Settles O55: what each command refuses, in the order of its checks, and what it makes of the part. -/
theorem partitionCommands : Obligations.partition_commands := by
  intro d s fn
  refine ⟨fun H => ⟨partCreate_invalid H, fun hm hf96 hg96 hf hg => ?_⟩,
    fun H => ⟨partDestroy_invalid H, partDestroy_wrongState H,
      fun p hp hc => ⟨_, partDestroy_done H hp hc, withoutPart_gone (s.takeDesc fn) (operand d 0 1) p⟩⟩,
    fun H => ⟨granMove_unknown H, fun p q hp hq => ⟨granMove_invalid H hp hq, fun hg hbit hab hs => ⟨fun h => ?_, fun hne ha hb hidle => ?_⟩⟩⟩,
    fun H => ⟨arbWeight_unknown H, fun key hk => ⟨arbWeight_invalid H hk, arbWeight_done H hk⟩⟩,
    fun H => ⟨imageLoad_unknown H, fun key hk hd => ⟨imageLoad_invalid H hk, imageLoad_done H hk hd⟩⟩,
    fun H => ⟨gateReq_unknown H, fun key hk => ⟨gateReq_invalid H hk, fun hok hkey => ⟨gateReq_wrongState H hk hok hkey,
      fun hopen hdiff => ⟨gateReq_noFrame H hk hok hkey hopen hdiff, fun f hf => ?_⟩⟩⟩⟩,
    fun H => ⟨gateClose_unknown H, fun key hk => ⟨fun g hg => ⟨gateClose_unlisted H hk hg, gateClose_closes H hk hg⟩,
      fun hg => ⟨gateClose_lapses H hk hg, gateClose_none H hk hg⟩⟩⟩,
    fun H => ⟨routeLoad_unknown H, fun key rest hk => ⟨routeLoad_invalid H hk, routeLoad_done H hk⟩⟩,
    fun H => ⟨groupLoad_unknown H, fun key rest hk => ⟨groupLoad_invalid H hk, groupLoad_done H hk⟩⟩,
    fun H => ⟨jobBind_unknown H, fun key hk => ⟨jobBind_invalid H hk, fun hjob hdev ht0 ht =>
      ⟨jobBind_wrongState H hk hjob hdev ht0 ht, jobBind_done H hk hjob hdev ht0 ht⟩⟩⟩⟩
  · have hb := not_breaks hm hf96 hg96 hg
    refine ⟨partCreate_wrongState H hf hb, fun hparts hcf hcg => ⟨partCreate_full H hf hb hparts hcf hcg, fun i hi hfree hfirst =>
      ⟨_, partCreate_made H hf hb hparts hcf hcg hi hfree hfirst, ?_⟩⟩⟩
    exact settle_made (s.takeDesc fn) (fun h => (hg h).1) i
  · refine granMove_wrongState H hp hq hg hbit hab hs ?_
    simpa only [leavesWith_iff] using h
  · have hidle' : ∀ k c, SMap.find? s.ctxs k = some c → k / 128 = operand d 1 1 → ∀ x ∈ c.s2, c.leavesWith (operand d 0 1) x = true →
        s.untouched x.2 = true := fun k c hc hk x hx hl => hidle k c hc hk x hx (leavesWith_iff.1 hl)
    exact ⟨_, granMove_done H hp hq hg hbit hab hs hne ha hb hidle', moveIn_made (s := s.takeDesc fn) hs hab _ p q hidle'⟩
  · refine ⟨fun hnot => ⟨_, gateReq_recorded H hk hok hkey hopen hdiff hf hnot, rfl, recorded_requests hdiff⟩,
      gateReq_held H hk hok hkey hopen hdiff hf, fun hall hnone => ?_⟩
    have htab := tables_openGate (s := s.takeDesc fn) (d := d) f
    have hgates : (openGate (s.takeDesc fn) d f).gates = _ := congrArg Prod.fst htab
    have hreqs : (openGate (s.takeDesc fn) d f).gateReqs = _ := congrArg Prod.snd htab
    refine ⟨_, newGate d f, gateReq_opens H hk hok hkey hopen hdiff hf hall hnone, by rw [hgates, SMap.find?_set_self], rfl, rfl, rfl, rfl, rfl, rfl,
      rfl, fun r hr => ?_, fun hw => ⟨rfl, fun k c i hkk hc hi hnone => openGate_window (s := s.takeDesc fn) hw hkk hc hi hnone⟩⟩
    rw [hreqs] at hr
    simpa using (List.mem_filter.1 hr).2

end Sys2Proof.Machine.JobCommands
end

