-- ==== Sys2Proof/Proofs/HostBytes.lean ====
section
/-!
Bytes that firmware writes to host memory and reads back (R384, R405): a list of bytes, a number, and a list of words.
-/
namespace Sys2Proof.Machine

theorem Mem.get_writeBytes_ne {m : Mem} (h : m.wf = true) (bs : List Byte) {a b : Nat} (hb : b < a ∨ a + bs.length ≤ b) :
    Mem.get (Mem.writeBytes m a bs) b = Mem.get m b := by
  induction bs generalizing m a with
  | nil => rfl
  | cons x bs ih =>
    rw [List.length_cons] at hb
    rw [Mem.writeBytes, ih (Mem.wf_set h a x) (by omega)]
    exact Mem.get_set_ne h _ _ _ (by omega)

theorem Mem.get_writeBytes_of {m : Mem} (h : m.wf = true) (bs : List Byte) (a : Nat) {k : Nat} (hk : k < bs.length) :
    Mem.get (Mem.writeBytes m a bs) (a + k) = bs[k] := by
  induction bs generalizing m a k with
  | nil => simp at hk
  | cons x bs ih =>
    rw [Mem.writeBytes]
    cases k with
    | zero =>
      rw [Mem.get_writeBytes_ne (Mem.wf_set h a x) bs (by omega)]
      exact Mem.get_set_self h a x
    | succ k =>
      have hlt : k < bs.length := by simpa using hk
      rw [show a + (k + 1) = a + 1 + k by omega, ih (Mem.wf_set h a x) (a + 1) hlt]
      rfl

theorem Mem.readBytes_writeBytes_slice {m : Mem} (h : m.wf = true) (bs : List Byte) (a : Nat) {i n : Nat} (hn : i + n ≤ bs.length) :
    Mem.readBytes (Mem.writeBytes m a bs) (a + i) n = (bs.drop i).take n := by
  refine List.ext_getElem (by simp [Mem.readBytes]; omega) fun k h1 h2 => ?_
  have hk : k < n := by simpa [Mem.readBytes] using h1
  simp only [Mem.readBytes, List.getElem_map, List.getElem_range, List.getElem_take, List.getElem_drop]
  rw [Nat.add_assoc]
  exact Mem.get_writeBytes_of h bs a (by omega)

theorem Mem.readBytes_writeBytes {m : Mem} (h : m.wf = true) (bs : List Byte) (a : Nat) :
    Mem.readBytes (Mem.writeBytes m a bs) a bs.length = bs := by
  simpa using Mem.readBytes_writeBytes_slice h bs a (i := 0) (n := bs.length) (by omega)

theorem Mem.read_eq_leNat (m : Mem) (a n : Nat) : Mem.read m a n = leNat (Mem.readBytes m a n) := by
  induction n generalizing a with
  | zero => rfl
  | succ n ih =>
    have hcons : Mem.readBytes m a (n + 1) = Mem.get m a :: Mem.readBytes m (a + 1) n := by
      rw [Mem.readBytes, List.range_succ_eq_map, List.map_cons, List.map_map]
      exact congrArg (Mem.get m a :: ·) (List.map_congr_left fun k _ => congrArg (Mem.get m) (by omega))
    rw [Mem.read, ih (a + 1), hcons]
    rfl

/-- The bytes of one of several numbers, written one after another. -/
theorem slice_flatMap_leBytes {ws : List Nat} {i v : Nat} (hi : ws[i]? = some v) (n : Nat) :
    ((ws.flatMap fun w => leBytes w n).drop (n * i)).take n = leBytes v n ∧ n * i + n ≤ (ws.flatMap fun w => leBytes w n).length := by
  induction ws generalizing i with
  | nil => simp at hi
  | cons w ws ih =>
    cases i with
    | zero =>
      obtain rfl : w = v := by simpa using hi
      simp
    | succ i =>
      obtain ⟨htake, hlen⟩ := ih (by simpa using hi)
      rw [List.flatMap_cons, Nat.mul_succ, Nat.add_comm (n * i) n, List.length_append, length_leBytes]
      refine ⟨?_, by omega⟩
      rw [List.drop_append, length_leBytes, List.drop_eq_nil_of_le (by simp), List.nil_append, Nat.add_sub_cancel_left]
      exact htake

end Sys2Proof.Machine
end

