-- ==== Sys2Proof/Proofs/ContextCommands.lean ====
section
/-!
The commands that start, stop, resume and reset contexts, and those that read and debug them (R278, R363, R370, R373, R374, R384, R402, R404,
R405).
-/
namespace Sys2Proof.Machine.ContextCommands

open CommandQueue PartitionCommands JobCommands ContextSteps

section
variable {d : Desc} {s : State} {fn key : Nat}

/-- A command with a body that answers the same. -/
theorem command_congr {vf recovery : Bool} {used : List (Nat × Nat)} {body body' : State → Cmd} (H : Takes s fn d vf recovery used)
    (hb : body (s.takeDesc fn) = body' (s.takeDesc fn)) : command d vf recovery used body s = command d vf recovery used body' s := by
  rw [command_takes H, command_takes H, hb]

/-! ## The start (R278, R402) -/

/-- What the start of a context shows of it. -/
def starts (i : Image) (measured : List Byte) (x : Context × Bool) : Context × Bool :=
  ({ x.1 with image := some i, measured := measured, phase := .saved 0, startAs := some 0 }, true)

/-- The part with a context that is ready to start. -/
def startReady (s : State) (key ga : Nat) (i : Image) : State :=
  let t := (s.updCtx key fun c => { c with image := some i }).openBlock key i
  t.updCtx key fun c => { c with measured := t.measureText key ga i, phase := .saved 0, startAs := some 0 }

theorem view_startReady (s : State) (key ga : Nat) (i : Image) : ∃ measured, (startReady s key ga i).view = editView s.view key (starts i measured) := by
  have hready (t : State) (m : List Byte) : (t.updCtx key fun c => { c with measured := m, phase := .saved 0, startAs := some 0 }).view =
      editView t.view key fun x => ({ x.1 with measured := m, phase := .saved 0, startAs := some 0 }, x.2) := view_updCtx fun _ => rfl
  have hopen (t : State) : (t.openBlock key i).view = editView t.view key fun x => (x.1, true) := by
    simp only [State.openBlock]
    rw [view_updCtx (F := fun x => (x.1, true)) fun _ => rfl, view_writeVirt]
  have himage : (s.updCtx key fun c => { c with image := some i }).view = editView s.view key fun x => ({ x.1 with image := some i }, x.2) :=
    view_updCtx fun _ => rfl
  generalize ht : (s.updCtx key fun c => { c with image := some i }).openBlock key i = t
  have hview : t.view = editView s.view key ((fun x => (x.1, true)) ∘ fun x => ({ x.1 with image := some i }, x.2)) := by
    rw [← ht, hopen, himage, editView_editView]
  have hdef : startReady s key ga i = t.updCtx key fun c => { c with measured := t.measureText key ga i, phase := .saved 0, startAs := some 0 } := by
    rw [startReady, ht]
  refine ⟨t.measureText key ga i, ?_⟩
  rw [hdef, hready, hview, editView_editView]
  generalize t.measureText key ga i = m
  exact congrArg (editView s.view key) (funext fun _ => rfl)

/-- What every restore does to what shows of a context. -/
def Restores (F : Context × Bool → Context × Bool) : Prop :=
  ∀ x, (F x).1.phase = .running ∧ (F x).1.image = x.1.image ∧ (F x).1.migrating = x.1.migrating ∧ (F x).1.migStopped = x.1.migStopped ∧ (F x).2 = x.2

theorem view_restore (s : State) (key : Nat) : ∃ F, (s.restore key).view = editView s.view key F ∧ Restores F := by
  cases hs : (s.ctx key).startAs with
  | some why =>
    have heq : s.restore key = (s.updCtx key fun c => { c with phase := .running, startAs := none }).launch key why := by
      unfold State.restore
      rw [hs]
    exact ⟨started, by rw [heq, view_launch, view_started], fun _ => ⟨rfl, rfl, rfl, rfl, rfl⟩⟩
  | none =>
    generalize hlen : saveLen (s.ctxCores key).length = len
    rw [restore_eq_restoreBy]
    cases hf : (s.billRead key len).areaFault key (s.guestBytes key (s.saveBase key) len) with
    | some r =>
      rw [restoreBy_fault hs hlen hf]
      exact ⟨lost r true true, by rw [view_loseContext, view_billRead], fun _ => ⟨rfl, rfl, rfl, rfl, rfl⟩⟩
    | none =>
      generalize hu : (s.billRead key len).loadContext key (s.guestBytes key (s.saveBase key) len) = u
      have hview : u.view = editView s.view key loaded := by
        rw [← hu]
        exact (view_loadContext ..).trans (congrArg (editView · key loaded) (view_billRead ..))
      rw [restoreBy_sound hs hlen hu hf]
      obtain ⟨b, hb⟩ := view_resumed u key
      rw [hview, editView_editView] at hb
      exact ⟨_, hb, fun _ => ⟨rfl, rfl, rfl, rfl, rfl⟩⟩

/-- A restore where the context is due for one. -/
theorem view_restoreIf (s : State) (key : Nat) : ∃ F, (if s.restoreReady key then s.restore key else s).view = editView s.view key F ∧
    ∀ x, ((F x).1.phase = .running ∨ (F x).1.phase = x.1.phase) ∧ (F x).1.image = x.1.image ∧ (F x).1.migrating = x.1.migrating ∧
      (F x).1.migStopped = x.1.migStopped ∧ (F x).2 = x.2 := by
  split
  · obtain ⟨F, hF, hr⟩ := view_restore s key
    exact ⟨F, hF, fun x => ⟨.inl (hr x).1, (hr x).2⟩⟩
  · exact ⟨id, (editView_id s.view key).symm, fun x => ⟨.inr rfl, rfl, rfl, rfl, rfl⟩⟩

section
variable (H : Takes s fn d true false [(0, 2), (8, 8)])
include H

theorem ctxStart_unknown (h : s.ctxArg d 0 = none) : execCtxStart d s = .next ((s.takeDesc fn).complete fn d.htag 1 0) := by
  unfold execCtxStart
  exact command_done H (onCtx_none h _)

variable (hk : s.ctxArg d 0 = some key)
include hk

theorem ctxStart_wrongState (h : (s.ctx key).phase ≠ .created) : execCtxStart d s = .next ((s.takeDesc fn).complete fn d.htag 4 0) := by
  unfold execCtxStart
  exact command_done H ((onCtx_some hk _).trans (if_pos h))

variable (hphase : (s.ctx key).phase = .created)
include hphase

theorem ctxStart_noHeader (h : operand d 8 8 % 64 ≠ 0 ∨ s.guestNat key (operand d 8 8) 256 = none) :
    execCtxStart d s = .next ((s.takeDesc fn).complete fn d.htag 1 0) := by
  unfold execCtxStart
  refine command_done H ((onCtx_some hk _).trans ((if_neg (not_not.2 hphase)).trans ?_))
  split
  · rfl
  · next hal =>
    have hnone : (s.takeDesc fn).guestNat key (operand d 8 8) 256 = none := h.resolve_left hal
    rw [hnone]
    rfl

variable (hal : operand d 8 8 % 64 = 0) {h : Nat} (hh : s.guestNat key (operand d 8 8) 256 = some h)
include hal hh

/-- A start whose header can be read. -/
theorem execCtxStart_of : execCtxStart d s = command d true false [(0, 2), (8, 8)] (fun _ =>
    if !headerOk h then cmdInvalid (s.takeDesc fn)
    else cmdOk (if (startReady (s.takeDesc fn) key (operand d 8 8) (imageOf h)).restoreReady key then
      (startReady (s.takeDesc fn) key (operand d 8 8) (imageOf h)).restore key
      else startReady (s.takeDesc fn) key (operand d 8 8) (imageOf h))) s := by
  have hh' : (s.takeDesc fn).guestNat key (operand d 8 8) 256 = some h := hh
  rw [execCtxStart, command_takes H, command_takes H, onCtx_some hk, if_neg (not_not.2 hphase), if_neg (not_not.2 hal), hh']
  rfl

theorem ctxStart_badHeader (hbad : headerOk h = false) : execCtxStart d s = .next ((s.takeDesc fn).complete fn d.htag 1 0) := by
  rw [execCtxStart_of H hk hphase hal hh]
  exact command_done H (if_pos (by rw [hbad]; rfl))

theorem ctxStart_starts (hok : headerOk h = true) : ∃ t : State, execCtxStart d s = .next (t.complete fn d.htag 0 0) ∧
    (t.ctx key).image = some (imageOf h) ∧ (t.ctx key).evMap ≠ none ∧ ((t.ctx key).phase = .saved 0 ∨ (t.ctx key).phase = .running) := by
  obtain ⟨m, hm⟩ := view_startReady (s.takeDesc fn) key (operand d 8 8) (imageOf h)
  obtain ⟨F, hF, hkeep⟩ := view_restoreIf (startReady (s.takeDesc fn) key (operand d 8 8) (imageOf h)) key
  rw [hm, editView_editView] at hF
  have hsome : (SMap.find? (s.takeDesc fn).ctxs key).isSome = true := isSome_of_ctxArg hk
  have hframe := frame_of_edit_self hF hsome
  have hout := execCtxStart_of H hk hphase hal hh
  generalize (if (startReady (s.takeDesc fn) key (operand d 8 8) (imageOf h)).restoreReady key then
    (startReady (s.takeDesc fn) key (operand d 8 8) (imageOf h)).restore key
    else startReady (s.takeDesc fn) key (operand d 8 8) (imageOf h)) = t at hF hframe hout
  obtain ⟨hph, hi, -, -, hev⟩ := hkeep (starts (imageOf h) m ((s.takeDesc fn).ctx key).frame)
  refine ⟨t, ?_, ?_, ?_, ?_⟩
  · rw [hout]
    exact command_done H (if_neg (by rw [hok]; simp))
  · exact (congrArg (·.1.image) hframe).trans hi
  · have hmap : (t.ctx key).evMap.isSome = true := (congrArg Prod.snd hframe).trans hev
    exact Option.isSome_iff_ne_none.1 hmap
  · have hphase' : (t.ctx key).phase = _ := congrArg (·.1.phase) hframe
    rcases hph with hph | hph
    · exact .inr (hphase'.trans hph)
    · exact .inl (hphase'.trans hph)

end

/-! ## The stop and the resumption (R363, R366, R370, R373) -/

section
variable (H : Takes s fn d true false [(0, 2)])
include H

theorem ctxStop_unknown (h : s.ctxArg d 0 = none) : execCtxStop d s = .next ((s.takeDesc fn).complete fn d.htag 1 0) := by
  unfold execCtxStop
  exact command_done H (onCtx_none h _)

theorem ctxResume_unknown (h : s.ctxArg d 0 = none) : execCtxResume d s = .next ((s.takeDesc fn).complete fn d.htag 1 0) := by
  unfold execCtxResume
  exact command_done H (onCtx_none h _)

variable (hk : s.ctxArg d 0 = some key)
include hk

theorem ctxStop_moving (hm : (s.ctx key).migrating ≠ none) (hs : (s.ctx key).migStopped = true) :
    execCtxStop d s = .next ((s.takeDesc fn).complete fn d.htag 4 0) := by
  unfold execCtxStop
  exact command_done H ((onCtx_some hk _).trans (if_pos ⟨Option.isSome_iff_ne_none.2 hm, hs⟩))

section
variable (hm : (s.ctx key).migrating = none ∨ (s.ctx key).migStopped = false)
include hm

/-- A stop of a context that no move has stopped. -/
theorem execCtxStop_of : execCtxStop d s = command d true false [(0, 2)] (fun _ =>
    match (s.ctx key).phase with
    | .running => .later (((s.takeDesc fn).updCtx key fun c => { c with stopper := some (d.fn, d.htag) }).startSave key 1)
    | .saving 0 => .later (((s.takeDesc fn).withdrawAll key true).updCtx key fun c => { c with stopper := some (d.fn, d.htag), phase := .saving 1 })
    | .saved 0 => cmdOk (((s.takeDesc fn).withdrawAll key true).updCtx key fun c => { c with phase := .saved 1 })
    | _ => cmdWrongState (s.takeDesc fn)) s := by
  have hnot : ¬ ((s.ctx key).migrating.isSome = true ∧ (s.ctx key).migStopped = true) := by
    rintro ⟨h1, h2⟩
    rcases hm with hm | hm
    · rw [hm] at h1
      cases h1
    · rw [hm] at h2
      cases h2
  unfold execCtxStop
  exact command_congr H ((onCtx_some hk _).trans (if_neg hnot))

theorem ctxStop_saves (h : (s.ctx key).phase = .running ∨ (s.ctx key).phase = .saving 0) : ∃ t : State, execCtxStop d s = .next t ∧
    (t.ctx key).phase = .saving 1 ∧ (t.ctx key).stopper = some (d.fn, d.htag) := by
  have hsome : (SMap.find? (s.takeDesc fn).ctxs key).isSome = true := isSome_of_ctxArg hk
  rw [execCtxStop_of H hk hm]
  rcases h with h | h
  · refine ⟨_, command_later H (by rw [h]), ?_⟩
    have hview := (view_startSave ((s.takeDesc fn).updCtx key fun c => { c with stopper := some (d.fn, d.htag) }) key 1).trans
      (congrArg (editView · key _) (view_updCtx (F := fun x => ({ x.1 with stopper := some (d.fn, d.htag) }, x.2)) fun _ => rfl))
    rw [editView_editView] at hview
    have hframe := frame_of_edit_self hview hsome
    exact ⟨congrArg (·.1.phase) hframe, congrArg (·.1.stopper) hframe⟩
  · refine ⟨((s.takeDesc fn).withdrawAll key true).updCtx key fun c => { c with stopper := some (d.fn, d.htag), phase := .saving 1 },
      command_later H (by simp only [h]), ?_⟩
    have hview := (view_updCtx (s := (s.takeDesc fn).withdrawAll key true) (k := key)
      (f := fun c => { c with stopper := some (d.fn, d.htag), phase := .saving 1 })
      (F := fun x => ({ x.1 with stopper := some (d.fn, d.htag), phase := .saving 1 }, x.2)) fun _ => rfl).trans
      (congrArg (editView · key _) (view_withdrawAll ..))
    have hframe := frame_of_edit_self hview hsome
    exact ⟨congrArg (·.1.phase) hframe, congrArg (·.1.stopper) hframe⟩

theorem ctxStop_saved (h : (s.ctx key).phase = .saved 0) : ∃ t : State, execCtxStop d s = .next (t.complete fn d.htag 0 0) ∧
    (t.ctx key).phase = .saved 1 := by
  rw [execCtxStop_of H hk hm]
  refine ⟨((s.takeDesc fn).withdrawAll key true).updCtx key fun c => { c with phase := .saved 1 }, command_done H ?_, ?_⟩
  · simp only [h, cmdOk]
  exact withdrawn_phase (s := s.takeDesc fn) (fun hc => by
    have hc' : (s.ctx key).phase = .created := hc
    rw [h] at hc'
    cases hc') _

theorem ctxStop_wrongState (h : (s.ctx key).phase = .created ∨ (s.ctx key).phase = .saved 1 ∨ (s.ctx key).phase = .lost) :
    execCtxStop d s = .next ((s.takeDesc fn).complete fn d.htag 4 0) := by
  rw [execCtxStop_of H hk hm]
  refine command_done H ?_
  rcases h with h | h | h <;> simp only [h, cmdWrongState]

end

theorem ctxResume_wrongState (h1 : (s.ctx key).phase ≠ .saved 1) (h3 : (s.ctx key).phase ≠ .saved 3) :
    execCtxResume d s = .next ((s.takeDesc fn).complete fn d.htag 4 0) := by
  unfold execCtxResume
  exact command_done H ((onCtx_some hk _).trans (if_pos ⟨h1, h3⟩))

/-- A resumption at once, or in the context's next slice. -/
theorem ctxResume_resumes (h : (s.ctx key).phase = .saved 1 ∨ (s.ctx key).phase = .saved 3) :
    execCtxResume d s = .next (State.complete (if ((s.takeDesc fn).updCtx key fun c => { c with phase := .saved 0 }).restoreReady key then
      ((s.takeDesc fn).updCtx key fun c => { c with phase := .saved 0 }).restore key
      else (s.takeDesc fn).updCtx key fun c => { c with phase := .saved 0 }) fn d.htag 0 0) := by
  unfold execCtxResume
  exact command_done H ((onCtx_some hk _).trans (if_neg fun hn => h.elim hn.1 hn.2))

end

/-! ## The reset of a function (R374, R400) -/

/-- Where firmware takes a descriptor, no command runs (R400). -/
theorem no_stopper_of_next (h : s.nextDesc = some (fn, d)) (gn : Nat) : s.stopping gn = false := by
  cases hr : s.commandRuns with
  | true =>
    have hnil : s.waitingFns = [] := by rw [State.waitingFns, if_pos hr]
    simp [State.nextDesc, hnil] at h
  | false =>
    simp only [State.commandRuns, Bool.or_eq_false_iff, List.any_eq_false] at hr
    rw [State.stopping, List.any_eq_false]
    intro c hc hstop
    have hnone : c.2.stopper = none := by simpa using hr.1 c hc
    rw [hnone] at hstop
    cases hstop

section
variable (H : Takes s fn d false false [(0, 1)])
include H

theorem vfReset_invalid (h : operand d 0 1 = 0 ∨ 96 < operand d 0 1) :
    execVfReset d s = .next ((s.takeDesc fn).complete fn d.htag 1 0) := by
  unfold execVfReset
  exact command_done H (if_pos h)

/-- A function asked for a reset by a command. -/
def resetAsked (s : State) (f : Nat) (tag : BitVec 32) : State := s.updFn f fun h => { h with flr := true, resetBy := some tag }

theorem vfReset_resets (h1 : 1 ≤ operand d 0 1) (h96 : operand d 0 1 ≤ 96) :
    execVfReset d s = .next ((resetAsked (s.takeDesc fn) (operand d 0 1) d.htag).resetFn (operand d 0 1)) := by
  have hbusy : ((resetAsked (s.takeDesc fn) (operand d 0 1) d.htag).fnBusy (operand d 0 1)) = false := by
    have hstop : (resetAsked (s.takeDesc fn) (operand d 0 1) d.htag).stopping (operand d 0 1) = false := no_stopper_of_next H.next _
    have hne : (operand d 0 1 == 0) = false := by
      rw [beq_eq_false_iff_ne]
      omega
    rw [State.fnBusy, hstop, hne, Bool.false_and, Bool.or_false]
  have hask : (s.takeDesc fn).askReset (operand d 0 1) (some d.htag) =
      if (resetAsked (s.takeDesc fn) (operand d 0 1) d.htag).fnBusy (operand d 0 1) then resetAsked (s.takeDesc fn) (operand d 0 1) d.htag
      else (resetAsked (s.takeDesc fn) (operand d 0 1) d.htag).resetFn (operand d 0 1) := rfl
  unfold execVfReset
  refine command_later H ((if_neg (by omega)).trans ?_)
  rw [hask, hbusy]
  rfl

end

/-- The command that asked for a reset completes with it. -/
theorem resetFn_done (s : State) (f : Nat) (tag : BitVec 32) : ((((resetAsked s f tag).resetFn f).fnOf 0).done).getLast? = some (tag, 0, 0) := by
  have hby : ((resetAsked s f tag).fnOf f).resetBy = some tag := congrArg HostFn.resetBy (fnOf_updFn_self ..)
  rw [resetFn_eq, hby]
  have hdone := congrArg HostFn.done (fnOf_updFn_self (told (resetAsked s f tag) f) 0 fun h =>
    { h with done := h.done ++ [(tag, 0, 0)], headDone := h.headDone + 1, msix := h.msix ||| 1 })
  exact (congrArg List.getLast? hdone).trans List.getLast?_concat

/-! ## Counters (R384) -/

/-- What a write of host memory leaves alone. -/
theorem putHost_keeps (s : State) (fn a : Nat) (bs : List Byte) : ((s.takeDesc fn).putHost a bs).ctxs = s.ctxs ∧
    ((s.takeDesc fn).putHost a bs).dram = s.dram ∧ ((s.takeDesc fn).putHost a bs).hostMem = Mem.writeBytes s.hostMem a bs := ⟨rfl, rfl, rfl⟩

section
variable (H : Takes s fn d false false [(0, 2), (8, 8)])
include H

theorem cntRead_unknown (h : s.ctxArg d 0 = none) : execCntRead d s = .next ((s.takeDesc fn).complete fn d.htag 1 0) := by
  unfold execCntRead
  exact command_done H (onCtx_none h _)

theorem cntRead_done (hk : s.ctxArg d 0 = some key) (hm : s.hostMem.wf = true) : ∃ t : State,
    execCntRead d s = .next (t.complete fn d.htag 0 0) ∧ t.ctxs = s.ctxs ∧
      ∀ i v, (s.ctx key).counters.words[i]? = some v → Mem.read t.hostMem (operand d 8 8 + 8 * i) 8 = v := by
  refine ⟨(s.takeDesc fn).putHost (operand d 8 8) ((s.ctx key).counters.words.flatMap fun w => leBytes w 8), ?_, (putHost_keeps ..).1, fun i v hi => ?_⟩
  · unfold execCntRead
    exact command_done H (onCtx_some hk _)
  · obtain ⟨hslice, hlen⟩ := slice_flatMap_leBytes hi 8
    generalize ((s.ctx key).counters.words.flatMap fun w => leBytes w 8) = bs at hslice hlen
    have hbytes : Mem.readBytes (Mem.writeBytes s.hostMem (operand d 8 8) bs) (operand d 8 8 + 8 * i) 8 = leBytes v 8 := by
      rw [Mem.readBytes_writeBytes_slice hm _ _ hlen, hslice]
    have hv : v < 256 ^ 8 := by
      obtain ⟨w, -, rfl⟩ := List.mem_map.1 (List.mem_of_getElem? hi)
      exact w.isLt
    rw [(putHost_keeps ..).2.2, Mem.read_eq_leNat, hbytes, leNat_leBytes, Nat.mod_eq_of_lt hv]

end

/-! ## Attestation (R405) -/

section
variable (H : Takes s fn d true true [(0, 2), (8, 40)])
include H

theorem attest_invalid (h : s.ctxArg d 0 = none) (hn : d.fn ≠ 0 ∨ operand d 0 2 ≠ 0) :
    execAttest d s = .next ((s.takeDesc fn).complete fn d.htag 1 0) := by
  have h' : (s.takeDesc fn).ctxArg d 0 = none := h
  unfold execAttest
  exact command_done H (if_pos ⟨by rw [h']; rfl, hn⟩)

omit H in
theorem report_takeDesc (nonce : List Byte) (m3 : Option (List Byte)) : (s.takeDesc fn).report nonce m3 = s.report nonce m3 := by
  have hconfig : (s.takeDesc fn).config = s.config := rfl
  have hrun : (s.takeDesc fn).mgmt.running = s.mgmt.running := rfl
  simp only [State.report, State.reportBody, hconfig, hrun]

/-- A report in host memory. -/
theorem attest_done (hm : s.hostMem.wf = true) (h : s.ctxArg d 0 ≠ none ∨ (d.fn = 0 ∧ operand d 0 2 = 0)) : ∃ t : State,
    execAttest d s = .next (t.complete fn d.htag 0 0) ∧ t.ctxs = s.ctxs ∧ t.dram = s.dram ∧
      ∀ report, report = s.report (leBytes (operand d 16 32) 32) ((s.ctxArg d 0).map fun k => (s.ctx k).measured) →
        Mem.readBytes t.hostMem (operand d 8 8) report.length = report := by
  refine ⟨(s.takeDesc fn).putHost (operand d 8 8) (s.report (leBytes (operand d 16 32) 32) ((s.ctxArg d 0).map fun k => (s.ctx k).measured)),
    ?_, (putHost_keeps ..).1, (putHost_keeps ..).2.1, ?_⟩
  · have hmeasured : (s.takeDesc fn).ctxArg d 0 = s.ctxArg d 0 := rfl
    have hctx : (fun k => ((s.takeDesc fn).ctx k).measured) = fun k => (s.ctx k).measured := rfl
    unfold execAttest
    refine command_done H ?_
    dsimp only
    rw [hmeasured, hctx, report_takeDesc, if_neg]
    · rfl
    · rintro ⟨hnone, hbad⟩
      rcases h with h | ⟨hf, ho⟩
      · exact h (Option.isNone_iff_eq_none.1 hnone)
      · exact hbad.elim (absurd hf) (absurd ho)
  · rintro report rfl
    rw [(putHost_keeps ..).2.2]
    exact Mem.readBytes_writeBytes hm _ _

end

/-! ## The debugger (R113, R373) -/

section
variable (H : Takes s fn d false false [(0, 2)])
include H

theorem dbgAttach_unknown (h : s.ctxArg d 0 = none) : execDbgAttach d s = .next ((s.takeDesc fn).complete fn d.htag 1 0) := by
  unfold execDbgAttach
  exact command_done H (onCtx_none h _)

theorem dbgDetach_unknown (h : s.ctxArg d 0 = none) : execDbgDetach d s = .next ((s.takeDesc fn).complete fn d.htag 1 0) := by
  unfold execDbgDetach
  exact command_done H (onCtx_none h _)

variable (hk : s.ctxArg d 0 = some key)
include hk

theorem dbgAttach_done : execDbgAttach d s =
    .next (State.complete ((s.takeDesc fn).updCtx key fun c => { c with debugger := true }) fn d.htag 0 0) := by
  unfold execDbgAttach
  exact command_done H (onCtx_some hk _)

theorem dbgDetach_done : execDbgDetach d s =
    .next (State.complete ((s.takeDesc fn).updCtx key fun c => { c with debugger := false }) fn d.htag 0 0) := by
  unfold execDbgDetach
  exact command_done H (onCtx_some hk _)

end

/-- The seal is over what a context's array maps of DRAM. -/
theorem sealNow_eq {t : State} (hs2 : (t.ctx key).s2 = (s.ctx key).s2) (hlen : (t.ctx key).s2len = (s.ctx key).s2len)
    (himage : (t.ctx key).image = (s.ctx key).image) (hparts : t.parts = s.parts) (hdram : t.dram = s.dram) (n : Nat) :
    t.sealNow key n = s.sealNow key n := by
  have hbase : t.saveBase key = s.saveBase key := by rw [State.saveBase, himage, State.saveBase]
  have hcores : t.ctxCores key = s.ctxCores key := by rw [State.ctxCores, State.coresOf, hparts, State.ctxCores, State.coresOf]
  have hbytes (a k : Nat) : t.guestBytes key a k = s.guestBytes key a k := by
    have hwalk (ga : Nat) : t.walk2 key ga = s.walk2 key ga := by simp only [State.walk2, hs2, hlen]
    simp only [State.guestBytes, State.guestRuns, hwalk, hdram]
  rw [State.sealNow, hbase, hcores, hbytes, State.sealNow]

/-- The area of a context is sealed again as it stands. -/
theorem sealNow_reseal (hsome : (SMap.find? s.ctxs key).isSome = true) :
    ((s.reseal key).ctx key).sealVal = (s.reseal key).sealNow key ((s.reseal key).ctx key).sseq := by
  obtain ⟨c, hc⟩ := Option.isSome_iff_exists.1 hsome
  have hctx : (s.reseal key).ctx key = { s.ctx key with sealVal := s.sealNow key (s.ctx key).sseq } := by
    rw [State.reseal, State.ctx_updCtx_self hc, State.ctx_of_find? hc]
  have hs2 : ((s.reseal key).ctx key).s2 = (s.ctx key).s2 := by rw [hctx]
  have hlen : ((s.reseal key).ctx key).s2len = (s.ctx key).s2len := by rw [hctx]
  have himage : ((s.reseal key).ctx key).image = (s.ctx key).image := by rw [hctx]
  rw [sealNow_eq hs2 hlen himage (updCtx_cores ..).2.2 (updCtx_cores ..).2.1, hctx]

/-- A list that is read whole has as many elements as were asked for. -/
theorem length_of_mapM {α β : Type} {f : α → Option β} {l : List α} {ys : List β} (h : l.mapM f = some ys) : ys.length = l.length := by
  induction l generalizing ys with
  | nil =>
    cases h
    rfl
  | cons x xs ih =>
    rw [List.mapM_cons] at h
    obtain ⟨y, -, h⟩ := Option.bind_eq_some_iff.1 h
    obtain ⟨zs, hzs, h⟩ := Option.bind_eq_some_iff.1 h
    cases h
    rw [List.length_cons, List.length_cons, ih hzs]

theorem guestNat_lt {ga n v : Nat} (h : s.guestNat key ga n = some v) : v < 256 ^ n := by
  obtain ⟨bs, hbs, rfl⟩ := Option.map_eq_some_iff.1 h
  exact MatrixEngine.leNat_lt ((length_of_mapM hbs).trans List.length_range)

section
variable (H : Takes s fn d false false [(0, 3), (8, 24)])
include H

theorem dbgMem_unknown (h : s.ctxArg d 0 = none) : execDbgMem d s = .next ((s.takeDesc fn).complete fn d.htag 1 0) := by
  unfold execDbgMem
  exact command_done H (onCtx_none h _)

variable (hk : s.ctxArg d 0 = some key)
include hk

theorem dbgMem_wrongState (h : (s.ctx key).debugger = false ∨ (s.ctx key).phase ≠ .saved 3) :
    execDbgMem d s = .next ((s.takeDesc fn).complete fn d.htag 4 0) := by
  unfold execDbgMem
  exact command_done H ((onCtx_some hk _).trans (if_pos (h.imp (fun h => by rw [h]; rfl) id)))

variable (hdbg : (s.ctx key).debugger = true) (hph : (s.ctx key).phase = .saved 3)
include hdbg hph

/-- An access of the debugger to a halted context. -/
theorem execDbgMem_of : execDbgMem d s = command d false false [(0, 3), (8, 24)] (fun _ =>
    if operand d 2 1 = 0 then
      match s.guestNat key (operand d 16 8) (operand d 24 8) with
      | none => cmdInvalid (s.takeDesc fn)
      | some v => cmdOk ((s.takeDesc fn).putHost (operand d 8 8) (leBytes v (operand d 24 8)))
    else if operand d 2 1 = 1 then
      match (s.takeDesc fn).guestPieces key (operand d 16 8) (Mem.readBytes s.hostMem (operand d 8 8) (operand d 24 8)) with
      | none => cmdInvalid (s.takeDesc fn)
      | some ps => cmdOk (((s.takeDesc fn).perform key ps).reseal key)
    else cmdInvalid (s.takeDesc fn)) s := by
  have hnot : ¬ ((!(s.ctx key).debugger) = true ∨ (s.ctx key).phase ≠ .saved 3) := by simp [hdbg, hph]
  unfold execDbgMem
  exact command_congr H ((onCtx_some hk _).trans (if_neg hnot))

theorem dbgMem_invalid (h : 1 < operand d 2 1) : execDbgMem d s = .next ((s.takeDesc fn).complete fn d.htag 1 0) := by
  rw [execDbgMem_of H hk hdbg hph, if_neg (by omega), if_neg (by omega)]
  exact command_done H rfl

theorem dbgMem_unreadable (h0 : operand d 2 1 = 0) (h : s.guestNat key (operand d 16 8) (operand d 24 8) = none) :
    execDbgMem d s = .next ((s.takeDesc fn).complete fn d.htag 1 0) := by
  rw [execDbgMem_of H hk hdbg hph, if_pos h0, h]
  exact command_done H rfl

theorem dbgMem_reads {v : Nat} (h0 : operand d 2 1 = 0) (h : s.guestNat key (operand d 16 8) (operand d 24 8) = some v) (hm : s.hostMem.wf = true) :
    ∃ t : State, execDbgMem d s = .next (t.complete fn d.htag 0 0) ∧ t.dram = s.dram ∧ Mem.read t.hostMem (operand d 8 8) (operand d 24 8) = v := by
  refine ⟨(s.takeDesc fn).putHost (operand d 8 8) (leBytes v (operand d 24 8)), ?_, (putHost_keeps ..).2.1, ?_⟩
  · rw [execDbgMem_of H hk hdbg hph, if_pos h0, h]
    exact command_done H rfl
  · have hbytes := Mem.readBytes_writeBytes hm (leBytes v (operand d 24 8)) (operand d 8 8)
    rw [length_leBytes] at hbytes
    rw [(putHost_keeps ..).2.2, Mem.read_eq_leNat, hbytes, leNat_leBytes, Nat.mod_eq_of_lt (guestNat_lt h)]

theorem dbgMem_forbidden (h1 : operand d 2 1 = 1)
    (h : ∃ i, i < operand d 24 8 ∧ ∀ pa e, s.walk2 key (operand d 16 8 + i) = some (pa, e) → e.w = false) :
    execDbgMem d s = .next ((s.takeDesc fn).complete fn d.htag 1 0) := by
  have hnone : (s.takeDesc fn).guestPieces key (operand d 16 8) (Mem.readBytes s.hostMem (operand d 8 8) (operand d 24 8)) = none := by
    refine guestPieces_none ?_
    obtain ⟨i, hi, h⟩ := h
    exact ⟨i, by simpa [Mem.readBytes] using hi, h⟩
  rw [execDbgMem_of H hk hdbg hph, if_neg (by omega), if_pos h1, hnone]
  exact command_done H rfl

theorem dbgMem_writes (h1 : operand d 2 1 = 1) (hd : s.dram.wf = true)
    (h : ∀ i, i < operand d 24 8 → ∃ pa e, s.walk2 key (operand d 16 8 + i) = some (pa, e) ∧ e.w = true) :
    ∃ t : State, execDbgMem d s = .next (t.complete fn d.htag 0 0) ∧ t.hostMem = s.hostMem ∧
      (t.ctx key).sealVal = t.sealNow key (t.ctx key).sseq ∧ ∀ i pa e, i < operand d 24 8 → s.walk2 key (operand d 16 8 + i) = some (pa, e) →
        (∀ j pa' e', i < j → j < operand d 24 8 → s.walk2 key (operand d 16 8 + j) = some (pa', e') → pa' ≠ pa) →
        Mem.get t.dram pa = Mem.get s.hostMem (operand d 8 8 + i) := by
  have hlen : (Mem.readBytes s.hostMem (operand d 8 8) (operand d 24 8)).length = operand d 24 8 := by simp [Mem.readBytes]
  have hall : ∀ i, i < (Mem.readBytes s.hostMem (operand d 8 8) (operand d 24 8)).length →
      ∃ pa e, (s.takeDesc fn).walk2 key (operand d 16 8 + i) = some (pa, e) ∧ e.w = true := fun i hi => h i (hlen ▸ hi)
  obtain ⟨ps, hps⟩ : ∃ ps, (s.takeDesc fn).guestPieces key (operand d 16 8) (Mem.readBytes s.hostMem (operand d 8 8) (operand d 24 8)) = some ps :=
    ⟨_, guestPieces_of hall⟩
  obtain ⟨hnone, hbytes⟩ := guestPieces_bytes hps hall
  obtain ⟨dp, dt, reqs, ht⟩ := perform_dram hnone (s.takeDesc fn) key
  have hsome : (SMap.find? ((s.takeDesc fn).perform key ps).ctxs key).isSome = true := by
    rw [isSome_of_view (view_perform ..)]
    exact isSome_of_ctxArg hk
  refine ⟨((s.takeDesc fn).perform key ps).reseal key, ?_, ?_, sealNow_reseal hsome, fun i pa e hi hw hlast => ?_⟩
  · rw [execDbgMem_of H hk hdbg hph, if_neg (by omega), if_pos h1, hps]
    exact command_done H rfl
  · have hhost : (((s.takeDesc fn).perform key ps).reseal key).hostMem = ((s.takeDesc fn).perform key ps).hostMem := State.updCtx_hostMem ..
    rw [hhost, ht]
    rfl
  · have hdram : (((s.takeDesc fn).perform key ps).reseal key).dram = storeAll s.dram ps := by
      have hkept : (((s.takeDesc fn).perform key ps).reseal key).dram = ((s.takeDesc fn).perform key ps).dram := (updCtx_cores ..).2.1
      rw [hkept, ht]
      rfl
    rw [hdram]
    refine (hbytes s.dram hd).2 i _ pa e ?_ hw fun j pa' e' hj hjn hw' => hlast j pa' e' hj (hlen ▸ hjn) hw'
    simp [Mem.readBytes, hi]

end

/-! ## Patches (R404) -/

section
variable (H : Takes s fn d false true [(8, 16)])
include H

theorem patchLoad_valid (h : Config.bundleValid (s.hostBytes (operand d 8 8) (operand d 16 8)) = true) : execPatchLoad d s =
    .next (State.complete { s.takeDesc fn with
      mgmt := { (s.takeDesc fn).mgmt with flash := s.hostBytes (operand d 8 8) (operand d 16 8) } } fn d.htag 0 0) := by
  unfold execPatchLoad
  exact command_done H (if_pos h)

theorem patchLoad_refused (h : Config.bundleValid (s.hostBytes (operand d 8 8) (operand d 16 8)) = false) :
    execPatchLoad d s = .next ((s.takeDesc fn).complete fn d.htag 6 0) := by
  unfold execPatchLoad
  exact command_done H (if_neg (by
    intro h'
    have hval : Config.bundleValid (s.hostBytes (operand d 8 8) (operand d 16 8)) = true := h'
    rw [h] at hval
    cases hval))

end

end

end Sys2Proof.Machine.ContextCommands
end

