-- ==== Sys2Proof/Proofs/MigrationSteps.lean ====
section
/-!
What the steps of a migration leave of the contexts' phases and of the marks of a migration (R379, R380).
-/
namespace Sys2Proof.Machine

/-! ## The course of a context -/

/-- Where a context stands in its life and in a migration. -/
def Context.course (c : Context) : CtxPhase × Option Nat × Bool := (c.phase, c.migrating, c.migStopped)

/-- The partitions of a part, and the courses of its contexts. -/
def State.plan (s : State) : SMap Partition × (Nat → Option (CtxPhase × Option Nat × Bool)) :=
  (s.parts, fun k => (SMap.find? s.ctxs k).map Context.course)

/-- The course of one context. -/
def State.courseOf (s : State) (k : Nat) : Option (CtxPhase × Option Nat × Bool) := s.plan.2 k

theorem courseOf_eq (s : State) (k : Nat) : s.courseOf k = (s.ctxView k).map fun x => (x.1.phase, x.1.migrating, x.1.migStopped) := by
  rw [State.ctxView, Option.map_map]
  rfl

theorem plan_of_view {s t : State} (h : t.view = s.view) : t.plan = s.plan :=
  Prod.ext (parts_of_view h) (funext fun k => by
    have hk := congrArg (Option.map fun x => (x.1.phase, x.1.migrating, x.1.migStopped)) (ctxView_of_view h k)
    rwa [← courseOf_eq, ← courseOf_eq] at hk)

theorem course_of_courseOf {s : State} {k : Nat} {x : CtxPhase × Option Nat × Bool} (h : s.courseOf k = some x) : (s.ctx k).course = x := by
  obtain ⟨c, hc, hx⟩ := Option.map_eq_some_iff.1 h
  rw [State.ctx_of_find? hc, hx]

theorem courseOf_of_isSome {s : State} {k : Nat} (h : (SMap.find? s.ctxs k).isSome = true) : s.courseOf k = some (s.ctx k).course := by
  obtain ⟨c, hc⟩ := Option.isSome_iff_exists.1 h
  rw [State.ctx_of_find? hc]
  exact congrArg (Option.map Context.course) hc

theorem find?_updCtx_ne {s : State} {k j : Nat} (h : j ≠ k) (f : Context → Context) : SMap.find? (s.updCtx k f).ctxs j = SMap.find? s.ctxs j := by
  unfold State.updCtx
  split
  · rfl
  · exact SMap.find?_set_ne _ _ _ _ h

/-- The contexts' courses are kept but for one, to which `G` happens. -/
def Steers (s t : State) (key : Nat) (G : CtxPhase × Option Nat × Bool → CtxPhase × Option Nat × Bool) : Prop :=
  t.parts = s.parts ∧ (∀ k, k ≠ key → t.courseOf k = s.courseOf k) ∧ ∀ x, s.courseOf key = some x → t.courseOf key = some (G x)

section
variable {s t u : State} {key : Nat} {G K : CtxPhase × Option Nat × Bool → CtxPhase × Option Nat × Bool}

theorem steers_of_edit {F : Context × Bool → Context × Bool} (h : t.view = editView s.view key F)
    (hF : ∀ x, ((F x).1.phase, (F x).1.migrating, (F x).1.migStopped) = G (x.1.phase, x.1.migrating, x.1.migStopped)) : Steers s t key G := by
  refine ⟨parts_of_edit h, fun k hk => ?_, fun x hx => ?_⟩
  · rw [courseOf_eq, courseOf_eq]
    exact congrArg _ ((congrArg (·.2.2.2 k) h).trans (if_neg hk))
  · have hkey : t.ctxView key = (s.ctxView key).map F := (congrArg (·.2.2.2 key) h).trans (if_pos rfl)
    rw [courseOf_eq] at hx
    obtain ⟨y, hy, rfl⟩ := Option.map_eq_some_iff.1 hx
    rw [courseOf_eq, hkey, hy, Option.map_some, Option.map_some, hF]

theorem steers_updCtx {f : Context → Context} (hf : ∀ c, (f c).course = G c.course) : Steers s (s.updCtx key f) key G := by
  refine ⟨(PartitionCommands.updCtx_cores ..).2.2, fun k hk => ?_, fun x hx => ?_⟩
  · exact congrArg (Option.map Context.course) (find?_updCtx_ne hk f)
  · obtain ⟨c, hc, rfl⟩ := Option.map_eq_some_iff.1 hx
    rw [← hf]
    exact congrArg (Option.map Context.course) (State.find?_updCtx_self hc f)

theorem Steers.of_plan (h : Steers s t key G) (ht : u.plan = t.plan) : Steers s u key G := by
  obtain ⟨hparts, hother, hself⟩ := h
  have hcourse : u.courseOf = t.courseOf := congrArg Prod.snd ht
  rw [Steers, hcourse]
  exact ⟨(congrArg Prod.fst ht).trans hparts, hother, hself⟩

theorem Steers.after_plan (h : Steers t u key G) (ht : t.plan = s.plan) : Steers s u key G := by
  obtain ⟨hparts, hother, hself⟩ := h
  have hcourse : t.courseOf = s.courseOf := congrArg Prod.snd ht
  rw [hcourse] at hother hself
  exact ⟨hparts.trans (congrArg Prod.fst ht), hother, hself⟩

theorem Steers.trans (h : Steers s t key G) (h' : Steers t u key K) : Steers s u key (K ∘ G) := by
  obtain ⟨hparts, hother, hself⟩ := h
  obtain ⟨hparts', hother', hself'⟩ := h'
  exact ⟨hparts'.trans hparts, fun k hk => (hother' k hk).trans (hother k hk), fun x hx => hself' _ (hself x hx)⟩

end

/-- Steps over a list of contexts leave what they establish of each. -/
theorem foldl_steers {step : State → Nat → State} {G : CtxPhase × Option Nat × Bool → CtxPhase × Option Nat × Bool}
    (hstep : ∀ u k, Steers u (step u k) k G) {I J : CtxPhase × Option Nat × Bool → Prop} (hG : ∀ x, I x → J (G x)) (hJ : ∀ x, J x → I x)
    {key : Nat} : ∀ (l : List Nat) (s : State) (x : CtxPhase × Option Nat × Bool), s.courseOf key = some x → (key ∈ l ∧ I x ∨ J x) →
      ∃ y, (l.foldl step s).courseOf key = some y ∧ J y
  | [], _, x, hx, h => ⟨x, hx, h.resolve_left fun h => List.not_mem_nil h.1⟩
  | k :: l, s, x, hx, h => by
    obtain ⟨-, hother, hself⟩ := hstep s k
    by_cases hk : k = key
    · subst hk
      exact foldl_steers hstep hG hJ l (step s k) (G x) (hself x hx) (.inr (hG x (h.elim And.right (hJ x))))
    · refine foldl_steers hstep hG hJ l (step s k) x ((hother key (Ne.symm hk)).trans hx) (h.imp_left fun h => ⟨?_, h.2⟩)
      exact (List.mem_cons.1 h.1).resolve_left (Ne.symm hk)

theorem parts_foldl_steers {step : State → Nat → State} {G : CtxPhase × Option Nat × Bool → CtxPhase × Option Nat × Bool}
    (hstep : ∀ u k, Steers u (step u k) k G) (l : List Nat) (s : State) : (l.foldl step s).parts = s.parts :=
  foldl_keeps State.parts step (fun u k => (hstep u k).1) l s

theorem plan_updCtx_of {s : State} {key : Nat} {f : Context → Context} (hf : ∀ c, (f c).course = c.course) : (s.updCtx key f).plan = s.plan := by
  obtain ⟨hparts, hother, hself⟩ := steers_updCtx (s := s) (key := key) (G := id) hf
  refine Prod.ext hparts (funext fun k => ?_)
  by_cases hk : k = key
  · subst hk
    change (s.updCtx k f).courseOf k = s.courseOf k
    cases hc : s.courseOf k with
    | some x => exact hself x hc
    | none =>
      have hnone : SMap.find? s.ctxs k = none := Option.map_eq_none_iff.1 hc
      rw [State.updCtx, hnone]
      exact hc
  · exact hother k hk

/-! ## Bookings of a migration -/

@[simp] theorem view_liftBooking (s : State) (b : Booking) : (s.liftBooking b).view = s.view := by
  have hret (u : State) : ((List.range b.stages.length).foldl (fun s n => s.returnFrom b.handle n (s.slot + 1)) u).view = u.view :=
    foldl_keeps State.view (fun s n => State.returnFrom s b.handle n (s.slot + 1)) (fun _ _ => rfl) _ _
  exact Eq.trans rfl (hret s)

@[simp] theorem view_place (h : BitVec 32) (ps : List (Nat × Nat)) (s : State) (n : Nat) : (s.place h n ps).view = s.view := by
  induction ps generalizing s n with
  | nil => rfl
  | cons p ps ih =>
    obtain ⟨x, st⟩ := p
    rw [State.place]
    refine (ih ..).trans ?_
    split
    · rfl
    · split
      · rfl
      · exact view_ite rfl rfl

@[simp] theorem view_rebook (s : State) (key : Nat) (h : BitVec 32) : (s.rebook key h).view = s.view := by
  unfold State.rebook
  split
  · rfl
  · split
    · exact view_doneIfEnded ..
    · split
      · exact view_place ..
      · exact view_cancelBooking ..

/-! ## Pre-copy (R379) -/

/-- One more copy of a context that is to go to `dest`. -/
def copyTo (dest : Nat) (s : State) (k : Nat) : State :=
  (s.updCtx k fun c => { c with migrating := some dest }).copyRound k (s.ctx k).ownFrames.length

theorem plan_copyRound (s : State) (k n : Nat) : (s.copyRound k n).plan = s.plan :=
  (plan_of_view (view_billWrite ..)).trans ((plan_of_view (view_billRead ..)).trans (plan_updCtx_of fun _ => rfl))

theorem copyTo_steers (dest : Nat) (s : State) (k : Nat) : Steers s (copyTo dest s k) k fun x => (x.1, some dest, x.2.2) :=
  (steers_updCtx fun _ => rfl).of_plan (plan_copyRound ..)

theorem copyTo_keeps (dest : Nat) (s : State) (k : Nat) : ((copyTo dest s k).dram, (copyTo dest s k).cores) = (s.dram, s.cores) := by
  have hupd (u : State) (f : Context → Context) : ((u.updCtx k f).dram, (u.updCtx k f).cores) = (u.dram, u.cores) :=
    Prod.ext (PartitionCommands.updCtx_cores u k f).2.1 (PartitionCommands.updCtx_cores u k f).1
  exact (hupd ..).trans ((hupd ..).trans ((hupd ..).trans (hupd ..)))

/-! ## The stop phase (R379) -/

/-- The stop of a context for its migration. -/
def stoppedFor (x : CtxPhase × Option Nat × Bool) : CtxPhase × Option Nat × Bool :=
  (match x.1 with
    | .running => .saving 2
    | .saving 0 => .saving 2
    | .saved 0 => .saved 2
    | p => p, x.2.1, true)

theorem stopForMove_steers (s : State) (key : Nat) : Steers s (s.stopForMove key) key stoppedFor := by
  have hlift : ((s.committedOf key).foldl State.liftBooking s).plan = s.plan :=
    plan_of_view (foldl_keeps State.view _ view_liftBooking _ _)
  have hmark : Steers s ((((s.committedOf key).foldl State.liftBooking s).updCtx key fun c =>
      { c with migStopped := true, moving := s.committedOf key }).enterTransit key) key fun x => (x.1, x.2.1, true) :=
    ((steers_updCtx fun _ => rfl).of_plan rfl).after_plan hlift
  have hcase {t u : State} {p : CtxPhase} (ht : Steers s t key fun x => (x.1, x.2.1, true)) (hp : (t.ctx key).phase = p)
      (hu : Steers t u key fun x => ((stoppedFor (p, x.2)).1, x.2)) : Steers s u key stoppedFor := by
    obtain ⟨hparts, hother, hself⟩ := ht.trans hu
    refine ⟨hparts, hother, fun x hx => ?_⟩
    have hphase : x.1 = p := (congrArg Prod.fst (course_of_courseOf (ht.2.2 x hx))).symm.trans hp
    subst hphase
    exact hself x hx
  unfold State.stopForMove
  dsimp only
  generalize ((((s.committedOf key).foldl State.liftBooking s).updCtx key fun c =>
    { c with migStopped := true, moving := s.committedOf key }).enterTransit key) = t at hmark ⊢
  split
  · next hp => exact hcase hmark hp (steers_of_edit (view_startSave ..) fun _ => rfl)
  · next hp => exact hcase hmark hp (steers_updCtx fun _ => rfl)
  · next hp => exact hcase hmark hp (steers_updCtx fun _ => rfl)
  · next h1 h2 h3 =>
    refine hcase hmark rfl ⟨rfl, fun _ _ => rfl, fun x hx => ?_⟩
    have hx1 : (t.ctx key).phase = x.1 := congrArg Prod.fst (course_of_courseOf hx)
    rw [hx1] at h1 h2 h3
    have hsame : (stoppedFor ((t.ctx key).phase, x.2)).1 = x.1 := by
      rw [hx1]
      unfold stoppedFor
      split
      · next hp => exact absurd hp h1
      · next hp => exact absurd hp h2
      · next hp => exact absurd hp h3
      · rfl
    exact hx.trans (congrArg (fun p => some (p, x.2)) hsame.symm)

/-! ## The move of a context within the part (R379, R380) -/

theorem plan_abandonPage (s : State) (key g : Nat) (e : S2Entry) : (s.abandonPage key g e).plan = s.plan :=
  (plan_of_view (view_event ..)).trans rfl

theorem plan_billCopy (s : State) (key n : Nat) : (s.billCopy key n).plan = s.plan :=
  (plan_of_view (view_billWrite ..)).trans (plan_of_view (view_billRead ..))

theorem plan_moveFrames (s : State) (key : Nat) (m : Move) : (s.moveFrames key m).plan = s.plan := by
  refine foldl_keeps State.plan _ (fun t p => ?_) _ _
  obtain ⟨g, e⟩ := p
  dsimp only
  split
  · rfl
  · split
    · exact (plan_abandonPage ..).trans (plan_updCtx_of fun _ => rfl)
    · next f _ =>
      exact (plan_updCtx_of (f := fun c => { c with s2 := SMap.set c.s2 g { e with pfn := f } }) fun _ => rfl).trans rfl

theorem plan_moveHts (s : State) (key : Nat) (m : Move) : (s.moveHts key m).plan = s.plan := by
  have hclear (l : List Nat) (t : State) : (l.foldl (fun s cl => s.updHts cl fun h => h.clearKey key true) t).plan = t.plan :=
    foldl_keeps State.plan (fun s cl => State.updHts s cl fun h => h.clearKey key true) (fun _ _ => rfl) l t
  have htake (l : List (Nat × Hts)) (t : State) :
      (l.foldl (fun s x => s.updHts (m.cluster x.1) fun into => x.2.take key x.1 m into) t).plan = t.plan :=
    foldl_keeps State.plan (fun s x => State.updHts s (m.cluster x.1) fun into => x.2.take key x.1 m into) (fun _ _ => rfl) l t
  unfold State.moveHts
  exact (htake ..).trans (hclear ..)

theorem plan_moveRest (s : State) (key : Nat) (m : Move) : (s.moveRest key m).plan = s.plan :=
  Eq.trans rfl (plan_updCtx_of (key := key) (f := fun c => { c with
    kept := c.kept.map fun (n, k) => (n, k.moved m)
    keptFlights := c.keptFlights.map fun f => f.moved m
    far := c.far.map fun r => r.moved m
    evMap := c.evMap.map fun q => q.moved m
    moving := c.moving.map fun b => { b with core := m.core b.core } }) fun _ => rfl)

theorem plan_moveCtx (m : Move) (s : State) (key : Nat) : (s.moveCtx m key).plan = s.plan := by
  unfold State.moveCtx
  rw [plan_moveRest, plan_moveHts]
  exact Eq.trans rfl ((plan_moveFrames ..).trans (plan_billCopy ..))

/-- The reattachment of a context. -/
def reattached (x : CtxPhase × Option Nat × Bool) : CtxPhase × Option Nat × Bool := (if x.1 = .saved 2 then .saved 0 else x.1, none, false)

theorem reattach_steers (s : State) (key : Nat) : Steers s (s.reattach key) key reattached := by
  unfold State.reattach
  dsimp only
  refine (steers_updCtx fun _ => rfl).after_plan (plan_of_view ?_)
  refine (view_leaveTransit ..).trans ?_
  exact (foldl_keeps State.view _ (fun _ _ => view_rebook ..) _ _).trans (foldl_keeps State.view _ view_liftBooking _ _)

/-- A saved context whose migration is over runs again, or waits for its slice. -/
theorem restoreIf_course {s : State} {key : Nat} (h : s.courseOf key = some (.saved 0, none, false)) :
    (if s.restoreReady key then s.restore key else s).parts = s.parts ∧ ∃ p, (p = .saved 0 ∨ p = .running) ∧
      (if s.restoreReady key then s.restore key else s).courseOf key = some (p, none, false) := by
  obtain ⟨F, hview, hF⟩ := ContextCommands.view_restoreIf s key
  refine ⟨parts_of_edit hview, ?_⟩
  have hkey : (if s.restoreReady key then s.restore key else s).ctxView key = (s.ctxView key).map F :=
    (congrArg (·.2.2.2 key) hview).trans (if_pos rfl)
  rw [courseOf_eq] at h
  obtain ⟨y, hy, hx⟩ := Option.map_eq_some_iff.1 h
  obtain ⟨hphase, -, hmig, hstop, -⟩ := hF y
  obtain ⟨h1, h2, h3⟩ : y.1.phase = .saved 0 ∧ y.1.migrating = none ∧ y.1.migStopped = false := by simpa using hx
  rw [courseOf_eq, hkey, hy, Option.map_some, Option.map_some]
  refine ⟨(F y).1.phase, ?_, ?_⟩
  · rw [h1] at hphase
    exact hphase.symm
  · rw [hmig, hstop, h2, h3]

/-- A number is the sum of the powers of its bits. -/
theorem sum_of_bits (x n : Nat) : ((List.range n).filter x.testBit).foldl (fun m g => m + 2 ^ g) 0 = x % 2 ^ n := by
  induction n with
  | zero => exact (Nat.mod_one x).symm
  | succ n ih =>
    rw [List.range_succ, List.filter_append, List.foldl_append, ih, Nat.mod_pow_succ, ← Nat.toNat_testBit]
    cases hb : x.testBit n <;> simp [hb]

end Sys2Proof.Machine
end

