-- ==== Sys2Proof/Proofs/MigrationCommands.lean ====
section
/-!
The commands of a migration (R379, R380), and all the commands on contexts.
-/
namespace Sys2Proof.Machine.ContextCommands

open CommandQueue PartitionCommands JobCommands ContextSteps

section
variable {d : Desc} {s : State} {fn key : Nat}

/-! ## What a migration is asked for -/

theorem ctx_of_course {p : CtxPhase} {m : Option Nat} {b : Bool} (h : s.courseOf key = some (p, m, b)) :
    (s.ctx key).phase = p ∧ (s.ctx key).migrating = m ∧ (s.ctx key).migStopped = b := by
  have hx := course_of_courseOf h
  exact ⟨congrArg (·.1) hx, congrArg (·.2.1) hx, congrArg (·.2.2) hx⟩

theorem isSome_of_courseOf {x : CtxPhase × Option Nat × Bool} (h : s.courseOf key = some x) : (SMap.find? s.ctxs key).isSome = true := by
  obtain ⟨c, hc, -⟩ := Option.map_eq_some_iff.1 h
  rw [hc]
  rfl

theorem mem_movers {k dest : Nat} {c : Context} (hk : SMap.find? s.ctxs k = some c) (h : k = key ∨ s.moveTo key dest ≠ none ∧ k / 128 = key / 128) :
    k ∈ s.movers key dest := by
  unfold State.movers
  split
  · refine mem_ctxsOf_of_find? hk ?_
    rcases h with rfl | ⟨-, h⟩
    · rfl
    · exact h
  · next hnone =>
    have hnone : s.moveTo key dest = none := by simpa using hnone
    rcases h with rfl | ⟨h, -⟩
    · exact List.mem_cons_self
    · exact absurd hnone h

theorem moveTo_some {dest : Nat} {m : Move} (h : s.moveTo key dest = some m) : dest < 2 ^ Config.nGranules ∧ m.dst = granulesOf dest := by
  unfold State.moveTo at h
  split at h
  · cases h
  · dsimp only at h
    split at h
    · next hc =>
      cases h
      exact ⟨hc.1, rfl⟩
    · cases h

/-- Every context that moves to `dest` with `key` copied once more. -/
def copyAll (s : State) (key dest : Nat) : State := (s.movers key dest).foldl (copyTo dest) s

/-- Every context that moves to `dest` with `key` stopped. -/
def stopAll (s : State) (key dest : Nat) : State := (s.movers key dest).foldl State.stopForMove s

/-- A context that is copied to another place. -/
theorem copyAll_course {k dest : Nat} {c : Context} (hc : SMap.find? s.ctxs k = some c)
    (hk : k = key ∨ s.moveTo key dest ≠ none ∧ k / 128 = key / 128) :
    ((copyAll s key dest).ctx k).migrating = some dest ∧ ((copyAll s key dest).ctx k).phase = (s.ctx k).phase := by
  obtain ⟨y, hy, hphase, hmig⟩ := foldl_steers (copyTo_steers dest) (I := fun x => x.1 = (s.ctx k).phase)
    (J := fun x => x.1 = (s.ctx k).phase ∧ x.2.1 = some dest) (fun x hx => ⟨hx, rfl⟩) (fun x hx => hx.1) (s.movers key dest) s _
    (courseOf_of_isSome (Option.isSome_of_eq_some hc)) (.inl ⟨mem_movers hc hk, rfl⟩)
  obtain ⟨h1, h2, -⟩ := ctx_of_course hy
  exact ⟨h2.trans hmig, h1.trans hphase⟩

/-- A context that is stopped for its migration. -/
theorem stopAll_course (dest : Nat) (hsome : (SMap.find? s.ctxs key).isSome = true) (hphase : (s.ctx key).phase = .running) :
    ∃ m, (stopAll s key dest).courseOf key = some (.saving 2, m, true) := by
  have hstop (x : CtxPhase × Option Nat × Bool) (hx : x.1 = .running ∨ x.1 = .saving 2) : (stoppedFor x).1 = .saving 2 ∧ (stoppedFor x).2.2 = true := by
    obtain ⟨p, m, b⟩ := x
    rcases hx with rfl | rfl
    · exact ⟨rfl, rfl⟩
    · exact ⟨rfl, rfl⟩
  obtain ⟨c, hc⟩ := Option.isSome_iff_exists.1 hsome
  obtain ⟨⟨p, m, b⟩, hy, hp, hb⟩ := foldl_steers stopForMove_steers (I := fun x => x.1 = .running ∨ x.1 = .saving 2)
    (J := fun x => x.1 = .saving 2 ∧ x.2.2 = true) hstop (fun x hx => .inr hx.1) (s.movers key dest) s _ (courseOf_of_isSome hsome)
    (.inl ⟨mem_movers hc (.inl rfl), .inl hphase⟩)
  cases hp
  cases hb
  exact ⟨m, hy⟩

/-- A context that is attached again where it moved. -/
theorem reattached_course {l : List Nat} (hk : key ∈ l) (hsome : (SMap.find? s.ctxs key).isSome = true) (hphase : (s.ctx key).phase = .saved 2) :
    (l.foldl State.reattach s).courseOf key = some (.saved 0, none, false) := by
  have hback (x : CtxPhase × Option Nat × Bool) (hx : x.1 = .saved 2 ∨ x.1 = .saved 0) : reattached x = (.saved 0, none, false) := by
    obtain ⟨p, m, b⟩ := x
    rcases hx with rfl | rfl
    · exact rfl
    · exact rfl
  obtain ⟨y, hy, rfl⟩ := foldl_steers reattach_steers (I := fun x => x.1 = .saved 2 ∨ x.1 = .saved 0) (J := fun x => x = (.saved 0, none, false))
    hback (fun x hx => .inr (congrArg Prod.fst hx)) l s _ (courseOf_of_isSome hsome) (.inl ⟨hk, .inl hphase⟩)
  exact hy

/-! ## The commands -/

section
variable (H : Takes s fn d false false [(0, 8)])
include H

theorem migration_unknown (h : s.ctxArg d 0 = none) : execMigStart d s = .next ((s.takeDesc fn).complete fn d.htag 1 0) ∧
    execMigStop d s = .next ((s.takeDesc fn).complete fn d.htag 1 0) ∧ execMigCommit d s = .next ((s.takeDesc fn).complete fn d.htag 1 0) := by
  unfold execMigStart execMigStop execMigCommit
  exact ⟨command_done H (onCtx_none h _), command_done H (onCtx_none h _), command_done H (onCtx_none h _)⟩

variable (hk : s.ctxArg d 0 = some key)
include hk

theorem migStart_wrongState (h : (s.ctx key).phase ≠ .running ∧ (∀ o, (s.ctx key).phase ≠ .saving o ∧ (s.ctx key).phase ≠ .saved o) ∨
    (s.ctx key).migrating ≠ none) : execMigStart d s = .next ((s.takeDesc fn).complete fn d.htag 4 0) := by
  unfold execMigStart
  refine command_done H ((onCtx_some hk _).trans (if_pos ?_))
  refine h.imp (fun ⟨hrun, h⟩ => ?_) Option.isSome_iff_ne_none.2
  have hwork : (s.ctx key).atWork = false := by
    unfold Context.atWork
    split
    · next hp => exact absurd hp hrun
    · next o hp => exact absurd hp (h o).1
    · next o hp => exact absurd hp (h o).2
    · rfl
  exact congrArg not hwork

section
variable (hphase : (s.ctx key).phase = .running) (hmig : (s.ctx key).migrating = none)
include hphase hmig

/-- The start of a migration that the context's state allows. -/
theorem execMigStart_of : execMigStart d s = command d false false [(0, 8)] (fun _ =>
    if (s.moveTo key (operand d 2 6)).isNone ∧ !(decide (operand d 2 6 < 4096) && (s.ctx key).job.isSome) then cmdInvalid (s.takeDesc fn)
    else cmdOk ((copyAll (s.takeDesc fn) key (operand d 2 6)).tellPhase key)) s := by
  have hnot : ¬ ((!(s.ctx key).atWork) = true ∨ (s.ctx key).migrating.isSome = true) := by simp [Context.atWork, hphase, hmig]
  unfold execMigStart
  exact command_congr H ((onCtx_some hk _).trans (if_neg hnot))

theorem migStart_invalid (hm : s.moveTo key (operand d 2 6) = none) (h : 4096 ≤ operand d 2 6 ∨ (s.ctx key).job = none) :
    execMigStart d s = .next ((s.takeDesc fn).complete fn d.htag 1 0) := by
  rw [execMigStart_of H hk hphase hmig, if_pos]
  · exact command_done H rfl
  · rw [hm]
    rcases h with h | h
    · simp [h]
    · simp [h]

theorem migStart_done (h : s.moveTo key (operand d 2 6) ≠ none ∨ (operand d 2 6 < 4096 ∧ (s.ctx key).job ≠ none)) : ∃ t : State,
    execMigStart d s = .next (t.complete fn d.htag 0 0) ∧ (t.ctx key).migrating = some (operand d 2 6) ∧ (t.ctx key).phase = .running ∧
      t.dram = s.dram ∧ t.cores = s.cores ∧ (s.moveTo key (operand d 2 6) ≠ none →
        ∀ k c, SMap.find? s.ctxs k = some c → k / 128 = key / 128 → (t.ctx k).migrating = some (operand d 2 6)) := by
  have hsome := isSome_of_ctxArg hk
  obtain ⟨c, hc⟩ := Option.isSome_iff_exists.1 hsome
  have htell (u : State) (k : Nat) : ((u.tellPhase key).ctx k).migrating = (u.ctx k).migrating ∧ ((u.tellPhase key).ctx k).phase = (u.ctx k).phase :=
    ⟨migrating_of_view (view_tellPhase ..) k, phase_of_view (view_tellPhase ..) k⟩
  have hkeeps := foldl_keeps (fun t : State => (t.dram, t.cores)) (copyTo (operand d 2 6)) (copyTo_keeps (operand d 2 6))
    ((s.takeDesc fn).movers key (operand d 2 6)) (s.takeDesc fn)
  have hself := copyAll_course (s := s.takeDesc fn) (key := key) (dest := operand d 2 6) hc (.inl rfl)
  refine ⟨(copyAll (s.takeDesc fn) key (operand d 2 6)).tellPhase key, ?_, (htell _ key).1.trans hself.1,
    (htell _ key).2.trans (hself.2.trans hphase), congrArg Prod.fst hkeeps, congrArg Prod.snd hkeeps, fun hm k c hk hpart =>
      (htell _ k).1.trans (copyAll_course (s := s.takeDesc fn) hk (.inr ⟨hm, hpart⟩)).1⟩
  · rw [execMigStart_of H hk hphase hmig, if_neg]
    · exact command_done H rfl
    · rintro ⟨hnone, hno⟩
      rcases h with h | ⟨hlt, hjob⟩
      · exact h (Option.isNone_iff_eq_none.1 hnone)
      · rw [Option.isSome_iff_ne_none.2 hjob, decide_eq_true hlt] at hno
        cases hno

end

theorem migStop_wrongState (h : (s.ctx key).migrating ≠ some (operand d 2 6) ∨ (s.ctx key).migStopped = true) :
    execMigStop d s = .next ((s.takeDesc fn).complete fn d.htag 4 0) := by
  unfold execMigStop
  exact command_done H ((onCtx_some hk _).trans (if_pos (h.imp_right .inl)))

theorem migStop_stops (hmig : (s.ctx key).migrating = some (operand d 2 6)) (hstop : (s.ctx key).migStopped = false)
    (hphase : (s.ctx key).phase = .running) : ∃ t : State, execMigStop d s = .next t ∧ (t.ctx key).phase = .saving 2 ∧
      (t.ctx key).migStopped = true ∧ (t.ctx key).stopper = some (d.fn, d.htag) := by
  obtain ⟨m, hcourse⟩ := stopAll_course (s := s.takeDesc fn) (operand d 2 6) (isSome_of_ctxArg hk) hphase
  obtain ⟨h1, -, h3⟩ := ctx_of_course hcourse
  have hnot : ¬ ((s.ctx key).migrating ≠ some (operand d 2 6) ∨ (s.ctx key).migStopped = true ∨ (!(s.ctx key).atWork) = true) := by
    simp [Context.atWork, hphase, hmig, hstop]
  have hlater : ¬ ((stopAll (s.takeDesc fn) key (operand d 2 6)).ctx key).phase = .saved 2 := by
    rw [h1]
    decide
  refine ⟨(stopAll (s.takeDesc fn) key (operand d 2 6)).updCtx key fun c => { c with stopper := some (d.fn, d.htag) }, ?_, ?_⟩
  · unfold execMigStop
    exact command_later H ((onCtx_some hk _).trans ((if_neg hnot).trans (if_neg hlater)))
  · rw [ctx_updCtx_some (isSome_of_courseOf hcourse)]
    exact ⟨h1, h3, rfl⟩

theorem migCommit_wrongState (h : (s.ctx key).migrating ≠ some (operand d 2 6) ∨ (s.ctx key).migStopped = false ∨ (s.ctx key).phase ≠ .saved 2) :
    execMigCommit d s = .next ((s.takeDesc fn).complete fn d.htag 4 0) := by
  unfold execMigCommit
  exact command_done H ((onCtx_some hk _).trans (if_pos (h.imp_right (.imp_left fun h => congrArg not h))))

section
variable (hmig : (s.ctx key).migrating = some (operand d 2 6)) (hstop : (s.ctx key).migStopped = true) (hphase : (s.ctx key).phase = .saved 2)
include hmig hstop hphase

/-- A part in which a partition has moved. -/
def moved (s : State) (m : Move) (key : Nat) : State :=
  (((s.ctxsOf (key / 128)).foldl State.reattach ((((s.ctxsOf (key / 128)).foldl (State.moveCtx m) s).tellPhase key).movePart m key))).tellPhase key

/-- The end of a migration that the context's state allows. -/
theorem execMigCommit_of : execMigCommit d s = command d false false [(0, 8)] (fun _ =>
    match s.moveTo key (operand d 2 6) with
    | some m =>
      if !((s.ctxsOf (key / 128)).all fun k => (s.ctx k).readyToMove) then cmdWrongState (s.takeDesc fn)
      else cmdOk (if (moved (s.takeDesc fn) m key).restoreReady key then (moved (s.takeDesc fn) m key).restore key else moved (s.takeDesc fn) m key)
    | none =>
      if operand d 2 6 < 4096 then cmdOk ((((s.takeDesc fn).tellPhase key).depart key).tellPhase key) else cmdNoResource (s.takeDesc fn)) s := by
  have hnot : ¬ ((s.ctx key).migrating ≠ some (operand d 2 6) ∨ (!(s.ctx key).migStopped) = true ∨ (s.ctx key).phase ≠ .saved 2) := by
    simp [hphase, hmig, hstop]
  unfold execMigCommit
  exact command_congr H ((onCtx_some hk _).trans (if_neg hnot))

theorem migCommit_notReady (hm : s.moveTo key (operand d 2 6) ≠ none)
    (h : ∃ c ∈ s.ctxs, c.1 / 128 = key / 128 ∧ (s.ctx c.1).readyToMove = false) :
    execMigCommit d s = .next ((s.takeDesc fn).complete fn d.htag 4 0) := by
  obtain ⟨m, hm⟩ := Option.ne_none_iff_exists'.1 hm
  have hall : ((s.ctxsOf (key / 128)).all fun k => (s.ctx k).readyToMove) = false := by
    obtain ⟨c, hc, hpart, hready⟩ := h
    exact List.all_eq_false.2 ⟨c.1, List.mem_map_of_mem (List.mem_filter.2 ⟨hc, by simpa using hpart⟩), by rw [hready]; decide⟩
  rw [execMigCommit_of H hk hmig hstop hphase, hm]
  simp only [hall]
  exact command_done H rfl

omit H hk hmig hstop in
theorem moved_course (m : Move) (hsome : (SMap.find? s.ctxs key).isSome = true) : (moved s m key).courseOf key = some (.saved 0, none, false) := by
  obtain ⟨c, hc⟩ := Option.isSome_iff_exists.1 hsome
  have hplan : ((s.ctxsOf (key / 128)).foldl (State.moveCtx m) s).plan = s.plan := foldl_keeps State.plan _ (plan_moveCtx m) _ _
  have hcourse : (((((s.ctxsOf (key / 128)).foldl (State.moveCtx m) s).tellPhase key).movePart m key)).courseOf key = some (s.ctx key).course :=
    (congrFun (congrArg Prod.snd hplan) key).trans (courseOf_of_isSome hsome)
  have hback := reattached_course (mem_ctxsOf_of_find? hc rfl) (isSome_of_courseOf hcourse) ((ctx_of_course hcourse).1.trans hphase)
  exact (congrFun (congrArg Prod.snd (plan_of_view (view_tellPhase ..))) key).trans hback

omit H hk hmig hstop hphase in
theorem parts_moved {p : Partition} (m : Move) (hp : s.partition? key = some p) :
    SMap.find? (moved s m key).parts (key / 128) = some { p with gmask := m.dst.foldl (fun n g => n + 2 ^ g) 0 } := by
  have hplan : ((s.ctxsOf (key / 128)).foldl (State.moveCtx m) s).parts = s.parts :=
    congrArg Prod.fst (foldl_keeps State.plan _ (plan_moveCtx m) _ _)
  have hparts : (moved s m key).parts =
      ((((s.ctxsOf (key / 128)).foldl (State.moveCtx m) s).tellPhase key).movePart m key).parts :=
    (congrArg Prod.fst (plan_of_view (view_tellPhase _ key))).trans (parts_foldl_steers reattach_steers ..)
  have hget : SMap.get s.parts ⟨0, 0, 0, 0, 0⟩ (key / 128) = p := by
    rw [SMap.get]
    exact congrArg (Option.getD · _) hp
  have hupd : ((((s.ctxsOf (key / 128)).foldl (State.moveCtx m) s).tellPhase key).movePart m key).parts =
      SMap.set ((s.ctxsOf (key / 128)).foldl (State.moveCtx m) s).parts (key / 128)
        { SMap.get ((s.ctxsOf (key / 128)).foldl (State.moveCtx m) s).parts ⟨0, 0, 0, 0, 0⟩ (key / 128) with
          gmask := m.dst.foldl (fun n g => n + 2 ^ g) 0 } := rfl
  rw [hparts, hupd, hplan, hget, SMap.find?_set_self]

theorem migCommit_moves {p : Partition} (hp : s.partition? key = some p) (hm : s.moveTo key (operand d 2 6) ≠ none)
    (h : ∀ c ∈ s.ctxs, c.1 / 128 = key / 128 → (s.ctx c.1).readyToMove = true) : ∃ (t : State) (q : Partition),
    execMigCommit d s = .next (t.complete fn d.htag 0 0) ∧ SMap.find? t.parts (key / 128) = some q ∧ q.gmask = operand d 2 6 ∧ q.fn0 = p.fn0 ∧
      q.fn1 = p.fn1 ∧ (t.ctx key).migrating = none ∧ (t.ctx key).migStopped = false ∧ ((t.ctx key).phase = .saved 0 ∨ (t.ctx key).phase = .running) := by
  obtain ⟨m, hm⟩ := Option.ne_none_iff_exists'.1 hm
  obtain ⟨hlt, hdst⟩ := moveTo_some hm
  have hall : ((s.ctxsOf (key / 128)).all fun k => (s.ctx k).readyToMove) = true := by
    refine List.all_eq_true.2 fun k hk => ?_
    obtain ⟨c, hc, rfl⟩ := List.mem_map.1 hk
    obtain ⟨hmem, hpart⟩ := List.mem_filter.1 hc
    exact h c hmem (by simpa using hpart)
  obtain ⟨hparts, ph, hph, hcourse⟩ := restoreIf_course (moved_course (s := s.takeDesc fn) hphase m (isSome_of_ctxArg hk))
  obtain ⟨h1, h2, h3⟩ := ctx_of_course hcourse
  refine ⟨_, _, ?_, (congrArg (SMap.find? · (key / 128)) hparts).trans (parts_moved (s := s.takeDesc fn) m hp), ?_, rfl, rfl, h2, h3, h1.symm ▸ hph⟩
  · rw [execMigCommit_of H hk hmig hstop hphase, hm]
    simp only [hall]
    exact command_done H rfl
  · change m.dst.foldl (fun n g => n + 2 ^ g) 0 = operand d 2 6
    rw [hdst, granulesOf, sum_of_bits, Nat.mod_eq_of_lt hlt]

theorem migCommit_noResource (hm : s.moveTo key (operand d 2 6) = none) (h : 4096 ≤ operand d 2 6) :
    execMigCommit d s = .next ((s.takeDesc fn).complete fn d.htag 3 0) := by
  rw [execMigCommit_of H hk hmig hstop hphase, hm]
  exact command_done H (if_neg (Nat.not_lt.2 h))

omit H hk hmig hstop hphase in
/-- Nothing of a context that leaves the part stays there. -/
theorem find?_depart (s : State) (key : Nat) : SMap.find? (s.depart key).ctxs key = none := by
  have hgates (t : State) : t.takeGates.ctxs = t.ctxs := rfl
  unfold State.depart
  rw [hgates, find?_destroyCtx_self]

theorem migCommit_departs (hm : s.moveTo key (operand d 2 6) = none) (h : operand d 2 6 < 4096) : ∃ t : State,
    execMigCommit d s = .next (t.complete fn d.htag 0 0) ∧ SMap.find? t.ctxs key = none := by
  have htell (t : State) : (t.tellPhase key).ctxs = t.ctxs := rfl
  refine ⟨(((s.takeDesc fn).tellPhase key).depart key).tellPhase key, ?_, ?_⟩
  · rw [execMigCommit_of H hk hmig hstop hphase, hm]
    exact command_done H (if_pos h)
  · rw [htell, find?_depart]

end

end

end

end Sys2Proof.Machine.ContextCommands
end

