-- ==== Sys2Proof/Proofs/ContextObligation.lean ====
section
/-!
All the commands on contexts (R278, R363, R370, R373, R374, R379, R384, R401, R402, R404, R405).
-/
namespace Sys2Proof.Machine.ContextCommands

open CommandQueue ContextSteps

section
variable {d : Desc} {s : State} {fn key : Nat}

/-- What a report shows of the part. -/
theorem report_eq (nonce : List Byte) (m3 : Option (List Byte)) : s.report nonce m3 =
    (nonce ++ Sha384.digest Config.rom ++ Sha384.digest s.mgmt.running ++ Sha384.digest s.config ++ (m3.map Sha384.digest).getD []) ++
      leBytes (Config.signReport (Sha384.digest (nonce ++ Sha384.digest Config.rom ++ Sha384.digest s.mgmt.running ++ Sha384.digest s.config ++
        (m3.map Sha384.digest).getD []))).toNat 96 := by
  cases m3 <;> rfl

theorem ctxResume_away (H : Takes s fn d true false [(0, 2)]) (hk : s.ctxArg d 0 = some key)
    (h : (s.ctx key).phase = .saved 1 ∨ (s.ctx key).phase = .saved 3)
    (hready : ((s.takeDesc fn).updCtx key fun c => { c with phase := .saved 0 }).restoreReady key = false) :
    execCtxResume d s = .next (State.complete ((s.takeDesc fn).updCtx key fun c => { c with phase := .saved 0 }) fn d.htag 0 0) := by
  rw [ctxResume_resumes H hk h, if_neg (Bool.eq_false_iff.1 hready)]

theorem ctxResume_here (H : Takes s fn d true false [(0, 2)]) (hk : s.ctxArg d 0 = some key)
    (h : (s.ctx key).phase = .saved 1 ∨ (s.ctx key).phase = .saved 3)
    (hready : ((s.takeDesc fn).updCtx key fun c => { c with phase := .saved 0 }).restoreReady key = true) :
    execCtxResume d s = .next (State.complete (((s.takeDesc fn).updCtx key fun c => { c with phase := .saved 0 }).restore key) fn d.htag 0 0) := by
  rw [ctxResume_resumes H hk h, if_pos hready]

/-- A function that a command resets. -/
theorem vfReset_done (H : Takes s fn d false false [(0, 1)]) (h1 : 1 ≤ operand d 0 1) (h96 : operand d 0 1 ≤ 96) : ∃ t : State,
    execVfReset d s = .next t ∧ (t.fnOf (operand d 0 1)).queue = [] ∧ (t.fnOf (operand d 0 1)).flr = false ∧
      (t.fnOf 0).done.getLast? = some (d.htag, 0, 0) ∧ ∀ key, s.keysOfFn (operand d 0 1) = [key] → (t.ctx key).phase = .created := by
  obtain ⟨-, hqueue, hflr⟩ := resetFn_told (resetAsked (s.takeDesc fn) (operand d 0 1) d.htag) (operand d 0 1)
  exact ⟨_, vfReset_resets H h1 h96, hqueue, hflr, resetFn_done .., fun key hkey =>
    (resetFn_ctx (s := resetAsked (s.takeDesc fn) (operand d 0 1) d.htag) hkey).1⟩

end

/-- Settles O56: each command by its refusals and by what it does; a migration by the courses of the contexts it moves. -/
theorem contextCommands : Obligations.context_commands := by
  unfold Obligations.context_commands
  intro d s fn
  refine ⟨fun H => ?_, fun H => ?_, fun H => ?_, fun H => ?_, fun H => ?_, fun H hm => ?_, fun H => ?_, fun H => ?_, fun H => ?_⟩
  · refine ⟨ctxStart_unknown H, fun key hk => ⟨ctxStart_wrongState H hk, fun hp => ⟨ctxStart_noHeader H hk hp, fun h hal hh =>
      ⟨ctxStart_badHeader H hk hp hal hh, fun hok => ?_⟩⟩⟩⟩
    obtain ⟨t, hout, himage, hmap, hphase⟩ := ctxStart_starts H hk hp hal hh hok
    exact ⟨t, imageOf h, hout, himage, rfl, rfl, rfl, hmap, hphase⟩
  · exact ⟨fun h => ⟨ctxStop_unknown H h, ctxResume_unknown H h⟩, fun key hk => ⟨ctxStop_moving H hk, fun hm =>
      ⟨ctxStop_saves H hk hm, ctxStop_saved H hk hm, ctxStop_wrongState H hk hm⟩, fun h => ⟨ctxResume_away H hk h, ctxResume_here H hk h⟩,
      ctxResume_wrongState H hk⟩⟩
  · exact ⟨vfReset_invalid H, vfReset_done H⟩
  · refine ⟨migration_unknown H, fun key p hk hp => ⟨⟨migStart_wrongState H hk, fun hphase hmig => ⟨migStart_invalid H hk hphase hmig,
      migStart_done H hk hphase hmig⟩⟩, ⟨migStop_wrongState H hk, fun hmig hstop hphase _ => migStop_stops H hk hmig hstop hphase⟩,
      migCommit_wrongState H hk, fun hmig hstop hphase => ⟨fun hm => ⟨migCommit_notReady H hk hmig hstop hphase hm,
        migCommit_moves H hk hmig hstop hphase hp hm⟩, migCommit_noResource H hk hmig hstop hphase, migCommit_departs H hk hmig hstop hphase⟩⟩⟩
  · exact ⟨cntRead_unknown H, fun key hk => cntRead_done H hk⟩
  · refine ⟨fun key hk => ?_, fun hnone hf ho => ?_, attest_invalid H⟩
    · obtain ⟨t, hout, hctxs, hdram, hreport⟩ := attest_done H hm (.inl (by rw [hk]; exact Option.some_ne_none key))
      rw [hk, report_eq] at hreport
      exact ⟨t, hout, hctxs, hdram, hreport _ rfl⟩
    · obtain ⟨t, hout, hctxs, hdram, hreport⟩ := attest_done H hm (.inr ⟨hf, ho⟩)
      rw [hnone, report_eq] at hreport
      exact ⟨t, hout, hctxs, hdram, hreport _ rfl⟩
  · exact ⟨fun h => ⟨dbgAttach_unknown H h, dbgDetach_unknown H h⟩, fun key hk => ⟨dbgAttach_done H hk, dbgDetach_done H hk⟩⟩
  · exact ⟨dbgMem_unknown H, fun key hk => ⟨dbgMem_wrongState H hk, fun hdbg hph => ⟨dbgMem_invalid H hk hdbg hph, dbgMem_unreadable H hk hdbg hph,
      fun v h0 h hm => dbgMem_reads H hk hdbg hph h0 h hm, dbgMem_forbidden H hk hdbg hph, dbgMem_writes H hk hdbg hph⟩⟩⟩
  · exact ⟨patchLoad_valid H, patchLoad_refused H⟩

end Sys2Proof.Machine.ContextCommands
end
